-- ==== Sys2Proof/Word.lean ====
section
/-! DEFINITION. The word and byte types of Merrok and their plainest arithmetic (R9: bit 0 is the
least significant bit; scalar registers are 64 bits, R87). -/

namespace Sys2Proof

/-- A 64-bit scalar value, pointer or program counter (R26, R87, R100). -/
abbrev Word := BitVec 64

/-- One byte of memory (R9). -/
abbrev Byte := BitVec 8

end Sys2Proof
end

