-- ==== Sys2Proof/Config.lean ====
section
/-! DEFINITION. What an implementation fixes and the free values: constants without a body, so that no
proof can see their value. Assumption log 3 names each of them. -/

namespace Sys2Proof.Config

/-- Seed of the stochastic state of the n-th card that asks for one: free to the implementation
but never zero (R231). Read through `Machine.cardSeed`, which keeps it from zero. -/
opaque cardSeed : Nat → BitVec 32

/-- Which of several present blocks a `strmkv` pop delivers: the order in which their reads complete (R241). -/
opaque freePick : Nat → Nat

/-- The flit payloads that carry a train of a source to a device, by its number: the manual lays down no packing
(R244, R352). -/
opaque trainFlits : (src dest seq : Nat) → List (BitVec 1856)

/-- The flit payload that acknowledges a train of a source to its device, by its number: likewise (R245, R352). -/
opaque ackFlit : (src dest seq : Nat) → BitVec 1856

/-- The stack on which the elements of a reduction flit's payload lie: the manual lays down no packing (R283, R354). -/
opaque flitStack : BitVec 1856 → Nat

/-- Silicon stepping in IDREG [23:16] (Table 24-4). -/
opaque stepping : BitVec 8

/-- Device serial number (R382). -/
opaque serial : BitVec 64

/-- Device public key, DEVPUB (Table 26-1). -/
opaque devPub : BitVec 256

/-- Nophor's signature over the device key, DEVPSIG (Table 26-1). -/
opaque devPSig : BitVec 512

/-- SHA-512, a published standard that the manual names and does not lay down (R380, R382). -/
opaque sha512 : List Byte → BitVec 512

/-- Ed25519 verification under fused Nophor key `k` (R380): key, digest, signature. -/
opaque verify : Nat → BitVec 512 → BitVec 512 → Bool

/-- Whether Nophor key `k` is revoked (Table 26-7). -/
opaque revoked : Nat → Bool

/-- Ed25519 signature by the device key (R382). -/
opaque sign : BitVec 512 → BitVec 512

end Sys2Proof.Config
end

