-- ==== Sys2Proof/Syntax.lean ====
section
/-! DEFINITION. The instructions and events of Merrok: one constructor of `Instr` for each row of
spec/opcode_table.json. A form of the 96-bit word carries its guard and hints (`Ctl`) and the fields
of its format (Table 2-5); a seep operation carries the fields of its slot (Table 17-2); an event of a
unit or of the outside carries what the event brings. -/

namespace Sys2Proof

/-- Guard and hints of an instruction word, bits [81:70] (Table 2-2). -/
structure Ctl where
  gn : Bool
  gp : Fin 8
  stall : BitVec 4
  hyield : Bool
  chain : Bool
  lasta : Bool
  lastb : Bool
deriving DecidableEq, Repr

/-- Scopes and hierarchy levels (Table 2-4). -/
inductive Scope
  | none | core | cluster | quarter | device | domain | system
  | lv (n : Fin 8)
deriving DecidableEq, Repr

/-- An operand field: class and index (Table 2-3). The field 0x000 is `s 0`. -/
inductive Operand
  | s (n : Fin 64)
  | v (n : Fin 32)
  | m (n : Fin 6)
  | p (n : Fin 8)
  | d (n : Fin 3)
  | acc (n : Fin 16)
  | b (n : Fin 32)
  | tk (n : Fin 16)
  | h (n : Fin 8)
  | g (n : Fin 4)
  | cr (n : BitVec 8)
  | imm (n : BitVec 8)
  | sc (x : Scope)
deriving DecidableEq, Repr

/-- Element types (Table 2-6). -/
inductive Ty
  | fm | i | n | e4m3 | e5m2 | e2m1 | f16 | bf16 | f32 | nb8e4 | nb8e2
deriving DecidableEq, Repr

/-- Rounding codes 0 to 6 (Table 2-7). -/
inductive RMode
  | rne | rtz | rdn | rup | rna | rsto | dyn
deriving DecidableEq, Repr

/-- Format FR (Table 2-5). -/
structure FR where
  opd : Operand
  opa : Operand
  opb : Operand
  ta : Ty
  tb : Ty
  wid : BitVec 6
  rm : RMode
  sat : Bool
  msk : Fin 6
  sub : BitVec 5
deriving DecidableEq, Repr

/-- Format FI (Table 2-5). -/
structure FI where
  opd : Operand
  opa : Operand
  imm : BitVec 40
deriving DecidableEq, Repr

/-- Format FM (Table 2-5). -/
structure FM where
  opd : Operand
  opa : Operand
  opb : Operand
  ta : Ty
  ff : Bool
  ph : Bool
  nt : Bool
  disp : BitVec 12
  msk : Fin 6
  scope : Scope
deriving DecidableEq, Repr

/-- Format FB (Table 2-5). -/
structure FB where
  opd : Operand
  opa : Operand
  pdisp : BitVec 36
  tslot : Fin 10
deriving DecidableEq, Repr

/-- Format FE (Table 2-5). -/
structure FE where
  opd : Operand
  opa : Operand
  opb : Operand
  nreg : BitVec 4
  scope : Scope
  parm : BitVec 19
deriving DecidableEq, Repr

/-- Format FX (Table 2-5). -/
structure FX where
  opd : Operand
  opa : Operand
  opb : Operand
  xf : BitVec 10
  yf : BitVec 10
  msk : Fin 6
  sub : BitVec 5
deriving DecidableEq, Repr

/-- Atomic operations, in FN order (Table 3-6). -/
inductive AmoOp
  | add | and | or | xor | min | max | minn | maxn | swap
deriving DecidableEq, Repr

/-- Card kinds, in FN order (Table 3-7). -/
inductive CardKind
  | copy | rcopy | tile | nb8p | nb8u | rerot | kvpatch | kvcompact | fill
deriving DecidableEq, Repr

/-- Fields of a seep arithmetic slot (Table 17-2). -/
structure SeepArith where
  wd : Fin 16
  wa : Fin 16
  wb : Fin 16
  ty : BitVec 4
  imm : BitVec 8
deriving DecidableEq, Repr

/-- One reduction element on its way to a destination device (R244), with the mark of poisoned data (R366). -/
structure Elem where
  va : Nat
  val : Word
  bad : Bool
deriving DecidableEq, Repr

/-- An element train (R244): its source, engine, operation, element size and elements. `write`
marks the trains of a remote COPY or FILL, whose elements are written and not combined (R234). -/
structure Train where
  srcDev : Nat
  src : Nat
  seq : BitVec 32
  asid : Fin 16
  write : Bool
  op : Nat
  zlog : Nat
  elems : List Elem
deriving DecidableEq, Repr

/-- Who waits for a page (R326): a loop context (core × 4 + LC), a card, or a stash write-back
of a core. -/
inductive Waiter
  | ctx (k : Nat)
  | card (id : Nat)
deriving DecidableEq, Repr

/-- Where a memory error strikes (Table 26-2). -/
inductive ErrSite
  | tarnReg (core : Nat) (lane : Nat) (lc : Fin 4) (entry : Fin 32)
  | tarnTag (core : Nat) (lane : Nat)
  | stash (core : Nat) (off : Nat)
  | cell (core : Nat) (lane : Nat) (cell : Fin 16)
  | tile (core : Nat) (slot : Fin 32) (off : Nat)
  | l1 (core : Nat) (asid : Fin 16) (va : Nat)
  | l2 (pa : Nat)
  | cluster (cl : Nat) (off : Nat)
  | hbm (pa : Nat)
  | seep (kernel : Nat) (word : Nat) (unitId : Nat)
  | tlb (core : Nat) (asid : Fin 16) (va : Nat)
  | prefixEntry (e : Fin 64)
  | probeEntry (e : Fin 256)
  | control (q : Fin 4)
deriving DecidableEq, Repr

/-- One row of spec/opcode_table.json each. -/
inductive Instr
  -- control, R89 to R92
  | nop (c : Ctl) (f : FR) | br (c : Ctl) (f : FB) | call (c : Ctl) (f : FB)
  | brr (c : Ctl) (f : FR) | callr (c : Ctl) (f : FR) | ret (c : Ctl) (f : FR)
  | vloop (c : Ctl) (f : FB) | vend (c : Ctl) (f : FB) | vbreak (c : Ctl) (f : FR)
  | exit (c : Ctl) (f : FR) | yield (c : Ctl) (f : FR)
  | trap (c : Ctl) (f : FI) | brk (c : Ctl) (f : FI) | rfe (c : Ctl) (f : FR)
  -- scalar integer, R93 to R97
  | add (c : Ctl) (f : FR) | sub (c : Ctl) (f : FR) | mul (c : Ctl) (f : FR)
  | mulh (c : Ctl) (f : FR) | mulhn (c : Ctl) (f : FR)
  | div (c : Ctl) (f : FR) | divn (c : Ctl) (f : FR) | rem (c : Ctl) (f : FR) | remn (c : Ctl) (f : FR)
  | and (c : Ctl) (f : FR) | or (c : Ctl) (f : FR) | xor (c : Ctl) (f : FR) | andn (c : Ctl) (f : FR)
  | shl (c : Ctl) (f : FR) | shr (c : Ctl) (f : FR) | sar (c : Ctl) (f : FR) | rot (c : Ctl) (f : FR)
  | min (c : Ctl) (f : FR) | max (c : Ctl) (f : FR) | minn (c : Ctl) (f : FR) | maxn (c : Ctl) (f : FR)
  | clz (c : Ctl) (f : FR) | ctz (c : Ctl) (f : FR) | popc (c : Ctl) (f : FR) | sext (c : Ctl) (f : FR)
  | bext (c : Ctl) (f : FX) | bins (c : Ctl) (f : FX)
  | li (c : Ctl) (f : FI) | lih (c : Ctl) (f : FI) | mov (c : Ctl) (f : FR) | sel (c : Ctl) (f : FR)
  | hmix (c : Ctl) (f : FR)
  -- scalar float, R98
  | sfadd (c : Ctl) (f : FR) | sfmul (c : Ctl) (f : FR) | sffma (c : Ctl) (f : FR)
  | sfcmp (c : Ctl) (f : FR) | sfcvt (c : Ctl) (f : FR) | sfmm (c : Ctl) (f : FR)
  -- predicates, control registers and pointers, R99 to R104
  | cmp (c : Ctl) (f : FR) | pand (c : Ctl) (f : FR) | por (c : Ctl) (f : FR) | pxor (c : Ctl) (f : FR)
  | pnot (c : Ctl) (f : FR) | pany (c : Ctl) (f : FR) | mfc (c : Ctl) (f : FR) | mtc (c : Ctl) (f : FR)
  | spt (c : Ctl) (f : FR) | spc (c : Ctl) (f : FR) | spid (c : Ctl) (f : FR) | spmk (c : Ctl) (f : FR)
  -- vector setup and vector integer, R111 to R116
  | vfmap (c : Ctl) (f : FR) | vdim (c : Ctl) (f : FR) | vsid (c : Ctl) (f : FR) | vidx (c : Ctl) (f : FR)
  | vbcast (c : Ctl) (f : FR)
  | vadd (c : Ctl) (f : FR) | vsub (c : Ctl) (f : FR) | vadds (c : Ctl) (f : FR) | vsubs (c : Ctl) (f : FR)
  | vneg (c : Ctl) (f : FR) | vabs (c : Ctl) (f : FR) | vmul (c : Ctl) (f : FR) | vmulh (c : Ctl) (f : FR)
  | vmac (c : Ctl) (f : FR) | vmin (c : Ctl) (f : FR) | vmax (c : Ctl) (f : FR)
  | vand (c : Ctl) (f : FR) | vor (c : Ctl) (f : FR) | vxor (c : Ctl) (f : FR) | vnot (c : Ctl) (f : FR)
  | vshl (c : Ctl) (f : FR) | vshr (c : Ctl) (f : FR) | vsar (c : Ctl) (f : FR)
  | vcmp (c : Ctl) (f : FR) | vsel (c : Ctl) (f : FR) | vmov (c : Ctl) (f : FR) | vcvt (c : Ctl) (f : FR)
  | vpopc (c : Ctl) (f : FR) | vclz (c : Ctl) (f : FR) | vbext (c : Ctl) (f : FX)
  -- vector float, R117 to R122
  | vfadd (c : Ctl) (f : FR) | vfsub (c : Ctl) (f : FR) | vfmul (c : Ctl) (f : FR) | vffma (c : Ctl) (f : FR)
  | vfmm (c : Ctl) (f : FR) | vfcmp (c : Ctl) (f : FR) | vfcvt (c : Ctl) (f : FR) | vfsgn (c : Ctl) (f : FR)
  | vfexp2 (c : Ctl) (f : FR) | vfrcp (c : Ctl) (f : FR) | vfscl (c : Ctl) (f : FR) | vfnb8 (c : Ctl) (f : FR)
  -- associative and mask, R126 to R137
  | asrch (c : Ctl) (f : FX) | asrchr (c : Ctl) (f : FX) | awr (c : Ctl) (f : FX) | apass (c : Ctl) (f : FX)
  | acnt (c : Ctl) (f : FR) | afirst (c : Ctl) (f : FR) | atopk (c : Ctl) (f : FX) | aext (c : Ctl) (f : FX)
  | ahamm (c : Ctl) (f : FR) | asred (c : Ctl) (f : FR) | ared (c : Ctl) (f : FR) | vhash (c : Ctl) (f : FR)
  | mand (c : Ctl) (f : FR) | mor (c : Ctl) (f : FR) | mxor (c : Ctl) (f : FR) | mnot (c : Ctl) (f : FR)
  -- matrix, R144 to R154
  | msetmvl (c : Ctl) (f : FR) | mrow (c : Ctl) (f : FX) | mrowh (c : Ctl) (f : FX)
  | msacc (c : Ctl) (f : FR) | mext (c : Ctl) (f : FR) | mclrAcc (c : Ctl) (f : FR) | mclrB (c : Ctl) (f : FR)
  | mzfScan (c : Ctl) (f : FR) | mzfGet (c : Ctl) (f : FR) | mwait (c : Ctl) (f : FR) | mtok (c : Ctl) (f : FR)
  | mdrain (c : Ctl) (f : FR)
  -- memory, R212 to R221
  | ld (c : Ctl) (f : FM) | st (c : Ctl) (f : FM)
  | vld (c : Ctl) (f : FM) | vlds (c : Ctl) (f : FM) | vldx (c : Ctl) (f : FM) | vldd (c : Ctl) (f : FM)
  | vst (c : Ctl) (f : FM) | vsts (c : Ctl) (f : FM) | vstx (c : Ctl) (f : FM) | vstd (c : Ctl) (f : FM)
  | vldh (c : Ctl) (f : FM) | vsth (c : Ctl) (f : FM) | prf (c : Ctl) (f : FM)
  | cmoWb (c : Ctl) (f : FM) | cmoBind (c : Ctl) (f : FM) | cmoInv (c : Ctl) (f : FM) | stfl (c : Ctl) (f : FM)
  -- atomics and synchronisation, R222 to R228
  | amo (c : Ctl) (op : AmoOp) (f : FM) | cas (c : Ctl) (f : FM) | vamo (c : Ctl) (op : AmoOp) (f : FM)
  | scred (c : Ctl) (f : FE) | binap (c : Ctl) (f : FE) | binpl (c : Ctl) (f : FE)
  | phase (c : Ctl) (f : FR) | barinit (c : Ctl) (f : FR) | bararr (c : Ctl) (f : FR)
  | barwait (c : Ctl) (f : FR) | bartest (c : Ctl) (f : FR)
  -- engines and streams, R230 to R243, R275
  | card (c : Ctl) (k : CardKind) (f : FE) | cardq (c : Ctl) (f : FR)
  | strm (c : Ctl) (f : FX) | strmkv (c : Ctl) (f : FX) | strmxStop (c : Ctl) (f : FR) | strmxStat (c : Ctl) (f : FR)
  | seep (c : Ctl) (f : FE) | gath (c : Ctl) (f : FE)
  -- handles and generators, R253 to R263
  | hld (c : Ctl) (f : FM) | hst (c : Ctl) (f : FM) | hqWord (c : Ctl) (f : FR) | hqInv (c : Ctl) (f : FR)
  | hmaskLin (c : Ctl) (f : FR) | hmaskTr (c : Ctl) (f : FR) | gstart (c : Ctl) (f : FR) | ginv (c : Ctl) (f : FR)
  | gnextScalar (c : Ctl) (f : FR) | gnextVector (c : Ctl) (f : FR)
  -- taps, R267 to R272
  | tap (c : Ctl) (f : FX) | tapfin (c : Ctl) (f : FR) | tapq (c : Ctl) (f : FR)
  -- system, launch, translation, serving, R301 to R345
  | launch (c : Ctl) (f : FE) | withdraw (c : Ctl) (f : FE)
  | pgreq (c : Ctl) (f : FM) | pgpin (c : Ctl) (f : FM) | pgunpin (c : Ctl) (f : FM)
  | tlbi (c : Ctl) (f : FR) | hot (c : Ctl) (f : FR)
  | pfxlFind (c : Ctl) (f : FR) | pfxlPin (c : Ctl) (f : FR) | pfxlPage (c : Ctl) (f : FR)
  | pfxiIns (c : Ctl) (f : FR) | pfxiUnpin (c : Ctl) (f : FR)
  -- seep operations, R278
  | seepLoop | seepHalt | seepSync
  | fld (wd : Fin 16) (col : Fin 16) | fldx (wd : Fin 16) (wa : Fin 16)
  | seepAdd (a : SeepArith) | seepMul (a : SeepArith) | fma (a : SeepArith) | deq (a : SeepArith)
  | seepMax (a : SeepArith) | rsum (a : SeepArith)
  | seepSt (wa : Fin 16) (col : Fin 16) | stc (wa : Fin 16) | red (wa : Fin 16) (col : Fin 16) (mode : Fin 3)
  -- events of units and of the outside
  | deviceReset (fitted : Bool) (bdfail : BitVec 12)
  | stripStart (core : Fin 320) (lc : Fin 4)
  | tarnScrub (core : Fin 320) (lane : BitVec 14)
  | rowAccept (core : Fin 320) | rowComplete (core : Fin 320) (k : Nat)
  | storePerform (k : Nat)
  | stashFill (core : Fin 320) (line : Nat) (sector : Fin 4)
  | stashWriteBack (core : Fin 320) (line : Nat) (sector : Fin 4)
  | backInvalidate (sector : Nat)
  | cardDispatch (q : Fin 4) | cardReleasedArrival (id : Nat) | cardVisibleArrival (id : Nat)
  | streamReadAhead (core : Fin 320) (lc : Fin 4) (r : Fin 4)
  | gatherVisibleArrival (id : Nat)
  | trainReceive (t : Train) | trainAck (src : Nat) (dest : Nat) (seq : BitVec 32)
  | seepClaimGrant (id : Nat) | seepKernelFail (id : Nat) (unitId : Nat) | seepRelease (id : Nat)
  | hostWindowWrite (w : Fin 64) (off : Nat) (bytes : List Byte) (dmwr : Bool)
  | wdraw (tag : Word)
  | gangStart (launch : Nat) (gang : Nat) (cores : List Nat) | launchComplete (launch : Nat)
  | quantumExpiry (launch : Nat) (gang : Nat)
  | preemptDecision (q : Fin 4) (outLaunch outGang inLaunch inGang : Nat)
  | stopPointReached (q : Fin 4) | swapSave (q : Fin 4) | swapLoad (q : Fin 4) (cores : List Nat)
  | trapRecordWrite (q : Fin 4)
  | migrationSectorCopy (q : Fin 4) | migrationFinish (q : Fin 4)
  | residencyRewalk (w : Waiter) | hotnessAdd (k : Nat)
  -- events of registers, links, time and errors
  | tqconsWrite (m : Fin 4) (q : Fin 4) (v : Word)
  | tqactReplay (m : Fin 4) (q : Fin 4) (v : Word) | tqactTerminate (m : Fin 4) (q : Fin 4) (v : Word)
  | quantumWrite (m : Fin 4) (q : Fin 4) (v : Word)
  | savebaseWrite (m : Fin 4) (q : Fin 4) (v : Word) | savelimWrite (m : Fin 4) (q : Fin 4) (v : Word)
  | migvaWrite (m : Fin 4) (q : Fin 4) (v : Word) | migrationStart (m : Fin 4) (q : Fin 4) (v : Word)
  | rqconsWrite (m : Fin 4) (v : Word)
  | tlbia (m : Fin 4) (v : Word) | rpclr (m : Fin 4) (v : Word) | pfxinv (m : Fin 4) (v : Word)
  | probeStageWrite (m : Fin 4) (e : Fin 256) (w : Fin 4) (v : Word)
  | probeCommit (m : Fin 4) (e : Fin 256) (v : Word)
  | flitReceive (p : Fin 48) (flit : BitVec 2048) | linkRetryTimeout (p : Fin 48)
  | portctl (m : Fin 4) (v : Word)
  | hostBar4Read (pa : Nat) (n : Nat) | hostBar4Write (pa : Nat) (bytes : List Byte) (dmwr : Bool)
  | msixUnmask (vector : BitVec 11)
  | claim (m : Fin 4) (v : Word) | renew (m : Fin 4) (v : Word) | offer (m : Fin 4) (v : Word)
  | accept (m : Fin 4) (v : Word) | release (m : Fin 4) (v : Word) | leaseExpiry (ms : Nat)
  | mgmtRegisterWrite (m : Fin 4) (off : Nat) (bytes : List Byte) (dmwr : Bool)
  | mlogcons (m : Fin 4) (v : Word)
  | qrst (m : Fin 4) (v : Word) | dstop (m : Fin 4) (v : Word)
  | memoryError (site : ErrSite) (uncorrectable : Bool)
  | thermalBandChange (q : Fin 4) (temp : BitVec 16)
  | fwcmd (m : Fin 4) (v : Word) | attcmd (m : Fin 4) (v : Word)
  | spareWrite (m : Fin 4) (core : Fin 320) (v : Word)
  | rowSpareTableWrite (m : Fin 4) (core : Fin 320) (w : Fin 32) (v : Word)
  | journalConfigWrite (m : Fin 4) (q : Fin 4) (reg : Fin 3) (v : Word)
  | idle
deriving DecidableEq, Repr

end Sys2Proof
end

