-- ==== Sys2Proof/Decode.lean ====
section
/-! DEFINITION. Decoding of the 96-bit instruction word (R30 to R42, R46 to R48) and of the 64-bit seep
word (R50, R51, R278), and the encoder written from the same tables.

A word is sorted in the order of Table 2-9. `forms` is the opcode map: each row says which fields the
form uses and which values it accepts; `Form.fate` judges fates 3 to 5. A row of `forms` may be
narrowed by `sel` where SUB or an operand class chooses between rows of the opcode table. -/

namespace Sys2Proof

/-- What a word that is not an instruction raises (Table 2-9). -/
inductive Fate
  | illegal | reservedField | operandClass
deriving DecidableEq, Repr

/-! ## Field codes -/

/-- Bits lo to lo + n − 1 of a word, as a number. -/
def bitsAt {w : Nat} (x : BitVec w) (lo n : Nat) : Nat := (x.extractLsb' lo n).toNat

/-- One bit of a word. -/
def bitAt {w : Nat} (x : BitVec w) (k : Nat) : Bool := x.getLsbD k

/-- Table 2-4. -/
def Scope.code : Scope → BitVec 5
  | .none => 0 | .core => 1 | .cluster => 2 | .quarter => 3 | .device => 4 | .domain => 5 | .system => 6
  | .lv n => BitVec.ofNat 5 (16 + n)

/-- Table 2-4, read backwards; nothing for a code outside the table. -/
def Scope.ofCode (c : Nat) : Option Scope :=
  match c with
  | 0 => some .none | 1 => some .core | 2 => some .cluster | 3 => some .quarter
  | 4 => some .device | 5 => some .domain | 6 => some .system
  | n => if 16 ≤ n ∧ n < 24 then some (.lv ⟨n % 8, Nat.mod_lt _ (by decide)⟩) else Option.none

/-- Table 2-6. -/
def Ty.code : Ty → BitVec 5
  | .fm => 0 | .i => 1 | .n => 2 | .e4m3 => 3 | .e5m2 => 4 | .e2m1 => 5 | .f16 => 6 | .bf16 => 7
  | .f32 => 8 | .nb8e4 => 9 | .nb8e2 => 10

/-- Table 2-6, read backwards; `fm` for a code outside the table, which `Form.fate` refuses first. -/
def Ty.ofCode (c : Nat) : Ty :=
  match c with
  | 1 => .i | 2 => .n | 3 => .e4m3 | 4 => .e5m2 | 5 => .e2m1 | 6 => .f16 | 7 => .bf16 | 8 => .f32
  | 9 => .nb8e4 | 10 => .nb8e2 | _ => .fm

/-- Table 2-7. -/
def RMode.code : RMode → BitVec 3
  | .rne => 0 | .rtz => 1 | .rdn => 2 | .rup => 3 | .rna => 4 | .rsto => 5 | .dyn => 6

/-- Table 2-7, read backwards. -/
def RMode.ofCode (c : Nat) : RMode :=
  match c with
  | 1 => .rtz | 2 => .rdn | 3 => .rup | 4 => .rna | 5 => .rsto | 6 => .dyn | _ => .rne

/-- The class of an operand (Table 2-3). -/
def Operand.cls : Operand → Nat
  | .s _ => 0 | .v _ => 1 | .m _ => 2 | .p _ => 3 | .d _ => 4 | .acc _ => 5 | .b _ => 6 | .tk _ => 7
  | .h _ => 8 | .g _ => 9 | .cr _ => 10 | .imm _ => 11 | .sc _ => 12

/-- The index of an operand within its class. -/
def Operand.idx : Operand → Nat
  | .s n => n | .v n => n | .m n => n | .p n => n | .d n => n | .acc n => n | .b n => n | .tk n => n
  | .h n => n | .g n => n | .cr n => n.toNat | .imm n => n.toNat | .sc x => x.code.toNat

/-- The 12-bit operand field (R33). -/
def Operand.code (o : Operand) : BitVec 12 :=
  BitVec.ofNat 4 o.cls ++ BitVec.ofNat 8 o.idx

/-- Indexes a class has (Table 2-3); class 0xC is judged by the scope table and 0xA by Table 6-6. -/
def classSize (cls : Nat) : Nat :=
  match cls with
  | 0 => 64 | 1 => 32 | 2 => 6 | 3 => 8 | 4 => 3 | 5 => 16 | 6 => 32 | 7 => 16 | 8 => 8 | 9 => 4
  | 10 => 256 | 11 => 256 | 12 => 256 | _ => 0

/-- The operand of a 12-bit field; `s 0` where the field names none, which `Form.fate` refuses first. -/
def Operand.ofCode (cls idx : Nat) : Operand :=
  match cls with
  | 0 => .s (Fin.ofNat 64 idx) | 1 => .v (Fin.ofNat 32 idx) | 2 => .m (Fin.ofNat 6 idx)
  | 3 => .p (Fin.ofNat 8 idx) | 4 => .d (Fin.ofNat 3 idx) | 5 => .acc (Fin.ofNat 16 idx)
  | 6 => .b (Fin.ofNat 32 idx) | 7 => .tk (Fin.ofNat 16 idx) | 8 => .h (Fin.ofNat 8 idx)
  | 9 => .g (Fin.ofNat 4 idx) | 10 => .cr (BitVec.ofNat 8 idx) | 11 => .imm (BitVec.ofNat 8 idx)
  | 12 => .sc ((Scope.ofCode idx).getD .none)
  | _ => .s 0

/-! ## Reading the fields of a word -/

/-- OP, bits [95:88]. -/
def opOf (w : BitVec 96) : Nat := bitsAt w 88 8
/-- FN, bits [87:82]. -/
def fnOf (w : BitVec 96) : Nat := bitsAt w 82 6

/-- Guard and hints (Table 2-2). -/
def Ctl.ofWord (w : BitVec 96) : Ctl :=
  { gn := bitAt w 81, gp := BitVec.toFin (w.extractLsb' 78 3), stall := w.extractLsb' 74 4
    hyield := bitAt w 73, chain := bitAt w 72, lasta := bitAt w 71, lastb := bitAt w 70 }

/-- The operand whose 12-bit field starts at bit lo. -/
def Operand.ofWord (w : BitVec 96) (lo : Nat) : Operand :=
  Operand.ofCode (bitsAt w (lo + 8) 4) (bitsAt w lo 8)

def FR.ofWord (w : BitVec 96) : FR :=
  { opd := .ofWord w 52, opa := .ofWord w 40, opb := .ofWord w 28
    ta := .ofCode (bitsAt w 23 5), tb := .ofCode (bitsAt w 18 5), wid := w.extractLsb' 12 6
    rm := .ofCode (bitsAt w 9 3), sat := bitAt w 8, msk := Fin.ofNat 6 (bitsAt w 5 3)
    sub := w.extractLsb' 0 5 }

def FI.ofWord (w : BitVec 96) : FI :=
  { opd := .ofWord w 52, opa := .ofWord w 40, imm := w.extractLsb' 0 40 }

def FM.ofWord (w : BitVec 96) : FM :=
  { opd := .ofWord w 52, opa := .ofWord w 40, opb := .ofWord w 28
    ta := .ofCode (bitsAt w 23 5), ff := bitAt w 22, ph := bitAt w 21, nt := bitAt w 20
    disp := w.extractLsb' 8 12, msk := Fin.ofNat 6 (bitsAt w 5 3)
    scope := (Scope.ofCode (bitsAt w 0 5)).getD .none }

def FB.ofWord (w : BitVec 96) : FB :=
  { opd := .ofWord w 52, opa := .ofWord w 40, pdisp := w.extractLsb' 4 36
    tslot := Fin.ofNat 10 (bitsAt w 0 4) }

def FE.ofWord (w : BitVec 96) : FE :=
  { opd := .ofWord w 52, opa := .ofWord w 40, opb := .ofWord w 28, nreg := w.extractLsb' 24 4
    scope := (Scope.ofCode (bitsAt w 19 5)).getD .none, parm := w.extractLsb' 0 19 }

def FX.ofWord (w : BitVec 96) : FX :=
  { opd := .ofWord w 52, opa := .ofWord w 40, opb := .ofWord w 28, xf := w.extractLsb' 18 10
    yf := w.extractLsb' 8 10, msk := Fin.ofNat 6 (bitsAt w 5 3), sub := w.extractLsb' 0 5 }

/-! ## The opcode map -/

/-- The six formats (Table 2-5). -/
inductive Fmt
  | FR | FI | FM | FB | FE | FX
deriving DecidableEq, Repr

/-- What an operand position accepts: classes and a range of indexes; no class means the position is
unused and must hold 0x000 (R33). -/
structure OpRule where
  cls : List Nat
  lo : Nat := 0
  hi : Nat := 255

/-- What a form does with SUB (R41). -/
inductive SubRule
  /-- The form defines no SUB value: another than 0 is undefined (R41, fate 3). -/
  | undefd
  /-- Values 0 to n − 1 are defined. -/
  | below (n : Nat)
  /-- SUB holds a scope code, required (R228). -/
  | scope
  /-- SUB is a field that the form leaves blank: another than 0 is reserved (R123, fate 4). -/
  | blank

/-- What a form does with SCOPE in AUX (R34, R38, R214). -/
inductive ScopeRule
  | unused | optional | required

/-- One row of the opcode map. -/
structure Form where
  op : Nat
  fn : Nat
  fmt : Fmt
  /-- Chooses between rows of one OP and FN. -/
  sel : BitVec 96 → Bool := fun _ => true
  d : OpRule := { cls := [] }
  a : OpRule := { cls := [] }
  b : OpRule := { cls := [] }
  /-- Accepted codes of TA and TB; none means unused (R39). -/
  ta : List Nat := []
  tb : List Nat := []
  wid : Bool := false
  /-- Whether RM is used, by TA, TB and SUB (R383); nothing when the field map decides. -/
  rm : Nat → Nat → Nat → Option Bool := fun _ _ _ => some false
  /-- Whether SAT is accepted, by TA, TB and SUB (R60, R383). -/
  sat : Nat → Nat → Nat → Option Bool := fun _ _ _ => some false
  msk : Bool := false
  sub : SubRule := .undefd
  ff : Bool := false
  ph : Bool := false
  nt : Bool := false
  scope : ScopeRule := .unused
  nreg : Nat := 0
  /-- Bits of PARM in use, and the largest value they take. -/
  parmBits : Nat := 0
  parmMax : Nat := 0
  /-- Accepted XF and YF (fate 3), and bits of XF that must be zero (fate 4). -/
  xy : Nat → Nat → Bool := fun x y => x == 0 && y == 0
  xyFate : Fate := .reservedField
  xfZero : Nat → Bool := fun _ => true
  xfClass : Nat → Bool := fun _ => true
  build : BitVec 96 → Instr

def S : OpRule := { cls := [0] }
def SI : OpRule := { cls := [0, 11] }
def V : OpRule := { cls := [1] }
def VI : OpRule := { cls := [1, 11] }
def VSI : OpRule := { cls := [1, 0, 11] }
def M : OpRule := { cls := [2] }
def MD : OpRule := { cls := [2], lo := 1 }
def P : OpRule := { cls := [3] }
def I : OpRule := { cls := [11] }
def U : OpRule := { cls := [] }

/-- Codes of the integer types, of the floating types, and of both with the field map's (R108). -/
def tInt : List Nat := [0, 1, 2]
def tFlt : List Nat := [0, 3, 4, 5, 6, 7, 8]
def tSFl : List Nat := [3, 4, 5, 6, 7, 8]
def tAny : List Nat := [0, 1, 2, 3, 4, 5, 6, 7, 8]
/-- Scalar element sizes of loads and stores, and of atomics (Table 13-1). -/
def tSz : List Nat := [1, 2, 3, 4, 6, 7, 8]
def tAt : List Nat := [1, 2, 8]

def isIntC (t : Nat) : Bool := t == 1 || t == 2
def isFltC (t : Nat) : Bool := decide (3 ≤ t ∧ t ≤ 8)
/-- A destination type with which SAT is accepted (R60). -/
def satDst (t : Nat) : Option Bool :=
  if t == 0 then none else some (isIntC t || t == 3 || t == 4)

def always : Nat → Nat → Nat → Option Bool := fun _ _ _ => some true
def satTA : Nat → Nat → Nat → Option Bool := fun ta _ _ => satDst ta
/-- A conversion from TB to TA uses RM unless both are integers (R63, R383). -/
def rmCvt : Nat → Nat → Nat → Option Bool := fun ta tb _ =>
  if isFltC ta || isFltC tb then some true
  else if isIntC ta && isIntC tb then some false else none
/-- `vbcast`: TB 0x00 copies bits, which uses no RM; an integer source needs D's type. -/
def rmBcast : Nat → Nat → Nat → Option Bool := fun ta tb _ =>
  if tb == 0 then some false else if isFltC tb then some true
  else if ta == 0 then none else some (isFltC ta)
/-- A reduction rounds when its result is floating (R134, R135). -/
def rmTA : Nat → Nat → Nat → Option Bool := fun ta _ _ => if ta == 0 then none else some (isFltC ta)
def resAred (ta tb : Nat) : Nat := if tb == 0 then ta else tb
def rmAred : Nat → Nat → Nat → Option Bool := fun ta tb _ => rmTA (resAred ta tb) 0 0
def satAred : Nat → Nat → Nat → Option Bool := fun ta tb _ => satDst (resAred ta tb)

def fr (op fn : Nat) (mk : Ctl → FR → Instr) : Form :=
  { op := op, fn := fn, fmt := .FR, build := fun w => mk (.ofWord w) (.ofWord w) }
def fi (op fn : Nat) (mk : Ctl → FI → Instr) : Form :=
  { op := op, fn := fn, fmt := .FI, build := fun w => mk (.ofWord w) (.ofWord w) }
def fm (op fn : Nat) (mk : Ctl → FM → Instr) : Form :=
  { op := op, fn := fn, fmt := .FM, build := fun w => mk (.ofWord w) (.ofWord w) }
def fb (op fn : Nat) (mk : Ctl → FB → Instr) : Form :=
  { op := op, fn := fn, fmt := .FB, build := fun w => mk (.ofWord w) (.ofWord w) }
def fe (op fn : Nat) (mk : Ctl → FE → Instr) : Form :=
  { op := op, fn := fn, fmt := .FE, build := fun w => mk (.ofWord w) (.ofWord w) }
def fx (op fn : Nat) (mk : Ctl → FX → Instr) : Form :=
  { op := op, fn := fn, fmt := .FX, build := fun w => mk (.ofWord w) (.ofWord w) }

/-- SUB of a word. -/
def subOf (w : BitVec 96) : Nat := bitsAt w 0 5
/-- Class of OPD. -/
def dCls (w : BitVec 96) : Nat := bitsAt w 60 4
/-- OPB field. -/
def bFld (w : BitVec 96) : Nat := bitsAt w 28 12

/-- The row of an FN-coded atomic. -/
def amoOf : Nat → AmoOp
  | 0 => .add | 1 => .and | 2 => .or | 3 => .xor | 4 => .min | 5 => .max | 6 => .minn | 7 => .maxn | _ => .swap
def amoFn : AmoOp → Nat
  | .add => 0 | .and => 1 | .or => 2 | .xor => 3 | .min => 4 | .max => 5 | .minn => 6 | .maxn => 7 | .swap => 8
def kindOf : Nat → CardKind
  | 0 => .copy | 1 => .rcopy | 2 => .tile | 3 => .nb8p | 4 => .nb8u | 5 => .rerot | 6 => .kvpatch
  | 7 => .kvcompact | _ => .fill
def kindFn : CardKind → Nat
  | .copy => 0 | .rcopy => 1 | .tile => 2 | .nb8p => 3 | .nb8u => 4 | .rerot => 5 | .kvpatch => 6
  | .kvcompact => 7 | .fill => 8

/-- Table 3-2: control forms. -/
def formsControl : List Form :=
  [ fr 0x00 0 .nop, fb 0x01 0 .br, { fb 0x02 0 .call with d := S },
    { fr 0x03 0 .brr with a := S }, { fr 0x03 1 .callr with d := S, a := S }, { fr 0x03 2 .ret with a := S },
    { fb 0x04 0 .vloop with a := S }, fb 0x05 0 .vend, fr 0x06 0 .vbreak,
    fr 0x07 0 .exit, fr 0x07 1 .yield, fi 0x08 0 .trap, fi 0x08 1 .brk, fr 0x09 0 .rfe ]

/-- Table 3-2: scalar integer forms (R93 to R97). -/
def formsScalar : List Form :=
  [ { fr 0x10 0 .add with d := S, a := S, b := SI, ta := tInt, wid := true, sat := always },
    { fr 0x10 1 .sub with d := S, a := S, b := SI, ta := tInt, wid := true, sat := always },
    { fr 0x10 2 .mul with d := S, a := S, b := SI, ta := tInt, wid := true, sat := always },
    { fr 0x10 3 .mulh with d := S, a := S, b := SI }, { fr 0x10 4 .mulhn with d := S, a := S, b := SI },
    { fr 0x10 5 .div with d := S, a := S, b := SI }, { fr 0x10 6 .divn with d := S, a := S, b := SI },
    { fr 0x10 7 .rem with d := S, a := S, b := SI }, { fr 0x10 8 .remn with d := S, a := S, b := SI },
    { fr 0x11 0 .and with d := S, a := S, b := SI }, { fr 0x11 1 .or with d := S, a := S, b := SI },
    { fr 0x11 2 .xor with d := S, a := S, b := SI }, { fr 0x11 3 .andn with d := S, a := S, b := SI },
    { fr 0x12 0 .shl with d := S, a := S, b := SI }, { fr 0x12 1 .shr with d := S, a := S, b := SI },
    { fr 0x12 2 .sar with d := S, a := S, b := SI }, { fr 0x12 3 .rot with d := S, a := S, b := SI },
    { fr 0x13 0 .min with d := S, a := S, b := SI }, { fr 0x13 1 .max with d := S, a := S, b := SI },
    { fr 0x13 2 .minn with d := S, a := S, b := SI }, { fr 0x13 3 .maxn with d := S, a := S, b := SI },
    { fr 0x14 0 .clz with d := S, a := S }, { fr 0x14 1 .ctz with d := S, a := S },
    { fr 0x14 2 .popc with d := S, a := S }, { fr 0x14 3 .sext with d := S, a := S, b := SI },
    { fx 0x15 0 .bext with d := S, a := S, sub := .below 2, xyFate := .illegal
                           xy := fun x y => x ≤ 63 && 1 ≤ y && y ≤ 64 && x + y ≤ 64 },
    { fx 0x15 1 .bins with d := S, a := S, xyFate := .illegal
                           xy := fun x y => x ≤ 63 && 1 ≤ y && y ≤ 64 && x + y ≤ 64 },
    { fi 0x16 0 .li with d := S }, { fi 0x17 0 .lih with d := S },
    { fr 0x18 0 .mov with d := S, a := SI }, { fr 0x18 1 .sel with d := S, a := S, b := S, sub := .below 8 },
    { fr 0x19 0 .hmix with d := S, a := S, b := SI } ]

/-- Table 3-2: scalar float, predicate, control-register and pointer forms (R98 to R104). -/
def formsScalar2 : List Form :=
  [ { fr 0x20 0 .sfadd with d := S, a := S, b := S, ta := tSFl, tb := tSFl, rm := always, sat := satTA },
    { fr 0x20 1 .sfmul with d := S, a := S, b := S, ta := tSFl, tb := tSFl, rm := always, sat := satTA },
    { fr 0x20 2 .sffma with d := S, a := S, b := S, ta := tSFl, tb := tSFl, rm := always, sat := satTA },
    { fr 0x20 3 .sfcmp with d := P, a := S, b := S, ta := tSFl, tb := tSFl, sub := .below 8 },
    { fr 0x20 4 .sfcvt with d := S, a := S, ta := 1 :: 2 :: tSFl, tb := 1 :: 2 :: tSFl, rm := rmCvt, sat := satTA },
    { fr 0x20 5 .sfmm with d := S, a := S, b := S, ta := tSFl, tb := tSFl, sub := .below 2 },
    { fr 0x30 0 .cmp with d := P, a := S, b := SI, ta := tInt, sub := .below 8 },
    { fr 0x31 0 .pand with d := P, a := P, b := P }, { fr 0x31 1 .por with d := P, a := P, b := P },
    { fr 0x31 2 .pxor with d := P, a := P, b := P }, { fr 0x31 3 .pnot with d := P, a := P },
    { fr 0x31 4 .pany with d := P, a := M },
    { fr 0x36 0 .mfc with d := S, a := { cls := [10] } }, { fr 0x36 1 .mtc with d := { cls := [10] }, a := S },
    { fr 0x38 0 .spt with d := P, a := S, sub := .below 6 }, { fr 0x38 1 .spc with d := S, a := S, sub := .below 5 },
    { fr 0x38 2 .spid with d := S, a := S }, { fr 0x39 0 .spmk with d := S, a := S, b := SI } ]

/-- A vector integer form of Table 7-3 with a vector OPB. -/
def vint (op fn : Nat) (mk : Ctl → FR → Instr) : Form :=
  { fr op fn mk with d := V, a := V, b := V, ta := tInt, tb := tInt, wid := true, sat := always, msk := true }
/-- A vector integer form without OPB. -/
def vint1 (op fn : Nat) (mk : Ctl → FR → Instr) : Form :=
  { fr op fn mk with d := V, a := V, ta := tInt, wid := true, sat := always, msk := true }

/-- Table 3-3: vector setup and integer forms (R111 to R116). -/
def formsVecInt : List Form :=
  [ { fr 0x40 0 .vfmap with d := V, a := S }, { fr 0x41 0 .vdim with d := { cls := [4] }, a := S, b := S },
    { fr 0x42 0 .vsid with d := V, ta := tInt, wid := true, sat := always, msk := true },
    { fr 0x43 0 .vidx with d := V, a := SI, b := SI, ta := tInt, wid := true, sat := always, msk := true },
    { fr 0x44 0 .vbcast with d := V, a := SI, ta := tAny, tb := tAny, wid := true, rm := rmBcast, sat := satTA, msk := true },
    vint 0x48 0 .vadd, vint 0x48 1 .vsub, { vint 0x48 2 .vadds with b := SI }, { vint 0x48 3 .vsubs with b := SI },
    vint1 0x48 4 .vneg, vint1 0x48 5 .vabs, vint 0x49 0 .vmul, vint 0x49 1 .vmulh, vint 0x49 2 .vmac,
    vint 0x4A 0 .vmin, vint 0x4A 1 .vmax,
    { vint 0x4B 0 .vand with sat := fun _ _ _ => some false }, { vint 0x4B 1 .vor with sat := fun _ _ _ => some false },
    { vint 0x4B 2 .vxor with sat := fun _ _ _ => some false }, { vint1 0x4B 3 .vnot with sat := fun _ _ _ => some false },
    { vint 0x4C 0 .vshl with b := VSI }, { vint 0x4C 1 .vshr with b := VSI }, { vint 0x4C 2 .vsar with b := VSI },
    { vint 0x4D 0 .vcmp with d := MD, b := VI, sub := .below 8, sat := fun _ _ _ => some false },
    { vint 0x4E 0 .vsel with sub := .below 6 }, { fr 0x4E 1 .vmov with d := V, a := V, msk := true },
    { vint 0x4F 0 .vcvt with b := U }, vint1 0x50 0 .vpopc, vint1 0x50 1 .vclz,
    { fx 0x51 0 .vbext with d := V, a := V, msk := true, sub := .below 2, xyFate := .illegal
                            xy := fun _ y => 1 ≤ y && y ≤ 64 } ]

/-- A vector floating form of Table 7-4. -/
def vflt (op fn : Nat) (mk : Ctl → FR → Instr) : Form :=
  { fr op fn mk with d := V, a := V, b := V, ta := tFlt, tb := tFlt, rm := always, sat := satTA, msk := true }

/-- Table 3-3: vector floating forms (R117 to R122). -/
def formsVecFlt : List Form :=
  [ vflt 0x70 0 .vfadd, vflt 0x70 1 .vfsub, vflt 0x70 2 .vfmul, vflt 0x70 3 .vffma,
    { vflt 0x70 4 .vfmm with sub := .below 2 },
    { vflt 0x71 0 .vfcmp with d := MD, sub := .below 8, rm := fun _ _ _ => some false, sat := fun _ _ _ => some false },
    { vflt 0x72 0 .vfcvt with b := U, ta := tAny, tb := tAny, wid := true, rm := rmCvt },
    { vflt 0x73 0 .vfsgn with sel := fun w => decide (subOf w = 3 ∨ subOf w = 4), b := U, sub := .below 5
                              rm := fun _ _ _ => some false, sat := fun _ _ _ => some false },
    { vflt 0x73 0 .vfsgn with sub := .below 5, rm := fun _ _ _ => some false, sat := fun _ _ _ => some false },
    { vflt 0x74 0 .vfexp2 with b := U, tb := [] }, { vflt 0x74 1 .vfrcp with b := U, tb := [] },
    { vflt 0x75 0 .vfscl with tb := [0, 2], sub := .below 2 },
    { vflt 0x76 0 .vfnb8 with ta := [9, 10], tb := tAny, sub := .below 2
                              sat := fun _ tb sub => if sub == 0 then some false else satDst tb } ]

/-- Table 3-4: associative and mask forms (Table 8-1). -/
def formsAssoc : List Form :=
  [ { fx 0x80 0 .asrch with d := MD, a := V, b := SI, msk := true, sub := .below 5, xyFate := .illegal
                            xy := fun x y => x ≤ 63 && 1 ≤ y && y ≤ 64 },
    { fx 0x80 1 .asrchr with d := MD, a := V, b := { cls := [0], hi := 62 }, msk := true, sub := .below 5
                             xyFate := .illegal, xy := fun x y => x ≤ 63 && 1 ≤ y && y ≤ 64 },
    { fx 0x81 0 .awr with d := V, b := SI, msk := true, xyFate := .illegal
                          xy := fun x y => x ≤ 63 && 1 ≤ y && y ≤ 64, sub := .blank },
    { fx 0x82 0 .apass with d := V, a := V, b := { cls := [0], hi := 60 }, msk := true
                            xyFate := .illegal, xy := fun x _ => x / 8 % 8 ≤ 4
                            xfZero := fun x => x / 64 == 0, xfClass := fun x => 1 ≤ x % 8 && x % 8 ≤ 5, sub := .blank },
    { fr 0x83 0 .acnt with d := S, a := M, msk := true, sub := .blank },
    { fr 0x83 1 .afirst with d := S, a := M, msk := true, sub := .below 2 },
    { fx 0x84 0 .atopk with d := MD, a := V, b := SI, msk := true, sub := .below 2 },
    { fx 0x85 0 .aext with sel := fun w => decide (subOf w = 0), d := S, a := V, msk := true, sub := .below 2 },
    { fx 0x85 0 .aext with d := S, a := V, b := SI, msk := true, sub := .below 2 },
    { fr 0x86 0 .ahamm with d := V, a := V, b := SI, ta := tInt, wid := true, sat := always, msk := true, sub := .blank },
    { fr 0x87 0 .asred with d := V, a := V, b := I, ta := tAny, rm := rmTA, sat := satTA, msk := true, sub := .blank },
    { fr 0x87 1 .ared with d := S, a := V, ta := tAny, tb := tAny, rm := rmAred, sat := satAred
                           msk := true, sub := .below 2 },
    { fr 0x88 0 .vhash with d := V, a := V, b := I, msk := true, sub := .blank },
    { fr 0x89 0 .mand with d := MD, a := M, b := M, msk := true, sub := .blank },
    { fr 0x89 1 .mor with d := MD, a := M, b := M, msk := true, sub := .blank },
    { fr 0x89 2 .mxor with d := MD, a := M, b := M, msk := true, sub := .blank },
    { fr 0x89 3 .mnot with d := MD, a := M, msk := true, sub := .blank } ]

/-- Table 3-4: matrix forms (R144 to R154). -/
def formsMatrix : List Form :=
  [ { fr 0x90 0 .msetmvl with sub := .below 4 },
    { fx 0x91 0 .mrow with d := { cls := [5] }, a := V, b := { cls := [6] }, msk := true, sub := .below 6
                           xyFate := .illegal, xy := fun x y => x ≤ 15 && y == 0 },
    { fx 0x91 1 .mrowh with d := { cls := [5] }, a := V, b := { cls := [8] }, msk := true, sub := .below 6
                            xyFate := .illegal, xy := fun x y => x ≤ 15 && y ≤ 31 },
    { fr 0x92 0 .msacc with d := { cls := [5] }, a := { cls := [5] }, b := S, rm := always, msk := true, sub := .below 32 },
    { fr 0x93 0 .mext with d := V, a := { cls := [5] }, ta := tAny, tb := [1, 8], wid := true, rm := rmCvt
                           sat := satTA, msk := true },
    { fr 0x94 0 .mclrB with sel := fun w => dCls w == 6, d := { cls := [6] } },
    { fr 0x94 0 .mclrAcc with d := { cls := [5, 6] }, msk := true },
    { fr 0x95 0 .mwait with a := { cls := [7] } }, { fr 0x95 1 .mtok with d := P, a := { cls := [7] } },
    fr 0x96 0 .mdrain,
    { fr 0x97 0 .mzfScan with sel := fun w => subOf w == 0, d := { cls := [6] }, sub := .below 2 },
    { fr 0x97 0 .mzfGet with d := S, a := { cls := [6] }, sub := .below 2 } ]

/-- A vector memory form (Table 13-2). -/
def vmem (op fn : Nat) (mk : Ctl → FM → Instr) : Form :=
  { fm op fn mk with d := V, a := S, ta := tAny, ff := true, nt := true, msk := true }

/-- Table 3-4: memory forms (Table 13-2, R218 to R221). NT is a field of every form of the opcodes that Table 2-5 gives it, so
that NT = 1 is accepted in `amo`, `cas`, `vamo`, `prf`, `cmo` and `stfl` too, where R214 lists no NT: the model's choice
(assumption log 14). -/
def formsMem : List Form :=
  [ { fm 0xA0 0 .ld with d := S, a := S, b := S, ta := tSz, nt := true },
    { fm 0xA0 1 .st with d := S, a := S, b := S, ta := tSz, nt := true },
    vmem 0xA1 0 .vld, { vmem 0xA1 1 .vlds with b := SI }, { vmem 0xA1 2 .vldx with b := V },
    { vmem 0xA1 3 .vldd with b := { cls := [4] } },
    vmem 0xA2 0 .vst, { vmem 0xA2 1 .vsts with b := SI }, { vmem 0xA2 2 .vstx with b := V },
    { vmem 0xA2 3 .vstd with b := { cls := [4] } },
    { vmem 0xA3 0 .vldh with b := { cls := [8] } }, { vmem 0xA3 1 .vsth with b := { cls := [8] } },
    { fm 0xA4 0 .prf with a := S, b := S, nt := true, scope := .optional },
    { fm 0xA4 1 .cmoWb with sel := fun w => bFld w == 0xB00, a := S, b := { cls := [11], hi := 0 }, nt := true, scope := .optional },
    { fm 0xA4 1 .cmoBind with sel := fun w => bFld w == 0xB01, d := S, a := S
                              b := { cls := [11], lo := 1, hi := 1 }, nt := true, scope := .optional },
    { fm 0xA4 1 .cmoInv with a := S, b := { cls := [11], lo := 2, hi := 2 }, nt := true, scope := .optional },
    { fm 0xA5 0 .stfl with d := P, a := S, b := S, nt := true } ]

def formAmo (k : Nat) : Form :=
  { fm 0xC0 k (fun c f => .amo c (amoOf k) f) with d := S, a := S, b := SI, ta := tAt, ph := true, nt := true
                                                   scope := .required }
def formVamo (k : Nat) : Form :=
  { fm 0xC2 k (fun c f => .vamo c (amoOf k) f) with d := V, a := S, b := V, ta := tAny, ff := true, ph := true
                                                    nt := true, msk := true, scope := .required }
def formCard (k : Nat) : Form :=
  { fe 0xD0 k (fun c f => .card c (kindOf k) f) with a := S, nreg := 7, scope := .required, parmBits := 1, parmMax := 1 }

/-- Table 3-5: atomics, synchronisation and engines (R222 to R247, R274). -/
def formsSync : List Form :=
  (List.range 9).map formAmo ++
  [ { fm 0xC1 0 .cas with d := S, a := S, b := S, ta := tAt, ph := true, nt := true, scope := .required } ] ++
  (List.range 9).map formVamo ++
  [ { fe 0xC3 0 .scred with a := S, nreg := 1 },
    { fe 0xC4 0 .binap with a := S, b := S }, { fe 0xC4 1 .binpl with a := S, b := S, scope := .required },
    { fr 0xC8 0 .phase with a := { cls := [12] } },
    { fr 0xC9 0 .barinit with a := S, b := SI },
    { fr 0xC9 1 .bararr with d := S, a := S, b := SI, sub := .scope },
    { fr 0xC9 2 .barwait with a := S, b := S, sub := .scope },
    { fr 0xC9 3 .bartest with d := P, a := S, b := S, sub := .scope } ] ++
  (List.range 9).map formCard ++
  [ { fr 0xD1 0 .cardq with d := S, sub := .below 3 },
    { fx 0xD2 0 .strm with d := { cls := [1], lo := 28 }, a := S, b := { cls := [4] } },
    { fx 0xD2 1 .strmkv with d := { cls := [1], lo := 28, hi := 28 }, a := S, xy := fun _ y => y == 0 },
    { fr 0xD2 2 .strmxStop with sel := fun w => subOf w == 0, a := { cls := [1], lo := 28 }, sub := .below 2 },
    { fr 0xD2 2 .strmxStat with d := S, a := { cls := [1], lo := 28 }, sub := .below 2 },
    { fe 0xD3 0 .seep with d := P, a := S, b := S, nreg := 5, scope := .required },
    { fe 0xD4 0 .gath with a := S, b := S, nreg := 3, scope := .required } ]

/-- Table 3-5: handles, taps, launch, translation and serving forms. -/
def formsSys : List Form :=
  [ { fm 0xE0 0 .hld with d := { cls := [8] }, a := S }, { fm 0xE0 1 .hst with d := { cls := [8] }, a := S },
    { fr 0xE1 0 .hqWord with sel := fun w => subOf w == 0, d := S, a := { cls := [8] }, b := I, sub := .below 2 },
    { fr 0xE1 0 .hqInv with d := S, a := { cls := [8] }, sub := .below 2 },
    { fr 0xE1 1 .hmaskLin with sel := fun w => subOf w == 0, d := MD, a := { cls := [8] }, msk := true, sub := .below 2 },
    { fr 0xE1 1 .hmaskTr with d := MD, a := { cls := [8] }, b := S, msk := true, sub := .below 2 },
    { fr 0xE2 0 .gstart with d := { cls := [9] }, a := { cls := [8] }, b := S },
    { fr 0xE2 1 .gnextVector with sel := fun w => dCls w != 0, d := V, a := { cls := [9] }, b := MD, ta := tInt
                                  wid := true, sat := always },
    { fr 0xE2 1 .gnextScalar with d := S, a := { cls := [9] }, ta := tInt },
    { fr 0xE2 2 .ginv with d := { cls := [9] }, a := { cls := [8] }, b := S },
    { fx 0xE8 0 .tap with d := V, a := S, b := S, msk := true, sub := .below 2, xy := fun _ y => y == 0 },
    fr 0xE9 0 .tapfin,
    { fr 0xE9 1 .tapq with sel := fun w => decide (subOf w = 0 ∨ subOf w = 4), d := S, a := S, sub := .below 5 },
    { fr 0xE9 1 .tapq with d := S, sub := .below 5 },
    { fe 0xEC 0 .launch with d := S, a := S, scope := .required, parmBits := 3, parmMax := 4 },
    { fe 0xEC 1 .withdraw with d := S, a := S },
    { fm 0xED 0 .pgreq with a := S, b := S }, { fm 0xED 1 .pgpin with d := P, a := S, b := S },
    { fm 0xED 2 .pgunpin with a := S, b := S },
    { fr 0xEE 0 .tlbi with sel := fun w => subOf w == 1, a := S, b := S, sub := .below 3 },
    { fr 0xEE 0 .tlbi with sel := fun w => subOf w == 0, a := S, sub := .below 3 },
    { fr 0xEE 0 .tlbi with sub := .below 3 },
    { fr 0xEF 0 .hot with d := S, a := S, sub := .below 6 },
    { fr 0xF0 0 .pfxlFind with sel := fun w => subOf w == 0, d := S, a := S, b := S, sub := .below 3 },
    { fr 0xF0 0 .pfxlPin with sel := fun w => subOf w == 1, d := S, a := S, b := S, sub := .below 3 },
    { fr 0xF0 0 .pfxlPage with d := S, a := S, sub := .below 3 },
    { fr 0xF0 1 .pfxiIns with sel := fun w => subOf w == 0, d := S, a := S, sub := .below 2 },
    { fr 0xF0 1 .pfxiUnpin with d := S, a := S, sub := .below 2 } ]

/-- The opcode map, Tables 3-2 to 3-5. -/
def forms : List Form :=
  formsControl ++ formsScalar ++ formsScalar2 ++ formsVecInt ++ formsVecFlt ++ formsAssoc ++ formsMatrix ++
  formsMem ++ formsSync ++ formsSys

/-- The row that a word selects (fate 2 when there is none). -/
def findForm (w : BitVec 96) : Option Form :=
  forms.find? fun r => r.op == opOf w && r.fn == fnOf w && r.sel w

/-! ## The decode fates -/

/-- Control registers (Table 6-6) and those that programs may write. -/
def crReadable (n : Nat) : Bool :=
  decide (n ≤ 6 ∨ (8 ≤ n ∧ n ≤ 0xD) ∨ (0x10 ≤ n ∧ n ≤ 0x12) ∨ (0x20 ≤ n ∧ n ≤ 0x3F))
def crWritable (n : Nat) : Bool :=
  decide (n = 0 ∨ n = 2 ∨ n = 0xB ∨ (0x20 ≤ n ∧ n ≤ 0x3F))

/-- Fate 4 of an operand position: an unused field must hold 0x000 (R33). -/
def OpRule.unusedOk (r : OpRule) (cls idx : Nat) : Bool :=
  !r.cls.isEmpty || (cls == 0 && idx == 0)

/-- Fate 5 of an operand position (R33, R34, R104). -/
def OpRule.classOk (r : OpRule) (dest : Bool) (cls idx : Nat) : Bool :=
  r.cls.isEmpty ||
  (r.cls.contains cls && decide (idx < classSize cls) && decide (r.lo ≤ idx ∧ idx ≤ r.hi) &&
   (match cls with
    | 10 => if dest then crWritable idx else crReadable idx
    | 12 => (Scope.ofCode idx).isSome && idx != 0
    | _ => true))

/-- Fate 3 of a type field that the form uses (R39). -/
def tyOk (acc : List Nat) (t : Nat) : Bool := acc.isEmpty || acc.contains t
/-- Fate 4 of a type field that the form leaves unused (R39). -/
def tyUnused (acc : List Nat) (t : Nat) : Bool := !acc.isEmpty || t == 0

/-- Fate 3 of a SUB field. A form of FR or FX that Table 8-1 and the chapters give no SUB takes 0 alone, and another code is
ILLEGAL (R41, R95, R108), where R35 and R93 can be read to say RESERVED_FIELD: the model's choice (assumption log 14). -/
def SubRule.ok3 (r : SubRule) (sub : Nat) : Bool :=
  match r with
  | .undefd => sub == 0
  | .below n => decide (sub < n)
  | .scope => sub != 0 && (Scope.ofCode sub).isSome
  | .blank => true
/-- Fate 4 of a SUB field. -/
def SubRule.ok4 (r : SubRule) (sub : Nat) : Bool :=
  match r with
  | .blank => sub == 0
  | _ => true

/-- Fate 3 of a SCOPE field in AUX (R34, R214). -/
def ScopeRule.ok3 (r : ScopeRule) (c : Nat) : Bool :=
  match r with
  | .unused => true
  | .optional => (Scope.ofCode c).isSome
  | .required => c != 0 && (Scope.ofCode c).isSome
/-- Fate 4 of a SCOPE field in AUX (R38). -/
def ScopeRule.ok4 (r : ScopeRule) (c : Nat) : Bool :=
  match r with
  | .unused => c == 0
  | _ => true

/-- A form's judgement on RM or SAT: anything but a definite `false` passes at decode (R383). -/
def allowed (j : Option Bool) : Bool := j != some false

/-- Fate 3: a value undefined for the form (ILLEGAL). -/
def Form.fate3 (r : Form) (w : BitVec 96) : Bool :=
  match r.fmt with
  | .FR => tyOk r.ta (bitsAt w 23 5) && tyOk r.tb (bitsAt w 18 5) && bitsAt w 9 3 != 7 && r.sub.ok3 (subOf w) &&
           -- `sfmm` needs TB equal to TA; the segment orders of `asred` and `vhash` end at 12; `hq.word` has 8 words
           !(r.op == 0x20 && r.fn == 5 && bitsAt w 23 5 != bitsAt w 18 5) &&
           !((r.op == 0x88 || (r.op == 0x87 && r.fn == 0)) && bitsAt w 36 4 == 11 && 12 < bitsAt w 28 8) &&
           !(r.op == 0xE1 && r.fn == 0 && subOf w == 0 && bitsAt w 36 4 == 11 && 7 < bitsAt w 28 8)
  | .FM => tyOk r.ta (bitsAt w 23 5) && r.scope.ok3 (bitsAt w 0 5)
  | .FE => bitsAt w 24 4 == r.nreg && r.scope.ok3 (bitsAt w 19 5) &&
           decide (bitsAt w 0 19 % 2 ^ r.parmBits ≤ r.parmMax)
  | .FX => r.sub.ok3 (subOf w) && (r.xyFate != .illegal || r.xy (bitsAt w 18 10) (bitsAt w 8 10))
  | .FI => true
  | .FB => true

/-- Fate 4: a field that must be zero (RESERVED_FIELD). -/
def Form.fate4 (r : Form) (w : BitVec 96) : Bool :=
  bitsAt w 64 6 == 0 &&
  r.d.unusedOk (bitsAt w 60 4) (bitsAt w 52 8) && r.a.unusedOk (bitsAt w 48 4) (bitsAt w 40 8) &&
  match r.fmt with
  | .FR =>
    let ta := bitsAt w 23 5
    let tb := bitsAt w 18 5
    r.b.unusedOk (bitsAt w 36 4) (bitsAt w 28 8) && tyUnused r.ta ta && tyUnused r.tb tb &&
    (bitsAt w 12 6 == 0 || (r.wid && isIntC ta)) &&
    (bitsAt w 9 3 == 0 || allowed (r.rm ta tb (subOf w))) &&
    (!bitAt w 8 || allowed (r.sat ta tb (subOf w))) && r.sub.ok4 (subOf w) &&
    (r.msk || bitsAt w 5 3 == 0)
  | .FI => true
  | .FM =>
    r.b.unusedOk (bitsAt w 36 4) (bitsAt w 28 8) && tyUnused r.ta (bitsAt w 23 5) &&
    (r.ff || !bitAt w 22) && (r.ph || !bitAt w 21) && (r.nt || !bitAt w 20) &&
    (r.msk || bitsAt w 5 3 == 0) && r.scope.ok4 (bitsAt w 0 5)
  | .FB => decide (bitsAt w 0 4 < 10)
  | .FE =>
    r.b.unusedOk (bitsAt w 36 4) (bitsAt w 28 8) && r.scope.ok4 (bitsAt w 19 5) &&
    bitsAt w 0 19 / 2 ^ r.parmBits == 0
  | .FX =>
    r.b.unusedOk (bitsAt w 36 4) (bitsAt w 28 8) && (r.msk || bitsAt w 5 3 == 0) &&
    r.xfZero (bitsAt w 18 10) && r.sub.ok4 (subOf w) && (r.op != 0x82 || bitsAt w 8 10 == 0) &&
    (r.xyFate == .illegal || r.xy (bitsAt w 18 10) (bitsAt w 8 10))

/-- Fate 5: an operand class, an index or a mask outside what the form accepts (OPERAND_CLASS). -/
def Form.fate5 (r : Form) (w : BitVec 96) : Bool :=
  r.d.classOk true (bitsAt w 60 4) (bitsAt w 52 8) && r.a.classOk false (bitsAt w 48 4) (bitsAt w 40 8) &&
  match r.fmt with
  | .FR | .FM => r.b.classOk false (bitsAt w 36 4) (bitsAt w 28 8) && decide (bitsAt w 5 3 < 6)
  | .FE => r.b.classOk false (bitsAt w 36 4) (bitsAt w 28 8) && decide (bitsAt w 40 8 + r.nreg ≤ 63)
  | .FX => r.b.classOk false (bitsAt w 36 4) (bitsAt w 28 8) && decide (bitsAt w 5 3 < 6) &&
           r.xfClass (bitsAt w 18 10)
  | .FI | .FB => true

/-- Fates 3 to 5, in order (Table 2-9). -/
def Form.fate (r : Form) (w : BitVec 96) : Option Fate :=
  if !r.fate3 w then some .illegal
  else if !r.fate4 w then some .reservedField
  else if !r.fate5 w then some .operandClass
  else none

/-- Sorts a word into an instruction or a decode fate (R42). -/
def decode (w : BitVec 96) : Except Fate Instr :=
  match findForm w with
  | none => .error .illegal
  | some r =>
    match r.fate w with
    | some x => .error x
    | none => .ok (r.build w)

/-! ## Seep words (R50, R278) -/

/-- Arithmetic slot, bits [43:16] (Table 17-2). -/
def SeepArith.ofWord (w : BitVec 64) : SeepArith :=
  { wd := BitVec.toFin (w.extractLsb' 36 4), wa := BitVec.toFin (w.extractLsb' 32 4)
    wb := BitVec.toFin (w.extractLsb' 28 4), ty := w.extractLsb' 24 4, imm := w.extractLsb' 16 8 }

/-- The control part: nothing when idle, `none` when bad. -/
def seepCtl (w : BitVec 64) : Option (List Instr) :=
  match bitsAt w 60 4 with
  | 0 => some [] | 1 => some [.seepLoop] | 2 => some [.seepHalt] | 3 => some [.seepSync] | _ => none

/-- The fetch slot. -/
def seepFetch (w : BitVec 64) : Option (List Instr) :=
  match bitsAt w 56 4 with
  | 0 => if bitsAt w 44 12 == 0 then some [] else none
  | 1 => if bitsAt w 44 4 == 0 then
           some [.fld (BitVec.toFin (w.extractLsb' 52 4)) (BitVec.toFin (w.extractLsb' 48 4))] else none
  | 2 => if bitsAt w 44 4 == 0 then
           some [.fldx (BitVec.toFin (w.extractLsb' 52 4)) (BitVec.toFin (w.extractLsb' 48 4))] else none
  | _ => none

/-- The arithmetic slot, with the limits of Table 17-3. -/
def seepArithSlot (w : BitVec 64) : Option (List Instr) :=
  let a := SeepArith.ofWord w
  let lanes := a.ty == 1 || a.ty == 2 || a.ty == 6 || a.ty == 7 || a.ty == 8
  match bitsAt w 40 4 with
  | 0 => if bitsAt w 16 24 == 0 then some [] else none
  | 1 => if lanes && a.imm == 0 then some [.seepAdd a] else none
  | 2 => if lanes && a.imm == 0 then some [.seepMul a] else none
  | 3 => if lanes && a.imm == 0 then some [.fma a] else none
  | 4 => if (a.ty == 1 || a.ty == 3 || a.ty == 4) && decide (a.imm.toNat ≤ 3) ||
            (a.ty == 5 && decide (a.imm.toNat ≤ 7)) then some [.deq a] else none
  | 5 => if lanes && a.imm == 0 then some [.seepMax a] else none
  | 6 => if lanes && a.imm == 0 && a.wb == 0 then some [.rsum a] else none
  | _ => none

/-- The write-back slot. -/
def seepWb (w : BitVec 64) : Option (List Instr) :=
  let wa : Fin 16 := BitVec.toFin (w.extractLsb' 8 4)
  let col : Fin 16 := BitVec.toFin (w.extractLsb' 4 4)
  let mode := bitsAt w 0 4
  match bitsAt w 12 4 with
  | 0 => if bitsAt w 0 12 == 0 then some [] else none
  | 1 => if mode == 0 then some [.seepSt wa col] else none
  | 2 => if mode == 0 && col == 0 then some [.stc wa] else none
  | 3 => if h : mode < 3 then some [.red wa col ⟨mode, h⟩] else none
  | _ => none

/-- The operations of a seep word, in the order in which a unit performs them: `sync` first, then
fetch, arithmetic and write-back, then `loop` or `halt`; an idle word gives `idle`. Nothing for a
bad word (R51, R275). -/
def decodeSeep (w : BitVec 64) : Option (List Instr) :=
  match seepCtl w, seepFetch w, seepArithSlot w, seepWb w with
  | some c, some f, some a, some b =>
    let l := if bitsAt w 60 4 == 3 then c ++ f ++ a ++ b else f ++ a ++ b ++ c
    some (if l.isEmpty then [.idle] else l)
  | _, _, _, _ => none

/-! ## The encoder -/

def boolBit (b : Bool) : BitVec 1 := BitVec.ofBool b

/-- Bits [95:64]: OP, FN, guard, hints and the reserved zeros (Table 2-2). -/
def headBits (op fn : Nat) (c : Ctl) : BitVec 32 :=
  BitVec.ofNat 8 op ++ BitVec.ofNat 6 fn ++ boolBit c.gn ++ BitVec.ofNat 3 c.gp ++ c.stall ++ boolBit c.hyield ++
  boolBit c.chain ++ boolBit c.lasta ++ boolBit c.lastb ++ 0#6

def mskBits (m : Fin 6) : BitVec 3 := BitVec.ofNat 3 m

def FR.word (op fn : Nat) (c : Ctl) (f : FR) : BitVec 96 :=
  headBits op fn c ++ f.opd.code ++ f.opa.code ++ f.opb.code ++ f.ta.code ++ f.tb.code ++ f.wid ++ f.rm.code ++
  boolBit f.sat ++ mskBits f.msk ++ f.sub
def FI.word (op fn : Nat) (c : Ctl) (f : FI) : BitVec 96 :=
  headBits op fn c ++ f.opd.code ++ f.opa.code ++ f.imm
def FM.word (op fn : Nat) (c : Ctl) (f : FM) : BitVec 96 :=
  headBits op fn c ++ f.opd.code ++ f.opa.code ++ f.opb.code ++ f.ta.code ++ boolBit f.ff ++ boolBit f.ph ++
  boolBit f.nt ++ f.disp ++ mskBits f.msk ++ f.scope.code
def FB.word (op fn : Nat) (c : Ctl) (f : FB) : BitVec 96 :=
  headBits op fn c ++ f.opd.code ++ f.opa.code ++ f.pdisp ++ BitVec.ofNat 4 f.tslot
def FE.word (op fn : Nat) (c : Ctl) (f : FE) : BitVec 96 :=
  headBits op fn c ++ f.opd.code ++ f.opa.code ++ f.opb.code ++ f.nreg ++ f.scope.code ++ f.parm
def FX.word (op fn : Nat) (c : Ctl) (f : FX) : BitVec 96 :=
  headBits op fn c ++ f.opd.code ++ f.opa.code ++ f.opb.code ++ f.xf ++ f.yf ++ mskBits f.msk ++ f.sub

def SeepArith.word (op : Nat) (a : SeepArith) : BitVec 64 :=
  0#20 ++ BitVec.ofNat 4 op ++ BitVec.ofNat 4 a.wd ++ BitVec.ofNat 4 a.wa ++ BitVec.ofNat 4 a.wb ++ a.ty ++ a.imm ++ 0#16
def seepFetchWord (op : Nat) (wd x : Fin 16) : BitVec 64 :=
  0#4 ++ BitVec.ofNat 4 op ++ BitVec.ofNat 4 wd ++ BitVec.ofNat 4 x ++ 0#48
def seepWbWord (op : Nat) (wa col : Fin 16) (mode : Nat) : BitVec 64 :=
  0#48 ++ BitVec.ofNat 4 op ++ BitVec.ofNat 4 wa ++ BitVec.ofNat 4 col ++ BitVec.ofNat 4 mode

/-- What stands for an instruction in code: a 96-bit word, a 64-bit seep word, or nothing (an event). -/
inductive Code
  | core (w : BitVec 96)
  | seep (w : BitVec 64)
  | event
deriving DecidableEq, Repr

/-- The word of an instruction, from Tables 3-2 to 3-5 and 3-10. -/
def encode : Instr → Code
  | .nop c f => .core (f.word 0x00 0 c)
  | .br c f => .core (f.word 0x01 0 c)
  | .call c f => .core (f.word 0x02 0 c)
  | .brr c f => .core (f.word 0x03 0 c)
  | .callr c f => .core (f.word 0x03 1 c)
  | .ret c f => .core (f.word 0x03 2 c)
  | .vloop c f => .core (f.word 0x04 0 c)
  | .vend c f => .core (f.word 0x05 0 c)
  | .vbreak c f => .core (f.word 0x06 0 c)
  | .exit c f => .core (f.word 0x07 0 c)
  | .yield c f => .core (f.word 0x07 1 c)
  | .trap c f => .core (f.word 0x08 0 c)
  | .brk c f => .core (f.word 0x08 1 c)
  | .rfe c f => .core (f.word 0x09 0 c)
  | .add c f => .core (f.word 0x10 0 c)
  | .sub c f => .core (f.word 0x10 1 c)
  | .mul c f => .core (f.word 0x10 2 c)
  | .mulh c f => .core (f.word 0x10 3 c)
  | .mulhn c f => .core (f.word 0x10 4 c)
  | .div c f => .core (f.word 0x10 5 c)
  | .divn c f => .core (f.word 0x10 6 c)
  | .rem c f => .core (f.word 0x10 7 c)
  | .remn c f => .core (f.word 0x10 8 c)
  | .and c f => .core (f.word 0x11 0 c)
  | .or c f => .core (f.word 0x11 1 c)
  | .xor c f => .core (f.word 0x11 2 c)
  | .andn c f => .core (f.word 0x11 3 c)
  | .shl c f => .core (f.word 0x12 0 c)
  | .shr c f => .core (f.word 0x12 1 c)
  | .sar c f => .core (f.word 0x12 2 c)
  | .rot c f => .core (f.word 0x12 3 c)
  | .min c f => .core (f.word 0x13 0 c)
  | .max c f => .core (f.word 0x13 1 c)
  | .minn c f => .core (f.word 0x13 2 c)
  | .maxn c f => .core (f.word 0x13 3 c)
  | .clz c f => .core (f.word 0x14 0 c)
  | .ctz c f => .core (f.word 0x14 1 c)
  | .popc c f => .core (f.word 0x14 2 c)
  | .sext c f => .core (f.word 0x14 3 c)
  | .bext c f => .core (f.word 0x15 0 c)
  | .bins c f => .core (f.word 0x15 1 c)
  | .li c f => .core (f.word 0x16 0 c)
  | .lih c f => .core (f.word 0x17 0 c)
  | .mov c f => .core (f.word 0x18 0 c)
  | .sel c f => .core (f.word 0x18 1 c)
  | .hmix c f => .core (f.word 0x19 0 c)
  | .sfadd c f => .core (f.word 0x20 0 c)
  | .sfmul c f => .core (f.word 0x20 1 c)
  | .sffma c f => .core (f.word 0x20 2 c)
  | .sfcmp c f => .core (f.word 0x20 3 c)
  | .sfcvt c f => .core (f.word 0x20 4 c)
  | .sfmm c f => .core (f.word 0x20 5 c)
  | .cmp c f => .core (f.word 0x30 0 c)
  | .pand c f => .core (f.word 0x31 0 c)
  | .por c f => .core (f.word 0x31 1 c)
  | .pxor c f => .core (f.word 0x31 2 c)
  | .pnot c f => .core (f.word 0x31 3 c)
  | .pany c f => .core (f.word 0x31 4 c)
  | .mfc c f => .core (f.word 0x36 0 c)
  | .mtc c f => .core (f.word 0x36 1 c)
  | .spt c f => .core (f.word 0x38 0 c)
  | .spc c f => .core (f.word 0x38 1 c)
  | .spid c f => .core (f.word 0x38 2 c)
  | .spmk c f => .core (f.word 0x39 0 c)
  | .vfmap c f => .core (f.word 0x40 0 c)
  | .vdim c f => .core (f.word 0x41 0 c)
  | .vsid c f => .core (f.word 0x42 0 c)
  | .vidx c f => .core (f.word 0x43 0 c)
  | .vbcast c f => .core (f.word 0x44 0 c)
  | .vadd c f => .core (f.word 0x48 0 c)
  | .vsub c f => .core (f.word 0x48 1 c)
  | .vadds c f => .core (f.word 0x48 2 c)
  | .vsubs c f => .core (f.word 0x48 3 c)
  | .vneg c f => .core (f.word 0x48 4 c)
  | .vabs c f => .core (f.word 0x48 5 c)
  | .vmul c f => .core (f.word 0x49 0 c)
  | .vmulh c f => .core (f.word 0x49 1 c)
  | .vmac c f => .core (f.word 0x49 2 c)
  | .vmin c f => .core (f.word 0x4A 0 c)
  | .vmax c f => .core (f.word 0x4A 1 c)
  | .vand c f => .core (f.word 0x4B 0 c)
  | .vor c f => .core (f.word 0x4B 1 c)
  | .vxor c f => .core (f.word 0x4B 2 c)
  | .vnot c f => .core (f.word 0x4B 3 c)
  | .vshl c f => .core (f.word 0x4C 0 c)
  | .vshr c f => .core (f.word 0x4C 1 c)
  | .vsar c f => .core (f.word 0x4C 2 c)
  | .vcmp c f => .core (f.word 0x4D 0 c)
  | .vsel c f => .core (f.word 0x4E 0 c)
  | .vmov c f => .core (f.word 0x4E 1 c)
  | .vcvt c f => .core (f.word 0x4F 0 c)
  | .vpopc c f => .core (f.word 0x50 0 c)
  | .vclz c f => .core (f.word 0x50 1 c)
  | .vbext c f => .core (f.word 0x51 0 c)
  | .vfadd c f => .core (f.word 0x70 0 c)
  | .vfsub c f => .core (f.word 0x70 1 c)
  | .vfmul c f => .core (f.word 0x70 2 c)
  | .vffma c f => .core (f.word 0x70 3 c)
  | .vfmm c f => .core (f.word 0x70 4 c)
  | .vfcmp c f => .core (f.word 0x71 0 c)
  | .vfcvt c f => .core (f.word 0x72 0 c)
  | .vfsgn c f => .core (f.word 0x73 0 c)
  | .vfexp2 c f => .core (f.word 0x74 0 c)
  | .vfrcp c f => .core (f.word 0x74 1 c)
  | .vfscl c f => .core (f.word 0x75 0 c)
  | .vfnb8 c f => .core (f.word 0x76 0 c)
  | .asrch c f => .core (f.word 0x80 0 c)
  | .asrchr c f => .core (f.word 0x80 1 c)
  | .awr c f => .core (f.word 0x81 0 c)
  | .apass c f => .core (f.word 0x82 0 c)
  | .acnt c f => .core (f.word 0x83 0 c)
  | .afirst c f => .core (f.word 0x83 1 c)
  | .atopk c f => .core (f.word 0x84 0 c)
  | .aext c f => .core (f.word 0x85 0 c)
  | .ahamm c f => .core (f.word 0x86 0 c)
  | .asred c f => .core (f.word 0x87 0 c)
  | .ared c f => .core (f.word 0x87 1 c)
  | .vhash c f => .core (f.word 0x88 0 c)
  | .mand c f => .core (f.word 0x89 0 c)
  | .mor c f => .core (f.word 0x89 1 c)
  | .mxor c f => .core (f.word 0x89 2 c)
  | .mnot c f => .core (f.word 0x89 3 c)
  | .msetmvl c f => .core (f.word 0x90 0 c)
  | .mrow c f => .core (f.word 0x91 0 c)
  | .mrowh c f => .core (f.word 0x91 1 c)
  | .msacc c f => .core (f.word 0x92 0 c)
  | .mext c f => .core (f.word 0x93 0 c)
  | .mclrAcc c f => .core (f.word 0x94 0 c)
  | .mclrB c f => .core (f.word 0x94 0 c)
  | .mwait c f => .core (f.word 0x95 0 c)
  | .mtok c f => .core (f.word 0x95 1 c)
  | .mdrain c f => .core (f.word 0x96 0 c)
  | .mzfScan c f => .core (f.word 0x97 0 c)
  | .mzfGet c f => .core (f.word 0x97 0 c)
  | .ld c f => .core (f.word 0xA0 0 c)
  | .st c f => .core (f.word 0xA0 1 c)
  | .vld c f => .core (f.word 0xA1 0 c)
  | .vlds c f => .core (f.word 0xA1 1 c)
  | .vldx c f => .core (f.word 0xA1 2 c)
  | .vldd c f => .core (f.word 0xA1 3 c)
  | .vst c f => .core (f.word 0xA2 0 c)
  | .vsts c f => .core (f.word 0xA2 1 c)
  | .vstx c f => .core (f.word 0xA2 2 c)
  | .vstd c f => .core (f.word 0xA2 3 c)
  | .vldh c f => .core (f.word 0xA3 0 c)
  | .vsth c f => .core (f.word 0xA3 1 c)
  | .prf c f => .core (f.word 0xA4 0 c)
  | .cmoWb c f => .core (f.word 0xA4 1 c)
  | .cmoBind c f => .core (f.word 0xA4 1 c)
  | .cmoInv c f => .core (f.word 0xA4 1 c)
  | .stfl c f => .core (f.word 0xA5 0 c)
  | .cas c f => .core (f.word 0xC1 0 c)
  | .scred c f => .core (f.word 0xC3 0 c)
  | .binap c f => .core (f.word 0xC4 0 c)
  | .binpl c f => .core (f.word 0xC4 1 c)
  | .phase c f => .core (f.word 0xC8 0 c)
  | .barinit c f => .core (f.word 0xC9 0 c)
  | .bararr c f => .core (f.word 0xC9 1 c)
  | .barwait c f => .core (f.word 0xC9 2 c)
  | .bartest c f => .core (f.word 0xC9 3 c)
  | .cardq c f => .core (f.word 0xD1 0 c)
  | .strm c f => .core (f.word 0xD2 0 c)
  | .strmkv c f => .core (f.word 0xD2 1 c)
  | .seep c f => .core (f.word 0xD3 0 c)
  | .gath c f => .core (f.word 0xD4 0 c)
  | .hld c f => .core (f.word 0xE0 0 c)
  | .hst c f => .core (f.word 0xE0 1 c)
  | .hqWord c f => .core (f.word 0xE1 0 c)
  | .hqInv c f => .core (f.word 0xE1 0 c)
  | .hmaskLin c f => .core (f.word 0xE1 1 c)
  | .hmaskTr c f => .core (f.word 0xE1 1 c)
  | .gstart c f => .core (f.word 0xE2 0 c)
  | .gnextScalar c f => .core (f.word 0xE2 1 c)
  | .gnextVector c f => .core (f.word 0xE2 1 c)
  | .ginv c f => .core (f.word 0xE2 2 c)
  | .tap c f => .core (f.word 0xE8 0 c)
  | .tapfin c f => .core (f.word 0xE9 0 c)
  | .tapq c f => .core (f.word 0xE9 1 c)
  | .launch c f => .core (f.word 0xEC 0 c)
  | .withdraw c f => .core (f.word 0xEC 1 c)
  | .pgreq c f => .core (f.word 0xED 0 c)
  | .pgpin c f => .core (f.word 0xED 1 c)
  | .pgunpin c f => .core (f.word 0xED 2 c)
  | .tlbi c f => .core (f.word 0xEE 0 c)
  | .hot c f => .core (f.word 0xEF 0 c)
  | .pfxlFind c f => .core (f.word 0xF0 0 c)
  | .pfxlPin c f => .core (f.word 0xF0 0 c)
  | .pfxlPage c f => .core (f.word 0xF0 0 c)
  | .pfxiIns c f => .core (f.word 0xF0 1 c)
  | .pfxiUnpin c f => .core (f.word 0xF0 1 c)
  | .strmxStop c f => .core (f.word 0xD2 2 c)
  | .strmxStat c f => .core (f.word 0xD2 2 c)
  | .amo c op f => .core (f.word 0xC0 (amoFn op) c)
  | .vamo c op f => .core (f.word 0xC2 (amoFn op) c)
  | .card c k f => .core (f.word 0xD0 (kindFn k) c)
  | .seepLoop => .seep (0x1#4 ++ 0#60)
  | .seepHalt => .seep (0x2#4 ++ 0#60)
  | .seepSync => .seep (0x3#4 ++ 0#60)
  | .fld wd col => .seep (seepFetchWord 1 wd col)
  | .fldx wd wa => .seep (seepFetchWord 2 wd wa)
  | .seepAdd a => .seep (a.word 1)
  | .seepMul a => .seep (a.word 2)
  | .fma a => .seep (a.word 3)
  | .deq a => .seep (a.word 4)
  | .seepMax a => .seep (a.word 5)
  | .rsum a => .seep (a.word 6)
  | .seepSt wa col => .seep (seepWbWord 1 wa col 0)
  | .stc wa => .seep (seepWbWord 2 wa 0 0)
  | .red wa col mode => .seep (seepWbWord 3 wa col mode)
  | .idle => .seep 0
  | .deviceReset _ _ => .event
  | .stripStart _ _ => .event
  | .tarnScrub _ _ => .event
  | .rowAccept _ => .event
  | .rowComplete _ _ => .event
  | .storePerform _ => .event
  | .stashFill _ _ _ => .event
  | .stashWriteBack _ _ _ => .event
  | .backInvalidate _ => .event
  | .cardDispatch _ => .event
  | .cardReleasedArrival _ => .event
  | .cardVisibleArrival _ => .event
  | .streamReadAhead _ _ _ => .event
  | .gatherVisibleArrival _ => .event
  | .trainReceive _ => .event
  | .trainAck _ _ _ => .event
  | .seepClaimGrant _ => .event
  | .seepKernelFail _ _ => .event
  | .seepRelease _ => .event
  | .hostWindowWrite _ _ _ _ => .event
  | .wdraw _ => .event
  | .gangStart _ _ _ => .event
  | .launchComplete _ => .event
  | .quantumExpiry _ _ => .event
  | .preemptDecision _ _ _ _ _ => .event
  | .stopPointReached _ => .event
  | .swapSave _ => .event
  | .swapLoad _ _ => .event
  | .trapRecordWrite _ => .event
  | .tqconsWrite _ _ _ => .event
  | .tqactReplay _ _ _ => .event
  | .tqactTerminate _ _ _ => .event
  | .quantumWrite _ _ _ => .event
  | .savebaseWrite _ _ _ => .event
  | .savelimWrite _ _ _ => .event
  | .migvaWrite _ _ _ => .event
  | .migrationStart _ _ _ => .event
  | .migrationSectorCopy _ => .event
  | .migrationFinish _ => .event
  | .rqconsWrite _ _ => .event
  | .residencyRewalk _ => .event
  | .hotnessAdd _ => .event
  | .tlbia _ _ => .event
  | .rpclr _ _ => .event
  | .pfxinv _ _ => .event
  | .probeStageWrite _ _ _ _ => .event
  | .probeCommit _ _ _ => .event
  | .flitReceive _ _ => .event
  | .linkRetryTimeout _ => .event
  | .portctl _ _ => .event
  | .hostBar4Read _ _ => .event
  | .hostBar4Write _ _ _ => .event
  | .msixUnmask _ => .event
  | .claim _ _ => .event
  | .renew _ _ => .event
  | .offer _ _ => .event
  | .accept _ _ => .event
  | .release _ _ => .event
  | .leaseExpiry _ => .event
  | .mgmtRegisterWrite _ _ _ _ => .event
  | .mlogcons _ _ => .event
  | .qrst _ _ => .event
  | .dstop _ _ => .event
  | .memoryError _ _ => .event
  | .thermalBandChange _ _ => .event
  | .fwcmd _ _ => .event
  | .attcmd _ _ => .event
  | .spareWrite _ _ _ => .event
  | .rowSpareTableWrite _ _ _ _ => .event
  | .journalConfigWrite _ _ _ _ => .event

/-- Bits [95:32] of an instruction's word, the default TRAPVAL (R386). -/
def Instr.upper (i : Instr) : Word :=
  match encode i with
  | .core w => w.extractLsb' 32 64
  | _ => 0

/-- The instruction that the decoder reads from an instruction whose bits are w: a 96-bit word is
decoded by `decode`, a 64-bit word is a seep word and gives its first operation. -/
def decodeTableWord (nbits w : Nat) : Option Instr :=
  if nbits ≤ 32 then none
  else if nbits ≤ 64 then (decodeSeep (BitVec.ofNat 64 w)).bind List.head?
  else match decode (BitVec.ofNat 96 w) with
    | .ok i => some i
    | .error _ => none

end Sys2Proof
end

