-- ==== Sys2Proof/Machine/Maps.lean ====
section
/-! DEFINITION. Sparse tables as lists of (key, value) pairs with strictly rising keys, and byte memory
as such a table in canonical form. -/

namespace Sys2Proof.Machine

/-- A table with rising keys. -/
abbrev Table (α : Type) := List (Nat × α)

/-- The entry of a key. -/
def look {α : Type} : List (Nat × α) → Nat → Option α
  | [], _ => none
  | (a, v) :: t, k => if a = k then some v else look t k

def lookD {α : Type} (m : List (Nat × α)) (k : Nat) (d : α) : α := (look m k).getD d

/-- Writes an entry. -/
def put {α : Type} : List (Nat × α) → Nat → α → List (Nat × α)
  | [], k, v => [(k, v)]
  | (a, w) :: t, k, v =>
    if k < a then (k, v) :: (a, w) :: t else if k = a then (k, v) :: t else (a, w) :: put t k v

/-- Removes an entry. -/
def del {α : Type} : List (Nat × α) → Nat → List (Nat × α)
  | [], _ => []
  | (a, w) :: t, k => if a = k then del t k else (a, w) :: del t k

/-- Writes an entry, or removes it when the value is what an unlisted key reads as. -/
def putOr {α : Type} [DecidableEq α] (d : α) (m : List (Nat × α)) (k : Nat) (v : α) : List (Nat × α) :=
  if v = d then del m k else put m k v

/-- Keys strictly rising. -/
def rising {α : Type} : List (Nat × α) → Bool
  | [] => true
  | [_] => true
  | (a, _) :: (b, w) :: t => decide (a < b) && rising ((b, w) :: t)

/-- Byte memory: addresses strictly rising, no entry equal to what an unlisted address reads as. -/
abbrev Memory := List Host.Cell

/-- What an unlisted address reads as (assumption log 5). -/
def Memory.blank : Byte := 0

/-- The canonical form. -/
def Memory.wf (m : Memory) : Bool := rising m && m.all fun c => c.2 != Memory.blank

/-- One byte. -/
def rdByte (m : Memory) (a : Nat) : Byte := lookD m a Memory.blank
def wrByte (m : Memory) (a : Nat) (b : Byte) : Memory := putOr Memory.blank m a b

/-- n bytes from a on. -/
def rdBytes (m : Memory) (a : Nat) : Nat → List Byte
  | 0 => []
  | n + 1 => rdByte m a :: rdBytes m (a + 1) n

/-- Stores bytes from a on. -/
def wrBytes (m : Memory) (a : Nat) : List Byte → Memory
  | [] => m
  | b :: bs => wrBytes (wrByte m a b) (a + 1) bs

/-- Little-endian value of bytes, and the bytes of a value (R9). -/
def leVal : List Byte → Nat
  | [] => 0
  | b :: bs => b.toNat + 256 * leVal bs
def leBytes : Nat → Nat → List Byte
  | 0, _ => []
  | n + 1, v => BitVec.ofNat 8 v :: leBytes n (v / 256)

/-- A little-endian value of n bytes in memory. -/
def rdVal (m : Memory) (a n : Nat) : Nat := leVal (rdBytes m a n)
def wrVal (m : Memory) (a n v : Nat) : Memory := wrBytes m a (leBytes n v)

/-- Sets of numbers, kept sorted without repeats. -/
def setAdd : List Nat → Nat → List Nat
  | [], k => [k]
  | a :: t, k => if k < a then k :: a :: t else if k = a then a :: t else a :: setAdd t k
def setDel (l : List Nat) (k : Nat) : List Nat := l.filter fun x => x != k

end Sys2Proof.Machine
end

