-- ==== Sys2Proof/Machine/Numbers.lean ====
section
/-! DEFINITION. Numbers and rounding (chapter 4, R53 to R73): exact values, the single rounding step,
the stochastic states, conversions and NB8 blocks. A finite value is held exactly as
±(n ÷ d) × 2^e; nothing here is approximate but `exp2Frac` (assumption log 10). -/

namespace Sys2Proof.Machine

/-! ## Integers -/

/-- The exact value of a w-bit pattern under its signedness (R53). -/
def intVal (signed : Bool) (w : Nat) (bits : Nat) : Int :=
  let b := bits % 2 ^ w
  if signed && decide (2 ^ w ≤ 2 * b) then (b : Int) - (2 ^ w : Nat) else (b : Int)

/-- Least and greatest values of an integer type (R53). -/
def intMin (signed : Bool) (w : Nat) : Int := if signed then -((2 ^ (w - 1) : Nat) : Int) else 0
def intMax (signed : Bool) (w : Nat) : Int :=
  if signed then ((2 ^ (w - 1) : Nat) : Int) - 1 else ((2 ^ w : Nat) : Int) - 1

/-- The w low bits of an exact integer. -/
def intBits (w : Nat) (x : Int) : Nat := (x % ((2 ^ w : Nat) : Int)).toNat

/-- Fits an exact integer to a type (R54): the pattern, and whether saturation replaced it. -/
def fitInt (signed : Bool) (w : Nat) (sat : Bool) (x : Int) : Nat × Bool :=
  if sat && decide (x < intMin signed w) then (intBits w (intMin signed w), true)
  else if sat && decide (intMax signed w < x) then (intBits w (intMax signed w), true)
  else (intBits w x, false)

/-! ## Floating formats -/

/-- The six floating formats (Table 4-1). -/
inductive Flt
  | e4m3 | e5m2 | e2m1 | f16 | bf16 | f32
deriving DecidableEq, Repr

/-- Fraction bits m. -/
def Flt.m : Flt → Nat
  | .e4m3 => 3 | .e5m2 => 2 | .e2m1 => 1 | .f16 => 10 | .bf16 => 7 | .f32 => 23
/-- Exponent bits e. -/
def Flt.eb : Flt → Nat
  | .e4m3 => 4 | .e5m2 => 5 | .e2m1 => 2 | .f16 => 5 | .bf16 => 8 | .f32 => 8
/-- Bias B. -/
def Flt.bias : Flt → Nat
  | .e4m3 => 7 | .e5m2 => 15 | .e2m1 => 1 | .f16 => 15 | .bf16 => 127 | .f32 => 127
/-- Bits of the format. -/
def Flt.width (f : Flt) : Nat := 1 + f.eb + f.m
/-- Magnitude bits of the largest finite value. -/
def Flt.maxBits : Flt → Nat
  | .e4m3 => 0x7E | .e5m2 => 0x7B | .e2m1 => 0x7 | .f16 => 0x7BFF | .bf16 => 0x7F7F | .f32 => 0x7F7FFFFF
/-- Magnitude bits of infinity, in the formats that have one. -/
def Flt.infBits : Flt → Option Nat
  | .e5m2 => some 0x7C | .f16 => some 0x7C00 | .bf16 => some 0x7F80 | .f32 => some 0x7F800000
  | _ => none
/-- The canonical NaN (R56). -/
def Flt.nanBits : Flt → Option Nat
  | .e4m3 => some 0x7F | .e5m2 => some 0x7F | .f16 => some 0x7E00 | .bf16 => some 0x7FC0
  | .f32 => some 0x7FC00000 | .e2m1 => none

/-- An exact real value, or a special value (R57): `fin neg n d e` is ±(n ÷ d) × 2^e with n, d > 0. -/
inductive Num
  | nan
  | inf (neg : Bool)
  | zero (neg : Bool)
  | fin (neg : Bool) (n d : Nat) (e : Int)
deriving DecidableEq, Repr

/-- The value of an encoding (R55, Table 4-1). -/
def Flt.val (f : Flt) (bits : Nat) : Num :=
  let b := bits % 2 ^ f.width
  let neg := decide (2 ^ (f.width - 1) ≤ b)
  let mag := b % 2 ^ (f.width - 1)
  if mag = 0 then .zero neg
  else if f.infBits = some mag then .inf neg
  else if f.maxBits < mag then .nan
  else
    let ex := mag / 2 ^ f.m
    let fr := mag % 2 ^ f.m
    if ex = 0 then .fin neg fr 1 (1 - (f.bias : Int) - f.m)
    else .fin neg (2 ^ f.m + fr) 1 ((ex : Int) - f.bias - f.m)

/-- An exact integer as a number; 0 is +0. -/
def Num.ofInt (x : Int) : Num := if x = 0 then .zero false else .fin (decide (x < 0)) x.natAbs 1 0

def Num.isNaN : Num → Bool
  | .nan => true
  | _ => false
/-- Non-finite: a NaN or an infinity (R56). -/
def Num.nonFinite : Num → Bool
  | .nan => true | .inf _ => true
  | _ => false
/-- The sign; false for NaN. -/
def Num.sign : Num → Bool
  | .nan => false | .inf s => s | .zero s => s | .fin s _ _ _ => s
/-- The value with another sign; NaN has none. -/
def Num.withSign (s : Bool) : Num → Num
  | .nan => .nan | .inf _ => .inf s | .zero _ => .zero s | .fin _ n d e => .fin s n d e
def Num.neg (x : Num) : Num := x.withSign (!x.sign)
def Num.abs (x : Num) : Num := x.withSign false

/-- n × 2^s for s ≥ 0, n otherwise. -/
def shlNat (n : Nat) (s : Int) : Nat := n * 2 ^ s.toNat

/-- The signed integer ±n × 2^(e − e0) / 1 over the common denominator d. -/
def alignedInt (neg : Bool) (n : Nat) (s : Int) : Int :=
  if neg then -(shlNat n s : Int) else (shlNat n s : Int)

/-- Exact sum (R57); `rdn` says that the mode is RDN, which gives a cancelled sum the sign −. -/
def Num.add (rdn : Bool) : Num → Num → Num
  | .nan, _ => .nan
  | _, .nan => .nan
  | .inf a, .inf b => if a = b then .inf a else .nan
  | .inf a, _ => .inf a
  | _, .inf b => .inf b
  | .zero a, .zero b => if a = b then .zero a else .zero rdn
  | .zero _, y => y
  | x, .zero _ => x
  | .fin a n d e, .fin b n' d' e' =>
    let e0 := min e e'
    let s := alignedInt a (n * d') (e - e0) + alignedInt b (n' * d) (e' - e0)
    if s = 0 then .zero rdn else .fin (decide (s < 0)) s.natAbs (d * d') e0

def Num.sub (rdn : Bool) (x y : Num) : Num := x.add rdn y.neg

/-- Exact product (R57). -/
def Num.mul : Num → Num → Num
  | .nan, _ => .nan
  | _, .nan => .nan
  | .inf _, .zero _ => .nan
  | .zero _, .inf _ => .nan
  | .inf a, y => .inf (a != y.sign)
  | x, .inf b => .inf (x.sign != b)
  | .zero a, y => .zero (a != y.sign)
  | x, .zero b => .zero (x.sign != b)
  | .fin a n d e, .fin b n' d' e' => .fin (a != b) (n * n') (d * d') (e + e')

/-- Exact reciprocal, with the special operands of R119. -/
def Num.recip : Num → Num
  | .nan => .nan | .inf s => .zero s | .zero s => .inf s | .fin s n d e => .fin s d n (-e)

/-- Order of finite values and infinities, −0 equal to +0; nothing when either is NaN. -/
def Num.cmp (x y : Num) : Option Ordering :=
  let key : Num → Num → Int := fun a b =>
    match a, b with
    | .fin s n _ e, .fin _ _ d' e' => alignedInt s (n * d') (e - min e e')
    | .fin s _ _ _, _ => if s then -1 else 1
    | _, _ => 0
  match x, y with
  | .nan, _ => none
  | _, .nan => none
  | .inf a, .inf b => some (if a = b then .eq else if a then .lt else .gt)
  | .inf a, _ => some (if a then .lt else .gt)
  | _, .inf b => some (if b then .gt else .lt)
  | a, b => some (compare (key a b) (key b a))

/-- The lesser (greater) of two values with −0 below +0; of a NaN and a number, the number (R118). -/
def Num.minmax (max : Bool) (x y : Num) : Num :=
  match x.cmp y with
  | none => if x.isNaN then y else x
  | some .lt => if max then y else x
  | some .gt => if max then x else y
  | some .eq => if x.sign = max then y else x

/-- A comparison under Table 2-8 (R41). -/
def condOf (sub : Nat) : Option Ordering → Bool
  | none => sub = 1 || sub = 7
  | some o =>
    match sub with
    | 0 => o == .eq | 1 => o != .eq | 2 => o == .lt | 3 => o != .gt | 4 => o == .gt | 5 => o != .lt
    | 6 => true | _ => false

/-! ## Rounding -/

/-- R61. -/
def xorShift32 (a : BitVec 32) : BitVec 32 :=
  let a := a ^^^ (a <<< 13)
  let a := a ^^^ (a >>> 17)
  a ^^^ (a <<< 5)

/-- One seeded stochastic state (R62). -/
def seedState (seed : BitVec 32) (l : Nat) : BitVec 32 :=
  let t := seed ^^^ BitVec.ofNat 32 ((l + 1) * 0x9E3779B9)
  if t = 0 then 0x6D2B79F5 else t

/-- floor(log2(n ÷ d)) for n, d > 0. -/
def log2Div (n d : Nat) : Int :=
  let l := (Nat.log2 n : Int) - Nat.log2 d
  if d * 2 ^ l.toNat ≤ n * 2 ^ (-l).toNat then l else l - 1

/-- `RoundToMultiple` of R59 for the magnitude (n ÷ d) × 2^s in units of the spacing (R58, R61): the
multiple, and the stochastic state after. -/
def roundMultiple (neg : Bool) (n d : Nat) (s : Int) (rm : RMode) (st : BitVec 32) : Nat × BitVec 32 :=
  let num := shlNat n s
  let den := shlNat d (-s)
  let lo := num / den
  let r := num % den
  if r = 0 then (lo, st)
  else
    match rm with
    | .rtz => (lo, st)
    | .rdn => (if neg then lo + 1 else lo, st)
    | .rup => (if neg then lo else lo + 1, st)
    | .rna => (if den ≤ 2 * r then lo + 1 else lo, st)
    | .rsto =>
      let x := xorShift32 st
      (if x.toNat < r * 2 ^ 32 / den then lo + 1 else lo, x)
    | _ => (if den < 2 * r then lo + 1 else if 2 * r < den then lo else lo + lo % 2, st)

/-- What rounding or fitting one result gives: its pattern, whether SATUR is set, and the state after. -/
structure Rounded where
  bits : Nat
  satur : Bool
  st : BitVec 32
deriving DecidableEq, Repr

def Flt.signed (f : Flt) (neg : Bool) (mag : Nat) : Nat := if neg then 2 ^ (f.width - 1) + mag else mag

/-- `Overflow` of R59. -/
def Flt.overflow (f : Flt) (neg : Bool) (rm : RMode) (sat wasInf : Bool) : Nat × Bool :=
  let big := rm == .rne || rm == .rna || rm == .rsto || rm == .dyn || (rm == .rup && !neg) || (rm == .rdn && neg)
  if f = .e2m1 then (f.signed neg f.maxBits, true)
  else if sat then (f.signed neg f.maxBits, true)
  else if !big && !wasInf then (f.signed neg f.maxBits, false)
  else
    match f.infBits with
    | some i => (f.signed neg i, false)
    | none => (f.nanBits.getD 0, false)

/-- `Round` of R59 into format f; rm is already resolved from DYN. -/
def Flt.round (f : Flt) (x : Num) (rm : RMode) (sat : Bool) (st : BitVec 32) : Rounded :=
  match x with
  | .nan =>
    match f with
    | .e2m1 => { bits := 0, satur := true, st := st }
    | .e4m3 => if sat then { bits := 0x7E, satur := true, st := st } else { bits := 0x7F, satur := false, st := st }
    | _ => { bits := f.nanBits.getD 0, satur := false, st := st }
  | .inf s => let o := f.overflow s rm sat true; { bits := o.1, satur := o.2, st := st }
  | .zero s => { bits := f.signed s 0, satur := false, st := st }
  | .fin neg n d e =>
    let lg := log2Div n d + e
    let emin : Int := 1 - f.bias
    let ex := max lg emin
    -- far below the smallest spacing only "not zero" counts: the scale is held at 2^−64 of a spacing
    let e := if lg < emin - f.m - 64 then e + (emin - f.m - 64 - lg) else e
    let k := roundMultiple neg n d (e - ex + f.m) rm st
    let mag := (ex + f.bias).toNat * 2 ^ f.m + k.1 - 2 ^ f.m
    if f.maxBits < mag then let o := f.overflow neg rm sat false; { bits := o.1, satur := o.2, st := k.2 }
    else { bits := f.signed neg mag, satur := false, st := k.2 }

/-- Floating to integer (R63): rounded by rm, then clamped whatever SAT holds. -/
def roundToInt (signed : Bool) (w : Nat) (x : Num) (rm : RMode) (st : BitVec 32) : Rounded :=
  match x with
  | .nan => { bits := 0, satur := true, st := st }
  | .inf s => { bits := intBits w (if s then intMin signed w else intMax signed w), satur := true, st := st }
  | .zero _ => { bits := 0, satur := false, st := st }
  | .fin neg n d e =>
    let lg := log2Div n d + e
    let e := if lg < -64 then e + (-64 - lg) else e
    let k := roundMultiple neg n d e rm st
    let v : Int := if neg then -(k.1 : Int) else k.1
    let p := fitInt signed w true v
    { bits := p.1, satur := p.2, st := k.2 }

/-! ## Types and conversions -/

/-- A resolved element type (R53, R55). -/
inductive NTy
  | int (signed : Bool) (w : Nat)
  | flt (f : Flt)
deriving DecidableEq, Repr

def NTy.width : NTy → Nat
  | .int _ w => w
  | .flt f => f.width
def NTy.isFlt : NTy → Bool
  | .flt _ => true
  | _ => false

/-- The floating format of a type code (Table 2-6). -/
def fltOfTy : Ty → Option Flt
  | .e4m3 => some .e4m3 | .e5m2 => some .e5m2 | .e2m1 => some .e2m1 | .f16 => some .f16
  | .bf16 => some .bf16 | .f32 => some .f32
  | _ => none

/-- An exact integer, or a floating value: what an element holds. -/
inductive Val
  | i (x : Int)
  | f (x : Num)
deriving DecidableEq, Repr

def NTy.val (t : NTy) (bits : Nat) : Val :=
  match t with
  | .int s w => .i (intVal s w bits)
  | .flt f => .f (f.val bits)

def Val.num : Val → Num
  | .i x => .ofInt x
  | .f x => x
def Val.int : Val → Int
  | .i x => x
  | .f _ => 0

/-- Conversion of a value into a type (R63). -/
def NTy.convert (t : NTy) (v : Val) (rm : RMode) (sat : Bool) (st : BitVec 32) : Rounded :=
  match t, v with
  | .int s w, .i x => let p := fitInt s w sat x; { bits := p.1, satur := p.2, st := st }
  | .int s w, .f x => roundToInt s w x rm st
  | .flt f, v => f.round v.num rm sat st

/-- 2^x for an exact x, with the special operands of R119. -/
def ln2Fixed : Nat := 0xB17217F7D1CF79ABC9E3B39803F2F6AF40F343267298B62D8A0D175B8BAAFA2B

/-- Terms of the exponential series of x ÷ 2^256, each ÷ 2^256. -/
def expSeries (x : Nat) : (fuel k : Nat) → (term acc : Nat) → Nat
  | 0, _, _, acc => acc
  | fuel + 1, k, term, acc =>
    let t := term * x / 2 ^ 256 / (k + 1)
    expSeries x fuel (k + 1) t (acc + t)

/-- floor(2^(f ÷ 2^256) × 2^200) for 0 < f < 2^256, from the series of e^(f ln 2) (assumption log 10). -/
def exp2Frac (f : Nat) : Nat :=
  expSeries (f * ln2Fixed / 2 ^ 256) 70 0 (2 ^ 256) (2 ^ 256) / 2 ^ 56

def Num.exp2 : Num → Num
  | .nan => .nan
  | .inf s => if s then .zero false else .inf false
  | .zero _ => .fin false 1 1 0
  | .fin neg n _ e =>
    if 0 ≤ e then .fin false 1 1 (alignedInt neg n e)
    else
      let t := (-e).toNat
      let v : Int := if neg then -(n : Int) else n
      let k := v / ((2 ^ t : Nat) : Int)
      let r := (v % ((2 ^ t : Nat) : Int)).toNat
      if r = 0 then .fin false 1 1 k
      else .fin false (2 * exp2Frac (r * 2 ^ 256 / 2 ^ t) + 1) 1 (k - 201)

/-! ## NB8 (R64 to R67) -/

/-- A 12-bit scale's value: nothing for the NaN scale, `zero` for the zero scale. -/
def scaleVal (s : Nat) : Num :=
  let se := s / 16 % 256
  let sf := s % 16
  if se = 0 then .zero false
  else if se = 255 && sf = 15 then .nan
  else .fin false (16 + sf) 1 ((se : Int) - 127 - 4)

/-- The smallest nonzero scale with s ≥ a ÷ EM, and whether the largest was forced (R66). -/
def scaleFor (a : Num) (em : Nat) : Nat × Bool :=
  match a with
  | .fin _ n d e =>
    let d := d * em
    let lg := log2Div n d + e
    let ex := max lg (-126)
    let k := (roundMultiple false n d (e - ex + 4) .rup 0).1
    let c := if lg < -126 then 16 else (ex + 127).toNat * 16 + k - 16
    if 0xFFE < c then (0xFFE, true) else (c, false)
  | _ => (0, false)

/-- The greatest magnitude of a list of finite values; +0 when all are zero. -/
def maxAbs : List Num → Num
  | [] => .zero false
  | x :: xs => Num.minmax true x.abs (maxAbs xs)

/-- `PackBlock` of R66 over the values that take part, each with its stochastic state: the scale code,
the elements, and SATUR. -/
def packBlock (xs : List (Num × BitVec 32)) (elem : Flt) (rm : RMode) :
    Nat × List (Nat × BitVec 32) × Bool :=
  if xs.any (fun x => x.1.nonFinite) then (0xFFF, xs.map fun x => (0, x.2), false)
  else
    match maxAbs (xs.map Prod.fst) with
    | .zero _ => (0, xs.map fun x => (elem.signed x.1.sign 0, x.2), false)
    | a =>
      let sc := scaleFor a (if elem = .e2m1 then 6 else 448)
      let inv := (scaleVal sc.1).recip
      let rs := xs.map fun x => elem.round (x.1.mul inv) rm true x.2
      (sc.1, rs.map fun r => (r.bits, r.st), sc.2 || rs.any fun r => r.satur)

/-- The exact value of an element under a scale (R67). -/
def unpackVal (elem : Flt) (bits scale : Nat) : Num :=
  match scaleVal scale, elem.val bits with
  | .nan, _ => .nan
  | _, .nan => .nan
  | .zero _, x => .zero x.sign
  | s, x => x.mul s

/-- `vfscl` (R120). -/
def scaleMul (a : Num) (s : Nat) : Num :=
  match scaleVal s with
  | .nan => .nan
  | .zero _ => if a.nonFinite then .nan else .zero a.sign
  | v => a.mul v
def scaleDiv (a : Num) (s : Nat) : Num :=
  match scaleVal s with
  | .nan => .nan
  | .zero _ =>
    match a with
    | .nan => .nan
    | .zero _ => .nan
    | x => .inf x.sign
  | v => a.mul v.recip

/-! ## The mixing function -/

/-- R97. -/
def hMix (a b : Word) : Word :=
  let x := a ^^^ (b * 0x9E3779B97F4A7C15)
  let x := (x ^^^ (x >>> 30)) * 0xBF58476D1CE4E5B9
  let x := (x ^^^ (x >>> 27)) * 0x94D049BB133111EB
  x ^^^ (x >>> 31)

end Sys2Proof.Machine
end

