-- ==== Sys2Proof/Machine/State.lean ====
section
/-! DEFINITION. The state of Merrok as plain data: every piece of state the manual gives the machine
(INVENTORY.md lists them with their rules), the model's own schedule, and the state after reset. -/

namespace Sys2Proof.Machine

/-! ## Stops -/

/-- What stops the machine. -/
inductive Fault
  /-- Raised by a seep operation that is executed while no seep unit executes a word (`State.unit` is
  none): the operation belongs to no agent (R277). Safe. -/
  | noSeepUnit
deriving DecidableEq, Repr

/-- What the model refuses. -/
inductive Refusal
  /-- Raised by an arm of `exec` whose instruction has no meaning yet. Safe. -/
  | notModelled (mnemonic : String)
deriving DecidableEq, Repr

/-! ## Traps and records -/

/-- Trap causes (Table 10-6). -/
inductive Cause
  | illegal | reservedField | operandClass
  | align | noncanon | invalidPage | protect | foreignStash | window | range
  | noninvertiblePattern | handleType | patternProgram | token | tileSlot | probe
  | software | brk | contained | uncorrected
deriving DecidableEq, Repr

/-- A trap: its cause, the value and indices that its rule names, the PC where that is not the PC of the
trapping instruction, and for UNCORRECTED the memory code and address for the error log (R369). -/
structure Trap where
  cause : Cause
  val : Word
  idx0 : Word := 0
  idx1 : Word := 0
  idx2 : Word := 0
  pc : Option Word := none
  mem : Nat := 0
  addr : Nat := 0
deriving DecidableEq, Repr

/-- A trap record (Table 10-4); `card` names the card that a card's record concerns (R233). -/
structure TrapRec where
  seq : BitVec 32
  gen : BitVec 32
  team : BitVec 32
  trap : Trap
  pc : Word
  core : Nat
  ctx : Nat
  cls : Nat
  card : Option Nat
deriving DecidableEq, Repr

/-! ## A loop context -/

/-- Loop context states (Table 10-1). -/
inductive Status
  | idle | running | handler | stalled | ended
deriving DecidableEq, Repr

/-- A program counter with the packet that it executes from (R26, R29); no packet before the header
check of an entry slot (R27). -/
structure Thread where
  pc : Word
  packet : Option (BitVec 1024)
deriving DecidableEq, Repr

/-- A strip in flight (R160). `popped` says that the pops of the instruction at its PC have been made: a row
instruction that a stop divided executes again without them (R158). `held` is a trap held pending (R168). -/
structure Strip where
  thread : Thread
  sidx : Word
  slen : Nat
  s : Vector Word 32
  p : Vector Bool 4
  pops : Vector Word 4
  popped : Bool
  held : Option Trap
deriving DecidableEq, Repr

/-- The scalar registers that a strip leaves behind (R90). -/
structure Final where
  sidx : Word
  broke : Bool
  s : Vector Word 32
  p : Vector Bool 4
deriving DecidableEq, Repr

/-- A vector loop (R160): its N, its PCs, the next strip, whether a strip executed `vbreak`, the copies
to keep, and the loop sums of R136 by register. -/
structure Loop where
  n : Word
  start : Word
  exit : Word
  next : Nat
  stopped : Bool
  final : Option Final
  sums : Table Word
deriving DecidableEq, Repr

/-- The trap registers (R104, R172). -/
structure TrapRegs where
  cause : Word
  pc : Word
  val : Word
  idx0 : Word
  idx1 : Word
  idx2 : Word
deriving DecidableEq, Repr

/-- What the launch fixes: column window, accumulator range, private region, handler (R75, R142, R174, R170). -/
structure Window where
  cb : Nat
  cn : Nat
  ab : Nat
  an : Nat
  pbase : Word
  psize : BitVec 32
  handler : Word
deriving DecidableEq, Repr

/-- Whose context this is: launch, gang, context index, address space, levels as (domain, scope code),
DONESCOPE and GEN (R291, R292, R319). -/
structure Tenancy where
  launch : Nat
  gang : Nat
  index : Nat
  asid : Fin 16
  levels : List (Nat × Nat)
  doneScope : Nat
  gen : BitVec 32
deriving DecidableEq, Repr

/-- A dimension register (Table 7-2). -/
structure Dim where
  len : BitVec 32
  stride : BitVec 32
deriving DecidableEq, Repr

/-- A completion token (R143): COUNT, and the FAIL record in the form that TRAPVAL takes. -/
structure Tok where
  count : Nat
  fail : Option Word
deriving DecidableEq, Repr

/-- Generator states (R261). -/
inductive GenState
  | idle | ready
deriving DecidableEq, Repr

/-- A generator context (R261): its list, and the cursor into it. -/
structure Gen where
  state : GenState
  list : List Word
  cursor : Nat
deriving DecidableEq, Repr

/-- A stream register in stream mode (R239 to R242): `strm` over dimensions, or `strmkv` over a block table; the next
element, the pops made, what has been read ahead by element or block number, the delivered blocks of `strmkv` and the
block that a trapped pop will deliver when it executes again, and the blocks that have been found on ABSENT pages
(Table 21-3). -/
structure Stream where
  kv : Bool
  base : Word
  dims : List Dim
  z : Nat
  unit : Bool
  table : Word
  len : Nat
  row : Nat
  next : Nat
  pops : Nat
  ahead : List (Nat × List (Option Word))
  delivered : List Nat
  chosen : Option Nat
  deferred : List Nat
deriving DecidableEq, Repr

/-- A way of an open tap state: the entry number and the fields of R265. -/
structure Way where
  entry : Nat
  wptr : Nat
  bias : BitVec 32
  thr : BitVec 32
  sense : Bool
deriving DecidableEq, Repr

/-- The tap state (Table 16-1); ACC holds 16 scores for each slot, slot × 16 + way. -/
structure Tap where
  isOpen : Bool
  layer : Nat
  point : Nat
  d : Nat
  ways : List Way
  acc : Table (BitVec 32)
  eval : BitVec 64
  cross : BitVec 64
deriving DecidableEq, Repr

/-- A vector instruction that has been issued and has not retired (R164): the slot of its issuer (0 outside a body,
else the lane group plus 1), its PC with its packet, and the instruction. Scalar instructions after it have been
issued ahead of it; what they overwrote is in the history buffer of the core. -/
structure Unretired where
  slot : Nat
  thread : Thread
  instr : Instr
deriving DecidableEq, Repr

/-- A loop context (R87, R104, R159). `scrub` holds TRAPVAL and the memory code of an error that a scrub found (R86).
`ahead` holds its unretired vector instructions, oldest first; `ending` says that it has ended by a trap and its
team-end boundary is still to be made (R297); `held` is a trap held pending outside a body (R309). `starting` says
which steps are left before its first instruction: 0 none, 1 those of R296, 2 the rebinding of the stash (R180) and
those of R296, 3 the refresh of a restored context; `stall` is the SEQ of the record for which it is STALLED (R317),
`inWait` names the issuers, by slot, whose latest turn ended in a wait of Table 10-2. -/
structure Ctx where
  status : Status
  starting : Nat
  stall : Option (BitVec 32)
  inWait : List Nat
  thread : Thread
  s : Vector Word 64
  p : Vector Bool 8
  streg : Word
  trap : TrapRegs
  mvl : Nat
  srseed : BitVec 32
  stoch : Table (BitVec 32)
  win : Window
  fmap : Vector (BitVec 32) 32
  dims : Vector Dim 3
  handles : Vector (BitVec 512) 8
  gens : Vector Gen 4
  toks : Vector Tok 16
  streams : Vector (Option Stream) 4
  tap : Tap
  loop : Option Loop
  strips : Vector (Option Strip) 4
  hstrip : Option (Fin 4)
  record : Option TrapRec
  scrub : Option (Word × Nat)
  waits : Table (Fin 16 × Nat × BitVec 32)
  sends : List Nat
  ahead : List Unretired
  ending : Bool
  held : Option Trap
  ten : Tenancy
  wake : Bool
  lastCard : Option Nat
deriving DecidableEq, Repr

/-! ## A core -/

/-- Sector states of a bound stash line (Table 11-3), with the dirty mask. -/
inductive SectorState
  | invalid | clean
  | dirty (mask : BitVec 128)
deriving DecidableEq, Repr

/-- The frame that a line has recorded (R181), as the physical address of the line in it, with the new frame of a
page in TRANSIT (R188) and whether the leaf allowed writes (R323). -/
structure Frame where
  pa : Nat
  new : Option Nat
  w : Bool
deriving DecidableEq, Repr

/-- A stash line that is bound (R180): the global line and its address space, the recorded frame, and its
sectors. -/
structure Line where
  va : Word
  asid : Fin 16
  frame : Option Frame
  secs : Vector SectorState 4
deriving DecidableEq, Repr

/-- Metadata of a tile slot (R140, R151). NF follows from the slot's bytes and the reading format. -/
structure Slot where
  gen : BitVec 16
  z : Vector Bool 8
  stamp : Vector (BitVec 16) 8
  busy : Bool
deriving DecidableEq, Repr

/-- A row of the matrix engine (R146): where it reads and writes, its operand and present marks. -/
structure MRow where
  lc : Fin 4
  lg : Fin 4
  block : Nat
  tok : Fin 16
  cell : Nat
  fmt : Nat
  k : Nat
  slot : Fin 32
  data : BitVec 2048
  present : BitVec 256
deriving DecidableEq, Repr

/-- A row in flight: the 128 results it will write, the sticky bits it sets, and the byte of an
uncorrectable error of its tile (R155). -/
structure MFlight where
  row : MRow
  cells : BitVec 4096
  nxskip : Bool
  stalez : Bool
  failed : Option Nat
deriving DecidableEq, Repr

/-- A sector held by an L1 (R178), with its physical address. -/
structure L1Sec where
  asid : Fin 16
  va : Nat
  pa : Nat
  data : BitVec 1024
  poison : BitVec 2
deriving DecidableEq, Repr

/-- A TLB entry (R324): a VALID entry for the 2^log bytes from va × 2^log on. `leaf` holds W and X of a leaf, which
maps them to pa; without it the entry is a non-leaf one, which names the table at pa. -/
structure Tlb where
  asid : Fin 16
  va : Nat
  log : Nat
  pa : Nat
  leaf : Option (Bool × Bool)
deriving DecidableEq, Repr

/-- A range scoreboard entry (R190). -/
structure Score where
  lo : Nat
  hi : Nat
  write : Bool
  card : Nat
deriving DecidableEq, Repr

/-- An entry of the scalar history buffer (R165): the issuer by loop context and slot, the register, its old value, and
how many of the issuer's unretired vector instructions precede the write. -/
structure Hist where
  lc : Fin 4
  slot : Nat
  reg : Operand
  old : Word
  before : Nat
deriving DecidableEq, Repr

/-- A core (R17 to R19). `hist` is its history buffer, oldest entry first; `due` lists the DIRTY stash sectors, as
line × 4 + sector, that a boundary under way is still to write back (R183, R385). Rows and cells are numbered by lane
within the core, cells as lane × 16 + cell, tile bytes as slot × 16,384 + byte. -/
structure Core where
  k : Fin 4
  rows : Table (BitVec 512)
  parity : Table (BitVec 128)
  tagErr : List Nat
  cells : Table (BitVec 32)
  cellPoison : List Nat
  stash : Memory
  stashPoison : List Nat
  lines : Table Line
  tiles : Memory
  tilePoison : List Nat
  slots : Vector Slot 32
  waiting : List MRow
  flight : List MFlight
  l1 : List L1Sec
  hist : List Hist
  due : List Nat
  scores : List Score
  dis : Bool
  tspare : Nat
  rowSpare : Table (BitVec 16)
deriving DecidableEq, Repr

/-! ## Memory agents -/

/-- Where a location's home is (Table 12-1). -/
inductive Home
  | hbm | cluster
deriving DecidableEq, Repr

/-- A page whose translation is pinned: its address space, its first byte, and its size when the pin was taken
(R189, R325). -/
structure Pinned where
  asid : Fin 16
  base : Nat
  log : Nat
deriving DecidableEq, Repr

/-- A store that has been issued and has not performed (R195, R197): the issuing context, the access that it belongs to,
the pages that the whole access pins, its physical or cluster address, its bytes, the hotness counter of
its kind (R330), and NT. -/
structure Pending where
  ctx : Nat
  acc : Nat
  pages : List Pinned
  home : Home
  addr : Nat
  bytes : List Byte
  hot : Option Nat
  nt : Bool
deriving DecidableEq, Repr

/-- Who writes memory, as readers of a packet or of cluster-shared memory tell writes apart (R29, R196): a context, the context
with that number of a gang that is saved (R315), a card, a gather or a replay, a seep kernel, the stash of a core, another
device, or the host. -/
inductive Writer
  | ctx (k : Nat)
  | saved (launch gang k : Nat)
  | card (id : Nat)
  | gather (id : Nat)
  | kernel (id : Nat)
  | stash (core : Nat)
  | peer
  | host
deriving DecidableEq, Repr

/-- What one writer has written in a sector and not published: a number that tells the changes of a sector apart, the bytes,
and the contents and poison bits that it gives them. -/
structure Change where
  n : Nat
  who : Writer
  mask : BitVec 128
  data : BitVec 1024
  poison : BitVec 2
deriving DecidableEq, Repr

/-- A change that an agent at a core has published at a scope because it had read it, while its writer had not (R198, R200). -/
structure Leak where
  core : Nat
  scope : Scope
  n : Nat
deriving DecidableEq, Repr

/-- A sector with changes that are not published: its address, the changes in the order in which they performed, what stood
there before them with its poison bits, which contexts have read which change, which have come to it by a boundary of their
own, and which changes readers have published (R29, R196 to R200). -/
structure Hidden where
  pa : Nat
  changes : List Change
  old : BitVec 1024
  poison : BitVec 2
  seen : List (Nat × Nat)
  had : List (Nat × Nat)
  leaks : List Leak
deriving DecidableEq, Repr

/-! ## Engines -/

/-- Spaces in which footprint regions are compared (R231, R232): virtual memory of an address space,
a core's stash, a cluster's SRAM, and the tile slots of a core. -/
inductive Space
  | virt (asid : Nat)
  | stash (core : Nat)
  | cluster (cl : Nat)
  | tile (core : Nat)
deriving DecidableEq, Repr

/-- A half-open region of a footprint. -/
structure Region where
  space : Space
  lo : Nat
  hi : Nat
deriving DecidableEq, Repr

/-- Whose access it is: the core and the private region of the issuing context (R174, R193), the unit that
translates, as `State.tlbs` numbers them, who writes, and the context whose earlier stores the access follows (R204, R207). -/
structure Agent where
  core : Nat
  who : Writer
  issuer : Option Nat
  tlb : Nat
  asid : Fin 16
  pbase : Word
  psize : Nat
deriving DecidableEq, Repr

/-- Where a card stands: not dispatched, dispatched with rows left, released with writes still to be made, all
rows moved, released with all rows moved (R233, R238). -/
inductive CardPhase
  | queued | running | draining | moved | released
deriving DecidableEq, Repr

/-- Where an element performs. -/
inductive Loc
  | hbm (asid : Fin 16) (va pa : Nat)
  | stash (off : Nat)
  | cluster (a : Nat)
deriving DecidableEq, Repr

/-- A part of what an engine is to write: its pointer, its bytes and the place found for it when its page was pinned (R325). -/
structure Part where
  ptr : Word
  n : Nat
  loc : Loc
deriving DecidableEq, Repr

/-- A card in flight (R229, R230): its registers, resolved scope and rounding mode, its agent and its issuer's
tenancy, its own stochastic state, the cards it waits for, its footprint, its arrival count, the first row not
wholly written, the tokens that KVCOMPACT has kept, the page it waits for, a record that found no room, whether
its CLASS 1 record suspends it, whether it met a data error, the copy engine that it runs on (R14), and the output that
it has made of the row it has read, with its destination (for a TILE card, what the slot takes), the places of that row's
output as its pins hold them, and the pages that it pins for the row (R325). -/
structure Card where
  id : Nat
  ctx : Nat
  kind : CardKind
  regs : Vector Word 8
  scope : Scope
  rm : RMode
  agent : Agent
  ten : Tenancy
  pc : Word
  st : BitVec 32
  after : List Nat
  reads : List Region
  writes : List Region
  n : Nat
  row : Nat
  kept : Nat
  phase : CardPhase
  wait : Option (Fin 16 × Nat)
  record : Option TrapRec
  suspended : Bool
  err : Bool
  engine : Option Nat
  loaded : Option (Word × List (Byte × Bool))
  dest : List Part
  pinned : List Pinned
deriving DecidableEq, Repr

/-- A gather on a base die (R243), or the replay of a bin set on a binning engine (R247), which has the descriptor and
its pointer in `bins`: the slot of its issuer, its barrier, agent, issuer and parameter block, the engine that it runs on, the next element or
region, whether only its arrival is left, a record that found no room, and whether a fault of a replay stands until its `binpl`
is replayed (R323). -/
structure Gather where
  id : Nat
  ctx : Nat
  slot : Nat
  bins : Option (Word × BitVec 512)
  regs : Vector Word 4
  vis : Word
  agent : Agent
  ten : Tenancy
  pc : Word
  engine : Option Nat
  next : Nat
  atEnd : Bool
  record : Option TrapRec
  faulted : Bool
deriving DecidableEq, Repr

/-- A seep unit of a running kernel (R277 to R280): its lines as indexes into the region, the line it is on, its
registers and those that hold poisoned data, both also as they stood before the current word, the word, what
remains of it, words run since the line changed, `sync` words reached, the compaction cursor as a count of columns,
OVF, and the word at which it fails with whether an uncorrectable error is why (R365). -/
structure SeepUnit where
  id : Nat
  lines : List Nat
  at_ : Nat
  w : Vector (BitVec 256) 16
  bad : List Nat
  snap : Vector (BitVec 256) 16
  snapBad : List Nat
  word : Nat
  ops : List Instr
  run : Nat
  syncs : Nat
  cursor : Nat
  ovf : Bool
  halted : Bool
  failing : Option (Nat × Bool)
deriving DecidableEq, Repr

/-- How far a seep kernel has come (R275, R281): in step 4; in step 5, publishing; waiting for its claim; its lines
claimed, waiting for program memory; running; its claim released, its arrival left; failed, its record left. -/
inductive KStage
  | pages | publish | queued | claimed | running | arriving | failed
deriving DecidableEq, Repr

/-- A seep kernel from step 4 on (R275, R281): its issuer and predicate, the program and where it lies, the auxiliary
and the claimed region in lines; `frames` holds the physical address of each sector of the region and `statAt` of each sector that
STAT touches, `pinned` the pages of the region, the program and STAT (R325), `fail` the word, the unit and the reason of a
failure. -/
structure Kernel where
  id : Nat
  ctx : Nat
  lg : Option (Fin 4)
  pd : Fin 8
  prog : List (BitVec 64)
  progAt : Nat
  xbase : Word
  rbase : Nat
  rlines : Nat
  frames : List Nat
  pinned : List Pinned
  statAt : List Nat
  stat : Word
  vis : Word
  agent : Agent
  ten : Tenancy
  pc : Word
  stage : KStage
  fail : Option (Nat × Nat × Bool)
  units : List SeepUnit
deriving DecidableEq, Repr

/-- Whom a train serves: an issuer's `scred`, by context and slot, or a card. -/
inductive Sender
  | issuer (k slot : Nat)
  | card (id : Nat)
deriving DecidableEq, Repr

/-- A train that its source keeps until the destination acknowledges it (R244), the launch and the gang that it serves, the
plane it went on (R355), and whether a fault of one of its elements stands until the instruction that sent it is replayed
(R323). -/
structure Sent where
  launch : Nat
  gang : Nat
  dest : Nat
  plane : Nat
  train : Train
  owner : Sender
  faulted : Bool
deriving DecidableEq, Repr

/-- A receiver's window of one pair (R245): the highest number applied and the marks of the 64 below. -/
structure Win where
  h : BitVec 32
  marks : BitVec 64
deriving DecidableEq, Repr

/-- A received train some of whose elements are parked (R245, R283). -/
structure Parked where
  train : Train
  rest : List Elem
deriving DecidableEq, Repr

/-! ## Who acts -/

/-- An issuer (R163): a context outside a loop body, or a strip in flight. -/
structure Issuer where
  core : Fin 320
  lc : Fin 4
  lg : Option (Fin 4)
deriving DecidableEq, Repr

/-- One turn of the schedule: an issuer issues, or issues ahead of its unretired vector instructions; its oldest one
retires; a pending trap of a context is delivered; a context that a trap ended makes its team-end boundary; a seep
unit executes a slot; an event arrives; a core's L1, a TLB or an L2 replaces its k-th entry; a card moves half a row (R233); a gather or a replay moves one element or region (R243, R247); a
write of TLBIA that waits is tried (R334); a running image command or attestation command ends
(R380, R382); a master reads the management window (R356); the host reads BAR0 or writes its MSI-X table (R349). -/
inductive Turn
  | issue (i : Issuer)
  | ahead (i : Issuer)
  | retire (i : Issuer)
  | deliver (ctx : Nat)
  | ctxEnd (ctx : Nat)
  | unit (id : Nat) (u : Nat)
  | event (e : Instr)
  | evict (core : Fin 320) (k : Nat)
  | evictTlb (unit_ : Nat) (k : Nat)
  | evictL2 (q : Fin 4) (k : Nat)
  | row (id : Nat)
  | gather (id : Nat)
  | tlbia
  | imageDone
  | reportDone
  | mgmtRead (m : Fin 4) (off : Nat)
  | bar0Read (off n : Nat)
  | msixWrite (off : Nat) (bytes : List Byte)
deriving DecidableEq, Repr

/-! ## Launches and quarters -/

/-- Where a gang stands: each takes exactly one fate (R303). -/
inductive GangFate
  | waiting | running | ended | removed | saved
deriving DecidableEq, Repr

/-- A gang of an accepted launch (R292, R295): the cores it has, the menu entry and s11 to s14 of a
grouped launch (R300), whether its quantum has expired and its place in the order of return (R314). -/
structure Gang where
  num : Nat
  fate : GangFate
  cores : List Nat
  entry : Nat
  grp : List Word
  expired : Bool
  order : Int
deriving DecidableEq, Repr

/-- An accepted launch record (R291, R294); the gangs of a grouped launch once it is ready (R295, R300); whether a
withdrawal took it whole (R302), whether a reset or a disabled core took a gang of it (R370, R372), and the SEQ of its
journal entry (R374). -/
structure Launch where
  id : Nat
  quarter : Nat
  record : BitVec 2048
  asid : Fin 16
  ready : Bool
  withdrawn : Bool
  lost : Bool
  journal : Option (BitVec 32)
  gangs : List Gang
deriving DecidableEq, Repr

/-- A migration in progress (R328): page, address space and frames; `done` is 0 until the first `tlbi` completes, then
1 more than the sectors copied up to 513, 514 once the entry is VALID again and 515 after the second `tlbi`. -/
structure Migration where
  va : Nat
  asid : Fin 16
  old : Nat
  new : Nat
  done : Nat
deriving DecidableEq, Repr

/-- A swap in progress (R307): the gangs, the last step of Table 21-1 that has finished, and whether the waits that were over
before the decision have been told from those that end later (R314). -/
structure Swap where
  outLaunch : Nat
  outGang : Nat
  inLaunch : Nat
  inGang : Nat
  step : Nat
  noted : Bool
deriving DecidableEq, Repr

/-- The columns, tags, cells and parity-free lane state that a context's save record holds (Table 21-3). -/
structure SavedLanes where
  rows : Table (BitVec 512)
  cells : Table (BitVec 32)
  poison : List Nat
deriving DecidableEq, Repr

/-- A save record of one gang (R310, R311): its contexts, and core state where the gang had the core alone. -/
structure Saved where
  launch : Nat
  gang : Nat
  units : Nat
  ctxs : List (Nat × Ctx)
  lanes : List (Nat × SavedLanes)
  cores : List (Nat × Core)
deriving DecidableEq, Repr

/-- A quarter's registers and engines (R313, R316, R318, R374, R378). `l2` lists the sectors that its L2 holds, by
physical address ÷ 128, the latest first; they are current with memory (R178), which holds their bytes. -/
structure Quarter where
  tqprod : BitVec 32
  tqcons : BitVec 32
  ring : Table (TrapRec × Bool)
  quantum : Word
  savebase : Word
  savelim : Word
  migva : Word
  migst : Nat
  migration : Option Migration
  swap : Option Swap
  saves : List Saved
  stopped : Bool
  temp : BitVec 16
  slow : Bool
  hold : Bool
  jbase : Word
  jsize : Word
  jprod : BitVec 32
  jcons : BitVec 32
  l2 : List Nat
deriving DecidableEq, Repr

/-! ## The device -/

/-- A residency pin (R332). -/
structure Pin where
  asid : Fin 16
  base : Nat
  log : Nat
  count : Nat
deriving DecidableEq, Repr

/-- A gang of a tagged launch that has started: the TAG and GEN of its record, the gangs of its launch, its number, how its
record divides the gangs of a DOMAIN team into QUARTER teams, and its quarter (Table 20-2). -/
structure Team where
  tag : Nat
  gen : BitVec 32
  gangs : Nat
  num : Nat
  parts : Option (List Nat)
  quarter : Nat
deriving DecidableEq, Repr

/-- Counts owed to the hotness array (R330): the entry's address and the kind, 0 to 2. -/
structure Owed where
  addr : Nat
  kind : Nat
  n : Nat
deriving DecidableEq, Repr

/-- Translation registers and rings (Table 22-1, R326, R332), and the writes of TLBIA that wait, by master and value (R334). -/
structure Xlat where
  asroot : Vector Word 16
  was : Vector Word 64
  hotbase : Word
  rqprod : BitVec 32
  rqcons : BitVec 32
  ring : Table (Nat × Fin 16 × BitVec 32)
  pins : List Pin
  owed : List Owed
  tlbia : List (Fin 4 × Word)
deriving DecidableEq, Repr

/-- The prefix table, its clock, the probe table and its staging copies (R344, R347, R348). -/
structure Serving where
  aclk : BitVec 32
  prefix_ : Table (BitVec 256)
  probes : Table (BitVec 256)
  staging : Table (BitVec 256)
deriving DecidableEq, Repr

/-- The host link (R299, R302, R349 to R351): launch windows, WSTAT, WDRES, the entries of the MSI-X table (address,
data and control, from bit 0 up), vectors pending, messages sent as (vector, address and data), the data of the latest
host read with its EP bit (R366), and whether the latest DMWr was aborted. -/
structure HostLink where
  windows : Memory
  wstat : Vector Word 64
  wdres : Word
  msix : Table (BitVec 128)
  pending : List Nat
  sent : List (Nat × BitVec 96)
  read : List Byte
  ep : Bool
  aborted : Bool
deriving DecidableEq, Repr

/-- What the latest access of a master received in its response: the status of a write, or the data of a read (R356). -/
inductive Reply
  | wrote (status : Nat)
  | read (v : Word)
deriving DecidableEq, Repr

/-- Ownership, the refusal log (R356 to R358, R384), and the latest response to each master. -/
structure Owner where
  lease : Nat
  epoch : BitVec 16
  cand : Nat
  own : Nat
  mstat : Vector Word 4
  mlog : Table (BitVec 128)
  mlogprod : BitVec 32
  mlogcons : BitVec 32
  replies : Vector (Option Reply) 4
deriving DecidableEq, Repr

/-- An inlet port (R352 to R355): next sequence numbers, what waits to be sent as (virtual channel, destination,
payload), flits sent and not acknowledged, resends without progress, credits held and credits to return per virtual
channel, credits of the reduction channel that are withheld for each stack (R283), the latest null flit sent, and flits received in
order. -/
structure Port where
  down : Bool
  queue : List (Nat × Nat × BitVec 1856)
  txseq : BitVec 12
  rxseq : BitVec 12
  unacked : List (BitVec 2048)
  resends : Nat
  credits : Vector Nat 4
  owed : Vector Nat 4
  withheld : Vector Nat 12
  null : Option (BitVec 2048)
  received : List (BitVec 2048)
deriving DecidableEq, Repr

/-- Device registers of the links and of repair (Table 24-4, R369, R373, R380, R382): firmware versions and digests by
TYPE, the addresses of the commands that run, the fused spare maps by core and by core × 128 + entry (R377). -/
structure Regs where
  devnum : Word
  domctl : Word
  porterr : Word
  aithresh : Word
  fatalsum : Word
  errprod : BitVec 32
  errlog : Table (BitVec 256)
  errcounts : Table Nat
  fwaddr : Word
  fwstat : Word
  fwver : Table (BitVec 64)
  fwdigest : Table (BitVec 512)
  attaddr : Word
  fwrun : Option Word
  attrun : Option Word
  fusedSpare : Table Word
  fusedRows : Table (BitVec 16)
  mgmtOnly : Bool
deriving DecidableEq, Repr

/-! ## The state -/

/-- The state. `tlbs` holds the TLBs of cores (0 to 319), copy engines (320 to 575), base-die translation units
(576 to 587) and of the scheduler (588). -/
structure State where
  turns : List Turn
  cur : Issuer
  unit : Option (Nat × Nat)
  order : List Issuer
  ticks : Nat
  ctxs : Table Ctx
  cores : Table Core
  mem : Memory
  memPoison : List Nat
  cls : Memory
  clsPoison : List Nat
  pend : List Pending
  torn : List Hidden
  stale : List Hidden
  tlbs : Table (List Tlb)
  quarters : Vector Quarter 4
  launches : List Launch
  teams : List Team
  nextId : Nat
  cards : List Card
  gathers : List Gather
  kernels : List Kernel
  sent : List Sent
  seqs : Table (BitVec 32)
  windows : Table Win
  parked : List Parked
  xlat : Xlat
  serving : Serving
  host : HostLink
  owner : Owner
  ports : Table Port
  regs : Regs
deriving DecidableEq, Repr

/-! ## Reset -/

def Thread.reset : Thread := { pc := 0, packet := none }
def TrapRegs.reset : TrapRegs := { cause := 0, pc := 0, val := 0, idx0 := 0, idx1 := 0, idx2 := 0 }
/-- An empty window (assumption log 4). -/
def Window.reset : Window := { cb := 32, cn := 0, ab := 0, an := 0, pbase := 0, psize := 0, handler := 0 }
def Tenancy.reset : Tenancy :=
  { launch := 0, gang := 0, index := 0, asid := 0, levels := [], doneScope := 4, gen := 0 }
def Dim.reset : Dim := { len := 0, stride := 0 }
def Tok.reset : Tok := { count := 0, fail := none }
def Gen.reset : Gen := { state := .idle, list := [], cursor := 0 }
def Tap.reset : Tap :=
  { isOpen := false, layer := 0, point := 0, d := 0, ways := [], acc := [], eval := 0, cross := 0 }

/-- A context at device reset (R105, R159, Table 10-1; assumption log 4). -/
def Ctx.reset : Ctx :=
  { status := .idle, starting := 0, stall := none, inWait := [], thread := .reset, s := .replicate 64 0
    p := .replicate 8 false, streg := 0, trap := .reset
    mvl := 128, srseed := 0, stoch := [], win := .reset, fmap := .replicate 32 0, dims := .replicate 3 .reset
    handles := .replicate 8 0, gens := .replicate 4 .reset, toks := .replicate 16 .reset
    streams := .replicate 4 none, tap := .reset, loop := none, strips := .replicate 4 none, hstrip := none
    record := none, scrub := none, waits := [], sends := [], ahead := [], ending := false, held := none, ten := .reset
    wake := false, lastCard := none }

/-- A tile slot at reset (Table 9-2). -/
def Slot.reset : Slot := { gen := 0, z := .replicate 8 false, stamp := .replicate 8 0, busy := false }

/-- A core at device reset. -/
def Core.reset : Core :=
  { k := 0, rows := [], parity := [], tagErr := [], cells := [], cellPoison := [], stash := [], stashPoison := []
    lines := [], tiles := [], tilePoison := [], slots := .replicate 32 .reset, waiting := [], flight := [], l1 := []
    hist := [], due := [], scores := [], dis := false, tspare := 0, rowSpare := [] }

/-- A quarter at reset (Tables 21-4, 21-5). -/
def Quarter.reset : Quarter :=
  { tqprod := 0, tqcons := 0, ring := [], quantum := 2000, savebase := 0, savelim := 0, migva := 0, migst := 0
    migration := none, swap := none, saves := [], stopped := false, temp := 0, slow := false, hold := false
    jbase := 0, jsize := 0, jprod := 0, jcons := 0, l2 := [] }

def Xlat.reset : Xlat :=
  { asroot := .replicate 16 0, was := .replicate 64 0, hotbase := 0, rqprod := 0, rqcons := 0, ring := []
    pins := [], owed := [], tlbia := [] }
def Serving.reset : Serving := { aclk := 0, prefix_ := [], probes := [], staging := [] }
/-- MSI-X vectors are masked at reset (assumption log 6). -/
def HostLink.reset : HostLink :=
  { windows := [], wstat := .replicate 64 0, wdres := 0, msix := [], pending := [], sent := [], read := []
    ep := false, aborted := false }
/-- Table 24-3. -/
def Owner.reset : Owner :=
  { lease := 0, epoch := 0, cand := 7, own := 7, mstat := .replicate 4 0, mlog := [], mlogprod := 0, mlogcons := 0
    replies := .replicate 4 none }
def Port.reset : Port :=
  { down := false, queue := [], txseq := 0, rxseq := 0, unacked := [], resends := 0, credits := .replicate 4 0
    owed := .replicate 4 0, withheld := .replicate 12 0, null := none, received := [] }
/-- Table 24-4: DEVNUM 0, DOMCTL all ones; the rest is assumption log 4. -/
def Regs.reset : Regs :=
  { devnum := 0, domctl := BitVec.allOnes 64, porterr := 0, aithresh := 0, fatalsum := 0, errprod := 0, errlog := []
    errcounts := [], fwaddr := 0, fwstat := 0, fwver := [], fwdigest := [], attaddr := 0, fwrun := none, attrun := none
    fusedSpare := [], fusedRows := []
    mgmtOnly := false }

/-- The machine right after reset. -/
def State.reset : State :=
  { turns := [], cur := { core := 0, lc := 0, lg := none }, unit := none, order := [], ticks := 0, ctxs := []
    cores := [], mem := [], memPoison := [], cls := [], clsPoison := [], pend := [], torn := [], stale := [], tlbs := []
    quarters := .replicate 4 .reset, launches := [], teams := [], nextId := 1, cards := [], gathers := [], kernels := []
    sent := [], seqs := [], windows := [], parked := [], xlat := .reset, serving := .reset, host := .reset, owner := .reset
    ports := [], regs := .reset }

end Sys2Proof.Machine
end

