-- ==== Sys2Proof/Machine/Regs.lean ====
section
/-! DEFINITION. Reading and writing the registers of the executing issuer: contexts, strips, cores,
quarters, the program counter and the scalar and predicate registers (R26, R33, R87, R90, R104). -/

namespace Sys2Proof.Machine

/-! ## Contexts, cores, quarters -/

/-- Context number of a loop context: core × 4 + LC. -/
def ctxNum (core lc : Nat) : Nat := core * 4 + lc

def State.ctxAt (s : State) (k : Nat) : Ctx := lookD s.ctxs k .reset
def State.setCtxAt (s : State) (k : Nat) (c : Ctx) : State := { s with ctxs := put s.ctxs k c }
def State.modCtxAt (s : State) (k : Nat) (f : Ctx → Ctx) : State := s.setCtxAt k (f (s.ctxAt k))

/-- The number of the executing context. -/
def State.key (s : State) : Nat := ctxNum s.cur.core s.cur.lc
def State.ctx (s : State) : Ctx := s.ctxAt s.key
def State.modCtx (s : State) (f : Ctx → Ctx) : State := s.modCtxAt s.key f

def State.coreAt (s : State) (n : Nat) : Core := lookD s.cores n .reset
def State.setCoreAt (s : State) (n : Nat) (c : Core) : State := { s with cores := put s.cores n c }
def State.modCoreAt (s : State) (n : Nat) (f : Core → Core) : State := s.setCoreAt n (f (s.coreAt n))
def State.core (s : State) : Core := s.coreAt s.cur.core
def State.modCore (s : State) (f : Core → Core) : State := s.modCoreAt s.cur.core f

/-- The quarter of a core (Table 1-1), and its cluster. -/
def quarterOf (core : Nat) : Fin 4 := Fin.ofNat 4 (core / 80)
def clusterOf (core : Nat) : Nat := core / 8
def State.quarter (s : State) (q : Fin 4) : Quarter := s.quarters.get q
def State.modQuarter (s : State) (q : Fin 4) (f : Quarter → Quarter) : State :=
  { s with quarters := s.quarters.set q (f (s.quarters.get q)) q.isLt }

/-- The core of a context number, and its loop context. -/
def coreOfCtx (k : Nat) : Nat := k / 4
def lcOfCtx (k : Nat) : Nat := k % 4

/-! ## Strips -/

/-- The strip that executes, when the issuer is one (R87: execution in a body). -/
def State.strip? (s : State) : Option Strip :=
  match s.cur.lg with
  | none => none
  | some g => s.ctx.strips.get g
def State.inBody (s : State) : Bool := s.strip?.isSome

def Ctx.setStrip (c : Ctx) (g : Fin 4) (t : Option Strip) : Ctx := { c with strips := c.strips.set g t g.isLt }

def State.modStrip (s : State) (f : Strip → Strip) : State :=
  match s.cur.lg with
  | none => s
  | some g => s.modCtx fun c => c.setStrip g ((c.strips.get g).map f)

/-- SLEN and SIDX; 0 outside a body (R90). -/
def State.slen (s : State) : Nat := (s.strip?.map Strip.slen).getD 0
def State.sidx (s : State) : Word := (s.strip?.map Strip.sidx).getD 0
/-- Strip length VL of a core: 1,024 × (4 − k) (R19). -/
def Core.vl (c : Core) : Nat := 1024 * (4 - c.k)
/-- The lane group of the executing strip; 0 outside a body. -/
def State.lg (s : State) : Nat := (s.cur.lg.map Fin.val).getD 0

/-! ## The program counter -/

def State.thread (s : State) : Thread :=
  match s.strip? with
  | some t => t.thread
  | none => s.ctx.thread
def State.setThread (s : State) (t : Thread) : State :=
  if s.inBody then s.modStrip fun x => { x with thread := t } else s.modCtx fun c => { c with thread := t }
def State.pc (s : State) : Word := s.thread.pc

/-- Address of the packet that holds a PC, and the slot number (R26). -/
def packetOf (pc : Word) : Word := pc &&& ~~~(0x7F : Word)
def slotOf (pc : Word) : Nat := pc.toNat % 16

/-- CNT of the packet in use; ten slots before a packet has been read (R26). -/
def Thread.cnt (t : Thread) : Nat :=
  match t.packet with
  | some p => bitsAt p 56 4
  | none => 10

/-- NextPC (R88). -/
def nextPc (pc : Word) (cnt : Nat) : Word :=
  if slotOf pc + 1 < cnt then pc + 1 else packetOf pc + 128
def State.nextPC (s : State) : Word := nextPc s.pc s.thread.cnt

/-- Sequential flow: the next slot of the packet, or slot 0 of the next packet (R26). -/
def State.advance (s : State) : State :=
  let t := s.thread
  s.setThread { pc := nextPc t.pc t.cnt, packet := if slotOf t.pc + 1 < t.cnt then t.packet else none }

/-- Transfer: the target slot is an entry slot (R27). -/
def State.goto (s : State) (pc : Word) : State := s.setThread { pc := pc, packet := none }

/-- The checks of a computed target (R28). -/
def targetCause (t : Word) : Option Cause :=
  if bitsAt t 60 4 != 0 then some .window
  else if bitsAt t 57 3 != 0 then some .noncanon
  else if bitsAt t 4 3 != 0 || decide (9 < bitsAt t 0 4) then some .align
  else none

/-! ## Scalar and predicate registers -/

/-- Reads s_n: s0 is 0, and a strip has its own s32 to s63 (R33, R87). -/
def State.readS (s : State) (n : Fin 64) : Word :=
  if n = 0 then 0
  else
    match s.strip? with
    | some t => if 32 ≤ n.val then t.s.get (Fin.ofNat 32 (n - 32)) else s.ctx.s.get n
    | none => s.ctx.s.get n

/-- Writes s_n: writes to s0 are discarded (R33). -/
def State.writeS (s : State) (n : Fin 64) (v : Word) : State :=
  if n = 0 then s
  else if s.inBody && decide (32 ≤ n.val) then
    s.modStrip fun t => { t with s := t.s.set (n % 32) v (Nat.mod_lt _ (by decide)) }
  else s.modCtx fun c => { c with s := c.s.set n v n.isLt }

/-- Reads p_n: p0 is 1 (R31). -/
def State.readP (s : State) (n : Fin 8) : Bool :=
  if n = 0 then true
  else
    match s.strip? with
    | some t => if 4 ≤ n.val then t.p.get (Fin.ofNat 4 (n - 4)) else s.ctx.p.get n
    | none => s.ctx.p.get n

/-- Writes p_n: writes to p0 are discarded (R33). -/
def State.writeP (s : State) (n : Fin 8) (v : Bool) : State :=
  if n = 0 then s
  else if s.inBody && decide (4 ≤ n.val) then
    s.modStrip fun t => { t with p := t.p.set (n % 4) v (Nat.mod_lt _ (by decide)) }
  else s.modCtx fun c => { c with p := c.p.set n v n.isLt }

/-! ## Acting for an issuer -/

/-- An effect on the registers of a given issuer. -/
def State.asIssuer (s : State) (i : Issuer) (f : State → State) : State := { f { s with cur := i } with cur := s.cur }

/-- Whether a context's gang is being swapped out, or its quarter has stopped (R308, R318). -/
def State.frozen (s : State) (k : Nat) : Bool :=
  let q := s.quarter (quarterOf (coreOfCtx k))
  let t := (s.ctxAt k).ten
  q.stopped || q.swap.any fun w => w.outLaunch == t.launch && w.outGang == t.gang

/-- Whether an issuer's trap is held pending, by its strip or by its context outside a body. -/
def Ctx.holds (c : Ctx) (slot : Nat) : Bool :=
  if slot = 0 then c.held.isSome else ((c.strips.get (Fin.ofNat 4 (slot - 1))).bind Strip.held).isSome

/-- Whether a train is one that an issuer of a tenancy sent. -/
def Sent.isOf (x : Sent) (k : Nat) (t : Tenancy) : Bool :=
  (match x.owner with
   | .issuer j _ => j == k
   | .card _ => false) && x.launch == t.launch && x.gang == t.gang

/-- The trains of `scred` that an issuer of the resident context waits for. -/
def State.sentBy (s : State) (k slot : Nat) : List Sent :=
  s.sent.filter fun x => x.owner == .issuer k slot && x.isOf k (s.ctxAt k).ten

/-- Whether a gather is a replay of a bin set that an issuer of the resident context waits for (R247). -/
def State.replaysFor (s : State) (k : Nat) (g : Gather) : Bool :=
  g.bins.isSome && g.ctx == k && g.ten.launch == (s.ctxAt k).ten.launch && g.ten.gang == (s.ctxAt k).ten.gang

/-- Whether a trap of a context is held pending (R168, R309): that of the strip that runs the handler, else any. -/
def Ctx.pending (c : Ctx) : Bool :=
  c.held.isSome ||
  match c.hstrip with
  | some g => ((c.strips.get g).bind Strip.held).isSome
  | none => c.strips.any fun x => (x.bind Strip.held).isSome

/-- Stages of a `seep` that has not completed (Table 10-2, R275), and those in which its lines are claimed (R281). -/
def KStage.waits : KStage → Bool
  | .pages => true | .publish => true | .queued => true | .claimed => true
  | _ => false
def KStage.holds : KStage → Bool
  | .claimed => true | .running => true
  | _ => false

/-! ## Address spaces and scopes -/

def State.asid (s : State) : Fin 16 := s.ctx.ten.asid

/-- A scope with a level resolved against the launch (R34, R194); nothing for an undeclared level. -/
def resolveScope (levels : List (Nat × Nat)) : Scope → Option Scope
  | .lv n => (levels[n.val]?).bind fun l => Scope.ofCode l.2
  | x => some x

/-- Whether a scope reaches CLUSTER or wider (R183). -/
def scopeWide : Scope → Bool
  | .none => false | .core => false | .lv _ => false
  | _ => true

end Sys2Proof.Machine
end

