-- ==== Sys2Proof/Machine/Operands.lean ====
section
/-! DEFINITION. Scalar and predicate operands: sources and destinations by class (R33, R88), registers that strips
share (R87), the register run of an FE form (R37) and the base address of an FM form (R214). Vector operands need
the field map and stand in Lanes. -/

namespace Sys2Proof.Machine

/-- The value of a scalar source: a register, or a sign-extended immediate (R88). -/
def State.val (s : State) (o : Operand) : Word :=
  match o with
  | .s n => s.readS n
  | .imm i => i.signExtend 64
  | _ => 0

/-- Writes a scalar destination. -/
def State.putS (s : State) (o : Operand) (v : Word) : State :=
  match o with
  | .s n => s.writeS n v
  | _ => s
/-- Reads and writes a predicate operand. -/
def State.getP (s : State) (o : Operand) : Bool :=
  match o with
  | .p n => s.readP n
  | _ => false
def State.putP (s : State) (o : Operand) (v : Bool) : State :=
  match o with
  | .p n => s.writeP n v
  | _ => s

/-- The scalar registers from s_n on, as an FE form reads them (R37). -/
def State.readRun (s : State) (n : Nat) : Nat → List Word
  | 0 => []
  | k + 1 => s.readS (Fin.ofNat 64 n) :: s.readRun (n + 1) k

/-- Whether an operand names a register that strips share (R87). -/
def isShared : Operand → Bool
  | .s n => decide (1 ≤ n.val ∧ n.val ≤ 31)
  | .p n => decide (1 ≤ n.val ∧ n.val ≤ 3)
  | _ => false

/-- base := A + SignExtend(DISP, 12) (R214). -/
def State.fmBase (s : State) (f : FM) : Word := s.val f.opa + f.disp.signExtend 64

end Sys2Proof.Machine
end

