-- ==== Sys2Proof/Machine/Mem.lean ====
section
/-! DEFINITION. Memory as agents meet it: page-table walks and TLBs (R319 to R326), the L1 of a core
(R178), stash lines (R179 to R185, R385), pending stores (R195 to R197), pointer checks (R174, R175),
hotness counts (R330) and phase boundaries (R198). Assumption log 11 says how the consistency model is
run operationally. -/

namespace Sys2Proof.Machine

/-- Why an instruction does not complete: a trap, taken in the given state, or a wait of Table 10-2,
which leaves the given state and executes the instruction again. -/
inductive Stop
  | trap (t : Trap) (s : State)
  | wait (s : State)
deriving DecidableEq, Repr

/-- The result of an action. -/
abbrev Act (α : Type) := Except Stop α

/-- A trap that names a value. -/
def raise {α : Type} (s : State) (cause : Cause) (val : Word) (i0 : Word := 0) (i1 : Word := 0) (i2 : Word := 0) :
    Act α :=
  .error (.trap { cause := cause, val := val, idx0 := i0, idx1 := i1, idx2 := i2 } s)
/-- UNCORRECTED, with the memory code and address that the error log takes (R367, R369). -/
def raiseBad {α : Type} (s : State) (val i0 : Word) (mem addr : Nat) : Act α :=
  .error (.trap { cause := .uncorrected, val := val, idx0 := i0, mem := mem, addr := addr } s)

def hold {α : Type} (s : State) : Act α := .error (.wait s)

def w64 (n : Nat) : Word := BitVec.ofNat 64 n

/-! ## Pointers (R100, R174, R175) -/

/-- What a pointer reaches. -/
inductive Place
  | virt (va : Nat)
  | stash (off : Nat)
  | cluster (cl off : Nat)
deriving DecidableEq, Repr

/-- Window bits of a pointer. -/
def windowOf (p : Word) : Nat := bitsAt p 60 4
def ptrCore (p : Word) : Nat := bitsAt p 48 9
def ptrCluster (p : Word) : Nat := bitsAt p 48 6

/-- Orders 1 to 3 of Table 11-2, which are also the causes of Table 6-5. -/
def malformed (p : Word) : Option Cause :=
  match windowOf p with
  | 0 => if bitsAt p 57 3 != 0 then some .noncanon else none
  | 8 => if bitsAt p 32 28 != 0 then some .noncanon else none
  | 9 => if bitsAt p 57 3 != 0 || bitsAt p 20 28 != 0 then some .noncanon
         else if 319 < ptrCore p then some .window else none
  | 10 => if bitsAt p 54 6 != 0 || bitsAt p 23 25 != 0 then some .noncanon
          else if 39 < ptrCluster p then some .window else none
  | _ => some .window

/-- Bytes of stash that a core holds (R19). -/
def Core.stashBytes (c : Core) : Nat := 4 * c.k * 65536

/-- Orders 1 to 6 of Table 11-2 for one element of z bytes aligned on `al`, as a context on `core` with
its private region sees it. -/
def checkPtr (core : Nat) (stashBytes : Nat) (pbase : Word) (psize : Nat) (p : Word) (z al : Nat) :
    Except Cause Place :=
  match malformed p with
  | some c => .error c
  | none =>
    match windowOf p with
    | 0 => if p.toNat % al != 0 then .error .align else .ok (.virt p.toNat)
    | 8 =>
      let off := bitsAt p 0 32
      if psize < off + z then .error .range
      else if off % al != 0 then .error .align
      else .ok (.virt ((pbase.toNat + off) % 2 ^ 57))
    | 9 =>
      let off := bitsAt p 0 20
      if ptrCore p != core then .error .foreignStash
      else if stashBytes < off + z then .error .range
      else if off % al != 0 then .error .align
      else .ok (.stash off)
    | _ =>
      let off := bitsAt p 0 23
      if off % al != 0 then .error .align else .ok (.cluster (ptrCluster p) off)

/-- The same for the executing context. -/
def State.checkPtr (s : State) (p : Word) (z al : Nat) : Except Cause Place :=
  Machine.checkPtr s.cur.core s.core.stashBytes s.ctx.win.pbase s.ctx.win.psize.toNat p z al

/-- The same as an action whose trap names the pointer (R175). -/
def State.place (s : State) (p : Word) (z al : Nat) (i0 : Word := 0) : Act Place :=
  match s.checkPtr p z al with
  | .ok x => .ok x
  | .error c => raise s c p i0

/-! ## Page tables (R319 to R322) -/

/-- What a walk finds; the physical address is that of the page's first byte. -/
inductive Walk
  | invalid
  | absent (log : Nat)
  | valid (log pa : Nat) (w x : Bool)
  | transit (old new p : Nat) (w x : Bool)
  | poisoned (addr : Nat)
deriving DecidableEq, Repr

/-- Bytes of HBM4: twelve stacks of 64 GiB (R20, R23). -/
def hbmBytes : Nat := 12 * 2 ^ 36

/-- Whether a frame breaks R20, or lies in a save region, in the hotness array (R322) or in a journal (R374). -/
def State.frameBad (s : State) (pa len : Nat) : Bool :=
  decide (hbmBytes ≤ pa) ||
  (List.finRange 4).any (fun q =>
    let b := bitsAt (s.quarter q).jbase 0 24 * 65536
    let n := bitsAt (s.quarter q).jsize 0 17 * 512
    decide (n ≠ 0 ∧ pa < b + n ∧ b < pa + len)) ||
  (List.finRange 4).any (fun q =>
    let b := bitsAt (s.quarter q).savebase 16 24 * 65536
    let n := bitsAt (s.quarter q).savelim 0 32 * 65536
    decide (b ≠ 0 ∧ n ≠ 0 ∧ pa < b + n ∧ b < pa + len)) ||
  (bitAt s.xlat.hotbase 0 &&
    (let b := bitsAt s.xlat.hotbase 16 24 * 65536
     decide (pa < b + 12582912 * 16 ∧ b < pa + len)))

def State.poisoned (s : State) (pa len : Nat) : Bool :=
  s.memPoison.any fun g => decide (g < (pa + len + 63) / 64 ∧ pa / 64 ≤ g)

/-- Index bits of a level, and the bits below them (Table 22-2). -/
def walkShift : Nat → Nat
  | 0 => 44 | 1 => 30 | 2 => 21 | _ => 16
def walkBits : Nat → Nat
  | 0 => 13 | 1 => 14 | 2 => 9 | _ => 5

/-- One entry's meaning at a level (R321, R322); one that names a frame or a table on stacks 12 to 15 is INVALID (R20). -/
def State.readPte (s : State) (level : Nat) (e : Word) : Walk ⊕ Nat :=
  let st := bitsAt e 62 2
  let leaf := bitAt e 61 || level == 3
  let frame := bitsAt e 0 24 * 65536
  let log := walkShift level
  if bitAt e 58 then .inl .invalid
  else if st = 0 then .inl .invalid
  else if level = 0 && !(st == 1 && !bitAt e 61) then .inl .invalid
  else if !leaf then
    if st = 1 && bitsAt e 32 29 == 0 && decide (bitsAt e 0 32 * 256 < hbmBytes) then .inr (bitsAt e 0 32 * 256) else .inl .invalid
  else if st = 2 then
    if bitsAt e 24 34 == 0 then .inl (.absent log) else .inl .invalid
  else if frame % 2 ^ log != 0 || s.frameBad frame (2 ^ log) then .inl .invalid
  else if st = 1 then
    if bitsAt e 24 34 == 0 then .inl (.valid log frame (bitAt e 60) (bitAt e 59)) else .inl .invalid
  else
    let new := bitsAt e 24 24 * 65536
    if level != 3 || 512 < bitsAt e 48 10 || s.frameBad new 65536 then .inl .invalid
    else .inl (.transit frame new (bitsAt e 48 10) (bitAt e 60) (bitAt e 59))

/-- Walks from a level down; `fuel` is the number of levels left. A table beyond the stacks is never accessed (R20). For an entry
that names one R20 gives INVALID; for an ASROOT.BASE that does it names no outcome, and that the walk finds INVALID is the model's
choice (assumption log 34). -/
def State.walkFrom (s : State) (va : Nat) : (fuel level table : Nat) → Walk
  | 0, _, _ => .invalid
  | fuel + 1, level, table =>
    let a := table + va / 2 ^ walkShift level % 2 ^ walkBits level * 8
    if hbmBytes ≤ a then .invalid
    else if s.poisoned a 8 then .poisoned a
    else
      match s.readPte level (w64 (rdVal s.mem a 8)) with
      | .inl w => w
      | .inr next => s.walkFrom va fuel (level + 1) next

/-- The walk of a virtual address in an address space (R319, R322). -/
def State.walk (s : State) (asid : Fin 16) (va : Nat) : Walk :=
  let r := s.xlat.asroot.get asid
  if bitAt r 0 then s.walkFrom va 4 0 (bitsAt r 16 24 * 65536) else .invalid

/-- The address at which an entry that a walk reads last lies, with its level (R328, R330). -/
def State.leafAddr (s : State) (asid : Fin 16) (va : Nat) : Option (Nat × Nat) :=
  let r := s.xlat.asroot.get asid
  let rec go : (fuel level table : Nat) → Option (Nat × Nat)
    | 0, _, _ => none
    | fuel + 1, level, table =>
      let a := table + va / 2 ^ walkShift level % 2 ^ walkBits level * 8
      if hbmBytes ≤ a then none
      else
        match s.readPte level (w64 (rdVal s.mem a 8)) with
        | .inl _ => some (a, level)
        | .inr next => go fuel (level + 1) next
  if bitAt r 0 then go 4 0 (bitsAt r 16 24 * 65536) else none

/-- The VALID non-leaf entries that a walk from a level down meets, as TLB entries. -/
def State.nodesFrom (s : State) (asid : Fin 16) (va : Nat) : (fuel level table : Nat) → List Tlb
  | 0, _, _ => []
  | fuel + 1, level, table =>
    let a := table + va / 2 ^ walkShift level % 2 ^ walkBits level * 8
    if hbmBytes ≤ a || s.poisoned a 8 then []
    else
      match s.readPte level (w64 (rdVal s.mem a 8)) with
      | .inl _ => []
      | .inr next =>
        { asid := asid, va := va / 2 ^ walkShift level, log := walkShift level, pa := next, leaf := none } ::
          s.nodesFrom asid va fuel (level + 1) next

def Tlb.maps (t : Tlb) (asid : Fin 16) (va : Nat) : Bool := t.asid == asid && t.va == va / 2 ^ t.log

/-- The level below a non-leaf entry, from the bytes that it covers (Table 22-2). -/
def Tlb.below (t : Tlb) : Nat := if t.log = 44 then 1 else if t.log = 30 then 2 else 3

/-- Where a walk begins: below the lowest non-leaf entry that a TLB holds for the address, else at level 0. -/
def walkStart (tlb : List Tlb) (asid : Fin 16) (va root : Nat) : Nat × Nat :=
  tlb.foldl (fun (b : Nat × Nat) t =>
    if t.leaf.isNone && t.maps asid va && decide (b.1 < t.below) then (t.below, t.pa) else b) (0, root)

/-- A translation by the unit that holds a TLB: a leaf that it holds, else a walk from the lowest entry that it holds;
the VALID entries met are kept (R319, R324, assumption log 12). -/
def State.tlbWalk (s : State) (unit : Nat) (asid : Fin 16) (va : Nat) : Walk × State :=
  let root := s.xlat.asroot.get asid
  let tlb := lookD s.tlbs unit []
  if !bitAt root 0 then (.invalid, s)
  else
    match tlb.find? (fun t => t.leaf.isSome && t.maps asid va) with
    | some t => (.valid t.log t.pa (t.leaf.getD (false, false)).1 (t.leaf.getD (false, false)).2, s)
    | none =>
      let at_ := walkStart tlb asid va (bitsAt root 16 24 * 65536)
      let w := s.walkFrom va (4 - at_.1) at_.1 at_.2
      let leaf : List Tlb := match w with
        | .valid log pa w x => [{ asid := asid, va := va / 2 ^ log, log := log, pa := pa, leaf := some (w, x) }]
        | _ => []
      match leaf ++ s.nodesFrom asid va (4 - at_.1) at_.1 at_.2 with
      | [] => (w, s)
      | new => (w, { s with tlbs := put s.tlbs unit (new ++ tlb) })

/-- Physical address of a byte under a walk: by sector on a TRANSIT page (R188). -/
def Walk.physical (w : Walk) (va : Nat) : Option Nat :=
  match w with
  | .valid log pa _ _ => some (pa + va % 2 ^ log)
  | .transit old new p _ _ =>
    let o := va % 65536
    some ((if o < 128 * p then new else old) + o)
  | _ => none
def Walk.writable : Walk → Bool
  | .valid _ _ w _ => w
  | .transit _ _ _ w _ => w
  | _ => false
def Walk.executable : Walk → Bool
  | .valid _ _ _ x => x
  | .transit _ _ _ _ x => x
  | _ => false

/-- Size of the page at which a walk ends, as a power of two (R331). -/
def Walk.log : Walk → Nat
  | .valid log _ _ _ => log
  | .absent log => log
  | _ => 16

/-- The page that an access at a virtual address pins (R189, R325): the one of the leaf by which the unit translates, where its
TLB holds one, else that of a walk. -/
def State.pinOf (s : State) (unit : Nat) (asid : Fin 16) (va : Nat) : Pinned :=
  let log := match (lookD s.tlbs unit []).find? (fun t => t.leaf.isSome && t.maps asid va) with
    | some t => t.log
    | none => (s.walk asid va).log
  { asid := asid, base := va / 2 ^ log * 2 ^ log, log := log }

/-- The page that a residency request names: the one its ABSENT leaf describes, as its base in 64 KiB
(R326). -/
def State.requestPage (s : State) (asid : Fin 16) (va : Nat) : Nat :=
  match s.walk asid va with
  | .absent log => va / 2 ^ log * 2 ^ log / 65536
  | _ => va / 65536

/-- Posts a residency request for the page of a virtual address (R326): not when it is already there
unconsumed, nor when the ring is full. `core` is the requesting core, all ones for an engine. -/
def State.postResidency (s : State) (asid : Fin 16) (va : Nat) (core : BitVec 32) : State :=
  let page := s.requestPage asid va
  let x := s.xlat
  let waitingFor := x.ring.any fun e =>
    decide ((BitVec.ofNat 32 e.1 - x.rqcons).toNat % 256 < (x.rqprod - x.rqcons).toNat) &&
    e.2.1 == page && e.2.2.1 == asid
  if waitingFor || decide (256 ≤ (x.rqprod - x.rqcons).toNat) then s
  else { s with xlat := { x with ring := put x.ring (x.rqprod.toNat % 256) (page, asid, core), rqprod := x.rqprod + 1 } }

/-! ## Claims of seep kernels (R281) -/

/-- Whether a physical range lies in a line that a kernel claims. -/
def State.claimed (s : State) (pa len : Nat) : Bool :=
  s.kernels.any fun k => k.stage.holds && k.frames.any fun f => decide (pa < f + 128 ∧ f < pa + len)

/-! ## Bytes at their homes, with poison marks (R366) -/

/-- Marks every granule of 2^g bytes that [a, a + n) touches. -/
def granules (g a n : Nat) : List Nat :=
  if n = 0 then [] else (List.range ((a + n - 1) / 2 ^ g - a / 2 ^ g + 1)).map fun i => a / 2 ^ g + i

/-- The marks after a write of n bytes at a: a granule covered whole is cleared unless the data is
poisoned, a granule that receives a poisoned byte is marked (R366). -/
def remark (g : Nat) (marks : List Nat) (a n : Nat) (bad : Bool) : List Nat :=
  (granules g a n).foldl (fun m x =>
    if bad then setAdd m x
    else if decide (a ≤ x * 2 ^ g ∧ (x + 1) * 2 ^ g ≤ a + n) then setDel m x else m) marks

def marked (g : Nat) (marks : List Nat) (a n : Nat) : Bool := (granules g a n).any marks.contains

/-- A write performs at its HBM4 home; nothing beyond the stacks is accessed (R20). What is written to a structure that a register
places there, such as a journal's ring (JBASE), is dropped, as the model's choice (assumption log 32). -/
def State.writeHbm (s : State) (pa : Nat) (bytes : List Byte) (bad : Bool := false) : State :=
  let bytes := bytes.take (hbmBytes - pa)
  { s with mem := wrBytes s.mem pa bytes, memPoison := remark 6 s.memPoison pa bytes.length bad }

/-- Sectors that the L2 of a quarter holds at most: 96 MiB (R15, R23). -/
def l2Sectors : Nat := 786432
/-- The quarter whose L2 is the home of a physical address (R178). -/
def homeQuarter (pa : Nat) : Fin 4 := Fin.ofNat 4 (pa / 2 ^ 36 / 3)

/-- The home L2 takes the sector of a physical address, as its latest. -/
def State.touchL2 (s : State) (pa : Nat) : State :=
  s.modQuarter (homeQuarter pa) fun q => { q with l2 := (pa / 128 :: setDel q.l2 (pa / 128)).take l2Sectors }
def State.dropL2 (s : State) (pa : Nat) : State :=
  s.modQuarter (homeQuarter pa) fun q => { q with l2 := setDel q.l2 (pa / 128) }

def clsAddr (cl off : Nat) : Nat := cl * 2 ^ 23 + off
def State.writeCls (s : State) (a : Nat) (bytes : List Byte) (bad : Bool := false) : State :=
  { s with cls := wrBytes s.cls a bytes, clsPoison := remark 3 s.clsPoison a bytes.length bad }

/-- Replaces n bytes at bit offset 8·off of a sector. -/
def patch (d : BitVec 1024) (off : Nat) (bytes : List Byte) : BitVec 1024 :=
  let v := BitVec.ofNat 1024 (leVal bytes) <<< (8 * off)
  let m := BitVec.ofNat 1024 (2 ^ (8 * bytes.length) - 1) <<< (8 * off)
  (d &&& ~~~m) ||| v

/-- Poison bits of the two granules of a sector that n bytes at b touch. -/
def poisonBits (b n : Nat) : BitVec 2 :=
  (if decide (b < 64 ∧ n ≠ 0) then 1 else 0) ||| (if decide (64 < b + n) then 2 else 0)

/-- The poison bits of a sector after n bytes at b are written (R366). -/
def patchPoison (old : BitVec 2) (b n : Nat) (bad : Bool) : BitVec 2 :=
  if bad then old ||| poisonBits b n
  else (if decide (b = 0 ∧ 64 ≤ n) then old &&& 2 else old) &&& (if decide (b ≤ 64 ∧ 128 ≤ b + n) then 1 else 3)

/-- A store of a core performs: memory, and the sectors that the core's L1 holds of it (R178). -/
def State.writeThrough (s : State) (core : Nat) (pa : Nat) (bytes : List Byte) (bad : Bool := false) : State :=
  (s.writeHbm pa bytes bad).modCoreAt core fun c =>
    { c with l1 := c.l1.map fun e =>
        if e.pa = pa / 128 * 128 then
          { e with data := patch e.data (pa % 128) bytes
                   poison := patchPoison e.poison (pa % 128) bytes.length bad } else e }

/-- Drops a sector by physical address from the L1 of a core. -/
def Core.dropL1 (c : Core) (pa : Nat) : Core := { c with l1 := c.l1.filter fun e => e.pa != pa / 128 * 128 }

/-! ## Pending stores (R195, R197) -/

def overlaps (a n b m : Nat) : Bool := decide (a < b + m ∧ b < a + n)

def Pending.overlap (p : Pending) (h : Home) (a n : Nat) : Bool :=
  p.home == h && overlaps p.addr p.bytes.length a n

/-! ## Changes that are not published (R29, R196 to R200) -/

/-- The bits of n bytes at byte b of a sector. -/
def dirtyBits (b n : Nat) : BitVec 128 := BitVec.ofNat 128 ((2 ^ n - 1) * 2 ^ b)

/-- The bits of the bytes of a mask. -/
def byteBits (m : BitVec 128) : BitVec 1024 :=
  (List.range 128).foldl (fun (n : BitVec 1024) i => if m.getLsbD i then n ||| (0xFF <<< (8 * i)) else n) 0

/-- The halves of a sector that satisfy a predicate on their bytes. -/
def halves (m : BitVec 128) (p : BitVec 64 → Bool) : BitVec 2 :=
  (if p (m.extractLsb' 0 64) then 1 else 0) ||| (if p (m.extractLsb' 64 64) then 2 else 0)
/-- The halves that a mask touches, and those that it covers whole. -/
def touched (m : BitVec 128) : BitVec 2 := halves m fun h => h != 0
def covered (m : BitVec 128) : BitVec 2 := halves m fun h => h == BitVec.allOnes 64

/-- A sector with its poison bits. -/
abbrev Sector := BitVec 1024 × BitVec 2

/-- The bytes of a mask as other contents have them, with the poison bits of the halves that they lie in. -/
def blend (m : BitVec 128) (old new : Sector) : Sector :=
  let v := byteBits m
  let h := touched m
  ((old.1 &&& ~~~v) ||| (new.1 &&& v), (old.2 &&& ~~~h) ||| (new.2 &&& h))

/-- Contents after a change: a half that it covers whole loses its mark, one that it writes poisoned data to gets one (R366). -/
def Change.onto (c : Change) (x : Sector) : Sector :=
  let v := byteBits c.mask
  ((x.1 &&& ~~~v) ||| (c.data &&& v), (x.2 &&& ~~~covered c.mask) ||| c.poison)

/-- Bytes of a list of changes. -/
def changed (cs : List Change) : BitVec 128 := cs.foldl (fun m c => m ||| c.mask) 0

/-- The changes that remain, and those that are taken: the ones chosen, and with each what came before it at the same bytes and
by the same writer. So the contents are always those that stood there at some time, whole. -/
def splitChanges (p : Change → Bool) : List Change → List Change × List Change
  | [] => ([], [])
  | c :: cs =>
    let r := splitChanges p cs
    if p c || r.2.any fun d => d.who == c.who || d.mask &&& c.mask != 0 then (r.1, c :: r.2) else (c :: r.1, r.2)

/-- The contents with the chosen changes: bytes of no other change are as they stand now. -/
def Hidden.view (t : Hidden) (now : Sector) (p : Change → Bool) : Sector :=
  let r := splitChanges p t.changes
  blend (changed r.1) now (r.2.foldl (fun x c => c.onto x) (t.old, t.poison))

/-- The chosen changes are hidden no longer. -/
def Hidden.publish (t : Hidden) (p : Change → Bool) : Hidden :=
  let r := splitChanges p t.changes
  let x := r.2.foldl (fun x c => c.onto x) (t.old, t.poison)
  let left := fun n => r.1.any fun c => c.n == n
  { t with changes := r.1, old := x.1, poison := x.2, seen := t.seen.filter fun y => left y.2
           had := t.had.filter fun y => left y.2, leaks := t.leaks.filter fun y => left y.n }

/-- One change with another of the same writer after it. -/
def Change.join (c x : Change) : Change :=
  let v := byteBits x.mask
  { c with mask := c.mask ||| x.mask, data := (c.data &&& ~~~v) ||| (x.data &&& v)
           poison := (c.poison &&& ~~~covered x.mask) ||| x.poison }

/-- Adds a change to the latest one of its writer, where no other came between at the same bytes and it does not write bytes
again that another agent has taken from that one; nothing where it is a change of its own. -/
def joinChange (taken : Nat → Bool) (x : Change) : List Change → Option (List Change)
  | [] => none
  | c :: cs =>
    match joinChange taken x cs with
    | some l => some (c :: l)
    | none =>
      if c.who == x.who && !(cs.any fun d => d.who == x.who || d.mask &&& x.mask != 0) &&
         (c.mask &&& x.mask == 0 || !taken c.n) then some (c.join x :: cs)
      else none

/-- A writer changes bytes of a sector that stands as `now`. -/
def Hidden.note (t : Hidden) (now : Sector) (x : Change) : Hidden :=
  let open_ := ~~~changed t.changes
  let old := (blend (x.mask &&& open_) (t.old, 0) (now.1, 0)).1
  let h := touched (changed t.changes)
  let t := { t with old := old, poison := (t.poison &&& h) ||| (now.2 &&& ~~~h) }
  let taken := fun n => t.seen.any (fun y => y.2 == n) || t.had.any (fun y => y.2 == n) || t.leaks.any fun y => y.n == n
  match joinChange taken x t.changes with
  | some l => { t with changes := l }
  | none => { t with changes := t.changes ++ [{ x with n := t.changes.foldl (fun m c => max m c.n) 0 + 1 }] }

/-- The list of sectors with one more change, to a sector that stands as `now`. -/
def noteIn (l : List Hidden) (p : Nat) (now : Sector) (x : Change) : List Hidden :=
  if l.any fun t => t.pa == p then l.map fun t => if t.pa = p then t.note now x else t
  else l ++ [{ pa := p, changes := [{ x with n := 1 }], old := now.1, poison := now.2, seen := [], had := [], leaks := [] }]

/-- The list of sectors with the chosen changes published. -/
def publishIn (l : List Hidden) (p : Nat → Hidden → Change → Bool) : List Hidden :=
  (l.map fun t => t.publish (p t.pa t)).filter fun t => !t.changes.isEmpty

/-- Adds what is not there. -/
def addAll {α : Type} [DecidableEq α] (l m : List α) : List α := m.foldl (fun l x => if l.contains x then l else l ++ [x]) l

/-- The parts of n bytes that lie in one sector each: the sector's address, its first byte and their number. -/
def sectorParts (a n : Nat) : List (Nat × Nat × Nat) :=
  (List.range ((a % 128 + n + 127) / 128)).map fun i =>
    let p := a / 128 * 128 + 128 * i
    (p, max a p - p, min (a + n) (p + 128) - max a p)

/-- The bytes of one of these parts as a change. -/
def partChange (who : Writer) (a : Nat) (bytes : List Byte) (bad : Bool) (x : Nat × Nat × Nat) : Change :=
  let bs := (bytes.drop (x.1 + x.2.1 - a)).take x.2.2
  { n := 0, who := who, mask := dirtyBits x.2.1 x.2.2, data := BitVec.ofNat 1024 (leVal bs * 2 ^ (8 * x.2.1))
    poison := if bad then touched (dirtyBits x.2.1 x.2.2) else 0 }

/-! ## What packet fetches read (R29, R196 to R200) -/

/-- The sector as memory holds it, with its poison bits. -/
def State.sectorNow (s : State) (p : Nat) : Sector :=
  (BitVec.ofNat 1024 (rdVal s.mem p 128), (if s.poisoned p 64 then 1 else 0) ||| (if s.poisoned (p + 64) 64 then 2 else 0))

/-- What a context fetches of a sector with changes that are not published: those that it has come to. -/
def Hidden.fetched (t : Hidden) (now : Sector) (k : Nat) : Sector := t.view now fun c => t.had.contains (k, c.n)

/-- A writer is about to make a change in one sector, and has not published it. -/
def State.noteChange (s : State) (pa : Nat) (x : Change) : State :=
  let p := pa / 128 * 128
  { s with torn := noteIn s.torn p (s.sectorNow p) x }

/-- A writer is about to write bytes, which may lie in several sectors. -/
def State.noteTorn (s : State) (w : Writer) (pa : Nat) (bytes : List Byte) (bad : Bool := false) : State :=
  (sectorParts pa bytes.length).foldl (fun s x => s.noteChange x.1 (partChange w pa bytes bad x)) s

/-- Bytes of a sector that have just been written are published as they perform (R202, R209, R220), with what came before them
there. -/
def State.publishMask (s : State) (pa : Nat) (m : BitVec 128) : State :=
  let p := pa / 128 * 128
  { s with torn := publishIn s.torn fun q _ c => q == p && c.mask &&& m != 0 }

/-- As many bytes at an address, in all their sectors. -/
def State.publishBytes (s : State) (pa n : Nat) : State :=
  (sectorParts pa n).foldl (fun s x => s.publishMask x.1 (dirtyBits x.2.1 x.2.2)) s

/-- The change whose value a byte of a sector has, where it differs from what stood there before all of them. -/
def Hidden.source (t : Hidden) (i : Nat) (v : Byte) : Option Nat :=
  if bitsAt t.old (8 * i) 8 = v.toNat then none
  else (t.changes.reverse.find? fun c => c.mask.getLsbD i && bitsAt c.data (8 * i) 8 == v.toNat).map Change.n

/-- A context has read bytes in one sector: the changes that it has read belong to its history (R198). -/
def State.noteRead (s : State) (k : Nat) (pa : Nat) (bytes : List Byte) : State :=
  let p := pa / 128 * 128
  { s with torn := s.torn.map fun t =>
      if t.pa = p then
        { t with seen := addAll t.seen ((bytes.zipIdx.filterMap fun x => t.source (pa % 128 + x.2) x.1).map fun n => (k, n)) }
      else t }

/-- What the writers that are chosen have written is published: packets are fetched with it. -/
def State.publishOf (s : State) (f : Writer → Bool) : State :=
  { s with torn := publishIn s.torn fun _ _ c => f c.who }

/-- What a writer has written is published. -/
def State.dropTorn (s : State) (w : Writer) : State := s.publishOf fun x => x == w

/-- What a context has read of others' writes is published with its own, at the scope of its boundary (R198, R200). -/
def State.leakTorn (s : State) (k : Nat) (sc : Scope) : State :=
  { s with torn := s.torn.map fun t =>
      { t with leaks := addAll t.leaks ((t.seen.filter fun x => x.1 == k).map fun x =>
          { core := coreOfCtx k, scope := sc, n := x.2 }) } }

/-- Whether a scope taken from a core covers an agent at another core of this device (Table 12-3). -/
def scopeCovers (sc : Scope) (a b : Nat) : Bool :=
  match sc with
  | .none => false
  | .core | .lv _ => a == b
  | .cluster => clusterOf a == clusterOf b
  | .quarter => quarterOf a == quarterOf b
  | _ => true

/-- Which writers outside the device a scope covers (Table 12-3). -/
def scopeOutside (sc : Scope) (w : Writer) : Bool :=
  match w with
  | .peer => sc == .domain || sc == .system
  | .host => sc == .system
  | _ => false

/-- A context's refresh at a scope brings it to what readers have published to it, and to the writes of agents outside the
device that the scope covers (R29, R199). It has them from then on as if it had read them. -/
def State.comeUp (s : State) (k : Nat) (sc : Scope) : State :=
  let core := coreOfCtx k
  { s with torn := s.torn.map fun t =>
      let ns := (t.leaks.filter fun l => scopeCovers sc core l.core && scopeCovers l.scope l.core core).map Leak.n ++
        (t.changes.filter fun c => scopeOutside sc c.who).map Change.n
      { t with seen := addAll t.seen (ns.map fun n => (k, n)), had := addAll t.had (ns.map fun n => (k, n)) } }

/-! ## Cluster-shared bytes that are not published (R176, R196, R290) -/

/-- The core of a writer that is a context. -/
def Writer.core : Writer → Option Nat
  | .ctx k => some (coreOfCtx k)
  | .saved _ _ k => some (coreOfCtx k)
  | _ => none

/-- The changes that a context's reads do not go behind: what its core has written, and what it has read itself. -/
def Hidden.known (t : Hidden) (k : Nat) (c : Change) : Bool := c.who.core == some (coreOfCtx k) || t.seen.contains (k, c.n)

/-- A context is about to store bytes to cluster-shared memory. -/
def State.noteStale (s : State) (k a : Nat) (bytes : List Byte) : State :=
  (sectorParts a bytes.length).foldl (fun s x =>
    { s with stale := noteIn s.stale x.1 (BitVec.ofNat 1024 (rdVal s.cls x.1 128), 0) (partChange (.ctx k) a bytes false x) }) s

/-- The changes at n bytes are open no longer: an engine or an atomic writes there, and is read as it is from then on. -/
def State.settleCls (s : State) (a n : Nat) : State :=
  if s.stale.isEmpty then s
  else
    let ps := sectorParts a n
    { s with stale := publishIn s.stale fun q _ c => ps.any fun x => x.1 == q && c.mask &&& dirtyBits x.2.1 x.2.2 != 0 }

/-- A context has read n bytes as they are, and reads none of the changes there as they were again (R196, condition 3). -/
def State.seeCls (s : State) (k a n : Nat) : State :=
  if s.stale.isEmpty then s
  else
    let ps := sectorParts a n
    { s with stale := s.stale.map fun t =>
        let ns := (t.changes.filter fun c => ps.any fun x => x.1 == t.pa && c.mask &&& dirtyBits x.2.1 x.2.2 != 0).map Change.n
        { t with seen := addAll t.seen (ns.map fun n => (k, n)) } }

/-- Bytes of cluster-shared memory without the changes that a context may still read as they were: each change is there whole
or not at all (R216). -/
def State.clsBefore (s : State) (k a n : Nat) : List Byte :=
  (sectorParts a n).flatMap fun x =>
    match s.stale.find? fun t => t.pa == x.1 with
    | some t => leBytes x.2.2 (bitsAt (t.view (BitVec.ofNat 1024 (rdVal s.cls x.1 128), 0) (t.known k)).1 (8 * x.2.1) (8 * x.2.2))
    | none => rdBytes s.cls (x.1 + x.2.1) x.2.2

/-- A context's read of cluster-shared memory: where a core's stores are not published to it, a free value says whether it
reads what was there before them or what is there (R196, assumption log 11). -/
def State.clsRead (s : State) (k a n : Nat) : List Byte × State :=
  let now := rdBytes s.cls a n
  let old := if s.stale.isEmpty then now else s.clsBefore k a n
  if old = now then (now, s)
  else
    let t := { s with ticks := s.ticks + 1 }
    if Config.freePick s.ticks % 2 = 1 then (old, t) else (now, t.seeCls k a n)

/-- The history of a context at a boundary: at CORE the other contexts of its core take over what it has read, at a wider scope
nothing of it is read as it was again (R198, R199). -/
def State.publishCls (s : State) (k : Nat) (sc : Scope) : State :=
  if s.stale.isEmpty then s
  else if scopeWide sc then { s with stale := publishIn s.stale fun _ t c => c.who == .ctx k || t.seen.contains (k, c.n) }
  else
    { s with stale := s.stale.map fun t =>
        let mine := t.seen.filter fun x => x.1 == k
        { t with seen := addAll t.seen ((List.range 4).flatMap fun i => mine.map fun x => (ctxNum (coreOfCtx k) i, x.2)) } }

/-- The history of a context is published at a scope, with the write-backs of its core's stash at CLUSTER and wider (R198). -/
def State.publishHistory (s : State) (k : Nat) (sc : Scope) : State :=
  let s := (s.leakTorn k sc).dropTorn (.ctx k)
  (if scopeWide sc then s.dropTorn (.stash (coreOfCtx k)) else s).publishCls k sc

/-! ## Writers of a gang that is saved (R315) -/

/-- The changes of one writer become those of another. -/
def renameIn (l : List Hidden) (f : Writer → Writer) : List Hidden :=
  l.map fun t => { t with changes := t.changes.map fun c => { c with who := f c.who } }
def State.renameWriters (s : State) (f : Writer → Writer) : State :=
  { s with torn := renameIn s.torn f, stale := renameIn s.stale f }

/-- What the contexts of a gang have written and not published stays theirs while the gang is saved: a swap is no boundary. -/
def State.leaveWriters (s : State) (launch gang : Nat) (ks : List Nat) : State :=
  s.renameWriters fun w => match w with
    | .ctx k => if ks.contains k then .saved launch gang k else w
    | w => w
def State.returnWriters (s : State) (launch gang : Nat) : State :=
  s.renameWriters fun w => match w with
    | .saved l g k => if l = launch ∧ g = gang then .ctx k else w
    | w => w

/-- Adds to the counts owed (R330). -/
def oweTo : List Owed → Nat → Nat → Nat → List Owed
  | [], a, k, n => [{ addr := a, kind := k, n := n }]
  | o :: os, a, k, n => if o.addr = a ∧ o.kind = k then { o with n := o.n + n } :: os else o :: oweTo os a k n

/-- Address of the entry of a physical address's frame in the hotness array. -/
def State.hotEntry (s : State) (pa : Nat) : Nat := bitsAt s.xlat.hotbase 16 24 * 65536 + pa / 65536 * 16

/-- One element that performed in the frame of a physical address is owed to the counter of its kind. -/
def State.owe (s : State) (pa kind : Nat) : State :=
  if bitAt s.xlat.hotbase 0 then
    { s with xlat := { s.xlat with owed := oweTo s.xlat.owed (s.hotEntry pa) kind 1 } }
  else s

/-- A pending store performs at its home, and is counted there (R330). -/
def State.performStore (s : State) (p : Pending) : State :=
  match p.home with
  | .hbm =>
    let s := (s.noteTorn (.ctx p.ctx) p.addr p.bytes).writeThrough (coreOfCtx p.ctx) p.addr p.bytes
    let s := if p.nt then s else s.touchL2 p.addr
    match p.hot with
    | some kind => s.owe p.addr kind
    | none => s
  | .cluster => (s.noteStale p.ctx p.addr p.bytes).writeCls p.addr p.bytes

/-- Whether a store may perform now: its line is not claimed (R281). -/
def State.storeReady (s : State) (p : Pending) : Bool :=
  match p.home with
  | .hbm => !s.claimed p.addr p.bytes.length
  | .cluster => true

/-- Every pending store of a context performs, in order. -/
def State.drain (s : State) (k : Nat) : State :=
  let mine := s.pend.filter fun p => p.ctx == k
  mine.foldl State.performStore { s with pend := s.pend.filter fun p => p.ctx != k }

/-- Step 2 of Table 12-4 for a context; it waits while a store of it meets a claim. -/
def State.drainAct (s : State) (k : Nat) : Act State :=
  if s.pend.all fun p => p.ctx != k || s.storeReady p then .ok (s.drain k) else hold s

/-- The pending stores of a context that a read or write of n bytes at a home follows: those to the same bytes, and those
that they follow in turn (R197). -/
def followed (pend : List Pending) (k : Nat) (h : Home) (a n : Nat) : List Pending :=
  (pend.foldr (fun p (acc : List (Nat × Nat) × List Pending) =>
    if p.ctx == k && p.home == h && acc.1.any fun x => overlaps p.addr p.bytes.length x.1 x.2 then
      ((p.addr, p.bytes.length) :: acc.1, p :: acc.2) else acc) ([(a, n)], [])).2

/-- They perform, in order; it waits while one meets a claim. -/
def State.drainOver (s : State) (k : Nat) (h : Home) (a n : Nat) : Act State :=
  let ps := followed s.pend k h a n
  if ps.all s.storeReady then
    .ok (ps.foldl State.performStore { s with pend := s.pend.filter fun p => !ps.contains p })
  else hold s

/-- The translation-pin slots of a core's translation unit (R325). -/
def pinSlots : Nat := 4096
/-- Pins that accesses of a core with stores pending hold: one for each page of an access (R189). -/
def State.pinsHeld (s : State) (core : Nat) : Nat :=
  ((s.pend.filter fun p => coreOfCtx p.ctx == core).flatMap fun p => p.pages.map fun g => (p.acc, g)).eraseDups.length
/-- Whether an access that touches the given pages finds slots for all its pins. -/
def State.pinsFree (s : State) (core : Nat) (pages : List Pinned) : Bool :=
  decide (s.pinsHeld core + pages.eraseDups.length ≤ pinSlots)
/-- A number for a new access. -/
def State.newAcc (s : State) : Nat := s.pend.foldl (fun n p => max n (p.acc + 1)) 0

/-- The poison marks of a home as a context meets them: its own pending stores clear what they cover whole. -/
def ownMarks (pend : List Pending) (k : Nat) (h : Home) (g : Nat) (marks : List Nat) : List Nat :=
  (pend.filter fun p => p.ctx == k && p.home == h).foldl (fun m p => remark g m p.addr p.bytes.length false) marks

/-- Bytes that a context reads where its own pending stores overlay memory (R196, condition 2). -/
def overlay (pend : List Pending) (k : Nat) (h : Home) (a : Nat) (bytes : List Byte) : List Byte :=
  (pend.filter fun p => p.ctx == k && p.home == h).foldl (fun bs p =>
    (List.range bs.length).zip bs |>.map fun x =>
      if decide (p.addr ≤ a + x.1 ∧ a + x.1 < p.addr + p.bytes.length) then
        p.bytes.getD (a + x.1 - p.addr) x.2 else x.2) bytes

/-! ## Reads through the L1 (R178) -/

/-- The sector of an L1 that holds a virtual address, if any. -/
def Core.l1Find (c : Core) (asid : Fin 16) (va : Nat) : Option L1Sec :=
  c.l1.find? fun e => e.asid == asid && e.va == va / 128 * 128

/-- Sectors that an L1 holds at most: 256 KiB (R17, R23). -/
def l1Sectors : Nat := 2048

/-- Fills a sector from memory. Another name of the same sector is dropped, so that no later read of the core
goes behind this one (R196, condition 3). -/
def State.l1Fill (s : State) (core : Nat) (asid : Fin 16) (va pa : Nat) : State :=
  let p := pa / 128 * 128
  (s.modCoreAt core fun c =>
    { c with l1 := ({ asid := asid, va := va / 128 * 128, pa := p, data := BitVec.ofNat 1024 (rdVal s.mem p 128)
                      poison := (if s.poisoned p 64 then 1 else 0) ||| (if s.poisoned (p + 64) 64 then 2 else 0) } ::
                    (c.dropL1 pa).l1).take l1Sectors }).touchL2 p

/-- A context's read of n bytes in one sector: from the L1, which a miss fills unless `nt`, under its own
pending stores. The flag says that a byte read is poisoned. -/
def State.readSector (s : State) (k : Nat) (asid : Fin 16) (va pa n : Nat) (nt : Bool) :
    List Byte × Bool × State :=
  let core := coreOfCtx k
  match (s.coreAt core).l1Find asid va with
  | some e =>
    let bytes := leBytes n (bitsAt e.data (8 * (va % 128)) (8 * n))
    (overlay s.pend k .hbm pa bytes, (e.poison &&& poisonBits (va % 128) n) != 0, s.noteRead k pa bytes)
  | none =>
    let bytes := rdBytes s.mem pa n
    (overlay s.pend k .hbm pa bytes, s.poisoned pa n,
     (if nt then s.modCoreAt core fun c => c.dropL1 pa else s.l1Fill core asid va pa).noteRead k pa bytes)

/-! ## Stash lines (R179 to R182, R385) -/

def Line.setSec (l : Line) (j : Fin 4) (x : SectorState) : Line := { l with secs := l.secs.set j x j.isLt }

def Core.setLine (c : Core) (i : Nat) (l : Line) : Core := { c with lines := put c.lines i l }

/-- The frame for a sector of a line, and what the line records: the recorded frame, else that of a walk (R181). -/
inductive LineFrame
  | at_ (pa : Nat) (record : Frame)
  | absent
  | invalid
  | protect
  | poisoned (addr : Nat)
deriving DecidableEq, Repr

/-- Whether a walk places a sector in the new frame of its line's page (R188): the progress pointer has passed it, or
the page has become VALID there. -/
def Walk.inNew (w : Walk) (va new : Nat) : Bool :=
  match w with
  | .transit _ _ p _ _ => decide (va % 65536 < 128 * p)
  | .valid log pa _ _ => pa + va % 2 ^ log == new
  | _ => false

def State.lineFrame (s : State) (l : Line) (j : Fin 4) (write : Bool) : LineFrame :=
  let va := l.va.toNat + 128 * j
  let w := s.walk l.asid va
  match l.frame with
  | some f =>
    if write && !f.w && !w.writable then .protect
    else
      match f.new with
      | none => .at_ (f.pa + 128 * j) f
      | some n => .at_ ((if w.inNew va (n + 128 * j) then n else f.pa) + 128 * j) f
  | none =>
    match w with
    | .invalid => .invalid
    | .poisoned a => .poisoned a
    | .absent _ => .absent
    | .valid log pa wr _ =>
      if write && !wr then .protect
      else .at_ (pa + va % 2 ^ log) { pa := pa + va % 2 ^ log - 128 * j, new := none, w := wr }
    | .transit old new p wr _ =>
      if write && !wr then .protect
      else
        let o := va % 65536
        .at_ ((if o < 128 * p then new else old) + o)
          { pa := old + o - 128 * j, new := some (new + o - 128 * j), w := wr }

/-- The L1 of the core of an agent drops a sector that a write-back of the agent writes, so that no later read of the agent goes
behind its own write (R178, R195, R196). -/
def State.dropOwnL1 (s : State) (who : Option Writer) (pa : Nat) : State :=
  match who with
  | some (.ctx k) => s.modCoreAt (coreOfCtx k) fun c => c.dropL1 pa
  | _ => s

/-- The dirty bytes of a sector performed at their frame, with the marks of its two granules (R182, R366); the L1s of the core
and of the agent that causes the write-back drop the sector. `who` writes them; with none they are published as they perform. -/
def State.writeMasked (s : State) (core : Nat) (pa : Nat) (mask : BitVec 128) (off : Nat) (who : Option Writer) : State :=
  let c := s.coreAt core
  let bad := (List.range 128).foldl (fun (m : BitVec 128) b =>
    if mask.getLsbD b && marked 3 c.stashPoison (off + b) 1 then m ||| dirtyBits b 1 else m) 0
  let s := match who with
    | some w => s.noteChange pa
        { n := 0, who := w, mask := mask, data := BitVec.ofNat 1024 (rdVal c.stash off 128), poison := touched bad }
    | none => s
  let put := fun (s : State) (half : Nat) =>
    let is := (List.range 64).filter fun b => mask.getLsbD (64 * half + b)
    let at_ := fun b => 64 * half + b
    let s := is.foldl (fun s b => { s with mem := wrBytes s.mem (pa + at_ b) [rdByte c.stash (off + at_ b)] }) s
    { s with memPoison :=
        if is.any fun b => marked 3 c.stashPoison (off + at_ b) 1 then setAdd s.memPoison (pa / 64 + half)
        else if is.length = 64 then setDel s.memPoison (pa / 64 + half)
        else s.memPoison }
  let s := (((put (put s 0) 1).modCoreAt core fun c => c.dropL1 pa).dropOwnL1 who pa).touchL2 pa
  if who.isNone then s.publishMask pa mask else s

/-- Writes back one sector if it is DIRTY, then drops it or leaves it CLEAN (Table 11-3, R385). The trap
names the bound address of the sector. `force` writes back under a claim (R281); `who` causes the write-back (R195), by default
a boundary of the core. It pins its page (R189), and waits for a slot. -/
def State.writeBack (s : State) (core line : Nat) (j : Fin 4) (drop : Bool) (force : Bool := false)
    (who : Option Writer := some (.stash core)) : Act State :=
  match look (s.coreAt core).lines line with
  | none => .ok s
  | some l =>
    let done := fun (s : State) (l : Line) =>
      s.modCoreAt core fun c =>
        { c.setLine line (l.setSec j (if drop then .invalid else .clean)) with due := setDel c.due (4 * line + j) }
    match l.secs.get j with
    | .invalid => .ok s
    | .clean => if drop then .ok (done s l) else .ok s
    | .dirty mask =>
      let va := l.va + w64 (128 * j)
      match s.lineFrame l j true with
      | .absent => hold (s.postResidency l.asid va.toNat (BitVec.ofNat 32 core))
      | .invalid => raise s .invalidPage va
      | .protect => raise s .protect va
      | .poisoned a => raiseBad s va 0 9 a
      | .at_ pa rec =>
        if (!force && s.claimed pa 128) || !s.pinsFree core [s.pinOf core l.asid va.toNat] then hold s
        else .ok (done (s.writeMasked core pa mask (512 * line + 128 * j) who) { l with frame := some rec })

/-- The DIRTY sectors of a core, as line × 4 + sector. -/
def Core.dirtySecs (c : Core) : List Nat :=
  c.lines.flatMap fun l => ((List.finRange 4).filter fun j =>
    match l.2.secs.get j with
    | .dirty _ => true
    | _ => false).map fun j => 4 * l.1 + j.val

/-- While a boundary waits, its write-backs go on (R183, R385): every DIRTY sector is due. -/
def State.markDue (s : State) (core : Nat) : State := s.modCoreAt core fun c => { c with due := c.dirtySecs }

def keepDue (core : Nat) (r : Act State) : Act State :=
  match r with
  | .error (.wait s) => .error (.wait (s.markDue core))
  | r => r

/-- Writes back (and drops) the sectors of every bound line of a core (R183); the boundary that asks for it publishes them. -/
def State.flushStash (s : State) (core : Nat) (drop : Bool) : Act State :=
  keepDue core ((s.coreAt core).lines.foldlM (fun s l =>
    (List.finRange 4).foldlM (fun s j => s.writeBack core l.1 j drop) s) s)

/-- As `flushStash` with the sectors dropped, for a boundary that no instruction makes (R297, R311): it waits as one does,
`who` makes the write-backs, and `leave` says what becomes of a sector that cannot be written back. -/
def State.flushEnd (s : State) (core : Nat) (who : Writer) (leave : Trap → State → Act State) : Act State :=
  keepDue core ((s.coreAt core).lines.foldlM (fun s l =>
    (List.finRange 4).foldlM (fun s j =>
      match s.writeBack core l.1 j true false (some who) with
      | .error (.trap t _) => leave t s
      | r => r) s) s)

/-- Fills an INVALID sector of a bound line (Table 11-3): done, or what the translation finds; held under a claim (R281), or
while no slot is free for its pin (R189, R325). -/
inductive Filled
  | done (s : State)
  | absent
  | cause (c : Cause)
  | bad (addr : Nat)
  | held

def State.fillSector (s : State) (core line : Nat) (j : Fin 4) : Filled :=
  match look (s.coreAt core).lines line with
  | none => .done s
  | some l =>
    match l.secs.get j with
    | .invalid =>
      match s.lineFrame l j false with
      | .absent => .absent
      | .invalid => .cause .invalidPage
      | .protect => .cause .protect
      | .poisoned a => .bad a
      | .at_ pa rec =>
        if s.claimed pa 128 || !s.pinsFree core [s.pinOf core l.asid (l.va.toNat + 128 * j.val)] then .held
        else
          let off := 512 * line + 128 * j
          .done ((s.modCoreAt core fun c =>
            ({ c with stash := wrBytes c.stash off (rdBytes s.mem pa 128)
                      stashPoison := remark 3 (remark 3 c.stashPoison off 64 (s.poisoned pa 64)) (off + 64) 64
                        (s.poisoned (pa + 64) 64) }).setLine line
              ({ l with frame := some rec }.setSec j .clean)).touchL2 pa)
    | _ => .done s

/-- Writes bytes of one sector of the stash, with its dirty bits where the line is bound (Table 11-3). The
sector is not INVALID, or the write covers it whole. -/
def State.stashPut (s : State) (core off : Nat) (bytes : List Byte) (bad : Bool := false) : State :=
  let line := off / 512
  let j : Fin 4 := Fin.ofNat 4 (off / 128)
  s.modCoreAt core fun c =>
    let c := { c with stash := wrBytes c.stash off bytes, stashPoison := remark 3 c.stashPoison off bytes.length bad }
    match look c.lines line with
    | none => c
    | some l =>
      let old : BitVec 128 := match l.secs.get j with
        | .dirty m => m
        | _ => 0
      c.setLine line (l.setSec j (.dirty (old ||| dirtyBits (off % 128) bytes.length)))

/-- Makes one element of the stash ready to read or write: fills its sector when it must (R181). -/
def State.stashReady (s : State) (core off n : Nat) (write : Bool) : Filled :=
  if write && decide (off % 128 = 0 ∧ n = 128) then .done s
  else s.fillSector core (off / 512) (Fin.ofNat 4 (off / 128))

/-- Whether a core access stalls on the range scoreboard (R191); one of no bytes does not. -/
def Core.stalled (c : Core) (off n : Nat) (write : Bool) : Bool :=
  n != 0 && c.scores.any fun e => (e.write || write) && decide (off < e.hi ∧ e.lo < off + n)

/-! ## Back-invalidates (R185) -/

/-- Whether a sector of a bound line stands for a physical sector: by the frame that its line recorded, or, where none is
recorded, by the translation of its bound address or by the virtual sector that the writer names (R181, R385). -/
def State.secIs (s : State) (l : Line) (j : Fin 4) (p : Nat) (name : Option (Fin 16 × Nat)) : Bool :=
  l.secs.get j != .invalid &&
  match l.frame with
  | some f => f.pa + 128 * j.val == p || (f.new.map fun n => n + 128 * j.val) == some p
  | none =>
    let va := l.va.toNat + 128 * j.val
    name == some (l.asid, va) || (s.walk l.asid va).physical va == some p

/-- How a back-invalidate stands: the state, the first write-back that cannot be made, and whether one waits (R385). -/
structure Backed where
  state : State
  trap : Option Trap
  waits : Bool
deriving DecidableEq, Repr

/-- One sector of one stash meets a back-invalidate: a DIRTY one is written back first; one that cannot be stays DIRTY. -/
def Backed.sector (b : Backed) (p : Nat) (name : Option (Fin 16 × Nat)) (core line : Nat) (l : Line) (j : Fin 4) : Backed :=
  if b.state.secIs l j p name then
    match b.state.writeBack core line j true true with
    | .ok s => { b with state := s }
    | .error (.wait s) => { b with state := s, waits := true }
    | .error (.trap t s) => { b with state := s, trap := b.trap.or (some t) }
  else b

/-- Drops a physical sector from every L1 and its home L2, and from every stash after writing back its dirty bytes (R185,
R385). `name` is the virtual sector that a seep unit writes. -/
def State.backInvalidate (s : State) (pa : Nat) (name : Option (Fin 16 × Nat) := none) : Backed :=
  let p := pa / 128 * 128
  s.cores.foldl (fun b c =>
    c.2.lines.foldl (fun b l => (List.finRange 4).foldl (fun b j => b.sector p name c.1 l.1 l.2 j) b)
      { b with state := b.state.modCoreAt c.1 fun c => c.dropL1 p })
    { state := s.dropL2 p, trap := none, waits := false }

/-! ## Boundaries (R198 to R201) -/

/-- Whether a scope goes beyond the device. -/
def scopeBeyond (sc : Scope) : Bool := sc == .domain || sc == .system

/-- Step 4 of Table 12-4 for a context at a scope: the refresh, with what packets are fetched from then on (R29, R199). -/
def State.refresh (s : State) (k : Nat) (sc : Scope) : Act State :=
  if scopeWide sc then do
    let core := coreOfCtx k
    let s ← s.flushStash core true
    .ok ((s.modCoreAt core fun c => { c with l1 := [] }).comeUp k sc)
  else .ok (s.comeUp k sc)

/-- Whether trains of a context hold its publication: those to its own device are writes that have not performed (step 2 of
Table 12-4), those to other devices are waited for at DOMAIN and SYSTEM (step 3). -/
def State.unacked (s : State) (k : Nat) (sc : Scope) : Bool :=
  s.sent.any fun x => x.isOf k (s.ctxAt k).ten && (x.dest == x.train.srcDev || scopeBeyond sc)

/-- Steps 1 to 3 of Table 12-4: the publication. -/
def State.publish (s : State) (k : Nat) (sc : Scope) : Act State := do
  let s1 ← s.drainAct k
  if s.unacked k sc then hold s
  let s2 ← if scopeWide sc then s1.flushStash (coreOfCtx k) false else .ok s1
  .ok (s2.publishHistory k sc)

/-- A whole boundary. -/
def State.boundary (s : State) (k : Nat) (sc : Scope) : Act State := do
  let s ← s.publish k sc
  s.refresh k sc

end Sys2Proof.Machine
end

