-- ==== Sys2Proof/Machine/Ops.lean ====
section
/-! DEFINITION. Executing one instruction: the guard, taking a trap (R170 to R173), trap records and
contained stops (R316 to R318), the end of a context (R297), and the return from a handler (R92). -/

namespace Sys2Proof.Machine

/-- What `exec` answers. -/
abbrev Out := Host.Outcome State Fault Refusal

/-! ## Causes -/

/-- Cause codes (Table 10-6). -/
def Cause.code : Cause → Nat
  | .illegal => 0x01 | .reservedField => 0x02 | .operandClass => 0x03
  | .align => 0x10 | .noncanon => 0x11 | .invalidPage => 0x12 | .protect => 0x13 | .foreignStash => 0x14
  | .window => 0x15 | .range => 0x16
  | .noninvertiblePattern => 0x20 | .handleType => 0x21 | .patternProgram => 0x22
  | .token => 0x30 | .tileSlot => 0x31 | .probe => 0x40 | .software => 0x50 | .brk => 0x51
  | .contained => 0x70 | .uncorrected => 0x71

/-- Replayable causes and fatal causes (Table 10-3). -/
def Cause.replayable : Cause → Bool
  | .invalidPage => true | .protect => true
  | _ => false
def Cause.fatal : Cause → Bool
  | .contained => true | .uncorrected => true
  | _ => false

/-! ## The error log and contained stops -/

/-- The key under which corrected events at an address are counted (R369): HBM4, L2 and cluster-shared addresses are
those of the device, others belong to a core. -/
def errKey (code unit addr : Nat) : Nat :=
  (code * 2 ^ 16 + if code = 7 ∨ code = 8 ∨ code = 9 then 0 else unit) * 2 ^ 64 + addr

/-- Writes one entry of the error log (R369): code, outcome, SRC, unit, address, and the count of corrected events there. -/
def State.logError (s : State) (code outcome : Nat) (base : Bool) (unit addr : Nat) : State :=
  let r := s.regs
  let count := lookD r.errcounts (errKey code unit addr) 0
  let e : Nat := code + outcome * 2 ^ 8 + unit * 2 ^ 16 + (if base then 2 ^ 25 else 0) + addr * 2 ^ 64 +
    min count (2 ^ 32 - 1) * 2 ^ 128 + r.errprod.toNat * 2 ^ 192
  { s with regs := { r with errlog := put r.errlog (r.errprod.toNat % 256) (BitVec.ofNat 256 e)
                            errprod := r.errprod + 1 } }

def State.modRegs (s : State) (f : Regs → Regs) : State := { s with regs := f s.regs }

/-- Latches FATALSUM for a contained stop of a quarter (Table 26-3). -/
def fatalLatch (f : Word) (q : Fin 4) (cause seq : Nat) : Word :=
  let first := bitsAt f 0 4 == 0
  let keep := f ||| w64 (2 ^ (16 + q.val) + 2 ^ q.val)
  if first then
    (keep &&& w64 0x000FFFFF) ||| w64 (seq * 2 ^ 32 + cause * 2 ^ 24 + q.val * 2 ^ 22)
  else keep

/-- A contained stop of a quarter (R318, R368). -/
def State.containedStop (s : State) (q : Fin 4) (cause seq : Nat) : State :=
  if (s.quarter q).stopped then s
  else
    (s.modQuarter q fun x => { x with stopped := true }).modRegs fun r =>
      { r with fatalsum := fatalLatch r.fatalsum q cause seq }

/-! ## The end of a context (R297) -/

/-- The scope of the end-of-context publication. -/
def doneScopeOf (n : Nat) : Scope := (Scope.ofCode n).getD .device

/-- A context ends: ENDED, its strips discarded, streams ended (R170, R239), its team-end boundary left to make. -/
def Ctx.finish (c : Ctx) : Ctx :=
  { c with status := .ended, loop := none, strips := .replicate 4 none, hstrip := none, record := none, waits := [], sends := [],
           starting := 0, stall := none, inWait := [], ahead := [], ending := true, held := none
           streams := .replicate 4 none }

/-- A gang of a launch with another fate. -/
def State.setGang (s : State) (launch gang : Nat) (f : Gang → Gang) : State :=
  { s with launches := s.launches.map fun l =>
      if l.id = launch then { l with gangs := l.gangs.map fun g => if g.num = gang then f g else g } else l }

/-- Contexts of a gang, by number. -/
def State.gangCtxs (s : State) (launch gang : Nat) : List Nat :=
  (s.ctxs.filter fun c => c.2.status != .idle && c.2.ten.launch == launch && c.2.ten.gang == gang).map Prod.fst

/-- A gang all of whose contexts have ended takes its fate. -/
def State.settleGang (s : State) (launch gang : Nat) : State :=
  if launch != 0 && (s.gangCtxs launch gang).all (fun i => (s.ctxAt i).status == .ended && !(s.ctxAt i).ending) then
    s.setGang launch gang fun g => { g with fate := .ended }
  else s

/-- Whether rows that a context issued have not completed (R91). -/
def State.hasRows (s : State) (k : Nat) : Bool :=
  let c := s.coreAt (coreOfCtx k)
  c.waiting.any (fun r => r.lc.val == lcOfCtx k) || c.flight.any fun r => r.row.lc.val == lcOfCtx k

/-- Whether a context runs on its core: it has started, and it has not ended with its team-end boundary made. -/
def State.runs (s : State) (k : Nat) : Bool :=
  let c := s.ctxAt k
  c.status != .idle && (c.status != .ended || c.ending)

/-- Whether a context takes up a place on its core: it runs there, or rows that it issued are not complete (assumption log
32). -/
def State.present (s : State) (k : Nat) : Bool := s.runs k || ((s.ctxAt k).status != .idle && s.hasRows k)

/-- Whether no context runs on a core. -/
def State.coreIdle (s : State) (core : Nat) : Bool := (List.range 4).all fun i => !s.runs (ctxNum core i)

/-- Bytes of unbound lines are lost, and read 0. -/
def Core.loseUnbound (c : Core) : Core :=
  { c with stash := c.stash.filter fun x => (look c.lines (x.1 / 512)).isSome
           stashPoison := c.stashPoison.filter fun g => (look c.lines (g / 64)).isSome }

/-- Contexts that satisfy a predicate go from ENDED to IDLE (Table 10-1). The unbound lines of a core that no context runs on
then are lost (R297): they are listed while the context stands ENDED (R286), and the contexts of a core share them until the
last has ended (R180, assumption log 20). -/
def State.release (s : State) (p : Nat → Ctx → Bool) : State :=
  let goes := fun (c : Nat × Ctx) => c.2.status == .ended && !c.2.ending && p c.1 c.2 && !s.hasRows c.1
  let cores := ((s.ctxs.filter goes).map fun c => coreOfCtx c.1).eraseDups
  let s := { s with ctxs := s.ctxs.map fun c => if goes c then (c.1, { c.2 with status := .idle }) else c }
  (cores.filter s.coreIdle).foldl (fun s core => s.modCoreAt core Core.loseUnbound) s

/-- The scheduler releases the contexts of a launch's gangs that have ended and whose rows have completed (Table 10-1). -/
def State.releaseEnded (s : State) (launch : Nat) : State :=
  match s.launches.find? fun l => l.id == launch with
  | none => s
  | some l => s.release fun _ c =>
      c.ten.launch == launch && l.gangs.any fun g => g.num == c.ten.gang && g.fate == .ended

/-- A context of a saved gang ends where its record lies (R317). -/
def State.finishSaved (s : State) (k : Nat) (t : Tenancy) : State :=
  { s with quarters := s.quarters.map fun q => { q with saves := q.saves.map fun x =>
      if x.launch = t.launch ∧ x.gang = t.gang then
        { x with ctxs := x.ctxs.map fun c => if c.1 = k then (k, c.2.finish) else c }
      else x } }

def Quarter.occupancy (q : Quarter) : Nat := (q.tqprod - q.tqcons).toNat

/-- Writes a record with its sequence number. -/
def Quarter.writeRecord (q : Quarter) (r : TrapRec) : Quarter :=
  { q with ring := put q.ring (q.tqprod.toNat % 256) ({ r with seq := q.tqprod }, false), tqprod := q.tqprod + 1 }

/-- Writes a record when the queue has room (R316); nothing when it has none (R317) or the quarter has stopped (R318). A
fatal record that finds the queue full is not written and stops the quarter (R318). -/
def State.putRecord (s : State) (q : Fin 4) (r : TrapRec) : Option State :=
  let x := s.quarter q
  if x.stopped then none
  else if x.occupancy < (if r.cls = 2 then 256 else 248) then some (s.modQuarter q fun x => x.writeRecord r)
  else if r.cls = 2 then some (s.containedStop q (Cause.code r.trap.cause) x.tqprod.toNat)
  else none

/-- A sector that the team-end boundary of an ended context cannot write back stays DIRTY, and its record is written, once there
is room: of CLASS 1 (R385), there being no instruction left to stall, or of CLASS 2, logged, where the walk meets an uncorrectable
error (R367, R369). -/
def State.leaveDirty (k : Nat) (t : Trap) (s : State) : Act State :=
  let c := s.ctxAt k
  let r : TrapRec :=
    { seq := 0, gen := c.ten.gen, team := BitVec.ofNat 32 c.ten.gang, trap := t, pc := c.thread.pc, core := coreOfCtx k
      ctx := lcOfCtx k, cls := if t.cause.fatal then 2 else 1, card := none }
  match s.putRecord (quarterOf (coreOfCtx k)) r with
  | some s => .ok (if t.cause.fatal then s.logError t.mem 3 false (coreOfCtx k) t.addr else s)
  | none => hold s

/-- What a wait keeps of the state that it left: the residency requests posted, and the sectors of a core that are due to
be written back. -/
def State.withRequests (s0 : State) (core : Nat) (s : State) : State :=
  { s0 with xlat := { s0.xlat with ring := s.xlat.ring, rqprod := s.xlat.rqprod } }.modCoreAt core fun c =>
    { c with due := (s.coreAt core).due }

/-- The team-end boundary of an ended context (R297), once its stores and write-backs can be made; nothing in a quarter
that has stopped. -/
def State.tryEnd (s : State) (k : Nat) : State :=
  if !(s.ctxAt k).ending || (s.quarter (quarterOf (coreOfCtx k))).stopped then s
  else
    let boundary : Act State := do
      let s ← s.drainAct k
      if s.unacked k (doneScopeOf (s.ctxAt k).ten.doneScope) then hold s
      s.flushEnd (coreOfCtx k) (.stash (coreOfCtx k)) (State.leaveDirty k)
    match boundary with
    | .ok s =>
      let t := (s.ctxAt k).ten
      ((s.publishHistory k (doneScopeOf t.doneScope)).modCtxAt k fun c => { c with ending := false }).settleGang t.launch t.gang
    | .error (.wait w) => s.withRequests (coreOfCtx k) w
    | .error (.trap _ _) => s

/-- The context with number k ends: ENDED, and its team-end boundary as soon as it can be made (Table 10-1, R297). Rows
and engines that it has started go on (R91). That an instruction of another strip which stands in a wait (a `seep` before
its claim, an access to an ABSENT page) does not count as issued, and is dropped where `exit` stops all strips, is the model's
choice (assumption log 41). -/
def State.endCtx (s : State) (k : Nat) : State :=
  let s := (s.modCtxAt k Ctx.finish).modCoreAt (coreOfCtx k) fun c =>
    { c with hist := c.hist.filter fun h => h.lc.val != lcOfCtx k }
  { s with kernels := s.kernels.filter fun x => !x.stage.waits || x.ctx != k }.tryEnd k

/-! ## Trap records (R173, R316, R317) -/

/-- What a written record does to the context that it concerns (Table 10-3). -/
def State.applyRecord (s : State) (k : Nat) (r : TrapRec) : State :=
  if r.cls = 1 then s.modCtxAt k fun c => { c with status := .stalled, record := none, stall := some r.seq }
  else s.endCtx k

/-- Posts a context's record, which is held while it finds no room, and while strips that it ends still have vector
instructions to complete (R168). -/
def State.post (s : State) (k : Nat) (r : TrapRec) : State :=
  let q := quarterOf (coreOfCtx k)
  let r := { r with seq := (s.quarter q).tqprod }
  match if r.cls != 1 && !(s.ctxAt k).ahead.isEmpty then none else s.putRecord q r with
  | some s => s.applyRecord k r
  | none => s.modCtxAt k fun c => { c with record := some r }

/-- The record of a trap taken by the executing context (Table 10-4). -/
def State.recordOf (s : State) (t : Trap) (pc : Word) (cls : Nat) : TrapRec :=
  let n := s.ctx.ten
  { seq := 0, gen := n.gen, team := BitVec.ofNat 32 n.gang, trap := t, pc := pc, core := s.cur.core, ctx := s.cur.lc
    cls := cls, card := none }

/-! ## Taking a trap -/

/-- Delivery to the handler (R172). -/
def State.toHandler (s : State) (t : Trap) (pc : Word) : State :=
  let s := s.modCtx fun c =>
    { c with
      trap := { cause := w64 (Cause.code t.cause), pc := pc, val := t.val, idx0 := t.idx0, idx1 := t.idx1
                idx2 := t.idx2 }
      status := .handler, hstrip := s.cur.lg }
  s.goto s.ctx.win.handler

/-- Whether a strip is frozen by a trap of its context (R168): the context is STALLED, a record is held, or another strip
runs the handler. -/
def Ctx.freezes (c : Ctx) (lg : Option (Fin 4)) : Bool :=
  lg.isSome && (c.record.isSome || c.status == .stalled || (c.status == .handler && c.hstrip.isSome && c.hstrip != lg))

/-- A trap of the executing issuer is held pending: by its strip, or by its context outside a body. -/
def State.holdTrap (s : State) (t : Trap) : State :=
  if s.inBody then s.modStrip fun x => { x with held := some t } else s.modCtx fun c => { c with held := some t }

/-- Whether a trap of the executing issuer is held pending: of a frozen strip (R168), and while engines are reaching their
stop points (R309). -/
def State.holdsTrap (s : State) : Bool := s.ctx.freezes s.cur.lg || s.frozen s.key

/-- The executing issuer takes a trap (R170, Table 10-3), or it is held pending. -/
def State.takeTrap (s : State) (t : Trap) : State :=
  let pc := t.pc.getD s.pc
  let c := s.ctx
  if s.holdsTrap then s.holdTrap t
  else if t.cause.fatal then
    let s := if t.cause = .uncorrected then s.logError t.mem 3 false s.cur.core t.addr else s
    s.post s.key (s.recordOf t pc 2)
  else if c.status = .handler then s.post s.key (s.recordOf t pc 3)
  else if t.cause.replayable then s.post s.key (s.recordOf t pc 1)
  else if c.win.handler != 0 then s.toHandler t pc
  else s.post s.key (s.recordOf t pc 3)

/-- The next state of an action of an issuer: a trap is taken, a wait stands. -/
def State.tryIssuer (s : State) (i : Issuer) (f : State → Act State) : State :=
  s.asIssuer i fun s =>
    match f s with
    | .ok s => s
    | .error (.trap t s) => s.takeTrap t
    | .error (.wait s) => s

/-- Whether the context of an issuer runs it: RUNNING, or HANDLER with no strip or this one as the handler's, and no trap held
or pending (R168, R170, R317). -/
def Ctx.runs (c : Ctx) (lg : Option (Fin 4)) : Bool :=
  (c.status == .running || (c.status == .handler && (c.hstrip.isNone || c.hstrip == lg))) && c.record.isNone && !c.pending

/-- Whether an issuer may go on: its context runs it, and its gang is not being stopped (R308). -/
def State.live (s : State) (i : Issuer) : Bool :=
  let k := ctxNum i.core i.lc
  (s.ctxAt k).runs i.lg && !s.frozen k

/-! ## Executing an instruction -/

/-- p[GP] XOR GN (R31). -/
def State.guard (s : State) (c : Ctl) : Bool := s.readP c.gp != c.gn

/-- A result as the next state: a trap is taken, a wait leaves the instruction to be executed again. -/
def settle (r : Act State) : Out :=
  match r with
  | .ok s => .next s
  | .error (.trap t s) => .next (s.takeTrap t)
  | .error (.wait s) => .next s

/-- Executes the body of an instruction under its guard (R31): a false guard only advances the PC. -/
def run (c : Ctl) (s : State) (body : State → Act State) : Out :=
  if s.guard c then settle (body s) else .next s.advance

/-- A trap with the default TRAPVAL (R386). -/
def trapOp {α : Type} (s : State) (cause : Cause) (i : Instr) : Act α := raise s cause i.upper

/-- A trap whose TRAPVAL is an operand field, and TRAPIDX0 a register number (R108). -/
def trapField {α : Type} (s : State) (cause : Cause) (o : Operand) (idx : Nat := 0) : Act α :=
  raise s cause (o.code.zeroExtend 64) (w64 idx)

/-- The destination check of R87: a shared register as destination inside a body. s0 is none of those that R87 names: where R124
asks for a strip-private register, s0 is accepted and the write discarded (R33), as the model's choice (assumption log 16). -/
def State.checkDest (s : State) (d : Operand) : Act Unit :=
  if s.inBody && isShared d then trapField s .operandClass d else .ok ()

/-- An instruction that may not execute inside a body (R112 and the rules that cite R87). -/
def State.outsideBody (s : State) (d : Operand) : Act Unit :=
  if s.inBody then trapField s .operandClass d else .ok ()

/-- A scope with its level resolved; an undeclared level raises OPERAND_CLASS (R34). -/
def State.scope (s : State) (x : Scope) (i : Instr) : Act Scope :=
  match resolveScope s.ctx.ten.levels x with
  | some y => .ok y
  | none => trapOp s .operandClass i

/-! ## The return from a handler (R92, R168) -/

def State.rfe (s : State) (i : Instr) : Act State :=
  if s.ctx.status = .handler then
    let t := s.ctx.trap.pc
    match targetCause t with
    | some c => raise s c t
    | none => .ok ((s.modCtx fun c => { c with status := .running, hstrip := none }).goto t)
  else trapOp s .illegal i

end Sys2Proof.Machine
end

