-- ==== Sys2Proof/Machine/Flags.lean ====
section
/-! DEFINITION. The STATUS register (R73, R105, Table 6-7) and the rounding mode (R58). -/

namespace Sys2Proof.Machine

/-- Sticky bits of STATUS. -/
inductive Sticky
  | nxskip | stalez | satur | tapmiss
deriving DecidableEq, Repr

def Sticky.bit : Sticky → Word
  | .nxskip => 1 | .stalez => 2 | .satur => 4 | .tapmiss => 8

/-- Sets a sticky bit of a context. -/
def Ctx.setSticky (c : Ctx) (b : Sticky) : Ctx := { c with streg := c.streg ||| b.bit }

/-- Sets a sticky bit of the executing context when `on` (R54, R59). -/
def State.sticky (s : State) (b : Sticky) (on : Bool) : State :=
  if on then s.modCtx fun c => c.setSticky b else s

/-- RMODE, STATUS [6:4]. -/
def rmodeOf (st : Word) : RMode := .ofCode (bitsAt st 4 3)

/-- The rounding mode with DYN resolved (R58). -/
def State.rm (s : State) (m : RMode) : RMode :=
  match m with
  | .dyn => rmodeOf s.ctx.streg
  | m => m

/-- A write of STATUS by `mtc` (Table 6-7): TMCNT written, RMODE unless 6 or 7, ones clear sticky bits. -/
def writeStatus (old v : Word) : Word :=
  let rmode := if bitsAt v 4 3 < 6 then v &&& 0x70 else old &&& 0x70
  (v &&& 0xFFFF0000) ||| rmode ||| (old &&& 0xF &&& ~~~v)

/-- Adds one mismatch to TMCNT, saturating, and sets TAPMISS (R266). -/
def bumpMismatch (st : Word) : Word :=
  let n := min (bitsAt st 16 16 + 1) 0xFFFF
  (st &&& ~~~(0xFFFF0000 : Word)) ||| w64 (n * 65536) ||| 8

/-- The stochastic state of a lane, or of the scalar unit at 16,384 (R61, R62). -/
def Ctx.stochAt (c : Ctx) (l : Nat) : BitVec 32 := (look c.stoch l).getD (seedState c.srseed l)
def Ctx.setStoch (c : Ctx) (l : Nat) (v : BitVec 32) : Ctx :=
  { c with stoch := if v = seedState c.srseed l then del c.stoch l else put c.stoch l v }

/-- The lane number of the scalar unit's state. -/
def scalarLane : Nat := 16384

end Sys2Proof.Machine
end

