-- ==== Sys2Proof/Machine/Lanes.lean ====
section
/-! DEFINITION. The vector side: field-map entries and their checks (R77 to R79, R107, R108), rows, tags
and fields of the executing strip's lane group (R74, R76), active lanes (R109), and writing lanes and
tags. -/

namespace Sys2Proof.Machine

/-! ## Field-map entries (R77, R78) -/

def fmV (e : BitVec 32) : Bool := bitAt e 31
def fmWidth (e : BitVec 32) : Nat := bitsAt e 25 6 + 1
def fmType (e : BitVec 32) : Nat := bitsAt e 20 5
def fmCol (e : BitVec 32) : Nat := bitsAt e 11 9

/-- Whether columns lie inside a context's window (R75). -/
def Window.holds (w : Window) (col width : Nat) : Bool := decide (w.cb ≤ col ∧ col + width ≤ w.cb + w.cn)

/-- The check of R78 on a written entry. -/
def entryOk (w : Window) (e : BitVec 32) : Bool :=
  let ty := Ty.ofCode (fmType e)
  !fmV e ||
  (decide (1 ≤ fmType e ∧ fmType e ≤ 8) && bitsAt e 0 11 == 0 &&
   (match fltOfTy ty with
    | some f => fmWidth e == f.width
    | none => true) && w.holds (fmCol e) (fmWidth e))

/-- An entry as it reads back: reserved bits zero (R78). -/
def entryStored (e : BitVec 32) : BitVec 32 := e &&& 0xFFFFF800

/-- The parity difference of entry n of a context is recomputed to none (R85). -/
def Core.clearParity (c : Core) (lc n : Nat) : Core :=
  { c with parity := c.parity.filterMap fun r =>
      let v := r.2 &&& ~~~(BitVec.ofNat 128 (2 ^ (32 * lc + n)))
      if v = 0 then none else some (r.1, v) }

/-- Writes a field-map entry that has passed R78. -/
def State.setEntry (s : State) (n : Fin 32) (e : BitVec 32) : State :=
  (s.modCtx fun c => { c with fmap := c.fmap.set n (entryStored e) n.isLt }).modCore fun c =>
    c.clearParity s.cur.lc n

/-! ## Resolved fields (R107) -/

/-- A resolved operand: its register, type and columns. -/
structure Fld where
  reg : Fin 32
  ty : NTy
  col : Nat
  width : Nat
deriving DecidableEq, Repr

/-- The type of a field-map entry. -/
def entryTy (e : BitVec 32) : NTy :=
  match fltOfTy (.ofCode (fmType e)) with
  | some f => .flt f
  | none => .int (fmType e != 2) (fmWidth e)

/-- What an operand of a form must be. -/
inductive Want
  | int | flt | any
deriving DecidableEq, Repr

def vreg : Operand → Fin 32
  | .v n => n
  | _ => 0

/-- Resolves an operand under a type code and a WID (R107), with the checks of R108 that concern it: V, class and width, then
the window. R108 orders no two of its checks: that those of D come first, then those of A and of B, then RM and SAT, then
overlap is the model's choice (assumption log 16). -/
def State.field (s : State) (o : Operand) (t : Ty) (wid : Nat) (want : Want) : Act Fld :=
  let n := vreg o
  let e := s.ctx.fmap.get n
  let bad := fun {α : Type} => (trapField s .operandClass o n : Act α)
  if !fmV e then bad
  else do
    let f : Fld ← match t with
      | .i => .ok { reg := n, ty := .int true (if wid = 0 then fmWidth e else wid), col := fmCol e
                    width := if wid = 0 then fmWidth e else wid }
      | .n => .ok { reg := n, ty := .int false (if wid = 0 then fmWidth e else wid), col := fmCol e
                    width := if wid = 0 then fmWidth e else wid }
      | t =>
        match fltOfTy t with
        | some x => if x.width = fmWidth e then .ok { reg := n, ty := .flt x, col := fmCol e, width := x.width } else bad
        | none => .ok { reg := n, ty := entryTy e, col := fmCol e, width := fmWidth e }
    match want, f.ty with
    | .int, .flt _ => bad
    | .flt, .int _ _ => bad
    | _, _ => if s.ctx.win.holds f.col f.width then .ok f else trapField s .range o n

def Fld.same (a b : Fld) : Bool := a.col == b.col && a.width == b.width
def Fld.disjoint (a b : Fld) : Bool := decide (a.col + a.width ≤ b.col ∨ b.col + b.width ≤ a.col)

/-- The overlap rule of R79 for a destination and its sources. -/
def State.checkOverlap (s : State) (o : Operand) (d : Fld) (srcs : List Fld) : Act Unit :=
  if srcs.all fun x => d.same x || d.disjoint x then .ok () else trapField s .operandClass o d.reg

/-- An error that the scrub found is raised by the next vector instruction (R86). -/
def State.scrubStart (s : State) : Act Unit :=
  match s.ctx.scrub with
  | some (v, mem) => raiseBad s v 0 mem (bitsAt v 0 14)
  | none => .ok ()

/-- What comes before the checks of any vector instruction: an error that the scrub found (R86), and but for `vfmap` and
`vdim` an empty window (R75). That forms of the other classes which act on lanes and name no field (`mclr accD`, `hmask`) count as
vector instructions here is the model's choice, as is the order of this check before all others but that of a shared
destination, which `acnt`, `afirst`, `aext` and `ared` check before it (R87; assumption log 16). -/
def State.vecStart (s : State) (i : Instr) : Act Unit := do
  s.scrubStart
  if s.ctx.win.cn = 0 then trapOp s .range i else .ok ()

/-- A destination that is a register in stream mode raises OPERAND_CLASS (R239). -/
def State.checkStream (s : State) (o : Operand) (i : Instr) : Act Unit :=
  let n := vreg o
  if 28 ≤ n.val && (s.ctx.streams.get (Fin.ofNat 4 (n - 28))).isSome then trapOp s .operandClass i else .ok ()

/-- RM and SAT judged against the resolved types (R383). -/
def State.checkRmSat (s : State) (i : Instr) (rmUsed satOk : Bool) (rm : RMode) (sat : Bool) : Act Unit :=
  if (rm != .rne && !rmUsed) || (sat && !satOk) then trapOp s .reservedField i else .ok ()

/-- Destination types with which SAT is accepted (R60). -/
def satType : NTy → Bool
  | .int _ _ => true
  | .flt .e4m3 => true
  | .flt .e5m2 => true
  | _ => false

/-! ## Rows and tags -/

/-- Bits of a row, and a row with bits replaced. -/
def rowBits (r : BitVec 512) (col w : Nat) : Nat := bitsAt r col w
def setRowBits (r : BitVec 512) (col w v : Nat) : BitVec 512 :=
  let m : BitVec 512 := BitVec.ofNat 512 ((2 ^ w - 1) * 2 ^ col)
  (r &&& ~~~m) ||| BitVec.ofNat 512 (v % 2 ^ w * 2 ^ col)

def Fld.get (f : Fld) (r : BitVec 512) : Nat := rowBits r f.col f.width
def Fld.val (f : Fld) (r : BitVec 512) : Val := f.ty.val (f.get r)

/-- The lane number within the core of a strip position (R74). -/
def State.lane (s : State) (i : Nat) : Nat := s.lg * 4096 + i
def Core.row (c : Core) (l : Nat) : BitVec 512 := lookD c.rows l 0

/-- Column of mask j of a context (R18). -/
def tagCol (lc j : Nat) : Nat := lc * 6 + j
/-- The tag of a row in mask j; m0 is the strip-valid mask (R76). -/
def tagOf (lc slen : Nat) (j : Fin 6) (i : Nat) (r : BitVec 512) : Bool :=
  if j = 0 then decide (i < slen) else r.getLsbD (tagCol lc j)

/-- Columns of m1 to m5 of a loop context (R76). -/
def tagMask (lc : Nat) : BitVec 512 := BitVec.ofNat 512 (62 * 2 ^ (6 * lc))

/-- Clears m1 to m5 in rows of a lane group at or above position `lo` (R162, R169); the passes re-encode columns 0 to 31
of those rows (R85). -/
def Core.clearTags (c : Core) (lc lg lo : Nat) : Core :=
  { c with rows := c.rows.filterMap fun r =>
      if decide (lg * 4096 + lo ≤ r.1 ∧ r.1 < (lg + 1) * 4096) then
        let v := r.2 &&& ~~~tagMask lc
        if v = 0 then none else some (r.1, v)
      else some r
           tagErr := c.tagErr.filter fun l => !decide (lg * 4096 + lo ≤ l ∧ l < (lg + 1) * 4096) }

/-- Positions below SLEN whose tag in a mask is 1 (R109). -/
def State.active (s : State) (m : Fin 6) : List Nat :=
  let c := s.core
  (List.range s.slen).filter fun i => tagOf s.cur.lc s.slen m i (c.row (s.lane i))

/-- Replaces rows. -/
def Core.setRow (c : Core) (l : Nat) (r : BitVec 512) : Core := { c with rows := putOr 0 c.rows l r }

/-- Writes a field in the given positions. A row's code over columns 0 to 31 is computed again only by passes that write tags
(`putTags`, `clearTags`): that the pass of no other instruction uses the scratch columns 24 to 31, of which the manual
says nothing, is the model's choice (R85, assumption log 8). -/
def State.putLanes (s : State) (f : Fld) (vs : List (Nat × Nat)) : State :=
  s.modCore fun c => vs.foldl (fun c x =>
    let l := s.lane x.1
    c.setRow l (setRowBits (c.row l) f.col f.width x.2)) c

/-- The passes of a strip re-encode columns 0 to 31 of every row of its lane group (R80, R85). -/
def State.encodeTags (s : State) : State :=
  if s.inBody then s.modCore fun c => { c with tagErr := c.tagErr.filter fun l => l / 4096 != s.lg } else s

/-- Writes tags of a mask in the given positions. -/
def State.putTags (s : State) (j : Fin 6) (vs : List (Nat × Bool)) : State :=
  (s.modCore fun c => vs.foldl (fun c x =>
    let l := s.lane x.1
    c.setRow l (setRowBits (c.row l) (tagCol s.cur.lc j) 1 (if x.2 then 1 else 0))) c).encodeTags

/-- A result in each active lane, written to a field, with SATUR and the lanes' stochastic states (R61,
R109). -/
def State.mapLanes (s : State) (m : Fin 6) (d : Fld) (op : Nat → BitVec 512 → BitVec 32 → Rounded) : State :=
  let c := s.core
  let x := s.ctx
  let rs := (s.active m).map fun i => (i, op i (c.row (s.lane i)) (x.stochAt (s.lane i)))
  ((s.putLanes d (rs.map fun r => (r.1, r.2.bits))).modCtx fun y =>
    rs.foldl (fun y r => y.setStoch (s.lane r.1) r.2.st) y).sticky .satur (rs.any fun r => r.2.satur)

/-- A tag in each active lane. -/
def State.mapTags (s : State) (m d : Fin 6) (op : Nat → BitVec 512 → Bool) : State :=
  let c := s.core
  s.putTags d ((s.active m).map fun i => (i, op i (c.row (s.lane i))))

def mreg : Operand → Fin 6
  | .m n => n
  | _ => 0

/-- Parity of a register at a position: whether a corner-turn read finds a mismatch (R85, R86). -/
def State.parityBad (s : State) (reg : Fin 32) (i : Nat) : Bool :=
  (lookD s.core.parity (s.lane i) 0).getLsbD (32 * s.cur.lc + reg)

/-- TRAPVAL of an UNCORRECTED of a tarn (R86). -/
def tarnVal (lane entry lc : Nat) : Word := w64 (lane + entry * 2 ^ 16 + lc * 2 ^ 24)

/-- A corner-turn read of a field at the given positions checks parity (R86). -/
def State.checkParity (s : State) (f : Fld) (is : List Nat) : Act Unit :=
  match is.find? (s.parityBad f.reg) with
  | some i => raiseBad s (tarnVal (s.lane i) f.reg s.cur.lc) 0 1 (s.lane i)
  | none => .ok ()

end Sys2Proof.Machine
end

