-- ==== Sys2Proof/Machine/Access.lean ====
section
/-! DEFINITION. Elements of memory accesses: where an element performs (Table 11-2, R187), reading, writing
and updating it there (R181, R202, R216), the range scoreboard (R191) and waits for pages (R187, R326). -/

namespace Sys2Proof.Machine

/-- What the checks of Table 11-2 find for an element. -/
inductive Found
  | at_ (l : Loc)
  | absent (asid : Fin 16) (va : Nat)
  | fail (c : Cause)
  | bad (addr : Nat)
deriving DecidableEq, Repr

/-! ## Finding an element -/

def State.agentOf (s : State) (k : Nat) : Agent :=
  let c := s.ctxAt k
  { core := coreOfCtx k, who := .ctx k, issuer := some k, tlb := coreOfCtx k, asid := c.ten.asid, pbase := c.win.pbase, psize := c.win.psize.toNat }

/-- Order 7 for a global or private address (R322, R323). -/
def State.findVirt (s : State) (unit : Nat) (asid : Fin 16) (va : Nat) (write : Bool) : Found × State :=
  let w := s.tlbWalk unit asid va
  match w.1 with
  | .invalid => (.fail .invalidPage, w.2)
  | .poisoned a => (.bad a, w.2)
  | .absent _ => (.absent asid va, w.2)
  | x =>
    if write && !x.writable then (.fail .protect, w.2)
    else
      match x.physical va with
      | some pa => (.at_ (.hbm asid va pa), w.2)
      | none => (.fail .invalidPage, w.2)

/-- Order 7 for a stash element: a bound line whose sector must fill (R181). -/
def State.findStash (s : State) (core off n : Nat) (write : Bool) : Found :=
  match look (s.coreAt core).lines (off / 512) with
  | none => .at_ (.stash off)
  | some l =>
    let j : Fin 4 := Fin.ofNat 4 (off / 128)
    match l.secs.get j with
    | .invalid =>
      if write && decide (off % 128 = 0 ∧ n = 128) then .at_ (.stash off)
      else
        match s.lineFrame l j false with
        | .absent => .absent l.asid (l.va.toNat + 128 * j)
        | .invalid => .fail .invalidPage
        | .protect => .fail .protect
        | .poisoned a => .bad a
        | .at_ _ _ => .at_ (.stash off)
    | _ => .at_ (.stash off)

/-- All the checks of Table 11-2 for one element of z bytes. -/
def State.find (s : State) (a : Agent) (p : Word) (z al : Nat) (write : Bool) : Found × State :=
  match Machine.checkPtr a.core (s.coreAt a.core).stashBytes a.pbase a.psize p z al with
  | .error c => (.fail c, s)
  | .ok (.virt va) => s.findVirt a.tlb a.asid va write
  | .ok (.stash off) => (s.findStash a.core off z write, s)
  | .ok (.cluster cl off) => (.at_ (.cluster (clsAddr cl off)), s)

/-! ## Waits for pages -/

/-- The slot of an issuer in its context's waits: 0 outside a body, else its lane group plus 1. -/
def State.issuerSlot (s : State) : Nat := (s.cur.lg.map fun g => g.val + 1).getD 0

/-- The executing issuer stands in a wait of Table 10-2, and no longer does. -/
def State.waitBegins (s : State) : State := s.modCtx fun c => { c with inWait := setAdd c.inWait s.issuerSlot }
def State.waitEnds (s : State) : State := s.modCtx fun c => { c with inWait := setDel c.inWait s.issuerSlot }

/-- The executing issuer waits for the page of a virtual address, which is requested, by its core or, for what it reads through an
engine, by that engine (R187, R326). -/
def State.waitPage {α : Type} (s : State) (asid : Fin 16) (va : Nat) (engine : Bool := false) : Act α :=
  let who : BitVec 32 := if engine then BitVec.allOnes 32 else BitVec.ofNat 32 s.cur.core
  hold ((s.postResidency asid va who).modCtx fun c => { c with waits := put c.waits s.issuerSlot (asid, va, who) })

/-- A stream that keeps the block that a pop has chosen for it in another state, and the blocks found on ABSENT pages
(R241). -/
def keepChosen (x y : Option Stream) : Option Stream :=
  match x, y with
  | some a, some b => some { a with chosen := a.chosen.or b.chosen, deferred := b.deferred }
  | z, _ => z

def Ctx.keepChosen (c d : Ctx) : Ctx :=
  { c with streams := Vector.ofFn fun r => Machine.keepChosen (c.streams.get r) (d.streams.get r) }

/-- A wait keeps the residency requests, the waits, the sectors due and the blocks chosen of another state, and nothing
else of it. -/
def State.keepWait (s0 s : State) : State :=
  (s0.withRequests s0.cur.core s).modCtx fun c => { c.keepChosen s.ctx with waits := s.ctx.waits }

/-- The rest of an instruction whose trap or wait leaves the state before it (R167). -/
def undo {α : Type} (s0 : State) (r : Act α) : Act α :=
  match r with
  | .error (.trap t _) => .error (.trap t s0)
  | .error (.wait s) => .error (.wait (s0.keepWait s))
  | x => x

/-- The parts of n bytes from p on that lie in one sector each; a private region is aligned on 64 (Table 20-1). -/
def chunks (p : Word) (n : Nat) : List (Word × Nat) :=
  let g := if windowOf p = 8 then 64 else 128
  let o := p.toNat % g
  if n = 0 then []
  else (List.range ((o + n + g - 1) / g)).map fun i =>
    let lo := max o (g * i)
    (p - w64 o + w64 lo, min (o + n) (g * (i + 1)) - lo)

/-! ## Errors -/

/-- The lane number of a stash offset (R179). -/
def stashLane (off : Nat) : Nat :=
  let t := off / 65536
  t % 4 * 4096 + (3 - t / 4) * 1024 + off % 65536 / 64

/-- A location further on in the same sector. -/
def Loc.shift (l : Loc) (n : Nat) : Loc :=
  match l with
  | .hbm asid va pa => .hbm asid (va + n) (pa + n)
  | .stash off => .stash (off + n)
  | .cluster a => .cluster (a + n)

/-- Memory code and address of a location, for the error log (Table 26-2, R369). -/
def Loc.mem : Loc → Nat × Nat
  | .hbm _ _ pa => (9, pa)
  | .stash off => (3, stashLane off)
  | .cluster a => (8, a)

/-! ## Performing an element -/

/-- Whether an access to the stash stalls (R191). -/
def State.locStalled (s : State) (core : Nat) (l : Loc) (n : Nat) (write : Bool) : Bool :=
  match l with
  | .stash off => (s.coreAt core).stalled off n write
  | _ => false

/-- Whether a performing access would be held at its home by a claim (R281): not one that the core's L1 serves. -/
def State.locHeld (s : State) (core : Nat) (l : Loc) (n : Nat) (write : Bool) : Bool :=
  match l with
  | .hbm asid va pa => (write || ((s.coreAt core).l1Find asid va).isNone) && s.claimed pa n
  | .stash off =>
    match s.stashReady core off n write with
    | .held => true
    | _ => false
  | .cluster _ => false

/-- Fills a stash sector that must fill, holding under a claim (R281). -/
def State.readyStash (s : State) (core off n : Nat) (write : Bool) : Act State :=
  match s.stashReady core off n write with
  | .done s => .ok s
  | _ => hold s

/-- A read of n bytes by a context, under its own pending stores (R196): the bytes, and whether one of them is
poisoned. -/
def State.readLoc (s : State) (k : Nat) (l : Loc) (n : Nat) (nt : Bool) : Act (List Byte × Bool × State) :=
  match l with
  | .hbm asid va pa =>
    if ((s.coreAt (coreOfCtx k)).l1Find asid va).isNone && s.claimed pa n then hold s
    else .ok (s.readSector k asid va pa n nt)
  | .stash off => do
    let s ← s.readyStash (coreOfCtx k) off n false
    let c := s.coreAt (coreOfCtx k)
    .ok (rdBytes c.stash off n, marked 3 c.stashPoison off n, s)
  | .cluster a =>
    let r := s.clsRead k a n
    .ok (overlay s.pend k .cluster a r.1, marked 3 (ownMarks s.pend k .cluster 3 s.clsPoison) a n, r.2)

/-- The page that an access at a location pins, as a unit translates (R189). -/
def State.locPage (s : State) (unit : Nat) (l : Loc) : Option Pinned :=
  match l with
  | .hbm asid va _ => some (s.pinOf unit asid va)
  | _ => none

/-- The pages that an access at the given locations pins. -/
def State.pinsOf (s : State) (unit : Nat) (ls : List Loc) : List Pinned := (ls.filterMap (s.locPage unit)).eraseDups

/-- Whether an access by a core at the given locations finds slots for its pins (R325). -/
def State.pinRoom (s : State) (core : Nat) (ls : List Loc) : Bool := s.pinsFree core (s.pinsOf core ls)

/-- A store by a context is issued, as part of an access that pins the given pages until the last of its elements has
performed (R189); it performs later (R195, R197), in the stash at once. -/
def State.storeLoc (s : State) (k : Nat) (l : Loc) (bytes : List Byte) (acc : Nat) (pages : List Pinned)
    (hot : Option Nat := none) (nt : Bool := false) : Act State :=
  match l with
  | .hbm _ _ pa =>
    .ok { s with pend := s.pend ++ [{ ctx := k, acc := acc, pages := pages, home := .hbm, addr := pa, bytes := bytes
                                      hot := hot, nt := nt }] }
  | .cluster a =>
    .ok { s with pend := s.pend ++ [{ ctx := k, acc := acc, pages := pages, home := .cluster, addr := a, bytes := bytes
                                      hot := none, nt := nt }] }
  | .stash off => do
    let s ← s.readyStash (coreOfCtx k) off bytes.length true
    .ok (s.stashPut (coreOfCtx k) off bytes)

/-- The earlier stores of a context to n bytes of a location perform (R196, condition 2; R204, R207). -/
def State.drainLoc (s : State) (k : Nat) (l : Loc) (n : Nat) : Act State :=
  match l with
  | .hbm _ _ pa => s.drainOver k .hbm pa n
  | .cluster a => s.drainOver k .cluster a n
  | .stash _ => .ok s

/-- A writer is about to write bytes at a location (R29). -/
def State.noteLoc (s : State) (w : Writer) (l : Loc) (bytes : List Byte) (bad : Bool := false) : State :=
  match l with
  | .hbm _ _ pa => s.noteTorn w pa bytes bad
  | _ => s

/-- Bytes of a location that have just been written are published as they perform (R202, R209). -/
def State.publishLoc (s : State) (l : Loc) (n : Nat) : State :=
  match l with
  | .hbm _ _ pa => s.publishBytes pa n
  | _ => s

/-- A context has read bytes of a location at its home (R198). -/
def State.readNote (s : State) (k : Nat) (l : Loc) (bytes : List Byte) : State :=
  match l with
  | .hbm _ _ pa => s.noteRead k pa bytes
  | .cluster a => s.seeCls k a bytes.length
  | .stash _ => s

/-- A read at the home, beside every cache, by the agent of a core (R207, R243). -/
def State.homeRead (s : State) (core : Nat) (l : Loc) (n : Nat) : Act (List Byte × Bool × State) :=
  match l with
  | .hbm _ _ pa => if s.claimed pa n then hold s else .ok (rdBytes s.mem pa n, s.poisoned pa n, s)
  | .stash off => do
    let s ← s.readyStash core off n false
    let c := s.coreAt core
    .ok (rdBytes c.stash off n, marked 3 c.stashPoison off n, s)
  | .cluster a => .ok (rdBytes s.cls a n, marked 3 s.clsPoison a n, s)

/-- A write at the home (R204, R209) by an agent positioned at a core, whose L1 drops the sector, so that a later read of
the core is not older than what the agent publishes (R199). `core` owns the stash. -/
def State.homeWrite (s : State) (core : Nat) (l : Loc) (bytes : List Byte) (bad : Bool) : Act State :=
  match l with
  | .hbm _ _ pa =>
    if s.claimed pa bytes.length then hold s
    else .ok ((s.writeHbm pa bytes bad).modCoreAt core fun c => c.dropL1 pa)
  | .stash off => do
    let s ← s.readyStash core off bytes.length true
    .ok (s.stashPut core off bytes bad)
  | .cluster a => .ok ((s.settleCls a bytes.length).writeCls a bytes bad)

/-- One indivisible read and write at the home (R202): the old value, whether the location is poisoned (then
nothing is written, R366), and the state. What is written is published as it performs. The core's own L1 drops the sector. -/
def State.homeAtomic (s : State) (core : Nat) (l : Loc) (n : Nat) (f : Nat → Option Nat) : Act (Nat × Bool × State) := do
  let (bs, bad, s) ← s.homeRead core l n
  let old := leVal bs
  let s : State := match l with
    | .hbm _ _ pa => s.modCoreAt core fun c => c.dropL1 pa
    | _ => s
  if bad then .ok (old, true, s)
  else
    match f old with
    | none => .ok (old, false, s)
    | some v => do
      let s ← s.homeWrite core l (leBytes n v) false
      .ok (old, false, s.publishLoc l n)

/-- An atomic by a context: it follows its own earlier stores to the location, and orders no other access (R202). -/
def State.ctxAtomic (s : State) (k : Nat) (l : Loc) (n : Nat) (f : Nat → Option Nat) : Act (Nat × Bool × State) := do
  let s ← s.drainLoc k l n
  let (old, bad, s) ← s.homeAtomic (coreOfCtx k) l n f
  .ok (old, bad, s.readNote k l (leBytes n old))

/-! ## Scalar accesses of the executing context (R187, R217) -/

/-- Where a scalar element performs: the checks, a wait for an ABSENT page, the range scoreboard (R191), a slot for its
pin (R325). -/
def State.scalarLoc (s : State) (p : Word) (z al : Nat) (write : Bool) (i0 : Word := 0) : Act (Loc × State) :=
  match s.find (s.agentOf s.key) p z al write with
  | (.fail c, _) => raise s c p i0
  | (.bad a, _) => raiseBad s p i0 9 a
  | (.absent a va, s') => s'.waitPage a va
  | (.at_ l, s') =>
    if s'.locStalled s.cur.core l z write || !s'.pinRoom s.cur.core [l] then hold s' else .ok (l, s')

/-- A scalar read: the bytes, or UNCORRECTED at a poisoned byte (R367). -/
def State.scalarRead (s : State) (p : Word) (z al : Nat) (i0 : Word := 0) (nt : Bool := false) :
    Act (List Byte × State) := do
  let (l, s1) ← s.scalarLoc p z al false i0
  let (bs, bad, s2) ← s1.readLoc s.key l z nt
  if bad then raiseBad s p i0 l.mem.1 l.mem.2 else .ok (bs, s2)

/-- A scalar read as a number. -/
def State.scalarVal (s : State) (p : Word) (z : Nat) (i0 : Word := 0) : Act (Nat × State) := do
  let (bs, s) ← s.scalarRead p z z i0
  .ok (leVal bs, s)

/-- A scalar write. -/
def State.scalarWrite (s : State) (p : Word) (z : Nat) (v : Nat) (nt : Bool := false) : Act State := do
  let (l, s1) ← s.scalarLoc p z z true
  s1.storeLoc s.key l (leBytes z v) s1.newAcc (s1.pinsOf s.cur.core [l]) none nt

/-- A scalar atomic: the old value. A poisoned location raises UNCORRECTED and nothing is written (R367). -/
def State.scalarAtomic (s : State) (p : Word) (z al : Nat) (f : Nat → Option Nat) : Act (Nat × State) := do
  let (l, s1) ← s.scalarLoc p z al true
  let (old, bad, s2) ← s1.ctxAtomic s.key l z f
  if bad then raiseBad s p 0 l.mem.1 l.mem.2 else .ok (old, s2)

/-! ## Vector accesses of the executing strip (R175, R187, R216, R217, R169) -/

/-- What an active lane's element is: not part of the access (R215), not stored (R218), at an address, or
faulting on its way there (R251). -/
inductive ElemAddr
  | skip
  | unstored
  | ptr (p : Word)
  | fail (t : Trap)
deriving DecidableEq, Repr

/-- An element of a vector access: its position, indices for the trap registers, and address. -/
structure VElem where
  pos : Nat
  i0 : Word
  i1 : Word
  i2 : Word
  addr : ElemAddr
deriving DecidableEq, Repr

/-- An element that has been checked. -/
inductive Ready
  | at_ (l : Loc)
  | absent (asid : Fin 16) (va : Nat)
  | unstored
deriving DecidableEq, Repr

/-- Causes that the first-fault rule truncates (R169, R175, R367). -/
def Cause.truncates : Cause → Bool
  | .align => true | .noncanon => true | .window => true | .foreignStash => true | .invalidPage => true
  | .protect => true
  | _ => false

/-- The trap of an element that fails a check. -/
def elemTrap (e : VElem) (p : Word) (c : Cause) : Trap :=
  { cause := c, val := p, idx0 := e.i0, idx1 := e.i1, idx2 := e.i2 }

/-- Checks elements in order up to the first that fails: those that passed, and the failure. -/
def State.checkElems (s : State) (a : Agent) (z : Nat) (write : Bool) :
    List VElem → List (VElem × Ready) × Option (Nat × Trap) × State
  | [] => ([], none, s)
  | e :: es =>
    match e.addr with
    | .skip => s.checkElems a z write es
    | .unstored =>
      let r := s.checkElems a z write es
      ((e, .unstored) :: r.1, r.2)
    | .fail t => ([], some (e.pos, t), s)
    | .ptr p =>
      match s.find a p z z write with
      | (.fail c, s) => ([], some (e.pos, elemTrap e p c), s)
      | (.bad m, s) => ([], some (e.pos, { elemTrap e p .uncorrected with mem := 9, addr := m }), s)
      | (.absent d va, s) =>
        let r := s.checkElems a z write es
        ((e, .absent d va) :: r.1, r.2)
      | (.at_ l, s) =>
        let r := s.checkElems a z write es
        ((e, .at_ l) :: r.1, r.2)

/-- SLEN := e for the rest of the strip (R169, R76). -/
def State.truncate (s : State) (e : Nat) : State :=
  (s.modStrip fun t => { t with slen := e }).modCore fun c => c.clearTags s.cur.lc s.lg e

/-- The checks of a vector access as a whole: the elements that perform, in a state whose strip is truncated
when the first-fault rule says so (R169, R175); a stall on the scoreboard (R191) or on a claim (R281) holds, and so does
a lack of slots for its pins (R325).
`home` says that a write performs at its home at once, as an atomic does. -/
def State.vecCheck (s : State) (z : Nat) (write home ff : Bool) (es : List VElem) : Act (List (VElem × Ready) × State) :=
  let r := s.checkElems (s.agentOf s.key) z write es
  let first := (es.filter fun e => e.addr != .skip).head?.map VElem.pos
  let stalls := r.1.any fun x => match x.2 with
    | .at_ l =>
      r.2.2.locStalled s.cur.core l z write ||
      (match l with
       | .hbm _ _ _ => (!write || home) && r.2.2.locHeld s.cur.core l z write
       | _ => r.2.2.locHeld s.cur.core l z write)
    | _ => false
  let stalls := stalls || !r.2.2.pinRoom s.cur.core (r.1.filterMap fun x => match x.2 with
    | .at_ l => some l
    | _ => none)
  match r.2.1 with
  | none => if stalls then hold r.2.2 else .ok (r.1, r.2.2)
  | some (e, t) =>
    if ff && t.cause.truncates && first != some e then
      if stalls then hold r.2.2 else .ok (r.1, r.2.2.truncate e)
    else .error (.trap t s)

/-- Counts an element for hotness when it performs in a frame (R330). -/
def State.count (s : State) (hot : Option Nat) (l : Loc) : State :=
  match hot, l with
  | some k, .hbm _ _ pa => s.owe pa k
  | _, _ => s

/-- Loads the elements of a vector access: a pattern for each; ABSENT and unstored elements read zero. -/
def State.loadElems (s : State) (s0 : State) (z : Nat) (nt : Bool) (hot : Option Nat) :
    List (VElem × Ready) → Act (List (Nat × Nat) × State)
  | [] => .ok ([], s)
  | (e, r) :: es =>
    match r with
    | .at_ l => do
      let (bs, bad, s1) ← s.readLoc s.key l z nt
      let p := match e.addr with
        | .ptr p => p
        | _ => 0
      if bad then
        .error (.trap { cause := .uncorrected, val := p, idx0 := e.i0, idx1 := e.i1, idx2 := e.i2, mem := l.mem.1
                        addr := l.mem.2 } s0)
      else
        let (vs, s2) ← (s1.count hot l).loadElems s0 z nt hot es
        .ok ((e.pos, leVal bs) :: vs, s2)
    | _ => do
      let (vs, s2) ← s.loadElems s0 z nt hot es
      .ok ((e.pos, 0) :: vs, s2)

/-- The locations of the elements of a vector access that perform. -/
def locsOf (es : List (VElem × Ready)) : List Loc :=
  es.filterMap fun x => match x.2 with
    | .at_ l => some l
    | _ => none

/-- Stores the elements of a vector access that pins the given pages, each counted for hotness when it performs (R330);
`data` gives the pattern of a position. -/
def State.storeElems (s : State) (z : Nat) (hot : Option Nat) (acc : Nat) (pages : List Pinned) (nt : Bool) (data : Nat → Nat) :
    List (VElem × Ready) → Act State
  | [] => .ok s
  | (e, r) :: es =>
    match r with
    | .at_ l => do
      let s1 ← s.storeLoc s.key l (leBytes z (data e.pos)) acc pages hot nt
      s1.storeElems z hot acc pages nt data es
    | _ => s.storeElems z hot acc pages nt data es

/-- Applies an atomic to the elements of a vector access (R224). -/
def State.atomicElems (s : State) (s0 : State) (z : Nat) (op : Nat → Nat → Nat) (data : Nat → Nat) :
    List (VElem × Ready) → Act State
  | [] => .ok s
  | (e, r) :: es =>
    match r with
    | .at_ l => do
      let (_, bad, s1) ← s.ctxAtomic s.key l z fun old => some (op old (data e.pos))
      let p := match e.addr with
        | .ptr p => p
        | _ => 0
      if bad then
        .error (.trap { cause := .uncorrected, val := p, idx0 := e.i0, idx1 := e.i1, idx2 := e.i2, mem := l.mem.1
                        addr := l.mem.2 } s0)
      else (s1.count (some 2) l).atomicElems s0 z op data es
    | _ => s.atomicElems s0 z op data es

def Ready.isAbsent : Ready → Bool
  | .absent _ _ => true
  | _ => false

/-- The residency mask of the elements of an access (R187, R216); the ABSENT pages are requested (R326). -/
def State.residency (s : State) (es : List (VElem × Ready)) : State :=
  (es.foldl (fun (s : State) x =>
    match x.2 with
    | .absent asid va => s.postResidency asid va (BitVec.ofNat 32 s.cur.core)
    | _ => s) s).putTags 5 (es.map fun x => (x.1.pos, x.2.isAbsent))

end Sys2Proof.Machine
end

