-- ==== Sys2Proof/Machine/Streams.lean ====
section
/-! DEFINITION. Stream registers (R239 to R242): pops of `strm` and `strmkv`, reading ahead, and the stream
forms. -/

namespace Sys2Proof.Machine

/-! ## Dimensions (R215) -/

/-- Elements of a dimension list. -/
def dimTotal (ds : List Dim) : Nat := ds.foldl (fun n d => n * d.len.toNat) 1

/-- The indices of element e. -/
def dimIndex : List Dim → Nat → List Nat
  | [], _ => []
  | d :: ds, e => (e % d.len.toNat) :: dimIndex ds (e / d.len.toNat)

/-- The offset of element e in elements. -/
def dimOffset : List Dim → Nat → Int
  | [], _ => 0
  | d :: ds, e => (e % d.len.toNat : Nat) * d.stride.toInt + dimOffset ds (e / d.len.toNat)

/-- Dimension registers d0 to dB (R215). -/
def Ctx.dimsTo (c : Ctx) (b : Nat) : List Dim := c.dims.toList.take (b + 1)

/-- base + k, reduced modulo 2^64. -/
def offPtr (base : Word) (k : Int) : Word := base + BitVec.ofInt 64 k

/-! ## Reading for a stream (R207, R240) -/

/-- What reading one element gives. -/
inductive Got
  | val (v : Word)
  | absent (asid : Fin 16) (va : Nat)
  | stop (t : Trap)
  | held

/-- What a stream unit, which is an engine, posts when it finds an ABSENT page (R326). -/
def Got.request (g : Got) (s : State) : State :=
  match g with
  | .absent d va => s.postResidency d va (BitVec.allOnes 32)
  | _ => s

/-- Reads one element at its home, checked for the context that issued the stream, after that context's earlier stores to
it (R207). -/
def State.agentRead (s : State) (a : Agent) (p : Word) (z : Nat) (idx : Word) : Got × State :=
  match s.find a p z z false with
  | (.fail c, _) => (.stop { cause := c, val := p, idx0 := idx }, s)
  | (.bad m, _) => (.stop { cause := .uncorrected, val := p, idx0 := idx, mem := 9, addr := m }, s)
  | (.absent d va, s) => (.absent d va, s)
  | (.at_ l, s) =>
    let read : Act (List Byte × Bool × State) := do
      let s ← match a.issuer with
        | some k => s.drainLoc k l z
        | none => .ok s
      s.homeRead a.core l z
    match read with
    | .ok (bs, bad, s) =>
      if bad then (.stop { cause := .uncorrected, val := p, idx0 := idx, mem := l.mem.1, addr := l.mem.2 }, s)
      else (.val (w64 (leVal bs)), s)
    | .error _ => (.held, s)

/-- Address of element e of a `strm`. -/
def Stream.addr (t : Stream) (e : Nat) : Word := offPtr t.base (dimOffset t.dims e * t.z)

/-- Elements from e on, at most n, up to the first that cannot be read: the elements (nothing for one on an
ABSENT page, which is requested, R326) and what stopped them. -/
def State.strmRead (s : State) (a : Agent) (t : Stream) : (n e : Nat) → List (Nat × List (Option Word)) × Option Got × State
  | 0, _ => ([], none, s)
  | n + 1, e =>
    if dimTotal t.dims ≤ e then ([], none, s)
    else
      let hot := if t.unit then 0 else 1
      match s.agentRead a (t.addr e) t.z (w64 e) with
      | (.val v, s1) =>
        let s2 := match s1.find a (t.addr e) t.z t.z false with
          | (.at_ l, _) => s1.count (some hot) l
          | _ => s1
        let r := s2.strmRead a t n (e + 1)
        ((e, [some v]) :: r.1, r.2)
      | (.absent d va, s1) =>
        let r := ((Got.absent d va).request s1).strmRead a t n (e + 1)
        ((e, [none]) :: r.1, r.2)
      | (g, s1) => ([], some g, s1)

/-! ## Block tables (R241) -/

/-- Blocks of a `strmkv`. -/
def Stream.blocks (t : Stream) : Nat := (t.len + 15) / 16
/-- Address of the table entry of a block. -/
def Stream.entryPtr (t : Stream) (b : Nat) : Word := t.table + w64 (4 * b)
/-- Tokens of a block below L. -/
def Stream.tokens (t : Stream) (b : Nat) : Nat := min 16 (t.len - 16 * b)

/-- The elements of the block that an entry names, from element i on. -/
def State.blockElems (s : State) (a : Agent) (t : Stream) (b entry : Nat) : (n i : Nat) →
    Except Got (List (Option Word)) × State
  | 0, _ => (.ok [], s)
  | n + 1, i =>
    let p := t.base + w64 ((entry * 16 * t.row + i) * t.z)
    match s.agentRead a p t.z (w64 (b * 16 * t.row + i)) with
    | (.val v, s) =>
      let s := match s.find a p t.z t.z false with
        | (.at_ l, _) => s.count (some 1) l
        | _ => s
      match s.blockElems a t b entry n (i + 1) with
      | (.ok vs, s) => (.ok (some v :: vs), s)
      | (.error g, s) => (.error g, s)
    | (g, s) => (.error g, s)

/-- Reads a block whole: its elements below L, or what stops it. -/
def State.readBlock (s : State) (a : Agent) (t : Stream) (b : Nat) : Except Got (List (Option Word)) × State :=
  match s.agentRead a (t.entryPtr b) 4 (w64 b) with
  | (.val v, s) =>
    if v = 0xFFFFFFFF then (.error (.stop { cause := .range, val := v, idx0 := w64 b }), s)
    else s.blockElems a t b v.toNat (t.tokens b * t.row) 0
  | (g, s) => (.error g, s)

/-- Blocks not yet delivered, in table order. -/
def Stream.left (t : Stream) : List Nat := (List.range t.blocks).filter fun b => !t.delivered.contains b

/-- The ABSENT page that a block waits for, if any. -/
def State.blockAbsent (s : State) (a : Agent) (t : Stream) (b : Nat) : Option (Fin 16 × Nat) :=
  match s.readBlock a t b with
  | (.error (.absent d va), _) => some (d, va)
  | _ => none

/-- The block that a pop delivers next, with the stream as it has then found its blocks: the one already chosen, else one of
the present blocks that have not been deferred, in the order in which their reads complete, else the first deferred block
in table order (R241). A block found on an ABSENT page stays deferred, and the page is requested (R326). -/
def State.nextBlock (s : State) (a : Agent) (t : Stream) (left : List Nat) : Nat × Stream × State :=
  match t.chosen with
  | some b => (b, t, s)
  | none =>
    let fresh := left.filter fun b => !t.deferred.contains b
    let here := fresh.filter fun b => (s.blockAbsent a t b).isNone
    let s := (fresh.filterMap (s.blockAbsent a t)).foldl (fun s p => (Got.absent p.1 p.2).request s) s
    let t := { t with deferred := t.deferred ++ fresh.filter fun b => !here.contains b }
    match here with
    | [] => (left.headD 0, t, s)
    | b :: _ => (here.getD (Config.freePick s.ticks % here.length) b, t, s)

/-! ## Pops -/

/-- A status word (R242). -/
def popWord (last : Bool) (count index : Nat) : Word :=
  w64 ((if last then 2 ^ 63 else 0) + count % 65536 * 2 ^ 32 + index % 2 ^ 32)

def Ctx.setStream (c : Ctx) (r : Fin 4) (t : Option Stream) : Ctx := { c with streams := c.streams.set r t r.isLt }

/-- Writes popped elements into the register's field at positions below SLEN, and the status word. -/
def State.popWrite (s : State) (r : Fin 4) (t : Stream) (vs : List (Option Word)) (st : Word) : State :=
  let e := s.ctx.fmap.get (Fin.ofNat 32 (28 + r))
  let f : Fld := { reg := Fin.ofNat 32 (28 + r), ty := entryTy e, col := fmCol e, width := fmWidth e }
  let s := s.putLanes f ((List.range s.slen).map fun i => (i, ((vs.getD i (some 0)).getD 0).toNat))
  let s := s.putTags 5 ((List.range (min s.slen vs.length)).map fun i => (i, (vs.getD i (some 0)).isNone))
  (s.modCtx fun c => c.setStream r (some t)).modStrip fun x => { x with pops := x.pops.set r st r.isLt }

/-- A trap or a wait of a pop: the pop does not advance. The unit reads, and asks for the page that is waited for (R207, R326). -/
def popStop {α : Type} (s : State) (g : Got) : Act α :=
  match g with
  | .stop t => .error (.trap t s)
  | .absent d va => s.waitPage d va true
  | _ => hold s

/-- A pop of `strm` (R240). -/
def State.popStrm (s : State) (r : Fin 4) (t : Stream) : Act State :=
  let n := s.slen
  let have_ := t.ahead.take n
  let res := s.strmRead (s.agentOf s.key) t (n - have_.length) (t.next + have_.length)
  match res.2.1 with
  | some g => popStop s g
  | none =>
    let es := have_ ++ res.1
    let next := t.next + es.length
    .ok (res.2.2.popWrite r { t with next := next, pops := t.pops + 1, ahead := t.ahead.drop n }
      (es.map fun e => e.2.headD none) (popWord (decide (dimTotal t.dims ≤ next)) es.length t.pops))

/-- A pop of `strmkv` (R241). -/
def State.popKv (s : State) (r : Fin 4) (t : Stream) : Act State :=
  match t.ahead with
  | (b, vs) :: rest =>
    let t' := { t with pops := t.pops + 1, ahead := rest, delivered := t.delivered ++ [b], chosen := none }
    .ok (s.popWrite r t' vs (popWord t'.left.isEmpty (t.tokens b) b))
  | [] =>
    match t.left with
    | [] =>
      .ok ({ s with ticks := s.ticks + 1 }.popWrite r { t with pops := t.pops + 1 } []
        (popWord true 0 (Config.freePick s.ticks)))
    | left =>
      let (b, t, s) := s.nextBlock (s.agentOf s.key) t left
      match s.readBlock (s.agentOf s.key) t b with
      | (.error g, _) => popStop (s.modCtx fun c => c.setStream r (some { t with chosen := some b })) g
      | (.ok vs, s1) =>
        let t' := { t with pops := t.pops + 1, delivered := t.delivered ++ [b], chosen := none }
        .ok ({ s1 with ticks := s1.ticks + 1 }.popWrite r t' vs (popWord t'.left.isEmpty (t.tokens b) b))

def State.pop (s : State) (r : Fin 4) : Act State :=
  match s.ctx.streams.get r with
  | none => .ok s
  | some t => if t.kv then s.popKv r t else s.popStrm r t

/-- The stream registers among source operands, once each. -/
def streamRegs (ops : List Operand) : List (Fin 4) :=
  (ops.filterMap fun o =>
    match o with
    | .v n => if 28 ≤ n.val then some (Fin.ofNat 4 (n - 28)) else none
    | _ => none).eraseDups

/-- The pops of an instruction (R240): none outside a body, nor for a row instruction that executes again (R158). A trap or a wait of one undoes those before it. -/
def State.popAll (s : State) (ops : List Operand) : Act State :=
  if (s.strip?.map Strip.popped).getD false then .ok (s.modStrip fun x => { x with popped := false })
  else if s.inBody then
    let r : Act State := (streamRegs ops).foldlM State.pop s
    match r with
    | .error (.trap t s1) => .error (.trap t ((s.withRequests s.cur.core s1).modCtx fun c => c.keepChosen s1.ctx))
    | r => undo s r
  else .ok s

/-! ## Reading ahead -/

/-- The stream unit reads ahead, up to four pops (R240): up to VL elements of a `strm`, or one block. -/
def execStreamReadAhead (core : Fin 320) (lc : Fin 4) (r : Fin 4) (s : State) : Out :=
  let k := ctxNum core lc
  let c := s.ctxAt k
  let a := s.agentOf k
  let vl := (s.coreAt core).vl
  match c.streams.get r with
  | none => .next s
  | some t =>
    if (s.quarter (quarterOf core)).stopped then .next s
    else if t.kv then
      let left := t.left.filter fun b => !(t.ahead.map Prod.fst).contains b
      if left.isEmpty || 4 ≤ t.ahead.length || t.chosen.isSome then .next s
      else
        let (b, t, s) := s.nextBlock a t left
        match s.readBlock a t b with
        | (.ok vs, s1) =>
          .next ({ s1 with ticks := s1.ticks + 1 }.modCtxAt k fun c =>
            c.setStream r (some { t with ahead := t.ahead ++ [(b, vs)] }))
        | (.error g, _) => .next ((g.request s).modCtxAt k fun c => c.setStream r (some t))
    else
      let n := min vl (4 * vl - t.ahead.length)
      let res := s.strmRead a t n (t.next + t.ahead.length)
      if res.1.isEmpty then .next s
      else .next (res.2.2.modCtxAt k fun c => c.setStream r (some { t with ahead := t.ahead ++ res.1 }))

/-! ## The stream forms (R239, R241, R242) -/

/-- The stream register that an operand names, with the checks of R239. -/
def State.streamReg (s : State) (o : Operand) (i : Instr) : Act (Fin 4 × Nat) :=
  let n := vreg o
  let e := s.ctx.fmap.get n
  let w := fmWidth e
  if n.val < 28 then trapOp s .operandClass i
  else if !fmV e then trapField s .operandClass o n
  else if w = 8 || w = 16 || w = 32 || w = 64 then .ok (Fin.ofNat 4 (n - 28), w / 8)
  else trapOp s .operandClass i

def execStrm (c : Ctl) (f : FX) (s : State) : Out :=
  run c s fun s => do
    let (r, z) ← s.streamReg f.opd (.strm c f)
    let b := f.opb.idx
    let ds := s.ctx.dimsTo b
    let unit := b == 0 && (s.ctx.dims.get 0).stride == 1
    .ok (s.modCtx fun x => x.setStream r (some
      { kv := false, base := s.val f.opa, dims := ds, z := z, unit := unit, table := 0, len := 0, row := 0, next := 0
        pops := 0, ahead := [], delivered := [], chosen := none, deferred := [] })).advance

/-- A walk record (R241) as four words. -/
def State.walkRecord (s : State) (p : Word) : Act (List Nat × State) := do
  let (a, s) ← s.scalarVal p 8
  let (b, s) ← s.scalarVal (p + 8) 8
  let (d, s) ← s.scalarVal (p + 16) 8
  let (e, s) ← s.scalarVal (p + 24) 8
  .ok ([a, b, d, e], s)

def execStrmkv (c : Ctl) (f : FX) (s : State) : Out :=
  run c s fun s => do
    let (r, z) ← s.streamReg f.opd (.strmkv c f)
    if r != 0 then trapOp s .operandClass (.strmkv c f)
    else
      let row := f.xf.toNat + 1
      if s.core.vl < 16 * row then trapOp s .range (.strmkv c f)
      else do
        let (ws, s) ← undo s (s.walkRecord (s.val f.opa))
        match ws with
        | [a, b, d, e] =>
          if 2 ^ 32 ≤ b || e != 0 then trapOp s .range (.strmkv c f)
          else
            .ok (s.modCtx fun x => x.setStream r (some
              { kv := true, base := w64 d, dims := [], z := z, unit := false, table := w64 a, len := b, row := row
                next := 0, pops := 0, ahead := [], delivered := [], chosen := none, deferred := [] })).advance
        | _ => .ok s

def execStrmxStop (c : Ctl) (f : FR) (s : State) : Out :=
  run c s fun s => do
    let (r, _) ← s.streamReg f.opa (.strmxStop c f)
    .ok (s.modCtx fun x => x.setStream r none).advance

def execStrmxStat (c : Ctl) (f : FR) (s : State) : Out :=
  run c s fun s => do
    s.checkDest f.opd
    let (r, _) ← s.streamReg f.opa (.strmxStat c f)
    let v := (s.strip?.map fun t => t.pops.get r).getD 0
    .ok (s.putS f.opd v).advance

end Sys2Proof.Machine
end

