-- ==== Sys2Proof/Machine/VecInt.lean ====
section
/-! DEFINITION. Vector setup and vector integer forms (R107 to R116). -/

namespace Sys2Proof.Machine

/-! ## What vector forms share (R108, R109) -/

/-- The last checks of a lanewise form, its pops, and its result in each active lane: overlap (R79), a
destination in stream mode (R239), the pops of its sources (R240). -/
def State.lanewise (s : State) (i : Instr) (o : Operand) (m : Fin 6) (d : Fld) (srcs : List (Operand × Fld))
    (op : Nat → BitVec 512 → BitVec 32 → Rounded) : Act State := do
  s.checkOverlap o d (srcs.map Prod.snd)
  s.checkStream o i
  let s ← s.popAll (srcs.map Prod.fst)
  .ok (s.mapLanes m d op).advance

/-- A form with a mask destination. -/
def State.tagwise (s : State) (o : Operand) (m : Fin 6) (srcs : List Operand) (op : Nat → BitVec 512 → Bool) :
    Act State := do
  let s ← s.popAll srcs
  .ok (s.mapTags m (mreg o) op).advance

/-- An exact integer fitted to a destination (R54). -/
def fitTo (t : NTy) (sat : Bool) (x : Int) (st : BitVec 32) : Rounded :=
  let r := match t with
    | .int sg w => fitInt sg w sat x
    | .flt _ => (0, false)
  { bits := r.1, satur := r.2, st := st }

/-- A bit pattern, cut to w bits. -/
def pattern (w bits : Nat) (st : BitVec 32) : Rounded := { bits := bits % 2 ^ w, satur := false, st := st }

def Fld.int (f : Fld) (r : BitVec 512) : Int := (f.val r).int

/-- A vector integer form of D and A (R113). -/
def int1 (i : Instr) (f : FR) (op : Fld → Fld → BitVec 512 → Int) (s : State) : Act State := do
  s.vecStart i
  let d ← s.field f.opd f.ta f.wid.toNat .int
  let a ← s.field f.opa f.ta f.wid.toNat .int
  s.lanewise i f.opd f.msk d [(f.opa, a)] fun _ r st => fitTo d.ty f.sat (op d a r) st

/-- A vector integer form of D, A and B (R113). -/
def int2 (i : Instr) (f : FR) (op : Fld → Fld → Fld → Nat → BitVec 512 → Int) (s : State) : Act State := do
  s.vecStart i
  let d ← s.field f.opd f.ta f.wid.toNat .int
  let a ← s.field f.opa f.ta f.wid.toNat .int
  let b ← s.field f.opb f.tb 0 .int
  s.lanewise i f.opd f.msk d [(f.opa, a), (f.opb, b)] fun p r st => fitTo d.ty f.sat (op d a b p r) st

/-! ## Setup (R111, R112) -/

/-- `vfmap` writes an entry of the field map. The manual orders none of its checks: here a body comes before a scrub error,
then a register in stream mode, A [63:32] (with the default TRAPVAL), and last R78's check of the entry (with the entry as
TRAPVAL), as the model's choice (assumption log 16). -/
def execVfmap (c : Ctl) (f : FR) (s : State) : Out :=
  run c s fun s => do
    s.outsideBody f.opd
    s.scrubStart
    s.checkStream f.opd (.vfmap c f)
    let a := s.val f.opa
    if a >>> 32 != 0 then trapOp s .range (.vfmap c f)
    else
      let e : BitVec 32 := a.truncate 32
      if entryOk s.ctx.win e then .ok (s.setEntry (vreg f.opd) e).advance
      else raise s .range (e.zeroExtend 64) (w64 (vreg f.opd))

def dreg : Operand → Fin 3
  | .d n => n
  | _ => 0

/-- LEN and STRIDE of a dimension register. The manual orders none of its checks: here a body comes before a scrub error, and
A before B where both are out of range, as the model's choice (assumption log 16). -/
def execVdim (c : Ctl) (f : FR) (s : State) : Out :=
  run c s fun s => do
    s.outsideBody f.opd
    s.scrubStart
    let a := s.val f.opa
    let b := s.val f.opb
    if 2 ^ 32 ≤ a.toNat then raise s .range a
    else if b.toInt < -(2 ^ 31) || 2 ^ 31 ≤ b.toInt then raise s .range b
    else
      let n := dreg f.opd
      let d : Dim := { len := a.truncate 32, stride := b.truncate 32 }
      .ok (s.modCtx fun x => { x with dims := x.dims.set n d n.isLt }).advance

/-- `vsid` and `vidx`: a value of the lane position alone. -/
def laneNumber (i : Instr) (f : FR) (v : State → Nat → Int) (s : State) : Act State := do
  s.vecStart i
  let d ← s.field f.opd f.ta f.wid.toNat .int
  s.lanewise i f.opd f.msk d [] fun p _ st => fitTo d.ty f.sat (v s p) st

def execVsid (c : Ctl) (f : FR) (s : State) : Out :=
  run c s (laneNumber (.vsid c f) f fun s p => s.sidx.toNat + p)
def execVidx (c : Ctl) (f : FR) (s : State) : Out :=
  run c s (laneNumber (.vidx c f) f fun s p => (s.val f.opa).toInt + p * (s.val f.opb).toInt)

/-- The value that `vbcast` converts: all 64 bits of an integer, the low bits of a format (R98). -/
def bcastVal (t : Ty) (a : Word) : Val :=
  match t with
  | .i => .i a.toInt
  | .n => .i a.toNat
  | t => .f (floatIn' t a)
where
  floatIn' (t : Ty) (a : Word) : Num := ((fltOfTy t).getD .f32).val a.toNat

def execVbcast (c : Ctl) (f : FR) (s : State) : Out :=
  run c s fun s => do
    s.vecStart (.vbcast c f)
    let d ← s.field f.opd f.ta f.wid.toNat .any
    let rounds := f.tb != .fm && (d.ty.isFlt || (f.tb != .i && f.tb != .n))
    s.checkRmSat (.vbcast c f) rounds (satType d.ty) f.rm f.sat
    let a := s.val f.opa
    s.lanewise (.vbcast c f) f.opd f.msk d [] fun _ _ st =>
      if f.tb = .fm then pattern d.width a.toNat st
      else d.ty.convert (bcastVal f.tb a) (s.rm f.rm) f.sat st

/-! ## Integer forms (R113) -/

def execVadd (c : Ctl) (f : FR) (s : State) : Out :=
  run c s (int2 (.vadd c f) f fun _ a b _ r => a.int r + b.int r)
def execVsub (c : Ctl) (f : FR) (s : State) : Out :=
  run c s (int2 (.vsub c f) f fun _ a b _ r => a.int r - b.int r)

/-- The scalar B of `vadds` and `vsubs`: signed, or unsigned under TB 0x02. -/
def State.scalarB (s : State) (f : FR) : Int :=
  if f.tb = .n then ((s.val f.opb).toNat : Int) else (s.val f.opb).toInt

def execVadds (c : Ctl) (f : FR) (s : State) : Out :=
  run c s fun s => int1 (.vadds c f) f (fun _ a r => a.int r + s.scalarB f) s
def execVsubs (c : Ctl) (f : FR) (s : State) : Out :=
  run c s fun s => int1 (.vsubs c f) f (fun _ a r => a.int r - s.scalarB f) s
def execVneg (c : Ctl) (f : FR) (s : State) : Out := run c s (int1 (.vneg c f) f fun _ a r => -a.int r)
def execVabs (c : Ctl) (f : FR) (s : State) : Out := run c s (int1 (.vabs c f) f fun _ a r => (a.int r).natAbs)

def execVmul (c : Ctl) (f : FR) (s : State) : Out :=
  run c s (int2 (.vmul c f) f fun _ a b _ r => a.int r * b.int r)
def execVmulh (c : Ctl) (f : FR) (s : State) : Out :=
  run c s (int2 (.vmulh c f) f fun d a b _ r => a.int r * b.int r / ((2 ^ d.width : Nat) : Int))
def execVmac (c : Ctl) (f : FR) (s : State) : Out :=
  run c s (int2 (.vmac c f) f fun d a b _ r => d.int r + a.int r * b.int r)
def execVmin (c : Ctl) (f : FR) (s : State) : Out :=
  run c s (int2 (.vmin c f) f fun _ a b _ r => min (a.int r) (b.int r))
def execVmax (c : Ctl) (f : FR) (s : State) : Out :=
  run c s (int2 (.vmax c f) f fun _ a b _ r => max (a.int r) (b.int r))

/-- A source extended to w bits at its own type, or cut to them (R116). -/
def Fld.extended (f : Fld) (w : Nat) (r : BitVec 512) : Nat := intBits w (f.int r)

/-- A bitwise form of A and B (R116). -/
def bitwise (i : Instr) (f : FR) (op : Nat → Nat → Nat) (s : State) : Act State := do
  s.vecStart i
  let d ← s.field f.opd f.ta f.wid.toNat .int
  let a ← s.field f.opa f.ta f.wid.toNat .int
  let b ← s.field f.opb f.tb 0 .int
  s.lanewise i f.opd f.msk d [(f.opa, a), (f.opb, b)] fun _ r st =>
    pattern d.width (op (a.extended d.width r) (b.extended d.width r)) st

def execVand (c : Ctl) (f : FR) (s : State) : Out := run c s (bitwise (.vand c f) f (· &&& ·))
def execVor (c : Ctl) (f : FR) (s : State) : Out := run c s (bitwise (.vor c f) f (· ||| ·))
def execVxor (c : Ctl) (f : FR) (s : State) : Out := run c s (bitwise (.vxor c f) f (· ^^^ ·))
def execVnot (c : Ctl) (f : FR) (s : State) : Out :=
  run c s fun s => do
    s.vecStart (.vnot c f)
    let d ← s.field f.opd f.ta f.wid.toNat .int
    let a ← s.field f.opa f.ta f.wid.toNat .int
    s.lanewise (.vnot c f) f.opd f.msk d [(f.opa, a)] fun _ r st =>
      pattern d.width (2 ^ d.width - 1 - a.extended d.width r) st

/-! ## Shifts (R115) -/

/-- A shift of A's field by an amount: its exact result. -/
def shiftForm (i : Instr) (f : FR) (op : Fld → BitVec 512 → Nat → Int) (s : State) : Act State := do
  s.vecStart i
  let d ← s.field f.opd f.ta f.wid.toNat .int
  let a ← s.field f.opa f.ta f.wid.toNat .int
  match f.opb with
  | .v _ =>
    let b ← s.field f.opb f.tb 0 .int
    s.lanewise i f.opd f.msk d [(f.opa, a), (f.opb, b)] fun _ r st =>
      fitTo d.ty f.sat (op a r (b.int r % 64).toNat) st
  | _ =>
    let k := (s.val f.opb).toNat % 64
    s.lanewise i f.opd f.msk d [(f.opa, a)] fun _ r st => fitTo d.ty f.sat (op a r k) st

def execVshl (c : Ctl) (f : FR) (s : State) : Out :=
  run c s (shiftForm (.vshl c f) f fun a r k => a.int r * ((2 ^ k : Nat) : Int))
def execVshr (c : Ctl) (f : FR) (s : State) : Out :=
  run c s (shiftForm (.vshr c f) f fun a r k => ((a.get r / 2 ^ k : Nat) : Int))
def execVsar (c : Ctl) (f : FR) (s : State) : Out :=
  run c s (shiftForm (.vsar c f) f fun a r k => a.int r / ((2 ^ k : Nat) : Int))

/-! ## Compare, select, move, convert, count, extract -/

def execVcmp (c : Ctl) (f : FR) (s : State) : Out :=
  run c s fun s => do
    s.vecStart (.vcmp c f)
    let a ← s.field f.opa f.ta f.wid.toNat .int
    match f.opb with
    | .v _ =>
      let b ← s.field f.opb f.tb 0 .int
      s.tagwise f.opd f.msk [f.opa, f.opb] fun _ r => condOf f.sub.toNat (some (compare (a.int r) (b.int r)))
    | _ =>
      let b := (s.val f.opb).toInt
      s.tagwise f.opd f.msk [f.opa] fun _ r => condOf f.sub.toNat (some (compare (a.int r) b))

def execVsel (c : Ctl) (f : FR) (s : State) : Out :=
  run c s fun s =>
    int2 (.vsel c f) f (fun _ a b p r =>
      if tagOf s.cur.lc s.slen (Fin.ofNat 6 f.sub.toNat) p r then a.int r else b.int r) s

def execVmov (c : Ctl) (f : FR) (s : State) : Out :=
  run c s fun s => do
    s.vecStart (.vmov c f)
    let d ← s.field f.opd .fm 0 .any
    let a ← s.field f.opa .fm 0 .any
    s.lanewise (.vmov c f) f.opd f.msk d [(f.opa, a)] fun _ r st => pattern d.width (a.get r) st

def execVcvt (c : Ctl) (f : FR) (s : State) : Out :=
  run c s fun s => do
    s.vecStart (.vcvt c f)
    let d ← s.field f.opd f.ta f.wid.toNat .int
    let a ← s.field f.opa f.tb 0 .int
    s.lanewise (.vcvt c f) f.opd f.msk d [(f.opa, a)] fun _ r st => fitTo d.ty f.sat (a.int r) st

/-- Ones of a pattern of w bits, and its leading zeros. -/
def onesOf (n : Nat) : Nat → Nat
  | 0 => 0
  | w + 1 => n % 2 + onesOf (n / 2) w
def leadingZeros (w n : Nat) : Nat := if n = 0 then w else w - 1 - Nat.log2 n

def execVpopc (c : Ctl) (f : FR) (s : State) : Out :=
  run c s (int1 (.vpopc c f) f fun _ a r => onesOf (a.get r) a.width)
def execVclz (c : Ctl) (f : FR) (s : State) : Out :=
  run c s (int1 (.vclz c f) f fun _ a r => leadingZeros a.width (a.get r))

/-- A bit field of each element (R116). That bits beyond the field are refused (RANGE) before a partial overlap of D and A (R79)
is the model's choice (assumption log 16). -/
def execVbext (c : Ctl) (f : FX) (s : State) : Out :=
  run c s fun s => do
    s.vecStart (.vbext c f)
    let d ← s.field f.opd .fm 0 .int
    let a ← s.field f.opa .fm 0 .int
    if a.width < f.xf.toNat + f.yf.toNat then trapOp s .range (.vbext c f)
    else
      s.lanewise (.vbext c f) f.opd f.msk d [(f.opa, a)] fun _ r st =>
        pattern d.width (intBits d.width (intVal (f.sub != 0) f.yf.toNat (a.get r / 2 ^ f.xf.toNat))) st

end Sys2Proof.Machine
end

