-- ==== Sys2Proof/Machine/VecFloat.lean ====
section
/-! DEFINITION. Vector floating forms and block scales (R117 to R122). -/

namespace Sys2Proof.Machine

/-- The exact value of a field. -/
def Fld.num (f : Fld) (r : BitVec 512) : Num := (f.val r).num

/-- One rounding into a destination (R59, R63). -/
def roundTo (t : NTy) (rm : RMode) (sat : Bool) (x : Num) (st : BitVec 32) : Rounded := t.convert (.f x) rm sat st

/-- A floating form of D and A (R117). -/
def flt1 (i : Instr) (f : FR) (op : Num → Num) (s : State) : Act State := do
  s.vecStart i
  let d ← s.field f.opd f.ta 0 .flt
  let a ← s.field f.opa f.ta 0 .flt
  s.checkRmSat i true (satType d.ty) f.rm f.sat
  let rm := s.rm f.rm
  s.lanewise i f.opd f.msk d [(f.opa, a)] fun _ r st => roundTo d.ty rm f.sat (op (a.num r)) st

/-- A floating form of D, A and B (R117); `op` takes whether the mode is RDN, then D, A and B. -/
def flt2 (i : Instr) (f : FR) (op : Bool → Num → Num → Num → Num) (s : State) : Act State := do
  s.vecStart i
  let d ← s.field f.opd f.ta 0 .flt
  let a ← s.field f.opa f.ta 0 .flt
  let b ← s.field f.opb f.tb 0 .flt
  s.checkRmSat i true (satType d.ty) f.rm f.sat
  let rm := s.rm f.rm
  s.lanewise i f.opd f.msk d [(f.opa, a), (f.opb, b)] fun _ r st =>
    roundTo d.ty rm f.sat (op (rm == .rdn) (d.num r) (a.num r) (b.num r)) st

def execVfadd (c : Ctl) (f : FR) (s : State) : Out := run c s (flt2 (.vfadd c f) f fun rdn _ a b => a.add rdn b)
def execVfsub (c : Ctl) (f : FR) (s : State) : Out := run c s (flt2 (.vfsub c f) f fun rdn _ a b => a.sub rdn b)
def execVfmul (c : Ctl) (f : FR) (s : State) : Out := run c s (flt2 (.vfmul c f) f fun _ _ a b => a.mul b)
def execVffma (c : Ctl) (f : FR) (s : State) : Out :=
  run c s (flt2 (.vffma c f) f fun rdn d a b => (a.mul b).add rdn d)
def execVfmm (c : Ctl) (f : FR) (s : State) : Out :=
  run c s (flt2 (.vfmm c f) f fun _ _ a b => Num.minmax (f.sub == 1) a b)

def execVfcmp (c : Ctl) (f : FR) (s : State) : Out :=
  run c s fun s => do
    s.vecStart (.vfcmp c f)
    let a ← s.field f.opa f.ta 0 .flt
    let b ← s.field f.opb f.tb 0 .flt
    s.tagwise f.opd f.msk [f.opa, f.opb] fun _ r => condOf f.sub.toNat ((a.num r).cmp (b.num r))

def execVfcvt (c : Ctl) (f : FR) (s : State) : Out :=
  run c s fun s => do
    s.vecStart (.vfcvt c f)
    let d ← s.field f.opd f.ta f.wid.toNat .any
    let a ← s.field f.opa f.tb 0 .any
    s.checkRmSat (.vfcvt c f) (d.ty.isFlt || a.ty.isFlt) (satType d.ty) f.rm f.sat
    let rm := s.rm f.rm
    s.lanewise (.vfcvt c f) f.opd f.msk d [(f.opa, a)] fun _ r st => d.ty.convert (a.val r) rm f.sat st

/-- The sign that `vfsgn` gives (R118). -/
def signOf (sub : Nat) (a b : Bool) : Bool :=
  match sub with
  | 0 => b | 1 => !b | 2 => a != b | 3 => false | _ => !a

/-- A pattern of a format with another sign; a NaN becomes the canonical NaN (R56, R118). -/
def signPattern (t : NTy) (bits : Nat) (sign : Bool) : Nat :=
  match t with
  | .flt f =>
    match f.val bits with
    | .nan => f.nanBits.getD 0
    | _ => f.signed sign (bits % 2 ^ (f.width - 1))
  | .int _ _ => bits

/-- The sign bit of a pattern. That the sign of a NaN B is the bit that its encoding holds is the model's choice: R118 says B's
sign, and R56 that every NaN means the same (assumption log 16). -/
def Fld.signBit (f : Fld) (r : BitVec 512) : Bool := decide (2 ^ (f.width - 1) ≤ f.get r)

/-- Sign forms. The manual does not order the check that D and A have the same format and those of B, which come after it
(assumption log 16). -/
def execVfsgn (c : Ctl) (f : FR) (s : State) : Out :=
  run c s fun s => do
    s.vecStart (.vfsgn c f)
    let d ← s.field f.opd f.ta 0 .flt
    let a ← s.field f.opa f.ta 0 .flt
    if d.ty != a.ty then trapOp s .operandClass (.vfsgn c f)
    else if f.sub = 3 || f.sub = 4 then
      s.lanewise (.vfsgn c f) f.opd f.msk d [(f.opa, a)] fun _ r st =>
        pattern d.width (signPattern d.ty (a.get r) (signOf f.sub.toNat (a.signBit r) false)) st
    else
      let b ← s.field f.opb f.tb 0 .flt
      s.lanewise (.vfsgn c f) f.opd f.msk d [(f.opa, a), (f.opb, b)] fun _ r st =>
        pattern d.width (signPattern d.ty (a.get r) (signOf f.sub.toNat (a.signBit r) (b.signBit r))) st

def execVfexp2 (c : Ctl) (f : FR) (s : State) : Out := run c s (flt1 (.vfexp2 c f) f Num.exp2)
def execVfrcp (c : Ctl) (f : FR) (s : State) : Out := run c s (flt1 (.vfrcp c f) f Num.recip)

/-! ## Block scales (R120 to R122) -/

/-- The scale operand of `vfscl`: an integer field of width 12. -/
def State.scaleField (s : State) (o : Operand) (t : Ty) : Act Fld := do
  let b ← s.field o t 0 .int
  if b.width = 12 then .ok b else trapField s .operandClass o b.reg

def execVfscl (c : Ctl) (f : FR) (s : State) : Out :=
  run c s fun s => do
    s.vecStart (.vfscl c f)
    let d ← s.field f.opd f.ta 0 .flt
    let a ← s.field f.opa f.ta 0 .flt
    let b ← s.scaleField f.opb f.tb
    s.checkRmSat (.vfscl c f) true (satType d.ty) f.rm f.sat
    let rm := s.rm f.rm
    s.lanewise (.vfscl c f) f.opd f.msk d [(f.opa, a), (f.opb, b)] fun _ r st =>
      let x := if f.sub = 0 then scaleMul (a.num r) (b.get r) else scaleDiv (a.num r) (b.get r)
      roundTo d.ty rm f.sat x st

/-- Element format and width of an NB8 type. -/
def nb8Elem : Ty → Flt
  | .nb8e2 => .e2m1
  | _ => .e4m3

/-- An NB8 element or scale field: an integer field of the given width, by its entry (R121). -/
def State.rawField (s : State) (o : Operand) (w : Nat) : Act Fld := do
  let e ← s.field o .fm 0 .int
  if e.width = w then .ok e else trapField s .operandClass o e.reg

/-- One block of `.pack` (R122): new elements, the scale and new stochastic states, by position. -/
def packLanes (s : State) (a : Fld) (elem : Flt) (rm : RMode) (is : List Nat) :
    List (Nat × Nat × BitVec 32) × Nat × Bool :=
  let k := s.core
  let x := s.ctx
  let p := packBlock (is.map fun i => ((a.num (k.row (s.lane i))), x.stochAt (s.lane i))) elem rm
  (is.zip p.2.1, p.1, p.2.2)

/-- `.pack` over every block of the strip. -/
def State.packAll (s : State) (m : Fin 6) (e a sc : Fld) (elem : Flt) (rm : RMode) : State :=
  let act := s.active m
  (List.range ((s.slen + 7) / 8)).foldl (fun t j =>
    let is := act.filter fun i => i / 8 == j
    if is.isEmpty then t
    else
      let r := packLanes s a elem rm is
      (((t.putLanes e (r.1.map fun y => (y.1, y.2.1))).putLanes sc (r.1.map fun y => (y.1, r.2.1))).modCtx fun c =>
        r.1.foldl (fun c y => c.setStoch (s.lane y.1) y.2.2) c).sticky .satur r.2.2) s

/-- NB8 packing. Where fields overlap, the trap names OPD whichever pair overlaps: the manual does not say (assumption log
16). -/
def execVfnb8 (c : Ctl) (f : FR) (s : State) : Out :=
  run c s fun s => do
    let i := Instr.vfnb8 c f
    s.vecStart i
    let elem := nb8Elem f.ta
    if f.sub = 0 then
      let e ← s.rawField f.opd elem.width
      let a ← s.field f.opa f.tb 0 .any
      let sc ← s.rawField f.opb 12
      if !(e.disjoint sc && e.disjoint a && sc.disjoint a) then trapField s .operandClass f.opd e.reg
      else do
        s.checkStream f.opd i
        s.checkStream f.opb i
        let s ← s.popAll [f.opa]
        .ok (s.packAll f.msk e a sc elem (s.rm f.rm)).advance
    else
      let d ← s.field f.opd f.tb 0 .any
      let e ← s.rawField f.opa elem.width
      let sc ← s.rawField f.opb 12
      s.checkRmSat i true (satType d.ty) f.rm f.sat
      if !(d.disjoint e && d.disjoint sc) then trapField s .operandClass f.opd d.reg
      else
        let rm := s.rm f.rm
        s.lanewise i f.opd f.msk d [(f.opa, e), (f.opb, sc)] fun _ r st =>
          roundTo d.ty rm f.sat (unpackVal elem (e.get r) (sc.get r)) st

end Sys2Proof.Machine
end

