-- ==== Sys2Proof/Machine/Assoc.lean ====
section
/-! DEFINITION. Search, selection and reduction, and mask logic (R80, R123 to R138; the tree of R69). -/

namespace Sys2Proof.Machine

/-! ## Passes (R80) -/

/-- Combine (R80), coded as R123 gives. -/
def combine (op : Nat) (old hit : Bool) : Bool :=
  match op with
  | 0 => hit | 1 => old && hit | 2 => old || hit | 3 => old && !hit | _ => old != hit

/-- The compare pass on bits lsb to lsb + w − 1 of a field against a key under a care mask, at every row below
SLEN: the new tags. -/
def State.compareTags (s : State) (f : Fld) (lsb w key care : Nat) (src dst : Fin 6) (op : Nat) : List (Nat × Bool) :=
  let c := s.core
  (List.range s.slen).map fun i =>
    let r := c.row (s.lane i)
    let hit := (f.get r / 2 ^ lsb ^^^ key) &&& care &&& (2 ^ w - 1) == 0 && tagOf s.cur.lc s.slen src i r
    (i, combine op (tagOf s.cur.lc s.slen dst i r) hit)

/-- The write pass: the bits of `value` under `enable` into a field of the rows tagged in a mask (R80). -/
def State.writePass (s : State) (f : Fld) (value enable : Nat) (m : Fin 6) : State :=
  let c := s.core
  s.putLanes f ((s.active m).map fun i =>
    let old := f.get (c.row (s.lane i))
    (i, (old ^^^ (old &&& enable)) ||| (value &&& enable)))

/-! ## Search and write (R126 to R128) -/

/-- `asrch` and `asrchr` with their care mask. -/
def searchForm (i : Instr) (f : FX) (care : State → Nat) (s : State) : Act State := do
  s.vecStart i
  let a ← s.field f.opa .fm 0 .any
  let lsb := f.xf.toNat
  let w := f.yf.toNat
  if a.width < lsb + w then trapField s .range f.opa
  else
    let s ← s.popAll [f.opa]
    .ok (s.putTags (mreg f.opd)
      (s.compareTags a lsb w (s.val f.opb).toNat (care s) f.msk (mreg f.opd) f.sub.toNat)).advance

def execAsrch (c : Ctl) (f : FX) (s : State) : Out :=
  run c s (searchForm (.asrch c f) f fun _ => 2 ^ 64 - 1)

/-- The scalar register k after the one that an operand names (R37). -/
def State.nextS (s : State) (o : Operand) (k : Nat) : Word := s.readS (Fin.ofNat 64 (o.idx + k))

def execAsrchr (c : Ctl) (f : FX) (s : State) : Out :=
  run c s (searchForm (.asrchr c f) f fun s => (s.nextS f.opb 1).toNat)

def execAwr (c : Ctl) (f : FX) (s : State) : Out :=
  run c s fun s => do
    s.vecStart (.awr c f)
    let d ← s.field f.opd .fm 0 .any
    let lsb := f.xf.toNat
    let w := f.yf.toNat
    if d.width < lsb + w then trapOp s .range (.awr c f)
    else do
      s.checkStream f.opd (.awr c f)
      .ok (s.writePass d ((s.val f.opb).toNat % 2 ^ w * 2 ^ lsb) ((2 ^ w - 1) * 2 ^ lsb) f.msk).advance

/-- The value of a write pass over the columns that an enable mask selects below w: the k-th of them takes bit k of the value, as
the list W of R128 is indexed in R80 (assumption log 15). -/
def enabledBits (value enable w : Nat) : Nat :=
  ((List.range w).foldl (fun (a : Nat × Nat) j =>
    if enable.testBit j then (a.1 + 1, if value.testBit a.1 then a.2 + 2 ^ j else a.2) else a) (0, 0)).2

def execApass (c : Ctl) (f : FX) (s : State) : Out :=
  run c s fun s => do
    s.vecStart (.apass c f)
    let d ← s.field f.opd .fm 0 .any
    let a ← s.field f.opa .fm 0 .any
    s.checkStream f.opd (.apass c f)
    let s ← s.popAll [f.opa]
    let t : Fin 6 := Fin.ofNat 6 (f.xf.toNat % 8)
    let key := (s.nextS f.opb 0).toNat
    let s1 := s.putTags t
      (s.compareTags a 0 a.width key (s.nextS f.opb 1).toNat f.msk t (f.xf.toNat / 8 % 8))
    let enable := (s.nextS f.opb 3).toNat % 2 ^ d.width
    .ok (s1.writePass d (enabledBits (s.nextS f.opb 2).toNat enable d.width) enable t).advance

/-! ## Counting and locating (R129, R130) -/

/-- The active lanes with tag 1 in a mask. -/
def State.tagged (s : State) (m j : Fin 6) : List Nat :=
  let c := s.core
  (s.active m).filter fun i => tagOf s.cur.lc s.slen j i (c.row (s.lane i))

def execAcnt (c : Ctl) (f : FR) (s : State) : Out :=
  run c s fun s => do
    s.checkDest f.opd
    s.vecStart (.acnt c f)
    .ok (s.putS f.opd (w64 (s.tagged f.msk (mreg f.opa)).length)).advance

def execAfirst (c : Ctl) (f : FR) (s : State) : Out :=
  run c s fun s => do
    s.checkDest f.opd
    s.vecStart (.afirst c f)
    let l := s.tagged f.msk (mreg f.opa)
    let r := if f.sub = 0 then l.head? else l.getLast?
    .ok (s.putS f.opd ((r.map w64).getD (BitVec.allOnes 64))).advance

def execAext (c : Ctl) (f : FX) (s : State) : Out :=
  run c s fun s => do
    s.checkDest f.opd
    s.vecStart (.aext c f)
    let a ← s.field f.opa .fm 0 .any
    let s ← s.popAll [f.opa]
    let act := s.active f.msk
    let lane := if f.sub = 0 then act.head? else act.find? fun i => i == (s.val f.opb).toNat
    let v : Word := match lane with
      | none => 0
      | some i =>
        let r := s.core.row (s.lane i)
        match a.ty with
        | .int _ _ => BitVec.ofInt 64 (a.int r)
        | .flt _ => w64 (a.get r)
    .ok (s.putS f.opd v).advance

/-! ## Selection (R131) -/

/-- The ordering key of a pattern (Table 8-3); nothing for a NaN. -/
def orderKey (t : NTy) (smallest : Bool) (bits : Nat) : Option Nat :=
  let w := t.width
  let b := bits % 2 ^ w
  let top := 2 ^ (w - 1)
  let key : Option Nat := match t with
    | .int true _ => some (b ^^^ top)
    | .int false _ => some b
    | .flt f => if (f.val b).isNaN then none else some (if b < top then b ^^^ top else 2 ^ w - 1 - b)
  if smallest then key.map fun k => 2 ^ w - 1 - k else key

/-- The selection of R131 from bit b − 1 of the keys down: the positions selected. -/
def selectTop : (b : Nat) → (cand : List (Nat × Nat)) → (need : Nat) → List Nat
  | 0, cand, need => (cand.take need).map Prod.fst
  | b + 1, cand, need =>
    let t := cand.filter fun x => x.2.testBit b
    if t.length ≤ need then
      t.map Prod.fst ++ selectTop b (cand.filter fun x => !x.2.testBit b) (need - t.length)
    else selectTop b t need

def execAtopk (c : Ctl) (f : FX) (s : State) : Out :=
  run c s fun s => do
    s.vecStart (.atopk c f)
    let a ← s.field f.opa .fm 0 .any
    let s ← s.popAll [f.opa]
    let k := s.core
    let cand := (s.active f.msk).filterMap fun i =>
      (orderKey a.ty (f.sub == 1) (a.get (k.row (s.lane i)))).map fun key => (i, key)
    let sel := selectTop a.width cand (s.val f.opb).toNat
    .ok (s.putTags (mreg f.opd) ((List.range s.slen).map fun i => (i, sel.contains i))).advance

/-! ## Distances and hashes (R132, R133) -/

def execAhamm (c : Ctl) (f : FR) (s : State) : Out :=
  run c s fun s => do
    s.vecStart (.ahamm c f)
    let d ← s.field f.opd f.ta f.wid.toNat .int
    let a ← s.field f.opa .fm 0 .any
    let b := (s.val f.opb).toNat
    s.lanewise (.ahamm c f) f.opd f.msk d [(f.opa, a)] fun _ r st =>
      fitTo d.ty f.sat (onesOf (a.get r ^^^ b) a.width) st

/-- The order g of the segments that an operand names. -/
def segOrder : Operand → Nat
  | .imm i => i.toNat
  | _ => 0

/-- The leaders of the segments of a strip. -/
def leaders (slen g : Nat) : List Nat := (List.range slen).filter fun i => i % 2 ^ g == 0

/-- That the width of D is asked for after its window and after the checks of A is the model's choice (R133 gives no order;
assumption log 16). -/
def execVhash (c : Ctl) (f : FR) (s : State) : Out :=
  run c s fun s => do
    s.vecStart (.vhash c f)
    let d ← s.field f.opd .fm 0 .int
    let a ← s.field f.opa .fm 0 .int
    if d.width != 64 then trapField s .operandClass f.opd d.reg
    else do
      s.checkOverlap f.opd d [a]
      s.checkStream f.opd (.vhash c f)
      let s ← s.popAll [f.opa]
      let k := s.core
      let act := s.active f.msk
      let g := segOrder f.opb
      .ok (s.putLanes d ((leaders s.slen g).map fun l =>
        (l, (((act.filter fun i => decide (l ≤ i ∧ i < l + 2 ^ g)).foldl
          (fun h i => hMix h (w64 (a.get (k.row (s.lane i))))) (w64 (d.get (k.row (s.lane l)))))).toNat))).advance

/-! ## Reductions (R69, R134 to R136) -/

/-- A node of the tree: its value, its pattern when it has been rounded, and the lowest active lane under it. -/
structure Node where
  val : Num
  bits : Option Nat
  lane : Nat
deriving DecidableEq, Repr

/-- What a floating reduction carries: the context, for its stochastic states, and whether SATUR is set. -/
structure TreeSt where
  ctx : Ctx
  satur : Bool

/-- Rounds a node's value, with the stochastic state of its lane (R69). -/
def roundNode (f : Flt) (rm : RMode) (sat : Bool) (x : Num) (lane : Nat) (t : TreeSt) : Node × TreeSt :=
  let r := f.round x rm sat (t.ctx.stochAt lane)
  ({ val := f.val r.bits, bits := some r.bits, lane := lane },
   { ctx := t.ctx.setStoch lane r.st, satur := t.satur || r.satur })

/-- One level of the tree. -/
def treeLevel (f : Flt) (rm : RMode) (sat : Bool) : List (Option Node) → TreeSt → List (Option Node) × TreeSt
  | x :: y :: rest, t =>
    match x, y with
    | some a, some b =>
      let n := roundNode f rm sat (a.val.add (rm == .rdn) b.val) a.lane t
      let r := treeLevel f rm sat rest n.2
      (some n.1 :: r.1, r.2)
    | a, none => let r := treeLevel f rm sat rest t; (a :: r.1, r.2)
    | none, b => let r := treeLevel f rm sat rest t; (b :: r.1, r.2)
  | l, t => (l, t)

/-- The root of a segment of order g: its pattern, +0 when no lane is active. -/
def treeRoot (f : Flt) (rm : RMode) (sat : Bool) : (g : Nat) → List (Option Node) → TreeSt → Nat × TreeSt
  | g + 1, l, t => let r := treeLevel f rm sat l t; treeRoot f rm sat g r.1 r.2
  | 0, l, t =>
    match l.head? with
    | some (some n) =>
      match n.bits with
      | some b => (b, t)
      | none => let r := roundNode f rm sat n.val n.lane t; (r.1.bits.getD 0, r.2)
    | _ => (0, t)

/-- The leaves of positions lo to hi − 1. -/
def State.leaves (s : State) (a : Fld) (m : Fin 6) (lo hi : Nat) : List (Option Node) :=
  let c := s.core
  ((List.range (hi - lo)).map (· + lo)).map fun i =>
    let r := c.row (s.lane i)
    if tagOf s.cur.lc s.slen m i r then some { val := a.num r, bits := none, lane := s.lane i } else none

/-- The exact sum of the active lanes from lo to hi − 1 of an integer field. -/
def State.intSum (s : State) (a : Fld) (m : Fin 6) (lo hi : Nat) : Int :=
  let c := s.core
  ((s.active m).filter fun i => decide (lo ≤ i ∧ i < hi)).foldl (fun n i => n + a.int (c.row (s.lane i))) 0

/-- The result of one segment in a type: its pattern, with the states and SATUR that follow. -/
def State.segment (s : State) (a : Fld) (t : NTy) (m : Fin 6) (rm : RMode) (sat : Bool) (g lo hi : Nat)
    (st : TreeSt) : Nat × TreeSt :=
  match t with
  | .int sg w =>
    let r := fitInt sg w sat (s.intSum a m lo hi)
    (r.1, { st with satur := st.satur || r.2 })
  | .flt f => treeRoot f rm sat g (s.leaves a m lo hi) st

/-- Segmented reductions. -/
def execAsred (c : Ctl) (f : FR) (s : State) : Out :=
  run c s fun s => do
    let i := Instr.asred c f
    s.vecStart i
    let d ← s.field f.opd f.ta 0 .any
    let a ← s.field f.opa f.ta 0 .any
    if d.ty.isFlt != a.ty.isFlt then trapOp s .operandClass i
    else do
      s.checkRmSat i d.ty.isFlt (satType d.ty) f.rm f.sat
      s.checkOverlap f.opd d [a]
      s.checkStream f.opd i
      let s ← s.popAll [f.opa]
      let g := segOrder f.opb
      let rm := s.rm f.rm
      let res := (leaders s.slen g).foldl (fun (acc : List (Nat × Nat) × TreeSt) l =>
        let r := s.segment a d.ty f.msk rm f.sat g l (min (l + 2 ^ g) s.slen) acc.2
        (acc.1 ++ [(l, r.1)], r.2)) ([], { ctx := s.ctx, satur := false })
      let s1 := (s.modCtx fun _ => res.2.ctx).sticky .satur res.2.satur
      .ok ((s1.putLanes d ((List.range s.slen).map fun i => (i, 0))).putLanes d res.1).advance

/-- The result type of `ared` (R135); nothing for a mismatch. -/
def aredType (tb : Ty) (a : NTy) : Option NTy :=
  match tb, a with
  | .fm, .int sg _ => some (.int sg 64)
  | .fm, .flt f => some (.flt f)
  | .i, .int _ _ => some (.int true 64)
  | .n, .int _ _ => some (.int false 64)
  | t, .flt _ => (fltOfTy t).map .flt
  | _, _ => none

/-- One strip's result combined into the loop sum of a register (R136). -/
def Ctx.loopAdd (c : Ctx) (d : Fin 64) (t : NTy) (rm : RMode) (sat : Bool) (bits : Nat) : Ctx × Bool :=
  match c.loop with
  | none => (c, false)
  | some l =>
    let old := (lookD l.sums d (c.s.get d)).toNat
    let st := c.stochAt scalarLane
    let r : Rounded := match t with
      | .int sg w => fitTo (.int sg w) sat (intVal sg w old + intVal sg w bits) st
      | .flt f => f.round ((f.val old).add (rm == .rdn) (f.val bits)) rm sat st
    ({ c with loop := some { l with sums := put l.sums d (w64 r.bits) } }.setStoch scalarLane r.st, r.satur)

/-- `ared` sums a segment, `ared.loop` adds it to a loop sum. That a D of `ared.loop` outside s1 to s31 is a check made under
the guard, and no decode fate which a false guard would meet too, is the model's choice (assumption logs 14 and 15). -/
def execAred (c : Ctl) (f : FR) (s : State) : Out :=
  run c s fun s => do
    let i := Instr.ared c f
    let isLoop := f.sub == 1
    if isLoop && !isShared f.opd then trapOp s .operandClass i
    else do
      if isLoop then .ok () else s.checkDest f.opd
      s.vecStart i
      let a ← s.field f.opa f.ta 0 .any
      match aredType f.tb a.ty with
      | none => trapOp s .operandClass i
      | some t => do
        s.checkRmSat i t.isFlt (satType t) f.rm f.sat
        let s ← s.popAll [f.opa]
        if !s.inBody then .ok (if isLoop then s else s.putS f.opd 0).advance
        else
          let rm := s.rm f.rm
          let r := s.segment a t f.msk rm f.sat 12 0 s.slen { ctx := s.ctx, satur := false }
          let s1 := (s.modCtx fun _ => r.2.ctx).sticky .satur r.2.satur
          if isLoop then
            let u := s1.ctx.loopAdd (Fin.ofNat 64 f.opd.idx) t rm f.sat r.1
            .ok ((s1.modCtx fun _ => u.1).sticky .satur u.2).advance
          else .ok (s1.putS f.opd (w64 r.1)).advance

/-! ## Mask logic (R137) -/

/-- A mask form: a function of two tags, in each active lane. -/
def maskOp (i : Instr) (f : FR) (op : Bool → Bool → Bool) (s : State) : Act State := do
  s.vecStart i
  let tag := fun (o : Operand) p r => tagOf s.cur.lc s.slen (mreg o) p r
  s.tagwise f.opd f.msk [] fun p r => op (tag f.opa p r) (tag f.opb p r)

def execMand (c : Ctl) (f : FR) (s : State) : Out := run c s (maskOp (.mand c f) f (· && ·))
def execMor (c : Ctl) (f : FR) (s : State) : Out := run c s (maskOp (.mor c f) f (· || ·))
def execMxor (c : Ctl) (f : FR) (s : State) : Out := run c s (maskOp (.mxor c f) f (· != ·))
def execMnot (c : Ctl) (f : FR) (s : State) : Out := run c s (maskOp (.mnot c f) f fun a _ => !a)

end Sys2Proof.Machine
end

