-- ==== Sys2Proof/Machine/Handles.lean ====
section
/-! DEFINITION. Tensor handles, lookups, computed patterns and generators (R248 to R264, R49, R51, R52). -/

namespace Sys2Proof.Machine

/-! ## Reading through the instruction's own agent -/

/-- Actions that read memory and so pass the state on. -/
abbrev Rd := StateT State (Except Stop)

/-- One element read: checks, waits and errors of a scalar read (R251); `i0` is the index of its trap. -/
def rd (p : Word) (z : Nat) (i0 : Word) : Rd Nat := fun s => s.scalarVal p z i0

/-- A trap of a run or of a check. -/
def stopRd {α : Type} (cause : Cause) (val i0 : Word) : Rd α := fun s => raise s cause val i0

/-! ## Descriptors (R249, R250) -/

abbrev Handle := BitVec 512

def hNlev (h : Handle) : Nat := bitsAt h 8 2
def hEtype (h : Handle) : Nat := bitsAt h 0 5
def hFmt (h : Handle) (l : Nat) : Nat := bitsAt h (16 + 3 * l) 3
def hDim (h : Handle) (l : Nat) : Nat := bitsAt h (64 + 32 * l) 32
def hPtr (h : Handle) (l : Nat) : Word := h.extractLsb' (192 + 64 * l) 64
def hAux (h : Handle) (l : Nat) : Nat := bitsAt h (384 + 32 * l) 32
def hWord (h : Handle) (n : Nat) : Word := h.extractLsb' (64 * n) 64
/-- KIND, NPP and NW of a pattern level. -/
def hKind (h : Handle) (l : Nat) : Nat := bitsAt h (384 + 32 * l + 28) 4
def hNpp (h : Handle) (l : Nat) : Nat := bitsAt h (384 + 32 * l + 16) 12
def hNw (h : Handle) (l : Nat) : Nat := bitsAt h (384 + 32 * l) 16

/-- The product of the extents of levels 0 to n − 1. -/
def hProd (h : Handle) (n : Nat) : Nat := (List.range n).foldl (fun p l => p * hDim h l) 1

/-- The pattern level, when the handle has one. -/
def hPattern (h : Handle) : Option Nat :=
  let n := hNlev h
  if 2 ≤ n && hFmt h (n - 1) == 4 then some (n - 1) else none

/-- A level below NLEV (R250, Table 15-2). -/
def levelOk (h : Handle) (l : Nat) : Bool :=
  let p := (hPtr h l).toNat
  let a := hAux h l
  1 ≤ hDim h l &&
  match hFmt h l with
  | 0 => p == 0 && a == 0
  | 1 => p % 4 == 0 && a % 4 == 0
  | 2 => p % 4 == 0 && a == 0
  | 3 => a == 0
  | 4 => p % 4 == 0 && hKind h l ≤ 5 && 1 ≤ hNpp h l && (hKind h l == 0 || hNw h l == 0) &&
         l + 1 == hNlev h && 1 ≤ l && (List.range l).all fun k => hFmt h k == 0
  | _ => false

/-- What `hld` accepts (R250). -/
def handleOk (h : Handle) : Bool :=
  if hNlev h = 0 then h == 0
  else
    1 ≤ hEtype h && hEtype h ≤ 8 && bitsAt h 480 32 == 0 && bitsAt h 160 32 == 0 && bitsAt h 25 7 == 0 &&
    bitsAt h 10 6 == 0 && bitsAt h 5 3 == 0 &&
    (List.range 3).all fun l =>
      if l < hNlev h then levelOk h l
      else hFmt h l == 0 && hDim h l == 0 && hPtr h l == 0 && hAux h l == 0

/-! ## Pattern programs (R49, R51, R52, R258, R259) -/

/-- Bits [27:0] that each operation uses (Table 15-5). -/
def patternUses (op : Nat) : Nat :=
  let d := 7 * 2 ^ 25
  let a := 7 * 2 ^ 22
  let b := 7 * 2 ^ 19
  let i := 2 ^ 19 - 1
  match op with
  | 0x0 => 0 | 0x1 => d + i | 0x2 => d + 15 | 0x4 => d + a + i | 0x7 => d + a + 63 | 0xC => a + b + i
  | 0xD => a | 0xE => 0 | 0xF => d + a + b + 1 | _ => d + a + b

/-- A word that R51 calls bad. -/
def patternBad (w : Nat) : Bool :=
  let low := w % 2 ^ 28
  (low ^^^ (low &&& patternUses (w / 2 ^ 28))) != 0

/-- The words of a program, from word k on. -/
def readWords (p : Word) (i0 : Word) : (n k : Nat) → Rd (List Nat)
  | 0, _ => pure []
  | n + 1, k => do
    let w ← rd (p + w64 (4 * k)) 4 i0
    let ws ← readWords p i0 n (k + 1)
    pure (w :: ws)

/-- The program of a KIND 0 level, checked whole in ascending order (R51, R52). -/
def checkProgram (h : Handle) (l : Nat) (i0 : Word) : Rd Unit :=
  let rec go : (n k : Nat) → Rd Unit
    | 0, _ => pure ()
    | n + 1, k => do
      let w ← rd (hPtr h l + w64 (4 * k)) 4 i0
      if patternBad w then stopRd .patternProgram (w64 w) (w64 k) else go n (k + 1)
  if hNw h l = 0 then stopRd .patternProgram 0 0 else go (hNw h l) 0

/-- Parameter k of a pattern level. -/
def param (h : Handle) (l : Nat) (k : Nat) (i0 : Word) : Rd Nat := rd (hPtr h l + w64 (4 * hNw h l + 4 * k)) 4 i0

/-- The registers and emissions of a running program. -/
structure Run where
  x : Vector Word 8
  out : List Int

def Run.get (r : Run) (n : Nat) : Word := r.x.get (Fin.ofNat 8 n)
def Run.set (r : Run) (n : Nat) (v : Word) : Run := { r with x := r.x.set (n % 8) v (Nat.mod_lt _ (by decide)) }

/-- The two-register operations (Table 15-5). -/
def patternAlu (op : Nat) (a b : Word) : Word :=
  match op with
  | 0x3 => a + b | 0x5 => a - b | 0x6 => a * b | 0x8 => a &&& b
  | 0x9 => if b.slt a then b else a
  | 0xA => if a.slt b then b else a
  | _ => hMix a b

/-- Executes a program from word pc (R258): the emissions and the word that ended it. `last` is the word executed
last; `sub` reads an element of a sub-handle's set (`wsubh`). -/
def runWords (h : Handle) (i0 : Word) (l : Nat) (ws : List Nat) (arg : Word)
    (sub : (second : Bool) → (x i : Word) → Rd Word) : (fuel : Nat) → (pc last : Nat) → Run → Rd (List Int × Nat)
  | 0, pc, last, _ => stopRd .patternProgram (w64 (if pc < ws.length then pc else last)) arg
  | fuel + 1, pc, last, r =>
    match ws[pc]? with
    | none => stopRd .patternProgram (w64 last) arg
    | some w =>
      let op := w / 2 ^ 28
      let d := w / 2 ^ 25 % 8
      let a := r.get (w / 2 ^ 22)
      let b := r.get (w / 2 ^ 19)
      let imm : BitVec 19 := BitVec.ofNat 19 w
      let si : Word := imm.signExtend 64
      let next := runWords h i0 l ws arg sub fuel
      match op with
      | 0x0 => pure (r.out, pc)
      | 0xE => pure (r.out, pc)
      | 0x1 => next (pc + 1) pc (r.set d si)
      | 0x2 => do
        let v ← param h l (w % 16) i0
        next (pc + 1) pc (r.set d (w64 v))
      | 0x4 => next (pc + 1) pc (r.set d (a + si))
      | 0x7 => next (pc + 1) pc (r.set d (a >>> (w % 64)))
      | 0xC =>
        if a.slt b then
          let t := (pc : Int) + imm.toInt
          if t < 0 || (ws.length : Int) ≤ t then stopRd .patternProgram (w64 pc) arg else next t.toNat pc r
        else next (pc + 1) pc r
      | 0xD =>
        if 8192 ≤ r.out.length then stopRd .patternProgram (w64 pc) arg
        else next (pc + 1) pc { r with out := r.out ++ [a.toInt] }
      | 0xF => do
        let v ← sub (w % 2 == 1) a b
        next (pc + 1) pc (r.set d v)
      | op => next (pc + 1) pc (r.set d (patternAlu op a b))

/-! ## Canonical patterns (R256, Table 15-4) -/

/-- Values kept, sorted without repeats. -/
def sortedSet (lim : Nat) (vs : List Int) : List Nat :=
  vs.foldl (fun l (v : Int) => if 0 ≤ v ∧ v < (lim : Int) then setAdd l v.toNat else l) []

/-- The values from lo up to hi − 1 below lim; at most NPP + 1 of them, which is enough to pass the limit. -/
def rangeSet (npp lim : Nat) (lo hi : Int) : List Nat :=
  let a := lo.toNat
  let b := min hi.toNat lim
  (List.range (min (b - a) (npp + 1))).map (· + a)

/-- A forward or inverse set of KIND 1, 2, 3 or 5; nothing when a parameter lies outside Table 15-4. -/
def canonSet (kind npp lim : Nat) (inverse : Bool) (x : Nat) (p0 p1 p2 : Nat) : Option (List Nat) :=
  match kind with
  | 1 =>
    if inverse then some (rangeSet npp lim ((x : Int) - p1) ((x : Int) + p0 + 1))
    else some (rangeSet npp lim ((x : Int) - p0) ((x : Int) + p1 + 1))
  | 2 =>
    if p0 = 0 || 4095 < p0 || p1 = 0 then none
    else
      let o := (BitVec.ofNat 32 p2).toInt
      some (sortedSet lim ((List.range p0).map fun (j : Nat) =>
        if inverse then (x : Int) - o - j * p1 else (x : Int) + o + j * p1))
  | 3 =>
    if p0 = 0 || p1 = 0 then none
    else
      let n := if inverse then p1 else p0
      let m := if inverse then p0 else p1
      some (rangeSet npp lim ((x / n * m : Nat) : Int) ((x / n * m + m : Nat) : Int))
  | _ =>
    if p0 = 0 || 4095 < p0 then none
    else
      some (sortedSet lim ((List.range p0).map fun j =>
        ((hMix (w64 (p2 * 2 ^ 32 + p1)) (w64 (x * 2 ^ 32 + j))).toNat % lim : Nat)))

/-- The set of a KIND 1, 2, 3 or 5 level whose parameters keep Table 15-4 (R257). -/
def canonTry (h : Handle) (i0 : Word) (l : Nat) (inverse : Bool) (x : Nat) : Rd (List Nat) := do
  let p0 ← param h l 0 i0
  let p1 ← param h l 1 i0
  let p2 ← if hKind h l = 2 || hKind h l = 5 then param h l 2 i0 else pure 0
  match canonSet (hKind h l) (hNpp h l) (if inverse then hProd h l else hDim h l) inverse x p0 p1 p2 with
  | none => stopRd .patternProgram (hPtr h l) (w64 x)
  | some s => pure s

/-- A run of such a level, which keeps at most NPP coordinates (R258). -/
def canonRun (h : Handle) (i0 : Word) (l : Nat) (inverse : Bool) (x : Nat) : Rd (List Nat) := do
  let s ← canonTry h i0 l inverse x
  if hNpp h l < s.length then stopRd .patternProgram (w64 (hAux h l)) (w64 x) else pure s

/-! ## Lookup (R251) -/

/-- Coordinates of element e, level 0 first. -/
def coords (h : Handle) : (n e : Nat) → List Nat
  | 0, _ => []
  | n + 1, e => coords h n (e / hDim h n) ++ [e % hDim h n]

/-- The lowest q from lo on, n of them, with CRD[q] = c. -/
def findCrd (crd : Word) (c : Nat) (i0 : Word) : (n q : Nat) → Rd (Option Nat)
  | 0, _ => pure none
  | n + 1, q => do
    let v ← rd (crd + w64 (4 * q)) 4 i0
    if v = c then pure (some q) else findCrd crd c i0 n (q + 1)

/-- Ones among the n bitmap bytes from byte k on. -/
def countBytes (p : Word) (i0 : Word) : (n k : Nat) → Rd Nat
  | 0, _ => pure 0
  | n + 1, k => do
    let v ← rd (p + w64 k) 1 i0
    let m ← countBytes p i0 n (k + 1)
    pure (onesOf v 8 + m)

/-- One level: the position below it, or nothing when the coordinate is not stored. -/
def level (h : Handle) (i0 : Word) (run : (l p : Nat) → Rd (List Nat)) (l p c : Nat) : Rd (Option Nat) :=
  let ptr := hPtr h l
  match hFmt h l with
  | 0 => pure (some (p * hDim h l + c))
  | 1 => do
    let lo ← rd (ptr + w64 (4 * p)) 4 i0
    let hi ← rd (ptr + w64 (4 * p + 4)) 4 i0
    findCrd (ptr + w64 (hAux h l)) c i0 (hi - lo) lo
  | 2 => do
    let v ← rd (ptr + w64 (4 * p)) 4 i0
    pure (if v = c then some p else none)
  | 3 => do
    let t := p * hDim h l + c
    let b ← rd (ptr + w64 (t / 8)) 1 i0
    if b.testBit (t % 8) then
      let n ← countBytes ptr i0 (t / 8) 0
      pure (some (n + onesOf b (t % 8)))
    else pure none
  | _ => do
    let s ← run l p
    match s.findIdx? (· == c) with
    | some k => pure (some (p * hNpp h l + k))
    | none => pure none

/-- `Lookup` over the given coordinates from level l on. -/
def lookupFrom (h : Handle) (i0 : Word) (run : (l p : Nat) → Rd (List Nat)) : (cs : List Nat) → (l p : Nat) →
    Rd (Option Nat)
  | [], _, p => pure (some p)
  | c :: cs, l, p => do
    match ← level h i0 run l p c with
    | none => pure none
    | some q => lookupFrom h i0 run cs (l + 1) q

/-- `Lookup` with a given way to run a pattern level. -/
def lookupWith (h : Handle) (i0 : Word) (run : (l p : Nat) → Rd (List Nat)) (e : Nat) : Rd (Option Nat) :=
  let n := hNlev h
  if n = 0 || hProd h n ≤ e then pure none else lookupFrom h i0 run (coords h n e) 0 0

/-! ## Sub-handles (R257) -/

/-- Words of 8 bytes from a pointer on, as one number. -/
def readLong (p : Word) (i0 : Word) : (n k : Nat) → Rd Nat
  | 0, _ => pure 0
  | n + 1, k => do
    let v ← rd (p + w64 (8 * k)) 8 i0
    let m ← readLong p i0 n (k + 1)
    pure (v + 2 ^ 64 * m)

def subOk (h : Handle) : Bool :=
  handleOk h && hNlev h == 2 && hFmt h 0 == 0 && !(hFmt h 1 == 4 && (hKind h 1 == 0 || hKind h 1 == 4))

/-- Reads a sub-handle, which must pass R257. -/
def subHandle (p : Word) (i0 arg : Word) : Rd Handle := do
  if p.toNat % 64 != 0 then stopRd .patternProgram p arg
  else
    let v ← readLong p i0 8 0
    let h : Handle := BitVec.ofNat 512 v
    if subOk h then pure h else stopRd .patternProgram p arg

/-- S_X(i): the level-1 coordinates that a sub-handle stores for parent i, sorted. -/
def subSet (h : Handle) (i0 : Word) (i : Nat) : Rd (List Nat) :=
  if hDim h 0 ≤ i then pure []
  else if hFmt h 1 = 4 then canonRun h i0 1 false i
  else
    (List.range (hDim h 1)).filterM fun j => do
      let r ← lookupWith h i0 (fun l p => canonRun h i0 l false p) (i * hDim h 1 + j)
      pure r.isSome

/-- T_X(j): the parents whose set holds j. -/
def subParents (h : Handle) (i0 : Word) (j : Nat) : Rd (List Nat) :=
  if hDim h 1 ≤ j then pure []
  else if hFmt h 1 = 4 then canonRun h i0 1 true j
  else
    (List.range (hDim h 0)).filterM fun i => do
      let r ← lookupWith h i0 (fun l p => canonRun h i0 l false p) (i * hDim h 1 + j)
      pure r.isSome

/-- The pointers of the two sub-handles of a KIND 4 level, in P0 to P3. -/
def kronPtrs (h : Handle) (i0 : Word) (l : Nat) : Rd (Word × Word) := do
  let p0 ← param h l 0 i0
  let p1 ← param h l 1 i0
  let p2 ← param h l 2 i0
  let p3 ← param h l 3 i0
  pure (w64 (p0 + 2 ^ 32 * p1), w64 (p2 + 2 ^ 32 * p3))

/-- A run of a KIND 4 level (Table 15-4). -/
def kronRun (h : Handle) (i0 : Word) (l : Nat) (inverse : Bool) (x : Nat) : Rd (List Nat) := do
  let i := w64 x
  let (pa, pb) ← kronPtrs h i0 l
  let rb ← param h l 4 i0
  let cb ← param h l 5 i0
  if rb = 0 || cb = 0 then stopRd .patternProgram (hPtr h l) i
  else
    let a ← subHandle pa i0 i
    let b ← subHandle pb i0 i
    let lim := if inverse then hProd h l else hDim h l
    let n := if inverse then cb else rb
    let m := if inverse then rb else cb
    let sa ← if inverse then subParents a i0 (x / n) else subSet a i0 (x / n)
    let sb ← if inverse then subParents b i0 (x % n) else subSet b i0 (x % n)
    pure (sortedSet lim (sa.flatMap fun ja => (sb.filter (· < m)).map fun jb => ((ja * m + jb : Nat) : Int)))

/-- `wsubh` (R259): the element at an index of the sorted set of a sub-handle. -/
def subElement (h : Handle) (i0 : Word) (l : Nat) (arg : Word) (second : Bool) (x i : Word) : Rd Word := do
  let k := if second then 10 else 8
  let lo ← param h l k i0
  let hi ← param h l (k + 1) i0
  let sh ← subHandle (w64 (lo + 2 ^ 32 * hi)) i0 arg
  let s ← subSet sh i0 x.toNat
  pure ((s[i.toNat]?.map w64).getD (BitVec.allOnes 64))

/-! ## Runs (R256, R258) -/

/-- Registers at the start of a run. -/
def Run.start (x0 x1 : Word) : Run :=
  { x := Vector.ofFn fun i => if i = 0 then x0 else if i = 1 then x1 else 0, out := [] }

/-- A run of the pattern level l for r, or inversely for c; the set and the NPP limit. `i0` is the index of the
element that needs the run (R251). -/
def runPattern (h : Handle) (i0 : Word) (inverse : Bool) (l x : Nat) : Rd (List Nat) := do
  let arg := w64 x
  let lim := if inverse then hProd h l else hDim h l
  if hKind h l = 0 then
    let ws ← readWords (hPtr h l) i0 (hNw h l) 0
    let start := if inverse then (ws.findIdx fun w => w / 2 ^ 28 == 0xE) + 1 else 0
    let r ← runWords h i0 l ws arg (subElement h i0 l arg) 65536 start (start - 1) (Run.start arg (w64 lim))
    let s := sortedSet lim r.1
    if hNpp h l < s.length then stopRd .patternProgram (w64 r.2) arg else pure s
  else
    let s ← if hKind h l = 4 then kronRun h i0 l inverse x else canonRun h i0 l inverse x
    if hNpp h l < s.length then stopRd .patternProgram (w64 (hAux h l)) arg else pure s

/-- `Lookup` (R251). -/
def lookup (h : Handle) (i0 : Word) (e : Nat) : Rd (Option Nat) := lookupWith h i0 (runPattern h i0 false) e

/-- The check of a custom program before the first element (R252). -/
def precheck (h : Handle) : Rd Unit :=
  match hPattern h with
  | some l => if hKind h l = 0 then checkProgram h l 0 else pure ()
  | none => pure ()

/-- Whether a handle's innermost level is hashed. -/
def hashed (h : Handle) : Bool := hNlev h != 0 && hFmt h (hNlev h - 1) == 4 && hKind h (hNlev h - 1) == 5

/-- A sub-handle read without the checks of R257 (R254). -/
def rawSub (p : Word) (i0 : Word) : Rd Handle := fun s => do
  let (bs, s) ← s.scalarRead p 64 64 i0
  .ok (BitVec.ofNat 512 (leVal bs), s)

/-- Whether a pattern level is invertible (R260). -/
def invertible (h : Handle) (l : Nat) (i0 : Word) : Rd Bool :=
  match hKind h l with
  | 0 => do
    let ws ← readWords (hPtr h l) i0 (hNw h l) 0
    pure (ws.any fun w => w / 2 ^ 28 == 0xE)
  | 4 => do
    let (pa, pb) ← kronPtrs h i0 l
    let a ← rawSub pa i0
    let b ← rawSub pb i0
    pure (!hashed a && !hashed b)
  | 5 => pure false
  | _ => pure true

/-- Step 3 of R262: the level's encoding, which `hmask.tr` checks before it asks for an inverse run as `ginv` does
(assumption log 15). -/
def checkLevel (h : Handle) (l x : Nat) : Rd Unit :=
  match hKind h l with
  | 0 => checkProgram h l 0
  | 4 => do
    let (pa, pb) ← kronPtrs h 0 l
    let rb ← param h l 4 0
    let cb ← param h l 5 0
    if rb = 0 || cb = 0 then stopRd .patternProgram (hPtr h l) (w64 x)
    else
      let _ ← subHandle pa 0 (w64 x)
      let _ ← subHandle pb 0 (w64 x)
      pure ()
  | _ => do
    let _ ← canonTry h 0 l false x
    pure ()

/-- HANDLE_TYPE of R252. -/
def handleTrap {α : Type} (s : State) (h : Handle) (n : Nat) : Act α := raise s .handleType (hWord h 0) (w64 n)

/-- The handle that an operand names. -/
def hreg : Operand → Fin 8
  | .h n => n
  | _ => 0
def State.handle (s : State) (o : Operand) : Handle := s.ctx.handles.get (hreg o)

/-! ## The forms (R253 to R255) -/

def execHld (c : Ctl) (f : FM) (s : State) : Out :=
  run c s fun s => do
    s.outsideBody f.opd
    let (bs, s1) ← s.scalarRead (s.fmBase f) 64 64
    let h : Handle := BitVec.ofNat 512 (leVal bs)
    if handleOk h then
      let n := hreg f.opd
      .ok (s1.modCtx fun x => { x with handles := x.handles.set n h n.isLt }).advance
    else raise s .handleType (hWord h 0)

/-- Eight stores of 8 bytes, as one access (R253). -/
def execHst (c : Ctl) (f : FM) (s : State) : Out :=
  run c s fun s => do
    let (l, s) ← s.scalarLoc (s.fmBase f) 64 64 true
    let h := s.handle f.opd
    let acc := s.newAcc
    let s ← (List.range 8).foldlM (fun s j => s.storeLoc s.key (l.shift (8 * j)) (leBytes 8 (hWord h j).toNat) acc (s.pinsOf s.cur.core [l])) s
    .ok s.advance

def execHqWord (c : Ctl) (f : FR) (s : State) : Out :=
  run c s fun s => do
    s.checkDest f.opd
    .ok (s.putS f.opd (hWord (s.handle f.opa) f.opb.idx)).advance

def execHqInv (c : Ctl) (f : FR) (s : State) : Out :=
  run c s fun s => do
    s.checkDest f.opd
    let h := s.handle f.opa
    let (b, s) ← undo s (match hPattern h with
      | some l => invertible h l 0 s
      | none => .ok (hNlev h != 0, s))
    .ok (s.putS f.opd (if b then 1 else 0)).advance

/-- Presence of each active lane's element. -/
def presentLanes (test : Nat → Rd Bool) : List Nat → Rd (List (Nat × Bool))
  | [] => pure []
  | i :: is => do
    let b ← test i
    let bs ← presentLanes test is
    pure ((i, b) :: bs)

def execHmaskLin (c : Ctl) (f : FR) (s : State) : Out :=
  run c s fun s => do
    s.vecStart (.hmaskLin c f)
    let h := s.handle f.opa
    if hNlev h = 0 then handleTrap s h (hreg f.opa)
    else do
      let (_, s1) ← undo s (precheck h s)
      let (ts, s2) ← undo s (presentLanes (fun i => do
        let e := s.sidx.toNat + i
        let r ← lookup h (w64 e) e
        pure r.isSome) (s.active f.msk) s1)
      .ok (s2.putTags (mreg f.opd) ts).advance

def execHmaskTr (c : Ctl) (f : FR) (s : State) : Out :=
  run c s fun s => do
    s.vecStart (.hmaskTr c f)
    let h := s.handle f.opa
    let b := (s.val f.opb).toNat
    if hNlev h != 2 then handleTrap s h (hreg f.opa)
    else if hDim h 1 ≤ b then raise s .range (s.val f.opb)
    else do
      let (_, s1) ← undo s (precheck h s)
      if hFmt h 1 = 4 then do
        let (_, s1) ← undo s (checkLevel h 1 b s1)
        let (inv, s2) ← undo s (invertible h 1 0 s1)
        if !inv then raise s .noninvertiblePattern (w64 (hAux h 1)) (w64 (hreg f.opa))
        else if !s.inBody then .ok s2.advance
        else do
          let (rows, s3) ← undo s (runPattern h 0 true 1 b s2)
          .ok (s3.putTags (mreg f.opd) ((s.active f.msk).map fun i => (i, rows.contains (s.sidx.toNat + i)))).advance
      else do
        let (ts, s2) ← undo s (presentLanes (fun i => do
          let e := s.sidx.toNat + i
          let r ← lookup h (w64 e) (e * hDim h 1 + b)
          pure r.isSome) (s.active f.msk) s1)
        .ok (s2.putTags (mreg f.opd) ts).advance

/-! ## Generators (R261 to R263) -/

def greg : Operand → Fin 4
  | .g n => n
  | _ => 0

def Ctx.setGen (c : Ctx) (n : Fin 4) (g : Gen) : Ctx := { c with gens := c.gens.set n g n.isLt }

/-- `gstart` and `ginv`, in the order of R262, which names no TRAPVAL for the one in a body (R386). -/
def startGen (i : Instr) (f : FR) (inverse : Bool) (s : State) : Act State := do
  if s.inBody then trapOp s .operandClass i
  let h := s.handle f.opa
  let n := hreg f.opa
  match hPattern h with
  | none => handleTrap s h n
  | some l =>
    let x := (s.val f.opb).toNat
    if (if inverse then hDim h l else hProd h l) ≤ x then raise s .range (s.val f.opb)
    else do
      let (_, s1) ← undo s (checkLevel h l x s)
      let (inv, s2) ← undo s (if inverse then invertible h l 0 s1 else .ok (true, s1))
      if !inv then raise s .noninvertiblePattern (w64 (hAux h l)) (w64 n)
      else do
        let (set, s3) ← undo s (runPattern h 0 inverse l x s2)
        .ok (s3.modCtx fun c => c.setGen (greg f.opd) { state := .ready, list := set.map w64, cursor := 0 }).advance

def execGstart (c : Ctl) (f : FR) (s : State) : Out := run c s (startGen (.gstart c f) f false)
def execGinv (c : Ctl) (f : FR) (s : State) : Out := run c s (startGen (.ginv c f) f true)

/-- The entries that a generator has left. -/
def Gen.left (g : Gen) : List Word :=
  match g.state with
  | .idle => []
  | .ready => g.list.drop g.cursor

def execGnextScalar (c : Ctl) (f : FR) (s : State) : Out :=
  run c s fun s => do
    s.checkDest f.opd
    let n := greg f.opa
    let g := s.ctx.gens.get n
    match g.left with
    | [] => .ok (s.putS f.opd (BitVec.allOnes 64)).advance
    | v :: _ => .ok ((s.putS f.opd v).modCtx fun x => x.setGen n { g with cursor := g.cursor + 1 }).advance

def execGnextVector (c : Ctl) (f : FR) (s : State) : Out :=
  run c s fun s => do
    s.vecStart (.gnextVector c f)
    let d ← s.field f.opd f.ta f.wid.toNat .int
    s.checkStream f.opd (.gnextVector c f)
    let n := greg f.opa
    let g := s.ctx.gens.get n
    let vs := g.left.take s.slen
    let rs := (List.range vs.length).map fun i => (i, fitTo d.ty f.sat ((vs.getD i 0).toNat) 0)
    let s1 := (s.putLanes d (rs.map fun r => (r.1, r.2.bits))).putTags (mreg f.opb)
      ((List.range s.slen).map fun i => (i, decide (i < vs.length)))
    .ok ((s1.modCtx fun x => x.setGen n { g with cursor := g.cursor + vs.length }).sticky .satur
      (rs.any fun r => r.2.satur)).advance

end Sys2Proof.Machine
end

