-- ==== Sys2Proof/Machine/Scalar.lean ====
section
/-! DEFINITION. Scalar integer, scalar floating, predicate, control-register and pointer forms
(R93 to R106). -/

namespace Sys2Proof.Machine

/-! ## Scalar integer (R93 to R97) -/

/-- A scalar form that writes D from the values of A and B (R87, R88). -/
def scalarOp (f : FR) (op : Word → Word → Word) (s : State) : Act State := do
  s.checkDest f.opd
  .ok ((s.putS f.opd (op (s.val f.opa) (s.val f.opb))).advance)

/-- `add`, `sub` and `mul` at width w (R93): signed but for TA 0x02; the result extended to 64 bits. -/
def arithW (signed : Bool) (w : Nat) (sat : Bool) (op : Int → Int → Int) (a b : Word) : Word × Bool :=
  let r := fitInt signed w sat (op (intVal signed w a.toNat) (intVal signed w b.toNat))
  (BitVec.ofInt 64 (intVal signed w r.1), r.2)

def arithOp (f : FR) (op : Int → Int → Int) (s : State) : Act State := do
  s.checkDest f.opd
  let w := if f.wid = 0 then 64 else f.wid.toNat
  let r := arithW (f.ta != .n) w f.sat op (s.val f.opa) (s.val f.opb)
  .ok ((s.putS f.opd r.1).sticky .satur r.2).advance

def execAdd (c : Ctl) (f : FR) (s : State) : Out := run c s (arithOp f (· + ·))
def execSub (c : Ctl) (f : FR) (s : State) : Out := run c s (arithOp f (· - ·))
def execMul (c : Ctl) (f : FR) (s : State) : Out := run c s (arithOp f (· * ·))

/-- Bits [127:64] of the exact product (Table 6-3). -/
def mulHigh (a b : Word) : Word := BitVec.ofInt 64 (a.toInt * b.toInt / 2 ^ 64)
def mulHighN (a b : Word) : Word := BitVec.ofNat 64 (a.toNat * b.toNat / 2 ^ 64)
def execMulh (c : Ctl) (f : FR) (s : State) : Out := run c s (scalarOp f mulHigh)
def execMulhn (c : Ctl) (f : FR) (s : State) : Out := run c s (scalarOp f mulHighN)

/-- Division and remainder (R94). -/
def divS (a b : Word) : Word := if b = 0 then BitVec.allOnes 64 else BitVec.ofInt 64 (a.toInt.tdiv b.toInt)
def divU (a b : Word) : Word := if b = 0 then BitVec.allOnes 64 else w64 (a.toNat / b.toNat)
def remS (a b : Word) : Word := if b = 0 then a else BitVec.ofInt 64 (a.toInt.tmod b.toInt)
def remU (a b : Word) : Word := if b = 0 then a else w64 (a.toNat % b.toNat)
def execDiv (c : Ctl) (f : FR) (s : State) : Out := run c s (scalarOp f divS)
def execDivn (c : Ctl) (f : FR) (s : State) : Out := run c s (scalarOp f divU)
def execRem (c : Ctl) (f : FR) (s : State) : Out := run c s (scalarOp f remS)
def execRemn (c : Ctl) (f : FR) (s : State) : Out := run c s (scalarOp f remU)

def execAnd (c : Ctl) (f : FR) (s : State) : Out := run c s (scalarOp f (· &&& ·))
def execOr (c : Ctl) (f : FR) (s : State) : Out := run c s (scalarOp f (· ||| ·))
def execXor (c : Ctl) (f : FR) (s : State) : Out := run c s (scalarOp f (· ^^^ ·))
def execAndn (c : Ctl) (f : FR) (s : State) : Out := run c s (scalarOp f fun a b => a &&& ~~~b)

def execShl (c : Ctl) (f : FR) (s : State) : Out := run c s (scalarOp f fun a b => a <<< (b.toNat % 64))
def execShr (c : Ctl) (f : FR) (s : State) : Out := run c s (scalarOp f fun a b => a >>> (b.toNat % 64))
def execSar (c : Ctl) (f : FR) (s : State) : Out := run c s (scalarOp f fun a b => a.sshiftRight (b.toNat % 64))
def execRot (c : Ctl) (f : FR) (s : State) : Out := run c s (scalarOp f fun a b => a.rotateLeft (b.toNat % 64))

def execMin (c : Ctl) (f : FR) (s : State) : Out := run c s (scalarOp f fun a b => if b.slt a then b else a)
def execMax (c : Ctl) (f : FR) (s : State) : Out := run c s (scalarOp f fun a b => if a.slt b then b else a)
def execMinn (c : Ctl) (f : FR) (s : State) : Out := run c s (scalarOp f fun a b => if b.ult a then b else a)
def execMaxn (c : Ctl) (f : FR) (s : State) : Out := run c s (scalarOp f fun a b => if a.ult b then b else a)

/-- Number of leading zero bits of a w-bit pattern, of trailing zero bits, and of ones. -/
def clzNat (w n : Nat) : Nat := if n = 0 then w else w - 1 - Nat.log2 n
def ctzBits (n : Nat) : Nat → Nat
  | 0 => 0
  | fuel + 1 => if n % 2 = 1 then 0 else 1 + ctzBits (n / 2) fuel
def popCount (n : Nat) : Nat → Nat
  | 0 => 0
  | fuel + 1 => n % 2 + popCount (n / 2) fuel

/-- The low w bits of A sign-extended, w = B mod 64 with 0 meaning 64 (Table 6-3). -/
def sextW (a b : Word) : Word :=
  let w := if b.toNat % 64 = 0 then 64 else b.toNat % 64
  BitVec.ofInt 64 (intVal true w a.toNat)

def execClz (c : Ctl) (f : FR) (s : State) : Out := run c s (scalarOp f fun a _ => w64 (clzNat 64 a.toNat))
def execCtz (c : Ctl) (f : FR) (s : State) : Out := run c s (scalarOp f fun a _ => w64 (ctzBits a.toNat 64))
def execPopc (c : Ctl) (f : FR) (s : State) : Out := run c s (scalarOp f fun a _ => w64 (popCount a.toNat 64))
def execSext (c : Ctl) (f : FR) (s : State) : Out := run c s (scalarOp f sextW)

/-- `bext`: bits [lsb + width − 1 : lsb] of A (R95). -/
def extractField (signed : Bool) (lsb width : Nat) (a : Word) : Word :=
  BitVec.ofInt 64 (intVal signed width (a.toNat / 2 ^ lsb))
/-- `bins`: those bits of D replaced by the low bits of A (R95). -/
def insertField (lsb width : Nat) (d a : Word) : Word :=
  let m : Word := w64 ((2 ^ width - 1) * 2 ^ lsb)
  (d &&& ~~~m) ||| ((a <<< lsb) &&& m)

def execBext (c : Ctl) (f : FX) (s : State) : Out :=
  run c s fun s => do
    s.checkDest f.opd
    .ok (s.putS f.opd (extractField (f.sub != 0) f.xf.toNat f.yf.toNat (s.val f.opa))).advance
def execBins (c : Ctl) (f : FX) (s : State) : Out :=
  run c s fun s => do
    s.checkDest f.opd
    .ok (s.putS f.opd (insertField f.xf.toNat f.yf.toNat (s.val f.opd) (s.val f.opa))).advance

def execLi (c : Ctl) (f : FI) (s : State) : Out :=
  run c s fun s => do
    s.checkDest f.opd
    .ok (s.putS f.opd (f.imm.signExtend 64)).advance
def execLih (c : Ctl) (f : FI) (s : State) : Out :=
  run c s fun s => do
    s.checkDest f.opd
    .ok (s.putS f.opd (f.imm ++ (s.val f.opd).extractLsb' 0 24)).advance
def execMov (c : Ctl) (f : FR) (s : State) : Out := run c s (scalarOp f fun a _ => a)
def execSel (c : Ctl) (f : FR) (s : State) : Out :=
  run c s fun s => scalarOp f (fun a b => if s.readP (Fin.ofNat 8 f.sub.toNat) then a else b) s
def execHmix (c : Ctl) (f : FR) (s : State) : Out := run c s (scalarOp f hMix)

/-! ## Scalar floating (R98) -/

/-- A scalar operand's value in a format: the low bits of the register. -/
def floatIn (t : Ty) (w : Word) : Num := ((fltOfTy t).getD .f32).val w.toNat

/-- Writes a scalar floating result: rounded once, the scalar state advanced, SATUR set (R59, R61, R98). -/
def State.roundS (s : State) (d : Operand) (t : Ty) (rm : RMode) (sat : Bool) (x : Num) : State :=
  let st := s.ctx.stochAt scalarLane
  let r := ((fltOfTy t).getD .f32).round x (s.rm rm) sat st
  ((s.putS d (w64 r.bits)).modCtx fun c => c.setStoch scalarLane r.st).sticky .satur r.satur

def floatOp (f : FR) (op : State → Num → Num → Num) (s : State) : Act State := do
  s.checkDest f.opd
  let x := op s (floatIn f.ta (s.val f.opa)) (floatIn f.tb (s.val f.opb))
  .ok (s.roundS f.opd f.ta f.rm f.sat x).advance

/-- Whether the resolved mode is RDN, which signs a cancelled sum (R57). -/
def State.isRdn (s : State) (m : RMode) : Bool := s.rm m == .rdn

def execSfadd (c : Ctl) (f : FR) (s : State) : Out :=
  run c s (floatOp f fun s a b => a.add (s.isRdn f.rm) b)
def execSfmul (c : Ctl) (f : FR) (s : State) : Out := run c s (floatOp f fun _ a b => a.mul b)
def execSffma (c : Ctl) (f : FR) (s : State) : Out :=
  run c s (floatOp f fun s a b => (a.mul b).add (s.isRdn f.rm) (floatIn f.ta (s.val f.opd)))

def execSfcmp (c : Ctl) (f : FR) (s : State) : Out :=
  run c s fun s => do
    s.checkDest f.opd
    let o := (floatIn f.ta (s.val f.opa)).cmp (floatIn f.tb (s.val f.opb))
    .ok (s.putP f.opd (condOf f.sub.toNat o)).advance

/-- The type that a scalar conversion's code names: 64-bit integers or a format (R98). -/
def scalarTy : Ty → NTy
  | .i => .int true 64
  | .n => .int false 64
  | t => .flt ((fltOfTy t).getD .f32)

def execSfcvt (c : Ctl) (f : FR) (s : State) : Out :=
  run c s fun s => do
    s.checkDest f.opd
    let st := s.ctx.stochAt scalarLane
    let r := (scalarTy f.ta).convert ((scalarTy f.tb).val (s.val f.opa).toNat) (s.rm f.rm) f.sat st
    .ok (((s.putS f.opd (w64 r.bits)).modCtx fun c => c.setStoch scalarLane r.st).sticky .satur r.satur).advance

def execSfmm (c : Ctl) (f : FR) (s : State) : Out :=
  run c s fun s => do
    s.checkDest f.opd
    let x := Num.minmax (f.sub == 1) (floatIn f.ta (s.val f.opa)) (floatIn f.tb (s.val f.opb))
    let r := ((fltOfTy f.ta).getD .f32).round x .rne false 0
    .ok (s.putS f.opd (w64 r.bits)).advance

/-! ## Predicates (R99) -/

def predOp (f : FR) (v : State → Bool) (s : State) : Act State := do
  s.checkDest f.opd
  .ok (s.putP f.opd (v s)).advance

/-- An integer comparison as an order. -/
def intOrder (signed : Bool) (a b : Word) : Ordering :=
  if signed then compare a.toInt b.toInt else compare a.toNat b.toNat

def execCmp (c : Ctl) (f : FR) (s : State) : Out :=
  run c s (predOp f fun s => condOf f.sub.toNat (some (intOrder (f.ta != .n) (s.val f.opa) (s.val f.opb))))
def execPand (c : Ctl) (f : FR) (s : State) : Out := run c s (predOp f fun s => s.getP f.opa && s.getP f.opb)
def execPor (c : Ctl) (f : FR) (s : State) : Out := run c s (predOp f fun s => s.getP f.opa || s.getP f.opb)
def execPxor (c : Ctl) (f : FR) (s : State) : Out := run c s (predOp f fun s => s.getP f.opa != s.getP f.opb)
def execPnot (c : Ctl) (f : FR) (s : State) : Out := run c s (predOp f fun s => !s.getP f.opa)

/-! ## Pointer windows (R100 to R103) -/

def isWindow (p : Word) (w : Nat) : Bool := (malformed p).isNone && windowOf p == w

/-- `spt` (R101). -/
def ptrTest (core : Nat) (sub : Nat) (p : Word) : Bool :=
  match sub with
  | 0 => isWindow p 0 | 1 => isWindow p 8 | 2 => isWindow p 9 | 3 => isWindow p 10
  | 4 => (malformed p).isSome
  | _ => (isWindow p 9 && ptrCore p == core) || (isWindow p 10 && ptrCluster p == clusterOf core)

def execSpt (c : Ctl) (f : FR) (s : State) : Out :=
  run c s (predOp f fun s => ptrTest s.cur.core f.sub.toNat (s.val f.opa))

/-- A stash pointer and a cluster-shared pointer (Table 6-5). -/
def stashPtr (core off : Nat) : Word := w64 (9 * 2 ^ 60 + core * 2 ^ 48 + off)
def clusterPtr (cl off : Nat) : Word := w64 (10 * 2 ^ 60 + cl * 2 ^ 48 + off)

/-- The address or offset field of a well-formed pointer (Table 6-5). -/
def ptrOffset (p : Word) : Word :=
  match windowOf p with
  | 0 => w64 (bitsAt p 0 57) | 8 => w64 (bitsAt p 0 32) | 9 => w64 (bitsAt p 0 20) | _ => w64 (bitsAt p 0 23)

/-- `spc` (R102): the result, or the cause. -/
def ptrCast (core : Nat) (sub : Nat) (a : Word) : Except Cause Word :=
  let within := fun (bits : Nat) (p : Word) => if a.toNat < 2 ^ bits then .ok p else .error Cause.range
  match sub with
  | 0 => match malformed a with
         | some c => .error c
         | none => .ok (ptrOffset a)
  | 1 => within 32 (0x8000000000000000 ||| a)
  | 2 => within 20 (stashPtr core a.toNat)
  | 3 => within 23 (clusterPtr (clusterOf core) a.toNat)
  | _ => within 57 a

/-- A pointer cast. That a shared destination in a body (R87) is refused before a value out of range is the model's choice, in
`spmk` as well (assumption log 16). -/
def execSpc (c : Ctl) (f : FR) (s : State) : Out :=
  run c s fun s => do
    s.checkDest f.opd
    let a := s.val f.opa
    match ptrCast s.cur.core f.sub.toNat a with
    | .ok v => .ok (s.putS f.opd v).advance
    | .error .range => raise s .range a
    | .error e => trapOp s e (.spc c f)

def execSpid (c : Ctl) (f : FR) (s : State) : Out :=
  run c s (scalarOp f fun a _ => if isWindow a 9 then w64 (ptrCore a) else BitVec.allOnes 64)

/-- A pointer of a core and an offset. Where both operands are out of range, TRAPVAL holds A: the manual does not say which
(assumption log 16). -/
def execSpmk (c : Ctl) (f : FR) (s : State) : Out :=
  run c s fun s => do
    s.checkDest f.opd
    let a := s.val f.opa
    let b := s.val f.opb
    if 319 < a.toNat then raise s .range a
    else if 2 ^ 20 ≤ b.toNat then raise s .range b
    else .ok (s.putS f.opd (stashPtr a.toNat b.toNat)).advance

end Sys2Proof.Machine
end

