-- ==== Sys2Proof/Machine/Matrix.lean ====
section
/-! DEFINITION. The matrix engine (R139 to R158): tile slots and their metadata, rows from issue to
completion, tokens, scaling and extraction. -/

namespace Sys2Proof.Machine

/-! ## Tile slots (R139 to R141) -/

/-- Bytes of a slot. -/
def slotBytes : Nat := 16384

def Core.slotAt (c : Core) (n : Nat) : Slot := c.slots.get (Fin.ofNat 32 n)
def Core.setSlot (c : Core) (n : Nat) (x : Slot) : Core := { c with slots := c.slots.set (n % 32) x (Nat.mod_lt _ (by decide)) }

/-- A write to a slot increments GEN, and a flag whose stamp GEN meets is cleared (R141). -/
def Slot.bump (x : Slot) : Slot :=
  let g := x.gen + 1
  { x with gen := g, z := Vector.ofFn fun f => x.z.get f && x.stamp.get f != g }

/-- The word that `mzf.get` returns (Table 9-2). -/
def Slot.word (x : Slot) : Word :=
  let bits := fun (g : Fin 8 → Bool) => (List.finRange 8).foldl (fun n f => n + if g f then 2 ^ f.val else 0) 0
  w64 (x.gen.toNat * 2 ^ 32 + (if x.busy then 2 ^ 16 else 0) + bits (fun f => x.stamp.get f == x.gen) * 256 +
    bits fun f => x.z.get f)

/-- Whether flag f is current, and whether it is stale (R141). -/
def Slot.current (x : Slot) (f : Nat) : Bool := x.z.get (Fin.ofNat 8 f) && x.stamp.get (Fin.ofNat 8 f) == x.gen
def Slot.stale (x : Slot) (f : Nat) : Bool := x.z.get (Fin.ofNat 8 f) && x.stamp.get (Fin.ofNat 8 f) != x.gen

/-- Whether the 2,048 bytes of a flag are zero. A flag whose bytes meet a poisoned granule counts as not zero, so that
rows read those bytes and fail (R155, R368): the manual does not say how a scan meets them (assumption log 16). -/
def Core.flagZero (c : Core) (slot f : Nat) : Bool :=
  !(c.tiles.any fun x => decide (slot * slotBytes + 2048 * f ≤ x.1 ∧ x.1 < slot * slotBytes + 2048 * (f + 1))) &&
  !marked 4 c.tilePoison (slot * slotBytes + 2048 * f) 2048

/-! ## Row formats (Tables 9-1 and 9-4) -/

/-- Element bits, field width and type of a format. -/
def rowBitsOf (fmt : Nat) : Nat := if fmt = 2 then 4 else if fmt < 4 then 8 else 16
def rowWidth (fmt : Nat) : Nat := if fmt < 4 then 8 else 16
def rowTy (fmt : Nat) : NTy :=
  match fmt with
  | 0 => .flt .e4m3 | 1 => .flt .e5m2 | 2 => .flt .e2m1 | 3 => .int true 8 | 4 => .flt .bf16 | _ => .flt .f16

/-- Lanes that K elements take, and the lane of element k within its block. -/
def rowLanes (fmt k : Nat) : Nat := if fmt = 2 then k / 2 else k
def elemLane (fmt k : Nat) : Nat := if fmt = 2 then k / 2 else k

/-- Byte of W[k][c] from the first byte of the slot or pair on, and the bit within it (Table 9-1). -/
def weightByte (fmt k c : Nat) : Nat × Nat :=
  if fmt = 2 then (64 * k + c / 2, c % 2 * 4)
  else if fmt < 4 then (128 * k + c, 0)
  else (k / 64 * slotBytes + 256 * (k % 64) + 2 * c, 0)

/-- The pattern of W[k][c] of a row. -/
def Core.weight (c : Core) (r : MRow) (k col : Nat) : Nat :=
  let b := weightByte r.fmt k col
  rdVal c.tiles (r.slot * slotBytes + b.1) (if r.fmt < 4 then 1 else 2) / 2 ^ b.2 % 2 ^ rowBitsOf r.fmt

/-- The slot that governs weight row k, and the flag that covers it (R140, R146). -/
def rowSlot (r : MRow) (k : Nat) : Nat := if r.fmt < 4 then r.slot else r.slot + k / 64
def rowFlag (fmt k : Nat) : Nat := if fmt = 2 then k / 32 else if fmt < 4 then k / 16 else k % 64 / 8

/-- Slots that a row names (R139). -/
def MRow.slots (r : MRow) : List Nat := if r.fmt < 4 || r.k ≤ 64 then [r.slot.val] else [r.slot.val, r.slot + 1]

/-! ## Computing a row (R70, R72, R146) -/

def valNonFinite : Val → Bool
  | .f x => x.nonFinite
  | .i _ => false

/-- NF of a weight row (R140). -/
def Core.nonFiniteRow (c : Core) (r : MRow) (k : Nat) : Bool :=
  (List.range 128).any fun col => valNonFinite ((rowTy r.fmt).val (c.weight r k col))

/-- Element k of the operand, and whether it is present. -/
def MRow.elem (r : MRow) (k : Nat) : Val := (rowTy r.fmt).val (bitsAt r.data (rowBitsOf r.fmt * k) (rowBitsOf r.fmt))
def MRow.isPresent (r : MRow) (k : Nat) : Bool := r.present.getLsbD (elemLane r.fmt k)

/-- What a row does with weight row k. -/
inductive Use
  | absent | skipped | stale | taken
deriving DecidableEq, Repr

def Core.rowUse (c : Core) (r : MRow) (k : Nat) : Use :=
  let x := c.slotAt (rowSlot r k)
  let f := rowFlag r.fmt k
  if !r.isPresent k then .absent else if x.current f then .skipped else if x.stale f then .stale else .taken

/-- The product of an element and a weight. -/
def mulVal : Val → Val → Val
  | .f x, .f y => .f (x.mul y)
  | x, y => .i (x.int * y.int)
/-- The exact sum; −0 only when every term is −0 (R70). -/
def addVal : Val → Val → Val
  | .f x, .f y => .f (x.add false y)
  | x, y => .i (x.int + y.int)

/-- The cell pattern of a sum (R70); an empty sum is +0. -/
def cellOf : Option Val → Nat
  | none => 0
  | some (.f x) => (Flt.f32.round x .rne false 0).bits
  | some (.i x) => intBits 32 x

/-- One column's result. -/
def Core.rowCell (c : Core) (r : MRow) (ks : List Nat) (col : Nat) : Nat :=
  cellOf (ks.foldl (fun acc k =>
    let p := mulVal (r.elem k) ((rowTy r.fmt).val (c.weight r k col))
    match acc with
    | none => some p
    | some a => some (addVal a p)) none)

/-- Bytes of the slot or pair that a row reads. -/
def MRow.bytes (r : MRow) : Nat := if r.fmt = 2 then 64 * r.k else if r.fmt < 4 then 128 * r.k else 256 * r.k

/-- The byte of the first uncorrectable granule of 16 bytes that a row reads (R155). -/
def Core.rowBad (c : Core) (r : MRow) : Option Nat :=
  (granules 4 (r.slot * slotBytes) r.bytes).find? c.tilePoison.contains |>.map (· * 16)

/-- A row as it is accepted: its results, its sticky bits, whether it failed (R146, R155). -/
def Core.compute (c : Core) (r : MRow) : MFlight :=
  let ks := List.range r.k
  let skips := ks.any fun k =>
    match c.rowUse r k with
    | .absent => valNonFinite (r.elem k) || c.nonFiniteRow r k
    | .skipped => valNonFinite (r.elem k)
    | _ => false
  let stale := ks.any fun k => c.rowUse r k == .stale
  let used := ks.filter fun k => c.rowUse r k == .stale || c.rowUse r k == .taken
  let cells := (List.range 128).foldl (fun n col => n + c.rowCell r used col * 2 ^ (32 * col)) 0
  { row := r, cells := BitVec.ofNat 4096 cells, nxskip := skips, stalez := stale, failed := c.rowBad r }

/-! ## Tokens (R143) -/

def Ctx.modTok (c : Ctx) (n : Fin 16) (f : Tok → Tok) : Ctx := { c with toks := c.toks.set n (f (c.toks.get n)) n.isLt }

/-- FAIL of R155. -/
def failWord (slot block : Nat) : Word := w64 (slot + block * 256)

/-! ## Cells (R142) -/

/-- Number of the cell of a strip position. -/
def State.cellKey (s : State) (cell i : Nat) : Nat := s.lane i * 16 + cell

/-- Writes a cell, which stops being poisoned (R156). -/
def Core.setCell (c : Core) (key : Nat) (v : BitVec 32) : Core :=
  { c with cells := putOr 0 c.cells key v, cellPoison := setDel c.cellPoison key }
def Core.cell (c : Core) (key : Nat) : BitVec 32 := lookD c.cells key 0

/-- The cells of a row in flight. -/
def MRow.firstLane (r : MRow) : Nat := r.lg * 4096 + 128 * r.block
def MRow.sameCells (a b : MRow) : Bool := a.lg == b.lg && a.block == b.block && a.cell == b.cell
/-- Whether a row writes the cell `cell` of a lane. -/
def MRow.writes (r : MRow) (lane cell : Nat) : Bool :=
  r.cell == cell && decide (r.firstLane ≤ lane ∧ lane < r.firstLane + 128)

/-- Whether a row not yet completed writes one of the cells of the given positions (R150). -/
def State.rowsOwe (s : State) (cell : Nat) (is : List Nat) : Bool :=
  is.any fun i => s.core.flight.any fun x => x.row.writes (s.lane i) cell

/-! ## Acceptance and completion (R146, R148, R151) -/

def MRow.issuer (r : MRow) (core : Fin 320) : Issuer := { core := core, lc := r.lc, lg := some r.lg }

/-- Rows that may be accepted: the first of each lane group, oldest first, whose slots are not BUSY and whose
context is not being stopped (R148, R151, R158). -/
def State.acceptable (s : State) (core : Nat) : List MRow → List (Fin 4) → Option MRow
  | [], _ => none
  | r :: rs, seen =>
    if !seen.contains r.lg && !s.frozen (ctxNum core r.lc) && r.slots.all fun b => !((s.coreAt core).slotAt b).busy then
      some r
    else s.acceptable core rs (r.lg :: seen)

/-- The engine accepts the oldest row waiting at a port; the last row of its instruction lets the issuer go on.
A row that meets an uncorrectable error reports it (R155, R369), at the first lane of its block: the manual asks for a lane
number and names none for a tile (assumption log 16). -/
def execRowAccept (core : Fin 320) (s : State) : Out :=
  let c := s.coreAt core
  if 32 ≤ c.flight.length || (s.quarter (quarterOf core)).hold then .next s
  else
    match s.acceptable core c.waiting [] with
    | none => .next s
    | some r =>
      let c' := { c with waiting := c.waiting.erase r, flight := c.flight ++ [c.compute r] }
      let s := (s.setCoreAt core c').modCtxAt (ctxNum core r.lc) fun x => x.modTok r.tok fun t => { t with count := t.count + 1 }
      let s := match c.rowBad r with
        | some _ => s.logError 5 2 false core r.firstLane
        | none => s
      .next (if c'.waiting.any fun x => x.lc == r.lc && x.lg == r.lg then s
             else s.asIssuer (r.issuer core) fun s => s.advance.waitEnds)

/-- Writes the cells of a completing row. -/
def Core.landRow (c : Core) (m : MFlight) : Core :=
  (List.range 128).foldl (fun c i =>
    let key := (m.row.firstLane + i) * 16 + m.row.cell
    if m.failed.isSome then { c with cellPoison := setAdd c.cellPoison key }
    else c.setCell key (m.cells.extractLsb' (32 * i) 32)) c

/-- A row in flight completes, after the rows accepted before it that write the same cells (R150). NXSKIP and STALEZ are set in this
very step: R73 lets an earlier `mfc` see them or not, and that none does is the model's choice (assumption log 16). -/
def execRowComplete (core : Fin 320) (k : Nat) (s : State) : Out :=
  let c := s.coreAt core
  match c.flight[k]? with
  | none => .next s
  | some m =>
    if (c.flight.take k).any fun x => x.row.sameCells m.row then .next s
    else
      let fail := m.failed.map fun a => failWord (a / slotBytes) m.row.block
      let s := s.setCoreAt core ({ c with flight := c.flight.eraseIdx k }.landRow m)
      .next (s.modCtxAt (ctxNum core m.row.lc) fun x =>
        let x := x.modTok m.row.tok fun t => { count := t.count - 1, fail := t.fail.or fail }
        let x := if m.nxskip && m.failed.isNone then x.setSticky .nxskip else x
        if m.stalez && m.failed.isNone then x.setSticky .stalez else x)

/-! ## Row instructions (R144 to R148) -/

def execMsetmvl (c : Ctl) (f : FR) (s : State) : Out :=
  run c s fun s => do
    if s.inBody then trapOp s .operandClass (.msetmvl c f)
    else .ok (s.modCtx fun x => { x with mvl := 32 * 2 ^ f.sub.toNat }).advance

/-- Cell number of an accumulator operand (R142). -/
def State.accCell (s : State) (o : Operand) (i : Instr) : Act Nat :=
  if o.idx < s.ctx.win.an then .ok (s.ctx.win.ab + o.idx) else trapOp s .operandClass i

/-- TILE_SLOT of R145. -/
def State.checkTile (s : State) (fmt slot : Nat) : Act Unit :=
  let k := s.ctx.mvl
  if (k == 256 && fmt != 2) || (4 ≤ fmt && k == 128 && slot % 2 == 1) then raise s .tileSlot (w64 k) else .ok ()

/-- The row of block j over an operand field and the present positions. -/
def State.rowOf (s : State) (a : Fld) (fmt cell tok slot j : Nat) (present : List Nat) : MRow :=
  let c := s.core
  let lanes := List.range (rowLanes fmt s.ctx.mvl)
  let w := rowWidth fmt
  { lc := s.cur.lc, lg := s.cur.lg.getD 0, block := j, tok := Fin.ofNat 16 tok, cell := cell, fmt := fmt, k := s.ctx.mvl
    slot := Fin.ofNat 32 slot
    data := BitVec.ofNat 2048 (lanes.foldl (fun n i => n + a.get (c.row (s.lane (128 * j + i))) * 2 ^ (w * i)) 0)
    present := BitVec.ofNat 256 (lanes.foldl (fun n i => n + if present.contains (128 * j + i) then 2 ^ i else 0) 0) }

/-- Issues the rows of an instruction over the blocks below SLEN: a block with nothing present writes its cells to
zero; the others wait for acceptance, and with none the instruction is done. That the direct zero write clears a cell's poison
mark is the model's choice (R156 lists `mclr`, a completed row and `msacc`; assumption log 16). -/
def State.issueRows (s : State) (a : Fld) (fmt cell tok slot : Nat) (present : List Nat) : Act State :=
  let n := rowLanes fmt s.ctx.mvl
  let blocks := List.range ((s.slen + 127) / 128)
  let has := fun j => present.any fun i => decide (128 * j ≤ i ∧ i < 128 * j + n)
  let zero := (blocks.filter fun j => !has j).flatMap fun j => (List.range 128).map fun i => 128 * j + i
  if s.rowsOwe cell zero then hold s
  else
    let rows := (blocks.filter has).map fun j => s.rowOf a fmt cell tok slot j present
    let s := s.modCore fun c =>
      let c := zero.foldl (fun c i => c.setCell (s.cellKey cell i) 0) c
      { c with waiting := c.waiting ++ rows }
    .ok (if rows.isEmpty then s.advance else s)

/-- The checks of R147 on the handle of `mrowh`: HANDLE_TYPE takes word 0 of the handle and its number, as R252 says of every
handle that Table 15-3 rejects (log 15: R145 can be read as naming the operand field). -/
def State.rowHandle (s : State) : Option Operand → Act Unit
  | none => .ok ()
  | some o =>
    let h := s.handle o
    let l := hNlev h - 1
    if hNlev h = 0 || (hFmt h l != 0 && hFmt h l != 3) then handleTrap s h (hreg o)
    else do
      let _ ← precheck h s
      .ok ()

/-- What both row forms do; `handle` is that of `mrowh`. -/
def rowForm (i : Instr) (f : FX) (slot : Nat) (handle : Option Operand) (s : State) : Act State := do
  s.vecStart i
  let cell ← s.accCell f.opd i
  if !fmV (s.ctx.fmap.get (vreg f.opa)) then trapField s .operandClass f.opa
  let a ← s.field f.opa .fm 0 .any
  if a.width ≠ rowWidth f.sub.toNat then trapField s .operandClass f.opa
  else
    s.checkTile f.sub.toNat slot
    let s0 := s
    undo s0 (s.rowHandle handle)
    let s ← s.popAll [f.opa]
    undo s0 do
      s.checkParity a (List.range s.slen)
      let on := (s.active f.msk).filter fun p => decide (p % 128 < rowLanes f.sub.toNat s.ctx.mvl)
      let (present, s) ← match handle with
        | none => .ok (on, s)
        | some o =>
          let pick : Rd (List Nat) := on.filterM fun p => do
            let e := s.sidx + w64 p
            let r ← lookup (s.handle o) e e.toNat
            pure r.isSome
          pick s
      s.issueRows a f.sub.toNat cell f.xf.toNat slot present

def execMrow (c : Ctl) (f : FX) (s : State) : Out := run c s (rowForm (.mrow c f) f f.opb.idx none)

def execMrowh (c : Ctl) (f : FX) (s : State) : Out := run c s (rowForm (.mrowh c f) f f.yf.toNat (some f.opb))

/-! ## Scaling, extraction and clearing (R154, R156) -/

/-- TOKEN for a poisoned cell among those of the given positions, naming the OPA field whichever operand reads the cell (R156).
Of several, TRAPIDX0 names the one of lowest position: the manual does not say (assumption log 16). -/
def State.checkCells (s : State) (o : Operand) (cell : Nat) (is : List Nat) : Act Unit :=
  match is.find? fun i => s.core.cellPoison.contains (s.cellKey cell i) with
  | some i => raise s .token (o.code.zeroExtend 64) (w64 (s.lane i))
  | none => .ok ()

/-- R71 in one lane: the new accumulator and the stochastic state. -/
def scaleAcc (rm : RMode) (part acc sa sb : Num) (st : BitVec 32) : Nat × BitVec 32 :=
  let t := Flt.f32.round (part.mul sa) rm false st
  let u := Flt.f32.round ((Flt.f32.val t.bits).mul sb) rm false t.st
  let r := Flt.f32.round (acc.add (rm == .rdn) (Flt.f32.val u.bits)) rm false u.st
  (r.bits, r.st)

/-- Scaled accumulation. That poisoned cells (R156) are looked for before the parity of vS (R86), those of A before those of D,
is the model's choice (assumption log 16). -/
def execMsacc (c : Ctl) (f : FR) (s : State) : Out :=
  run c s fun s => do
    let i : Instr := .msacc c f
    s.vecStart i
    let d ← s.accCell f.opd i
    let a ← s.accCell f.opa i
    let v : Operand := .v f.sub.toFin
    let sa ← s.field v .fm 0 .any
    if sa.ty ≠ .flt .f32 then trapOp s .operandClass i
    else
      let s0 := s
      let s ← s.popAll [v]
      undo s0 do
        let on := s.active f.msk
        if s.rowsOwe d on || s.rowsOwe a on then hold s
        else
          s.checkCells f.opa a on
          s.checkCells f.opa d on
          s.checkParity sa (List.range s.slen)
          let rm := s.rm f.rm
          let sb := floatIn .f32 (s.val f.opb)
          let k := s.core
          let x := s.ctx
          let rs := on.map fun i =>
            let cv := fun n => Flt.f32.val (k.cell (s.cellKey n i)).toNat
            (i, scaleAcc rm (cv a) (cv d) (sa.num (k.row (s.lane i))) sb (x.stochAt (s.lane i)))
          let s1 := s.modCore fun k => rs.foldl (fun k r => k.setCell (s.cellKey d r.1) (BitVec.ofNat 32 r.2.1)) k
          .ok (s1.modCtx fun x => rs.foldl (fun x r => x.setStoch (s.lane r.1) r.2.2) x).advance

def execMext (c : Ctl) (f : FR) (s : State) : Out :=
  run c s fun s => do
    let i : Instr := .mext c f
    s.vecStart i
    let a ← s.accCell f.opa i
    let d ← s.field f.opd f.ta f.wid.toNat .any
    let ty : NTy := if f.tb = .f32 then .flt .f32 else .int true 32
    s.checkRmSat i (d.ty.isFlt || ty.isFlt) (satType d.ty) f.rm f.sat
    s.checkStream f.opd i
    let on := s.active f.msk
    if s.rowsOwe a on then hold s
    else
      s.checkCells f.opa a on
      let rm := s.rm f.rm
      let k := s.core
      .ok (s.mapLanes f.msk d fun p _ st =>
        d.ty.convert (ty.val (k.cell (s.cellKey a p)).toNat) rm f.sat st).advance

/-- Clears the cells of lanes. R75's RANGE of an empty window is taken for this form too, which names no field (assumption
log 16). -/
def execMclrAcc (c : Ctl) (f : FR) (s : State) : Out :=
  run c s fun s => do
    s.vecStart (.mclrAcc c f)
    let d ← s.accCell f.opd (.mclrAcc c f)
    let on := s.active f.msk
    if s.rowsOwe d on then hold s
    else .ok (s.modCore fun k => on.foldl (fun k i => k.setCell (s.cellKey d i) 0) k).advance

/-- Whether a writer may take a slot (R151): no accepted row names it, and it is not BUSY. -/
def Core.slotFree (c : Core) (b : Nat) : Bool :=
  !(c.slotAt b).busy && c.flight.all fun x => !x.row.slots.contains b

/-- A slot written to zero (R154). -/
def Core.clearSlot (c : Core) (b : Nat) : Core :=
  let x := (c.slotAt b).bump
  let inside := fun a => decide (b * slotBytes ≤ a ∧ a < (b + 1) * slotBytes)
  { c with tiles := c.tiles.filter fun x => !inside x.1
           tilePoison := c.tilePoison.filter fun g => !inside (16 * g) }.setSlot b
    { x with z := .replicate 8 true, stamp := .replicate 8 x.gen }

def execMclrB (c : Ctl) (f : FR) (s : State) : Out :=
  run c s fun s => do
    let b := f.opd.idx
    if s.core.slotFree b then .ok (s.modCore fun k => k.clearSlot b).advance else hold s

def execMzfScan (c : Ctl) (f : FR) (s : State) : Out :=
  run c s fun s => do
    let b := f.opd.idx
    let k := s.core
    let x := k.slotAt b
    if x.busy then hold s
    else
      .ok (s.modCore fun k =>
        k.setSlot b { x with z := Vector.ofFn fun f => k.flagZero b f, stamp := .replicate 8 x.gen }).advance

def execMzfGet (c : Ctl) (f : FR) (s : State) : Out :=
  run c s fun s => do
    s.checkDest f.opd
    .ok (s.putS f.opd (s.core.slotAt f.opa.idx).word).advance

/-! ## Waiting (R152, R153, R157) -/

def tokReg : Operand → Fin 16
  | .tk n => n
  | _ => 0

/-- Consumes a complete token: TOKEN when it failed, with FAIL cleared. -/
def State.consume (s : State) (n : Fin 16) : Act Unit :=
  match (s.ctx.toks.get n).fail with
  | none => .ok ()
  | some w => raise (s.modCtx fun x => x.modTok n fun t => { t with fail := none }) .token w (w64 n)

def execMwait (c : Ctl) (f : FR) (s : State) : Out :=
  run c s fun s => do
    let n := tokReg f.opa
    if (s.ctx.toks.get n).count ≠ 0 then hold s
    else
      s.consume n
      .ok s.advance

def execMtok (c : Ctl) (f : FR) (s : State) : Out :=
  run c s fun s => do
    s.checkDest f.opd
    let n := tokReg f.opa
    if (s.ctx.toks.get n).count ≠ 0 then .ok (s.putP f.opd false).advance
    else
      s.consume n
      .ok (s.putP f.opd true).advance

def execMdrain (c : Ctl) (_f : FR) (s : State) : Out :=
  run c s fun s => if s.ctx.toks.all fun t => t.count == 0 then .ok s.advance else hold s

end Sys2Proof.Machine
end

