-- ==== Sys2Proof/Machine/MemForms.lean ====
section
/-! DEFINITION. Loads and stores, prefetch, stash maintenance and stash fill (R212 to R221). -/

namespace Sys2Proof.Machine

/-! ## Scalar accesses (R212, R214, R217) -/

/-- Bytes of a scalar element (Table 13-1). -/
def scalarSize (t : Ty) : Nat :=
  match t with
  | .i => 8 | .n => 8 | .f32 => 4 | .f16 => 2 | .bf16 => 2 | _ => 1

def execLd (c : Ctl) (f : FM) (s : State) : Out :=
  run c s fun s => do
    s.checkDest f.opd
    let z := scalarSize f.ta
    let (bs, s1) ← s.scalarRead (s.fmBase f + s.val f.opb) z z 0 f.nt
    .ok (s1.putS f.opd (w64 (leVal bs))).advance

def execSt (c : Ctl) (f : FM) (s : State) : Out :=
  run c s fun s => do
    let z := scalarSize f.ta
    let s1 ← s.scalarWrite (s.fmBase f + s.val f.opb) z (s.val f.opd).toNat f.nt
    .ok s1.advance

/-! ## Vector accesses (R213 to R218) -/

/-- The data register of a vector access (R213), which names no TRAPVAL for a width that it does not have (R386). -/
def State.vecData (s : State) (i : Instr) (f : FM) (atomic : Bool) : Act Fld := do
  s.vecStart i
  let d ← s.field f.opd f.ta 0 .any
  let w := d.width
  if w = 32 || w = 64 || (!atomic && (w = 8 || w = 16)) then .ok d else trapOp s .operandClass i

/-- The element of position i at an address, with its trap indices. -/
def VElem.at_ (i : Nat) (p : Word) (i0 : Word) (i1 : Word := 0) (i2 : Word := 0) : VElem :=
  { pos := i, i0 := i0, i1 := i1, i2 := i2, addr := .ptr p }

/-- Elements of the active lanes, each at an address that its position and row give. -/
def State.planOf (s : State) (f : FM) (addr : Nat → BitVec 512 → VElem) : List VElem :=
  let c := s.core
  (s.active f.msk).map fun i => addr i (c.row (s.lane i))

/-- Element index of a position. -/
def State.elemIdx (s : State) (i : Nat) : Word := s.sidx + w64 i

/-- Unit stride, strided and indexed addresses (Table 13-2). -/
def State.planUnit (s : State) (f : FM) (z : Nat) : List VElem :=
  s.planOf f fun i _ => .at_ i (s.fmBase f + s.elemIdx i * w64 z) (s.elemIdx i)
def State.planStride (s : State) (f : FM) : List VElem :=
  s.planOf f fun i _ => .at_ i (s.fmBase f + s.elemIdx i * s.val f.opb) (s.elemIdx i)
def State.planIndex (s : State) (f : FM) (z : Nat) (x : Fld) : List VElem :=
  s.planOf f fun i r => .at_ i (offPtr (s.fmBase f) (x.int r * z)) (s.elemIdx i) (BitVec.ofInt 64 (x.int r))

/-- Dimensions (R215). An element that raises RANGE names its indices i0, i1 and i2, as R215 says for these forms, where R175 gives
SIDX + position: the model's choice (assumption log 21). -/
def State.planDims (s : State) (f : FM) (z : Nat) : List VElem :=
  let ds := s.ctx.dimsTo f.opb.idx
  s.planOf f fun i _ =>
    let e := (s.elemIdx i).toNat
    let ix := dimIndex ds e
    let v := VElem.at_ i (offPtr (s.fmBase f) (dimOffset ds e * z)) (w64 (ix.getD 0 0)) (w64 (ix.getD 1 0)) (w64 (ix.getD 2 0))
    if dimTotal ds ≤ e then { v with addr := .skip } else v

/-- Elements of a typed access up to the first whose lookup faults (R218, R251). -/
def handleElems (h : Handle) (base : Word) (z : Nat) : List (Nat × Word) → Rd (List VElem)
  | [], s => .ok ([], s)
  | (i, e) :: is, s =>
    let v : VElem := { pos := i, i0 := e, i1 := 0, i2 := 0, addr := .unstored }
    match lookup h e e.toNat s with
    | .error (.wait s) => .error (.wait s)
    | .error (.trap t _) => .ok ([{ v with addr := .fail t }], s)
    | .ok (p, s) => do
      let (vs, s) ← handleElems h base z is s
      .ok ((match p with
        | some p => { v with addr := .ptr (base + w64 (p * z)) }
        | none => v) :: vs, s)

/-- Whether a handle is accepted with a data width (Table 15-3). -/
def handleFits (h : Handle) (w : Nat) : Bool :=
  hNlev h != 0 &&
  match fltOfTy (.ofCode (hEtype h)) with
  | some f => f.width == w
  | none => true

def State.planHandle (s : State) (f : FM) (z : Nat) : Act (List VElem × State) :=
  handleElems (s.handle f.opb) (s.fmBase f) z ((s.active f.msk).map fun i => (i, s.elemIdx i)) s

/-- A vector load, once its address operands are resolved (R217): checks, pops, elements, residency. -/
def State.vecLoad (s : State) (i : Instr) (f : FM) (d : Fld) (srcs : List (Operand × Fld)) (hot : Nat)
    (plan : State → Act (List VElem × State)) : Act State := do
  s.checkOverlap f.opd d (srcs.map Prod.snd)
  s.checkStream f.opd i
  let s1 ← s.popAll (srcs.map Prod.fst)
  undo s do
    srcs.forM fun x => s1.checkParity x.2 (List.range s1.slen)
    let (es, s2) ← plan s1
    let (rs, s3) ← s2.vecCheck (d.width / 8) false false f.ff es
    let (vs, s4) ← s3.loadElems s (d.width / 8) f.nt (some hot) rs
    .ok ((s4.putLanes d vs).residency rs).advance

/-- A vector store (R217). That the parity of the data field (R86), then of the index field, is checked before any element's
checks of Table 11-2 is the model's choice (assumption log 16). -/
def State.vecStore (s : State) (f : FM) (d : Fld) (srcs : List (Operand × Fld)) (hot : Nat)
    (plan : State → Act (List VElem × State)) : Act State := do
  let s1 ← s.popAll (f.opd :: srcs.map Prod.fst)
  undo s do
    s1.checkParity d (List.range s1.slen)
    srcs.forM fun x => s1.checkParity x.2 (List.range s1.slen)
    let (es, s2) ← plan s1
    let (rs, s3) ← s2.vecCheck (d.width / 8) true false f.ff es
    let c := s3.core
    let s4 ← s3.storeElems (d.width / 8) (some hot) s3.newAcc (s3.pinsOf s3.cur.core (locsOf rs)) f.nt (fun i => d.get (c.row (s3.lane i))) rs
    .ok (s4.residency rs).advance

def execVld (c : Ctl) (f : FM) (s : State) : Out :=
  run c s fun s => do
    let d ← s.vecData (.vld c f) f false
    s.vecLoad (.vld c f) f d [] 0 fun s => .ok (s.planUnit f (d.width / 8), s)

def execVlds (c : Ctl) (f : FM) (s : State) : Out :=
  run c s fun s => do
    let d ← s.vecData (.vlds c f) f false
    s.vecLoad (.vlds c f) f d [] 1 fun s => .ok (s.planStride f, s)

def execVldx (c : Ctl) (f : FM) (s : State) : Out :=
  run c s fun s => do
    let d ← s.vecData (.vldx c f) f false
    let x ← s.field f.opb .fm 0 .int
    s.vecLoad (.vldx c f) f d [(f.opb, x)] 2 fun s => .ok (s.planIndex f (d.width / 8) x, s)

def execVldd (c : Ctl) (f : FM) (s : State) : Out :=
  run c s fun s => do
    let d ← s.vecData (.vldd c f) f false
    s.vecLoad (.vldd c f) f d [] 1 fun s => .ok (s.planDims f (d.width / 8), s)

def execVst (c : Ctl) (f : FM) (s : State) : Out :=
  run c s fun s => do
    let d ← s.vecData (.vst c f) f false
    s.vecStore f d [] 0 fun s => .ok (s.planUnit f (d.width / 8), s)

def execVsts (c : Ctl) (f : FM) (s : State) : Out :=
  run c s fun s => do
    let d ← s.vecData (.vsts c f) f false
    s.vecStore f d [] 1 fun s => .ok (s.planStride f, s)

def execVstx (c : Ctl) (f : FM) (s : State) : Out :=
  run c s fun s => do
    let d ← s.vecData (.vstx c f) f false
    let x ← s.field f.opb .fm 0 .int
    s.vecStore f d [(f.opb, x)] 2 fun s => .ok (s.planIndex f (d.width / 8) x, s)

def execVstd (c : Ctl) (f : FM) (s : State) : Out :=
  run c s fun s => do
    let d ← s.vecData (.vstd c f) f false
    s.vecStore f d [] 1 fun s => .ok (s.planDims f (d.width / 8), s)

/-- HANDLE_TYPE and the check of a custom program, before any element (R252). -/
def State.typedCheck (s : State) (o : Operand) (w : Nat) : Act Unit :=
  let h := s.handle o
  if handleFits h w then do
    let _ ← precheck h s
    .ok ()
  else handleTrap s h (hreg o)

def execVldh (c : Ctl) (f : FM) (s : State) : Out :=
  run c s fun s => do
    let d ← s.vecData (.vldh c f) f false
    undo s (s.typedCheck f.opb d.width)
    s.vecLoad (.vldh c f) f d [] 2 fun s => s.planHandle f (d.width / 8)

def execVsth (c : Ctl) (f : FM) (s : State) : Out :=
  run c s fun s => do
    let d ← s.vecData (.vsth c f) f false
    undo s (s.typedCheck f.opb d.width)
    s.vecStore f d [] 2 fun s => s.planHandle f (d.width / 8)

/-! ## Prefetch (R219) -/

/-- Whether the page that a stash line is bound to is VALID. -/
def State.lineValid (s : State) (line : Nat) : Bool :=
  match look s.core.lines line with
  | none => false
  | some l =>
    match s.walk l.asid l.va.toNat with
    | .valid _ _ _ _ => true
    | _ => false

/-- One request: the byte that stands for its sector. The L1 and the home L2 take it, or the home L2 alone, or with NT neither
(R178). -/
def State.prefetch (s : State) (l1 nt : Bool) (p : Word) : State :=
  match s.checkPtr p 1 1 with
  | .ok (.virt va) =>
    match s.tlbWalk s.cur.core s.asid va with
    | (.valid log pa _ _, s1) =>
      let a := pa + va % 2 ^ log
      if nt || s1.claimed (a / 128 * 128) 128 then s1
      else if l1 && (s1.core.l1Find s.asid va).isNone then s1.l1Fill s.cur.core s.asid va a
      else s1.touchL2 a
    | _ => s
  | .ok (.stash off) =>
    if s.core.stalled (off / 128 * 128) 128 false || !s.lineValid (off / 512) then s
    else
      match s.fillSector s.cur.core (off / 512) (Fin.ofNat 4 (off / 128)) with
      | .done s => s
      | _ => s
  | _ => s

/-- A byte in each sector that n bytes from p on touch. -/
def sectorStarts (p : Word) (n : Nat) : List Word := (chunks p n).map Prod.fst

def execPrf (c : Ctl) (f : FM) (s : State) : Out :=
  run c s fun s => do
    let sc ← s.scope f.scope (.prf c f)
    let ps := sectorStarts (s.fmBase f) (min (s.val f.opb).toNat 65536)
    .ok (ps.foldl (fun s p => s.prefetch (sc == .core) f.nt p) s).advance

/-! ## Stash lines (R220, R221) -/

/-- The stash offset of a pointer into the own stash: WINDOW for another window after orders 1 to 3. -/
def State.ownStash (s : State) (p : Word) (z : Nat) : Act Nat :=
  match malformed p with
  | some c => raise s c p
  | none =>
    if windowOf p != 9 then raise s .window p
    else
      match s.checkPtr p z 1 with
      | .ok (.stash off) => .ok off
      | .ok _ => raise s .window p
      | .error c => raise s c p

/-- A line unbound, its bytes reading 0. -/
def Core.unbind (c : Core) (line : Nat) : Core :=
  { c with lines := del c.lines line
           stash := c.stash.filter fun x => x.1 / 512 != line
           stashPoison := c.stashPoison.filter fun g => g / 64 != line }
/-- A line bound to a global line, every sector INVALID and no frame recorded. -/
def Core.bind (c : Core) (line : Nat) (va : Word) (asid : Fin 16) : Core :=
  c.setLine line { va := va, asid := asid, frame := none, secs := .replicate 4 .invalid }

/-- Every DIRTY sector of a line is written back and every sector dropped (Table 11-3); the write-backs are published as they
perform (R220). -/
def State.dropLine (s : State) (core line : Nat) : Act State :=
  (List.finRange 4).foldlM (fun s j => s.writeBack core line j true false none) s

def execCmoWb (c : Ctl) (f : FM) (s : State) : Out :=
  run c s fun s => do
    let _ ← s.scope f.scope (.cmoWb c f)
    let off ← s.ownStash (s.fmBase f) 1
    let n := off / 512
    if s.core.stalled (512 * n) 512 true then hold s
    else do
      let s ← undo s (s.dropLine s.cur.core n)
      .ok (match look s.core.lines n with
        | some l => (s.modCore fun k => k.bind n l.va l.asid).advance
        | none => s.advance)

/-- Whether a binding is a well-formed global pointer on a line (R220). -/
def bindable (v : Word) : Bool := windowOf v == 0 && (malformed v).isNone && v.toNat % 512 == 0

def execCmoBind (c : Ctl) (f : FM) (s : State) : Out :=
  run c s fun s => do
    let _ ← s.scope f.scope (.cmoBind c f)
    let off ← s.ownStash (s.fmBase f) 1
    let n := off / 512
    let v := s.val f.opd
    if v != 0 && !bindable v then raise s .range v
    else if s.core.stalled (512 * n) 512 true then hold s
    else do
      let s ← undo s (s.dropLine s.cur.core n)
      .ok (s.modCore fun k => if v = 0 then k.unbind n else k.bind n v s.asid).advance

def execCmoInv (c : Ctl) (f : FM) (s : State) : Out :=
  run c s fun s => do
    let sc ← s.scope f.scope (.cmoInv c f)
    if sc != .core then raise s .range (f.scope.code.zeroExtend 64)
    else
      let p := s.fmBase f
      match malformed p with
      | some c => raise s c p
      | none =>
        if windowOf p != 0 && windowOf p != 8 then raise s .window p
        else
          match ← s.scalarLoc p 1 1 false with
          | (.hbm asid va _, s) =>
            .ok (s.modCore fun k =>
              { k with l1 := k.l1.filter fun e => !(e.asid == asid && e.va == va / 128 * 128) }).advance
          | (_, s) => .ok s.advance

/-- Fills the sectors of a range from `b` on (R221): ABSENT ones are requested, in the address space of their line, and left. -/
def State.fillRange (s : State) (p : Word) : List Nat → Act State
  | [] => .ok s
  | b :: bs =>
    match s.fillSector s.cur.core (b / 4) (Fin.ofNat 4 b) with
    | .done s => s.fillRange p bs
    | .absent =>
      let va := ((look s.core.lines (b / 4)).map fun l => l.va.toNat).getD 0 + 128 * (b % 4)
      let asid := ((look s.core.lines (b / 4)).map Line.asid).getD s.asid
      (s.postResidency asid va (BitVec.ofNat 32 s.cur.core)).fillRange p bs
    | .cause c => raise s c p
    | .bad a => raiseBad s p 0 9 a
    | .held => hold s

/-- Whether a sector is ready: CLEAN, DIRTY or unbound. -/
def Core.sectorReady (c : Core) (b : Nat) : Bool :=
  match look c.lines (b / 4) with
  | none => true
  | some l => l.secs.get (Fin.ofNat 4 b) != .invalid

def execStfl (c : Ctl) (f : FM) (s : State) : Out :=
  run c s fun s => do
    s.checkDest f.opd
    let p := s.fmBase f
    let n := (s.val f.opb).toNat
    let off ← s.ownStash p n
    let secs := granules 7 off n
    if s.core.stalled off n false then hold s
    else do
      let s ← s.fillRange p secs
      .ok (s.putP f.opd (secs.all s.core.sectorReady)).advance

end Sys2Proof.Machine
end

