-- ==== Sys2Proof/Machine/Sync.lean ====
section
/-! DEFINITION. Atomics, phase boundaries and barrier objects (R222 to R228), and the events of stores, stash
sectors and back-invalidates (R181, R182, R185, R195). -/

namespace Sys2Proof.Machine

/-! ## Atomics (R202, R203, R222 to R224) -/

/-- The new w-bit pattern (R222). -/
def amoVal (op : AmoOp) (w old b : Nat) : Nat :=
  let lt := intVal true w old < intVal true w b
  match op with
  | .add => (old + b) % 2 ^ w
  | .and => old &&& b | .or => old ||| b | .xor => old ^^^ b
  | .min => if intVal true w b < intVal true w old then b else old
  | .max => if lt then b else old
  | .minn => min old b | .maxn => max old b
  | .swap => b

/-- The scope at which an atomic acts: CORE on a stash location (R202). -/
def atomicScope (l : Loc) (sc : Scope) : Scope :=
  match l with
  | .stash _ => .core
  | _ => sc

/-- The scope of the boundary of a vector atomic: CORE when every element is on a stash location. -/
def elemsScope (rs : List (VElem × Ready)) (sc : Scope) : Scope :=
  let ls := rs.filterMap fun x => match x.2 with
    | .at_ l => some l
    | _ => none
  if !ls.isEmpty && ls.all fun l => atomicScope l sc == .core then .core else sc

/-- A scalar atomic of the executing context (R202, R203): the old value. `f` gives the value to write, if any. -/
def State.scalarAmo (s : State) (p : Word) (z : Nat) (ph : Bool) (sc : Scope) (f : Nat → Option Nat) :
    Act (Nat × State) :=
  undo s do
    let (l, s1) ← s.scalarLoc p z z true
    let sc := atomicScope l sc
    let s2 ← if ph then s1.publish s1.key sc else .ok s1
    let (old, bad, s3) ← s2.ctxAtomic s2.key l z f
    if bad then raiseBad s p 0 l.mem.1 l.mem.2
    else do
      let s4 ← if ph then s3.refresh s3.key sc else .ok s3
      .ok (old, s4)

def execAmo (c : Ctl) (op : AmoOp) (f : FM) (s : State) : Out :=
  run c s fun s => do
    s.checkDest f.opd
    let sc ← s.scope f.scope (.amo c op f)
    let z := scalarSize f.ta
    let b := (s.val f.opb).toNat % 2 ^ (8 * z)
    let (old, s1) ← s.scalarAmo (s.fmBase f) z f.ph sc fun old => some (amoVal op (8 * z) old b)
    .ok (s1.putS f.opd (w64 old)).advance

def execCas (c : Ctl) (f : FM) (s : State) : Out :=
  run c s fun s => do
    s.checkDest f.opd
    let sc ← s.scope f.scope (.cas c f)
    let z := scalarSize f.ta
    let want := (s.val f.opd).toNat % 2 ^ (8 * z)
    let new := (s.val f.opb).toNat % 2 ^ (8 * z)
    let (old, s1) ← s.scalarAmo (s.fmBase f) z f.ph sc fun old => if old = want then some new else none
    .ok (s1.putS f.opd (w64 old)).advance

/-- Atomics of a strip (R224). That the parity of the data field, then of the index field (R86), is checked before any element's
checks of Table 11-2 is the model's choice (assumption log 16). -/
def execVamo (c : Ctl) (op : AmoOp) (f : FM) (s : State) : Out :=
  run c s fun s => do
    let i : Instr := .vamo c op f
    let d ← s.vecData i f true
    let x ← s.field f.opb .fm 0 .int
    let sc ← s.scope f.scope i
    let s1 ← s.popAll [f.opd, f.opb]
    undo s do
      s1.checkParity d (List.range s1.slen)
      s1.checkParity x (List.range s1.slen)
      let es := (s1.planIndex f (d.width / 8) x).map fun e => { e with i1 := 0 }
      let (rs, s2) ← s1.vecCheck (d.width / 8) true true f.ff es
      let ph := f.ph && s2.inBody
      let sc := elemsScope rs sc
      let s3 ← if ph then s2.publish s2.key sc else .ok s2
      let k := s3.core
      let s4 ← s3.atomicElems s (d.width / 8) (amoVal op d.width) (fun i => d.get (k.row (s3.lane i))) rs
      let s5 ← if ph then s4.refresh s4.key sc else .ok s4
      .ok (s5.residency rs).advance

/-! ## Phase (R225) -/

/-- The scope that an operand of class 0xC names; none raises OPERAND_CLASS. -/
def State.scopeOperand (s : State) (o : Operand) (i : Instr) : Act Scope :=
  match o with
  | .sc .none => trapOp s .operandClass i
  | .sc x => s.scope x i
  | _ => trapOp s .operandClass i

def execPhase (c : Ctl) (f : FR) (s : State) : Out :=
  run c s fun s => do
    let sc ← s.scopeOperand f.opa (.phase c f)
    let s ← undo s (s.boundary s.key sc)
    .ok s.advance

/-! ## Barrier objects (R226 to R228) -/

/-- Fields of a barrier object (Table 13-3). -/
def barGen (o : Nat) : Nat := o / 2 ^ 96 % 2 ^ 32
def barCur (o : Nat) : Nat := o / 2 ^ 32 % 2 ^ 32
def barExp (o : Nat) : Nat := o % 2 ^ 32

/-- The object after `Arrive(obj, n)` (R227). -/
def arrive (o n : Nat) : Nat :=
  let c := barCur o + n
  let keep := o / 2 ^ 65 % 2 ^ 31 * 2 ^ 65 + barExp o
  if barExp o ≤ c then
    let g := (barGen o + 1) % 2 ^ 32
    keep + g * 2 ^ 96 + g % 2 * 2 ^ 64 + min (c - barExp o) (2 ^ 32 - 1) * 2 ^ 32
  else keep + barGen o * 2 ^ 96 + o / 2 ^ 64 % 2 * 2 ^ 64 + c * 2 ^ 32

/-- Orders 1 to 3 for a barrier pointer, and the check that R226 adds after them. -/
def barPtr (p : Word) : Option Cause :=
  match malformed p with
  | some c => some c
  | none => if windowOf p = 0 || windowOf p = 8 then some .window else none

/-- Where a barrier object lies, for the executing context. -/
def State.barLoc (s : State) (p : Word) : Act (Loc × State) :=
  match barPtr p with
  | some c => raise s c p
  | none => s.scalarLoc p 16 16 true

/-- GEN of the object, read at its home. -/
def State.barRead (s : State) (p : Word) : Act (Nat × State) := do
  let (l, s1) ← s.barLoc p
  let (old, bad, s2) ← s1.ctxAtomic s1.key l 16 fun _ => none
  if bad then raiseBad s p 0 l.mem.1 l.mem.2 else .ok (barGen old, s2)

/-- The scope that SUB of a barrier form holds. -/
def State.subScope (s : State) (sub : BitVec 5) (i : Instr) : Act Scope :=
  s.scope ((Scope.ofCode sub.toNat).getD .none) i

def execBarinit (c : Ctl) (f : FR) (s : State) : Out :=
  run c s fun s => do
    let b := (s.val f.opb).toNat
    if 2 ^ 32 ≤ b || b = 0 then trapOp s .range (.barinit c f)
    else
      undo s do
        let (l, s1) ← s.barLoc (s.val f.opa)
        let s2 ← s1.drainLoc s1.key l 16
        let s3 ← (s2.noteLoc (.ctx s2.key) l (leBytes 16 b)).homeWrite s2.cur.core l (leBytes 16 b) false
        .ok s3.advance

def execBararr (c : Ctl) (f : FR) (s : State) : Out :=
  run c s fun s => do
    s.checkDest f.opd
    let sc ← s.subScope f.sub (.bararr c f)
    let b := (s.val f.opb).toNat
    if 2 ^ 32 ≤ b then trapOp s .range (.bararr c f)
    else
      undo s do
        let p := s.val f.opa
        let (l, s1) ← s.barLoc p
        let s2 ← s1.publish s1.key sc
        let (old, bad, s3) ← s2.ctxAtomic s2.key l 16 fun o => some (arrive o b)
        if bad then raiseBad s p 0 l.mem.1 l.mem.2 else .ok (s3.putS f.opd (w64 (barGen old))).advance

/-- What a waiter gains when it finds the phase flipped: step 4 at its scope, and the writes of cards whose visible
arrivals belong to the phase (R205): the core's L1 holds nothing older. -/
def State.passBarrier (s : State) (sc : Scope) : Act State := do
  let s ← s.refresh s.key sc
  .ok (s.modCore fun c => { c with l1 := [] })

def execBarwait (c : Ctl) (f : FR) (s : State) : Out :=
  run c s fun s => do
    let sc ← s.subScope f.sub (.barwait c f)
    undo s do
      let (g, s1) ← s.barRead (s.val f.opa)
      if g = (s.val f.opb).toNat % 2 ^ 32 then hold s1
      else do
        let s2 ← s1.passBarrier sc
        .ok s2.advance

def execBartest (c : Ctl) (f : FR) (s : State) : Out :=
  run c s fun s => do
    s.checkDest f.opd
    let sc ← s.subScope f.sub (.bartest c f)
    undo s do
      let (g, s1) ← s.barRead (s.val f.opa)
      if g = (s.val f.opb).toNat % 2 ^ 32 then .ok (s1.putP f.opd false).advance
      else do
        let s2 ← s1.passBarrier sc
        .ok (s2.putP f.opd true).advance

/-! ## Stores and stash sectors on their own -/

/-- A pending store performs (R195), not before an earlier store of its context to the same bytes (R197); its page is pinned, and
it performs also while its gang is taken out or its quarter has stopped (Table 21-2, R318). -/
def execStorePerform (k : Nat) (s : State) : Out :=
  match s.pend[k]? with
  | none => .next s
  | some p =>
    if s.storeReady p && (s.pend.take k).all fun q => q.ctx != p.ctx || !q.overlap p.home p.addr p.bytes.length then
      .next ({ s with pend := s.pend.eraseIdx k }.performStore p)
    else .next s

/-- A sector of a bound line fills (R181). -/
def execStashFill (core : Fin 320) (line : Nat) (sector : Fin 4) (s : State) : Out :=
  match s.fillSector core line sector with
  | .done s => .next s
  | .absent =>
    match look (s.coreAt core).lines line with
    | some l => .next (s.postResidency l.asid (l.va.toNat + 128 * sector.val) (BitVec.ofNat 32 core))
    | none => .next s
  | _ => .next s

/-- A DIRTY sector that a boundary under way is to write back is written back, and stays CLEAN until the boundary drops it
(R182, R183, R195); one that cannot be stays DIRTY (R385). -/
def execStashWriteBack (core : Fin 320) (line : Nat) (sector : Fin 4) (s : State) : Out :=
  if !(s.coreAt core).due.contains (4 * line + sector) || (s.quarter (quarterOf core)).stopped then .next s
  else match s.writeBack core line sector false with
  | .ok s => .next s
  | .error (.wait s) => .next s
  | .error (.trap _ _) => .next s

/-- A back-invalidate of a sector by its number (R185). -/
def execBackInvalidate (sector : Nat) (s : State) : Out := .next (s.backInvalidate (sector * 128)).state

end Sys2Proof.Machine
end

