-- ==== Sys2Proof/Machine/Engine.lean ====
section
/-! DEFINITION. Accesses of engines that run beside the cores (R204, R207, R209, R233): reads, writes and applied
elements at their homes, with poison marks (R366), and footprint regions (R230, R231). -/

namespace Sys2Proof.Machine

/-- Why an engine's access does not perform: an ABSENT page, a check that fails, a poisoned page-table entry or
poisoned control data, with the code of its memory (Table 26-2), or a home that holds it for now. -/
inductive Snag
  | absent (asid : Fin 16) (va : Nat)
  | fail (c : Cause) (p : Word)
  | bad (p : Word) (mem addr : Nat)
  | held
deriving DecidableEq, Repr

/-- An engine's action. -/
abbrev Eng := StateT State (Except Snag)

def snag {α : Type} (x : Snag) : Eng α := fun _ => .error x

/-- The checks of one element, and its place. -/
def engFind (a : Agent) (p : Word) (z al : Nat) (write : Bool) : Eng Loc := fun s =>
  match s.find a p z al write with
  | (.fail c, _) => .error (.fail c p)
  | (.bad m, _) => .error (.bad p 9 m)
  | (.absent d va, _) => .error (.absent d va)
  | (.at_ l, s1) => .ok (l, s1)

/-- The home of z bytes at a place is free of claims. -/
def engFree (a : Agent) (l : Loc) (z : Nat) (write : Bool) : Eng Unit := fun s =>
  let held := match l with
    | .hbm _ _ pa => s.claimed pa z
    | _ => s.locHeld a.core l z write
  if held then .error .held else .ok ((), s)

/-- The checks of one element, with its home free of claims. -/
def engLoc (a : Agent) (p : Word) (z al : Nat) (write : Bool) : Eng Loc := do
  let l ← engFind a p z al write
  engFree a l z write
  pure l

/-- The parts of a write, found as their pages are pinned. -/
def engParts (a : Agent) (al : Nat) (xs : List (Word × Nat)) : Eng (List Part) :=
  xs.mapM fun x => do pure { ptr := x.1, n := x.2, loc := ← engFind a x.1 x.2 al true }

/-- The place at which a part is written: through the translation that its pin holds (R189), with a stash sector's own fill. -/
def engPinned (a : Agent) (x : Part) : Eng Loc :=
  match x.loc with
  | .hbm _ _ _ => do
    engFree a x.loc x.n true
    pure x.loc
  | _ => engLoc a x.ptr x.n 1 true

/-- Bytes with their poison marks. -/
abbrev Data := List (Byte × Bool)

/-- Marks of the n bytes at a location. -/
def State.marksAt (s : State) (core : Nat) (l : Loc) (n : Nat) : List Bool :=
  (List.range n).map fun i =>
    match l with
    | .hbm _ _ pa => marked 6 s.memPoison (pa + i) 1
    | .stash off => marked 3 (s.coreAt core).stashPoison (off + i) 1
    | .cluster c => marked 3 s.clsPoison (c + i) 1

/-- Marks the granule of a byte at a location (R366). -/
def State.markByte (s : State) (core : Nat) (l : Loc) (i : Nat) : State :=
  match l with
  | .hbm _ _ pa => { s with memPoison := setAdd s.memPoison ((pa + i) / 64) }
  | .stash off => s.modCoreAt core fun c => { c with stashPoison := setAdd c.stashPoison ((off + i) / 8) }
  | .cluster c => { s with clsPoison := setAdd s.clsPoison ((c + i) / 8) }

/-- A home action of an engine; a hold at the home is a snag. -/
def engStep {α : Type} (f : State → Act (α × State)) : Eng α := fun s =>
  match f s with
  | .ok (x, s) => .ok (x, s)
  | .error _ => .error .held

/-- The issuer's earlier stores to n bytes of a location perform before the engine's own access: issuing the engine's work has
published them to it, and to it alone (R204, R207). -/
def engFollow (a : Agent) (l : Loc) (n : Nat) : Eng Unit :=
  match a.issuer with
  | some k => engStep fun s => (s.drainLoc k l n).map fun s => ((), s)
  | none => pure ()

/-- The n bytes at a location. -/
def engBytes (a : Agent) (l : Loc) (n : Nat) : Eng (List Byte) := do
  engFollow a l n
  engStep fun s => (s.homeRead a.core l n).map fun r => (r.1, r.2.2)

/-- The pages that n bytes from p on lie in. -/
def State.enginePages (s : State) (a : Agent) (p : Word) (n : Nat) : List Pinned :=
  s.pinsOf a.tlb ((chunks p n).filterMap fun x => match (s.find a x.1 x.2 1 false).1 with
    | .at_ l => some l
    | _ => none)

/-- Reads n bytes at their homes. -/
def engRead (a : Agent) (p : Word) (n : Nat) : Eng Data := do
  let parts ← (chunks p n).mapM fun x => do
    let l ← engLoc a x.1 x.2 1 false
    let bs ← engBytes a l x.2
    let s ← get
    pure (bs.zip (s.marksAt a.core l x.2))
  pure parts.flatten

/-- Writes n bytes at a location, at their home: as the agent's own writes, or published as they perform. -/
def engPut (a : Agent) (l : Loc) (part : Data) (pub : Bool) : Eng Unit := do
  let bytes := part.map Prod.fst
  engFollow a l bytes.length
  if !pub then modify fun s => s.noteLoc a.who l bytes (part.any Prod.snd)
  engStep fun s => (s.homeWrite a.core l bytes false).map fun s => ((), s)
  if pub then modify fun s => s.publishLoc l bytes.length
  modify fun s => (List.range part.length).foldl (fun s i =>
    if (part.getD i (0, false)).2 then s.markByte a.core l i else s) s

/-- Writes bytes at the locations of their parts, each of so many bytes. -/
def engPutAll (a : Agent) (pub : Bool) : List (Nat × Loc) → Data → Eng Unit
  | [], _ => pure ()
  | x :: xs, d => do
    engPut a x.2 (d.take x.1) pub
    engPutAll a pub xs (d.drop x.1)

/-- Writes bytes at the places of their parts; every part is free before the first is written. -/
def engWriteParts (a : Agent) (ps : List Part) (d : Data) (pub : Bool) : Eng Unit := do
  let ls ← ps.mapM (engPinned a)
  engPutAll a pub ((ps.zip ls).map fun x => (x.1.n, x.2)) d

/-- Writes bytes at their homes; every part is checked before the first is written. `pub` says that they are published as they
perform. -/
def engWrite (a : Agent) (p : Word) (d : Data) (pub : Bool := false) : Eng Unit := do
  let ps ← engParts a 1 (chunks p d.length)
  engWriteParts a ps d pub

/-- A little-endian value of one element of control data; poison in it is an error of the engine. -/
def engVal (a : Agent) (p : Word) (z : Nat) : Eng Nat := do
  let l ← engLoc a p z z false
  let bs ← engBytes a l z
  let s ← get
  if (s.marksAt a.core l z).any id then snag (.bad p l.mem.1 l.mem.2) else pure (leVal bs)

/-! ## Applied elements (R209, R234) -/

/-- The operations of trains, RCOPY and binning on elements of 2^zlog bytes (R234). -/
def applyOp (op zlog old b : Nat) : Nat :=
  let flt := fun (f : Flt) (x : Num) => (f.round x .rne false 0).bits
  match op with
  | 0x10 => flt .f32 ((Flt.f32.val old).add false (Flt.f32.val b))
  | 0x11 => flt .bf16 ((Flt.bf16.val old).add false (Flt.bf16.val b))
  | 0x12 => flt .f32 (Num.minmax true (Flt.f32.val old) (Flt.f32.val b))
  | op => amoVal (amoOf op) (8 * 2 ^ zlog) old b

/-- Whether an operation code takes an element size (R234). -/
def applyOk (op zlog : Nat) : Bool :=
  decide (op ≤ 8) || (op == 0x10 && zlog == 2) || (op == 0x11 && zlog == 1) || (op == 0x12 && zlog == 2)

/-- Applies one element at its home as a PH = 0 atomic; a poisoned destination stays as it is, poisoned data marks
it (R366). -/
def engApply (a : Agent) (l : Loc) (op zlog v : Nat) (bad : Bool) : Eng Unit := do
  engFollow a l (2 ^ zlog)
  let _ ← engStep fun s =>
    (s.homeAtomic a.core l (2 ^ zlog) fun old => some (applyOp op zlog old v)).map fun r => (r.1, r.2.2)
  if bad then modify fun s => s.markByte a.core l 0

/-! ## Arrivals (R227, R238) -/

/-- An arrival of n at a barrier object; 0 makes none. -/
def engArrive (a : Agent) (p : Word) (n : Nat) : Eng Unit := do
  if p = 0 then pure ()
  else
    match barPtr p with
    | some c => snag (.fail c p)
    | none => do
      let l ← engLoc a p 16 16 true
      engFollow a l 16
      let _ ← engStep fun s => (s.homeAtomic a.core l 16 fun o => some (arrive o n)).map fun r => (r.1, r.2.2)
      pure ()

/-! ## Footprints (R230, R231) -/

/-- A byte range by its lowest pointer, as an exact integer, and its length. -/
structure Range where
  lo : Int
  len : Nat
deriving DecidableEq, Repr

/-- The range that n rows of len bytes from p on touch, at a distance (R231); rows of no bytes touch none. -/
def hull (p : Word) (stride : Int) (rows len : Nat) : Range :=
  let a : Int := p.toNat
  let b := a + (rows - 1 : Nat) * stride
  if rows = 0 ∨ len = 0 then { lo := a, len := 0 } else { lo := min a b, len := (max a b - min a b).toNat + len }

def intPtr (x : Int) : Word := BitVec.ofInt 64 x

/-- The space and bytes of a range, as footprints compare them. -/
def Range.region (a : Agent) (r : Range) : Region :=
  let p := intPtr r.lo
  let x : Space × Nat := match windowOf p with
    | 8 => (.virt a.asid, (a.pbase.toNat + bitsAt p 0 32) % 2 ^ 57)
    | 9 => (.stash (ptrCore p), bitsAt p 0 20)
    | 10 => (.cluster (ptrCluster p), bitsAt p 0 23)
    | _ => (.virt a.asid, p.toNat)
  { space := x.1, lo := x.2, hi := x.2 + r.len }

def Region.meets (a b : Region) : Bool := decide (a.space = b.space) && decide (a.lo < b.hi ∧ b.lo < a.hi)
def regionsMeet (as bs : List Region) : Bool := as.any fun a => bs.any a.meets

/-- Orders 1 to 6 for the first and last byte of ranges (R230). -/
def State.checkRanges (s : State) (rs : List Range) : Act Unit :=
  rs.forM fun r =>
    if r.len = 0 then .ok ()
    else do
      let _ ← s.place (intPtr r.lo) 1 1
      let _ ← s.place (intPtr (r.lo + r.len - 1)) 1 1
      .ok ()

/-- A barrier pointer of an engine's form, 0 for none: orders 1 to 6 and R226. -/
def State.checkBarrier (s : State) (p : Word) : Act Unit :=
  if p = 0 then .ok ()
  else
    match barPtr p with
    | some c => raise s c p
    | none => do
      let _ ← s.place p 16 16
      .ok ()

/-- The scoreboard entries of a footprint on a core (R190). -/
def scoresOf (core id : Nat) (reads writes : List Region) : List Score :=
  let pick := fun (w : Bool) (rs : List Region) => rs.filterMap fun r =>
    if r.space = .stash core then some { lo := r.lo, hi := r.hi, write := w, card := id : Score } else none
  pick false reads ++ pick true writes

/-- Frees the entries of a card of one kind. -/
def State.freeScores (s : State) (core id : Nat) (write : Bool) : State :=
  s.modCoreAt core fun c => { c with scores := c.scores.filter fun e => !(e.card == id && e.write == write) }

/-- The data registers of an FE form (R37). -/
def State.feRegs (s : State) (f : FE) : List Word := s.readRun f.opa.idx (f.nreg.toNat + 1)

/-- RANGE that names register n of the block (R230). -/
def rangeReg {α : Type} (s : State) (rs : List Word) (n : Nat) : Act α := raise s .range (rs.getD n 0) (w64 n)

end Sys2Proof.Machine
end

