-- ==== Sys2Proof/Machine/Owner.lean ====
section
/-! DEFINITION. Ownership of the management window: who may write, refusals and their log (R356 to R358, R384),
and the OWNCMD commands (R357). -/

namespace Sys2Proof.Machine

/-! ## Writes of a master (R356, R358) -/

/-- The entry of a refused write (R358). -/
def mlogEntry (o : Owner) (m : Fin 4) (off : Nat) (v : Word) (status : Nat) : BitVec 128 :=
  BitVec.ofNat 128 (off % 2 ^ 22 + m.val * 2 ^ 22 + o.epoch.toNat * 2 ^ 32 + status * 2 ^ 48 + v.toNat * 2 ^ 64)

/-- MSTAT after a write; the outcome travels in the response to masters 1 to 3 (R356). -/
def Owner.setStatus (o : Owner) (m : Fin 4) (status refused : Nat) : Owner :=
  let c := (bitsAt (o.mstat.get m) 32 32 + refused) % 2 ^ 32
  { o with mstat := o.mstat.set m (w64 (c * 2 ^ 32 + status)) m.isLt
           replies := if m = 0 then o.replies else o.replies.set m (some (.wrote status)) m.isLt }

/-- A refused write: status, count and log. -/
def Owner.refuse (o : Owner) (m : Fin 4) (off : Nat) (v : Word) (status : Nat) : Owner :=
  { o.setStatus m status 1 with mlog := put o.mlog (o.mlogprod.toNat % 64) (mlogEntry o m off v status)
                                mlogprod := o.mlogprod + 1 }

def State.refuse (s : State) (m : Fin 4) (off : Nat) (v : Word) (status : Nat) : State :=
  { s with owner := s.owner.refuse m off v status }

/-- The value that the log takes of a misplaced write: its bytes in their places of the aligned word (R356). -/
def placedValue (off : Nat) (bytes : List Byte) : Word :=
  w64 (leVal (bytes.take (8 - off % 8)) * 2 ^ (8 * (off % 8)))

/-- A write that any master may make: done, or refused by the register's own rule with status 2. -/
def State.anyWrite (s : State) (m : Fin 4) (off : Nat) (v : Word) (f : State → Option State) : State :=
  match f s with
  | none => s.refuse m off v 2
  | some s' => { s' with owner := s'.owner.setStatus m 0 0 }

/-- A write that only the owner may make: status 1 for another master. -/
def State.ownerWrite (s : State) (m : Fin 4) (off : Nat) (v : Word) (f : State → Option State) : State :=
  if s.owner.own = m.val then s.anyWrite m off v f else s.refuse m off v 1

/-! ## OWNCMD (R357, Table 24-3) -/

def ownCmdOff : Nat := 0x10
def cmdTerm (v : Word) : Nat := bitsAt v 16 16
def cmdTarget (v : Word) : Nat := bitsAt v 8 3

/-- Whether the fields that every command shares are in order: reserved bits zero, EPOCH as it stands. -/
def Owner.cmdOk (o : Owner) (v : Word) : Bool :=
  bitsAt v 48 16 == 0 && bitsAt v 11 5 == 0 && bitsAt v 3 5 == 0 && bitsAt v 32 16 == o.epoch.toNat

/-- A change of owner. -/
def Owner.change (o : Owner) (own cand lease : Nat) : Owner :=
  { o with own := own, cand := cand, lease := lease, epoch := o.epoch + 1 }

/-- The effect of a command of a master, when it succeeds. -/
def Owner.command (o : Owner) (m : Fin 4) (act : Nat) (v : Word) : Option Owner :=
  if !o.cmdOk v then none
  else
    match act with
    | 1 => if o.own = 7 ∧ 100 ≤ cmdTerm v then some (o.change m o.cand (cmdTerm v)) else none
    | 2 => if o.own = m.val ∧ 100 ≤ cmdTerm v then some { o with lease := cmdTerm v } else none
    | 3 => if o.own = m.val ∧ cmdTarget v ≤ 3 ∧ cmdTarget v ≠ m.val then some { o with cand := cmdTarget v } else none
    | 4 => if o.cand = m.val then some (o.change m 7 o.lease) else none
    | 5 => if o.own = m.val then some (o.change 7 7 o.lease) else none
    | _ => none

/-- A write of OWNCMD with the given ACT. -/
def State.ownCommand (s : State) (m : Fin 4) (act : Nat) (v : Word) : State :=
  let v := (v &&& ~~~(7 : Word)) ||| w64 act
  s.anyWrite m ownCmdOff v fun s => (s.owner.command m act v).map fun o => { s with owner := o }

def execClaim (m : Fin 4) (v : Word) (s : State) : Out := .next (s.ownCommand m 1 v)
def execRenew (m : Fin 4) (v : Word) (s : State) : Out := .next (s.ownCommand m 2 v)
def execOffer (m : Fin 4) (v : Word) (s : State) : Out := .next (s.ownCommand m 3 v)
def execAccept (m : Fin 4) (v : Word) (s : State) : Out := .next (s.ownCommand m 4 v)
def execRelease (m : Fin 4) (v : Word) (s : State) : Out := .next (s.ownCommand m 5 v)

/-- Time passes on the lease; at 0 the device has no owner (R357). -/
def execLeaseExpiry (ms : Nat) (s : State) : Out :=
  let o := s.owner
  let left := o.lease - ms
  .next { s with owner := if o.own ≠ 7 ∧ left = 0 then o.change 7 7 0 else { o with lease := left } }

/-! ## MLOGCONS (R384) -/

def mlogconsOff : Nat := 0x48

/-- Number of the oldest entry still held and not consumed. -/
def Owner.oldest (o : Owner) : BitVec 32 :=
  if 64 < (o.mlogprod - o.mlogcons).toNat then o.mlogprod - 64 else o.mlogcons

def execMlogcons (m : Fin 4) (v : Word) (s : State) : Out :=
  .next (s.anyWrite m mlogconsOff v fun s =>
    let o := s.owner
    if v = 1 ∧ o.mlogcons ≠ o.mlogprod then some { s with owner := { o with mlogcons := o.oldest + 1 } } else none)

end Sys2Proof.Machine
end

