-- ==== Sys2Proof/Machine/Links.lean ====
section
/-! DEFINITION. The inlet links (R352 to R355): flits, retry, credits and planes. -/

namespace Sys2Proof.Machine

/-! ## Flits (Table 24-2) -/

abbrev Flit := BitVec 2048

def fSeq (f : Flit) : BitVec 12 := f.extractLsb' 0 12
def fVc (f : Flit) : Fin 4 := Fin.ofNat 4 (bitsAt f 12 2)
def fNull (f : Flit) : Bool := bitAt f 15
def fAck (f : Flit) : BitVec 12 := f.extractLsb' 16 12
def fCred (f : Flit) (v : Nat) : Nat := bitsAt f (32 + 8 * v) 8
def fSrc (f : Flit) : Nat := bitsAt f 64 10
def fDst (f : Flit) : Nat := bitsAt f 96 10

def crcPoly : BitVec 64 := 0x42F0E1EBA9EA3693

/-- The remainder of n bits, from the highest down, by the CRC polynomial (assumption log 27). -/
def crcFrom (f : Flit) : (n : Nat) → BitVec 64 → BitVec 64
  | 0, r => r
  | n + 1, r =>
    let top := r.msb != f.getLsbD n
    crcFrom f n (if top then (r <<< 1) ^^^ crcPoly else r <<< 1)

/-- CRC-64 over bits [1983:0] (R352). -/
def flitCrc (f : Flit) : BitVec 64 := crcFrom f 1984 0

def fCrcOk (f : Flit) : Bool := f.extractLsb' 1984 64 == flitCrc f

/-- A flit with its CRC. -/
def sealFlit (f : Flit) : Flit := f ||| ((flitCrc f).zeroExtend 2048 <<< 1984)

/-! ## Ports -/

def State.port (s : State) (p : Nat) : Port := lookD s.ports p .reset
def State.setPort (s : State) (p : Nat) (x : Port) : State := { s with ports := put s.ports p x }

/-- Flits that a sender may hold unacknowledged, and resends of one flit without progress (R353). -/
def flitWindow : Nat := 512
def resendLimit : Nat := 64

/-- CRED, ACK and SRC of the next flit. -/
def Port.head (x : Port) (dev : Nat) : Nat :=
  dev * 2 ^ 64 + (List.range 4).foldl (fun n c => n + min 255 (x.owed.get (Fin.ofNat 4 c)) * 2 ^ (8 * c)) 0 * 2 ^ 32 +
    (x.rxseq - 1).toNat * 2 ^ 16

/-- The credits that a flit's CRED returns are no longer owed. -/
def Port.returned (x : Port) : Port := { x with owed := x.owed.map fun n => n - min 255 n }

/-- The first of what waits whose channel has a credit: no channel waits for another's (R354). -/
def Port.first (x : Port) : Option Nat := x.queue.findIdx? fun e => x.credits.get (Fin.ofNat 4 e.1) != 0

/-- Sends what waits, one flit against each credit of its channel, within the window (R353, R354). -/
def Port.pump (x : Port) (dev : Nat) : (fuel : Nat) → Port
  | 0 => x
  | fuel + 1 =>
    match x.first with
    | none => x
    | some i =>
      if flitWindow ≤ x.unacked.length || x.down then x
      else
        let e := x.queue.getD i (0, 0, 0)
        let v : Fin 4 := Fin.ofNat 4 e.1
        let body := e.2.2.toNat * 2 ^ 128 + e.2.1 % 1024 * 2 ^ 96 + x.head dev + v.val * 2 ^ 12 + x.txseq.toNat
        Port.pump { x.returned with
          queue := x.queue.eraseIdx i, unacked := x.unacked ++ [sealFlit (BitVec.ofNat 2048 body)], txseq := x.txseq + 1
          credits := x.credits.set v (x.credits.get v - 1) v.isLt } dev fuel

/-- A null flit acknowledges and returns credits where no other flit goes (Table 24-2). -/
def Port.sendNull (x : Port) (dev : Nat) : Port :=
  { x.returned with null := some (sealFlit (BitVec.ofNat 2048 (x.head dev + 2 ^ 15))) }

/-- A port sends what it can; when nothing goes, a null flit returns what is owed, and acknowledges when `ack` says so. -/
def State.pumpPort (s : State) (p : Nat) (ack : Bool := false) : State :=
  let x := s.port p
  let dev := bitsAt s.regs.devnum 0 10
  let y := x.pump dev x.queue.length
  s.setPort p (if y.txseq = x.txseq ∧ y.down = false ∧ (ack = true ∨ y.owed.any (· != 0) = true) then y.sendNull dev else y)

/-! ## Planes (R355) -/

/-- Live planes, in ascending order. -/
def State.livePlanes (s : State) : List Nat := (List.range 48).filter fun p => !(s.port p).down

/-- The plane that carries the train of a number: nothing while no plane is live. -/
def State.planeOf (s : State) (seq : Nat) : Option Nat :=
  let l := s.livePlanes
  if l.isEmpty then none else l[seq % l.length]?

/-- The flits of a train go to a plane, on the reduction channel. -/
def State.carry (s : State) (src dest seq plane : Nat) : State :=
  let x := s.port plane
  (s.setPort plane { x with queue := x.queue ++ (Config.trainFlits src dest seq).map fun d => (2, dest, d) }).pumpPort plane

/-- Trains that are not acknowledged on planes that have lost them go whole, with their numbers, to the live plane that their
number names; those whose plane is down and finds none stay. -/
def State.resendTrains (s : State) (lost : Nat → Bool) : State :=
  s.sent.zipIdx.foldl (fun s x =>
    if lost x.1.plane then
      match s.planeOf x.1.train.seq.toNat with
      | none => s
      | some p =>
        State.carry { s with sent := s.sent.set x.2 { x.1 with plane := p } } x.1.train.src x.1.dest x.1.train.seq.toNat p
    else s) s

/-- A port goes down. -/
def State.portDown (s : State) (p : Nat) : State :=
  let s := s.setPort p { s.port p with down := true, queue := [], unacked := [], resends := 0 }
  s.resendTrains fun n => (s.port n).down

/-! ## Events (R353) -/

/-- Flits up to and with an acknowledged number go. -/
def Port.acked (x : Port) (ack : BitVec 12) : Port :=
  match x.unacked.findIdx? fun f => fSeq f == ack with
  | some i => { x with unacked := x.unacked.drop (i + 1), resends := 0 }
  | none => x

/-- Credits that a flit returns. -/
def Port.credited (x : Port) (f : Flit) : Port :=
  { x with credits := Vector.ofFn fun v => x.credits.get v + fCred f v }

/-- Whether a flit is for this device and from a device that DOMCTL admits (R355). -/
def State.admits (s : State) (f : Flit) : Bool :=
  fDst f == bitsAt s.regs.devnum 0 10 && bitAt s.regs.domctl (fSrc f / 16)

/-- The stack that the payload of a reduction flit concerns, a free value (assumption log 3). -/
def fStack (f : Flit) : Fin 12 := Fin.ofNat 12 (Config.flitStack (f.extractLsb' 128 1856))

/-- The buffer of a flit is free and its credit is owed, or withheld on the reduction channel while the holding queue of the
stack that it concerns is full (R283, R354). -/
def Port.freeBuffer (x : Port) (v : Fin 4) (stack : Fin 12) (full : Bool) : Port :=
  if full && v.val == 2 then { x with withheld := x.withheld.set stack (x.withheld.get stack + 1) stack.isLt }
  else { x with owed := x.owed.set v (x.owed.get v + 1) v.isLt }

/-- Elements parked on the base die of an address (R283). -/
def State.parkedOn (s : State) (stack : Nat) : Nat :=
  s.parked.foldl (fun n p => n + (p.rest.filter fun e =>
    match (s.walk p.train.asid e.va).physical e.va with
    | some pa => pa / 2 ^ 36 == stack
    | none => false).length) 0

/-- Whether the holding queue of a base die is full. -/
def State.holdingFull (s : State) (stack : Fin 12) : Bool := decide (512 ≤ s.parkedOn stack)

/-- Credits withheld for stacks whose queues are not full are owed again. -/
def State.freeWithheld (s : State) : State :=
  (s.ports.map Prod.fst).foldl (fun s p =>
    let x := s.port p
    let free := (List.finRange 12).filter fun d => !s.holdingFull d && x.withheld.get d != 0
    if free.isEmpty then s
    else (s.setPort p { x with
      withheld := Vector.ofFn fun d => if free.contains d then 0 else x.withheld.get d
      owed := x.owed.set 2 (x.owed.get 2 + (free.map fun d => x.withheld.get d).sum) }).pumpPort p) s

/-- A flit arrives: discarded when its CRC fails or its number is not the expected one; discarded and counted when it
is not for this device or not admitted, and its buffer is free. -/
def execFlitReceive (p : Fin 48) (flit : BitVec 2048) (s : State) : Out :=
  let x := s.port p
  if x.down || !fCrcOk flit || (!fNull flit && fSeq flit != x.rxseq) then .next s
  else
    let x := if fNull flit then x else { x with rxseq := x.rxseq + 1 }
    if !s.admits flit then
      let x := if fNull flit then x else x.freeBuffer (fVc flit) (fStack flit) false
      .next (((s.setPort p x).pumpPort p (!fNull flit)).modRegs fun r => { r with porterr := r.porterr + 1 })
    else
      let x := (x.acked (fAck flit)).credited flit
      let x := if fNull flit then x
        else { x.freeBuffer (fVc flit) (fStack flit) (s.holdingFull (fStack flit)) with received := x.received ++ [flit] }
      .next ((s.setPort p x).pumpPort p (!fNull flit))

/-- 2 µs without progress: the flits not acknowledged are sent again, and the port goes down after 64 times. -/
def execLinkRetryTimeout (p : Fin 48) (s : State) : Out :=
  let x := s.port p
  if x.down || x.unacked.isEmpty then .next s
  else if resendLimit ≤ x.resends then .next (s.portDown p)
  else .next (s.setPort p { x with resends := x.resends + 1 })

/-- A port as it stands after training (assumption log 27). -/
def Port.retrained (x : Port) : Port := { Port.reset with received := x.received }

def portctlOff : Nat := 0x510

/-- A write of PORTCTL retrains ports; their trains that are not acknowledged, and those that found no live plane, are sent
again on the planes that are live then. -/
def execPortctl (m : Fin 4) (v : Word) (s : State) : Out :=
  .next (s.ownerWrite m portctlOff v fun s =>
    let ps := (List.range 48).filter fun p => bitAt v p
    let s := ps.foldl (fun s p => s.setPort p (s.port p).retrained) s
    some (s.resendTrains fun n => ps.contains n || (s.port n).down))

end Sys2Proof.Machine
end

