-- ==== Sys2Proof/Machine/Trains.lean ====
section
/-! DEFINITION. Element trains: sending and `scred` (R244, R355). -/

namespace Sys2Proof.Machine

/-! ## Sending -/

/-- Sends one train of a gang from a source to a device with the pair's next number; nothing while 64 trains of the pair are not
acknowledged, or while no plane is live. -/
def State.send (s : State) (t : Tenancy) (src dest : Nat) (asid : Fin 16) (write : Bool) (op zlog : Nat) (elems : List Elem)
    (owner : Sender) : Option State :=
  let out := s.sent.filter fun x => x.dest == dest && x.train.src == src
  let key := src * 1024 + dest
  let n := lookD s.seqs key 0
  match s.planeOf n.toNat with
  | none => none
  | some plane =>
    if 64 ≤ out.length then none
    else
      let x : Train := { srcDev := bitsAt s.regs.devnum 0 10, src := src, seq := n, asid := asid, write := write
                         op := op, zlog := zlog, elems := elems }
      let s : State := { s with sent := s.sent ++ [{ launch := t.launch, gang := t.gang, dest := dest, plane := plane, train := x
                                                     owner := owner, faulted := false }]
                                seqs := put s.seqs key (n + 1) }
      some (s.carry src dest n.toNat plane)

/-! ## `scred` (R244) -/

/-- The update entries of a list: value, destination address and device. -/
def State.readEntries (s : State) (p : Word) (ahi : Nat) : (n k : Nat) → Act (List (Nat × Nat × Nat) × State)
  | 0, _ => .ok ([], s)
  | n + 1, k => do
    let (v, s) ← s.scalarVal (p + w64 (16 * k)) 8
    let (d, s) ← s.scalarVal (p + w64 (16 * k + 8)) 8
    let (es, s) ← s.readEntries p ahi n (k + 1)
    .ok ((v, ahi * 2 ^ 54 + d % 2 ^ 54, d / 2 ^ 54) :: es, s)

/-- ALIGN for the first entry whose destination is not aligned on its size: TRAPIDX0 is its index; TRAPVAL is the destination
in `scred` (R244), and the default of R386 in `binap` (R247). -/
def State.checkEntries (s : State) (zlog : Nat) (es : List (Nat × Nat × Nat)) (val : Option Word) : Act Unit :=
  match es.findIdx? fun e => e.2.1 % 2 ^ zlog != 0 with
  | some k => raise s .align (val.getD (w64 (es.getD k (0, 0, 0)).2.1)) (w64 k)
  | none => .ok ()

/-- The trains of a list, one for each destination device, in list order. -/
def trainsOf (zlog : Nat) (es : List (Nat × Nat × Nat)) : List (Nat × List Elem) :=
  (es.map fun e => e.2.2).eraseDups.map fun d =>
    (d, (es.filter fun e => e.2.2 == d).map fun e => { va := e.2.1, val := w64 (e.1 % 2 ^ (8 * 2 ^ zlog)), bad := false })

/-- OP, ZLOG and AHI of s[A + 1]. -/
def scredOp (w : Word) : Nat := bitsAt w 32 8
def scredZ (w : Word) : Nat := bitsAt w 40 2

/-- The instruction that an issuer waits in is executed again: trains and replays whose faults it has raised are tried again
(R323). -/
def State.retrySends (s : State) : State :=
  let slot := s.issuerSlot
  { s with
    sent := s.sent.map fun x => if x.owner = .issuer s.key slot ∧ x.isOf s.key s.ctx.ten = true then { x with faulted := false } else x
    gathers := s.gathers.map fun g => if g.slot = slot ∧ s.replaysFor s.key g = true then { g with faulted := false } else g }

def execScred (c : Ctl) (f : FE) (s : State) : Out :=
  run c s fun s => do
    let slot := s.issuerSlot
    if s.ctx.sends.contains slot then
      if !(s.sentBy s.key slot).isEmpty then hold s.retrySends
      else .ok (s.modCtx fun x => { x with sends := setDel x.sends slot }).advance
    else
      let rs := s.feRegs f
      let w := rs.getD 1 0
      let op := scredOp w
      let z := scredZ w
      if w >>> 45 != 0 || !applyOk op z then trapOp s .range (.scred c f)
      else do
        let (es, s1) ← undo s (s.readEntries (rs.getD 0 0) (bitsAt w 42 3) (bitsAt w 0 32) 0)
        s.checkEntries z es none
        let sent := (trainsOf z es).foldl (fun (r : Option State) t =>
          r.bind fun s => s.send s.ctx.ten s.cur.core t.1 s.asid false op z t.2 (.issuer s.key slot)) (some s1)
        match sent with
        | none => hold (s.keepWait s1)
        | some s3 =>
          if es.isEmpty then .ok s3.advance else .ok (s3.modCtx fun x => { x with sends := setAdd x.sends slot })

end Sys2Proof.Machine
end

