-- ==== Sys2Proof/Machine/Trans.lean ====
section
/-! DEFINITION. The powers, sines and cosines of REROT (R235). Powers are rounded exactly; sines and cosines are
computed in fixed point with 640 fraction bits before their one rounding (assumption log 10). -/

namespace Sys2Proof.Machine

/-! ## BASE^(−2i/D), rounded once -/

/-- Whether (n × 2^e)^d × (m × 2^f)^p ≤ 1, all exact. -/
def powLe (n : Nat) (e : Int) (d m : Nat) (f : Int) (p : Nat) : Bool :=
  let x := e * d + f * p
  let k := n ^ d * m ^ p
  if 0 ≤ x then decide (k * 2 ^ x.toNat ≤ 1) else decide (k ≤ 2 ^ (-x).toNat)

/-- Magnitude n × 2^e of a positive FP32 pattern. -/
def f32Mag (b : Nat) : Nat × Int :=
  match Flt.f32.val b with
  | .fin _ n _ e => (n, e)
  | _ => (0, 0)

/-- The largest pattern below `hi` whose value is at most the power; a search over halving steps. -/
def powSearch (d m : Nat) (f : Int) (p : Nat) : (fuel lo hi : Nat) → Nat
  | 0, lo, _ => lo
  | fuel + 1, lo, hi =>
    let mid := (lo + hi) / 2
    let v := f32Mag mid
    if hi ≤ lo + 1 then lo
    else if powLe v.1 v.2 d m f p then powSearch d m f p fuel mid hi
    else powSearch d m f p fuel lo mid

/-- BASE^(−2i/D) rounded to FP32 under RNE; BASE is a finite positive FP32 pattern. -/
def thetaOf (base d i : Nat) : Num :=
  if i = 0 then .fin false 1 1 0
  else
    let m := f32Mag base
    let lo := powSearch d m.1 m.2 (2 * i) 40 1 0x7F800000
    let v := f32Mag lo
    -- the midpoint to the next pattern, which is never the power itself: an odd factor above 1 remains
    if powLe (2 * v.1 + 1) (v.2 - 1) d m.1 m.2 (2 * i) then Flt.f32.val (lo + 1) else Flt.f32.val lo

/-! ## Sine and cosine -/

def trigBits : Nat := 640

/-- arctan(1/k) with g fraction bits. -/
def arctanInv (k : Nat) : (fuel n : Nat) → (term : Nat) → (neg : Bool) → (acc : Int) → Int
  | 0, _, _, _, acc => acc
  | fuel + 1, n, term, neg, acc =>
    let t : Int := term / (2 * n + 1)
    arctanInv k fuel (n + 1) (term / (k * k)) (!neg) (if neg then acc - t else acc + t)

/-- π ÷ 2 with g fraction bits: 2 × (4 arctan(1/5) − arctan(1/239)). -/
def halfPi (g : Nat) : Nat :=
  let x := fun k : Nat => arctanInv k (g / 4 + 8) 0 (2 ^ (g + 32) / k) false 0
  ((8 * x 5 - 2 * x 239) / 2 ^ 32).toNat

/-- The alternating series whose first term is t0 and whose terms fall by r² ÷ (n (n + 1)), in fixed point. -/
def trigSeries (r2 : Nat) : (fuel n : Nat) → (term : Nat) → (neg : Bool) → (acc : Int) → Int
  | 0, _, _, _, acc => acc
  | fuel + 1, n, term, neg, acc =>
    trigSeries r2 fuel (n + 2) (term * r2 / 2 ^ trigBits / (n * (n + 1))) (!neg)
      (if neg then acc - term else acc + term)

/-- A fixed-point value as a number. -/
def ofFixed (x : Int) : Num := if x = 0 then .zero false else .fin (decide (x < 0)) x.natAbs 1 (-(trigBits : Int))

/-- cos φ and sin φ for φ = ±n × 2^e with e ≥ −640. -/
def cosSin (neg : Bool) (n : Nat) (e : Int) : Num × Num :=
  let g : Nat := 320
  let x := n * 2 ^ (e + (trigBits + g : Nat)).toNat
  let h := halfPi (trigBits + g)
  let q := x / h
  let r := x % h / 2 ^ g
  let r2 := r * r / 2 ^ trigBits
  let c := trigSeries r2 200 1 (2 ^ trigBits) false 0
  let s := trigSeries r2 200 2 r false 0
  let cs : Int × Int := match q % 4 with
    | 0 => (c, s) | 1 => (-s, c) | 2 => (-c, -s) | _ => (s, -c)
  (ofFixed cs.1, ofFixed (if neg then -cs.2 else cs.2))

/-- cos and sin of an exact φ, each rounded to FP32 (R235); φ = 0 gives 1 and 0, and a φ that is not finite gives
NaN. -/
def rotation (phi : Num) : Num × Num :=
  match phi with
  | .zero _ => (.fin false 1 1 0, .zero false)
  | .fin neg n _ e =>
    let r := fun x => Flt.f32.val (Flt.f32.round x .rne false 0).bits
    let cs := cosSin neg n e
    (r cs.1, r cs.2)
  | _ => (.nan, .nan)

end Sys2Proof.Machine
end

