-- ==== Sys2Proof/Machine/Cards.lean ====
section
/-! DEFINITION. Job cards (R229 to R238): fields and footprints, issue, the rows of each kind, dispatch, suspension
and arrivals. -/

namespace Sys2Proof.Machine

/-! ## Fields (Tables 14-1 and 14-2) -/

abbrev CardRegs := List Word

def cIn (r : CardRegs) : Word := r.getD 0 0
def cOut (r : CardRegs) : Word := r.getD 1 0
def cLen (r : CardRegs) : Nat := bitsAt (r.getD 2 0) 0 32
def cRows (r : CardRegs) : Nat := bitsAt (r.getD 2 0) 32 16
def cIstr (r : CardRegs) : Int := ((r.getD 3 0).extractLsb' 0 32).toInt
def cOstr (r : CardRegs) : Int := ((r.getD 3 0).extractLsb' 32 32).toInt
def cParmA (r : CardRegs) : Word := r.getD 4 0
def cParmB (r : CardRegs) : Word := r.getD 5 0

/-- ZLOG of RCOPY. -/
def cZlog (r : CardRegs) : Nat := bitsAt (cParmA r) 8 2
/-- Bytes of a floating type code 0x06 to 0x08. -/
def tyBytes (t : Nat) : Nat := if t = 8 then 4 else 2
/-- The type of NB8P, NB8U and REROT; the group bytes and element format of NB8. -/
def cType (r : CardRegs) : Nat := bitsAt (cParmA r) 0 5
def cGroup (r : CardRegs) : Nat := if bitsAt (cParmA r) 5 5 = 9 then 152 else 88
def cElem (r : CardRegs) : Flt := if bitsAt (cParmA r) 5 5 = 9 then .e4m3 else .e2m1
/-- D of REROT. -/
def cD (r : CardRegs) : Nat := bitsAt (cParmA r) 16 12

/-- Input and output bytes of a row. -/
def cInBytes (k : CardKind) (r : CardRegs) : Nat :=
  match k with
  | .nb8p => cLen r * 128 * tyBytes (cType r)
  | .nb8u => cLen r * cGroup r
  | _ => cLen r
def cOutBytes (k : CardKind) (r : CardRegs) : Nat :=
  match k with
  | .nb8p => cLen r * cGroup r
  | .nb8u => cLen r * 128 * tyBytes (cType r)
  | _ => cLen r

/-- REMOTE and the device number of PARMB (R234). -/
def cRemote (k : CardKind) (r : CardRegs) : Option Nat :=
  match k with
  | .copy | .rcopy | .fill => if bitAt (cParmB r) 10 then some (bitsAt (cParmB r) 0 10) else none
  | _ => none

/-- PARMB of COPY, RCOPY and FILL. -/
def remoteOk (b : Word) : Bool := b == 0 || (b >>> 11 == 0 && bitAt b 10)

/-- Whether register n of a card obeys Table 14-2. A misaligned NB8 group raises RANGE, as R231 says, where R65 says ALIGN:
the manual does not settle it (assumption log 16). -/
def regOk (k : CardKind) (r : CardRegs) (n : Nat) : Bool :=
  let w := r.getD n 0
  let len := cLen r
  let z := 2 ^ cZlog r
  let rows := 1 ≤ cRows r && bitsAt w 48 16 == 0
  let nb8 := fun (top : Nat) => decide (6 ≤ cType r ∧ cType r ≤ 8) && (bitsAt w 5 5 == 9 || bitsAt w 5 5 == 10) &&
    decide (bitsAt w 10 3 ≤ 6) && w >>> top == 0
  let strideOk := fun (x : Int) => cRows r == 1 || x % 8 == 0
  match k, n with
  | .copy, 2 => rows && 1 ≤ len | .copy, 4 => w == 0 | .copy, 5 => remoteOk w
  | .rcopy, 0 => w.toNat % z == 0 | .rcopy, 1 => w.toNat % z == 0
  | .rcopy, 2 => rows && len % z == 0
  | .rcopy, 3 => cIstr r % z == 0 && cOstr r % z == 0
  | .rcopy, 4 => w >>> 10 == 0 && applyOk (bitsAt w 0 8) (cZlog r)
  | .rcopy, 5 => remoteOk w
  | .tile, 1 => w == 0
  | .tile, 2 => rows && cRows r == 1 && 1 ≤ len && decide (len ≤ if bitAt (cParmA r) 5 then 32768 else 16384)
  | .tile, 3 => w == 0
  | .tile, 4 => w >>> 7 == 0 && !(bitAt w 5 && bitAt w 0)
  | .tile, 5 => w == 0
  | .nb8p, 1 => w.toNat % 8 == 0 | .nb8p, 2 => rows && 1 ≤ len | .nb8p, 3 => strideOk (cOstr r)
  | .nb8p, 4 => nb8 13 | .nb8p, 5 => w == 0
  | .nb8u, 0 => w.toNat % 8 == 0 | .nb8u, 2 => rows && 1 ≤ len | .nb8u, 3 => strideOk (cIstr r)
  | .nb8u, 4 => nb8 14 | .nb8u, 5 => w == 0
  | .rerot, 2 => rows && len == cD r * tyBytes (cType r)
  | .rerot, 4 =>
    decide (6 ≤ cType r ∧ cType r ≤ 8) && bitsAt w 7 9 == 0 && bitsAt w 28 4 == 0 && cD r % 2 == 0 &&
    decide (2 ≤ cD r ∧ cD r ≤ 2048) && decide (0 < bitsAt w 32 32 ∧ bitsAt w 32 32 < 0x7F800000)
  | .kvpatch, 2 => rows | .kvpatch, 3 => cOstr r == 0
  | .kvcompact, 2 => rows | .kvcompact, 3 => w == 0 | .kvcompact, 5 => bitsAt w 32 32 == 0
  | .fill, 0 => w == 0 | .fill, 2 => rows && 1 ≤ len | .fill, 3 => cIstr r == 0 | .fill, 5 => remoteOk w
  | _, _ => true

/-! ## Footprints (R231, R236) -/

/-- The pool of KVPATCH and KVCOMPACT. -/
def cPool (r : CardRegs) : Range := { lo := (cOut r).toNat, len := bitsAt (cParmB r) 0 32 * 16 * cLen r }

/-- Block-table entries b to b' − 1. -/
def cEntries (r : CardRegs) (b b' : Nat) : Range := { lo := ((cParmA r).toNat : Int) + 4 * b, len := 4 * (b' - b) }

def cReads (k : CardKind) (r : CardRegs) : List Range :=
  let rows := hull (cIn r) (cIstr r) (cRows r) (cInBytes k r)
  match k with
  | .fill => []
  | .kvpatch =>
    let t := bitsAt (cParmB r) 32 32
    [rows, cEntries r (t / 16) ((t + cRows r - 1) / 16 + 1)]
  | .kvcompact =>
    [{ lo := (cIn r).toNat, len := (cRows r + 7) / 8 }, cEntries r 0 ((cRows r + 15) / 16), cPool r]
  | .rerot =>
    if bitAt (cParmA r) 6 then [rows, { lo := (cParmB r).toNat, len := 4 * cRows r }] else [rows]
  | _ => [rows]

/-- The output region, on this device or on another. -/
def cOutputs (k : CardKind) (r : CardRegs) : List Range :=
  match k with
  | .tile => []
  | .kvpatch | .kvcompact => [cPool r]
  | _ => [hull (cOut r) (cOstr r) (cRows r) (cOutBytes k r)]

/-- The output region as edges and the scoreboard see it: none of it on another device (R234). -/
def cWrites (k : CardKind) (r : CardRegs) : List Range := if (cRemote k r).isSome then [] else cOutputs k r

/-- The slots of a TILE card. -/
def cSlots (k : CardKind) (r : CardRegs) : List Nat :=
  match k with
  | .tile => let b := bitsAt (cParmA r) 0 5; if bitAt (cParmA r) 5 then [b, b + 1] else [b]
  | _ => []

/-- The arrival count n (Table 14-2). -/
def cCount (k : CardKind) (r : CardRegs) : Nat :=
  match k with
  | .nb8p | .nb8u => 128 * cLen r * cRows r
  | _ => cLen r * cRows r

/-! ## Issue (R230 to R232) -/

/-- The seed of a card's own stochastic state, never zero (R231). -/
def cardSeed (n : Nat) : BitVec 32 := if Config.cardSeed n = 0 then 1 else Config.cardSeed n

def cardQuarter (c : Card) : Fin 4 := quarterOf c.agent.core

/-- Cards in flight in a quarter. -/
def State.cardsOf (s : State) (q : Fin 4) : List Card := s.cards.filter fun c => cardQuarter c == q

def execCard (c : Ctl) (k : CardKind) (f : FE) (s : State) : Out :=
  run c s fun s => do
    let sc ← s.scope f.scope (.card c k f)
    let r := s.feRegs f
    s.checkBarrier (r.getD 6 0)
    s.checkBarrier (r.getD 7 0)
    match (List.range 6).find? fun n => !regOk k r n with
    | some n => rangeReg s r n
    | none => do
      let reads := cReads k r
      let writes := cWrites k r
      s.checkRanges (reads ++ cOutputs k r)
      let a := s.agentOf s.key
      let live := fun (x : List Range) => (x.filter fun y => y.len != 0).map fun y => y.region a
      let rr := live reads
      let wr := live writes ++ (cSlots k r).map fun b => { space := .tile a.core, lo := b, hi := b + 1 : Region }
      let es := scoresOf a.core s.nextId rr wr
      let q := quarterOf a.core
      if 32 < es.length then raise s .range (w64 es.length)
      else if 1024 ≤ (s.cardsOf q).length || 32 < s.core.scores.length + es.length then hold s
      else do
        let rm := if k = .nb8p || k = .nb8u then s.rm (RMode.ofCode (bitsAt (cParmA r) 10 3)) else .rne
        let after := (s.cardsOf q).filter fun p =>
          regionsMeet p.writes rr || regionsMeet p.reads wr || regionsMeet p.writes wr ||
          (f.parm.getLsbD 0 && s.ctx.lastCard == some p.id)
        let card : Card :=
          { id := s.nextId, ctx := s.key, kind := k, regs := Vector.ofFn fun i => r.getD i 0, scope := sc, rm := rm
            agent := { a with who := .card s.nextId }, ten := s.ctx.ten, pc := s.pc, st := cardSeed s.nextId, after := after.map Card.id
            reads := rr, writes := wr, n := cCount k r, row := 0, kept := 0, phase := .queued, wait := none
            record := none, suspended := false, err := false, engine := none, loaded := none, dest := [], pinned := [] }
        .ok (({ s with cards := s.cards ++ [card], nextId := s.nextId + 1 }.modCore fun x =>
          { x with scores := x.scores ++ es }).modCtx fun x => { x with lastCard := some card.id }).advance

def execCardq (c : Ctl) (f : FR) (s : State) : Out :=
  run c s fun s => do
    s.checkDest f.opd
    let v := match f.sub.toNat with
      | 0 => 1024 - (s.cardsOf (quarterOf s.cur.core)).length
      | 1 => (s.cards.filter fun x => x.ctx == s.key && x.ten == s.ctx.ten).length
      | _ => 32 - s.core.scores.length
    .ok (s.putS f.opd (w64 v)).advance

/-! ## Transforms (R66, R67, R235) -/

/-- List l in parts of n, k of them. -/
def parts (k n : Nat) (l : Data) : List Data := (List.range k).map fun i => (l.drop (i * n)).take n

def dataVal (d : Data) : Nat := leVal (d.map Prod.fst)
def dataBad (d : Data) : Bool := d.any Prod.snd
def toData (n v : Nat) (bad : Bool) : Data := (leBytes n v).map fun b => (b, bad)

/-- `PackBlock` with one stochastic state for all elements, in order: scale, elements, state (R66, R231). -/
def packSeq (xs : List Num) (elem : Flt) (rm : RMode) (st : BitVec 32) : Nat × List Nat × BitVec 32 :=
  xs.foldl (fun (acc : Nat × List Nat × BitVec 32) x =>
    if xs.any Num.nonFinite then (0xFFF, acc.2.1 ++ [0], acc.2.2)
    else
      match maxAbs xs with
      | .zero _ => (0, acc.2.1 ++ [elem.signed x.sign 0], acc.2.2)
      | a =>
        let sc := (scaleFor a (if elem = .e2m1 then 6 else 448)).1
        let r := elem.round (x.mul (scaleVal sc).recip) rm true acc.2.2
        (sc, acc.2.1 ++ [r.bits], r.st)) (0, [], st)

/-- Elements of an NB8 group as bytes: one each, or two to a byte. -/
def packElems (elem : Flt) (es : List (Nat × Bool)) : Data :=
  if elem = .e2m1 then
    (List.range (es.length / 2)).map fun i =>
      let x := es.getD (2 * i) (0, false)
      let y := es.getD (2 * i + 1) (0, false)
      (BitVec.ofNat 8 (x.1 + 16 * y.1), x.2 || y.2)
  else es.map fun e => (BitVec.ofNat 8 e.1, e.2)

/-- The 24 scale bytes of a group; a byte that holds bits of a marked scale is marked. -/
def packScales (ss : List (Nat × Bool)) : Data :=
  let v := (List.range 16).foldl (fun n j => n + (ss.getD j (0, false)).1 * 2 ^ (12 * j)) 0
  (List.range 24).map fun i =>
    (BitVec.ofNat 8 (v / 256 ^ i),
     (List.range 16).any fun j => (ss.getD j (0, false)).2 && decide (12 * j < 8 * i + 8 ∧ 8 * i < 12 * j + 12))

/-- Packs one group of 128 elements (R65, R66). -/
def packGroup (src elem : Flt) (rm : RMode) (st : BitVec 32) (d : Data) : Data × BitVec 32 :=
  let z := src.width / 8
  let r := (parts 16 (8 * z) d).foldl (fun (acc : List (Nat × Bool) × List (Nat × Bool) × BitVec 32) b =>
    let p := packSeq ((parts 8 z b).map fun e => src.val (dataVal e)) elem rm acc.2.2
    (acc.1 ++ p.2.1.map (fun e => (e, dataBad b)), acc.2.1 ++ [(p.1, dataBad b)], p.2.2)) ([], [], st)
  (packElems elem r.1 ++ packScales r.2.1, r.2.2)

/-- Unpacks one group (R67). -/
def unpackGroup (elem dst : Flt) (rm : RMode) (sat : Bool) (st : BitVec 32) (d : Data) : Data × BitVec 32 :=
  let n := if elem = .e2m1 then 64 else 128
  let scales := d.drop n
  let sv := dataVal scales
  (List.range 128).foldl (fun (acc : Data × BitVec 32) i =>
    let b := d.getD (if elem = .e2m1 then i / 2 else i) (0, false)
    let e := if elem = .e2m1 then b.1.toNat / 16 ^ (i % 2) % 16 else b.1.toNat
    let j := i / 8
    let bad := b.2 || dataBad ((scales.drop (12 * j / 8)).take ((12 * j + 11) / 8 - 12 * j / 8 + 1))
    let r := dst.round (unpackVal elem e (sv / 2 ^ (12 * j) % 4096)) rm sat acc.2
    (acc.1 ++ toData (dst.width / 8) r.bits bad, r.st)) ([], st)

/-- Groups of a row, one after another. -/
def mapGroups (f : BitVec 32 → Data → Data × BitVec 32) (gs : List Data) (st : BitVec 32) : Data × BitVec 32 :=
  gs.foldl (fun (acc : Data × BitVec 32) g => let r := f acc.2 g; (acc.1 ++ r.1, r.2)) ([], st)

/-- φ: an integer times θ, exactly; a zero integer gives zero (R235). -/
def angle (delta : Int) (theta : Num) : Num := if delta = 0 then .zero false else (Num.ofInt delta).mul theta

/-- Rotates one row (R235); `deltaBad` says that Δ was read from a poisoned granule. -/
def rerotRow (ty : Flt) (half : Bool) (d base : Nat) (delta : Int) (deltaBad : Bool) (row : Data) : Data :=
  let z := ty.width / 8
  let xs := parts d z row
  let pair := fun (i : Nat) =>
    let a := if half then i else 2 * i
    let b := if half then i + d / 2 else 2 * i + 1
    let cs := rotation (angle delta (thetaOf base d i))
    let x := ty.val (dataVal (xs.getD a []))
    let y := ty.val (dataVal (xs.getD b []))
    let r := fun v => (ty.round v .rne false 0).bits
    let bad := deltaBad || dataBad (xs.getD a []) || dataBad (xs.getD b [])
    [(a, r ((x.mul cs.1).sub false (y.mul cs.2)), bad), (b, r ((x.mul cs.2).add false (y.mul cs.1)), bad)]
  let out := (List.range (d / 2)).flatMap pair
  (List.range d).flatMap fun i =>
    match out.find? fun o => o.1 == i with
    | some o => toData z o.2.1 o.2.2
    | none => []

/-! ## Rows (R233 to R237) -/

/-- The source number of a quarter's copy engine e, as trains are counted and TLBs numbered: after the 320 cores (R14,
R245). -/
def engineOf (q : Fin 4) (e : Nat) : Nat := 320 + 64 * q + e

/-- Orders 1 to 6 for an element of z bytes of a card's row; its place. -/
def cardPlace (c : Card) (s : State) (p : Word) (z : Nat) : Except Snag Place :=
  match Machine.checkPtr c.agent.core (s.coreAt c.agent.core).stashBytes c.agent.pbase c.agent.psize p z z with
  | .ok x => .ok x
  | .error e => .error (.fail e p)

/-- Sends the elements of an output row to another device, once each has been checked, as a train (R233, R234). -/
def cardSend (c : Card) (dev : Nat) (p : Word) (write : Bool) (op zlog : Nat) (d : Data) : Eng Unit := fun s => do
    let z := 2 ^ zlog
    let es ← (parts (d.length / z) z d).zipIdx.mapM fun x => do
      let e := p + w64 (x.2 * z)
      match ← cardPlace c s e z with
      | .virt va => .ok { va := va, val := w64 (dataVal x.1), bad := dataBad x.1 : Elem }
      | _ => .error (.fail .window e)
    match s.send c.ten (engineOf (cardQuarter c) (c.engine.getD 0)) dev c.agent.asid write op zlog es (.card c.id) with
    | some s => .ok ((), s)
    | none => .error .held

/-- The row is done: nothing of it is kept or pinned. -/
def Card.rowDone (c : Card) : Card := { c with row := c.row + 1, loaded := none, dest := [], pinned := [] }

/-- The elements of z bytes of a row are checked by orders 1 to 6 where R230 has not decided them (R233): the rows of elements
that a kind reads or writes lie evenly, so that the first element decides. -/
def cardElems (c : Card) (p : Word) (z : Nat) : Eng Unit := fun s => (cardPlace c s p z).map fun _ => ((), s)

/-- Combines the first element that is left of a row with local memory, through its pin (R234): the card with what is then left.
Other agents may act between two elements (R209). -/
def cardCombine (c : Card) (p : Word) (op zlog : Nat) (d : Data) : Eng Card := do
  let z := 2 ^ zlog
  match c.dest with
  | [] => pure c.rowDone
  | x :: rest => do
    let l ← engPinned c.agent x
    let e := d.take z
    engApply c.agent l op zlog (dataVal e) (dataBad e)
    pure (if rest.isEmpty then c.rowDone else { c with loaded := some (p + w64 z, d.drop z), dest := rest })

/-- Address of token t in the pool through the block table (R236). -/
def tokenPtr (c : Card) (t : Nat) : Eng Word := do
  let r := c.regs.toList
  let e ← engVal c.agent (cParmA r + w64 (4 * (t / 16))) 4
  if e = 0xFFFFFFFF || bitsAt (cParmB r) 0 32 ≤ e then snag (.fail .range (w64 e))
  else pure (cOut r + w64 ((e * 16 + t % 16) * cLen r))

/-- The slot of a TILE card becomes BUSY with the data read, once no accepted row names it (R151). -/
def tileRead (c : Card) : Eng Data := do
  let r := c.regs.toList
  let s ← get
  let core := s.coreAt c.agent.core
  if (cSlots .tile r).all core.slotFree then do
    let d ← engRead c.agent (cIn r) (cLen r)
    modify fun s => s.modCoreAt c.agent.core fun k =>
      (cSlots .tile r).foldl (fun k b => k.setSlot b { k.slotAt b with busy := true }) k
    pure d
  else snag .held

/-- Δ of row r (R235). -/
def deltaOf (c : Card) (row : Nat) : Eng (Int × Bool) := do
  let r := c.regs.toList
  if bitAt (cParmA r) 6 then
    let p := cParmB r + w64 (4 * row)
    let l ← engLoc c.agent p 4 4 false
    let bs ← engBytes c.agent l 4
    let s ← get
    pure ((BitVec.ofNat 32 (leVal bs)).toInt, (s.marksAt c.agent.core l 4).any id)
  else pure ((cParmB r).toInt, false)

/-- The parts of the n bytes of a row's output on this device, each checked and found: the elements of RCOPY, else what lies in one
sector. -/
def cardDest (c : Card) (p : Word) (n : Nat) : Eng (List Part) := do
  let r := c.regs.toList
  if c.kind = .tile ∨ (cRemote c.kind r).isSome then pure []
  else if c.kind = .rcopy then
    let z := 2 ^ cZlog r
    engParts c.agent z ((List.range (n / z)).map fun k => (p + w64 (k * z), z))
  else do
    if c.kind = .nb8u ∨ c.kind = .rerot then cardElems c p (tyBytes (cType r))
    engParts c.agent 1 (chunks p n)

/-- A card with the output that it makes of the n bytes at `src` and its destination. It takes the pins of both at once, or none
(R325): where a page of the destination is ABSENT the row has not been read. -/
def cardLoaded (c : Card) (src : Word) (n : Nat) (p : Word) (d : Data) : Eng Card := do
  let dest ← cardDest c p d.length
  let s ← get
  pure { c with loaded := some (p, d), dest := dest
                pinned := (s.enginePages c.agent src n ++ s.pinsOf c.agent.tlb (dest.map Part.loc)).eraseDups }

/-- The next row of a card is read whole (R233): the card with the output that it makes of it and its destination, or
past a row that KVCOMPACT does not move. -/
def cardRead (c : Card) : Eng Card := do
  let r := c.regs.toList
  let pin := offPtr (cIn r) (c.row * cIstr r)
  let pout := offPtr (cOut r) (c.row * cOstr r)
  let ty := (fltOfTy (.ofCode (cType r))).getD .f32
  match c.kind with
  | .copy | .rcopy => do
    let d ← engRead c.agent pin (cLen r)
    cardLoaded c pin (cLen r) pout d
  | .fill => cardLoaded c 0 0 pout ((List.range (cLen r)).map fun i => ((cParmA r).extractLsb' (8 * (i % 8)) 8, false))
  | .tile => do
    let d ← tileRead c
    cardLoaded c (cIn r) (cLen r) 0 d
  | .nb8p => do
    cardElems c pin (tyBytes (cType r))
    let d ← engRead c.agent pin (cInBytes .nb8p r)
    let o := mapGroups (packGroup ty (cElem r) c.rm) (parts (cLen r) (128 * tyBytes (cType r)) d) c.st
    cardLoaded { c with st := o.2 } pin (cInBytes .nb8p r) pout o.1
  | .nb8u => do
    let d ← engRead c.agent pin (cInBytes .nb8u r)
    let o := mapGroups (unpackGroup (cElem r) ty c.rm (bitAt (cParmA r) 13)) (parts (cLen r) (cGroup r) d) c.st
    cardLoaded { c with st := o.2 } pin (cInBytes .nb8u r) pout o.1
  | .rerot => do
    let (delta, bad) ← deltaOf c c.row
    cardElems c pin (tyBytes (cType r))
    let d ← engRead c.agent pin (cLen r)
    cardLoaded c pin (cLen r) pout (rerotRow ty (bitAt (cParmA r) 5) (cD r) (bitsAt (cParmA r) 32 32) delta bad d)
  | .kvpatch => do
    let p ← tokenPtr c (bitsAt (cParmB r) 32 32 + c.row)
    let d ← engRead c.agent pin (cLen r)
    cardLoaded c pin (cLen r) p d
  | .kvcompact => do
    let b ← engVal c.agent (cIn r + w64 (c.row / 8)) 1
    if !b.testBit (c.row % 8) then pure { c with row := c.row + 1 }
    else
      let src ← tokenPtr c c.row
      if c.kept = c.row then pure { c with row := c.row + 1, kept := c.kept + 1 }
      else
        let dst ← tokenPtr c c.kept
        let d ← engRead c.agent src (cLen r)
        cardLoaded { c with kept := c.kept + 1 } src (cLen r) dst d

/-- The slots of a TILE card take their data, and BUSY clears (R151, R237). -/
def Core.tileWrite (k : Core) (r : CardRegs) (d : Data) : Core :=
  let b := bitsAt (cParmA r) 0 5
  let k := { k with
    tiles := wrBytes k.tiles (b * slotBytes) (d.map Prod.fst)
    tilePoison := (List.range d.length).foldl (fun m i =>
      if (d.getD i (0, false)).2 then setAdd m ((b * slotBytes + i) / 16) else m)
      (remark 4 k.tilePoison (b * slotBytes) d.length false) }
  (cSlots .tile r).foldl (fun k b =>
    let x := { (k.slotAt b).bump with busy := false }
    k.setSlot b (if bitAt (cParmA r) 6 then
      { x with z := Vector.ofFn fun f => k.flagZero b f, stamp := .replicate 8 x.gen } else x)) k

/-- The row that has been read is written: to the slot of a TILE card, to another device, or through the row's pins. -/
def cardWrite (c : Card) (p : Word) (d : Data) : Eng Card := do
  let r := c.regs.toList
  let op := bitsAt (cParmA r) 0 8
  match c.kind, cRemote c.kind r with
  | .tile, _ => do
    modify fun s => s.modCoreAt c.agent.core fun k => k.tileWrite r d
    pure c.rowDone
  | .rcopy, none => cardCombine c p op (cZlog r) d
  | .rcopy, some dev => do
    cardSend c dev p false op (cZlog r) d
    pure c.rowDone
  | _, some dev => do
    cardSend c dev p true 0 0 d
    pure c.rowDone
  | _, none => do
    engWriteParts c.agent c.dest d false
    pure c.rowDone

/-- The next half of a row: it is read, or what has been read is written, in RCOPY element by element. -/
def cardStep (c : Card) : Eng Card :=
  match c.loaded with
  | none => cardRead c
  | some (p, d) => cardWrite c p d

/-! ## Suspension and errors (R233, R317) -/

def State.modCard (s : State) (id : Nat) (f : Card → Card) : State :=
  { s with cards := s.cards.map fun c => if c.id = id then f c else c }

/-- The record of a card's fault. -/
def cardRecord (c : Card) (cause : Cause) (p : Word) (cls mem addr : Nat) : TrapRec :=
  { seq := 0, gen := c.ten.gen, team := BitVec.ofNat 32 c.ten.gang
    trap := { cause := cause, val := p, idx0 := w64 c.row, mem := mem, addr := addr }
    pc := c.pc, core := c.agent.core, ctx := lcOfCtx c.ctx, cls := cls, card := some c.id }

/-- The issuing context ends as a terminal-class trap ends it, when it is still the one that issued. Vector instructions that
it has issued and that have not retired write only lanes that are lost with it: they are dropped. -/
def State.endIssuer (s : State) (ctx : Nat) (ten : Tenancy) : State :=
  let c := s.ctxAt ctx
  if c.ten = ten && c.status != .idle && c.status != .ended then s.endCtx ctx else s.finishSaved ctx ten

/-- Whether the released arrival has been made. -/
def CardPhase.isReleased (p : CardPhase) : Bool := p == .released || p == .draining

/-- A card writes no further row and goes on to its arrivals; its engine is free. -/
def cardStopped (c : Card) : Card :=
  { c with phase := if c.phase.isReleased then .released else .moved, err := true, record := none, suspended := false
           wait := none, engine := none, pinned := [], loaded := none, dest := [] }

/-- The slot of a TILE card that has been read, and is not to be written, is BUSY no longer (R151). -/
def State.freeTile (s : State) (c : Card) : State :=
  if c.kind = .tile ∧ c.loaded.isSome = true then
    s.modCoreAt c.agent.core fun k =>
      (cSlots .tile c.regs.toList).foldl (fun k b => k.setSlot b { k.slotAt b with busy := false }) k
  else s

/-- Posts a card's record (R316, R317): CLASS 1 suspends the card, any other ends its rows and its issuer; a record
that finds no room is held, as is any in a quarter that has stopped (R318). -/
def State.postCard (s : State) (c : Card) (r : TrapRec) : State :=
  match s.putRecord (cardQuarter c) r with
  | none => s.modCard c.id fun x => { x with record := some r }
  | some s =>
    if r.cls = 1 then s.modCard c.id fun x => { x with suspended := true, record := none }
    else ((s.freeTile c).modCard c.id cardStopped).endIssuer c.ctx c.ten

/-- What a card does when an access does not perform. -/
def State.cardSnag (s : State) (c : Card) (x : Snag) : State :=
  match x with
  | .absent d va =>
    (s.postResidency d va (BitVec.allOnes 32)).modCard c.id fun y => { y with wait := some (d, va) }
  | .held => s
  | .bad p m a => (s.logError m 3 false c.agent.core a).postCard c (cardRecord c .uncorrected p 2 m a)
  | .fail e p => if e.replayable then s.postCard c (cardRecord c e p 1 0 0) else s.postCard c (cardRecord c .range p 3 0 0)

/-- A card loses an arrival that cannot be made: it is not tried again (R233, R367). -/
def Card.lose (c : Card) (n : Fin 8) : Card := { c with regs := c.regs.set n 0 n.isLt }

/-- An arrival that does not perform. One that never can is a data error of the card, with one record for both arrivals, and is
not tried again (R233, R367, assumption log 25). -/
def State.arrivalSnag (s : State) (c : Card) (n : Fin 8) (x : Snag) : State :=
  let lost := match x with
    | .bad _ _ _ => true
    | .fail e _ => !e.replayable
    | _ => false
  if !lost then s.cardSnag c x
  else
    let s := s.modCard c.id fun c => c.lose n
    if !c.err then s.cardSnag c x
    else
      match x with
      | .bad _ m a => s.logError m 3 false c.agent.core a
      | _ => s

/-- A card whose replay is declined writes its terminal record, once, and loses the arrival at which it stood (R233, R317). -/
def State.declineCard (s : State) (c : Card) (r : TrapRec) : State :=
  let s := s.modCard c.id fun c => match c.phase with
    | .moved => c.lose 6
    | .released => c.lose 7
    | _ => c
  if c.err then s else s.postCard c (cardRecord c .range r.trap.val 3 0 0)

/-- A card all of whose rows have moved: its engine is free. -/
def cardMoved (c : Card) : Card := { c with phase := if c.phase.isReleased then .released else .moved, engine := none }

/-- A card after half a row: all its rows have moved once the last is written. -/
def cardNext (c : Card) : Card := if cRows c.regs.toList ≤ c.row then cardMoved c else c

/-- A card moves half a row: between two halves any other agent may act (R22). -/
def State.runCard (s : State) (c : Card) : State :=
  match cardStep c s with
  | .ok (c', s') => s'.modCard c.id fun _ => cardNext c'
  | .error x => s.cardSnag c x

/-! ## The events of cards (R233, R238) -/

/-- Whether a card may go on: not suspended and with no record held. -/
def cardFree (c : Card) : Bool := c.record.isNone && !c.suspended

/-- The lowest copy engine of a quarter that runs no card (R14). -/
def State.freeEngine (s : State) (q : Fin 4) : Option Nat :=
  (List.range 64).find? fun e => !(s.cardsOf q).any fun c => c.engine == some e

/-- Whether a card is ready to be dispatched: every card that it follows has finished. -/
def State.cardReady (s : State) (c : Card) : Bool :=
  c.phase == .queued && cardFree c && c.after.all fun i => !s.cards.any fun p => p.id == i

/-- Whether a running card may go on: it waits for no page, and its quarter has not stopped. -/
def State.cardGoes (s : State) (c : Card) : Bool :=
  (c.phase == .running || c.phase == .draining) && cardFree c && c.wait.isNone && !(s.quarter (cardQuarter c)).stopped

/-- The turn of a card: half a row, when it may go on (R233). -/
def State.rowTurn (s : State) (id : Nat) : State :=
  match s.cards.find? fun c => c.id == id with
  | some c => if s.cardGoes c then s.runCard c else s
  | none => s

/-- The oldest ready card goes to a free copy engine, and translates by the engine's TLB (R233). -/
def execCardDispatch (q : Fin 4) (s : State) : Out :=
  if (s.quarter q).stopped then .next s
  else
    match s.freeEngine q, (s.cardsOf q).find? s.cardReady with
    | some e, some c =>
      .next (s.modCard c.id fun c => cardNext
        { c with phase := .running, engine := some e, agent := { c.agent with tlb := engineOf q e } })
    | _, _ => .next s

/-- Whether every read of a card has performed (R238): FILL makes none, and the write of the last row is none, whether
or not it can be made. -/
def cardAllRead (c : Card) : Bool :=
  c.phase == .moved || (c.phase == .running &&
    (c.kind == .fill || (c.loaded.isSome && c.row + 1 == cRows c.regs.toList)))

def execCardReleasedArrival (id : Nat) (s : State) : Out :=
  match s.cards.find? fun c => c.id == id with
  | none => .next s
  | some c =>
    if !cardAllRead c || (s.quarter (cardQuarter c)).stopped then .next s
    else
      match engArrive c.agent (c.regs.get 6) c.n s with
      | .ok (_, s) =>
        .next ((s.modCard id fun c => { c with phase := if c.phase = .moved then .released else .draining }).freeScores
          c.agent.core id false)
      | .error x => .next (if cardFree c then s.arrivalSnag c 6 x else s)

def execCardVisibleArrival (id : Nat) (s : State) : Out :=
  match s.cards.find? fun c => c.id == id with
  | none => .next s
  | some c =>
    if c.phase != .released || !cardFree c || (s.quarter (cardQuarter c)).stopped ||
       s.sent.any (fun x => x.owner == .card id) then .next s
    else
      match engArrive c.agent (c.regs.get 7) c.n s with
      | .ok (_, s2) =>
        .next { (s2.freeScores c.agent.core id true).dropTorn (.card id) with cards := s2.cards.filter fun x => x.id != id }
      | .error x => .next (s.arrivalSnag c 7 x)

end Sys2Proof.Machine
end

