-- ==== Sys2Proof/Machine/Receive.lean ====
section
/-! DEFINITION. Receiving element trains (R245, R283): the windows, applied and parked elements, the faults of elements, and
acknowledgement. -/

namespace Sys2Proof.Machine

/-! ## The window of a pair (R245) -/

/-- What the window says of an arriving number. -/
inductive Fate245
  | apply (w : Win)
  | drop
deriving DecidableEq, Repr

/-- The window with a number marked applied, or that it was applied before. -/
def Win.take (w : Win) (seq : BitVec 32) : Fate245 :=
  let d := (seq - w.h).toInt
  if 0 < d then .apply { h := seq, marks := (if d < 64 then w.marks <<< d.toNat else 0) ||| 1 }
  else
    let i := (-d).toNat
    if 64 ≤ i || w.marks.getLsbD i then .drop else .apply { w with marks := w.marks ||| BitVec.ofNat 64 (2 ^ i) }

/-- The key of a pair at this receiver. -/
def trainPair (t : Train) : Nat := t.srcDev * 2 ^ 16 + t.src

/-! ## Elements -/

/-- Where an element performs, or what its translation finds. -/
inductive Dest
  | at_ (pa : Nat)
  | parked (pa : Nat)
  | absent
  | fault (c : Cause) (addr : Nat)
deriving DecidableEq, Repr

def State.destOf (s : State) (t : Train) (e : Elem) : Dest :=
  let w := s.walk t.asid e.va
  match w with
  | .absent _ => .absent
  | .poisoned a => .fault .uncorrected a
  | _ =>
    match w.physical e.va with
    | some pa =>
      if !w.writable then .fault .protect 0 else if s.claimed pa (2 ^ t.zlog) then .parked pa else .at_ pa
    | none => .fault .invalidPage 0

/-- The sender's copy of a train of this device. -/
def State.sentOf (s : State) (t : Train) : Option Sent :=
  let own := bitsAt s.regs.devnum 0 10
  s.sent.find? fun x => t.srcDev == own && x.dest == own && x.train.src == t.src && x.train.seq == t.seq

/-- Who writes what a train brings: the context or the card of this device that sent it, else an agent outside; with the
issuing context and the core at whose position the elements are applied (R193, Table 12-2). -/
def State.trainAgent (s : State) (t : Train) : Writer × Option (Nat × Nat) :=
  match (s.sentOf t).map Sent.owner with
  | some (.issuer k _) => (.ctx k, some (k, coreOfCtx k))
  | some (.card id) =>
    (.card id, (s.cards.find? fun c => c.id == id).map fun c => (c.ctx, c.agent.core))
  | none => (.peer, none)

/-- Before the elements of a train are applied: the issuer's earlier stores to the location perform, and the L1 of its core
drops the sector, so that no later read of the core is older (R199). A combined element is published as it performs (R202,
R209), the bytes of a card's rows when the card's writes are. -/
def State.trainDrop (s : State) (t : Train) (e : Elem) (pa : Nat) : State :=
  let a := s.trainAgent t
  let s := match a.2 with
    | some (k, core) => (match s.drainOver k .hbm pa (2 ^ t.zlog) with
      | .ok s => s
      | .error _ => s).modCoreAt core fun c => c.dropL1 pa
    | none => s
  if t.write then s.noteTorn a.1 pa (leBytes (2 ^ t.zlog) e.val.toNat) e.bad else s

/-- Applies an element at a physical address (R209); a poisoned granule stays as it is, poisoned data marks it (R366). -/
def State.applyElem (s : State) (t : Train) (e : Elem) (pa : Nat) : State :=
  let z := 2 ^ t.zlog
  let s := s.trainDrop t e pa
  if t.write then s.writeHbm pa (leBytes z e.val.toNat) e.bad
  else if s.poisoned pa z then s
  else (s.writeHbm pa (leBytes z (applyOp t.op t.zlog (rdVal s.mem pa z) e.val.toNat)) e.bad).publishBytes pa z

/-! ## Acknowledgement -/

/-- The sender's copy of a train of this device goes. -/
def State.dropSent (s : State) (dest src : Nat) (seq : BitVec 32) : State :=
  { s with sent := s.sent.filter fun x => !(x.dest == dest && x.train.src == src && x.train.seq == seq) }

/-- The acknowledgement of a train goes to its source on a live plane, on the response channel. -/
def State.sendAck (s : State) (t : Train) : State :=
  match s.planeOf t.seq.toNat with
  | none => s
  | some p =>
    let x := s.port p
    (s.setPort p { x with queue := x.queue ++
      [(1, t.srcDev, Config.ackFlit t.src (bitsAt s.regs.devnum 0 10) t.seq.toNat)] }).pumpPort p

/-- The train is marked applied and acknowledged (R245). -/
def State.ackTrain (s : State) (t : Train) : State :=
  let s : State := match (lookD s.windows (trainPair t) { h := 0, marks := 0 }).take t.seq with
    | .apply w => { s with windows := put s.windows (trainPair t) w }
    | .drop => s
  if t.srcDev = bitsAt s.regs.devnum 0 10 then s.dropSent t.srcDev t.src t.seq else s.sendAck t

/-! ## Faults of elements (R323, R367) -/

/-- The issuer of a slot of a context. -/
def slotIssuer (k slot : Nat) : Issuer :=
  { core := Fin.ofNat 320 (coreOfCtx k), lc := Fin.ofNat 4 k, lg := if slot = 0 then none else some (Fin.ofNat 4 (slot - 1)) }

/-- Whether the context that an engine works for is one that can still wait for it: it has not ended, here or in a save
record. -/
def State.senderLeft (s : State) (k : Nat) (t : Tenancy) : Bool :=
  let left := fun (c : Ctx) => c.ten.launch == t.launch && c.ten.gang == t.gang && c.status != .idle && c.status != .ended
  left (s.ctxAt k) || (List.finRange 4).any fun q => (s.quarter q).saves.any fun x => x.ctxs.any fun c => c.1 == k && left c.2

/-- Whether the sender of a train can still wait for it. -/
def State.sentLeft (s : State) (x : Sent) : Bool :=
  match x.owner with
  | .issuer k _ => s.senderLeft k { Tenancy.reset with launch := x.launch, gang := x.gang }
  | .card _ => true

/-- A train whose fault stands: it is tried again when its `scred` is executed again. -/
def State.markFaulted (s : State) (y : Sent) : State :=
  { s with sent := s.sent.map fun x => if x = y then { x with faulted := true } else x }

/-- A fault of what an issuer's `scred` or `binpl` has begun is raised at that instruction, or held pending (R168, R309). -/
def State.raiseSend (s : State) (k slot : Nat) (t : Trap) : State := s.asIssuer (slotIssuer k slot) fun s => s.takeTrap t

/-- Whether an issuer waits in its `scred` or `binpl` and has raised nothing there yet. -/
def State.waitsClean (s : State) (k slot : Nat) : Bool :=
  let c := s.ctxAt k
  c.sends.contains slot && !c.holds slot && !(slot == 0 && c.record.isSome) && !(s.sentBy k slot).any Sent.faulted

/-- A local train's element faults: the issuer that waits for it traps at its `scred`, once, its card is suspended or meets a
data error (R233), unless that has happened already. The train is sent again on replay; after UNCORRECTED, and once the issuer
has ended, it is not applied. A train of another device stays unapplied, and an uncorrectable error is logged (assumption log
24). -/
def State.trainFault (s : State) (t : Train) (e : Elem) (c : Cause) (addr : Nat) : State :=
  let gone := fun (s : State) => if c = .uncorrected then s.ackTrain t else s
  match s.sentOf t with
  | none => if c = .uncorrected then s.logError 9 2 true (addr / 2 ^ 36) addr else s
  | some x =>
    match x.owner with
    | .issuer k slot =>
      if !s.sentLeft x then s.ackTrain t
      else if !s.waitsClean k slot then s.markFaulted x
      else gone ((s.markFaulted x).raiseSend k slot { cause := c, val := w64 e.va, mem := 9, addr := addr })
    | .card id =>
      match s.cards.find? fun c => c.id == id with
      | none => s
      | some k =>
        if !cardFree k then s
        else gone (s.cardSnag k (if c = .uncorrected then .bad (w64 e.va) 9 addr else .fail c (w64 e.va)))

/-! ## Arrival -/

/-- The quarter of a source of this device: of a core, or of the copy engines (R245). -/
def sourceQuarter (src : Nat) : Fin 4 := if src < 320 then quarterOf src else Fin.ofNat 4 ((src - 320) / 64)

/-- Whether a train of this device may not be applied now: a copy engine of a quarter that has stopped sent it, while trains of
`scred` run to their end (Table 21-2, R318, R370); or its fault stands (R323). -/
def State.trainHeld (s : State) (t : Train) : Bool :=
  (t.srcDev == bitsAt s.regs.devnum 0 10 && 320 ≤ t.src && (s.quarter (sourceQuarter t.src)).stopped) ||
  (s.sentOf t).any fun x => x.faulted && s.sentLeft x

/-- A train arrives whole (R245): applied, parked in part, dropped, or held while a page is not present or a base
die's holding queue is full. -/
def execTrainReceive (t : Train) (s : State) : Out :=
  let busy := (s.parked.any fun p => trainPair p.train == trainPair t && p.train.seq == t.seq) || s.trainHeld t
  if busy || !bitAt s.regs.domctl (t.srcDev / 16) then .next s
  else
    match (lookD s.windows (trainPair t) { h := 0, marks := 0 }).take t.seq with
    | .drop => .next (s.ackTrain t)
    | .apply _ =>
      let ds := t.elems.map fun e => (e, s.destOf t e)
      let stop := ds.find? fun d => match d.2 with
        | .absent => true
        | .fault _ _ => true
        | _ => false
      match stop with
      | some (e, .fault c a) => .next (s.trainFault t e c a)
      | some (e, _) => .next (s.postResidency t.asid e.va (BitVec.allOnes 32))
      | none =>
        let waiting := ds.filterMap fun d => match d.2 with
          | .parked pa => some (d.1, pa)
          | _ => none
        let full := waiting.any fun w =>
          decide (512 < s.parkedOn (w.2 / 2 ^ 36) + (waiting.filter fun x => x.2 / 2 ^ 36 == w.2 / 2 ^ 36).length)
        if full then .next s
        else
          let s1 := ds.foldl (fun s d => match d.2 with
            | .at_ pa => s.applyElem t d.1 pa
            | _ => s) s
          if waiting.isEmpty then .next (s1.ackTrain t)
          else .next { s1 with parked := s1.parked ++ [{ train := t, rest := waiting.map Prod.fst }] }

/-- The parked elements of one train that a release has freed are applied in order; one whose page is ABSENT has it requested,
and one that faults raises what it would have raised on arrival (R323). The train is acknowledged once it is whole. -/
def State.unparkTrain (s : State) (p : Parked) : State :=
  if s.trainHeld p.train then { s with parked := s.parked ++ [p] }
  else
    let ds := p.rest.map fun e => (e, s.destOf p.train e)
    let s1 := ds.foldl (fun s d => match d.2 with
      | .at_ pa => s.applyElem p.train d.1 pa
      | .absent => s.postResidency p.train.asid d.1.va (BitVec.allOnes 32)
      | _ => s) s
    let left := ds.filter fun d => match d.2 with
      | .at_ _ => false
      | _ => true
    let fault := left.findSome? fun d => match d.2 with
      | .fault c a => some (d.1, c, a)
      | _ => none
    match fault with
    | some (e, c, a) =>
      let s2 := s1.trainFault p.train e c a
      if c = .uncorrected ∨ ((s1.sentOf p.train).isSome = true ∧ (s2.sentOf p.train).isNone = true) then s2
      else { s2 with parked := s2.parked ++ [{ p with rest := left.map Prod.fst }] }
    | none =>
      if left.isEmpty then s1.ackTrain p.train
      else { s1 with parked := s1.parked ++ [{ p with rest := left.map Prod.fst }] }

/-- Applies the parked elements that a release has freed, in arrival order, and returns the credits withheld for stacks whose
holding queues are full no more (R283). -/
def State.unpark (s : State) : State :=
  (s.parked.foldl State.unparkTrain { s with parked := [] }).freeWithheld

/-- An acknowledgement reaches the sender (R244). -/
def execTrainAck (src dest : Nat) (seq : BitVec 32) (s : State) : Out := .next (s.dropSent dest src seq)

end Sys2Proof.Machine
end

