-- ==== Sys2Proof/Machine/Bins.lean ====
section
/-! DEFINITION. Gathers on the base dies (R243) and the binning engines (R246, R247). -/

namespace Sys2Proof.Machine

/-! ## `gath` (R243) -/

/-- N, the index type, RB. -/
def gCount (r : List Word) : Nat := bitsAt (r.getD 1 0) 0 32
def gType (r : List Word) : Nat := bitsAt (r.getD 1 0) 32 2
def gBytes (r : List Word) : Nat := bitsAt (r.getD 1 0) 40 12
def gSize (r : List Word) : Nat := if gType r < 2 then 4 else 8

/-- Whether register n of the block is as R243 says; RB 0 is out of its range (assumption log 23). -/
def gathOk (r : List Word) (n : Nat) : Bool :=
  let w := r.getD 1 0
  n != 1 || (bitsAt w 34 6 == 0 && w >>> 52 == 0 && 1 ≤ gBytes r)

def gReads (r : List Word) : List Range := [{ lo := ((r.getD 0 0).toNat : Int), len := gCount r * gSize r }]
def gWrites (r : List Word) : List Range := [{ lo := ((r.getD 3 0).toNat : Int), len := gCount r * gBytes r }]

/-- DEST must be in the stash of the issuing core or in a cluster-shared window. -/
def State.checkDestWindow (s : State) (p : Word) : Act Unit :=
  match malformed p with
  | some c => raise s c p
  | none => if windowOf p = 9 || windowOf p = 10 then .ok () else raise s .window p

def execGath (c : Ctl) (f : FE) (s : State) : Out :=
  run c s fun s => do
    let _ ← s.scope f.scope (.gath c f)
    let r := s.feRegs f
    let vis := s.val f.opb
    s.checkBarrier vis
    match (List.range 4).find? fun n => !gathOk r n with
    | some n => rangeReg s r n
    | none => do
      s.checkDestWindow (r.getD 3 0)
      s.checkRanges (gReads r ++ gWrites r)
      let a := s.agentOf s.key
      let live := fun (x : List Range) => (x.filter fun y => y.len != 0).map fun y => y.region a
      let es := scoresOf a.core s.nextId (live (gReads r)) (live (gWrites r))
      if 32 < s.core.scores.length + es.length then hold s
      else do
        let g : Gather := { id := s.nextId, ctx := s.key, slot := s.issuerSlot, bins := none, regs := Vector.ofFn fun i => r.getD i 0, vis := vis
                            agent := { a with who := .gather s.nextId }, ten := s.ctx.ten, pc := s.pc, engine := none, next := 0, atEnd := false
                            record := none, faulted := false }
        .ok ({ s with gathers := s.gathers ++ [g], nextId := s.nextId + 1 }.modCore fun x =>
          { x with scores := x.scores ++ es }).advance

/-- Gathers one element (R243), which counts for its page (R330). -/
def gatherElem (g : Gather) (j : Nat) : Eng Unit := do
  let r := g.regs.toList
  let z := gSize r
  let v ← engVal g.agent (r.getD 0 0 + w64 (z * j)) z
  let p := offPtr (r.getD 2 0) (intVal (gType r % 2 = 1) (8 * z) v * gBytes r)
  let l ← engLoc g.agent p 1 1 false
  let d ← engRead g.agent p (gBytes r)
  engWrite g.agent (r.getD 3 0 + w64 (j * gBytes r)) d
  modify fun s => s.count (some 2) l

/-! ## Bin sets (R246) -/

structure BinSet where
  rbase : Word
  rsize : Nat
  nrgn : Nat
  binbase : Word
  bincap : Nat
  op : Nat
  zlog : Nat
  cntbase : Word
  stage : Word
deriving DecidableEq, Repr

def BinSet.ofBits (d : BitVec 512) : BinSet :=
  { rbase := d.extractLsb' 0 64, rsize := bitsAt d 64 32, nrgn := bitsAt d 96 32, binbase := d.extractLsb' 128 64
    bincap := bitsAt d 192 32, op := bitsAt d 224 8, zlog := bitsAt d 232 8, cntbase := d.extractLsb' 256 64
    stage := d.extractLsb' 320 64 }

/-- Whether a pointer is well-formed and in a window. -/
def inWindow (p : Word) (w : Nat) : Bool := windowOf p == w && (malformed p).isNone

/-- A descriptor that keeps R246. -/
def binsOk (d : BitVec 512) : Bool :=
  let b := BinSet.ofBits d
  bitsAt d 384 128 == 0 && bitsAt d 240 16 == 0 && inWindow b.stage 10 && b.stage.toNat % 512 == 0 &&
  inWindow b.cntbase 10 && decide (b.zlog ≤ 3) && applyOk b.op b.zlog && 1 ≤ b.bincap && inWindow b.binbase 0 &&
  decide (1 ≤ b.nrgn ∧ b.nrgn ≤ 65536) && decide (512 ≤ b.rsize ∧ b.rsize ≤ 2 ^ 20) && b.rsize % 512 == 0 &&
  inWindow b.rbase 0 && b.rbase.toNat % 512 == 0

/-- A pointer that must lie in one of the given windows. -/
def State.needWindow (s : State) (p : Word) (ws : List Nat) : Act Unit :=
  match malformed p with
  | some c => raise s c p
  | none => if ws.contains (windowOf p) then .ok () else raise s .window p

/-- Reads and checks the descriptor that s[A] points to: RANGE for one that does not lie in cluster-shared memory, aligned on 64,
as for any that breaks R246 (R247). -/
def State.binSet (s : State) (p : Word) (i : Instr) : Act (BitVec 512 × State) := do
  match malformed p with
  | some c => raise s c p
  | none => if windowOf p = 10 ∧ p.toNat % 64 = 0 then .ok () else trapOp s .range i
  let (bs, s1) ← s.scalarRead p 64 64
  let d : BitVec 512 := BitVec.ofNat 512 (leVal bs)
  if binsOk d then .ok (d, s1) else trapOp s .range i

/-- Whether a replay of the bin set at a pointer is in flight. -/
def State.replaying (s : State) (p : Word) : Bool := s.gathers.any fun g => (g.bins.map Prod.fst) == some p

/-- Region of an address, when it lies in one. -/
def BinSet.regionOf (b : BinSet) (va : Nat) : Option Nat :=
  if va < b.rbase.toNat then none
  else
    let g := (va - b.rbase.toNat) / b.rsize
    if g < b.nrgn then some g else none

/-- An engine's action on behalf of the executing context: an ABSENT page, which the engine requests (R326), is waited for, a failed
check traps. -/
def State.engDo {α : Type} (s : State) (x : Eng α) : Act (α × State) :=
  match x s with
  | .ok r => .ok r
  | .error (.absent d va) => s.waitPage d va true
  | .error (.fail c p) => raise s c p
  | .error (.bad p m a) => raiseBad s p 0 m a
  | .error .held => hold s

/-- Applies an element at a virtual address as an atomic (R209), with the mark of its data (R366). -/
def binApply (a : Agent) (b : BinSet) (va v : Nat) (bad : Bool) : Eng Unit := do
  let l ← engLoc a (w64 va) (2 ^ b.zlog) (2 ^ b.zlog) true
  engApply a l b.op b.zlog (v % 2 ^ (8 * 2 ^ b.zlog)) bad

/-- Places one entry (R247): in its bin, or applied at once. -/
def binPlace (a : Agent) (b : BinSet) (va v dst : Nat) : Eng Unit := do
  match b.regionOf va with
  | none => binApply a b va v false
  | some g => do
    let cp := b.cntbase + w64 (4 * g)
    let n ← engVal a cp 4
    if b.bincap ≤ n then binApply a b va v false
    else do
      engWrite a (b.binbase + w64 ((g * b.bincap + n) * 16)) (toData 8 v false ++ toData 8 dst false)
      engWrite a cp (toData 4 (n + 1) false)

def execBinap (c : Ctl) (f : FE) (s : State) : Out :=
  run c s fun s => do
    let i : Instr := .binap c f
    undo s do
      let (d, s1) ← s.binSet ((s.feRegs f).getD 0 0) i
      let b := BinSet.ofBits d
      if s.replaying ((s.feRegs f).getD 0 0) then hold s
      let list := s.val f.opb
      s.needWindow list [0, 10]
      let (n, s2) ← s1.scalarVal list 8
      let (es, s3) ← s2.readEntries (list + 8) (bitsAt b.rbase 54 3) n 0
      s.checkEntries b.zlog es (some i.upper)
      let (_, s4) ← s3.engDo (es.forM fun e => binPlace (s3.agentOf s3.key) b e.2.1 e.1 (e.2.1 % 2 ^ 54))
      .ok s4.advance

/-- Replays one region (R247): the region as it stands goes to STAGE, takes the bin's entries in slot order, and is
written back; no other agent's access comes between. What is written back are elements applied as atomics, and published as they
perform (R202, R209). -/
def binReplay (a : Agent) (b : BinSet) (g : Nat) : Eng Unit := do
  let cp := b.cntbase + w64 (4 * g)
  let n ← engVal a cp 4
  if n = 0 then pure ()
  else do
    let base := b.rbase + w64 (g * b.rsize)
    let old ← engRead a base b.rsize
    engWrite a b.stage old
    (List.range (min n b.bincap)).forM fun k => do
      let e := b.binbase + w64 ((g * b.bincap + k) * 16)
      let v ← engRead a e 8
      let d ← engVal a (e + 8) 8
      let va := bitsAt b.rbase 54 3 * 2 ^ 54 + d % 2 ^ 54
      if b.regionOf va = some g then do
        let l ← engLoc a (b.stage + w64 (va - base.toNat)) (2 ^ b.zlog) (2 ^ b.zlog) true
        engApply a l b.op b.zlog (dataVal v % 2 ^ (8 * 2 ^ b.zlog)) (dataBad v)
      else binApply a b va (dataVal v) (dataBad v)
    let new ← engRead a b.stage b.rsize
    engWrite a base new true
    engWrite a cp (toData 4 0 false)

/-- Whether the replay that an issuer's `binpl` has started still runs. -/
def State.replayOf (s : State) (k slot : Nat) : Bool := s.gathers.any fun g => s.replaysFor k g && g.slot == slot

/-- `binpl` hands the bin set to the binning engine of the core's cluster; one that runs on the same descriptor is waited
for. It completes once every element has performed (R209), and until then its issuer waits. -/
def execBinpl (c : Ctl) (f : FE) (s : State) : Out :=
  run c s fun s => do
    let i : Instr := .binpl c f
    if s.ctx.sends.contains s.issuerSlot then
      if s.replayOf s.key s.issuerSlot then hold s.retrySends
      else .ok (s.modCtx fun x => { x with sends := setDel x.sends s.issuerSlot }).advance
    else do
    let _ ← s.scope f.scope i
    let vis := s.val f.opb
    s.checkBarrier vis
    let p := (s.feRegs f).getD 0 0
    undo s do
      let (b, s1) ← s.binSet p i
      if s.replaying p then hold s
      let g : Gather := { id := s1.nextId, ctx := s1.key, slot := s1.issuerSlot, bins := some (p, b), regs := .replicate 4 0
                          vis := vis, agent := { s1.agentOf s1.key with who := .gather s1.nextId }, ten := s1.ctx.ten
                          pc := s1.pc, engine := none, next := 0, atEnd := false, record := none, faulted := false }
      .ok ({ s1 with gathers := s1.gathers ++ [g], nextId := s1.nextId + 1 }.modCtx fun x =>
        { x with sends := setAdd x.sends s1.issuerSlot })

/-! ## Gathers and replays at work (R243, R247) -/

/-- Elements or regions, and the count that the arrival adds. -/
def Gather.total (g : Gather) : Nat :=
  match g.bins with
  | none => gCount g.regs.toList
  | some b => (BinSet.ofBits b.2).nrgn
def Gather.arrives (g : Gather) : Nat :=
  match g.bins with
  | none => gCount g.regs.toList * gBytes g.regs.toList
  | some b => (BinSet.ofBits b.2).nrgn

/-- One element or region. -/
def Gather.act (g : Gather) : Eng Unit :=
  match g.bins with
  | none => gatherElem g g.next
  | some b => binReplay g.agent (BinSet.ofBits b.2) g.next

/-- The base die that holds the first index byte of a gather, or the cluster whose engine replays, as a number past the dies.
For an index list in a stash or in cluster-shared memory, and for one whose first page is ABSENT at dispatch, the manual names no
die: the first of the issuer's quarter is the model's choice, and a gather keeps the engine that it has (assumption log 31). -/
def State.gatherUnit (s : State) (g : Gather) : Option Nat :=
  match g.bins with
  | some _ => some (12 + clusterOf g.agent.core)
  | none =>
    match s.find g.agent (g.regs.get 0) 1 1 false with
    | (.at_ (.hbm _ _ pa), _) => some (pa / 2 ^ 36)
    | _ => some (3 * quarterOf g.agent.core)

/-- Engines of a unit: four indirect-stream engines on a die, one binning engine in a cluster (R14). -/
def unitEngines (u : Nat) : Nat := if u < 12 then 4 else 1

/-- The lowest free engine of a unit, numbered unit × 4 + engine. -/
def State.freeUnitEngine (s : State) (u : Nat) : Option Nat :=
  ((List.range (unitEngines u)).map fun e => 4 * u + e).find? fun e => !s.gathers.any fun g => g.engine == some e

def State.modGather (s : State) (id : Nat) (f : Gather → Gather) : State :=
  { s with gathers := s.gathers.map fun g => if g.id = id then f g else g }

/-- The terminal record of a gather or a replay (R243). -/
def gatherRecord (g : Gather) (p : Word) (cls : Nat) (cause : Cause) (mem addr : Nat) : TrapRec :=
  { seq := 0, gen := g.ten.gen, team := BitVec.ofNat 32 g.ten.gang
    trap := { cause := cause, val := p, idx0 := w64 g.next, mem := mem, addr := addr }
    pc := g.pc, core := g.agent.core, ctx := lcOfCtx g.ctx, cls := cls, card := none }

/-- Posts a gather's record, as a card's is posted: it moves no further element and its issuer ends. -/
def State.postGather (s : State) (g : Gather) (r : TrapRec) : State :=
  match s.putRecord (quarterOf g.agent.core) r with
  | none => s.modGather g.id fun x => { x with record := some r }
  | some s => (s.modGather g.id fun x => { x with atEnd := true, record := none, engine := none }).endIssuer g.ctx g.ten

/-- Whether a fault of a gather is one that its `binpl` raises: a replay's page is INVALID or without W, and the issuer that
waits for it has not ended. -/
def State.binplRaises (s : State) (g : Gather) (c : Cause) : Bool :=
  g.bins.isSome && c.replayable && s.senderLeft g.ctx g.ten

/-- What stops a gather: an ABSENT page is requested and waited for, a failing element is a data error. A replay whose element
meets a page without W, or an INVALID one, raises that at its `binpl`, which waits for it, once; it has no engine until it goes
on from there on replay (R309, R323); when TQACT has ended its issuer instead, the replay moves no further element, and no other
record is written (R317). -/
def State.gatherSnag (s : State) (g : Gather) (x : Snag) : State :=
  match x with
  | .absent d va => s.postResidency d va (BitVec.allOnes 32)
  | .held => s
  | .fail c p =>
    if s.binplRaises g c then
      (s.modGather g.id fun x => { x with faulted := true, engine := none }).raiseSend g.ctx g.slot { cause := c, val := p }
    else if g.faulted then s.modGather g.id fun x => { x with atEnd := true, engine := none }
    else s.postGather g (gatherRecord g p 3 .range 0 0)
  | .bad p m a => (s.logError m 3 false g.agent.core a).postGather g (gatherRecord g p 2 .uncorrected m a)

/-- The next element or region; after the last only the arrival is left. Between two of them other agents may act (R22). -/
def State.gatherRun (s : State) (g : Gather) : State :=
  if g.total ≤ g.next then s.modGather g.id fun _ => { g with atEnd := true, engine := none }
  else
    match g.act s with
    | .ok (_, s') =>
      s'.modGather g.id fun _ =>
        if g.next + 1 < g.total then { g with next := g.next + 1 }
        else { g with next := g.next + 1, atEnd := true, engine := none }
    | .error x => (s.modGather g.id fun _ => g).gatherSnag g x

/-- Whether a gather stands at a fault that its `binpl` has raised. -/
def State.standsFaulted (s : State) (g : Gather) : Bool := g.faulted && s.senderLeft g.ctx g.ten

/-- A gather or replay is done once its arrival has been made: its entries are freed. An arrival that cannot be made is a data
error, and is not tried again (R233, R367, assumption log 24). -/
def State.endGather (s : State) (g : Gather) : State :=
  let done := fun (s : State) =>
    { ((s.freeScores g.agent.core g.id false).freeScores g.agent.core g.id true).dropTorn (.gather g.id) with
      gathers := s.gathers.filter fun x => x.id != g.id }
  match engArrive g.agent g.vis g.arrives s with
  | .ok (_, s) => done s
  | .error x =>
    let lost := match x with
      | .fail c _ => !s.binplRaises g c
      | .bad _ _ _ => true
      | _ => false
    (if lost then s.modGather g.id fun g => { g with vis := 0 } else s).gatherSnag g x

/-- Whether a gather may go on: in a quarter that has stopped only a replay does, which runs to its end (Table 21-2, R318). -/
def State.gatherGoes (s : State) (g : Gather) : Bool :=
  g.record.isNone && !s.standsFaulted g && (g.bins.isSome || !(s.quarter (quarterOf g.agent.core)).stopped)

/-- A gather or a replay goes on: once an engine is free it moves its elements one by one (R207, R243, R247). -/
def State.gatherTurn (s : State) (g : Gather) : State :=
  if g.atEnd || !s.gatherGoes g then s
  else
    match g.engine with
    | some _ => s.gatherRun g
    | none =>
      match (s.gatherUnit g).bind s.freeUnitEngine with
      | none => s
      | some e =>
        let tlb := if e < 48 then 576 + e / 4 else g.agent.tlb
        s.gatherRun { g with engine := some e, agent := { g.agent with tlb := tlb } }

/-- A gather or a replay all of whose elements have performed makes its arrival (R205). -/
def execGatherVisibleArrival (id : Nat) (s : State) : Out :=
  match s.gathers.find? fun g => g.id == id with
  | none => .next s
  | some g =>
    .next (if g.atEnd && s.gatherGoes g then s.endGather g else s)

end Sys2Proof.Machine
end

