-- ==== Sys2Proof/Machine/Control.lean ====
section
/-! DEFINITION. Control transfer, loop brackets, strips, traps and the handler return (R36, R89 to R92,
R160 to R162). -/

namespace Sys2Proof.Machine

/-- The target of an FB instruction (R36). -/
def fbTarget (pc : Word) (f : FB) : Word :=
  ((pc &&& ~~~(0xF : Word)) + f.pdisp.signExtend 64 * 128) ||| w64 f.tslot.val

/-- A checked transfer target (R28, R36): the target, or the trap at this instruction. -/
def State.target (s : State) (t : Word) : Act Word :=
  match targetCause t with
  | some c => raise s c t
  | none => .ok t

def execNop (c : Ctl) (_f : FR) (s : State) : Out := run c s fun s => .ok s.advance

def execYield (c : Ctl) (_f : FR) (s : State) : Out := run c s fun s => .ok s.advance

def execBr (c : Ctl) (f : FB) (s : State) : Out :=
  run c s fun s => do
    let t ← s.target (fbTarget s.pc f)
    .ok (s.goto t)

def execCall (c : Ctl) (f : FB) (s : State) : Out :=
  run c s fun s => do
    s.checkDest f.opd
    let t ← s.target (fbTarget s.pc f)
    .ok ((s.putS f.opd s.nextPC).goto t)

def execBrr (c : Ctl) (f : FR) (s : State) : Out :=
  run c s fun s => do
    let t ← s.target (s.val f.opa)
    .ok (s.goto t)

/-- That a shared destination in a body (R87) is refused before a target that fails R28 or R36 is the model's choice, in `call`
as well (assumption log 16). -/
def execCallr (c : Ctl) (f : FR) (s : State) : Out :=
  run c s fun s => do
    s.checkDest f.opd
    let t ← s.target (s.val f.opa)
    .ok ((s.putS f.opd s.nextPC).goto t)

def execRet (c : Ctl) (f : FR) (s : State) : Out :=
  run c s fun s => do
    let t ← s.target (s.val f.opa)
    .ok (s.goto t)

/-! ## Loops and strips -/

/-- Strips of a loop: ceil(N ÷ VL) (R90). -/
def Loop.count (l : Loop) (vl : Nat) : Nat := (l.n.toNat + vl - 1) / vl

/-- The registers that a strip leaves, when they prevail over those kept so far (R90): the strip of lowest
SIDX that executed `vbreak`, else the strip of highest SIDX. -/
def keepFinal (old : Option Final) (new : Final) : Option Final :=
  match old with
  | none => some new
  | some o =>
    if new.broke && !o.broke then some new
    else if !new.broke && o.broke then some o
    else if new.broke then (if new.sidx.toNat < o.sidx.toNat then some new else some o)
    else if o.sidx.toNat < new.sidx.toNat then some new else some o

/-- Replaces s32 to s63 and p4 to p7, and writes the loop sums into their registers (R90, R136). -/
def Ctx.leaveLoop (c : Ctx) (l : Loop) : Ctx :=
  let c : Ctx := match l.final with
    | none => c
    | some f =>
      { c with s := Vector.ofFn fun i => if 32 ≤ i.val then f.s.get (Fin.ofNat 32 (i - 32)) else c.s.get i
               p := Vector.ofFn fun i => if 4 ≤ i.val then f.p.get (Fin.ofNat 4 (i - 4)) else c.p.get i }
  { c with s := l.sums.foldl (fun s x => s.set (x.1 % 64) x.2 (Nat.mod_lt _ (by decide))) c.s
           thread := { pc := l.exit, packet := none }, loop := none, strips := .replicate 4 none, hstrip := none }

/-- Leaves the loop when every started strip has ended and none remains (R90). -/
def Ctx.loopDone (c : Ctx) (vl : Nat) : Ctx :=
  match c.loop with
  | none => c
  | some l => if c.strips.all Option.isNone && (l.stopped || decide (l.count vl ≤ l.next)) then c.leaveLoop l else c

/-- The executing strip ends at `vend` or `vbreak` (R90, R161). In a handler that runs as that strip, the context's other
strips stay frozen, since no `rfe` has been executed (R168, assumption log 9). -/
def State.endStrip (s : State) (broke : Bool) : State :=
  match s.cur.lg, s.strip? with
  | some g, some t =>
    let vl := s.core.vl
    s.modCtx fun c =>
      let l := c.loop.map fun l =>
        { l with final := keepFinal l.final { sidx := t.sidx, broke := broke, s := t.s, p := t.p }
                 stopped := l.stopped || broke }
      { (c.setStrip g none) with loop := l }.loopDone vl
  | _, _ => s

def execVloop (c : Ctl) (f : FB) (s : State) : Out :=
  run c s fun s => do
    if s.inBody then trapOp s .range (.vloop c f)
    else
      let t ← s.target (fbTarget s.pc f)
      let n := s.val f.opa
      if n = 0 then .ok (s.goto t)
      else
        .ok (s.modCtx fun x =>
          { x with loop := some { n := n, start := s.nextPC, exit := t, next := 0, stopped := false, final := none
                                  sums := [] } })

/-- The end of a body (R90). That a target which fails R28 or R36 is refused before one that is not the start of the loop is the
model's choice (assumption log 16). -/
def execVend (c : Ctl) (f : FB) (s : State) : Out :=
  run c s fun s => do
    if !s.inBody then trapOp s .range (.vend c f)
    else
      let t ← s.target (fbTarget s.pc f)
      match s.ctx.loop with
      | none => trapOp s .range (.vend c f)
      | some l => if t != l.start then raise s .range t else .ok (s.endStrip false)

def execVbreak (c : Ctl) (f : FR) (s : State) : Out :=
  run c s fun s => do
    if !s.inBody then trapOp s .range (.vbreak c f) else .ok (s.endStrip true)

/-- The lowest-numbered lane group that holds no strip of a context (R161). -/
def Ctx.freeGroup (c : Ctx) : Option (Fin 4) := (List.finRange 4).find? fun g => (c.strips.get g).isNone

/-- Whether a strip may start: its context issues, and no trap of it is held or pending (R168, R308). -/
def Ctx.startsStrips (c : Ctx) : Bool :=
  (c.status == .running || (c.status == .handler && c.hstrip.isNone)) && c.record.isNone && !c.pending

/-- The next strip of a loop starts on the lowest free lane group (R161, R162). -/
def execStripStart (core : Fin 320) (lc : Fin 4) (s : State) : Out :=
  let k := ctxNum core lc
  let c := s.ctxAt k
  let vl := (s.coreAt core).vl
  match c.loop, c.freeGroup with
  | some l, some g =>
    if c.startsStrips && !l.stopped && decide (l.next < l.count vl) && !s.frozen k then
      let sidx := l.next * vl
      let t : Strip :=
        { thread := { pc := l.start, packet := none }, sidx := w64 sidx, slen := min vl (l.n.toNat - sidx)
          s := Vector.ofFn fun i => c.s.get (Fin.ofNat 64 (i + 32))
          p := Vector.ofFn fun i => c.p.get (Fin.ofNat 8 (i + 4)), pops := .replicate 4 0
          popped := false, held := none }
      .next ((s.setCtxAt k ({ c with loop := some { l with next := l.next + 1 } }.setStrip g (some t))).modCoreAt core
        fun x => x.clearTags lc g 0)
    else .next s
  | _, _ => .next s

/-! ## End, traps and return -/

/-- `exit` (R91, R297): it waits until vector instructions that strips have issued have completed. -/
def execExit (c : Ctl) (_f : FR) (s : State) : Out :=
  run c s fun s => do
    if !s.ctx.ahead.isEmpty then hold s
    let s ← undo s do
      let s ← s.publish s.key (doneScopeOf s.ctx.ten.doneScope)
      s.flushStash s.cur.core true
    .ok (s.endCtx s.key)

/-- `trap` and `brk` (R92): TRAPVAL holds IMM40, TRAPPC NextPC. -/
def softTrap (cause : Cause) (imm : BitVec 40) (s : State) : Act State :=
  .error (.trap { cause := cause, val := imm.zeroExtend 64, pc := some s.nextPC } s)

def execTrap (c : Ctl) (f : FI) (s : State) : Out := run c s (softTrap .software f.imm)

def execBrk (c : Ctl) (f : FI) (s : State) : Out := run c s (softTrap .brk f.imm)

def execRfe (c : Ctl) (f : FR) (s : State) : Out := run c s fun s => s.rfe (.rfe c f)

end Sys2Proof.Machine
end

