-- ==== Sys2Proof/Machine/CtlRegs.lean ====
section
/-! DEFINITION. `pany`, and the control registers of Table 6-6 read by `mfc` and written by `mtc` (R99, R104
to R106). -/

namespace Sys2Proof.Machine

/-- OWNER (Table 24-3). -/
def Owner.word (o : Owner) : Word := w64 (o.lease * 2 ^ 48 + o.epoch.toNat * 2 ^ 32 + o.cand * 2 ^ 8 + o.own)

/-- CWIN (R75), whose CB has nine bits (an empty window may begin at 512: assumption log 16), and CTXID (Table 6-6). -/
def Window.word (w : Window) : Word := w64 (w.cb % 512 * 2 ^ 16 + w.cn)
def Issuer.word (i : Issuer) : Word := w64 (i.core + i.lc * 2 ^ 16)

/-- The value of a control register (Table 6-6). -/
def State.readCr (s : State) (n : Nat) : Word :=
  let c := s.ctx
  match n with
  | 0x00 => c.streg
  | 0x01 => c.trap.cause | 0x02 => c.trap.pc | 0x03 => c.trap.val
  | 0x04 => c.trap.idx0 | 0x05 => c.trap.idx1 | 0x06 => c.trap.idx2
  | 0x08 => w64 s.slen | 0x09 => s.sidx | 0x0A => w64 c.mvl | 0x0B => c.srseed.zeroExtend 64
  | 0x0C => c.win.word | 0x0D => s.cur.word
  | 0x10 => s.regs.aithresh | 0x11 => s.owner.word | 0x12 => s.regs.fatalsum
  | n => if 0x20 ≤ n ∧ n < 0x40 then (c.fmap.get (Fin.ofNat 32 n)).zeroExtend 64 else 0

/-- The index of a control register operand. -/
def crOf : Operand → Nat
  | .cr n => n.toNat
  | _ => 0

/-- `mfc` and `mtc` follow every earlier vector instruction of their loop context (R106), those of its other strips as well
(R73). -/
def State.afterVector (s : State) : Act Unit := if s.ctx.ahead.isEmpty then .ok () else hold s

def execMfc (c : Ctl) (f : FR) (s : State) : Out :=
  run c s fun s => do
    s.afterVector
    s.checkDest f.opd
    .ok (s.putS f.opd (s.readCr (crOf f.opa))).advance

/-- Whether `mtc` may execute here: not in a body, but for TRAPPC and STATUS in the handler (R87, R172). -/
def State.mtcAllowed (s : State) (n : Nat) : Bool :=
  !s.inBody || (s.ctx.status == .handler && (n == 0x00 || n == 0x02))

/-- A write of a field-map entry that R78 checks. -/
def State.writeFmap (s : State) (n : Fin 32) (e : BitVec 32) : Act State :=
  if entryOk s.ctx.win e then .ok (s.setEntry n e) else raise s .range (e.zeroExtend 64) (w64 n)

/-- A write of a control register that `mtc` may write (R104). That a non-zero upper bit is refused before an entry of FMAPn that
fails R78 is the model's choice (assumption log 37). -/
def State.writeCr (s : State) (n : Nat) (v : Word) : Act State :=
  if n = 0x00 then .ok (s.modCtx fun c => { c with streg := writeStatus c.streg v })
  else if n = 0x02 then .ok (s.modCtx fun c => { c with trap := { c.trap with pc := v } })
  else if v >>> 32 != 0 then raise s .range v
  else if n = 0x0B then .ok (s.modCtx fun c => { c with srseed := v.truncate 32, stoch := [] })
  else s.writeFmap (Fin.ofNat 32 n) (v.truncate 32)

def execMtc (c : Ctl) (f : FR) (s : State) : Out :=
  run c s fun s => do
    s.afterVector
    if s.mtcAllowed (crOf f.opd) then
      let s ← s.writeCr (crOf f.opd) (s.val f.opa)
      .ok s.advance
    else trapField s .operandClass f.opd

/-- `pany` (R99): one tree read of a mask over the lane group; 0 outside a body. -/
def execPany (c : Ctl) (f : FR) (s : State) : Out :=
  run c s fun s => do
    s.checkDest f.opd
    let j := mreg f.opa
    let k := s.core
    let any := s.inBody && (List.range 4096).any fun i => tagOf s.cur.lc s.slen j i (k.row (s.lane i))
    .ok (s.putP f.opd any).advance

end Sys2Proof.Machine
end

