-- ==== Sys2Proof/Machine/Serving.lean ====
section
/-! DEFINITION. The prefix table and the probe table (R344, R345, R347, R348). -/

namespace Sys2Proof.Machine

/-! ## Prefix entries (Table 23-3) -/

abbrev PEntry := BitVec 256

def peHash (e : PEntry) : Word := e.extractLsb' 0 64
def pePage (e : PEntry) : Nat := bitsAt e 128 41
def peAs (e : PEntry) : Nat := bitsAt e 180 4
def peV (e : PEntry) : Bool := bitAt e 184
def peDepth (e : PEntry) : Nat := bitsAt e 192 16
def pePin (e : PEntry) : Nat := bitsAt e 208 16
def peAge (e : PEntry) : BitVec 32 := e.extractLsb' 224 32

def PEntry.make (hash : Word) (page asid depth pin age : Nat) : PEntry :=
  BitVec.ofNat 256 (hash.toNat + page * 2 ^ 128 + asid * 2 ^ 180 + 2 ^ 184 + depth * 2 ^ 192 + pin * 2 ^ 208 +
    age * 2 ^ 224)

def PEntry.withPin (e : PEntry) (n : Nat) : PEntry := PEntry.make (peHash e) (pePage e) (peAs e) (peDepth e) n (peAge e).toNat
def PEntry.withAge (e : PEntry) (n : BitVec 32) : PEntry :=
  PEntry.make (peHash e) (pePage e) (peAs e) (peDepth e) (pePin e) n.toNat

def State.pentry (s : State) (n : Nat) : PEntry := lookD s.serving.prefix_ n 0
def State.setPentry (s : State) (n : Nat) (e : PEntry) : State :=
  { s with serving := { s.serving with prefix_ := put s.serving.prefix_ n e } }

/-- Whether an entry matches the issuer (R345). -/
def State.pmatch (s : State) (n : Nat) : Bool := peV (s.pentry n) && peAs (s.pentry n) == s.asid.val

/-- Advances ACLK and gives an entry its value as AGE. -/
def State.touchEntry (s : State) (n : Nat) (f : BitVec 32 → PEntry) : State :=
  let a := s.serving.aclk + 1
  { s.setPentry n (f a) with serving := { (s.setPentry n (f a)).serving with aclk := a } }

/-! ## `pfxl` (R345) -/

/-- H[0..n−1]. -/
def State.readHashes (s : State) (p : Word) : (n j : Nat) → Act (List Word × State)
  | 0, _ => .ok ([], s)
  | n + 1, j => do
    let (v, s) ← s.scalarVal (p + w64 (8 * j)) 8
    let (vs, s) ← s.readHashes p n (j + 1)
    .ok (w64 v :: vs, s)

/-- The entry that a lookup finds: the deepest that matches, ties to the lower index. -/
def State.bestPrefix (s : State) (hs : List Word) : Option Nat :=
  (List.range 64).foldl (fun best e =>
    let x := s.pentry e
    if s.pmatch e && decide (1 ≤ peDepth x) && hs[peDepth x - 1]? == some (peHash x) then
      match best with
      | none => some e
      | some b => if peDepth (s.pentry b) < peDepth x then some e else some b
    else best) none

/-- The result of a lookup; `pin` takes a reference. -/
def pfxLookup (i : Instr) (pin : Bool) (f : FR) (s : State) : Act State := do
  s.checkDest f.opd
  let n := (s.val f.opb).toNat
  if n = 0 then .ok (s.putS f.opd 0).advance
  else if 4096 < n then trapOp s .range i
  else do
    let (hs, s) ← undo s (s.readHashes (s.val f.opa) n 0)
    match s.bestPrefix hs with
    | none => .ok (s.putS f.opd 0).advance
    | some b =>
      let e := s.pentry b
      let e := if pin then PEntry.withPin e (min 65535 (pePin e + 1)) else e
      let s := s.touchEntry b (PEntry.withAge e)
      .ok (s.putS f.opd (w64 (2 ^ 31 + b * 2 ^ 16 + peDepth e))).advance

def execPfxlFind (c : Ctl) (f : FR) (s : State) : Out := run c s (pfxLookup (.pfxlFind c f) false f)
def execPfxlPin (c : Ctl) (f : FR) (s : State) : Out := run c s (pfxLookup (.pfxlPin c f) true f)

/-- An entry index; RANGE above 63. -/
def State.pindex (s : State) (v : Word) : Act Nat := if v >>> 6 != 0 then raise s .range v else .ok v.toNat

def execPfxlPage (c : Ctl) (f : FR) (s : State) : Out :=
  run c s fun s => do
    s.checkDest f.opd
    let n ← s.pindex (s.val f.opa)
    let v := if s.pmatch n then w64 (pePage (s.pentry n) * 65536) else BitVec.allOnes 64
    .ok (s.putS f.opd v).advance

/-! ## `pfxi` (R345) -/

/-- The victim of an insertion: the lowest invalid entry, else the oldest unpinned one. -/
def State.victim (s : State) : Option Nat :=
  match (List.range 64).find? fun e => !peV (s.pentry e) with
  | some e => some e
  | none =>
    let age := fun e => (s.serving.aclk + 1 - peAge (s.pentry e)).toNat
    (List.range 64).foldl (fun best e =>
      if pePin (s.pentry e) ≠ 0 then best
      else
        match best with
        | none => some e
        | some b => if age b < age e then some e else some b) none

/-- Inserts, refreshes or refuses: the state and sD. -/
def State.insertPrefix (s : State) (hash : Word) (page depth : Nat) : State × Nat :=
  match (List.range 64).find? fun e => s.pmatch e && peHash (s.pentry e) == hash && peDepth (s.pentry e) == depth with
  | some e => (s.touchEntry e (PEntry.withAge (s.pentry e)), 0x100 + e)
  | none =>
    match s.victim with
    | some e => (s.touchEntry e fun a => PEntry.make hash page s.asid depth 0 a.toNat, e)
    | none => (s, 0x200)

def execPfxiIns (c : Ctl) (f : FR) (s : State) : Out :=
  run c s fun s => do
    s.checkDest f.opd
    let p := s.val f.opa
    let (h, s1) ← undo s (s.scalarVal p 8)
    let (w, s2) ← undo s (s1.scalarVal (p + 8) 8)
    let depth := w / 2 ^ 48
    if w / 2 ^ 41 % 128 != 0 || depth == 0 then trapOp s .range (.pfxiIns c f)
    else
      let r := s2.insertPrefix (w64 h) (w % 2 ^ 41) depth
      .ok (r.1.putS f.opd (w64 r.2)).advance

def execPfxiUnpin (c : Ctl) (f : FR) (s : State) : Out :=
  run c s fun s => do
    s.checkDest f.opd
    let n ← s.pindex (s.val f.opa)
    let e := s.pentry n
    if !s.pmatch n || pePin e = 0 then .ok (s.putS f.opd (BitVec.allOnes 64)).advance
    else if pePin e = 65535 then .ok (s.putS f.opd 65535).advance
    else .ok ((s.setPentry n (PEntry.withPin e (pePin e - 1))).putS f.opd (w64 (pePin e - 1))).advance

def pfxinvOff : Nat := 0x12B8

/-- A master's write of PFXINV: V := 0 (R344). -/
def execPfxinv (m : Fin 4) (v : Word) (s : State) : Out :=
  .next (s.ownerWrite m pfxinvOff v fun s =>
    let n := bitsAt v 0 6
    some (s.setPentry n (s.pentry n &&& ~~~(BitVec.ofNat 256 (2 ^ 184)))))

/-! ## The probe table (R347, R348, Table 23-5) -/

def prValid (e : BitVec 256) : Bool := bitAt e 0
def prPoint (e : BitVec 256) : Nat := bitsAt e 1 1
def prSense (e : BitVec 256) : Bool := bitAt e 2
def prLayer (e : BitVec 256) : Nat := bitsAt e 16 10
def prDim (e : BitVec 256) : Nat := bitsAt e 32 16
def prWptr (e : BitVec 256) : Nat := bitsAt e 64 40
def prBias (e : BitVec 256) : BitVec 32 := e.extractLsb' 128 32
def prThr (e : BitVec 256) : BitVec 32 := e.extractLsb' 160 32

def State.probe (s : State) (n : Nat) : BitVec 256 := lookD s.serving.probes n 0

/-- Whether R348 lets an entry be committed as number n. -/
def State.probeOk (s : State) (n : Nat) (e : BitVec 256) : Bool :=
  bitsAt e 3 13 == 0 && bitsAt e 26 6 == 0 && bitsAt e 48 16 == 0 && bitsAt e 104 24 == 0 && bitsAt e 192 64 == 0 &&
  !(prValid e && prDim e == 0) && prWptr e % 4 == 0 &&
  (prDim e == 0 || (decide (prWptr e + 4 * prDim e ≤ 12 * 2 ^ 36) &&
    !s.frameBad (prWptr e / 65536 * 65536) ((prWptr e % 65536 + 4 * prDim e + 65535) / 65536 * 65536))) &&
  (!prValid e || decide (((List.range 256).filter fun k =>
    k != n && prValid (s.probe k) && prLayer (s.probe k) == prLayer e && prPoint (s.probe k) == prPoint e).length < 16))

/-- Word w of an entry replaced. -/
def setProbeWord (e : BitVec 256) (w : Nat) (v : Word) : BitVec 256 :=
  (e &&& ~~~(BitVec.ofNat 256 ((2 ^ 64 - 1) * 2 ^ (64 * w)))) ||| BitVec.ofNat 256 (v.toNat * 2 ^ (64 * w))

def probeOff (e w : Nat) : Nat := 0x12_1000 + 32 * e + 8 * w

/-- A write of word 0 checks the staged entry and commits it whole. -/
def State.commitProbe (s : State) (e : Fin 256) (v : Word) : Option State :=
  let x := setProbeWord (lookD s.serving.staging e 0) 0 v
  if s.probeOk e x then
    some { s with serving := { s.serving with probes := put s.serving.probes e x, staging := put s.serving.staging e x } }
  else none

/-- A write of words 1 to 3 goes to the staging copy. -/
def State.stageProbe (s : State) (e : Fin 256) (w : Fin 4) (v : Word) : State :=
  { s with serving := { s.serving with
      staging := put s.serving.staging e (setProbeWord (lookD s.serving.staging e 0) w v) } }

def execProbeStageWrite (m : Fin 4) (e : Fin 256) (w : Fin 4) (v : Word) (s : State) : Out :=
  .next (s.ownerWrite m (probeOff e w) v fun s => if w = 0 then s.commitProbe e v else some (s.stageProbe e w v))

def execProbeCommit (m : Fin 4) (e : Fin 256) (v : Word) (s : State) : Out :=
  .next (s.ownerWrite m (probeOff e 0) v fun s => s.commitProbe e v)

end Sys2Proof.Machine
end

