-- ==== Sys2Proof/Machine/Gangs.lean ====
section
/-! DEFINITION. Launch records and gangs: fields (Table 20-1), well-formedness (R293), readiness (R295, R300),
placement (R295, R312), the start of a gang (R296) and the restoring of a saved one (R310, R311). -/

namespace Sys2Proof.Machine

/-! ## Fields of a launch record (Table 20-1) -/

abbrev Rec := BitVec 2048

def rGrouped (r : Rec) : Bool := bitAt r 4
def rSpread (r : Rec) : Bool := bitAt r 5
def rCpg (r : Rec) : Nat := bitsAt r 6 4
def rMask (r : Rec) : Nat := bitsAt r 10 4
def rStashK (r : Rec) : Nat := bitsAt r 14 2
def rNlev (r : Rec) : Nat := bitsAt r 16 4
def rPrio (r : Rec) : Nat := bitsAt r 20 4
def rDoneScope (r : Rec) : Nat := bitsAt r 24 3
def rTag (r : Rec) : Nat := bitsAt r 32 32
def rGen (r : Rec) : BitVec 32 := r.extractLsb' 64 32
def rNgang (r : Rec) : Nat := bitsAt r 96 32
def rEntry (r : Rec) (m : Nat) : Word := r.extractLsb' (128 + 64 * m) 64
def rHandler (r : Rec) : Word := r.extractLsb' 384 64
def rFmapPtr (r : Rec) : Word := r.extractLsb' 448 64
def rArgPtr (r : Rec) : Word := r.extractLsb' 512 64
def rSbase (r : Rec) : Word := r.extractLsb' 576 64
def rPrivBase (r : Rec) : Word := r.extractLsb' 640 64
def rPsize (r : Rec) : BitVec 32 := r.extractLsb' 704 32
def rSeed (r : Rec) : BitVec 32 := r.extractLsb' 736 32
def rRowPtr (r : Rec) : Word := r.extractLsb' 1024 64
def rNgrp (r : Rec) : Nat := bitsAt r 1088 32
def rMenu (r : Rec) (m : Nat) : Bool := bitAt r (1120 + m)
def rDepPtr (r : Rec) (k : Nat) : Word := r.extractLsb' (1152 + 128 * k) 64
def rDepGen (r : Rec) (k : Nat) : Nat := bitsAt r (1216 + 128 * k) 32
def rDoneBar (r : Rec) : Word := r.extractLsb' 1664 64
def rVector (r : Rec) : Nat := bitsAt r 1728 11
def rIrq (r : Rec) : Bool := bitAt r 1743

/-- Domain, scope code and PARTS of a level; PARTS 0 reads as 1. -/
def rDomain (r : Rec) (l : Nat) : Nat := bitsAt r (900 + 8 * l) 4
def rScope (r : Rec) (l : Nat) : Nat := bitsAt r (896 + 8 * l) 4
def rParts (r : Rec) (l : Nat) : Nat := max 1 (bitsAt r (960 + 8 * l) 8)
def rLevels (r : Rec) : List (Nat × Nat) := (List.range (rNlev r)).map fun l => (rDomain r l, rScope r l)

/-- The loop contexts of a gang on each core. -/
def rLcs (r : Rec) : List Nat := (List.range 4).filter fun i => (rMask r).testBit i
/-- Contexts of a gang. -/
def rGangSize (r : Rec) : Nat := rCpg r * (rLcs r).length

/-- Window and accumulator range of an LC: CB, CN, AB, AN. -/
def rCb (r : Rec) (i : Nat) : Nat := 16 * bitsAt r (768 + 16 * i) 6
def rCn (r : Rec) (i : Nat) : Nat := 16 * bitsAt r (776 + 16 * i) 6
def rAb (r : Rec) (i : Nat) : Nat := bitsAt r (832 + 16 * i) 4
def rAn (r : Rec) (i : Nat) : Nat := bitsAt r (836 + 16 * i) 5

/-! ## Well-formed records (R293) -/

/-- Whether two ranges meet; an empty one meets none. -/
def rangesMeet (a n b m : Nat) : Bool := decide (0 < n ∧ 0 < m ∧ a < b + m ∧ b < a + n)

/-- Windows and accumulator ranges of two contexts apart (R75, R142). -/
def lcsApart (cb cn ab an cb' cn' ab' an' : Nat) : Bool := !rangesMeet cb cn cb' cn' && !rangesMeet ab an ab' an'

def rReservedOk (r : Rec) : Bool :=
  bitsAt r 27 5 == 0 && bitsAt r 1124 28 == 0 && bitsAt r 1739 4 == 0 && bitsAt r 1744 304 == 0 &&
  (List.range 4).all fun k => bitsAt r (1248 + 128 * k) 32 == 0

/-- Least scope code of a domain (Table 20-2). -/
def scopeMin (domain : Nat) : Nat := if domain ≤ 2 then 1 else domain - 1

/-- Contexts of one unit of a narrow domain (Table 20-2). -/
def domainUnit (r : Rec) (domain : Nat) : Nat :=
  match domain with
  | 0 => 1 | 1 => 1 | 2 => (rLcs r).length | _ => rGangSize r

/-- The parts of a team of a gang, as (first rank, contexts), that the units of u contexts cut it into. -/
def unitPieces (u : Nat) (t : Nat × Nat) : List (Nat × Nat) :=
  (List.range ((t.1 + t.2 - 1) / u + 1 - t.1 / u)).map fun i =>
    let lo := max t.1 (u * (t.1 / u + i))
    (lo, min (t.1 + t.2) (u * (t.1 / u + i + 1)) - lo)

/-- Those that a division by PARTS cuts it into. -/
def partPieces (p : Nat) (t : Nat × Nat) : List (Nat × Nat) :=
  let n := max 1 (t.2 / p)
  (List.range (t.2 / n)).map fun i => (t.1 + n * i, n)

/-- Checks n levels from level l on, under parents of the given domain and context counts, of so many gangs each; `teams` are
the parts of one gang that the parents form in it. -/
def levelsOk (r : Rec) : (n l prev : Nat) → (ctxs : List Nat) → (gangs : Nat) → (teams : List (Nat × Nat)) → Bool
  | 0, _, _, _, _, _ => true
  | n + 1, l, prev, ctxs, gangs, teams =>
    let d := rDomain r l
    let s := rScope r l
    let p := rParts r l
    let scopeOk := if d ≤ 2 then s == 1 else decide (scopeMin d ≤ s ∧ s ≤ 6)
    decide (d ≤ prev) && scopeOk &&
    (if d ≤ 3 then
       let next := (teams.flatMap (unitPieces (domainUnit r d))).flatMap (partPieces p)
       (p == 1 || ctxs.all fun c => c % p == 0) && levelsOk r n (l + 1) d (next.map Prod.snd) gangs next
     else
       (if d ≤ 5 then (if rGrouped r then p == 1 else gangs % p == 0) else true) &&
       levelsOk r n (l + 1) d [max 1 (gangs / p) * rGangSize r] (max 1 (gangs / p)) teams)

/-- Windows and accumulator ranges of a record. -/
def rWindowsOk (r : Rec) : Bool :=
  (List.range 4).all fun i =>
    if (rMask r).testBit i then
      bitsAt r (774 + 16 * i) 2 == 0 && bitsAt r (782 + 16 * i) 2 == 0 && bitsAt r (841 + 16 * i) 7 == 0 &&
      32 ≤ rCb r i && rCb r i + rCn r i ≤ 512 && rAb r i + rAn r i ≤ 16 &&
      (List.range 4).all fun j =>
        j == i || !(rMask r).testBit j ||
        lcsApart (rCb r i) (rCn r i) (rAb r i) (rAn r i) (rCb r j) (rCn r j) (rAb r j) (rAn r j)
    else bitsAt r (768 + 16 * i) 16 == 0 && bitsAt r (832 + 16 * i) 16 == 0

/-- A barrier pointer of a record: 0, or a well-formed stash or cluster-shared pointer aligned on 16. -/
def barOk (p : Word) : Bool := p == 0 || ((barPtr p).isNone && p.toNat % 16 == 0)

def rPointersOk (r : Rec) : Bool :=
  (rFmapPtr r).toNat % 128 == 0 && (rArgPtr r).toNat % 64 == 0 && (rSbase r).toNat % 512 == 0 &&
  (rPrivBase r).toNat % 64 == 0 && (rPsize r).toNat % 64 == 0 && (rRowPtr r).toNat % 4 == 0 &&
  barOk (rDoneBar r) && (List.range 4).all fun k => barOk (rDepPtr r k)

def rEntriesOk (r : Rec) : Bool :=
  let pcOk := fun (t : Word) => (targetCause t).isNone
  pcOk (rEntry r 0) && (rHandler r == 0 || pcOk (rHandler r)) &&
  (if rGrouped r then
     rNgang r == 0 && 1 ≤ rNgrp r && bitsAt r 1120 4 != 0 &&
     (List.range 4).all fun m => !rMenu r m || (rEntry r m != 0 && pcOk (rEntry r m))
   else
     1 ≤ rNgang r && rNgrp r == 0 && bitsAt r 1120 4 == 0 && rRowPtr r == 0 &&
     [1, 2, 3].all fun m => rEntry r m == 0)

/-- Whether a record is well-formed (R293). -/
def wellFormedRecord (r : Rec) : Bool :=
  rReservedOk r && bitsAt r 0 4 == 1 && decide (1 ≤ rNlev r ∧ rNlev r ≤ 8) && decide (1 ≤ rCpg r ∧ rCpg r ≤ 8) &&
  rMask r != 0 && bitsAt r 896 64 / 2 ^ (8 * rNlev r) == 0 && bitsAt r 960 64 / 2 ^ (8 * rNlev r) == 0 &&
  levelsOk r (rNlev r) 0 6 [(if rGrouped r then 1 else rNgang r) * rGangSize r] (rNgang r) [(0, rGangSize r)] &&
  rWindowsOk r && rEntriesOk r && rPointersOk r && decide (4 ≤ rDoneScope r ∧ rDoneScope r ≤ 6)

/-! ## Barrier objects as the scheduler reaches them (R293, R295, R298) -/

/-- Where an object lies, at its home; nothing for an offset that its core's stash does not hold. -/
def State.schedLoc (s : State) (p : Word) : Option (Nat × Loc) :=
  if windowOf p = 10 then some (0, .cluster (clsAddr (ptrCluster p) (bitsAt p 0 23)))
  else
    let off := bitsAt p 0 20
    if off + 16 ≤ (s.coreAt (ptrCore p)).stashBytes then some (ptrCore p, .stash off) else none

/-- Whether a dependence is satisfied. -/
def State.depMet (s : State) (p : Word) (gen : Nat) : Bool :=
  p == 0 ||
  match s.schedLoc p with
  | none => false
  | some (core, l) =>
    match s.homeRead core l 16 with
    | .ok (bs, bad, _) => !bad && barGen (leVal bs) != gen
    | .error _ => false

def State.depsMet (s : State) (r : Rec) : Bool := (List.range 4).all fun k => s.depMet (rDepPtr r k) (rDepGen r k)

/-! ## Readiness and grouped launches (R295, R300) -/

def menuRows (m : Nat) : Nat := [16, 64, 256, 1024].getD m 0

/-- The menu entry of a group of n rows. -/
def menuFor (r : Rec) (n : Nat) : Nat :=
  let ms := (List.range 4).filter (rMenu r)
  match ms.find? fun m => decide (n ≤ menuRows m) with
  | some m => m
  | none => ms.getLast?.getD 0

def Gang.fresh (num order entry : Nat) (grp : List Word) : Gang :=
  { num := num, fate := .waiting, cores := [], entry := entry, grp := grp, expired := false, order := order }

/-- The gangs of groups with the given counts. -/
def groupGangs (r : Rec) (order : Nat) (counts : List Nat) : List Gang :=
  let all := (counts.zipIdx.map fun c =>
    let m := menuFor r c.1
    let rows := menuRows m
    (List.range ((c.1 + rows - 1) / rows)).map fun t =>
      (m, [w64 c.2, w64 (t * rows), w64 (min rows (c.1 - t * rows)), w64 rows])).flatten
  all.zipIdx.map fun x => Gang.fresh x.2 order x.1.1 x.1.2

/-- The agent that reads the counts of a grouped launch, with a translation unit of its own. -/
def schedAgent (asid : Fin 16) : Agent := { core := 0, who := .host, issuer := none, tlb := 588, asid := asid, pbase := 0, psize := 0 }

/-- Reads the counts; nothing while a page is not there or a count cannot be read (assumption log 24). -/
def State.readCounts (s : State) (l : Launch) : Option (List Nat) × State :=
  let read : Eng (List Nat) := (List.range (rNgrp l.record)).mapM fun g =>
    engVal (schedAgent l.asid) (rRowPtr l.record + w64 (4 * g)) 4
  match read s with
  | .ok (cs, _) => (some cs, s)
  | .error (.absent a va) => (none, s.postResidency a va (BitVec.allOnes 32))
  | .error _ => (none, s)

def State.modLaunch (s : State) (id : Nat) (f : Launch → Launch) : State :=
  { s with launches := s.launches.map fun l => if l.id = id then f l else l }

def State.launch? (s : State) (id : Nat) : Option Launch := s.launches.find? fun l => l.id == id

/-- The scheduler's readiness test of a launch. -/
def State.settleLaunch (s : State) (id : Nat) : State :=
  match s.launch? id with
  | none => s
  | some l =>
    if l.ready || l.withdrawn || !s.depsMet l.record then s
    else if !rGrouped l.record then s.modLaunch id fun l => { l with ready := true }
    else
      match s.readCounts l with
      | (some cs, s) => s.modLaunch id fun l => { l with ready := true, gangs := groupGangs l.record l.id cs }
      | (none, s) => s

/-- Contexts that have ended and whose launch is gone from its store are released (R370). -/
def State.releaseOrphans (s : State) : State :=
  s.release fun _ c => (s.launch? c.ten.launch).isNone

/-- The scheduler tests every accepted launch (R295). -/
def State.settleLaunches (s : State) : State := s.launches.foldl (fun s l => s.settleLaunch l.id) s

/-- The scheduler looks for a gang to place: it releases what has ended, and tests every accepted launch (R295). -/
def State.schedule (s : State) : State :=
  s.launches.foldl (fun s l => (s.releaseEnded l.id).settleLaunch l.id) s.releaseOrphans

/-! ## Placement (R295, R312) -/

/-- Whether a core is free for the contexts of a record. -/
def State.coreTakes (s : State) (r : Rec) (core : Nat) : Bool :=
  let k := s.coreAt core
  let busy := (List.range 4).filter fun i => s.present (ctxNum core i)
  decide (core < 320) && !k.dis && !(s.quarter (quarterOf core)).stopped &&
  (rLcs r).all (fun i => (s.ctxAt (ctxNum core i)).status == .idle &&
    busy.all fun j =>
      let w := (s.ctxAt (ctxNum core j)).win
      lcsApart (rCb r i) (rCn r i) (rAb r i) (rAn r i) w.cb w.cn w.ab w.an) &&
  (busy.isEmpty || k.k.val == rStashK r)

/-- How a record divides gangs into the teams of its outermost QUARTER level, when it has one: PARTS of each level down to
that one (R292). -/
def quarterParts (r : Rec) : (n l : Nat) → Option (List Nat)
  | 0, _ => none
  | n + 1, l =>
    if rDomain r l = 4 then some [rParts r l]
    else if rDomain r l < 4 then none
    else (quarterParts r n (l + 1)).map (rParts r l :: ·)

/-- The team of gang num, of so many gangs that are divided by PARTS. -/
def teamNum (parts : List Nat) (gangs num : Nat) : Nat := num / parts.foldl (fun g p => max 1 (g / p)) gangs

/-- The division of its own gangs that a record makes. -/
def ownDivision (r : Rec) : Option (List Nat) := quarterParts r (rNlev r) 0

/-- The division that a record with a DOMAIN level makes of the gangs of every record with its TAG and GEN (Table 20-2). -/
def domainDivision (r : Rec) : Option (List Nat) :=
  if (rLevels r).any (fun l => l.1 == 6) ∧ rTag r ≠ 0 then ownDivision r else none

/-- Whether two records carry the same non-zero TAG and the same GEN. -/
def sameTag (r x : Rec) : Bool := rTag r != 0 && rTag x == rTag r && rGen x == rGen r

/-- Whether a record carries the TAG and GEN of a gang that has started. -/
def Team.shares (t : Team) (r : Rec) : Bool := t.tag == rTag r && t.gen == rGen r

/-- The quarters that a gang may run in: the store's, or with SPREAD any, that keeps its QUARTER teams together (R295). Its
own record divides the gangs of its launch; a record with a DOMAIN level divides those of every record with its TAG and GEN,
each record's gangs alike, whichever levels that record has, and also those that have completed (R292, assumption log 32). -/
def State.quarterOk (s : State) (l : Launch) (num : Nat) (q : Fin 4) : Bool :=
  let r := l.record
  let mates := s.launches.filter fun x => sameTag r x.record
  let past := s.teams.filter fun t => t.shares r
  let together := fun (parts : List Nat) (x : Launch) => x.gangs.all fun g =>
    teamNum parts x.gangs.length g.num != teamNum parts l.gangs.length num || g.cores.all fun c => quarterOf c == q
  (rSpread r || q.val == l.quarter) && (ownDivision r).all (fun parts => together parts l) &&
  (mates.filterMap (fun x => domainDivision x.record) ++ past.filterMap Team.parts).all fun parts =>
    mates.all (together parts) &&
    past.all fun t => teamNum parts t.gangs t.num != teamNum parts l.gangs.length num || t.quarter == q.val

/-- The quarter of a tagged gang is kept while a launch with its TAG and GEN is left. -/
def State.noteTeam (s : State) (l : Launch) (num : Nat) (q : Fin 4) : State :=
  let r := l.record
  let t : Team :=
    { tag := rTag r, gen := rGen r, gangs := l.gangs.length, num := num, parts := domainDivision r, quarter := q.val }
  if rTag r = 0 ∨ s.teams.contains t then s else { s with teams := s.teams ++ [t] }

/-- Teams no launch of which is left are forgotten. -/
def State.dropTeams (s : State) : State :=
  { s with teams := s.teams.filter fun t => s.launches.any fun x => t.shares x.record }

def savedOf (q : Quarter) (launch gang : Nat) : Option Saved :=
  q.saves.find? fun x => x.launch == launch && x.gang == gang

/-- Whether every context of a core is IDLE (Table 10-1). -/
def State.coreEmpty (s : State) (core : Nat) : Bool := (List.range 4).all fun i => (s.ctxAt (ctxNum core i)).status == .idle

/-- Whether a saved gang may return: only where it was, and where no context runs when its record holds core state (R311). -/
def State.savedFits (s : State) (l : Launch) (g : Gang) : Bool :=
  g.cores.all (s.coreTakes l.record) &&
  match (List.finRange 4).findSome? fun q => savedOf (s.quarter q) l.id g.num with
  | none => false
  | some x => x.cores.isEmpty || g.cores.all s.coreIdle

/-- Whether a gang that has not started may take the given cores. -/
def State.coresFit (s : State) (l : Launch) (num : Nat) (cores : List Nat) : Bool :=
  match cores with
  | [] => false
  | c :: _ =>
    cores.length == rCpg l.record && (cores.zip cores.tail).all (fun x => decide (x.1 < x.2)) &&
    cores.all (fun x => clusterOf x == clusterOf c && s.coreTakes l.record x) && s.quarterOk l num (quarterOf c)

/-- The first gang of a launch that has not started; gangs start in ascending number. -/
def Launch.nextGang (l : Launch) : Option Gang := l.gangs.find? fun g => g.fate == .waiting

/-- Whether a gang is placeable on the given cores. -/
def State.placeable (s : State) (l : Launch) (g : Gang) (cores : List Nat) : Bool :=
  match g.fate with
  | .saved => cores == g.cores && s.savedFits l g
  | .waiting => l.ready && l.nextGang == some g && s.coresFit l g.num cores
  | _ => false

/-- The first placeable set of cores of a gang, if any: the lowest in the lowest cluster. -/
def State.choose (s : State) (l : Launch) (g : Gang) : Option (List Nat) :=
  match g.fate with
  | .saved => if s.savedFits l g then some g.cores else none
  | .waiting =>
    if l.ready && l.nextGang == some g then
      (List.range 40).findSome? fun cl =>
        let free := ((List.range 8).map (fun i => 8 * cl + i)).filter (s.coreTakes l.record)
        let cs := free.take (rCpg l.record)
        if s.coresFit l g.num cs then some cs else none
    else none
  | _ => none

/-- Whether the store of a launch dispatches: its quarter has not stopped (R318). -/
def State.dispatches (s : State) (quarter : Nat) : Bool := !(s.quarter (Fin.ofNat 4 quarter)).stopped

/-- Gangs of a store that wait for a place: the next one of each launch, and those saved; none of a stopped quarter's. -/
def State.waitingGangs (s : State) (q : Nat) : List (Launch × Gang) :=
  if !s.dispatches q then [] else
  ((s.launches.filter fun l => l.quarter == q).map fun l =>
    (l.gangs.filter fun g => g.fate == .saved || (l.ready && l.nextGang == some g)).map fun g => (l, g)).flatten

/-- Whether a gang goes before another: higher PRIO, then the order of return, acceptance and number (R295, R314). -/
def goesBefore (a b : Launch × Gang) : Bool :=
  let pa := rPrio a.1.record
  let pb := rPrio b.1.record
  decide (pb < pa) || (pa == pb &&
    (decide (a.2.order < b.2.order) || (a.2.order == b.2.order &&
      (decide (a.1.id < b.1.id) || (a.1.id == b.1.id && decide (a.2.num < b.2.num))))))

/-- Whether no other placeable gang of the store goes before a gang. -/
def State.isNext (s : State) (l : Launch) (g : Gang) : Bool :=
  (s.waitingGangs l.quarter).all fun x => !goesBefore x (l, g) || (s.choose x.1 x.2).isNone

/-! ## The state that a context starts with (R159) -/

/-- Columns of a context: its window and its tag columns (R75, R76). -/
def ctxColumns (cb cn lc : Nat) : BitVec 512 := BitVec.ofNat 512 ((2 ^ cn - 1) * 2 ^ cb + 63 * 2 ^ (6 * lc))

/-- Whether a cell key lies in an accumulator range. -/
def inCells (ab an key : Nat) : Bool := decide (ab ≤ key % 16 ∧ key % 16 < ab + an)

/-- A context's columns, tags and cells are cleared; the tags of every row are encoded anew (R85). -/
def Core.clearCtx (c : Core) (w : Window) (lc : Nat) : Core :=
  let m := ctxColumns w.cb w.cn lc
  { c with rows := c.rows.filterMap fun r => let v := r.2 &&& ~~~m; if v = 0 then none else some (r.1, v)
           parity := c.parity.filterMap fun r =>
             let v := r.2 &&& ~~~(BitVec.ofNat 128 ((2 ^ 32 - 1) * 2 ^ (32 * lc)))
             if v = 0 then none else some (r.1, v)
           cells := c.cells.filter fun x => !inCells w.ab w.an x.1
           cellPoison := c.cellPoison.filter fun x => !inCells w.ab w.an x, tagErr := [] }

/-- The window of a context of a launch. -/
def startWindow (r : Rec) (lc n : Nat) : Window :=
  { cb := rCb r lc, cn := rCn r lc, ab := rAb r lc, an := rAn r lc, pbase := rPrivBase r + w64 n * w64 (rPsize r).toNat
    psize := rPsize r, handler := rHandler r }

/-- A context at its entry, before the steps that R296 gives. -/
def startCtxOf (l : Launch) (g : Gang) (lc n starting : Nat) : Ctx :=
  let r := l.record
  { Ctx.reset with
    status := .running, starting := starting, thread := { pc := rEntry r g.entry, packet := none }
    srseed := rSeed r, win := startWindow r lc n
    ten := { launch := l.id, gang := g.num, index := n, asid := l.asid, levels := rLevels r, doneScope := rDoneScope r
             gen := rGen r } }

/-! ## The steps of R296 -/

/-- A core's stash as the first gang on it finds it (R180). -/
def Core.rebind (c : Core) (sbase : Word) (asid : Fin 16) : Core :=
  { c with stash := [], stashPoison := []
           lines := if sbase = 0 then []
             else (List.range (c.stashBytes / 512)).map fun i =>
               (i, { va := sbase + w64 (512 * i), asid := asid, frame := none, secs := .replicate 4 .invalid }) }

/-- Words of an argument block or of an image, from its bytes. -/
def wordsOf (w : Nat) (bs : List Byte) (i : Nat) : Nat := leVal ((bs.drop (w * i)).take w)

/-- Registers of a starting context: s1 to s8 the argument block, s9, s10, and s11 to s14 of a grouped gang. -/
def startRegs (args : List Byte) (n gang : Nat) (grp : List Word) : Vector Word 64 :=
  Vector.ofFn fun i =>
    if 1 ≤ i.val ∧ i.val ≤ 8 then w64 (wordsOf 8 args (i.val - 1))
    else if i.val = 9 then w64 n
    else if i.val = 10 then w64 gang
    else if 11 ≤ i.val ∧ i.val ≤ 14 then grp.getD (i.val - 11) 0
    else 0

/-- The first entry of a field-map image that R78 refuses. -/
def badEntry (w : Window) (image : List Byte) : Option Nat :=
  (List.range 32).find? fun n => !entryOk w (BitVec.ofNat 32 (wordsOf 4 image n))

/-- The field map that an image gives: the entries before the first bad one. -/
def startMap (w : Window) (image : List Byte) : Vector (BitVec 32) 32 :=
  let stop := (badEntry w image).getD 32
  Vector.ofFn fun i => if i.val < stop then entryStored (BitVec.ofNat 32 (wordsOf 4 image i)) else 0

/-- Whether another context of the executing core still has the stash to rebind. -/
def State.rebindPending (s : State) : Bool :=
  (List.range 4).any fun i => i != s.cur.lc.val && (s.ctxAt (ctxNum s.cur.core i)).starting == 2

/-- Rebinds the stash of the executing core, after writing back what is DIRTY. -/
def State.rebindStash (s : State) (r : Rec) : Act State := do
  let s ← s.flushStash s.cur.core true
  .ok ((s.modCore fun c => c.rebind (rSbase r) s.asid).modCtx fun c => { c with starting := 1 })

/-- Reads the image and the argument block, and completes the start of the executing context. -/
def State.loadStart (s : State) (r : Rec) (grp : List Word) : Act State := do
  let s ← s.refresh s.key .device
  let (image, s1) ← s.scalarRead (rFmapPtr r) 128 128
  let n := s.ctx.ten.index
  let (args, s2) ← if rArgPtr r = 0 then .ok ([], s1) else s1.scalarRead (rArgPtr r + w64 (64 * n)) 64 64
  let w := s.ctx.win
  let s3 := s2.modCtx fun c =>
    { c with starting := 0, fmap := startMap w image, s := startRegs args n c.ten.gang grp }
  match badEntry w image with
  | none => .ok s3
  | some i => raise s3 .range (w64 (wordsOf 4 image i)) (w64 i)

/-- What is left to do before the executing context's first instruction. -/
def State.beginCtx (s : State) : Act State :=
  match s.ctx.starting with
  | 0 => .ok s
  | 3 => do
    let s ← s.refresh s.key .device
    .ok (s.modCtx fun c => { c with starting := 0 })
  | n =>
    match s.launch? s.ctx.ten.launch with
    | none => .ok (s.modCtx fun c => { c with starting := 0 })
    | some l =>
      let grp := ((l.gangs.find? fun g => g.num == s.ctx.ten.gang).map Gang.grp).getD []
      if n = 1 then (if s.rebindPending then hold s else s.loadStart l.record grp)
      else do
        let s ← s.rebindStash l.record
        s.loadStart l.record grp

/-- The issuer of a context outside a loop body. -/
def ctxIssuer (k : Nat) : Issuer := { core := Fin.ofNat 320 (coreOfCtx k), lc := Fin.ofNat 4 k, lg := none }

/-- Contexts make their start as far as it goes. -/
def State.beginAll (s : State) (ks : List Nat) : State :=
  ks.foldl (fun s k =>
    if (s.ctxAt k).starting != 0 && ((s.ctxAt k).status == .running || (s.ctxAt k).status == .handler) then
      s.tryIssuer (ctxIssuer k) State.beginCtx
    else s) s

/-! ## Starting and restoring a gang -/

/-- Context numbers of a gang on given cores, in rank order (R292). -/
def gangPlaces (r : Rec) (cores : List Nat) : List Nat :=
  (cores.map fun c => (rLcs r).map fun i => ctxNum c i).flatten

/-- Puts one context of a gang in place. -/
def State.putStart (s : State) (l : Launch) (g : Gang) (alone : List Nat) (k rank : Nat) : State :=
  let r := l.record
  let n := g.num * rGangSize r + rank
  let lc := lcOfCtx k
  let core := coreOfCtx k
  let first := alone.contains core && (rLcs r).head? == some lc
  let c := startCtxOf l g lc n (if first then 2 else 1)
  (s.setCtxAt k c).modCoreAt core fun x => x.clearCtx c.win lc

/-- A gang starts on cores (R296). -/
def State.startGang (s : State) (l : Launch) (g : Gang) (cores : List Nat) : State :=
  let alone := cores.filter s.coreIdle
  let ks := gangPlaces l.record cores
  let s := alone.foldl (fun s c => s.modCoreAt c fun x => { x with k := Fin.ofNat 4 (rStashK l.record) }) s
  let s := ks.zipIdx.foldl (fun s x => s.putStart l g alone x.1 x.2) s
  let s := s.setGang l.id g.num fun g => { g with fate := .running, cores := cores, expired := false }
  (s.noteTeam l g.num (quarterOf (cores.headD 0))).beginAll ks

/-- The rows and cells of a saved context go back (R310); parity is recomputed. -/
def Core.restoreLanes (c : Core) (w : Window) (lc : Nat) (x : SavedLanes) : Core :=
  let c := c.clearCtx w lc
  let c := { c with rows := x.rows.foldl (fun (rs : Table (BitVec 512)) (r : Nat × BitVec 512) => put rs r.1 (lookD rs r.1 0 ||| r.2)) c.rows }
  { c with cells := x.cells.foldl (fun (m : Table (BitVec 32)) (v : Nat × BitVec 32) => put m v.1 v.2) c.cells, cellPoison := x.poison.foldl setAdd c.cellPoison }

/-- The tile slots and the stash of a core that a record holds go back; BUSY is not among what it holds (R311). -/
def Core.restoreCore (c x : Core) : Core :=
  { c with k := x.k, stash := x.stash, stashPoison := x.stashPoison, lines := x.lines, tiles := x.tiles
           tilePoison := x.tilePoison
           slots := Vector.ofFn fun i => { x.slots.get i with busy := (c.slots.get i).busy } }

/-- A saved gang returns to its cores (R307, R310 to R312); its contexts refresh before they issue. -/
def State.restoreGang (s : State) (l : Launch) (g : Gang) : State :=
  match (List.finRange 4).find? fun q => (savedOf (s.quarter q) l.id g.num).isSome with
  | none => s
  | some q =>
    match savedOf (s.quarter q) l.id g.num with
    | none => s
    | some x =>
      let s := x.cores.foldl (fun s c => s.modCoreAt c.1 fun k => k.restoreCore c.2) (s.returnWriters l.id g.num)
      let s := g.cores.foldl (fun s c => s.modCoreAt c fun k => { k with k := Fin.ofNat 4 (rStashK l.record) }) s
      let s := x.ctxs.foldl (fun s c =>
        s.setCtxAt c.1 { c.2 with starting := if c.2.starting = 0 then 3 else c.2.starting, wake := false, inWait := [] }) s
      let s := x.lanes.foldl (fun s v =>
        s.modCoreAt (coreOfCtx v.1) fun k => k.restoreLanes (s.ctxAt v.1).win (lcOfCtx v.1) v.2) s
      let s := s.modQuarter q fun y => { y with saves := y.saves.filter fun z => !(z.launch == l.id && z.gang == g.num) }
      let s := s.setGang l.id g.num fun g => { g with fate := .running, expired := false }
      (s.beginAll (x.ctxs.map Prod.fst)).settleGang l.id g.num

/-- A gang comes in: it starts or it is restored (step 5 of Table 21-1). -/
def State.bringIn (s : State) (l : Launch) (g : Gang) (cores : List Nat) : State :=
  if g.fate = .saved then s.restoreGang l g else s.startGang l g cores

/-- Whether a core is kept for the incoming gang of a swap in progress (R307). -/
def State.reserved (s : State) (core : Nat) : Bool :=
  (List.finRange 4).any fun q => (s.quarter q).swap.any fun w =>
    s.launches.any fun l => l.id == w.outLaunch && l.gangs.any fun g => g.num == w.outGang && g.cores.contains core

/-- The scheduler starts a gang that is placeable and goes before every other (R295). -/
def execGangStart (launch gang : Nat) (cores : List Nat) (s : State) : Out :=
  let s := s.schedule
  match s.launch? launch with
  | none => .next s
  | some l =>
    match l.gangs.find? fun g => g.num == gang with
    | none => .next s
    | some g =>
      if s.placeable l g cores && s.isNext l g && !cores.any s.reserved && s.dispatches l.quarter then
        .next (s.bringIn l g cores)
      else .next s

end Sys2Proof.Machine
end

