-- ==== Sys2Proof/Machine/Launch.lean ====
section
/-! DEFINITION. Acceptance of launch records and the journal (R294, R374, R375), host launch windows (R299, R351),
withdrawal (R302, R303) and the completion of a launch (R298). -/

namespace Sys2Proof.Machine

/-! ## The launch journal (R374, R375) -/

def Quarter.journalSize (q : Quarter) : Nat := bitsAt q.jsize 0 17
/-- A journal that holds back acceptance: its ring is full and HOLD is set. -/
def Quarter.journalFull (q : Quarter) : Bool :=
  q.journalSize != 0 && bitAt q.jsize 31 && decide (q.journalSize ≤ (q.jprod - q.jcons).toNat)

/-- Physical address of the entry with a sequence number. -/
def Quarter.journalEntry (q : Quarter) (seq : BitVec 32) : Nat :=
  bitsAt q.jbase 0 24 * 65536 + seq.toNat % q.journalSize * 512

/-- The bytes of an entry. `origin` holds bits [59:32] of its word. -/
def journalBytes (r : Rec) (seq : BitVec 32) (origin : Nat) : List Byte :=
  leBytes 256 r.toNat ++ leBytes 8 (seq.toNat + origin * 2 ^ 32) ++ List.replicate 248 0

/-- The origin of a record: a host window, or a `launch` (R374). -/
def originHost (w : Nat) : Nat := w * 2 ^ 8
def originLaunch (k : Nat) : Nat := 1 + coreOfCtx k * 2 ^ 16 + lcOfCtx k * 2 ^ 26

/-- A STATE write: dropped when the slot holds a newer entry. -/
def State.journalState (s : State) (l : Launch) (st : Nat) : State :=
  match l.journal with
  | none => s
  | some seq =>
    let q := s.quarter (Fin.ofNat 4 l.quarter)
    if q.journalSize = 0 then s
    else
      let a := q.journalEntry seq + 256
      if rdVal s.mem a 4 = seq.toNat then s.writeHbm (a + 7) [BitVec.ofNat 8 (rdVal s.mem (a + 7) 1 % 16 + st * 16)]
      else s

/-! ## Acceptance (R294) -/

/-- Entries of a launch store. -/
def storeSize : Nat := 4096

/-- Offers a record to a store: the status, and the state after. -/
def State.offer (s : State) (r : Rec) (q : Nat) (asid : Fin 16) (origin : Nat) : Nat × State :=
  let x := s.quarter (Fin.ofNat 4 q)
  if !wellFormedRecord r then (2, s)
  else if decide (storeSize ≤ (s.launches.filter fun l => l.quarter == q).length) || x.journalFull then (1, s)
  else
    let id := s.nextId
    let gangs := if rGrouped r then [] else (List.range (rNgang r)).map fun g => Gang.fresh g id 0 []
    let journal := x.journalSize != 0
    let l : Launch :=
      { id := id, quarter := q, record := r, asid := asid, ready := false, withdrawn := false, lost := false
        journal := if journal then some x.jprod else none, gangs := gangs }
    let s : State := if journal then
        (s.writeHbm (x.journalEntry x.jprod) (journalBytes r x.jprod origin)).modQuarter (Fin.ofNat 4 q) fun x =>
          { x with jprod := x.jprod + 1 }
      else s
    (0, { s with launches := s.launches ++ [l], nextId := id + 1 })

/-! ## Completion (R298) -/

/-- An MSI-X entry; its mask is bit 0 of its control word, set at reset (assumption log 6). -/
def HostLink.entry (h : HostLink) (v : Nat) : BitVec 128 := lookD h.msix v (BitVec.ofNat 128 (2 ^ 96))
def HostLink.masked (h : HostLink) (v : Nat) : Bool := bitAt (h.entry v) 96

/-- The message of a vector is sent, or waits in the pending-bit array while its vector is masked (R351). -/
def HostLink.signal (h : HostLink) (v : Nat) : HostLink :=
  if h.masked v then { h with pending := setAdd h.pending v }
  else { h with pending := setDel h.pending v, sent := h.sent ++ [(v, (h.entry v).extractLsb' 0 96)] }

def State.msix (s : State) (v : Nat) : State := { s with host := s.host.signal v }

/-- Whether a gang has taken its fate for good. -/
def gangOver (g : Gang) : Bool := g.fate == .ended || g.fate == .removed

/-- Whether everything that a launch began is over: gangs and their team-end boundaries, cards, gathers, replays, kernels,
trains and rows. -/
def State.launchOver (s : State) (l : Launch) : Bool :=
  (l.ready || l.withdrawn) && l.gangs.all gangOver &&
  !(s.cards.any fun c => c.ten.launch == l.id) && !(s.gathers.any fun g => g.ten.launch == l.id) &&
  !(s.kernels.any fun k => k.ten.launch == l.id) && !(s.sent.any fun x => x.launch == l.id) &&
  s.ctxs.all fun c => c.2.ten.launch != l.id || c.2.status == .idle || (c.2.status == .ended && !c.2.ending && !s.hasRows c.1)

/-- The arrival of 1 on DONEBAR, where one is made; nothing while the object's home holds it. -/
def State.doneArrival (s : State) (p : Word) : Option State :=
  if p = 0 then some s
  else
    match s.schedLoc p with
    | none => some s
    | some (core, l) =>
      match s.homeAtomic core l 16 fun o => some (arrive o 1) with
      | .ok (_, _, s) => some s
      | .error _ => none

/-- The STATE that a finished launch's journal entry takes. -/
def Launch.endState (l : Launch) : Nat := if l.withdrawn then 3 else if l.lost then 2 else 1

/-- STATE, the arrival, the message, and the store entry is free. -/
def State.finishLaunch (s : State) (l : Launch) (st : Nat) : Option State :=
  ((s.journalState l st).doneArrival (rDoneBar l.record)).map fun s =>
    let s := if rIrq l.record then s.msix (rVector l.record) else s
    State.dropTeams { s with launches := s.launches.filter fun x => x.id != l.id }

def execLaunchComplete (launch : Nat) (s : State) : Out :=
  let s := s.settleLaunches
  match s.launch? launch with
  | none => .next s
  | some l => if s.launchOver l then .next ((s.finishLaunch l l.endState).getD s) else .next s

/-! ## Withdrawal (R302, R303) -/

/-- A gang that has not started is removed. -/
def Gang.remove (g : Gang) : Gang := if g.fate = .waiting then { g with fate := .removed } else g

def Launch.waitingCount (l : Launch) : Nat := (l.gangs.filter fun g => g.fate == .waiting).length

/-- Whether a withdrawal leaves a launch with no started gang. -/
def Launch.whollyWithdrawn (l : Launch) : Bool :=
  !l.withdrawn && (!l.ready || 0 < l.waitingCount) && l.gangs.all fun g => g.fate == .waiting || g.fate == .removed

def Launch.withdraw (l : Launch) : Launch :=
  { l with gangs := l.gangs.map Gang.remove, withdrawn := l.withdrawn || l.whollyWithdrawn }

/-- Withdraws a tag: the counts as sD takes them, and the state, where launches that are over complete. -/
def State.withdrawTag (s : State) (tag : Nat) : Word × State :=
  let hit := s.launches.filter fun l => tag != 0 && rTag l.record == tag
  let gangs := (hit.map Launch.waitingCount).sum
  let whole := hit.filter Launch.whollyWithdrawn
  let s := hit.foldl (fun s l => s.modLaunch l.id Launch.withdraw) s
  let s := whole.foldl (fun s l =>
    match s.launch? l.id with
    | some l => if s.launchOver l then (s.finishLaunch l 3).getD s else s
    | none => s) s
  (w64 (gangs % 2 ^ 32 + whole.length * 2 ^ 32), s)

def execWithdraw (c : Ctl) (f : FE) (s : State) : Out :=
  run c s fun s => do
    s.checkDest f.opd
    let r := s.withdrawTag (bitsAt (s.val f.opa) 0 32)
    .ok (r.2.putS f.opd r.1).advance

/-! ## `launch` (R301) -/

/-- The store that PARM names. -/
def State.storeOf (s : State) (parm : BitVec 19) : Nat :=
  let n := bitsAt parm 0 3
  if n < 4 then n else (quarterOf s.cur.core).val

/-- A trap that names the record's pointer whichever part of the record it met. -/
def named {α : Type} (p : Word) (r : Act α) : Act α :=
  match r with
  | .error (.trap t s) => .error (.trap { t with val := p } s)
  | x => x

/-- The bytes of a record, by the sectors that they lie in (R188). -/
def State.readRecord (s : State) (p : Word) : Act (List Byte × State) :=
  (chunks p 256).foldlM (fun (r : List Byte × State) x => do
    let (bs, s) ← named p (r.2.scalarRead x.1 x.2 1)
    .ok (r.1 ++ bs, s)) ([], s)

/-- `launch` (R301). In a body, where p1 to p3 are shared and read-only (R87), one that is guarded by such a predicate and is not
accepted still makes its guard read false, as R301 says: the shared predicate is written, as the model's choice (assumption
log 32). -/
def execLaunch (c : Ctl) (f : FE) (s : State) : Out :=
  run c s fun s => do
    let i : Instr := .launch c f
    s.checkDest f.opd
    let sc ← s.scope f.scope i
    undo s do
      let s1 ← s.publish s.key sc
      let p := s.val f.opa
      let _ ← s1.place p 256 256
      let (bs, s3) ← s1.readRecord p
      let r := s3.offer (BitVec.ofNat 2048 (leVal bs)) (s3.storeOf f.parm) s3.asid (originLaunch s3.key)
      let s4 := r.2.putS f.opd (w64 r.1)
      .ok (if r.1 = 0 then s4 else s4.writeP c.gp c.gn).advance

/-! ## Host launch windows (R299, R351) -/

def windowAddr (w : Nat) : Nat := w * 256

/-- A write to BAR0 that the owner does not make is discarded and logged; a DMWr of it is aborted. -/
def State.hostRefuse (s : State) (off : Nat) (bytes : List Byte) (dmwr : Bool) : State :=
  let s := s.refuse 0 (off / 8 * 8) (placedValue off bytes) 1
  if dmwr then { s with host := { s.host with aborted := true } } else s

/-- WSTAT after a commit with an outcome (Table 20-3). -/
def HostLink.commit (h : HostLink) (w : Fin 64) (outcome : Nat) : HostLink :=
  let n := (bitsAt (h.wstat.get w) 32 32 + 1) % 2 ^ 32
  { h with wstat := h.wstat.set w (w64 (n * 2 ^ 32 + outcome)) w.isLt }

/-- The record in a window is offered to its store; nothing is accepted in the management-only state (R2). What the host wrote
before it is fetched from then on (R29). -/
def State.commitWindow (s : State) (w : Fin 64) (dmwr : Bool) : State :=
  if s.regs.mgmtOnly then
    { s with host := { s.host.commit w 3 with aborted := if dmwr then true else s.host.aborted } }
  else
    let s := s.dropTorn .host
    let r : Rec := BitVec.ofNat 2048 (rdVal s.host.windows (windowAddr w) 256)
    let x := s.offer r (w.val / 16) (Fin.ofNat 16 (bitsAt (s.xlat.was.get w) 0 4)) (originHost w)
    { x.2 with host := x.2.host.commit w x.1 }

def execHostWindowWrite (w : Fin 64) (off : Nat) (bytes : List Byte) (dmwr : Bool) (s : State) : Out :=
  if 256 < off + bytes.length || bytes.isEmpty then .next s
  else if s.owner.own != 0 then .next (s.hostRefuse (windowAddr w + off) bytes dmwr)
  else
    let h := { s.host with windows := wrBytes s.host.windows (windowAddr w + off) bytes
                           aborted := if dmwr then false else s.host.aborted }
    let s := { s with host := h }
    .next (if off + bytes.length = 256 then s.commitWindow w dmwr else s)

/-- A write of WDRAW withdraws its value as a tag (R299). -/
def execWdraw (tag : Word) (s : State) : Out :=
  if s.owner.own != 0 then .next (s.hostRefuse 0x4200 (leBytes 8 tag.toNat) false)
  else
    let r := s.withdrawTag (bitsAt tag 0 32)
    .next { r.2 with host := { r.2.host with wdres := r.1 } }

end Sys2Proof.Machine
end

