-- ==== Sys2Proof/Machine/Seep.lean ====
section
/-! DEFINITION. Seep kernels (R274 to R283): the instruction, claims, units, seep operations and release. -/

namespace Sys2Proof.Machine

/-! ## The parameter block (Table 17-1) -/

def kLines (r : List Word) : Nat := bitsAt (r.getD 2 0) 0 24
def kNw (r : List Word) : Nat := bitsAt (r.getD 4 0) 0 10
def kPlace (r : List Word) : Nat := bitsAt (r.getD 4 0) 16 2
def kIntens (r : List Word) : Nat := bitsAt (r.getD 4 0) 32 32

/-- Whether register n keeps Table 17-1, its pointers being well-formed. -/
def kOk (r : List Word) (n : Nat) : Bool :=
  let w := r.getD n 0
  let glob := windowOf w == 0
  match n with
  | 0 | 1 => glob
  | 2 => 1 ≤ kLines r && w >>> 24 == 0
  | 3 => w == 0 || glob
  | 4 => kPlace r ≤ 1 && bitsAt w 10 6 == 0 && bitsAt w 18 14 == 0
  | _ =>
    w == 0 || (glob && !decide (w.toNat < (r.getD 1 0).toNat + 512 * kLines r ∧ (r.getD 1 0).toNat < w.toNat + 3072))

/-- Pointers of the block with the bytes that they must reach, and their alignment. -/
def kPointers (r : List Word) : List (Word × Nat × Nat) :=
  let opt := fun (w : Word) (n al : Nat) => if w = 0 then [] else [(w, n, al)]
  [(r.getD 0 0, 8 * kNw r, 8), (r.getD 1 0, 512 * kLines r, 512)] ++ opt (r.getD 3 0) 32 32 ++ opt (r.getD 5 0) 3072 8

/-- The pages of the region, the program and STAT, which a kernel pins (R325). -/
def State.kernelPages (s : State) (k : Kernel) : List Pinned :=
  let pages := fun (p n : Nat) => (List.range ((p + n - 1) / 65536 - p / 65536 + 1)).map fun i =>
    s.pinOf k.agent.core k.agent.asid ((p / 65536 + i) * 65536)
  (pages k.rbase (512 * k.rlines) ++ pages k.progAt (8 * k.prog.length) ++
   (if k.stat = 0 then [] else pages k.stat.toNat 3072)).eraseDups

/-- Sectors that STAT touches, from its own on. -/
def statSectors (stat : Nat) : Nat := (stat % 128 + 3072 + 127) / 128

/-- The physical address of each sector that STAT touches, by the executing context's translation. -/
def State.statFrames (s : State) (stat : Word) : List Nat :=
  if stat = 0 then []
  else (List.range (statSectors stat.toNat)).map fun i =>
    let va := (stat.toNat / 128 + i) * 128
    ((s.tlbWalk s.cur.core s.asid va).1.physical va).getD 0

/-- Orders 1 to 6 for the pointers of the block (R275). -/
def State.checkKernelPointers (s : State) (r : List Word) : Act Unit :=
  (kPointers r).forM fun x => do
    let _ ← s.place x.1 1 x.2.2
    match malformed (x.1 + w64 (x.2.1 - 1)) with
    | some c => raise s c x.1
    | none => .ok ()

/-! ## The program (R51, R52) -/

/-- Reads and checks the words of a program, n from the k-th on. -/
def State.readSeep (s : State) (p : Word) : (n k : Nat) → Act (List (BitVec 64) × State)
  | 0, _ => .ok ([], s)
  | n + 1, k => do
    let (v, s) ← s.scalarVal (p + w64 (8 * k)) 8
    if (decodeSeep (w64 v)).isNone then raise s .illegal (w64 v) (w64 k)
    else
      let (ws, s) ← s.readSeep p n (k + 1)
      .ok (w64 v :: ws, s)

/-! ## Units and lines (R14, R20, R277) -/

/-- The unit of a physical address: stack × 32 + channel. -/
def seepUnitOf (pa : Nat) : Nat := pa / 2 ^ 36 % 16 * 32 + pa / 512 % 32

def SeepUnit.start (id : Nat) (lines : List Nat) : SeepUnit :=
  { id := id, lines := lines, at_ := 0, w := .replicate 16 0, bad := [], snap := .replicate 16 0, snapBad := []
    word := 0, ops := [], run := 0, syncs := 0, cursor := 0, ovf := false, halted := false, failing := none }

/-- The units that participate, from the physical address of each sector of the region. -/
def unitsOf (frames : List Nat) : List SeepUnit :=
  let tagged := ((List.range (frames.length / 4)).zip (frames.zipIdx.filterMap fun f =>
    if f.2 % 4 = 0 then some (seepUnitOf f.1) else none))
  ((List.range 384).filter fun u => tagged.any fun t => t.2 == u).map fun u =>
    SeepUnit.start u ((tagged.filter fun t => t.2 == u).map Prod.fst)

/-- Translates n sectors from a virtual address on, waiting for ABSENT pages; the addresses come in reverse. -/
def State.pinSectors (s : State) (va : Nat) (write : Bool) : (n : Nat) → List Nat → Act (List Nat × State)
  | 0, acc => .ok (acc, s)
  | n + 1, acc =>
    match s.findVirt s.cur.core s.asid va write with
    | (.fail c, s) => raise s c (w64 va)
    | (.bad a, s) => raiseBad s (w64 va) 0 9 a
    | (.absent d v, s) => hold (s.postResidency d v (BitVec.ofNat 32 s.cur.core))
    | (.at_ l, s) => s.pinSectors (va + 128) write n (l.mem.2 :: acc)

/-! ## Claims (R281) and program memory (R275) -/

/-- Whether two kernels share a line. -/
def Kernel.overlaps (a b : Kernel) : Bool := a.frames.any fun f => b.frames.contains f

def Kernel.dies (k : Kernel) : List Nat := (k.units.map fun u => u.id / 32).eraseDups

/-- Whether every base die of a kernel has program memory free: each holds four programs. -/
def programRoom (all : List Kernel) (k : Kernel) : Bool :=
  k.dies.all fun d => decide ((all.filter fun x => x.stage == .running && x.dies.contains d).length < 4)

/-- Whether a kernel has reached step 5 and its claim is not granted. -/
def KStage.asks : KStage → Bool
  | .publish => true | .queued => true
  | _ => false

/-- Whether a kernel's claim may be granted behind the kernels that stand before it, in the order in which they have reached
step 5: theirs are granted, and none that is held overlaps it (R281). -/
def grantable (before : List Kernel) (k : Kernel) : Bool :=
  !before.any fun x => x.stage.asks || (x.stage.holds && k.overlaps x)

/-- The issuer of a kernel. -/
def Kernel.issuer (k : Kernel) : Issuer := { core := Fin.ofNat 320 (coreOfCtx k.ctx), lc := Fin.ofNat 4 k.ctx, lg := k.lg }

def State.kernel? (s : State) (id : Nat) : Option Kernel := s.kernels.find? fun k => k.id == id
def State.modKernel (s : State) (id : Nat) (f : Kernel → Kernel) : State :=
  { s with kernels := s.kernels.map fun k => if k.id = id then f k else k }
def State.dropKernel (s : State) (id : Nat) : State := { s with kernels := s.kernels.filter fun k => k.id != id }

/-- A kernel starts: pD := 1 and the `seep` completes. -/
def State.startKernel (s : State) (k : Kernel) : State :=
  ((s.modKernel k.id fun x => { x with stage := .running }).putP (.p k.pd) true).advance.waitEnds

def predOf : Operand → Fin 8
  | .p n => n
  | _ => 0

/-- Whether a `seep` of an issuer waits in step 4, in step 5 or for program memory. -/
def State.awaitsClaim (s : State) (i : Issuer) : Bool := s.kernels.any fun k => k.stage.waits && k.issuer == i

/-! ## Steps 4 to 6 of R275 -/

/-- Step 4: every page of the region, the program and STAT is translated and pinned; a trap leaves nothing of the kernel.
The kernel then reaches step 5, behind all that have reached it before. -/
def State.seepPin (s : State) (k : Kernel) : Act State :=
  let pins : Act (List Nat × State) := do
    let (frames, s1) ← s.pinSectors k.rbase true (4 * k.rlines) []
    let (_, s2) ← s1.pinSectors (k.progAt / 128 * 128) false ((k.progAt % 128 + 8 * k.prog.length + 127) / 128) []
    if k.stat = 0 then .ok (frames, s2) else do
      let (_, s3) ← s2.pinSectors k.stat.toNat true 24 []
      let (_, s4) ← s3.pinSectors (k.stat.toNat + 3071) true 1 []
      .ok (frames, s4)
  match pins with
  | .error (.trap t _) => .error (.trap t (s.dropKernel k.id))
  | .error (.wait s) => hold s
  | .ok (frames, s) =>
    let k := { k with stage := .publish, frames := frames.reverse, pinned := s.kernelPages k, statAt := s.statFrames k.stat
                      units := unitsOf frames.reverse }
    .ok { s.dropKernel k.id with kernels := (s.dropKernel k.id).kernels ++ [k] }

/-- A step that a kernel takes at one stage. -/
def State.atStage (s : State) (id : Nat) (st : KStage) (f : Kernel → Act State) : Act State :=
  match s.kernel? id with
  | none => hold s
  | some k => if k.stage = st then f k else .ok s

/-- The issuer's earlier writes to the region perform (R208). -/
def State.seepPublish (s : State) (k : Kernel) : Act State := k.frames.foldlM (fun s f => s.drainOver k.ctx .hbm f 128) s

/-- The steps of a waiting `seep` as far as they go, for its issuer: step 4; step 5, which publishes the issuer's writes to the
region and claims it in turn (R281); step 6 once each die has program memory. -/
def State.seepGo (s : State) (id : Nat) : Act State := do
  let s1 ← s.atStage id .pages s.seepPin
  let s2 ← s1.atStage id .publish fun k => do
    let s2 ← s1.seepPublish k
    .ok (s2.modKernel id fun k => { k with stage := .queued })
  let s3 ← s2.atStage id .queued fun k =>
    if grantable (s2.kernels.takeWhile fun x => x.id != id) k then
      .ok (s2.modKernel id fun k => { k with stage := .claimed })
    else hold s2
  s3.atStage id .claimed fun k => if programRoom s3.kernels k then .ok (s3.startKernel k) else hold s3

/-- A kernel as it reaches step 4, for the executing issuer (R275). -/
def State.newKernel (s : State) (pd : Operand) (r : List Word) (vis : Word) (prog : List (BitVec 64)) : Kernel :=
  { id := s.nextId, ctx := s.key, lg := s.cur.lg, pd := predOf pd, prog := prog, progAt := (r.getD 0 0).toNat
    xbase := r.getD 3 0, rbase := (r.getD 1 0).toNat, rlines := kLines r, frames := [], pinned := [], statAt := []
    stat := r.getD 5 0, vis := vis, agent := { s.agentOf s.key with who := .kernel s.nextId }, ten := s.ctx.ten, pc := s.pc, stage := .pages
    fail := none, units := [] }

/-- The kernel joins those of the machine. -/
def State.withKernel (s : State) (k : Kernel) : State := { s with kernels := s.kernels ++ [k], nextId := s.nextId + 1 }

def execSeep (c : Ctl) (f : FE) (s : State) : Out :=
  run c s fun s => do
    let i : Instr := .seep c f
    if s.awaitsClaim s.cur then hold s
    else do
    s.checkDest f.opd
    let _ ← s.scope f.scope i
    let r := s.feRegs f
    let vis := s.val f.opb
    let nw := kNw r
    if nw = 0 || 256 < nw then raise s .illegal 0 (w64 nw)
    else do
      let (prog, s1) ← undo s do
        let (prog, s1) ← s.readSeep (r.getD 0 0) nw 0
        s.checkKernelPointers r
        s.checkBarrier vis
        match (List.range 6).find? fun n => !kOk r n with
        | some n => rangeReg s r n
        | none => .ok (prog, s1)
      if kPlace r = 1 && decide (bitsAt s.regs.aithresh 0 32 ≤ kIntens r) then .ok (s1.putP f.opd false).advance
      else
        let k := s1.newKernel f.opd r vis prog
        (s1.withKernel k).seepGo k.id

/-- A waiting `seep` goes on (R275, R281), when its issuer may. -/
def execSeepClaimGrant (id : Nat) (s : State) : Out :=
  match s.kernel? id with
  | none => .next s
  | some k => .next (if k.stage.waits && s.live k.issuer then s.tryIssuer k.issuer fun s => s.seepGo id else s)

/-! ## The executing unit (R277, R279) -/

/-- The kernel and the unit that execute. -/
def State.unitAt (s : State) : Option (Kernel × SeepUnit) :=
  s.unit.bind fun x => (s.kernels.find? fun k => k.id == x.1).bind fun k =>
    (k.units.find? fun u => u.id == x.2).map fun u => (k, u)

def Kernel.setUnit (k : Kernel) (u : SeepUnit) : Kernel :=
  { k with units := k.units.map fun x => if x.id = u.id then u else x }

/-- Words that a unit may execute without a change of line (R280). -/
def seepLimit : Nat := 2 ^ 20

/-- The operation at hand is done; after the last of a word the next word follows, or the unit fails at its limit. -/
def SeepUnit.pop (u : SeepUnit) : SeepUnit :=
  let rest := u.ops.tail
  if rest.isEmpty then
    { u with ops := [], word := u.word + 1
             failing := if u.run = seepLimit then u.failing.or (some (u.word, false)) else u.failing }
  else { u with ops := rest }

/-- A unit begins its next word: the registers as they stand are what its slots read (R279); a fall past the last
word fails (R280). -/
def SeepUnit.load (u : SeepUnit) (prog : List (BitVec 64)) : SeepUnit :=
  if u.halted || u.failing.isSome then u
  else
    match prog[u.word]? with
    | none => { u with failing := some (u.word, false) }
    | some w =>
      let ops := (decodeSeep w).getD []
      { u with ops := ops, snap := u.w, snapBad := u.bad, run := u.run + 1
               syncs := if ops.head? = some .seepSync then u.syncs + 1 else u.syncs }

/-- Reads of registers as they stood before the word. -/
def SeepUnit.reg (u : SeepUnit) (n : Fin 16) : BitVec 256 := u.snap.get n
def SeepUnit.isBad (u : SeepUnit) (n : Fin 16) : Bool := u.snapBad.contains n.val

def SeepUnit.setReg (u : SeepUnit) (n : Fin 16) (v : Nat) (bad : Bool) : SeepUnit :=
  { u with w := u.w.set n (BitVec.ofNat 256 v) n.isLt, bad := if bad then setAdd u.bad n else setDel u.bad n }

/-- An operation of the executing unit. -/
def onUnit (s : State) (f : Kernel → SeepUnit → State × SeepUnit) : Out :=
  match s.unitAt with
  | none => .fault .noSeepUnit
  | some (k, u) => let r := f k u; .next (r.1.modKernel k.id fun k => k.setUnit r.2)

/-- An operation on registers only. -/
def unitOp (s : State) (f : Kernel → SeepUnit → SeepUnit) : Out := onUnit s fun k u => (s, (f k u).pop)

/-! ## Columns (R277, R279) -/

/-- Physical address of a column of one of a unit's lines. -/
def Kernel.column (k : Kernel) (line col : Nat) : Nat := k.frames.getD (4 * line + col / 4) 0 + 32 * (col % 4)

/-- Physical address of a column of the current line. -/
def Kernel.colAt (k : Kernel) (u : SeepUnit) (col : Nat) : Nat := k.column (u.lines.getD u.at_ 0) col

/-- Virtual address of a column of a line. -/
def Kernel.columnVa (k : Kernel) (line col : Nat) : Nat := k.rbase + 512 * line + 32 * col

/-- How the issuer of a kernel stands, as a write-back that cannot be made for the kernel finds it (R385): it goes on and can
stall, it holds back the write, or it is gone. -/
inductive IssuerFate
  | goes | holds | gone
deriving DecidableEq, Repr

def State.issuerFate (s : State) (k : Kernel) : IssuerFate :=
  let c := s.ctxAt k.ctx
  if c.ten = k.ten ∧ c.status ≠ .idle then
    if c.status = .ended then .gone
    else if c.status = .running ∧ c.record = none ∧ s.frozen k.ctx = false then .goes else .holds
  else if s.senderLeft k.ctx k.ten then .holds else .gone

/-- What becomes of a seep write: it performs, it waits, or it is dropped by a kernel that fails. -/
inductive SeepFate
  | performs | waits | dropped
deriving DecidableEq, Repr

/-- A kernel fails by an uncorrectable error that a unit meets outside its program (R280, R367): the first failure stands, and
its error is logged (R369). -/
def State.kernelBad (s : State) (k : Kernel) (word unit mem addr : Nat) : State :=
  if (s.kernel? k.id).all fun x => x.fail.isSome then s
  else (s.modKernel k.id fun x => { x with fail := some (word, unit, true) }).logError mem 3 false k.agent.core addr

/-- A write-back that a seep write causes cannot be made (R385): its CLASS 1 record, with PC at the `seep`, stalls the issuer,
once there is room; until TQACT acts on it the write waits. After a termination the write goes on, and the sector stays
DIRTY. Where the walk meets an uncorrectable error, the kernel fails as by a data error and the write is not made (R367). -/
def State.seepTrap (s : State) (k : Kernel) (u : SeepUnit) (t : Trap) : State × SeepFate :=
  if t.cause.fatal then (s.kernelBad k u.word u.id t.mem t.addr, .dropped)
  else
  match s.issuerFate k with
  | .gone => (s, .performs)
  | .holds => (s, .waits)
  | .goes =>
    let r : TrapRec :=
      { seq := 0, gen := k.ten.gen, team := BitVec.ofNat 32 k.ten.gang, trap := t, pc := k.pc, core := k.agent.core
        ctx := lcOfCtx k.ctx, cls := 1, card := none }
    let q := quarterOf k.agent.core
    match s.putRecord q r with
    | some s' => (s'.applyRecord k.ctx { r with seq := (s.quarter q).tqprod }, .waits)
    | none => (s, .waits)

/-- A seep write of a unit: the back-invalidate of the sector, then, once every receiver has acknowledged, the write (R185,
R208); `va` is its virtual address. -/
def State.seepWrite (s : State) (k : Kernel) (u : SeepUnit) (va pa : Nat) (n v : Nat) (bad : Bool) : State × SeepFate :=
  let b := s.backInvalidate pa (some (k.agent.asid, va / 128 * 128))
  let r := match b.trap with
    | some t => b.state.seepTrap k u t
    | none => (b.state, .performs)
  if b.waits then (r.1, .waits)
  else if r.2 = .performs then ((r.1.noteTorn (.kernel k.id) pa (leBytes n v) bad).writeHbm pa (leBytes n v) bad, .performs)
  else r

/-! ## Lanes (R278) -/

/-- The type of a lane under TY. -/
def seepTy (ty : BitVec 4) : NTy :=
  match ty.toNat with
  | 1 => .int true 32 | 2 => .int false 32 | 6 => .flt .f16 | 7 => .flt .bf16 | _ => .flt .f32

def seepLanes (ty : BitVec 4) : Nat := 256 / (seepTy ty).width
def laneOf (ty : BitVec 4) (r : BitVec 256) (i : Nat) : Val :=
  let w := (seepTy ty).width
  (seepTy ty).val (bitsAt r (w * i) w)

/-- Lanes put together. -/
def fromLanes (w : Nat) (ls : List Nat) : Nat := ls.zipIdx.foldl (fun n x => n + x.1 * 2 ^ (w * x.2)) 0

/-- One result: modulo 2^32, or rounded once under RNE. -/
def seepRound (ty : BitVec 4) (v : Val) : Nat := ((seepTy ty).convert v .rne false 0).bits

def addV : Val → Val → Val
  | .i x, .i y => .i (x + y)
  | x, y => .f (x.num.add false y.num)
def mulV : Val → Val → Val
  | .i x, .i y => .i (x * y)
  | x, y => .f (x.num.mul y.num)
def maxV : Val → Val → Val
  | .i x, .i y => .i (max x y)
  | x, y => .f (Num.minmax true x.num y.num)

/-- A lanewise operation on the registers of an arithmetic slot: A, B and D. -/
def lanewise (a : SeepArith) (f : Val → Val → Val → Val) (u : SeepUnit) : Nat :=
  fromLanes (seepTy a.ty).width ((List.range (seepLanes a.ty)).map fun i =>
    seepRound a.ty (f (laneOf a.ty (u.reg a.wa) i) (laneOf a.ty (u.reg a.wb) i) (laneOf a.ty (u.reg a.wd) i)))

def seepArith (a : SeepArith) (f : Val → Val → Val → Val) (third : Bool) (s : State) : Out :=
  unitOp s fun _ u => u.setReg a.wd (lanewise a f u) (u.isBad a.wa || u.isBad a.wb || (third && u.isBad a.wd))

def execSeepAdd (a : SeepArith) (s : State) : Out := seepArith a (fun x y _ => addV x y) false s
def execSeepMul (a : SeepArith) (s : State) : Out := seepArith a (fun x y _ => mulV x y) false s
def execFma (a : SeepArith) (s : State) : Out := seepArith a (fun x y d => addV (mulV x y) d) true s
def execSeepMax (a : SeepArith) (s : State) : Out := seepArith a (fun x y _ => maxV x y) false s

/-- The sum of lanes by the tree of R69, every level rounded. -/
def treeSum (ty : BitVec 4) : (g : Nat) → List Nat → Nat
  | 0, l => l.headD 0
  | g + 1, l =>
    treeSum ty g ((List.range (l.length / 2)).map fun i =>
      seepRound ty (addV ((seepTy ty).val (l.getD (2 * i) 0)) ((seepTy ty).val (l.getD (2 * i + 1) 0))))

def execRsum (a : SeepArith) (s : State) : Out :=
  unitOp s fun _ u =>
    let ls := (List.range (seepLanes a.ty)).map fun i => seepRound a.ty (laneOf a.ty (u.reg a.wa) i)
    u.setReg a.wd (treeSum a.ty (Nat.log2 (seepLanes a.ty)) ls) (u.isBad a.wa)

/-- Element k of a register for `deq`. -/
def deqSrc (ty : BitVec 4) (r : BitVec 256) (k : Nat) : Num :=
  match ty.toNat with
  | 3 => Flt.e4m3.val (bitsAt r (8 * k) 8)
  | 4 => Flt.e5m2.val (bitsAt r (8 * k) 8)
  | 5 => Flt.e2m1.val (bitsAt r (4 * k) 4)
  | _ => .ofInt (intVal true 8 (bitsAt r (8 * k) 8))

def execDeq (a : SeepArith) (s : State) : Out :=
  unitOp s fun _ u =>
    let scale := Flt.f32.val (bitsAt (u.reg a.wb) 0 32)
    u.setReg a.wd (fromLanes 32 ((List.range 8).map fun i =>
      (Flt.f32.round ((deqSrc a.ty (u.reg a.wa) (8 * a.imm.toNat + i)).mul scale) .rne false 0).bits))
      (u.isBad a.wa || u.isBad a.wb)

/-! ## Control, fetch and write-back (R278) -/

def execIdle (s : State) : Out := unitOp s fun _ u => u

def execSeepLoop (s : State) : Out :=
  onUnit s fun _ u =>
    if u.at_ + 1 < u.lines.length then (s, { u with at_ := u.at_ + 1, word := 0, run := 0, ops := [] }) else (s, u.pop)

def execSeepHalt (s : State) : Out := onUnit s fun _ u => (s, { u with halted := true, ops := [] })

/-- Waits for the other units; a unit's own writes perform as they are made. -/
def execSeepSync (s : State) : Out :=
  onUnit s fun k u =>
    let free := k.fail.isSome || k.units.all fun v => v.id == u.id || v.halted || v.failing.isSome || u.syncs ≤ v.syncs
    (s, if free then u.pop else u)

def execFld (wd : Fin 16) (col : Fin 16) (s : State) : Out :=
  unitOp s fun k u => let pa := k.colAt u col; u.setReg wd (rdVal s.mem pa 32) (s.poisoned pa 32)

/-- A unit fails, at the word that it executes. -/
def SeepUnit.fails (u : SeepUnit) (bad : Bool) : SeepUnit := { u with failing := u.failing.or (some (u.word, bad)) }

def execFldx (wd : Fin 16) (wa : Fin 16) (s : State) : Out :=
  onUnit s fun k u =>
    let va := k.xbase.toNat + 32 * bitsAt (u.reg wa) 0 32
    if k.xbase = 0 || 2 ^ 57 ≤ va then (s, (u.fails false).pop)
    else
      let (w, s) := s.tlbWalk (576 + u.id / 32) k.agent.asid va
      match w with
      | .absent _ => (s.postResidency k.agent.asid va (BitVec.allOnes 32), u)
      | .poisoned a => (s.logError 9 3 false k.agent.core a, (u.fails true).pop)
      | _ =>
        match w.physical va with
        | some pa => (s, (u.setReg wd (rdVal s.mem pa 32) (s.poisoned pa 32 || u.isBad wa)).pop)
        | none => (s, (u.fails false).pop)

/-- A unit's write of a column of a line; the unit stays at the operation until it has performed or is dropped. -/
def State.writeColumn (s : State) (k : Kernel) (line col v : Nat) (bad : Bool) (u done : SeepUnit) : State × SeepUnit :=
  let r := s.seepWrite k u (k.columnVa line col) (k.column line col) 32 v bad
  (r.1, match r.2 with
    | .performs => done
    | .waits => u
    | .dropped => u.pop)

def execSeepSt (wa : Fin 16) (col : Fin 16) (s : State) : Out :=
  onUnit s fun k u => s.writeColumn k (u.lines.getD u.at_ 0) col (u.reg wa).toNat (u.isBad wa) u u.pop

/-- A poisoned wA would decide whether a column is written and where the cursor goes: the unit fails, and the error is logged
(R368, R369, assumption log 28). -/
def execStc (wa : Fin 16) (s : State) : Out :=
  onUnit s fun k u =>
    if u.isBad wa then (s.logError 10 3 true (u.id / 32) 0, (u.fails true).pop)
    else if u.reg wa = 0 then (s, u.pop)
    else
      match u.lines[u.cursor / 16]? with
      | none => (s, { u with ovf := true }.pop)
      | some l => s.writeColumn k l (u.cursor % 16) (u.reg wa).toNat false u { u with cursor := u.cursor + 1 }.pop

/-- TY of `red` by MODE. -/
def redTy (m : Fin 3) : BitVec 4 :=
  match m with
  | 0 => 8 | 1 => 7 | 2 => 1

def execRed (wa : Fin 16) (col : Fin 16) (m : Fin 3) (s : State) : Out :=
  onUnit s fun k u =>
    let pa := k.colAt u col
    let ty := redTy m
    let old : BitVec 256 := BitVec.ofNat 256 (rdVal s.mem pa 32)
    let v := fromLanes (seepTy ty).width ((List.range (seepLanes ty)).map fun i =>
      seepRound ty (addV (laneOf ty old i) (laneOf ty (u.reg wa) i)))
    s.writeColumn k (u.lines.getD u.at_ 0) col v (s.poisoned pa 32 || u.isBad wa) u u.pop

/-! ## Failure and release (R280 to R283) -/

/-- A kernel fails at a unit that is failing. -/
def Kernel.failAt (k : Kernel) (unitId : Nat) : Kernel :=
  match (k.units.find? fun u => u.id == unitId).bind SeepUnit.failing with
  | some x => if k.fail.isNone then { k with fail := some (x.1, unitId, x.2) } else k
  | none => k

def execSeepKernelFail (id unitId : Nat) (s : State) : Out := .next (s.modKernel id fun k => k.failAt unitId)

/-- A kernel fails at the first of its units that is failing, if any. -/
def Kernel.settled (k : Kernel) : Kernel :=
  match k.units.find? fun u => u.failing.isSome with
  | some u => k.failAt u.id
  | none => k

/-- Whether a unit has stopped: it has halted, or a unit of its kernel fails and its own current word is done (R280). -/
def Kernel.stoppedUnit (k : Kernel) (u : SeepUnit) : Bool :=
  u.halted || ((k.fail.isSome || k.units.any fun v => v.failing.isSome) && u.ops.isEmpty)

/-- The STAT word of a unit (R282). -/
def SeepUnit.stat (u : SeepUnit) (failed : Bool) : Nat :=
  u.cursor + (u.at_ + 1) * 2 ^ 32 + (if failed then 2 ^ 62 else 0) + (if u.ovf then 2 ^ 63 else 0)

/-- Physical address of the STAT word of a unit, by the translation pinned in step 4 (R282, R325). -/
def Kernel.statWord (k : Kernel) (u : SeepUnit) : Option Nat :=
  let va := k.stat.toNat + 8 * u.id
  k.statAt[va / 128 - k.stat.toNat / 128]?.map fun pa => pa + va % 128

/-- Writes the STAT words of the units that participated; the flag says that none waits. -/
def State.writeStat (s : State) (k : Kernel) : State × Bool :=
  if k.stat = 0 then (s, true)
  else
    k.units.foldl (fun r u =>
      match k.statWord u with
      | some pa =>
        let x := r.1.seepWrite k u (k.stat.toNat + 8 * u.id) pa 8 (u.stat k.fail.isSome) false
        (x.1, r.2 && x.2 != .waits)
      | none => r) (s, true)

/-- STAT is written, the claim is dropped, parked elements are applied and the pins go (R281); not before every STAT word has
performed, and, where one meets an uncorrectable error, not before all of them say that the kernel has failed. -/
def State.releaseKernel (s : State) (k : Kernel) : State :=
  let r := s.writeStat k
  let failed := k.fail.isNone && (r.1.kernel? k.id).any fun x => x.fail.isSome
  if r.2 && !failed then (r.1.modKernel k.id fun _ => { k with stage := .arriving, pinned := [], statAt := [] }).unpark
  else r.1.modKernel k.id fun x => { x with fail := k.fail.or x.fail }

/-- The record of a failed kernel (R280): RANGE, or UNCORRECTED for an error in its memories (Table 26-2). -/
def kernelRecord (k : Kernel) (x : Nat × Nat × Bool) : TrapRec :=
  { seq := 0, gen := k.ten.gen, team := BitVec.ofNat 32 k.ten.gang
    trap := { cause := if x.2.2 then .uncorrected else .range, val := w64 x.1, idx0 := w64 x.2.1, mem := 10 }
    pc := k.pc, core := k.agent.core, ctx := lcOfCtx k.ctx, cls := if x.2.2 then 2 else 3, card := none }

/-- The visible arrival, which is made again while its page or its home holds it. One that cannot be made is a data error of the
kernel, whose record names its pointer (R233, R367, assumption log 22). A kernel that has not failed is then over. -/
def State.kernelArrives (s : State) (k : Kernel) : State :=
  let done := fun (s : State) =>
    let s := s.dropTorn (.kernel k.id)
    if k.fail.isSome then s.modKernel k.id fun k => { k with stage := .failed } else s.dropKernel k.id
  let lost := fun (s : State) (bad : Bool) =>
    (s.dropTorn (.kernel k.id)).modKernel k.id fun x => { x with stage := .failed, fail := k.fail.or (some (k.vis.toNat, 0, bad)) }
  match engArrive k.agent k.vis k.rlines s with
  | .ok (_, s) => done s
  | .error (.absent d va) => s.postResidency d va (BitVec.allOnes 32)
  | .error .held => s
  | .error (.fail _ _) => lost s false
  | .error (.bad _ m a) => lost (s.logError m 3 false k.agent.core a) true

/-- The record of a failure is written once it finds room (R280, R316, R318), and the issuer ends. -/
def State.kernelFailed (s : State) (k : Kernel) : State :=
  match k.fail with
  | none => s.dropKernel k.id
  | some x =>
    match s.putRecord (quarterOf k.agent.core) (kernelRecord k x) with
    | none => s
    | some s => (s.dropKernel k.id).endIssuer k.ctx k.ten

/-- What a kernel does once its units have stopped: release, arrival, record. -/
def State.kernelEnds (s : State) (k : Kernel) : State :=
  if (s.quarter (quarterOf k.agent.core)).stopped then s else
  match k.stage with
  | .running => if k.settled.units.all k.settled.stoppedUnit then s.releaseKernel k.settled else s
  | .arriving => s.kernelArrives k
  | .failed => s.kernelFailed k
  | _ => s

/-- Release follows the halt of every unit, or a failure (R281). The turn goes on to the arrival and the record as far as it
can; a turn for a kernel that is gone applies what was parked on it (R283). -/
def execSeepRelease (id : Nat) (s : State) : Out :=
  let go := fun (s : State) =>
    match s.kernel? id with
    | none => s
    | some k => s.kernelEnds k
  match s.kernel? id with
  | none => .next s.unpark
  | some _ => .next (go (go (go s)))

end Sys2Proof.Machine
end

