-- ==== Sys2Proof/Machine/Preempt.lean ====
section
/-! DEFINITION. Pre-emption (R306 to R315) and the trap queue as its servicing agent acts on it (R316, R317). -/

namespace Sys2Proof.Machine

/-! ## Save records (R310, R311, R313) -/

/-- Bytes of the save record of one context (Table 21-3). -/
def ctxSaveBytes (w : Window) (lanes : Nat) : Nat :=
  528 + 256 + 2048 + 512 + 131072 + 4096 + 6144 + w.cn * lanes / 8 + 5 * lanes / 8 + (w.an * lanes * 33 + 7) / 8 +
  4 * (lanes + 1) + 1

/-- Bytes of the core state of a core with k stash tarns for each lane group: slots with their metadata, stash
lines and their bindings (R311; assumption log 26). -/
def coreSaveBytes (k : Nat) : Nat := 32 * (16384 + 64) + 4 * k * 65536 + 512 * k * 16

/-- Cores of a gang on which no context of another gang runs: those that `startGang` takes over, once the gang is out (R311). -/
def State.aloneCores (s : State) (l : Launch) (g : Gang) : List Nat :=
  g.cores.filter fun c => (List.range 4).all fun i =>
    let x := s.ctxAt (ctxNum c i)
    !s.runs (ctxNum c i) || (x.ten.launch == l.id && x.ten.gang == g.num)

/-- Units of 64 KiB that the save record of a gang takes. -/
def State.saveUnits (s : State) (l : Launch) (g : Gang) : Nat :=
  let k := rStashK l.record
  let lanes := 4096 * (4 - k)
  let ctxs := (g.cores.map fun _ => ((rLcs l.record).map fun i => ctxSaveBytes (startWindow l.record i 0) lanes).sum).sum
  (ctxs + (s.aloneCores l g).length * coreSaveBytes k + 65535) / 65536

/-- Whether a save fits in the region of a quarter (R313). -/
def State.saveFits (s : State) (q : Fin 4) (l : Launch) (g : Gang) : Bool :=
  let x := s.quarter q
  bitsAt x.savebase 16 24 != 0 && decide ((x.saves.map Saved.units).sum + s.saveUnits l g ≤ bitsAt x.savelim 0 32)

/-! ## When a swap happens (R306) -/

/-- The launch and gang with given numbers. -/
def State.gang? (s : State) (launch gang : Nat) : Option (Launch × Gang) :=
  (s.launch? launch).bind fun l => (l.gangs.find? fun g => g.num == gang).map fun g => (l, g)

/-- The quarter whose scheduler serves a running gang. -/
def Gang.quarter (g : Gang) : Fin 4 := quarterOf (g.cores.headD 0)

/-- Whether a gang waits that cannot be placed, and could be with another removed. -/
def State.placedWithout (s : State) (l : Launch) (g : Gang) (out : Launch × Gang) : Bool :=
  let ks := s.gangCtxs out.1.id out.2.num
  let free := ks.foldl (fun s k => s.modCtxAt k fun c => { c with status := .idle }) s
  (s.choose l g).isNone && (free.choose l g).isSome

/-- Whether a swap may start in a quarter. -/
def State.swapFree (s : State) (q : Fin 4) : Bool := (s.quarter q).swap.isNone && !(s.quarter q).stopped

/-- Whether a running gang of a quarter is a victim that R306 allows for a waiting one whose store dispatches (R318). -/
def State.swapVictim (s : State) (q : Fin 4) (out inn : Launch × Gang) : Bool :=
  let po := rPrio out.1.record
  let pi := rPrio inn.1.record
  s.dispatches inn.1.quarter && out.2.fate == .running && out.2.quarter == q && (decide (po < pi) || (out.2.expired && po == pi)) &&
  s.placedWithout inn.1 inn.2 out && s.saveFits q out.1 out.2

/-- Every running gang of a quarter. -/
def State.runningGangs (s : State) (q : Fin 4) : List (Launch × Gang) :=
  (s.launches.map fun l => (l.gangs.filter fun g => g.fate == .running && g.quarter == q).map fun g => (l, g)).flatten

/-- Step 1 of Table 21-1: the stop request. -/
def State.startSwap (s : State) (q : Fin 4) (out inn : Launch × Gang) : State :=
  s.modQuarter q fun x =>
    { x with swap := some { outLaunch := out.1.id, outGang := out.2.num, inLaunch := inn.1.id, inGang := inn.2.num
                            step := 1, noted := false } }

/-- Whether a gang is no worse a victim than another: of lower PRIO, or of equal PRIO and no less used. A gang whose quantum
has expired has used all of it, and of two such the lower number goes; of two that have not, the event says which has used
more (assumption log 33). -/
def victimBefore (a b : Launch × Gang) : Bool :=
  let pa := rPrio a.1.record
  let pb := rPrio b.1.record
  decide (pa < pb) || (pa == pb && (!b.2.expired || (a.2.expired && decide (a.2.num ≤ b.2.num))))

/-- Gangs of every store that wait for a place. -/
def State.allWaiting (s : State) : List (Launch × Gang) := (List.range 4).flatMap s.waitingGangs

/-- Whether no waiting gang that a swap in a quarter could bring in goes before a given one (R295, R314). -/
def State.swapNext (s : State) (q : Fin 4) (inn : Launch × Gang) : Bool :=
  s.allWaiting.all fun x => !goesBefore x inn || !(s.runningGangs q).any fun o => s.swapVictim q o x

/-- Whether a gang is the victim for a waiting one that is next to come in (R306). -/
def State.bestVictim (s : State) (q : Fin 4) (out inn : Launch × Gang) : Bool :=
  s.swapVictim q out inn && s.swapNext q inn && (s.runningGangs q).all fun o => !s.swapVictim q o inn || victimBefore out o

/-- The scheduler chooses a victim among those whose removal lets the waiting gang be placed. -/
def execPreemptDecision (q : Fin 4) (outLaunch outGang inLaunch inGang : Nat) (s : State) : Out :=
  let s := s.schedule
  match s.gang? outLaunch outGang, s.gang? inLaunch inGang with
  | some out, some inn =>
    let waiting := inn.2.fate == .saved || (inn.1.ready && inn.1.nextGang == some inn.2)
    if s.swapFree q && waiting && s.bestVictim q out inn then .next (s.startSwap q out inn) else .next s
  | _, _ => .next s

/-- The first of the gangs that wait for the cores of another at equal or higher PRIO. -/
def State.waiterFor (s : State) (out : Launch × Gang) : Option (Launch × Gang) :=
  let ws := s.allWaiting.filter fun x => decide (rPrio out.1.record ≤ rPrio x.1.record) && s.placedWithout x.1 x.2 out
  ws.find? fun x => ws.all fun y => !goesBefore y x

/-- A quantum expires: the gang may be swapped for one that waits for its cores, and is if it is the victim; or its quantum
starts again (R306). -/
def execQuantumExpiry (launch gang : Nat) (s : State) : Out :=
  let s := s.schedule
  match s.gang? launch gang with
  | none => .next s
  | some out =>
    if out.2.fate != .running then .next s
    else
      match s.waiterFor out with
      | none => .next (s.setGang launch gang fun g => { g with expired := false })
      | some inn =>
        let q := out.2.quarter
        let s := s.setGang launch gang fun g => { g with expired := true }
        let out := (out.1, { out.2 with expired := true })
        if s.swapFree q && s.bestVictim q out inn then .next (s.startSwap q out inn) else .next s

/-! ## Stop points (R308, R309) -/

/-- The gang that a swap takes out. -/
def State.outgoing (s : State) (w : Swap) : Option (Launch × Gang) := s.gang? w.outLaunch w.outGang

/-- Whether an engine still holds what a stop point completes: vector instructions that have not retired, accepted rows,
replays and trains of `scred` but those that stand at a fault, whose trap is held pending (R309). -/
def State.busyAt (s : State) (k : Nat) : Bool :=
  !(s.ctxAt k).ahead.isEmpty || ((s.coreAt (coreOfCtx k)).flight.any fun r => r.row.lc.val == lcOfCtx k) ||
  (s.gathers.any fun g => s.replaysFor k g && !g.faulted) || s.sent.any fun x => x.isOf k (s.ctxAt k).ten && !x.faulted

/-- Whether a card or gather of a gang with a stash region on a core has not finished (Table 21-2). -/
def State.stashWork (s : State) (l : Launch) (g : Gang) (core : Nat) : Bool :=
  let touches := fun (rs : List Region) => rs.any fun r => r.space = .stash core
  (s.cards.any fun c => c.ten.launch == l.id && c.ten.gang == g.num && touches (c.reads ++ c.writes)) ||
  ((s.coreAt core).scores.any fun e => s.gathers.any fun x =>
    x.id == e.card && x.ten.launch == l.id && x.ten.gang == g.num)

/-- `scred` and `binpl` instructions whose trains and replays are all done complete; one that has raised a fault does not. -/
def State.finishSends (s : State) (k : Nat) : State :=
  ((s.ctxAt k).sends.filter fun slot =>
    !(s.ctxAt k).holds slot && (s.sentBy k slot).isEmpty && !s.replayOf k slot).foldl (fun s slot =>
    (s.asIssuer (slotIssuer k slot) fun s => s.advance.waitEnds).modCtxAt k fun c => { c with sends := setDel c.sends slot }) s

/-- A swap whose given step has finished. -/
def State.swapStep (s : State) (q : Fin 4) (w : Swap) (step : Nat) : State :=
  s.modQuarter q fun x => { x with swap := some { w with step := step } }

/-- The swap of a quarter is over. -/
def State.endSwap (s : State) (q : Fin 4) : State := s.modQuarter q fun x => { x with swap := none }

/-- A swap is given up, and the outgoing gang goes on: no wait of it has been abandoned, and none carries WAKE (R314). -/
def State.giveUpSwap (s : State) (q : Fin 4) (l : Launch) (g : Gang) : State :=
  (s.gangCtxs l.id g.num).foldl (fun s k => s.modCtxAt k fun c => { c with wake := false }) (s.endSwap q)

/-- Every engine reaches its stop point and acknowledges (step 2 of Table 21-1). A gang that has ended meanwhile has
nothing to stop. -/
def execStopPointReached (q : Fin 4) (s : State) : Out :=
  match (s.quarter q).swap with
  | none => .next s
  | some w =>
    if w.step != 1 then .next s
    else
      match s.outgoing w with
      | none => .next (s.swapStep q w 2)
      | some (l, g) =>
        let ks := s.gangCtxs l.id g.num
        if g.fate != .running then .next (s.swapStep q w 2)
        else if ks.any s.busyAt || (s.aloneCores l g).any (s.stashWork l g) then .next s
        else
          let s := ks.foldl State.finishSends s
          let s : State := State.unpark { s with kernels := s.kernels.filter fun k => !k.stage.waits || !ks.contains k.ctx }
          .next (s.swapStep q w 2)

/-! ## Saving (R309 to R311, R314) -/

/-- A context as its record holds it: waits are abandoned, read-ahead is discarded, and a row instruction that a
stop divided executes again without its pops (R158). A record that found no room stays (R317). -/
def Ctx.saved (c : Ctx) (divided : List Nat) : Ctx :=
  { c with
    waits := []
    streams := c.streams.map fun t => t.map fun t => { t with ahead := [] }
    strips := Vector.ofFn fun i => (c.strips.get i).map fun t => if divided.contains i.val then { t with popped := true } else t }

/-- Columns, tags, cells and poison marks of a context. -/
def Core.saveLanes (c : Core) (w : Window) (lc : Nat) : SavedLanes :=
  let m := ctxColumns w.cb w.cn lc
  { rows := c.rows.filterMap fun r => let v := r.2 &&& m; if v = 0 then none else some (r.1, v)
    cells := c.cells.filter fun x => inCells w.ab w.an x.1
    poison := c.cellPoison.filter fun x => inCells w.ab w.an x }

/-- Lane groups whose strip has rows waiting for acceptance. -/
def Core.dividedRows (c : Core) (lc : Nat) : List Nat :=
  ((c.waiting.filter fun r => r.lc.val == lc).map fun r => r.lg.val).eraseDups

/-- A write-back of a swap that cannot be made leaves its sector DIRTY (R385). One whose walk meets an uncorrectable error ends
the outgoing context that makes it, with one record; where it has ended, the error is logged (R367, R369). -/
def State.saveDirty (k : Nat) (t : Trap) (s : State) : Act State :=
  if !t.cause.fatal then .ok s
  else if (s.ctxAt k).status == .ended then .ok (s.logError t.mem 3 false (coreOfCtx k) t.addr)
  else do
    let s ← s.leaveDirty k t
    .ok (s.modCtxAt k fun c => { c.finish with ending := false })

/-- What a context that its own swap has ended wrote is published, as its team-end boundary does (R297). -/
def State.publishEnded (s : State) (k : Nat) : State :=
  if (s.ctxAt k).status == .ended then s.publishHistory k (doneScopeOf (s.ctxAt k).ten.doneScope) else s

/-- The context of a gang that makes the write-backs of a core: the first that has not ended, else the first (assumption log 11). -/
def State.saver (s : State) (ks : List Nat) (core : Nat) : Nat :=
  let here := ks.filter fun k => coreOfCtx k == core
  ((here.find? fun k => (s.ctxAt k).status != .ended).or here.head?).getD (ctxNum core 0)

/-- The stashes that a record holds are written back by an outgoing context on each core, and their bound sectors
dropped (R311); the writes stay that context's, for a swap is no boundary (R315). A sector whose page is not there holds the
swap, one whose page is invalid stays DIRTY (R385). -/
def State.emptyStashes (s : State) (ks cs : List Nat) : Act State :=
  cs.foldlM (fun s c => do
    let k := s.saver ks c
    let s ← s.flushEnd c (.ctx k) (State.saveDirty k)
    .ok (s.publishEnded k)) s

/-- Every context of a gang performs its stores; nothing while one is held. -/
def State.drainAll (s : State) (ks : List Nat) : Option State :=
  ks.foldl (fun (r : Option State) k => r.bind fun s =>
    match s.drainAct k with
    | .ok s => some s
    | .error _ => none) (some s)

/-- The place in the order of its PRIO that a gang takes: the head when WAKE is set, else the tail (R314). -/
def State.returnOrder (s : State) (l : Launch) (wake : Bool) : Int :=
  if wake then
    ((s.launches.filter fun x => rPrio x.record == rPrio l.record).flatMap fun x => x.gangs.map Gang.order).foldl min 0 - 1
  else s.nextId

/-- A wait of a saved gang's context has ended: WAKE is set, and the gang goes to the head of its PRIO (R314). -/
def State.wakeSaved (s : State) (q : Fin 4) (launch gang k : Nat) : State :=
  let s := s.modQuarter q fun x => { x with saves := x.saves.map fun y =>
    if y.launch = launch ∧ y.gang = gang then
      { y with ctxs := y.ctxs.map fun c => if c.1 = k then (k, { c.2 with wake := true }) else c }
    else y }
  match s.launch? launch with
  | none => s
  | some l => s.setGang launch gang fun g => { g with order := s.returnOrder l true }

/-- Writes the save record and frees the contexts (step 4 of Table 21-1). -/
def State.saveGang (s : State) (q : Fin 4) (l : Launch) (g : Gang) : State :=
  let ks := s.gangCtxs l.id g.num
  let alone := s.aloneCores l g
  let rec_ : Saved :=
    { launch := l.id, gang := g.num, units := s.saveUnits l g
      ctxs := ks.map fun k => (k, (s.ctxAt k).saved ((s.coreAt (coreOfCtx k)).dividedRows (lcOfCtx k)))
      lanes := ks.map fun k => (k, (s.coreAt (coreOfCtx k)).saveLanes (s.ctxAt k).win (lcOfCtx k))
      cores := alone.map fun c => (c, s.coreAt c) }
  let order := s.returnOrder l (ks.any fun k => (s.ctxAt k).wake)
  let s := ks.foldl (fun s k =>
    (s.setCtxAt k .reset).modCoreAt (coreOfCtx k) fun c =>
      { c with waiting := c.waiting.filter fun r => r.lc.val != lcOfCtx k }) s
  let s := s.setGang l.id g.num fun g => { g with fate := .saved, order := order }
  { (s.leaveWriters l.id g.num ks).modQuarter q fun x => { x with saves := x.saves ++ [rec_] } with nextId := s.nextId + 1 }

/-- Steps 3 and 4 of a swap. A gang that has ended meanwhile has nothing to save; a record that no longer fits, since its
gang has come to have a core alone or the region has been moved, is not written: the swap is given up, and the gang goes on
(R313, assumption log 33). -/
def execSwapSave (q : Fin 4) (s : State) : Out :=
  match (s.quarter q).swap with
  | none => .next s
  | some w =>
    if w.step != 2 || (s.quarter q).stopped then .next s
    else
      match s.outgoing w with
      | none => .next (s.swapStep q w 4)
      | some (l, g) =>
        if g.fate != .running then .next (s.swapStep q w 4)
        else if !s.saveFits q l g then .next (s.giveUpSwap q l g)
        else if (s.aloneCores l g).any (s.stashWork l g) then .next s
        else
          match s.drainAll (s.gangCtxs l.id g.num) with
          | none => .next s
          | some s1 =>
            match s1.emptyStashes (s1.gangCtxs l.id g.num) (s1.aloneCores l g) with
            | .error (.wait s2) => .next s2
            | .error (.trap _ _) => .next s
            | .ok s2 => .next ((s2.saveGang q l g).swapStep q w 4)

/-- Steps 5 and 6 of a swap: the incoming gang is restored or starts, unless its store has stopped (R318); one that was withdrawn
ends the swap. -/
def execSwapLoad (q : Fin 4) (cores : List Nat) (s : State) : Out :=
  match (s.quarter q).swap with
  | none => .next s
  | some w =>
    if w.step != 4 || (s.quarter q).stopped then .next s
    else
      match s.gang? w.inLaunch w.inGang with
      | none => .next (s.endSwap q)
      | some (l, g) =>
        if g.fate != .waiting && g.fate != .saved then .next (s.endSwap q)
        else if s.dispatches l.quarter && s.placeable l g cores then .next ((s.endSwap q).bringIn l g cores)
        else .next s

/-! ## The trap queue (R316, R317) -/

/-- Whether a held record can be dealt with now. -/
def State.postable (s : State) (q : Fin 4) (r : Option TrapRec) : Bool :=
  match r with
  | some r => (s.putRecord q r).isSome
  | none => false

/-- The first holder of a record that can be dealt with. -/
def firstHeld {α : Type} (s : State) (q : Fin 4) (rec_ : α → Option TrapRec) (xs : List α) : Option (α × TrapRec) :=
  xs.findSome? fun x => match rec_ x with
    | some r => if s.postable q (some r) then some (x, r) else none
    | none => none

/-- A held record that a resident context may write: one that ends it waits for its vector instructions. -/
def Ctx.heldRecord (c : Ctx) : Option TrapRec := c.record.filter fun r => r.cls == 1 || c.ahead.isEmpty

/-- The record of a context writes, in a saved gang: it takes its class where it lies, and its wait has ended (R314). -/
def State.postSaved (s : State) (q : Fin 4) (x : Saved) (k : Nat) (t : Tenancy) (r : TrapRec) : State :=
  let seq := (s.quarter q).tqprod
  match s.putRecord q r with
  | none => s
  | some s =>
    let s := if r.cls = 1 then
        s.modQuarter q fun y => { y with saves := y.saves.map fun z =>
          if z.launch = x.launch ∧ z.gang = x.gang then
            { z with ctxs := z.ctxs.map fun c =>
                if c.1 = k then (k, { c.2 with status := .stalled, record := none, stall := some seq }) else c }
          else z }
      else s.finishSaved k t
    s.wakeSaved q x.launch x.gang k

/-- A record that was held for want of room is written, and takes its class: that of a resident context, of a saved one, of
a card, or of a gather. The wait of a context that a swap is taking out has then ended (R314). -/
def execTrapRecordWrite (q : Fin 4) (s : State) : Out :=
  match firstHeld s q (fun c => c.2.heldRecord) (s.ctxs.filter fun c => quarterOf (coreOfCtx c.1) == q) with
  | some (c, r) => .next (((if s.frozen c.1 then s.modCtxAt c.1 fun x => { x with wake := true } else s)).post c.1 r)
  | none =>
    match firstHeld s q (fun c => c.2.2.record) ((s.quarter q).saves.flatMap fun x => x.ctxs.map fun c => (x, c)) with
    | some ((x, c), r) => .next (s.postSaved q x c.1 c.2.ten r)
    | none =>
      match firstHeld s q Card.record (s.cardsOf q) with
      | some (c, r) => .next (s.postCard c r)
      | none =>
        match firstHeld s q Gather.record (s.gathers.filter fun g => quarterOf g.agent.core == q) with
        | some (g, r) => .next (s.postGather g r)
        | none => .next s

/-- Offset of register n of a quarter (Table 24-4). -/
def quarterOff (q : Fin 4) (n : Nat) : Nat := 0x10000 + 0x1000 * q.val + 8 * n

/-- TQCONS [31:0]. Table 21-5 does not list bits [63:32]: that they drop what is written and read 0 is the model's choice
(assumption log 33). -/
def execTqconsWrite (m : Fin 4) (q : Fin 4) (v : Word) (s : State) : Out :=
  .next (s.ownerWrite m (quarterOff q 4) v fun s =>
    let c : BitVec 32 := v.extractLsb' 0 32
    if 256 < ((s.quarter q).tqprod - c).toNat then none
    else some (s.modQuarter q fun x => { x with tqcons := c }))

/-- The record that a write of TQACT names, when it may still be acted on. -/
def Quarter.actable (q : Quarter) (seq : BitVec 32) : Option TrapRec :=
  match look q.ring (seq.toNat % 256) with
  | some (r, false) => if r.seq = seq ∧ r.cls = 1 then some r else none
  | _ => none

/-- Marks a record as acted on. -/
def Quarter.markActed (q : Quarter) (seq : BitVec 32) : Quarter :=
  { q with ring := q.ring.map fun x => if x.1 = seq.toNat % 256 then (x.1, (x.2.1, true)) else x }

/-- Whether a context is STALLED for a record. -/
def Ctx.stalledFor (c : Ctx) (seq : BitVec 32) : Bool := c.status == .stalled && c.stall == some seq

/-- The context re-executes the faulting instruction (R170). -/
def Ctx.replay (c : Ctx) : Ctx := { c with status := .running, stall := none }

/-- Acts on the context of a record, where it runs or where it is saved. -/
def State.actCtx (s : State) (q : Fin 4) (k : Nat) (seq : BitVec 32) (replay : Bool) : State :=
  if (s.ctxAt k).stalledFor seq then (if replay then s.modCtxAt k Ctx.replay else s.endCtx k)
  else
    let act := fun (c : Nat × Ctx) =>
      if c.1 = k ∧ c.2.stalledFor seq then (k, if replay then c.2.replay else c.2.finish) else c
    s.modQuarter q fun x => { x with saves := x.saves.map fun y => { y with ctxs := y.ctxs.map act } }

/-- Acts on the card of a record: it resumes, or takes the path of a declined replay (R233). -/
def State.actCard (s : State) (id : Nat) (r : TrapRec) (replay : Bool) : State :=
  match s.cards.find? fun c => c.id == id && c.suspended with
  | none => s
  | some c =>
    let s := s.modCard id fun c => { c with suspended := false }
    if replay then s else s.declineCard { c with suspended := false } r

/-- A write of TQACT with the given ACT. -/
def State.tqact (s : State) (m q : Fin 4) (v : Word) (replay : Bool) : State :=
  let v := if replay then v &&& ~~~(w64 (2 ^ 32)) else v ||| w64 (2 ^ 32)
  s.ownerWrite m (quarterOff q 5) v fun s =>
    let seq : BitVec 32 := v.extractLsb' 0 32
    ((s.quarter q).actable seq).map fun r =>
      let s := s.modQuarter q fun x => x.markActed seq
      match r.card with
      | some id => s.actCard id r replay
      | none => s.actCtx q (ctxNum r.core r.ctx) seq replay

def execTqactReplay (m : Fin 4) (q : Fin 4) (v : Word) (s : State) : Out := .next (s.tqact m q v true)
def execTqactTerminate (m : Fin 4) (q : Fin 4) (v : Word) (s : State) : Out := .next (s.tqact m q v false)

/-! ## Scheduling registers (R313) -/

def execQuantumWrite (m : Fin 4) (q : Fin 4) (v : Word) (s : State) : Out :=
  .next (s.ownerWrite m (quarterOff q 0) v fun s =>
    let us := bitsAt v 0 32
    if us < 100 || 100000 < us then none else some (s.modQuarter q fun x => { x with quantum := w64 us }))

def execSavebaseWrite (m : Fin 4) (q : Fin 4) (v : Word) (s : State) : Out :=
  .next (s.ownerWrite m (quarterOff q 1) v fun s =>
    if (s.quarter q).saves.isEmpty then some (s.modQuarter q fun x => { x with savebase := w64 (bitsAt v 16 24 * 2 ^ 16) })
    else none)

def execSavelimWrite (m : Fin 4) (q : Fin 4) (v : Word) (s : State) : Out :=
  .next (s.ownerWrite m (quarterOff q 2) v fun s =>
    if (s.quarter q).saves.isEmpty then some (s.modQuarter q fun x => { x with savelim := w64 (bitsAt v 0 32) })
    else none)

end Sys2Proof.Machine
end

