-- ==== Sys2Proof/Machine/Translate.lean ====
section
/-! DEFINITION. Page instructions (R331, R332), `tlbi` (R333, R334), `hot` (R335), migration (R327 to R329), hotness
counts (R330) and waits for residency (R326). -/

namespace Sys2Proof.Machine

/-! ## Pages (R331) -/

def Walk.isAbsent : Walk → Bool
  | .absent _ => true
  | _ => false

/-- A page by its base and size, with what its walk finds. -/
structure Page where
  base : Nat
  log : Nat
  walk : Walk
deriving DecidableEq, Repr

def State.pageOf (s : State) (asid : Fin 16) (va : Nat) : Page :=
  let w := s.walk asid (va % 2 ^ 57)
  { base := va / 2 ^ w.log * 2 ^ w.log, log := w.log, walk := w }

/-- The pages that hold bytes lo to hi − 1, up to `fuel` of them. -/
def State.pagesOf (s : State) (asid : Fin 16) (lo hi : Nat) : (fuel : Nat) → List Page
  | 0 => []
  | fuel + 1 =>
    if hi ≤ lo then []
    else
      let p := s.pageOf asid lo
      p :: s.pagesOf asid (p.base + 2 ^ p.log) hi fuel

/-- The virtual address that a global or private pointer names, by orders 1 to 3 of Table 11-2. -/
def State.pagePtr (s : State) (p : Word) : Act Nat :=
  match malformed p with
  | some c => raise s c p
  | none =>
    match windowOf p with
    | 0 => .ok p.toNat
    | 8 => .ok ((s.ctx.win.pbase.toNat + bitsAt p 0 32) % 2 ^ 57)
    | _ => raise s .window p

def execPgreq (c : Ctl) (f : FM) (s : State) : Out :=
  run c s fun s => do
    let b := s.val f.opb
    let va ← s.pagePtr (s.fmBase f)
    if 2 ^ 30 < b.toNat then raise s .range b
    else
      .ok ((s.pagesOf s.asid va (va + b.toNat) 16386).foldl (fun s p =>
        match p.walk with
        | .absent _ => s.postResidency s.asid p.base (BitVec.ofNat 32 s.cur.core)
        | _ => s) s).advance

/-! ## Residency pins (R332) -/

def pinMax : Nat := 65535
def pinTable : Nat := 1024

def Pin.isFor (x : Pin) (asid : Fin 16) (p : Page) : Bool := x.asid == asid && x.base == p.base && x.log == p.log

/-- One more residency pin on a page; a full count does not rise. -/
def addPin (pins : List Pin) (asid : Fin 16) (p : Page) : List Pin :=
  if pins.any fun x => x.isFor asid p then
    pins.map fun x => if x.isFor asid p then { x with count := min pinMax (x.count + 1) } else x
  else pins ++ [{ asid := asid, base := p.base, log := p.log, count := 1 }]

def State.setPins (s : State) (pins : List Pin) : State := { s with xlat := { s.xlat with pins := pins } }

/-- The first page of a list that a walk finds INVALID, or whose entry is poisoned. -/
def State.checkPages (s : State) (ps : List Page) : Act Unit :=
  ps.forM fun p =>
    match p.walk with
    | .invalid => raise s .invalidPage (w64 p.base)
    | .poisoned a => raiseBad s (w64 p.base) 0 9 a
    | _ => .ok ()

def execPgpin (c : Ctl) (f : FM) (s : State) : Out :=
  run c s fun s => do
    s.checkDest f.opd
    let b := s.val f.opb
    let va ← s.pagePtr (s.fmBase f)
    let ps := s.pagesOf s.asid va (va + b.toNat) 17
    if 16 < ps.length then raise s .range b
    else do
      s.checkPages ps
      match ps.find? fun p => p.walk.isAbsent with
      | some p =>
        (ps.foldl (fun s p =>
          if p.walk.isAbsent then s.postResidency s.asid p.base (BitVec.ofNat 32 s.cur.core) else s) s).waitPage s.asid p.base
      | none =>
        if ps.any fun p => match p.walk with
          | .transit _ _ _ _ _ => true
          | _ => false then hold s
        else
          let pins := ps.foldl (fun m p => addPin m s.asid p) s.xlat.pins
          .ok (if pins.length ≤ pinTable then ((s.setPins pins).putP f.opd true).advance
               else (s.putP f.opd false).advance)

/-- One residency pin less on a page that holds a byte of [lo, hi), unless its entry is permanent. -/
def Pin.drop (x : Pin) (asid : Fin 16) (lo hi : Nat) : Pin :=
  if x.asid = asid ∧ lo < hi ∧ x.base < hi ∧ lo < x.base + 2 ^ x.log ∧ x.count ≠ pinMax then
    { x with count := x.count - 1 } else x

def execPgunpin (c : Ctl) (f : FM) (s : State) : Out :=
  run c s fun s => do
    let b := s.val f.opb
    let va ← s.pagePtr (s.fmBase f)
    if 16 < (s.pagesOf s.asid va (va + b.toNat) 17).length then raise s .range b
    else
      .ok (s.setPins ((s.xlat.pins.map fun x => x.drop s.asid va (va + b.toNat)).filter fun x => x.count != 0)).advance

def execRpclr (m : Fin 4) (v : Word) (s : State) : Out :=
  .next (s.ownerWrite m 0x12B0 v fun s => some (s.setPins []))

/-! ## `tlbi` (R333, R334) -/

/-- The addresses that an invalidation names: an address space and the bytes lo to hi − 1. -/
structure Cover where
  asid : Fin 16
  lo : Nat
  hi : Nat
deriving DecidableEq, Repr

/-- Whether a page, by index and size, holds a byte of the addresses. -/
def Cover.holds (x : Cover) (index log : Nat) : Bool := decide (index * 2 ^ log < x.hi ∧ x.lo < (index + 1) * 2 ^ log)

/-- The addresses of every page that holds a byte of the named ones, at the size that the walk meets now (R331, R333). -/
def State.widen (s : State) (x : Cover) : Cover :=
  if x.lo < x.hi then
    let a := s.pageOf x.asid x.lo
    let b := s.pageOf x.asid (x.hi - 1)
    { x with lo := a.base, hi := b.base + 2 ^ b.log }
  else x

/-- Whether an address lies on a covered page, at the size that the walk meets now or that a TLB still holds. -/
def State.covers (s : State) (x : Cover) (asid : Fin 16) (va : Nat) : Bool :=
  asid == x.asid && decide (x.lo < x.hi) &&
  (let log := (s.walk asid (va % 2 ^ 57)).log
   x.holds (va / 2 ^ log) log ||
   s.tlbs.any fun t => t.2.any fun e => e.leaf.isSome && e.maps asid va && x.holds e.va e.log)

/-- Whether a pinned page holds a byte of the named addresses, at the size that it had when the pin was taken. -/
def Pinned.meets (p : Pinned) (x : Cover) : Bool :=
  p.asid == x.asid && decide (x.lo < x.hi ∧ p.base < x.hi ∧ x.lo < p.base + 2 ^ p.log)

/-- Whether an access, a card or a kernel holds a translation pin on a covered page (R325). -/
def State.pinnedIn (s : State) (x : Cover) : Bool :=
  (s.pend.any fun p => p.pages.any fun g => g.meets x) || (s.cards.any fun c => c.pinned.any fun g => g.meets x) ||
  s.kernels.any fun k => k.pinned.any fun g => g.meets x

/-- A line forgets its frame. -/
def Core.forgetFrame (c : Core) (line : Nat) : Core :=
  { c with lines := c.lines.map fun y => if y.1 = line then (y.1, { y.2 with frame := none }) else y }

/-- Writes back and drops one sector, or leaves it DIRTY where its page is INVALID or allows no write (R385), or where the walk
meets an uncorrectable error, which is logged (R367, R369). -/
def State.writeBackOrLeave (s : State) (core line : Nat) (j : Fin 4) (who : Option Writer) : Act State :=
  match s.writeBack core line j true false who with
  | .error (.trap t _) => .ok (if t.cause.fatal then s.logError t.mem 3 false core t.addr else s)
  | r => r

/-- The stash lines of a core bound within covered pages are written back, by the context whose `tlbi` it is (R195), dropped and
forget their frames. Where no instruction asks for it, a sector that cannot be written back stays DIRTY (R385). -/
def State.dropLines (s : State) (x : Cover) (leave : Bool) (who : Option Nat) (core : Nat) : Act State :=
  let w : Writer := match who with
    | some k => .ctx k
    | none => .stash core
  ((s.coreAt core).lines.filter fun l => s.covers x l.2.asid l.2.va.toNat).foldlM (fun s l => do
    let s ← (List.finRange 4).foldlM (fun s j =>
      if leave then s.writeBackOrLeave core l.1 j (some w) else s.writeBack core l.1 j true false (some w)) s
    .ok (s.modCoreAt core fun c => c.forgetFrame l.1)) s

/-- The lines that a save record holds forget the frames of covered pages, so that a restored core translates anew (R334). -/
def State.forgetSaved (s : State) (x : Cover) (y : Saved) : Saved :=
  let line := fun (l : Line) => if s.covers x l.asid l.va.toNat then { l with frame := none } else l
  { y with cores := y.cores.map fun c => (c.1, { c.2 with lines := c.2.lines.map fun l => (l.1, line l.2) }) }

/-- The entries of every TLB, the L1 sectors of covered pages and the frames in save records go (R334). -/
def State.dropMaps (s : State) (x : Cover) : State :=
  { s with
    quarters := s.quarters.map fun q => { q with saves := q.saves.map (s.forgetSaved x) }
    tlbs := s.tlbs.map fun t =>
      (t.1, t.2.filter fun e => !(e.asid == x.asid && decide (x.lo < x.hi) && x.holds e.va e.log))
    cores := s.cores.map fun c => (c.1, { c.2 with l1 := c.2.l1.filter fun e => !s.covers x e.asid e.va }) }

/-- An invalidation of the pages that hold the named addresses, which the `tlbi` of a context makes or none: it waits while a pin
is held. -/
def State.invalidate (s : State) (x : Cover) (leave : Bool := false) (who : Option Nat := none) : Act State :=
  let x := s.widen x
  if s.pinnedIn x then hold s
  else do
    let s ← s.cores.foldlM (fun s c => s.dropLines x leave who c.1) s
    .ok (s.dropMaps x)

def execTlbi (c : Ctl) (f : FR) (s : State) : Out :=
  run c s fun s => do
    let s0 := s
    let x : Cover ← match f.sub.toNat with
      | 0 => do
        let va ← s.pagePtr (s.val f.opa)
        .ok { asid := s.asid, lo := va, hi := va + 1 }
      | 1 => do
        let va ← s.pagePtr (s.val f.opa)
        .ok { asid := s.asid, lo := va, hi := va + (s.val f.opb).toNat }
      | _ => .ok { asid := s.asid, lo := 0, hi := 2 ^ 58 }
    let s ← s.drainAct s.key
    if s.unacked s.key .core then hold s0
    let s ← undo s0 (s.invalidate x false (some s.key))
    .ok s.advance

/-- An invalidation that no instruction makes, and what follows its completion; while it must wait, what it has requested and
written back stands, and the errors that it meets are logged when it is done. -/
def State.invalidateThen (s : State) (x : Cover) (f : State → State) : State :=
  match s.invalidate x true with
  | .ok s => f s
  | .error (.wait t) => { t with regs := s.regs }
  | .error (.trap _ _) => s

/-- The addresses that a value written to TLBIA names (Table 22-1). -/
def tlbiaCover (v : Word) : Cover :=
  let page := bitsAt v 16 41 * 65536
  let asid := Fin.ofNat 16 (bitsAt v 0 4)
  if bitAt v 4 then { asid := asid, lo := 0, hi := 2 ^ 58 } else { asid := asid, lo := page, hi := page + 1 }

/-- The oldest write of TLBIA that waits completes when its invalidation does, with status 0 (R334, R356). -/
def State.tlbiaTurn (s : State) : State :=
  match s.xlat.tlbia with
  | [] => s
  | (m, v) :: rest =>
    s.invalidateThen (tlbiaCover v) fun s =>
      { s with xlat := { s.xlat with tlbia := rest }, owner := s.owner.setStatus m 0 0 }

/-- A write of TLBIA: it waits behind those before it, and no response to it has come until it completes (R334, R356;
assumption log 35). -/
def execTlbia (m : Fin 4) (v : Word) (s : State) : Out :=
  if s.owner.own = m.val then
    .next (State.tlbiaTurn { s with
      xlat := { s.xlat with tlbia := s.xlat.tlbia ++ [(m, v)] }
      owner := if m = 0 then s.owner else { s.owner with replies := s.owner.replies.set m none m.isLt } })
  else .next (s.refuse m 0x12A0 v 1)

/-! ## Hotness (R330, R335) -/

/-- A count of the array. Where HOTBASE names stacks 12 to 15 or lies beyond HBM4 (R20), it reads 0 and what is added to it is
lost: the manual gives it no value there (assumption log 34). -/
def State.hotCount (s : State) (entry kind : Nat) : Nat := rdVal s.mem (entry + 4 * kind) 4
def State.setHot (s : State) (entry kind v : Nat) (bad : Bool := false) : State :=
  s.writeHbm (entry + 4 * kind) (leBytes 4 (min v (2 ^ 32 - 1))) bad
/-- Whether a count lies in a poisoned granule. -/
def State.hotBad (s : State) (entry kind : Nat) : Bool := s.poisoned (entry + 4 * kind) 4

/-- The frame whose counter `hot` reads, when the page has one. A poisoned entry is no frame that may be consumed (R368). -/
def State.hotFrame (s : State) (p : Word) : Act (Option Nat) :=
  match s.pagePtr p with
  | .error _ => .ok none
  | .ok va =>
    match s.walk s.asid va with
    | .valid log pa _ _ => .ok (some (pa + va % 2 ^ log))
    | .transit old _ _ _ _ => .ok (some old)
    | .poisoned a => raiseBad s p 0 9 a
    | _ => .ok none

def execHot (c : Ctl) (f : FR) (s : State) : Out :=
  run c s fun s => do
    s.checkDest f.opd
    let kind := f.sub.toNat % 3
    match ← (if bitAt s.xlat.hotbase 0 then s.hotFrame (s.val f.opa) else .ok none) with
    | none => .ok (s.putS f.opd (BitVec.allOnes 64)).advance
    | some pa =>
      let e := s.hotEntry pa
      if s.hotBad e kind then raiseBad s (s.val f.opa) 0 9 (e + 4 * kind)
      else
        let s1 := s.putS f.opd (w64 (s.hotCount e kind))
        .ok (if 3 ≤ f.sub.toNat then s1.setHot e kind 0 else s1).advance

/-- The k-th of the counts owed is added to its counter; a poisoned one stays as it is (R366). -/
def execHotnessAdd (k : Nat) (s : State) : Out :=
  match s.xlat.owed[k]? with
  | none => .next s
  | some o =>
    .next { (if s.hotBad o.addr o.kind then s else s.setHot o.addr o.kind (s.hotCount o.addr o.kind + o.n)) with
      xlat := { s.xlat with owed := s.xlat.owed.eraseIdx k } }

/-! ## Migration (R327 to R329) -/

def execMigvaWrite (m : Fin 4) (q : Fin 4) (v : Word) (s : State) : Out :=
  .next (s.ownerWrite m (quarterOff q 6) v fun s =>
    if (s.quarter q).migst = 1 then none
    else some (s.modQuarter q fun x => { x with migva := w64 (bitsAt v 16 41 * 2 ^ 16 + bitsAt v 0 4) }))

/-- The page that MIGVA names. -/
def migPage (v : Word) : Nat := bitsAt v 16 41 * 65536
def migAsid (v : Word) : Fin 16 := Fin.ofNat 16 (bitsAt v 0 4)

/-- The old frame of a page that may migrate: a level-3 VALID leaf, with no residency pin, in no claim. -/
def State.migratable (s : State) (asid : Fin 16) (va : Nat) : Option Nat :=
  match s.leafAddr asid va, s.walk asid va with
  | some (_, 3), .valid _ pa _ _ =>
    if (s.xlat.pins.any fun p => p.asid == asid && decide (p.base ≤ va ∧ va < p.base + 2 ^ p.log)) || s.claimed pa 65536
    then none else some pa
  | _, _ => none

/-- Rewrites the level-3 entry of a page. -/
def State.writePte (s : State) (asid : Fin 16) (va : Nat) (f : Word → Word) : State :=
  match s.leafAddr asid va with
  | some (a, _) => s.writeHbm a (leBytes 8 (f (w64 (rdVal s.mem a 8))).toNat)
  | none => s

/-- An entry as TRANSIT at a progress, and as VALID on a frame; W and X are kept. -/
def pteTransit (old new p : Nat) (e : Word) : Word :=
  w64 (3 * 2 ^ 62) ||| (e &&& w64 (7 * 2 ^ 59)) ||| w64 (p * 2 ^ 48 + new / 65536 * 2 ^ 24 + old / 65536)
def pteValid (new : Nat) (e : Word) : Word := w64 (2 ^ 62) ||| (e &&& w64 (7 * 2 ^ 59)) ||| w64 (new / 65536)

/-- A write of MIGFR: refused, malformed or begun (R328). -/
def execMigrationStart (m : Fin 4) (q : Fin 4) (v : Word) (s : State) : Out :=
  .next (s.ownerWrite m (quarterOff q 7) v fun s =>
    let x := s.quarter q
    if x.migst = 1 then none
    else
      let asid := migAsid x.migva
      let va := migPage x.migva
      let new := bitsAt v 0 24 * 65536
      match s.migratable asid va with
      | none => some (s.modQuarter q fun y => { y with migst := 2 })
      | some old =>
        if s.frameBad new 65536 then some (s.modQuarter q fun y => { y with migst := 3 })
        else
          some ((s.writePte asid va (pteTransit old new 0)).modQuarter q fun y =>
            { y with migst := 1, migration := some { va := va, asid := asid, old := old, new := new, done := 0 } }))

def Migration.cover (g : Migration) : Cover := { asid := g.asid, lo := g.va, hi := g.va + 1 }

def State.setMigration (s : State) (q : Fin 4) (g : Migration) : State :=
  s.modQuarter q fun x => { x with migration := some g }

/-- One sector goes from the old frame to the new, with its poison marks and with what is not published of it; no L1 keeps it
under its old address. -/
def State.copySector (s : State) (g : Migration) (j : Nat) : State :=
  let a := g.old + 128 * j
  let b := g.new + 128 * j
  let s := [0, 64].foldl (fun (s : State) o => s.writeHbm (b + o) (rdBytes s.mem (a + o) 64) (s.poisoned (a + o) 64)) s
  { s with cores := s.cores.map fun c => (c.1, c.2.dropL1 a)
           torn := (s.torn.filter fun t => t.pa != b) ++ (s.torn.filter fun t => t.pa == a).map fun t => { t with pa := b } }

/-- The first `tlbi` completes, or one sector is copied while no pin is held. -/
def execMigrationSectorCopy (q : Fin 4) (s : State) : Out :=
  match (s.quarter q).migration with
  | none => .next s
  | some g =>
    if (s.quarter q).stopped || 513 ≤ g.done then .next s
    else if g.done = 0 then
      .next (s.invalidateThen g.cover fun s => s.setMigration q { g with done := 1 })
    else if s.pinnedIn (s.widen g.cover) then .next s
    else
      let j := g.done - 1
      let s := (s.copySector g j).writePte g.asid g.va (pteTransit g.old g.new (j + 1))
      .next (s.setMigration q { g with done := g.done + 1 })

/-- The old frame's counts go into the new frame's; a sum of a poisoned count is poisoned (R366). -/
def State.mergeHot (s : State) (g : Migration) : State :=
  if bitAt s.xlat.hotbase 0 then
    (List.range 3).foldl (fun s k =>
      let a := s.hotEntry g.old
      let b := s.hotEntry g.new
      (s.setHot b k (s.hotCount a k + s.hotCount b k) (s.hotBad a k || s.hotBad b k)).setHot a k 0) s
  else s

/-- The entry becomes VALID, the second `tlbi` completes, and the counts are merged once none is owed. -/
def execMigrationFinish (q : Fin 4) (s : State) : Out :=
  match (s.quarter q).migration with
  | none => .next s
  | some g =>
    if (s.quarter q).stopped || g.done < 513 then .next s
    else if g.done = 513 then
      .next ((s.writePte g.asid g.va (pteValid g.new)).setMigration q { g with done := 514 })
    else if g.done = 514 then
      .next (s.invalidateThen g.cover fun s => s.setMigration q { g with done := 515 })
    else if s.xlat.owed.any fun o => o.addr == s.hotEntry g.old then .next s
    else .next ((s.mergeHot g).modQuarter q fun x => { x with migration := none, migst := 0 })

/-! ## Residency requests and waits (R326) -/

/-- RQCONS [31:0]. Table 22-1 does not list bits [63:32]: that they drop what is written and read 0 is the model's choice
(assumption log 34). -/
def execRqconsWrite (m : Fin 4) (v : Word) (s : State) : Out :=
  .next (s.ownerWrite m 0x1290 v fun s =>
    let c : BitVec 32 := v.extractLsb' 0 32
    if 256 < (s.xlat.rqprod - c).toNat then none else some { s with xlat := { s.xlat with rqcons := c } })

/-- A waiter walks its entry again: a page still ABSENT is requested again, any other ends the wait. -/
def execResidencyRewalk (w : Waiter) (s : State) : Out :=
  match w with
  | .ctx k =>
    .next ((s.ctxAt k).waits.foldl (fun s x =>
      if (s.walk x.2.1 x.2.2.1).isAbsent then s.postResidency x.2.1 x.2.2.1 x.2.2.2
      else s.modCtxAt k fun c => { c with waits := del c.waits x.1 }) s)
  | .card id =>
    match s.cards.find? fun c => c.id == id with
    | none => .next s
    | some c =>
      match c.wait with
      | none => .next s
      | some (asid, va) =>
        if (s.walk asid va).isAbsent then .next (s.postResidency asid va (BitVec.allOnes 32))
        else .next (s.modCard id fun c => { c with wait := none })

end Sys2Proof.Machine
end

