-- ==== Sys2Proof/Machine/Faults.lean ====
section
/-! DEFINITION. Device reset (R2), errors and poison as they strike (R86, R365 to R369), contained stop and quarter
reset (R370 to R373), the journal's registers (R374), sparing (R376, R377), temperature (R378), signed images (R380)
and attestation (R382). -/

namespace Sys2Proof.Machine

/-! ## Device reset (R2, R377) -/

/-- The maps of a core take their fused values. -/
def fuseCore (c : Core) (spare : Word) (rows : Table (BitVec 16)) : Core :=
  { c with dis := bitAt spare 63, tspare := bitsAt spare 0 16, rowSpare := rows }

/-- Row entries of one core in the fused table. -/
def fusedRowsOf (t : Table (BitVec 16)) (core : Nat) : Table (BitVec 16) :=
  t.filterMap fun e => if e.1 / 128 = core then some (e.1 % 128, e.2) else none

def State.fuseAll (s : State) : State :=
  (List.range 320).foldl (fun s c =>
    let spare := lookD s.regs.fusedSpare c 0
    let rows := fusedRowsOf s.regs.fusedRows c
    if spare = 0 ∧ rows = [] then s else s.modCoreAt c fun k => fuseCore k spare rows) s

/-- The state after a device reset; fused values and installed images stay (assumption log 7). -/
def execDeviceReset (fitted : Bool) (bdfail : BitVec 12) (s : State) : Out :=
  let r := s.regs
  let regs : Regs :=
    { Regs.reset with
      fatalsum := w64 (bdfail.toNat * 2 ^ 4), mgmtOnly := !fitted || bdfail != 0, fwver := r.fwver
      fwdigest := r.fwdigest, fusedSpare := r.fusedSpare, fusedRows := r.fusedRows }
  .next (State.fuseAll { State.reset with turns := s.turns, ticks := s.ticks, regs := regs })

/-! ## Errors (R86, R365, R369) -/

/-- The physical address of a virtual one, for the error log: that of the L1's sector, else by a walk; 0 for none. -/
def State.siteAddr (s : State) (core : Nat) (asid : Fin 16) (va : Nat) : Nat :=
  match (s.coreAt core).l1Find asid va with
  | some e => e.pa + va % 128
  | none => ((s.walk asid va).physical va).getD 0

/-- Memory code, SRC, unit and address of an error site (Table 26-2, R369). The manual asks for a lane number in a tile slot
as well, and gives its bytes none: the offset in the slot is taken, which has its range (assumption log 28). -/
def State.sitePlace (s : State) : ErrSite → Nat × Bool × Nat × Nat
  | .tarnReg core lane _ _ => (1, false, core, lane)
  | .tarnTag core lane => (2, false, core, lane)
  | .stash core off => (3, false, core, stashLane off)
  | .cell core lane _ => (4, false, core, lane)
  | .tile core _ off => (5, false, core, off)
  | .l1 core asid va => (6, false, core, s.siteAddr core asid va)
  | .l2 pa => (7, true, pa / 2 ^ 36 % 16, pa)
  | .cluster cl off => (8, false, 8 * cl, clsAddr cl off)
  | .hbm pa => (9, true, pa / 2 ^ 36 % 16, pa)
  | .seep _ _ u => (10, true, u / 32, 0)
  | .tlb core asid va => (11, false, core, s.siteAddr core asid va)
  | .prefixEntry e => (12, false, 0, e)
  | .probeEntry e => (12, false, 0, 64 + e)
  | .control q => (13, false, 80 * q.val, 0)

/-- Logs an error of a site with an outcome. -/
def State.logSite (s : State) (x : ErrSite) (outcome : Nat) : State :=
  let p := s.sitePlace x
  s.logError p.1 outcome p.2.1 p.2.2.1 p.2.2.2

/-- A corrected error: it changes nothing that an agent sees, and is counted and logged. -/
def State.corrected (s : State) (x : ErrSite) : State :=
  let p := s.sitePlace x
  let key := errKey p.1 p.2.2.1 p.2.2.2
  (s.modRegs fun r => { r with errcounts := put r.errcounts key (lookD r.errcounts key 0 + 1) }).logSite x 0

/-- The valid entries of a context whose field holds the first column of entry n: an error there shows through each of them
(R79, R85; assumption log 8). -/
def Ctx.aliases (c : Ctx) (n : Fin 32) : List Nat :=
  let col := fmCol (c.fmap.get n)
  (List.finRange 32).filterMap fun m =>
    let e := c.fmap.get m
    if m = n ∨ (fmV e = true ∧ fmCol e ≤ col ∧ col < fmCol e + fmWidth e) then some m.val else none

/-- The uncorrectable outcome of a site (Table 26-2). An error in a tarn row waits for the read or the scrub that finds
it (R86). What a bit-serial pass reads from the struck column before that the manual leaves open: the model keeps the data bit and
marks only that its parity differs, as its choice (assumption log 8). -/
def State.struck (s : State) (x : ErrSite) : State :=
  match x with
  | .tarnReg core lane lc e => s.modCoreAt core fun c =>
      let bits := (((s.ctxAt (ctxNum core lc)).aliases e).map fun n => 2 ^ (32 * lc.val + n)).sum
      { c with parity := putOr 0 c.parity lane (lookD c.parity lane 0 ^^^ BitVec.ofNat 128 bits) }
  | .tarnTag core lane => s.modCoreAt core fun c => { c with tagErr := setAdd c.tagErr lane }
  | .stash core off => (s.modCoreAt core fun c => { c with stashPoison := setAdd c.stashPoison (off / 8) }).logSite x 2
  | .cell core lane n =>
    (s.modCoreAt core fun c => { c with cellPoison := setAdd c.cellPoison (lane * 16 + n.val) }).logSite x 2
  | .tile core slot off =>
    (s.modCoreAt core fun c => { c with tilePoison := setAdd c.tilePoison ((slot.val * slotBytes + off) / 16) }).logSite x 2
  | .l1 core asid va =>
    (s.logSite x 1).modCoreAt core fun c => { c with l1 := c.l1.filter fun e => !(e.asid == asid && e.va == va / 128 * 128) }
  | .l2 pa => (s.dropL2 pa).logSite x 1
  | .cluster cl off => { s with clsPoison := setAdd s.clsPoison (clsAddr cl off / 8) }.logSite x 2
  | .hbm pa => { s with memPoison := setAdd s.memPoison (pa / 64) }.logSite x 2
  | .seep k word u =>
    (s.modKernel k fun y => { y with units := y.units.map fun z =>
      if z.id = u then { z with failing := z.failing.or (some (word, true)) } else z }).logSite x 3
  | .tlb core asid va =>
    ({ s with tlbs := put s.tlbs core ((lookD s.tlbs core []).filter fun e => !e.maps asid va) }).logSite x 1
  | .prefixEntry e =>
    { s with serving := { s.serving with prefix_ := put s.serving.prefix_ e (lookD s.serving.prefix_ e 0 &&& ~~~(BitVec.ofNat 256 (2 ^ 184))) } }.logSite x 1
  | .probeEntry e =>
    { s with serving := { s.serving with probes := put s.serving.probes e (lookD s.serving.probes e 0 &&& ~~~(1 : BitVec 256)) } }.logSite x 1
  | .control q => (s.containedStop q (Cause.code .contained) 0).logSite x 4

def execMemoryError (site : ErrSite) (uncorrectable : Bool) (s : State) : Out :=
  .next (if uncorrectable then s.struck site else s.corrected site)

/-- The first register of a context whose field shows a parity error in a lane. -/
def Core.badField (c : Core) (x : Ctx) (lane lc : Nat) : Option Nat :=
  (List.range 32).find? fun n =>
    fmV (x.fmap.get (Fin.ofNat 32 n)) && (lookD c.parity lane 0).getLsbD (32 * lc + n)

/-- The sequencer scrubs one row: a context learns of an error at its next vector instruction (R86). Which context raises one
in the tag columns, which all contexts of a core share, the manual does not say: every live context of the core does, and a
field error is raised by the contexts whose field map shows it, as the model's choice (assumption log 8). -/
def execTarnScrub (core : Fin 320) (lane : BitVec 14) (s : State) : Out :=
  let c := s.coreAt core
  .next ((List.range 4).foldl (fun s lc =>
    let k := ctxNum core lc
    let x := s.ctxAt k
    if x.status == .idle || x.status == .ended || x.scrub.isSome then s
    else
      let entry := if c.tagErr.contains lane.toNat then some (31, 2) else (c.badField x lane.toNat lc).map fun n => (n, 1)
      match entry with
      | some (n, code) => s.modCtxAt k fun y => { y with scrub := some (tarnVal lane.toNat n lc, code) }
      | none => s) s)

/-! ## Contained stop and quarter reset (R370, R371) -/

/-- An arrival of work that a reset drops. One that cannot be made now is not made: only an object in a stash can be held,
that of the issuing core, which the reset clears. -/
def State.arriveBest (s : State) (a : Agent) (p : Word) (n : Nat) : State :=
  match engArrive a p n s with
  | .ok (_, s) => s
  | .error _ => s

/-- Whether a writer belongs to the work of a quarter that a reset drops. -/
def Writer.dropped (w : Writer) (q : Fin 4) (cards : List Card) (gathers : List Gather) (kernels : List Kernel) : Bool :=
  match w with
  | .ctx k => quarterOf (coreOfCtx k) == q
  | .card id => cards.any fun c => c.id == id
  | .gather id => gathers.any fun g => g.id == id
  | .kernel id => kernels.any fun k => k.id == id
  | .stash core => quarterOf core == q
  | .saved _ _ k => quarterOf (coreOfCtx k) == q
  | .peer | .host => false

/-- Work of a quarter makes its arrivals with its full n; a claim is released first (step 1 of R370). Stores whose access has
begun have performed by then, their stop point (Table 21-2). -/
def State.dropWork (s : State) (q : Fin 4) : State :=
  let mine := fun (core : Nat) => quarterOf core == q
  let s := ((s.pend.map Pending.ctx).eraseDups.filter fun k => mine (coreOfCtx k)).foldl (fun s k =>
    match s.drainAct k with
    | .ok s => s
    | .error _ => s) s
  let cards := s.cardsOf q
  let gathers := s.gathers.filter fun g => mine g.agent.core
  let kernels := s.kernels.filter fun k => mine k.agent.core
  let s : State := { s with
    cards := s.cards.filter fun c => cardQuarter c != q
    gathers := s.gathers.filter fun g => !mine g.agent.core
    kernels := s.kernels.filter fun k => !mine k.agent.core
    sent := s.sent.filter fun x => match x.owner with
      | .issuer k _ => !mine (coreOfCtx k)
      | .card id => !cards.any fun c => c.id == id
    pend := s.pend.filter fun p => !mine (coreOfCtx p.ctx)
    parked := s.parked.filter fun p =>
      !(p.train.srcDev == bitsAt s.regs.devnum 0 10 && sourceQuarter p.train.src == q) }
  let s := (s.publishOf fun w => w.dropped q cards gathers kernels).unpark
  let s := cards.foldl (fun s c =>
    let s := if c.phase.isReleased then s else s.arriveBest c.agent (c.regs.get 6) c.n
    s.arriveBest c.agent (c.regs.get 7) c.n) s
  let s := gathers.foldl (fun s g => s.arriveBest g.agent g.vis g.arrives) s
  kernels.foldl (fun s k =>
    if k.stage = .running ∨ k.stage = .arriving then s.arriveBest k.agent k.vis k.rlines else s) s

/-- What the contexts of a gang wrote whose save record is discarded stands, and is published (R370). -/
def State.publishGone (s : State) : State :=
  s.publishOf fun w => match w with
    | .saved l g _ => (List.finRange 4).all fun q => (savedOf (s.quarter q) l g).isNone
    | _ => false

/-- Launches of the store complete with STATE 2, at once or when their DONEBAR can be reached; gangs of others that ran or
were saved here are over, and their launches take STATE 2 when they complete. Gangs of the store's launches that run in
other quarters run on, and no saved one returns (step 2; assumption log 32). -/
def State.dropLaunches (s : State) (q : Fin 4) : State :=
  let here := fun (l : Launch) (g : Gang) =>
    l.quarter == q.val || (g.fate == .running && g.quarter == q) ||
    (g.fate == .saved && (savedOf (s.quarter q) l.id g.num).isSome)
  let s : State := { s with launches := s.launches.map fun l =>
    { l with gangs := l.gangs.map fun g => if here l g then { g with fate := .ended } else g
             ready := l.ready || l.quarter == q.val
             lost := l.lost || l.quarter == q.val || l.gangs.any (here l) } }
  let s := (s.launches.filter fun l => l.quarter == q.val).foldl (fun s l => (s.finishLaunch l 2).getD s) s
  let kept := fun (y : Saved) => s.launches.any fun l => l.id == y.launch && l.quarter != q.val
  State.publishGone { s with quarters := s.quarters.map fun x => { x with saves := x.saves.filter kept } }

/-- The parts of a core that a quarter reset clears (step 3). -/
def Core.quarterClear (c : Core) : Core :=
  { c with stash := [], stashPoison := [], lines := [], tiles := [], tilePoison := [], slots := .replicate 32 .reset
           cells := [], cellPoison := [], waiting := [], flight := [], hist := [], due := [], scores := [] }

def Quarter.clear (x : Quarter) : Quarter :=
  { x with tqprod := 0, tqcons := 0, ring := [], saves := [], swap := none, stopped := false }

/-- The steps of R370 for a stopped quarter. -/
def State.resetQuarter (s : State) (q : Fin 4) : State :=
  let s := (s.dropWork q).dropLaunches q
  let mine := fun (core : Nat) => quarterOf core == q
  let s := { s with
    ctxs := s.ctxs.filter fun (c : Nat × Ctx) => !mine (coreOfCtx c.1)
    cores := s.cores.map fun (c : Nat × Core) => if mine c.1 then (c.1, c.2.quarterClear) else c }
  (s.modQuarter q Quarter.clear).modRegs fun r => { r with fatalsum := r.fatalsum &&& ~~~(w64 (2 ^ (16 + q.val))) }

def errctlOff : Nat := 0x20_0000

/-- A write of ERRCTL: refused when it names a quarter that is not stopped, or sets another bit (R364, R370, R371). -/
def State.errctl (s : State) (m : Fin 4) (v : Word) : State :=
  s.ownerWrite m errctlOff v fun s =>
    let qs := (List.finRange 4).filter fun q => bitAt v q.val
    if v >>> 5 != 0 || !qs.all fun q => (s.quarter q).stopped then none
    else
      let s := qs.foldl State.resetQuarter s
      some (if bitAt v 4 then (List.finRange 4).foldl (fun s q => s.containedStop q (Cause.code .contained) 0) s else s)

def execQrst (m : Fin 4) (v : Word) (s : State) : Out := .next (s.errctl m v)
def execDstop (m : Fin 4) (v : Word) (s : State) : Out := .next (s.errctl m (v ||| 16))

/-- FATALSUM after a write: LATCH bits written 1 clear, and with the last of them SEQ, CAUSE and QFIRST (Table 26-3). -/
def fatalWrite (f v : Word) : Word :=
  let f' := f &&& ~~~(v &&& 15)
  if bitsAt f' 0 4 = 0 then f' &&& w64 0xFFFF0 else f'

/-! ## The journal's registers (R374) -/

def journalOff (q : Fin 4) (n : Nat) : Nat := 0x20_0080 + 0x20 * q.val + 8 * n

/-- Entries that JSIZE may name. -/
def journalSizeOk (n : Nat) : Bool := (List.range 13).any fun k => n == 2 ^ (k + 4)

/-- Writes of JBASE (0), JSIZE (1) and JCONS (2). Bits [63:24] of JBASE, bits [30:17] and [63:32] of JSIZE, and bits [63:32] of
JCONS, which R374 lists neither as a field nor as reserved, drop what is written and read 0, as the model's choice (assumption
log 32). -/
def execJournalConfigWrite (m : Fin 4) (q : Fin 4) (reg : Fin 3) (v : Word) (s : State) : Out :=
  let off := if reg = 2 then journalOff q 3 else journalOff q reg
  .next (s.ownerWrite m off v fun s =>
    let x := s.quarter q
    if reg = 2 then some (s.modQuarter q fun x => { x with jcons := v.extractLsb' 0 32 })
    else if x.jprod != x.jcons then none
    else if reg = 0 then some (s.modQuarter q fun x => { x with jbase := w64 (bitsAt v 0 24) })
    else if journalSizeOk (bitsAt v 0 17) then
      some (s.modQuarter q fun x => { x with jsize := v &&& w64 0x8001FFFF })
    else none)

/-! ## Sparing (R376, R377) -/

def spareOff (c : Nat) : Nat := 0x20_0400 + 8 * c
def rowSpareOff (c w : Nat) : Nat := 0x21_0000 + 0x100 * c + 8 * w

/-- A gang whose record binds it to a disabled core is over: each of its contexts writes a CLASS 2 record while there
is room (R372). -/
def State.endBound (s : State) (q : Fin 4) (x : Saved) (core : Nat) : State :=
  let s := x.ctxs.foldl (fun (s : State) c =>
    if (s.quarter q).occupancy < 256 && !(s.quarter q).stopped then
      s.modQuarter q fun y => y.writeRecord
        { seq := 0, gen := c.2.ten.gen, team := BitVec.ofNat 32 x.gang, trap := { cause := .contained, val := 0 }
          pc := c.2.thread.pc, core := core, ctx := lcOfCtx c.1, cls := 2, card := none }
    else s) s
  ((s.modQuarter q fun y => { y with saves := y.saves.filter fun z => !(z.launch == x.launch && z.gang == x.gang) }).publishGone.setGang
    x.launch x.gang fun g => { g with fate := .ended }).modLaunch x.launch fun l => { l with lost := true }

/-- Ends the saved gangs that a disabled core binds. -/
def State.endAllBound (s : State) (core : Nat) : State :=
  (List.finRange 4).foldl (fun (s : State) q =>
    ((s.quarter q).saves.filter fun x => x.ctxs.any fun c => coreOfCtx c.1 == core).foldl
      (fun s x => s.endBound q x core) s) s

/-- At most one spared tarn for each lane group. -/
def tspareOk (n : Nat) : Bool := (List.range 4).all fun g => [0, 1, 2, 4, 8].contains (n / 16 ^ g % 16)

def execSpareWrite (m : Fin 4) (core : Fin 320) (v : Word) (s : State) : Out :=
  .next (s.ownerWrite m (spareOff core) v fun s =>
    if !s.coreEmpty core || !tspareOk (bitsAt v 0 16) then none
    else
      let s := s.modCoreAt core fun c => { c with dis := bitAt v 63, tspare := bitsAt v 0 16 }
      some (if bitAt v 63 then s.endAllBound core else s))

/-- Whether entry n of a row spare table is one that R376 accepts beside the others. What becomes of an entry with bit 14 set, which
is to be zero, R376 does not say: the model refuses it, as its choice (assumption log 35). -/
def rowEntryOk (t : Table (BitVec 16)) (n : Nat) : Bool :=
  let e := lookD t n 0
  !bitAt e 14 && (!bitAt e 15 || (bitsAt e 10 4 == n / 8 &&
    (List.range 128).all fun k => k == n || !bitAt (lookD t k 0) 15 || bitsAt (lookD t k 0) 0 14 != bitsAt e 0 14))

def execRowSpareTableWrite (m : Fin 4) (core : Fin 320) (w : Fin 32) (v : Word) (s : State) : Out :=
  .next (s.ownerWrite m (rowSpareOff core w) v fun s =>
    let t := (List.range 4).foldl (fun (t : Table (BitVec 16)) j => putOr 0 t (4 * w.val + j) (v.extractLsb' (16 * j) 16))
      (s.coreAt core).rowSpare
    if s.coreEmpty core && (List.range 4).all fun j => rowEntryOk t (4 * w.val + j) then
      some (s.modCoreAt core fun c => { c with rowSpare := t })
    else none)

/-! ## Temperature (R378) -/

/-- The sensor of a quarter reports its temperature × 16 (R7, Table 26-5; assumption log 43). -/
def execThermalBandChange (q : Fin 4) (temp : BitVec 16) (s : State) : Out :=
  let t := temp.toNat
  let s := s.modQuarter q fun x =>
    { x with temp := temp, slow := decide (105 * 16 < t) || (x.slow && decide (100 * 16 ≤ t))
             hold := decide (115 * 16 ≤ t) || (x.hold && decide (110 * 16 ≤ t)) }
  .next (if 125 * 16 ≤ t then s.containedStop q (Cause.code .contained) 0 else s)

/-! ## Signed images (R380) -/

/-- Bytes of the body of a repair image (R377). -/
def repairBytes : Nat := 84480

/-- An image's header (Table 26-6). -/
def imgMagic (h : BitVec 1536) : Nat := bitsAt h 0 32
def imgType (h : BitVec 1536) : Nat := bitsAt h 32 16
def imgKey (h : BitVec 1536) : Nat := bitsAt h 48 16
def imgVersion (h : BitVec 1536) : Nat := bitsAt h 64 32
def imgLength (h : BitVec 1536) : Nat := bitsAt h 128 64
def imgDigest (h : BitVec 1536) : BitVec 512 := h.extractLsb' 512 512
def imgSig (h : BitVec 1536) : BitVec 512 := h.extractLsb' 1024 512

/-- Check 2 of Table 26-7. -/
def imgHeaderOk (h : BitVec 1536) (a : Nat) : Bool :=
  imgMagic h == 0x0057464E && decide (1 ≤ imgType h ∧ imgType h ≤ 4) && bitsAt h 96 32 == 0 && bitsAt h 192 320 == 0 &&
  decide (1 ≤ imgLength h ∧ imgLength h ≤ 2 ^ 32) && (imgType h != 4 || imgLength h == repairBytes) &&
  decide (a + 192 + imgLength h ≤ hbmBytes)

/-- Whether every gang is gone, saved and resident, and every store empty (check 6). -/
def State.deviceQuiet (s : State) : Bool :=
  s.launches.isEmpty && ((List.finRange 4).all fun q => (s.quarter q).saves.isEmpty) && s.ctxs.all fun c => !s.present c.1

/-- The first check that fails, 0 when all pass. -/
def State.checkImage (s : State) (h : BitVec 1536) (a : Nat) : Nat :=
  if !imgHeaderOk h a then 2
  else
    let body := rdBytes s.mem (a + 192) (imgLength h)
    if s.poisoned a (192 + imgLength h) || Config.sha512 (rdBytes s.mem a 64 ++ body) != imgDigest h then 3
    else if 3 < imgKey h || Config.revoked (imgKey h) || !Config.verify (imgKey h) (imgDigest h) (imgSig h) then 4
    else if imgType h ≤ 3 && decide (imgVersion h < (lookD s.regs.fwver (imgType h) 0).toNat) then 5
    else if imgType h ≤ 3 && !s.regs.mgmtOnly && !s.deviceQuiet then 6
    else 0

/-- The fused maps with the entries of a repair image added (R377). -/
def Regs.repair (r : Regs) (body : List Byte) : Regs :=
  { r with
    fusedSpare := (List.range 320).foldl (fun t c =>
      putOr 0 t c (lookD t c 0 ||| (w64 (wordsOf 8 body c) &&& w64 (2 ^ 63 + 0xFFFF)))) r.fusedSpare
    fusedRows := (List.range (320 * 128)).foldl (fun t n =>
      let e : BitVec 16 := BitVec.ofNat 16 (wordsOf 2 (body.drop 2560) n)
      if bitAt e 15 then put t n e else t) r.fusedRows }

/-- Installs an image that passed. -/
def State.install (s : State) (h : BitVec 1536) (a : Nat) : State :=
  if imgType h = 4 then s.modRegs fun r => r.repair (rdBytes s.mem (a + 192) repairBytes)
  else
    s.modRegs fun r =>
      { r with fwver := put r.fwver (imgType h) (w64 (imgVersion h)), fwdigest := put r.fwdigest (imgType h) (imgDigest h) }

def fwcmdOff : Nat := 0x20_0108

/-- A write of FWCMD with 1 is counted and starts a command on the image at FWADDR; while one runs, check 1 of Table 26-7
fails. -/
def execFwcmd (m : Fin 4) (v : Word) (s : State) : Out :=
  .next (s.ownerWrite m fwcmdOff v fun s =>
    if bitsAt v 0 3 != 1 then none
    else
      let r := s.regs
      let n := (bitsAt r.fwstat 32 32 + 1) % 2 ^ 32 * 2 ^ 32
      some (s.modRegs fun r =>
        if r.fwrun.isSome then { r with fwstat := w64 (n + 1) }
        else { r with fwstat := w64 (n + bitsAt r.fwstat 0 4), fwrun := some r.fwaddr }))

/-- The running command ends: the other checks of Table 26-7, the installation, and FWSTAT [3:0]. -/
def State.imageDone (s : State) : State :=
  match s.regs.fwrun with
  | none => s
  | some p =>
    let a := p.toNat
    let h : BitVec 1536 := BitVec.ofNat 1536 (rdVal s.mem a 192)
    let st := s.checkImage h a
    (if st = 0 then s.install h a else s).modRegs fun r =>
      { r with fwstat := w64 (bitsAt r.fwstat 32 32 * 2 ^ 32 + st), fwrun := none }

/-! ## Attestation (R382) -/

/-- IDREG (Table 24-4). -/
def idreg : Word := w64 (0x4D52 + Config.stepping.toNat * 2 ^ 16)

/-- The DIS bits of the cores. -/
def State.disBits (s : State) : Nat :=
  (List.range 320).foldl (fun n c => if (s.coreAt c).dis then n + 2 ^ c else n) 0

/-- Bytes 0 to 383 of a report for a nonce. -/
def State.reportBody (s : State) (nonce : Nat) : List Byte :=
  let r := s.regs
  let ver := fun (t : Nat) => (lookD r.fwver t 0).toNat % 2 ^ 32
  let dig := fun (t : Nat) => (lookD r.fwdigest t 0).toNat
  leBytes 384 (nonce + Config.serial.toNat * 2 ^ 256 + idreg.toNat * 2 ^ 320 + ver 1 * 2 ^ 384 + ver 2 * 2 ^ 416 +
    ver 3 * 2 ^ 448 + dig 1 * 2 ^ 512 + dig 2 * 2 ^ 1024 + dig 3 * 2 ^ 1536 + r.fatalsum.toNat * 2 ^ 2048 +
    s.owner.word.toNat * 2 ^ 2112 + s.disBits * 2 ^ 2240)

def attcmdOff : Nat := 0x20_0120

/-- A write of ATTCMD [0] = 1 starts the report at ATTADDR; it is refused while one is written. -/
def execAttcmd (m : Fin 4) (v : Word) (s : State) : Out :=
  .next (s.ownerWrite m attcmdOff v fun s =>
    if s.regs.attrun.isSome || hbmBytes < s.regs.attaddr.toNat + 512 then none
    else if !bitAt v 0 then some s
    else some (s.modRegs fun r => { r with attrun := some r.attaddr }))

/-- The report is written with the nonce that stands at its address; a poisoned nonce poisons the granules made from it
(R366, R368). -/
def State.reportDone (s : State) : State :=
  match s.regs.attrun with
  | none => s
  | some p =>
    let a := p.toNat
    let bad := s.poisoned a 32
    let body := s.reportBody (rdVal s.mem a 32)
    let d := Config.sha512 body
    (((s.writeHbm a (body.take 64) bad).writeHbm (a + 64) (body.drop 64)).writeHbm (a + 384)
      (leBytes 64 d.toNat ++ leBytes 64 (Config.sign d).toNat) bad).modRegs fun r => { r with attrun := none }

end Sys2Proof.Machine
end

