-- ==== Sys2Proof/Machine/Mgmt.lean ====
section
/-! DEFINITION. The host's accesses through BAR4 and its MSI-X vectors (R350, R351), and the management window as
masters write and read it (R356, R358, R364, Tables 24-4 and 26-1). -/

namespace Sys2Proof.Machine

/-! ## BAR4 (R350, R366) -/

/-- The host reads HBM4: a frame that breaks R20 reads as all ones, a poisoned granule sets EP. -/
def execHostBar4Read (pa n : Nat) (s : State) : Out :=
  let byte := fun (i : Nat) => if pa + i < hbmBytes then rdByte s.mem (pa + i) else 0xFF
  .next { s with host := { s.host with read := (List.range n).map byte, ep := n != 0 && s.poisoned pa n } }

/-- The host writes HBM4; bytes in a frame that breaks R20 are discarded, and a DMWr to them is aborted. -/
def execHostBar4Write (pa : Nat) (bytes : List Byte) (dmwr : Bool) (s : State) : Out :=
  let s1 := (s.noteTorn .host pa bytes).writeHbm pa (bytes.take (hbmBytes - pa))
  .next (if dmwr then { s1 with host := { s1.host with aborted := decide (hbmBytes < pa + bytes.length) } } else s1)

/-! ## MSI-X (R351) -/

/-- Messages that wait for vectors that are masked no more are sent. -/
def HostLink.release (h : HostLink) : HostLink :=
  h.pending.foldl (fun h v => if h.masked v then h else h.signal v) h

/-- One byte of the table is written; its entries are of 16 bytes. -/
def HostLink.putByte (h : HostLink) (i : Nat) (b : Byte) : HostLink :=
  let e := h.entry (i / 16)
  let at_ := 8 * (i % 16)
  { h with msix := put h.msix (i / 16) ((e &&& ~~~(BitVec.ofNat 128 (255 * 2 ^ at_))) ||| BitVec.ofNat 128 (b.toNat * 2 ^ at_)) }

/-- The host writes bytes of the table; the ownership of the window does not bear on it (R351). -/
def State.msixWrite (s : State) (off : Nat) (bytes : List Byte) : State :=
  let h := bytes.zipIdx.foldl (fun (h : HostLink) x => if off + x.2 < 0x8000 then h.putByte (off + x.2) x.1 else h) s.host
  { s with host := h.release }

/-- A vector is unmasked: bit 0 of its control word is cleared. -/
def execMsixUnmask (vector : BitVec 11) (s : State) : Out :=
  let v := vector.toNat
  let h := { s.host with msix := put s.host.msix v (s.host.entry v &&& ~~~(BitVec.ofNat 128 (2 ^ 96))) }
  .next { s with host := if h.pending.contains v then h.signal v else h }

/-! ## Reading BAR0 (Table 24-1) -/

/-- A byte of BAR0: WDRAW reads 0. -/
def HostLink.bar0 (h : HostLink) (off : Nat) : Byte :=
  let byteOf := fun (v k : Nat) => BitVec.ofNat 8 (v / 2 ^ (8 * k))
  if off < 0x4000 then rdByte h.windows off
  else if off < 0x4200 then byteOf (h.wstat.get (Fin.ofNat 64 ((off - 0x4000) / 8))).toNat (off % 8)
  else if 0x4208 ≤ off ∧ off < 0x4210 then byteOf h.wdres.toNat (off % 8)
  else if 0x8000 ≤ off ∧ off < 0x1_0000 then byteOf (h.entry ((off - 0x8000) / 16)).toNat (off % 16)
  else if 0x1_0000 ≤ off ∧ off < 0x1_0100 then
    BitVec.ofNat 8 ((List.range 8).foldl (fun n j => n + if h.pending.contains (8 * (off - 0x1_0000) + j) then 2 ^ j else 0) 0)
  else 0

/-- The host reads n bytes of BAR0. -/
def State.bar0Read (s : State) (off n : Nat) : State :=
  { s with host := { s.host with read := (List.range n).map fun i => s.host.bar0 (off + i), ep := false } }

/-! ## Registers without a row of their own (R356) -/

/-- No migration runs (Table 22-1). -/
def State.noMigration (s : State) : Bool := (List.finRange 4).all fun q => (s.quarter q).migst != 1

/-- The effect of an owner's write of a register that has no row of its own; nothing for one it may not write. Table 22-1 does
not list bits [15:1] of HOTBASE: that they drop what is written and read 0 is the model's choice (assumption log 34). So it is
for bits [63:10] of DEVNUM, which Table 24-4 does not list, and that PORTERR, to which it gives no access code, is read-only and
refuses an owner's write with status 2 (assumption log 35). -/
def plainWrite (off : Nat) (v : Word) (s : State) : Option State :=
  if off = 0x500 then some (s.modRegs fun r => { r with devnum := w64 (bitsAt v 0 10) })
  else if off = 0x508 then some (s.modRegs fun r => { r with domctl := v })
  else if off = 0x600 then some (s.modRegs fun r => { r with aithresh := w64 (bitsAt v 0 32) })
  else if off = 0x608 then some (s.modRegs fun r => { r with fatalsum := fatalWrite r.fatalsum v })
  else if 0x1000 ≤ off ∧ off < 0x1080 then
    if s.noMigration then
      some { s with xlat := { s.xlat with
        asroot := s.xlat.asroot.set ((off - 0x1000) / 8 % 16) (v &&& w64 0xFFFFFF0001) (Nat.mod_lt _ (by decide)) } }
    else none
  else if 0x1080 ≤ off ∧ off < 0x1280 then
    some { s with xlat := { s.xlat with
      was := s.xlat.was.set ((off - 0x1080) / 8 % 64) (v &&& 15) (Nat.mod_lt _ (by decide)) } }
  else if off = 0x1280 then
    if s.noMigration then some { s with xlat := { s.xlat with hotbase := v &&& w64 0xFFFFFF0001 } } else none
  else if off = 0x20_0100 then some (s.modRegs fun r => { r with fwaddr := v &&& ~~~(w64 63) })
  else if off = 0x20_0118 then some (s.modRegs fun r => { r with attaddr := v &&& ~~~(w64 63) })
  else none

/-! ## The management window -/

/-- A write of the register n of quarter q (Table 24-4). -/
def quarterWrite (m q : Fin 4) (n : Nat) (v : Word) (s : State) : Out :=
  match n with
  | 0 => execQuantumWrite m q v s
  | 1 => execSavebaseWrite m q v s
  | 2 => execSavelimWrite m q v s
  | 4 => execTqconsWrite m q v s
  | 5 => if bitAt v 32 then execTqactTerminate m q v s else execTqactReplay m q v s
  | 6 => execMigvaWrite m q v s
  | 7 => execMigrationStart m q v s
  | n => .next (s.ownerWrite m (quarterOff q n) v fun _ => none)

/-- OWNCMD by its ACT; a code that names no command is refused. -/
def ownWrite (m : Fin 4) (v : Word) (s : State) : Out :=
  match bitsAt v 0 3 with
  | 1 => execClaim m v s
  | 2 => execRenew m v s
  | 3 => execOffer m v s
  | 4 => execAccept m v s
  | 5 => execRelease m v s
  | _ => .next (s.refuse m ownCmdOff v 2)

/-- A write of 64 bits at an aligned offset. -/
def State.mgmtWrite (s : State) (m : Fin 4) (off : Nat) (v : Word) : Out :=
  if off = ownCmdOff then ownWrite m v s
  else if off = mlogconsOff then execMlogcons m v s
  else if off = portctlOff then execPortctl m v s
  else if off = 0x1290 then execRqconsWrite m v s
  else if off = 0x12A0 then execTlbia m v s
  else if off = 0x12B0 then execRpclr m v s
  else if off = pfxinvOff then execPfxinv m v s
  else if 0x1_0000 ≤ off ∧ off < 0x1_4000 ∧ off % 0x1000 < 72 then
    quarterWrite m (Fin.ofNat 4 ((off - 0x1_0000) / 0x1000)) (off % 0x1000 / 8) v s
  else if 0x12_1000 ≤ off ∧ off < 0x12_3000 then
    let e : Fin 256 := Fin.ofNat 256 ((off - 0x12_1000) / 32)
    let w : Fin 4 := Fin.ofNat 4 (off / 8)
    if w = 0 then execProbeCommit m e v s else execProbeStageWrite m e w v s
  else if off = errctlOff then execQrst m v s
  else if 0x20_0080 ≤ off ∧ off < 0x20_0100 ∧ off % 0x20 ≠ 16 then
    let n := off % 0x20 / 8
    execJournalConfigWrite m (Fin.ofNat 4 ((off - 0x20_0080) / 0x20)) (if n = 3 then 2 else Fin.ofNat 3 n) v s
  else if off = fwcmdOff then execFwcmd m v s
  else if off = attcmdOff then execAttcmd m v s
  else if 0x20_0400 ≤ off ∧ off < 0x20_0E00 then execSpareWrite m (Fin.ofNat 320 ((off - 0x20_0400) / 8)) v s
  else if 0x21_0000 ≤ off ∧ off < 0x22_4000 then
    execRowSpareTableWrite m (Fin.ofNat 320 ((off - 0x21_0000) / 0x100)) (Fin.ofNat 32 (off / 8)) v s
  else .next (s.ownerWrite m off v (plainWrite off v))

/-- Registers that every master may write. -/
def openOff (off : Nat) : Bool := off == ownCmdOff || off == mlogconsOff

/-- What a write answers a DMWr of master 0: Completer Abort unless its status is 0. One that waits (TLBIA) has no outcome yet,
and will complete with status 0. -/
def State.answer (s : State) (m : Fin 4) (dmwr waits : Bool) : State :=
  if m = 0 && dmwr then { s with host := { s.host with aborted := !waits && bitsAt (s.owner.mstat.get 0) 0 2 != 0 } } else s

/-- A write of a master: bytes at an offset of the window. One of another size or alignment is refused, with status 1
where the master may not write there at all (assumption log 29). -/
def execMgmtRegisterWrite (m : Fin 4) (off : Nat) (bytes : List Byte) (dmwr : Bool) (s : State) : Out :=
  let o := off / 8 * 8
  if off % 8 ≠ 0 ∨ bytes.length ≠ 8 then
    let st := if s.owner.own = m.val ∨ openOff o = true then 2 else 1
    .next ((s.refuse m o (placedValue off bytes) st).answer m dmwr false)
  else
    match s.mgmtWrite m off (w64 (leVal bytes)) with
    | .next t => .next (t.answer m dmwr (off == 0x12A0 && s.owner.own == m.val && !t.xlat.tlbia.isEmpty))
    | x => x

/-! ## Reading the window (R356) -/

/-- A trap record as the ring holds it (Table 10-4). -/
def TrapRec.bits (r : TrapRec) : Nat :=
  Cause.code r.trap.cause + r.cls * 2 ^ 8 + r.ctx * 2 ^ 10 + r.core * 2 ^ 16 + r.pc.toNat * 2 ^ 64 +
  r.trap.val.toNat * 2 ^ 128 + r.trap.idx0.toNat * 2 ^ 192 + r.trap.idx1.toNat * 2 ^ 256 +
  r.trap.idx2.toNat * 2 ^ 320 + r.team.toNat * 2 ^ 384 + r.gen.toNat * 2 ^ 416 + r.seq.toNat * 2 ^ 448

/-- A residency request as the ring holds it (R326). -/
def requestBits (e : Nat × Fin 16 × BitVec 32) : Nat := e.1 * 2 ^ 16 + e.2.1.val * 2 ^ 60 + e.2.2.toNat * 2 ^ 64

/-- Word k of a number. -/
def wordAt (n k : Nat) : Word := w64 (n / 2 ^ (64 * k))

/-- Register n of quarter q as it reads. -/
def Quarter.read (x : Quarter) (n : Nat) : Word :=
  match n with
  | 0 => x.quantum | 1 => x.savebase | 2 => x.savelim | 3 => x.tqprod.zeroExtend 64 | 4 => x.tqcons.zeroExtend 64
  | 6 => x.migva | 8 => w64 x.migst | _ => 0

/-- THERM (Table 26-1). -/
def Quarter.therm (x : Quarter) : Word :=
  w64 (x.temp.toNat + (if x.slow then 2 ^ 16 else 0) + (if x.hold then 2 ^ 17 else 0))

/-- SPARE of a core (Table 26-4). -/
def Core.spare (c : Core) : Word := w64 (c.tspare + if c.dis then 2 ^ 63 else 0)

/-- Four entries of a row spare table. -/
def Core.spareWord (c : Core) (w : Nat) : Word :=
  w64 ((List.range 4).foldl (fun n j => n + (lookD c.rowSpare (4 * w + j) 0).toNat * 2 ^ (16 * j)) 0)

/-- The identity and ownership registers, below 0x500. -/
def State.readIdentity (s : State) (off : Nat) : Word :=
  let o := s.owner
  if off = 0 then idreg
  else if off = 8 then o.word
  else if 0x20 ≤ off ∧ off < 0x40 then o.mstat.get (Fin.ofNat 4 (off / 8))
  else if off = 0x40 then o.mlogprod.zeroExtend 64
  else if off = 0x48 then o.mlogcons.zeroExtend 64
  else if 0x100 ≤ off ∧ off < 0x500 then wordAt (lookD o.mlog ((off - 0x100) / 16) 0).toNat (off / 8 % 2)
  else 0

/-- The fabric, translation and quarter registers, from 0x500 on. Table 24-4 gives PORTCTL (0x510) no access code: that it
reads 0, as a WO register does, is the model's choice (assumption log 35). -/
def State.readDevice (s : State) (off : Nat) : Word :=
  let r := s.regs
  let x := s.xlat
  if off = 0x500 then r.devnum
  else if off = 0x508 then r.domctl
  else if off = 0x518 then r.porterr
  else if off = 0x600 then r.aithresh
  else if off = 0x608 then r.fatalsum
  else if 0x1000 ≤ off ∧ off < 0x1080 then x.asroot.get (Fin.ofNat 16 (off / 8))
  else if 0x1080 ≤ off ∧ off < 0x1280 then x.was.get (Fin.ofNat 64 ((off - 0x1080) / 8))
  else if off = 0x1280 then x.hotbase
  else if off = 0x1288 then x.rqprod.zeroExtend 64
  else if off = 0x1290 then x.rqcons.zeroExtend 64
  else if 0x1_0000 ≤ off ∧ off < 0x1_4000 ∧ off % 0x1000 < 72 then
    (s.quarter (Fin.ofNat 4 ((off - 0x1_0000) / 0x1000))).read (off % 0x1000 / 8)
  else 0

/-- The rings and tables. -/
def State.readRings (s : State) (off : Nat) : Word :=
  if 0x10_0000 ≤ off ∧ off < 0x11_0000 then
    match look (s.quarter (Fin.ofNat 4 ((off - 0x10_0000) / 0x4000))).ring (off % 0x4000 / 64) with
    | some r => wordAt r.1.bits (off / 8 % 8)
    | none => 0
  else if 0x11_0000 ≤ off ∧ off < 0x11_1000 then
    match look s.xlat.ring ((off - 0x11_0000) / 16) with
    | some e => wordAt (requestBits e) (off / 8 % 2)
    | none => 0
  else if 0x12_0000 ≤ off ∧ off < 0x12_0800 then wordAt (s.pentry ((off - 0x12_0000) / 32)).toNat (off / 8 % 4)
  else if 0x12_1000 ≤ off ∧ off < 0x12_3000 then wordAt (s.probe ((off - 0x12_1000) / 32)).toNat (off / 8 % 4)
  else 0

/-- The error, journal, firmware and repair registers (Table 26-1). -/
def State.readRepair (s : State) (off : Nat) : Word :=
  let r := s.regs
  if off = 0x20_0010 then r.errprod.zeroExtend 64
  else if 0x20_0040 ≤ off ∧ off < 0x20_0060 then (s.quarter (Fin.ofNat 4 (off / 8))).therm
  else if 0x20_0080 ≤ off ∧ off < 0x20_0100 then
    let x := s.quarter (Fin.ofNat 4 ((off - 0x20_0080) / 0x20))
    match off % 0x20 / 8 with
    | 0 => x.jbase | 1 => x.jsize | 2 => x.jprod.zeroExtend 64 | _ => x.jcons.zeroExtend 64
  else if off = 0x20_0100 then r.fwaddr
  else if off = 0x20_0110 then r.fwstat
  else if off = 0x20_0118 then r.attaddr
  else if off = 0x20_0128 then (if r.attrun.isSome then 1 else 0)
  else if 0x20_0200 ≤ off ∧ off < 0x20_0220 then wordAt Config.devPub.toNat (off / 8 % 4)
  else if 0x20_0220 ≤ off ∧ off < 0x20_0260 then wordAt Config.devPSig.toNat ((off - 0x20_0220) / 8)
  else if 0x20_0400 ≤ off ∧ off < 0x20_0E00 then (s.coreAt ((off - 0x20_0400) / 8)).spare
  else if 0x20_1000 ≤ off ∧ off < 0x20_3000 then wordAt (lookD r.errlog ((off - 0x20_1000) / 32) 0).toNat (off / 8 % 4)
  else if 0x21_0000 ≤ off ∧ off < 0x22_4000 then (s.coreAt ((off - 0x21_0000) / 0x100)).spareWord (off / 8 % 32)
  else 0

/-- What a master reads at an aligned offset; offsets not listed read as zero. -/
def State.mgmtRead (s : State) (off : Nat) : Word :=
  if off < 0x500 then s.readIdentity off
  else if off < 0x10_0000 then s.readDevice off
  else if off < 0x20_0000 then s.readRings off
  else s.readRepair off

/-- A master reads the register at an offset; what it reads is in its response. -/
def State.masterRead (s : State) (m : Fin 4) (off : Nat) : State :=
  { s with owner := { s.owner with replies := s.owner.replies.set m (some (.read (s.mgmtRead (off / 8 * 8)))) m.isLt } }

end Sys2Proof.Machine
end

