-- ==== Sys2Proof/Machine/Taps.lean ====
section
/-! DEFINITION. The tap unit (R265 to R273). -/

namespace Sys2Proof.Machine

/-! ## Opening (R266) -/

/-- The entries that match an opening tap, in ascending number. -/
def State.waysFor (s : State) (layer point d : Nat) : List Way :=
  (List.range 256).filterMap fun n =>
    let e := s.probe n
    if prValid e && prLayer e == layer && prPoint e == point && prDim e == d then
      some { entry := n, wptr := prWptr e, bias := prBias e, thr := prThr e, sense := prSense e }
    else none

/-- Whether a valid entry names the layer with another point or dimension. -/
def State.tapMismatch (s : State) (layer point d : Nat) : Bool :=
  (List.range 256).any fun n =>
    let e := s.probe n
    prValid e && prLayer e == layer && !(prPoint e == point && prDim e == d)

def State.openTap (s : State) (layer point d : Nat) : State :=
  let t : Tap := { isOpen := true, layer := layer, point := point, d := d, ways := s.waysFor layer point d, acc := []
                   eval := 0, cross := 0 }
  let miss := s.tapMismatch layer point d
  s.modCtx fun c => { c with tap := t, streg := if miss then bumpMismatch c.streg else c.streg }

/-! ## `tap` (R267 to R269) -/

/-- What a tap reads for one slot: SCALE and VPTR. -/
structure Steer where
  slot : Nat
  vptr : Word
  scale : Num

/-- Reads the steering entries of slots, checking their pointers and reserved bits. -/
def State.readSteer (s : State) (base : Word) : List Nat → Act (List Steer × State)
  | [] => .ok ([], s)
  | k :: ks => do
    let p := base + w64 (16 * k)
    let (v, s) ← s.scalarVal p 8
    let (w, s) ← s.scalarVal (p + 8) 8
    if 2 ^ 32 ≤ w then raise s .range (w64 w)
    else do
      let (r, s) ← s.readSteer base ks
      .ok ({ slot := k, vptr := w64 v, scale := Flt.f32.val (w % 2 ^ 32) } :: r, s)

/-- A global or private pointer to z bytes aligned on z: orders 1 to 6 of Table 11-2, then WINDOW for another window (R267). -/
def State.needGlobal (s : State) (p : Word) (z : Nat) : Act Unit := do
  match ← s.place p z z with
  | .virt _ => .ok ()
  | _ => raise s .window p

/-- The pointers that a tap reads: of the steering entries, and of the vector elements of steered lanes. -/
def tapReads (base : Word) (slots : List Nat) (steer : List Steer) (slotOf dimOf : Nat → Nat) (on : List Nat) : List (Word × Nat) :=
  (if steer.isEmpty then [] else slots.flatMap fun k => [(base + w64 (16 * k), 8), (base + w64 (16 * k) + 8, 8)]) ++
  on.filterMap fun i => (steer.find? fun t => t.slot == slotOf i && t.vptr != 0).map fun t => (t.vptr + w64 (4 * dimOf i), 4)

/-- Whether the translation unit has slots for the pins of everything that a tap reads, which are taken together (R269, R325). -/
def State.tapPins (s : State) (reads : List (Word × Nat)) : Bool :=
  s.pinRoom s.cur.core (reads.filterMap fun x => match (s.find (s.agentOf s.key) x.1 x.2 x.2 false).1 with
    | .at_ l => some l
    | _ => none)

/-- The vector elements of the steered lanes: (position, SCALE, V[Dim(i)]). -/
def State.readVectors (s : State) (steer : List Steer) (slotOf dimOf : Nat → Nat) : List Nat →
    Act (List (Nat × Num × Num) × State)
  | [] => .ok ([], s)
  | i :: is =>
    match steer.find? fun t => t.slot == slotOf i with
    | some t =>
      if t.vptr = 0 then s.readVectors steer slotOf dimOf is
      else do
        s.needGlobal t.vptr 4
        let (v, s) ← s.scalarVal (t.vptr + w64 (4 * dimOf i)) 4
        let (r, s) ← s.readVectors steer slotOf dimOf is
        .ok ((i, t.scale, Flt.f32.val v) :: r, s)
    | none => s.readVectors steer slotOf dimOf is

/-- The weights of a way at dimensions: without translation or caching. -/
def State.weightAt (s : State) (w : Way) (dim : Nat) : Num := Flt.f32.val (rdVal s.mem (w.wptr + 4 * dim) 4)

/-- The first poisoned weight that a tap reads. -/
def State.badWeight (s : State) (ws : List Way) (dims : List Nat) : Option Nat :=
  (ws.flatMap fun w => dims.map fun d => w.wptr + 4 * d).find? fun a => s.poisoned a 4

def execTap (c : Ctl) (f : FX) (s : State) : Out :=
  run c s fun s => do
    if !s.inBody then .ok s.advance
    else
      let i : Instr := .tap c f
      s.vecStart i
      let d ← s.field f.opd .fm 0 .any
      if d.ty != .flt .f32 && d.ty != .flt .bf16 && d.ty != .flt .f16 then trapField s .operandClass f.opd d.reg
      else
        s.checkStream f.opd i
        let a := s.val f.opa
        let dd := bitsAt a 0 16
        let s0 := bitsAt a 16 6
        let layer := f.xf.toNat
        let point := f.sub.toNat
        let on := s.active f.msk
        let elem := fun (p : Nat) => (s.sidx + w64 p).toNat
        let slotOf := fun p => s0 + elem p / dd
        let dimOf := fun p => elem p % dd
        if dd = 0 || a >>> 22 != 0 then raise s .range a
        else
          match on.find? fun p => 64 ≤ slotOf p with
          | some p => raise s .range (w64 (slotOf p))
          | none => do
            let t := s.ctx.tap
            if t.isOpen && !(t.layer == layer && t.point == point && t.d == dd) then raise s .range a
            else
              let base := s.val f.opb
              let slots := (on.map slotOf).eraseDups
              undo s do
                let (steer, s1) ← if f.opb = .s 0 then .ok ([], s) else do
                  s.needGlobal base 16
                  s.readSteer base slots
                let (vs, s2) ← s1.readVectors steer slotOf dimOf on
                if !s2.tapPins (tapReads base slots steer slotOf dimOf on) then hold s2
                s2.checkParity d (List.range s2.slen)
                let s3 := if t.isOpen then s2 else s2.openTap layer point dd
                let t := s3.ctx.tap
                match s3.badWeight t.ways (on.map dimOf) with
                | some w => raiseBad s (w64 w) 0 9 w
                | none =>
                  let k := s3.core
                  let x := fun p => d.num (k.row (s3.lane p))
                  let acc := t.ways.zipIdx.foldl (fun acc (w : Way × Nat) =>
                    slots.foldl (fun acc sl =>
                      let lanes := on.filter fun p => slotOf p == sl
                      let part := lanes.foldl (fun (sum : Option Num) p =>
                        let v := (s3.weightAt w.1 (dimOf p)).mul (x p)
                        some (match sum with
                          | none => v
                          | some y => y.add false v)) none
                      let old := Flt.f32.val (lookD acc (sl * 16 + w.2) 0).toNat
                      match part with
                      | none => acc
                      | some v =>
                        putOr 0 acc (sl * 16 + w.2) (BitVec.ofNat 32 (Flt.f32.round (old.add false v) .rne false 0).bits))
                      acc) t.acc
                  let eval := slots.foldl (fun e sl => e ||| BitVec.ofNat 64 (2 ^ sl)) t.eval
                  let s4 := s3.modCtx fun c => { c with tap := { c.tap with acc := acc, eval := eval } }
                  let out := vs.map fun v =>
                    (v.1, (d.ty.convert (.f ((x v.1).add false (v.2.1.mul v.2.2))) .rne false 0).bits)
                  .ok (s4.putLanes d out).advance

/-! ## `tapfin` and `tapq` (R270 to R272) -/

/-- Whether way k crosses at a slot. -/
def Tap.crosses (t : Tap) (slot k : Nat) (w : Way) : Bool :=
  let y := Flt.f32.val (Flt.f32.round ((Flt.f32.val (lookD t.acc (slot * 16 + k) 0).toNat).add false
    (Flt.f32.val w.bias.toNat)) .rne false 0).bits
  y.isNaN || y.cmp (Flt.f32.val w.thr.toNat) == some (if w.sense then .lt else .gt)

def execTapfin (c : Ctl) (f : FR) (s : State) : Out :=
  run c s fun s => do
    if s.inBody then trapOp s .operandClass (.tapfin c f)
    else
      let t := s.ctx.tap
      if !t.isOpen then .ok s.advance
      else
        let slots := (List.range 64).filter fun n => t.eval.getLsbD n
        let hits := slots.flatMap fun n => (t.ways.zipIdx.filter fun w => t.crosses n w.2 w.1).map fun w => (n, w.2)
        let cross := hits.foldl (fun m h => m ||| BitVec.ofNat 64 (2 ^ h.1)) (0 : Word)
        let ways := hits.foldl (fun m h => m ||| BitVec.ofNat 64 (2 ^ h.2)) (0 : Word)
        let s1 := s.modCtx fun c => { c with tap := { t with isOpen := false, cross := cross } }
        if cross = 0 then .ok s1.advance
        else
          .error (.trap { cause := .probe, val := cross, idx0 := t.eval, idx1 := ways
                          idx2 := w64 (t.layer + 1024 * t.point), pc := some s.nextPC } s1)

def execTapq (c : Ctl) (f : FR) (s : State) : Out :=
  run c s fun s => do
    s.checkDest f.opd
    let t := s.ctx.tap
    let a := s.val f.opa
    match f.sub.toNat with
    | 0 =>
      if a &&& ~~~(0xF3F : Word) != 0 then trapOp s .range (.tapq c f)
      else
        let v := if t.ways.length ≤ bitsAt a 8 4 then BitVec.allOnes 64
          else (lookD t.acc (bitsAt a 0 6 * 16 + bitsAt a 8 4) 0).zeroExtend 64
        .ok (s.putS f.opd v).advance
    | 1 => .ok (s.putS f.opd t.cross).advance
    | 2 => .ok (s.putS f.opd t.eval).advance
    | 3 =>
      let v := t.ways.length + (if t.isOpen then 2 ^ 8 else 0) + t.layer * 2 ^ 16 + t.point * 2 ^ 26 + t.d * 2 ^ 32
      .ok (s.putS f.opd (w64 v)).advance
    | _ =>
      let v := match t.ways[bitsAt a 0 4]? with
        | some w => w64 w.entry
        | none => BitVec.allOnes 64
      .ok (s.putS f.opd v).advance

end Sys2Proof.Machine
end

