-- ==== Sys2Proof/Machine/Dispatch.lean ====
section
/-! DEFINITION. One arm per constructor of `Instr`: each calls its meaning. -/

namespace Sys2Proof.Machine

/-- The effect of one instruction, or of one event, on the machine. -/
def exec (i : Instr) (s : State) : Host.Outcome State Fault Refusal :=
  match i with
  | .nop c f => Sys2Proof.Machine.execNop c f s
  | .br c f => Sys2Proof.Machine.execBr c f s
  | .call c f => Sys2Proof.Machine.execCall c f s
  | .brr c f => Sys2Proof.Machine.execBrr c f s
  | .callr c f => Sys2Proof.Machine.execCallr c f s
  | .ret c f => Sys2Proof.Machine.execRet c f s
  | .vloop c f => Sys2Proof.Machine.execVloop c f s
  | .vend c f => Sys2Proof.Machine.execVend c f s
  | .vbreak c f => Sys2Proof.Machine.execVbreak c f s
  | .exit c f => Sys2Proof.Machine.execExit c f s
  | .yield c f => Sys2Proof.Machine.execYield c f s
  | .trap c f => Sys2Proof.Machine.execTrap c f s
  | .brk c f => Sys2Proof.Machine.execBrk c f s
  | .rfe c f => Sys2Proof.Machine.execRfe c f s
  | .add c f => Sys2Proof.Machine.execAdd c f s
  | .sub c f => Sys2Proof.Machine.execSub c f s
  | .mul c f => Sys2Proof.Machine.execMul c f s
  | .mulh c f => Sys2Proof.Machine.execMulh c f s
  | .mulhn c f => Sys2Proof.Machine.execMulhn c f s
  | .div c f => Sys2Proof.Machine.execDiv c f s
  | .divn c f => Sys2Proof.Machine.execDivn c f s
  | .rem c f => Sys2Proof.Machine.execRem c f s
  | .remn c f => Sys2Proof.Machine.execRemn c f s
  | .and c f => Sys2Proof.Machine.execAnd c f s
  | .or c f => Sys2Proof.Machine.execOr c f s
  | .xor c f => Sys2Proof.Machine.execXor c f s
  | .andn c f => Sys2Proof.Machine.execAndn c f s
  | .shl c f => Sys2Proof.Machine.execShl c f s
  | .shr c f => Sys2Proof.Machine.execShr c f s
  | .sar c f => Sys2Proof.Machine.execSar c f s
  | .rot c f => Sys2Proof.Machine.execRot c f s
  | .min c f => Sys2Proof.Machine.execMin c f s
  | .max c f => Sys2Proof.Machine.execMax c f s
  | .minn c f => Sys2Proof.Machine.execMinn c f s
  | .maxn c f => Sys2Proof.Machine.execMaxn c f s
  | .clz c f => Sys2Proof.Machine.execClz c f s
  | .ctz c f => Sys2Proof.Machine.execCtz c f s
  | .popc c f => Sys2Proof.Machine.execPopc c f s
  | .sext c f => Sys2Proof.Machine.execSext c f s
  | .bext c f => Sys2Proof.Machine.execBext c f s
  | .bins c f => Sys2Proof.Machine.execBins c f s
  | .li c f => Sys2Proof.Machine.execLi c f s
  | .lih c f => Sys2Proof.Machine.execLih c f s
  | .mov c f => Sys2Proof.Machine.execMov c f s
  | .sel c f => Sys2Proof.Machine.execSel c f s
  | .hmix c f => Sys2Proof.Machine.execHmix c f s
  | .sfadd c f => Sys2Proof.Machine.execSfadd c f s
  | .sfmul c f => Sys2Proof.Machine.execSfmul c f s
  | .sffma c f => Sys2Proof.Machine.execSffma c f s
  | .sfcmp c f => Sys2Proof.Machine.execSfcmp c f s
  | .sfcvt c f => Sys2Proof.Machine.execSfcvt c f s
  | .sfmm c f => Sys2Proof.Machine.execSfmm c f s
  | .cmp c f => Sys2Proof.Machine.execCmp c f s
  | .pand c f => Sys2Proof.Machine.execPand c f s
  | .por c f => Sys2Proof.Machine.execPor c f s
  | .pxor c f => Sys2Proof.Machine.execPxor c f s
  | .pnot c f => Sys2Proof.Machine.execPnot c f s
  | .pany c f => Sys2Proof.Machine.execPany c f s
  | .mfc c f => Sys2Proof.Machine.execMfc c f s
  | .mtc c f => Sys2Proof.Machine.execMtc c f s
  | .spt c f => Sys2Proof.Machine.execSpt c f s
  | .spc c f => Sys2Proof.Machine.execSpc c f s
  | .spid c f => Sys2Proof.Machine.execSpid c f s
  | .spmk c f => Sys2Proof.Machine.execSpmk c f s
  | .vfmap c f => Sys2Proof.Machine.execVfmap c f s
  | .vdim c f => Sys2Proof.Machine.execVdim c f s
  | .vsid c f => Sys2Proof.Machine.execVsid c f s
  | .vidx c f => Sys2Proof.Machine.execVidx c f s
  | .vbcast c f => Sys2Proof.Machine.execVbcast c f s
  | .vadd c f => Sys2Proof.Machine.execVadd c f s
  | .vsub c f => Sys2Proof.Machine.execVsub c f s
  | .vadds c f => Sys2Proof.Machine.execVadds c f s
  | .vsubs c f => Sys2Proof.Machine.execVsubs c f s
  | .vneg c f => Sys2Proof.Machine.execVneg c f s
  | .vabs c f => Sys2Proof.Machine.execVabs c f s
  | .vmul c f => Sys2Proof.Machine.execVmul c f s
  | .vmulh c f => Sys2Proof.Machine.execVmulh c f s
  | .vmac c f => Sys2Proof.Machine.execVmac c f s
  | .vmin c f => Sys2Proof.Machine.execVmin c f s
  | .vmax c f => Sys2Proof.Machine.execVmax c f s
  | .vand c f => Sys2Proof.Machine.execVand c f s
  | .vor c f => Sys2Proof.Machine.execVor c f s
  | .vxor c f => Sys2Proof.Machine.execVxor c f s
  | .vnot c f => Sys2Proof.Machine.execVnot c f s
  | .vshl c f => Sys2Proof.Machine.execVshl c f s
  | .vshr c f => Sys2Proof.Machine.execVshr c f s
  | .vsar c f => Sys2Proof.Machine.execVsar c f s
  | .vcmp c f => Sys2Proof.Machine.execVcmp c f s
  | .vsel c f => Sys2Proof.Machine.execVsel c f s
  | .vmov c f => Sys2Proof.Machine.execVmov c f s
  | .vcvt c f => Sys2Proof.Machine.execVcvt c f s
  | .vpopc c f => Sys2Proof.Machine.execVpopc c f s
  | .vclz c f => Sys2Proof.Machine.execVclz c f s
  | .vbext c f => Sys2Proof.Machine.execVbext c f s
  | .vfadd c f => Sys2Proof.Machine.execVfadd c f s
  | .vfsub c f => Sys2Proof.Machine.execVfsub c f s
  | .vfmul c f => Sys2Proof.Machine.execVfmul c f s
  | .vffma c f => Sys2Proof.Machine.execVffma c f s
  | .vfmm c f => Sys2Proof.Machine.execVfmm c f s
  | .vfcmp c f => Sys2Proof.Machine.execVfcmp c f s
  | .vfcvt c f => Sys2Proof.Machine.execVfcvt c f s
  | .vfsgn c f => Sys2Proof.Machine.execVfsgn c f s
  | .vfexp2 c f => Sys2Proof.Machine.execVfexp2 c f s
  | .vfrcp c f => Sys2Proof.Machine.execVfrcp c f s
  | .vfscl c f => Sys2Proof.Machine.execVfscl c f s
  | .vfnb8 c f => Sys2Proof.Machine.execVfnb8 c f s
  | .asrch c f => Sys2Proof.Machine.execAsrch c f s
  | .asrchr c f => Sys2Proof.Machine.execAsrchr c f s
  | .awr c f => Sys2Proof.Machine.execAwr c f s
  | .apass c f => Sys2Proof.Machine.execApass c f s
  | .acnt c f => Sys2Proof.Machine.execAcnt c f s
  | .afirst c f => Sys2Proof.Machine.execAfirst c f s
  | .atopk c f => Sys2Proof.Machine.execAtopk c f s
  | .aext c f => Sys2Proof.Machine.execAext c f s
  | .ahamm c f => Sys2Proof.Machine.execAhamm c f s
  | .asred c f => Sys2Proof.Machine.execAsred c f s
  | .ared c f => Sys2Proof.Machine.execAred c f s
  | .vhash c f => Sys2Proof.Machine.execVhash c f s
  | .mand c f => Sys2Proof.Machine.execMand c f s
  | .mor c f => Sys2Proof.Machine.execMor c f s
  | .mxor c f => Sys2Proof.Machine.execMxor c f s
  | .mnot c f => Sys2Proof.Machine.execMnot c f s
  | .msetmvl c f => Sys2Proof.Machine.execMsetmvl c f s
  | .mrow c f => Sys2Proof.Machine.execMrow c f s
  | .mrowh c f => Sys2Proof.Machine.execMrowh c f s
  | .msacc c f => Sys2Proof.Machine.execMsacc c f s
  | .mext c f => Sys2Proof.Machine.execMext c f s
  | .mclrAcc c f => Sys2Proof.Machine.execMclrAcc c f s
  | .mclrB c f => Sys2Proof.Machine.execMclrB c f s
  | .mzfScan c f => Sys2Proof.Machine.execMzfScan c f s
  | .mzfGet c f => Sys2Proof.Machine.execMzfGet c f s
  | .mwait c f => Sys2Proof.Machine.execMwait c f s
  | .mtok c f => Sys2Proof.Machine.execMtok c f s
  | .mdrain c f => Sys2Proof.Machine.execMdrain c f s
  | .ld c f => Sys2Proof.Machine.execLd c f s
  | .st c f => Sys2Proof.Machine.execSt c f s
  | .vld c f => Sys2Proof.Machine.execVld c f s
  | .vlds c f => Sys2Proof.Machine.execVlds c f s
  | .vldx c f => Sys2Proof.Machine.execVldx c f s
  | .vldd c f => Sys2Proof.Machine.execVldd c f s
  | .vst c f => Sys2Proof.Machine.execVst c f s
  | .vsts c f => Sys2Proof.Machine.execVsts c f s
  | .vstx c f => Sys2Proof.Machine.execVstx c f s
  | .vstd c f => Sys2Proof.Machine.execVstd c f s
  | .vldh c f => Sys2Proof.Machine.execVldh c f s
  | .vsth c f => Sys2Proof.Machine.execVsth c f s
  | .prf c f => Sys2Proof.Machine.execPrf c f s
  | .cmoWb c f => Sys2Proof.Machine.execCmoWb c f s
  | .cmoBind c f => Sys2Proof.Machine.execCmoBind c f s
  | .cmoInv c f => Sys2Proof.Machine.execCmoInv c f s
  | .stfl c f => Sys2Proof.Machine.execStfl c f s
  | .amo c op f => Sys2Proof.Machine.execAmo c op f s
  | .cas c f => Sys2Proof.Machine.execCas c f s
  | .vamo c op f => Sys2Proof.Machine.execVamo c op f s
  | .scred c f => Sys2Proof.Machine.execScred c f s
  | .binap c f => Sys2Proof.Machine.execBinap c f s
  | .binpl c f => Sys2Proof.Machine.execBinpl c f s
  | .phase c f => Sys2Proof.Machine.execPhase c f s
  | .barinit c f => Sys2Proof.Machine.execBarinit c f s
  | .bararr c f => Sys2Proof.Machine.execBararr c f s
  | .barwait c f => Sys2Proof.Machine.execBarwait c f s
  | .bartest c f => Sys2Proof.Machine.execBartest c f s
  | .card c k f => Sys2Proof.Machine.execCard c k f s
  | .cardq c f => Sys2Proof.Machine.execCardq c f s
  | .strm c f => Sys2Proof.Machine.execStrm c f s
  | .strmkv c f => Sys2Proof.Machine.execStrmkv c f s
  | .strmxStop c f => Sys2Proof.Machine.execStrmxStop c f s
  | .strmxStat c f => Sys2Proof.Machine.execStrmxStat c f s
  | .seep c f => Sys2Proof.Machine.execSeep c f s
  | .gath c f => Sys2Proof.Machine.execGath c f s
  | .hld c f => Sys2Proof.Machine.execHld c f s
  | .hst c f => Sys2Proof.Machine.execHst c f s
  | .hqWord c f => Sys2Proof.Machine.execHqWord c f s
  | .hqInv c f => Sys2Proof.Machine.execHqInv c f s
  | .hmaskLin c f => Sys2Proof.Machine.execHmaskLin c f s
  | .hmaskTr c f => Sys2Proof.Machine.execHmaskTr c f s
  | .gstart c f => Sys2Proof.Machine.execGstart c f s
  | .ginv c f => Sys2Proof.Machine.execGinv c f s
  | .gnextScalar c f => Sys2Proof.Machine.execGnextScalar c f s
  | .gnextVector c f => Sys2Proof.Machine.execGnextVector c f s
  | .tap c f => Sys2Proof.Machine.execTap c f s
  | .tapfin c f => Sys2Proof.Machine.execTapfin c f s
  | .tapq c f => Sys2Proof.Machine.execTapq c f s
  | .launch c f => Sys2Proof.Machine.execLaunch c f s
  | .withdraw c f => Sys2Proof.Machine.execWithdraw c f s
  | .pgreq c f => Sys2Proof.Machine.execPgreq c f s
  | .pgpin c f => Sys2Proof.Machine.execPgpin c f s
  | .pgunpin c f => Sys2Proof.Machine.execPgunpin c f s
  | .tlbi c f => Sys2Proof.Machine.execTlbi c f s
  | .hot c f => Sys2Proof.Machine.execHot c f s
  | .pfxlFind c f => Sys2Proof.Machine.execPfxlFind c f s
  | .pfxlPin c f => Sys2Proof.Machine.execPfxlPin c f s
  | .pfxlPage c f => Sys2Proof.Machine.execPfxlPage c f s
  | .pfxiIns c f => Sys2Proof.Machine.execPfxiIns c f s
  | .pfxiUnpin c f => Sys2Proof.Machine.execPfxiUnpin c f s
  | .seepLoop => Sys2Proof.Machine.execSeepLoop s
  | .seepHalt => Sys2Proof.Machine.execSeepHalt s
  | .seepSync => Sys2Proof.Machine.execSeepSync s
  | .fld wd col => Sys2Proof.Machine.execFld wd col s
  | .fldx wd wa => Sys2Proof.Machine.execFldx wd wa s
  | .seepAdd a => Sys2Proof.Machine.execSeepAdd a s
  | .seepMul a => Sys2Proof.Machine.execSeepMul a s
  | .fma a => Sys2Proof.Machine.execFma a s
  | .deq a => Sys2Proof.Machine.execDeq a s
  | .seepMax a => Sys2Proof.Machine.execSeepMax a s
  | .rsum a => Sys2Proof.Machine.execRsum a s
  | .seepSt wa col => Sys2Proof.Machine.execSeepSt wa col s
  | .stc wa => Sys2Proof.Machine.execStc wa s
  | .red wa col mode => Sys2Proof.Machine.execRed wa col mode s
  | .deviceReset fitted bdfail => Sys2Proof.Machine.execDeviceReset fitted bdfail s
  | .stripStart core lc => Sys2Proof.Machine.execStripStart core lc s
  | .tarnScrub core lane => Sys2Proof.Machine.execTarnScrub core lane s
  | .rowAccept core => Sys2Proof.Machine.execRowAccept core s
  | .rowComplete core k => Sys2Proof.Machine.execRowComplete core k s
  | .storePerform k => Sys2Proof.Machine.execStorePerform k s
  | .stashFill core line sector => Sys2Proof.Machine.execStashFill core line sector s
  | .stashWriteBack core line sector => Sys2Proof.Machine.execStashWriteBack core line sector s
  | .backInvalidate sector => Sys2Proof.Machine.execBackInvalidate sector s
  | .cardDispatch q => Sys2Proof.Machine.execCardDispatch q s
  | .cardReleasedArrival id => Sys2Proof.Machine.execCardReleasedArrival id s
  | .cardVisibleArrival id => Sys2Proof.Machine.execCardVisibleArrival id s
  | .streamReadAhead core lc r => Sys2Proof.Machine.execStreamReadAhead core lc r s
  | .gatherVisibleArrival id => Sys2Proof.Machine.execGatherVisibleArrival id s
  | .trainReceive t => Sys2Proof.Machine.execTrainReceive t s
  | .trainAck src dest seq => Sys2Proof.Machine.execTrainAck src dest seq s
  | .seepClaimGrant id => Sys2Proof.Machine.execSeepClaimGrant id s
  | .seepKernelFail id unitId => Sys2Proof.Machine.execSeepKernelFail id unitId s
  | .seepRelease id => Sys2Proof.Machine.execSeepRelease id s
  | .hostWindowWrite w off bytes dmwr => Sys2Proof.Machine.execHostWindowWrite w off bytes dmwr s
  | .wdraw tag => Sys2Proof.Machine.execWdraw tag s
  | .gangStart launch gang cores => Sys2Proof.Machine.execGangStart launch gang cores s
  | .launchComplete launch => Sys2Proof.Machine.execLaunchComplete launch s
  | .quantumExpiry launch gang => Sys2Proof.Machine.execQuantumExpiry launch gang s
  | .preemptDecision q outLaunch outGang inLaunch inGang => Sys2Proof.Machine.execPreemptDecision q outLaunch outGang inLaunch inGang s
  | .stopPointReached q => Sys2Proof.Machine.execStopPointReached q s
  | .swapSave q => Sys2Proof.Machine.execSwapSave q s
  | .swapLoad q cores => Sys2Proof.Machine.execSwapLoad q cores s
  | .trapRecordWrite q => Sys2Proof.Machine.execTrapRecordWrite q s
  | .migrationSectorCopy q => Sys2Proof.Machine.execMigrationSectorCopy q s
  | .migrationFinish q => Sys2Proof.Machine.execMigrationFinish q s
  | .residencyRewalk w => Sys2Proof.Machine.execResidencyRewalk w s
  | .hotnessAdd k => Sys2Proof.Machine.execHotnessAdd k s
  | .tqconsWrite m q v => Sys2Proof.Machine.execTqconsWrite m q v s
  | .tqactReplay m q v => Sys2Proof.Machine.execTqactReplay m q v s
  | .tqactTerminate m q v => Sys2Proof.Machine.execTqactTerminate m q v s
  | .quantumWrite m q v => Sys2Proof.Machine.execQuantumWrite m q v s
  | .savebaseWrite m q v => Sys2Proof.Machine.execSavebaseWrite m q v s
  | .savelimWrite m q v => Sys2Proof.Machine.execSavelimWrite m q v s
  | .migvaWrite m q v => Sys2Proof.Machine.execMigvaWrite m q v s
  | .migrationStart m q v => Sys2Proof.Machine.execMigrationStart m q v s
  | .rqconsWrite m v => Sys2Proof.Machine.execRqconsWrite m v s
  | .tlbia m v => Sys2Proof.Machine.execTlbia m v s
  | .rpclr m v => Sys2Proof.Machine.execRpclr m v s
  | .pfxinv m v => Sys2Proof.Machine.execPfxinv m v s
  | .probeStageWrite m e w v => Sys2Proof.Machine.execProbeStageWrite m e w v s
  | .probeCommit m e v => Sys2Proof.Machine.execProbeCommit m e v s
  | .flitReceive p flit => Sys2Proof.Machine.execFlitReceive p flit s
  | .linkRetryTimeout p => Sys2Proof.Machine.execLinkRetryTimeout p s
  | .portctl m v => Sys2Proof.Machine.execPortctl m v s
  | .hostBar4Read pa n => Sys2Proof.Machine.execHostBar4Read pa n s
  | .hostBar4Write pa bytes dmwr => Sys2Proof.Machine.execHostBar4Write pa bytes dmwr s
  | .msixUnmask vector => Sys2Proof.Machine.execMsixUnmask vector s
  | .claim m v => Sys2Proof.Machine.execClaim m v s
  | .renew m v => Sys2Proof.Machine.execRenew m v s
  | .offer m v => Sys2Proof.Machine.execOffer m v s
  | .accept m v => Sys2Proof.Machine.execAccept m v s
  | .release m v => Sys2Proof.Machine.execRelease m v s
  | .leaseExpiry ms => Sys2Proof.Machine.execLeaseExpiry ms s
  | .mgmtRegisterWrite m off bytes dmwr => Sys2Proof.Machine.execMgmtRegisterWrite m off bytes dmwr s
  | .mlogcons m v => Sys2Proof.Machine.execMlogcons m v s
  | .qrst m v => Sys2Proof.Machine.execQrst m v s
  | .dstop m v => Sys2Proof.Machine.execDstop m v s
  | .memoryError site uncorrectable => Sys2Proof.Machine.execMemoryError site uncorrectable s
  | .thermalBandChange q temp => Sys2Proof.Machine.execThermalBandChange q temp s
  | .fwcmd m v => Sys2Proof.Machine.execFwcmd m v s
  | .attcmd m v => Sys2Proof.Machine.execAttcmd m v s
  | .spareWrite m core v => Sys2Proof.Machine.execSpareWrite m core v s
  | .rowSpareTableWrite m core w v => Sys2Proof.Machine.execRowSpareTableWrite m core w v s
  | .journalConfigWrite m q reg v => Sys2Proof.Machine.execJournalConfigWrite m q reg v s
  | .idle => Sys2Proof.Machine.execIdle s

end Sys2Proof.Machine
end

