-- ==== Sys2Proof/WellFormed.lean ====
section
/-! DEFINITION. Well-formed instructions: those whose own word passes every decode check of Table 2-9 and
chooses the constructor's row; and events whose parameters are in range. -/

namespace Sys2Proof

/-- The word of a core instruction passes the checks of the row that it selects (R42). -/
def coreOk (i : Instr) : Bool :=
  match encode i with
  | .core w =>
    match findForm w with
    | some r => (r.fate w).isNone
    | none => false
  | _ => false

/-- A seep operation whose word passes R51 and Table 17-3. -/
def seepOk (i : Instr) : Bool :=
  match encode i with
  | .seep w => (decodeSeep w).isSome
  | _ => false

/-- SUB or an operand class chooses the constructor's row where two rows share OP and FN (R154, R220,
R239, R254, R255, R263, R345, R154). -/
def rowOk : Instr → Bool
  | .mclrAcc _ f => f.opd.cls == 5
  | .mclrB _ f => f.opd.cls == 6
  | .mzfScan _ f => f.sub == 0
  | .mzfGet _ f => f.sub == 1
  | .cmoWb _ f => f.opb == .imm 0
  | .cmoBind _ f => f.opb == .imm 1
  | .cmoInv _ f => f.opb == .imm 2
  | .strmxStop _ f => f.sub == 0
  | .strmxStat _ f => f.sub == 1
  | .hqWord _ f => f.sub == 0
  | .hqInv _ f => f.sub == 1
  | .hmaskLin _ f => f.sub == 0
  | .hmaskTr _ f => f.sub == 1
  | .gnextScalar _ f => f.opd.cls == 0
  | .gnextVector _ f => f.opd.cls == 1
  | .pfxlFind _ f => f.sub == 0
  | .pfxlPin _ f => f.sub == 1
  | .pfxlPage _ f => f.sub == 2
  | .pfxiIns _ f => f.sub == 0
  | .pfxiUnpin _ f => f.sub == 1
  | _ => true

/-- Whether bytes fit a window or a register. -/
def bytesOk (off : Nat) (bytes : List Byte) (size : Nat) : Bool := !bytes.isEmpty && decide (off + bytes.length ≤ size)

/-- Parameters of events that their types do not bound: register values within their width, offsets within
their window, cores and ids that exist. -/
def eventOk : Instr → Bool
  | .stashFill _ line _ => decide (line < 1536)
  | .stashWriteBack _ line _ => decide (line < 1536)
  | .backInvalidate sector => decide (sector < 12 * 2 ^ 29)
  | .trainReceive t => decide (t.srcDev < 1024 ∧ t.zlog ≤ 3)
  | .trainAck _ dest _ => decide (dest < 1024)
  | .hostWindowWrite _ off bytes _ => bytesOk off bytes 256
  | .gangStart _ _ cores => decide (cores.length ≤ 8) && cores.all (· < 320)
  | .swapLoad _ cores => cores.all (· < 320)
  | .hostBar4Read pa n => decide (1 ≤ n ∧ pa + n ≤ 2 ^ 40)
  | .hostBar4Write pa bytes _ => bytesOk pa bytes (2 ^ 40)
  | .mgmtRegisterWrite _ off bytes _ => bytesOk off bytes (2 ^ 22)
  | .tarnScrub _ _ | .deviceReset _ _ | .stripStart _ _ | .rowAccept _ | .rowComplete _ _ | .storePerform _ | .cardDispatch _
  | .cardReleasedArrival _ | .cardVisibleArrival _ | .streamReadAhead _ _ _ | .gatherVisibleArrival _
  | .seepClaimGrant _ | .seepKernelFail _ _ | .seepRelease _ | .wdraw _ | .launchComplete _ | .quantumExpiry _ _
  | .preemptDecision _ _ _ _ _ | .stopPointReached _ | .swapSave _ | .trapRecordWrite _ | .tqconsWrite _ _ _
  | .tqactReplay _ _ _ | .tqactTerminate _ _ _ | .quantumWrite _ _ _ | .savebaseWrite _ _ _ | .savelimWrite _ _ _
  | .migvaWrite _ _ _ | .migrationStart _ _ _ | .migrationSectorCopy _ | .migrationFinish _ | .rqconsWrite _ _
  | .residencyRewalk _ | .hotnessAdd _ | .tlbia _ _ | .rpclr _ _ | .pfxinv _ _ | .probeStageWrite _ _ _ _
  | .probeCommit _ _ _ | .flitReceive _ _ | .linkRetryTimeout _ | .portctl _ _ | .msixUnmask _ | .claim _ _
  | .renew _ _ | .offer _ _ | .accept _ _ | .release _ _ | .leaseExpiry _ | .mlogcons _ _ | .qrst _ _ | .dstop _ _
  | .memoryError _ _ | .thermalBandChange _ _ | .fwcmd _ _ | .attcmd _ _ | .spareWrite _ _ _
  | .rowSpareTableWrite _ _ _ _ | .journalConfigWrite _ _ _ _ => true
  | _ => false

/-- Well-formed instructions. -/
def wf (i : Instr) : Bool :=
  match encode i with
  | .core _ => coreOk i && rowOk i
  | .seep _ => seepOk i
  | .event => eventOk i

end Sys2Proof
end

