-- ==== Sys2Proof/Machine/Fetch.lean ====
section
/-! DEFINITION. Fetching a packet (R25 to R29) and the turns of issuers: issue (R163), issue ahead of unretired vector
instructions with the history buffer (R164 to R166), retirement and precise traps (R167), and the delivery of pending traps
(R168). -/

namespace Sys2Proof.Machine

/-! ## Fetch -/

/-- The slots of a packet (R25). -/
def slotWord (p : BitVec 1024) (n : Nat) : BitVec 96 := p.extractLsb' (64 + 96 * n) 96

/-- What the header checks raise (R27). -/
def headerCause (h : Word) : Option Cause :=
  let cnt := bitsAt h 56 4
  if bitsAt h 60 4 != 1 then some .illegal
  else if cnt = 0 || 10 < cnt then some .illegal
  else if bitsAt h 0 56 != 0 then some .reservedField
  else none

/-- The cause of a decode fate (R42). -/
def fateCause : Fate → Cause
  | .illegal => .illegal
  | .reservedField => .reservedField
  | .operandClass => .operandClass

/-- The 128 bytes of the packet at an address, read at once: bytes that their writers have not published are read as they were,
but for those that the context has come to at a boundary (R29, R199, assumption log 40). The page must allow packet fetch (R323). The bits tell which half is
poisoned. -/
def State.readPacket (s : State) (a : Word) : Act (BitVec 1024 × BitVec 2 × State) := do
  match ← s.place a 128 128 with
  | .virt va =>
    let w := (s.tlbWalk s.cur.core s.asid va).1
    match s.findVirt s.cur.core s.asid va false with
    | (.fail c, s) => raise s c a
    | (.bad x, s) => raiseBad s a 0 9 x
    | (.absent d v, s) => s.waitPage d v
    | (.at_ l, s) =>
      if !w.executable then raise s .protect a
      else
        let pa := l.mem.2
        if s.claimed pa 128 then hold s
        else
          match s.torn.find? fun t => t.pa == pa with
          | some t => let x := t.fetched (s.sectorNow pa) s.key; .ok (x.1, x.2, s.touchL2 pa)
          | none =>
            .ok (BitVec.ofNat 1024 (rdVal s.mem pa 128),
                 (if s.poisoned pa 64 then 1 else 0) ||| (if s.poisoned (pa + 64) 64 then 2 else 0), s.touchL2 pa)
  | _ => raise s .window a

/-- The packet of the executing thread: at an entry slot it is read and its header is checked (R27). Poison counts in the
header and in the slots below CNT alone (R26, R367). -/
def State.enterPacket (s : State) : Act (BitVec 1024 × State) :=
  match s.thread.packet with
  | some p => .ok (p, s)
  | none => do
    let a := packetOf s.pc
    let (p, bad, s1) ← undo s (s.readPacket a)
    let h : Word := p.extractLsb' 0 64
    let addr := (((s1.walk s1.asid a.toNat).physical a.toNat).getD 0)
    if bitAt bad 0 then raiseBad s a 0 9 addr
    else
      match headerCause h with
      | some c => raise s1 c h
      | none =>
        if bitAt bad 1 && decide (64 < 8 + 12 * bitsAt h 56 4) then raiseBad s a 0 9 (addr + 64)
        else .ok (p, s1.setThread { pc := s1.pc, packet := some p })

/-- The next instruction of the executing issuer; none when its entry slot lies beyond CNT, and execution goes on at
the next packet (R27). -/
def State.fetch (s : State) : Act (Option Instr × State) := do
  let (p, s) ← s.enterPacket
  if s.thread.cnt ≤ slotOf s.pc then .ok (none, s.goto (packetOf s.pc + 128))
  else
    let w := slotWord p (slotOf s.pc)
    match decode w with
    | .ok i => .ok (some i, s)
    | .error f => raise s (fateCause f) (w.extractLsb' 32 64)

/-! ## Issue (R163) -/

/-- Whether the executing issuer has trapped between two states. -/
def State.trapped (s t : State) : Bool :=
  t.ctx.status != s.ctx.status || t.ctx.record != s.ctx.record || t.ctx.held != s.ctx.held ||
  (t.strip?.map Strip.held) != (s.strip?.map Strip.held)

/-- Whether a turn left the executing issuer in a wait: where it was, with no trap and no loop begun. -/
def State.stayed (s t : State) : Bool := t.thread == s.thread && !s.trapped t && t.ctx.loop.isSome == s.ctx.loop.isSome

/-- Keeps, after an instruction, whether its issuer waits (Table 10-2). -/
def State.noteWait (s : State) (t : State) : State :=
  if s.stayed t then t.waitBegins
  else if t.ctx.inWait.contains s.issuerSlot then t.modCtx fun c => { c with inWait := setDel c.inWait s.issuerSlot }
  else t

/-- The 96-bit word of an instruction that has one. -/
def coreWord (i : Instr) : Option (BitVec 96) :=
  match encode i with
  | .core w => some w
  | _ => none

/-- Whether an instruction offers the issue slot: `yield`, or HINT.YIELD (R91, R163). -/
def yields (i : Instr) : Bool :=
  match i, coreWord i with
  | .yield _ _, _ => true
  | _, some w => (Ctl.ofWord w).hyield
  | _, none => false

/-- Vector instructions that a context has issued and that have not retired, at most (R164), and entries of a core's history
buffer (R165). -/
def aheadMax : Nat := 32
def histMax : Nat := 32

/-- Whether a word is a vector instruction, as Table 10-2 counts them: of the tarns, a row instruction, or a vector access to
memory, or a `tap` (R273). -/
def isVector (w : BitVec 96) : Bool :=
  let op := opOf w
  decide (0x42 ≤ op ∧ op ≤ 0x76) || decide (0x80 ≤ op ∧ op ≤ 0x89) || decide (0x91 ≤ op ∧ op ≤ 0x93) ||
  decide (0xA1 ≤ op ∧ op ≤ 0xA3) || op == 0xC2 || (op == 0xE8 && fnOf w == 0)

/-- Whether an instruction of the executing issuer waits for the retirement of one of 32 vector instructions of its context
(Table 10-2). -/
def State.aheadFull (s : State) (i : Instr) : Bool :=
  decide (aheadMax ≤ s.ctx.ahead.length) && (coreWord i).any isVector

/-- Runs a fetched instruction. Its issuer's next instruction is reckoned ready from now, behind the issuers that are ready,
or after `yield` from the next cycle; one that waits is not ready (R163). -/
def State.runInstr (s : State) (i : Instr) : Out :=
  if s.aheadFull i then .next s.waitBegins
  else
    match exec i s with
    | .next t => .next { s.noteWait t with order := if yields i || s.stayed t then t.order else t.order ++ [s.cur] }
    | r => r

/-- The executing issuer fetches and executes one instruction. -/
def State.issueNow (s : State) : Out :=
  match s.fetch with
  | .error (.trap t s) => .next (s.takeTrap t)
  | .error (.wait s) => .next s
  | .ok (none, s) => .next s
  | .ok (some i, s) => s.runInstr i

/-- The slot of an issuer in its context. -/
def Issuer.slot (i : Issuer) : Nat := (i.lg.map fun g => g.val + 1).getD 0

/-- Whether an issuer stands at an instruction that nothing it has begun holds: a page, a claim, rows (Table 10-2). -/
def State.atInstr (s : State) (i : Issuer) : Bool :=
  let c := s.ctxAt (ctxNum i.core i.lc)
  (match i.lg with
   | none => c.loop.isNone
   | some g => (c.strips.get g).isSome) &&
  (look c.waits i.slot).isNone && !s.awaitsClaim i &&
  !(s.coreAt i.core).waiting.any fun r => r.lc == i.lc && some r.lg == i.lg

/-- Whether an issuer has vector instructions that have not retired. -/
def State.isAhead (s : State) (i : Issuer) : Bool := (s.ctxAt (ctxNum i.core i.lc)).ahead.any fun e => e.slot == i.slot

/-- Whether an issuer may issue with its earlier vector instructions retired (R163, R166). -/
def State.mayIssue (s : State) (i : Issuer) : Bool :=
  (s.ctxAt (ctxNum i.core i.lc)).runs i.lg && s.atInstr i && !s.isAhead i

/-! ## Running ahead (R164 to R166) -/

/-- Whether an instruction may be issued without waiting for its retirement: one of the tarns or a vector load whose
destination is a vector or mask register. -/
def leavesBehind (w : BitVec 96) : Bool :=
  let op := opOf w
  (decide (0x42 ≤ op ∧ op ≤ 0x76) || decide (0x80 ≤ op ∧ op ≤ 0x89) || op == 0xA1) && (dCls w == 1 || dCls w == 2)

/-- Whether an instruction may issue past unretired vector instructions: a scalar one whose effect ends at the scalar and
predicate registers and the PC, or a scalar load; not `mfc` and `mtc` (R106) nor `pany`, which reads a mask. -/
def mayPass (w : BitVec 96) : Bool :=
  let op := opOf w
  let fn := fnOf w
  (decide (op ≤ 0x39) && op != 0x36 && !(op == 0x31 && fn == 4)) || (op == 0xA0 && fn == 0)

/-- Whether an instruction that may pass leaves the reads of its issuer in program order: a scalar load does not pass a vector
load, which reads when it retires (R196, condition 3). -/
def passesLoads (ahead : List Unretired) (slot : Nat) (w : BitVec 96) : Bool :=
  opOf w != 0xA0 || ahead.all fun e => e.slot != slot || (coreWord e.instr).all fun v => opOf v != 0xA1

/-- The scalar register that an instruction writes, if it is one that keeps what is written. -/
def scalarDest (w : BitVec 96) : Option Operand :=
  match Operand.ofWord w 52 with
  | .s n => if n = 0 then none else some (.s n)
  | .p n => if n = 0 then none else some (.p n)
  | _ => none

/-- The value of a scalar or predicate register, and its restoring. -/
def State.regValue (s : State) : Operand → Word
  | .s n => s.readS n
  | .p n => if s.readP n then 1 else 0
  | _ => 0
def State.putBack (s : State) (h : Hist) : State :=
  match h.reg with
  | .s n => s.writeS n h.old
  | .p n => s.writeP n (h.old != 0)
  | _ => s

/-- A state with the thread and the scalar and predicate registers that the executing issuer has in another. -/
def State.withRegsOf (t s : State) : State :=
  match t.cur.lg, s.strip? with
  | some _, some y => t.modStrip fun x => { x with thread := y.thread, s := y.s, p := y.p }
  | _, _ => t.modCtx fun c => { c with thread := s.ctx.thread, s := s.ctx.s, p := s.ctx.p }

/-- A history entry of the executing issuer. -/
def State.ownsHist (s : State) (h : Hist) : Bool := h.lc == s.cur.lc && h.slot == s.issuerSlot

/-- The executing issuer issues one instruction ahead: a vector instruction joins its unretired ones, a scalar one is
executed and what it overwrites goes into the history buffer; any other, and one that does not go on, waits. -/
def State.aheadNow (s : State) : Out :=
  match s.fetch with
  | .ok (none, s) => .next s
  | .ok (some i, s1) =>
    match coreWord i with
    | none => .next s
    | some w =>
      let c := s1.ctx
      let slot := s1.issuerSlot
      let n := (c.ahead.filter fun e => e.slot == slot).length
      if leavesBehind w then
        if !c.streams.all Option.isNone then .next s
        else if aheadMax ≤ c.ahead.length then .next s.waitBegins
        else
          .next (s1.advance.waitEnds.modCtx fun c =>
            { c with ahead := c.ahead ++ [{ slot := slot, thread := s1.thread, instr := i }] })
      else if n = 0 || !mayPass w || !passesLoads c.ahead slot w then .next s
      else
        match exec i s1 with
        | .next t =>
          if t.thread = s1.thread ∨ (t.withRegsOf s1).ctx ≠ s1.ctx ∨ t.pend ≠ s1.pend then .next s
          else
            match (if s1.guard (Ctl.ofWord w) then scalarDest w else none) with
            | none => .next t.waitEnds
            | some r =>
              if histMax ≤ s1.core.hist.length then .next s.waitBegins
              else .next (t.waitEnds.modCore fun c => { c with hist := c.hist ++
                [{ lc := s1.cur.lc, slot := slot, reg := r, old := s1.regValue r, before := n }] })
        | _ => .next s
  | .error _ => .next s

def State.aheadTurn (s : State) (i : Issuer) : Out :=
  if (s.ctxAt (ctxNum i.core i.lc)).runs i.lg && !s.frozen (ctxNum i.core i.lc) && s.atInstr i &&
     (s.ctxAt (ctxNum i.core i.lc)).starting == 0 then
    State.aheadNow { s with cur := i }
  else .next s

/-! ## The order of issuers, and waits that end (R163, R314) -/

/-- Whether the instruction at which the executing issuer stands, ahead of unretired vector instructions, finds what it
waits for: one of 32 places, or a history entry (Table 10-2). -/
def State.aheadRoom (s : State) (i : Instr) : Bool :=
  match coreWord i with
  | none => false
  | some w =>
    if leavesBehind w then decide (s.ctx.ahead.length < aheadMax) else mayPass w && decide (s.core.hist.length < histMax)

/-- Whether the wait of the executing issuer has ended: its instruction would go on, or trap. -/
def State.waitOver (s : State) : Bool :=
  let k := s.key
  let s : State := { s.modCtx fun c => { c with waits := [] } with
    kernels := s.kernels.filter fun x => !x.stage.waits || x.ctx != k }.modCore fun c =>
      { c with waiting := c.waiting.filter fun r => r.lc != s.cur.lc }
  match s.fetch with
  | .ok (some i, s1) =>
    if s.isAhead s.cur then s.aheadRoom i
    else
      !s1.aheadFull i &&
      match exec i s1 with
      | .next t => !s1.stayed t
      | _ => false
  | .ok (none, _) => true
  | .error (.trap _ _) => true
  | .error (.wait _) => false

/-- Whether an issuer is ready: it may issue, and its latest turn did not end in a wait that still stands (R163). -/
def State.ready (s : State) (i : Issuer) : Bool :=
  s.mayIssue i && (!(s.ctxAt (ctxNum i.core i.lc)).inWait.contains i.slot || State.waitOver { s with cur := i })

/-- Issuers, in ascending order of context and lane group. -/
def State.issuers (s : State) : List Issuer :=
  s.ctxs.flatMap fun c => ctxIssuer c.1 :: (List.finRange 4).map fun g => { ctxIssuer c.1 with lg := some g }

/-- The ready issuers, the one that has been ready longest first: those that were and still are, then those that have become
ready, by context and lane group (R163). -/
def State.readyOrder (s : State) : List Issuer :=
  let kept := s.order.filter s.ready
  kept ++ s.issuers.filter fun i => s.ready i && !kept.contains i

/-- An issuer's turn: one that waits tries its instruction again. -/
def State.issueTurn (s : State) (i : Issuer) : Out :=
  if s.frozen (ctxNum i.core i.lc) || !s.mayIssue i then .next { s with cur := i }
  else
    let s := { s with cur := i, order := s.readyOrder.filter fun x => x != i }
    if s.ctx.starting != 0 then settle s.beginCtx else s.issueNow

/-- While a swap takes the gang of an issuer out, a wait that ends sets WAKE; one that was over when the swap was decided is no
wait any more (R314). -/
def State.probeWait (s : State) (i : Issuer) : State :=
  let k := ctxNum i.core i.lc
  let c := s.ctxAt k
  if s.frozen k && c.inWait.contains i.slot && !c.wake && c.runs i.lg && State.waitOver { s with cur := i } then
    if (s.quarter (quarterOf (coreOfCtx k))).swap.any fun w => !w.noted then
      s.modCtxAt k fun c => { c with inWait := setDel c.inWait i.slot }
    else s.modCtxAt k fun c => { c with wake := true }
  else s

/-- The wait of an issuer of a saved gang is tried in the state that its record holds; one that has ended sets WAKE (R314). -/
def State.probeSaved (s : State) (q : Fin 4) (x : Saved) (k : Nat) (c : Ctx) (i : Issuer) : State :=
  let t := x.cores.foldl (fun (s : State) y => s.setCoreAt y.1 y.2) s
  if c.inWait.contains i.slot && !c.wake && c.runs i.lg && State.waitOver { t.setCtxAt k c with cur := i } then
    s.wakeSaved q x.launch x.gang k
  else s

/-- While a gang is being taken out, and while one is saved, each wait of its contexts that has ended sets WAKE (R314). -/
def State.noteWakes (s : State) : State :=
  if s.quarters.all fun q => q.swap.isNone && q.saves.isEmpty then s
  else
    let s := s.issuers.foldl State.probeWait s
    let s : State := { s with quarters := s.quarters.map fun q => { q with swap := q.swap.map fun w => { w with noted := true } } }
    (List.finRange 4).foldl (fun s q => (s.quarter q).saves.foldl (fun s x => x.ctxs.foldl (fun s c =>
      c.2.inWait.foldl (fun s n => s.probeSaved q x c.1 c.2 (slotIssuer c.1 n)) s) s) s) s

/-! ## Retirement (R164, R167, R168) -/

/-- The oldest of a list's instructions of a slot goes. -/
def dropOldest (slot : Nat) : List Unretired → List Unretired
  | [] => []
  | e :: es => if e.slot = slot then es else e :: dropOldest slot es

/-- The state in which an unretired instruction of the executing issuer was issued: the scalar writes after it are undone,
newest first, and nothing after it has been issued (R167). -/
def State.rollBack (s : State) (e : Unretired) : State :=
  let s1 := (s.core.hist.filter s.ownsHist).reverse.foldl State.putBack s
  ((s1.modCore fun c => { c with hist := c.hist.filter fun h => !s.ownsHist h }).modCtx fun c =>
    { c with ahead := c.ahead.filter fun x => x.slot != e.slot }).setThread e.thread

/-- The oldest unretired instruction of the executing issuer executes as it was issued. A trap leaves nothing of what was
issued after it; a wait leaves all as it is, or, while its gang is being stopped, nothing of it and what came after (R309);
else the scalar registers and the PC stand as run-ahead has left them, and the history entries before which nothing is left
to retire are freed (R165). -/
def State.retireNow (s : State) (e : Unretired) : Out :=
  let rb := s.rollBack e
  match exec e.instr rb with
  | .next t =>
    if rb.trapped t then .next t
    else if t.thread = rb.thread then
      .next ((if s.frozen s.key then rb else s).keepWait t |>.modCtx fun c => { c with inWait := setAdd c.inWait e.slot })
    else
      .next ((((t.withRegsOf s).modCtx fun c => { c with ahead := dropOldest e.slot s.ctx.ahead }).modCore fun c =>
        { c with hist := s.core.hist.filterMap fun h =>
            if !s.ownsHist h then some h
            else if h.before ≤ 1 then none else some { h with before := h.before - 1 } }))
  | r => r

/-- Retirement goes on while the context's other strips are frozen, and to a stop point (R168, R308). -/
def State.retireTurn (s : State) (i : Issuer) : Out :=
  let c := s.ctxAt (ctxNum i.core i.lc)
  match c.ahead.find? fun e => e.slot == i.slot with
  | some e =>
    if c.status = .running ∨ c.status = .handler ∨ c.status = .stalled then State.retireNow { s with cur := i } e else .next s
  | none => .next s

/-! ## Pending traps (R168, R172, R309) -/

/-- The strip of lowest SIDX whose trap is pending. -/
def Ctx.pendingStrip (c : Ctx) : Option (Fin 4) :=
  ((List.finRange 4).foldl (fun (b : Option (Fin 4 × Nat)) g =>
    match c.strips.get g with
    | some x =>
      if x.held.isSome && (match b with
        | some y => decide (x.sidx.toNat < y.2)
        | none => true) then some (g, x.sidx.toNat) else b
    | none => b) none).map Prod.fst

/-- The lane group of the pending trap that is delivered next: of the context outside a body, of the strip that runs the
handler, else of the lowest SIDX. -/
def Ctx.nextPending (c : Ctx) : Option (Option (Fin 4) × Trap) :=
  match c.held with
  | some t => some (none, t)
  | none =>
    (if c.status = .handler then c.hstrip else c.pendingStrip).bind fun g =>
      ((c.strips.get g).bind Strip.held).map fun t => (some g, t)

/-- A pending trap of a context is delivered, once every vector instruction that its strips have issued has retired and no
other trap is being handled. -/
def State.deliverTurn (s : State) (k : Nat) : State :=
  let c := s.ctxAt k
  if (c.status != .running && c.status != .handler) || c.record.isSome || !c.ahead.isEmpty || s.frozen k then s
  else
    match c.nextPending with
    | none => s
    | some (lg, t) =>
      s.asIssuer { ctxIssuer k with lg := lg } fun s =>
        (if s.inBody then s.modStrip fun x => { x with held := none } else s.modCtx fun c => { c with held := none }).takeTrap t

end Sys2Proof.Machine
end

