-- ==== Sys2Proof/Machine/Turns.lean ====
section
/-! DEFINITION. The turns of seep units, events and replacement, the turn that comes next when the schedule names none
(assumption log 2), one step, and the placing of one instruction. -/

namespace Sys2Proof.Machine

/-! ## Turns of seep units and events -/

/-- A unit's turn: it begins its next word when none is at hand, and executes one operation (R277, R279); nothing while its
quarter has stopped (R318). -/
def State.unitTurn (s : State) (id n : Nat) : Out :=
  match s.kernels.find? fun k => k.id == id with
  | none => .next s
  | some k =>
    match k.units.find? fun u => u.id == n with
    | none => .next s
    | some u =>
      if k.stage != .running || k.stoppedUnit u || (s.quarter (quarterOf k.agent.core)).stopped then .next s
      else
        let u := if u.ops.isEmpty then u.load k.prog else u
        let s := { s.modKernel id fun k => k.setUnit u with unit := some (id, n) }
        match u.ops with
        | [] => .next s
        | op :: _ => exec op s

/-- An event's turn: nothing for what is not a well-formed event. -/
def State.eventTurn (s : State) (e : Instr) : Out :=
  match encode e with
  | .event => if eventOk e then exec e s else .next s
  | _ => .next s

/-- An entry of an L1, a TLB or an L2 is replaced (R178, R324). -/
def State.evictL1 (s : State) (core k : Nat) : State := s.modCoreAt core fun c => { c with l1 := c.l1.eraseIdx k }
def State.evictTlb (s : State) (unit k : Nat) : State := { s with tlbs := put s.tlbs unit ((lookD s.tlbs unit []).eraseIdx k) }
def State.evictL2 (s : State) (q : Fin 4) (k : Nat) : State := s.modQuarter q fun x => { x with l2 := x.l2.eraseIdx k }

/-- The turn of a gather or a replay: one element or region (R243, R247). -/
def State.elemTurn (s : State) (id : Nat) : State :=
  match s.gathers.find? fun g => g.id == id with
  | some g => s.gatherTurn g
  | none => s

def State.runTurn (s : State) : Turn → Out
  | .issue i => s.issueTurn i
  | .ahead i => s.aheadTurn i
  | .retire i => s.retireTurn i
  | .deliver k => .next (s.deliverTurn k)
  | .ctxEnd k => .next (s.tryEnd k)
  | .unit id n => s.unitTurn id n
  | .event e => s.eventTurn e
  | .evict core k => .next (s.evictL1 core k)
  | .evictTlb unit k => .next (s.evictTlb unit k)
  | .evictL2 q k => .next (s.evictL2 q k)
  | .row id => .next (s.rowTurn id)
  | .gather id => .next (s.elemTurn id)
  | .tlbia => .next s.tlbiaTurn
  | .imageDone => .next s.imageDone
  | .reportDone => .next s.reportDone
  | .mgmtRead m off => .next (s.masterRead m off)
  | .bar0Read off n => .next (s.bar0Read off n)
  | .msixWrite off bytes => .next (s.msixWrite off bytes)

/-! ## The turn that comes next when none is laid down -/

/-- Events that the cores may make. -/
def State.coreEvents (s : State) : List Instr :=
  (s.cores.flatMap fun c =>
    (if c.2.waiting.isEmpty then [] else [.rowAccept (Fin.ofNat 320 c.1)]) ++
    (List.range c.2.flight.length).map fun k => .rowComplete (Fin.ofNat 320 c.1) k) ++
  s.ctxs.flatMap fun c =>
    (if c.2.loop.isSome then [.stripStart (Fin.ofNat 320 (coreOfCtx c.1)) (Fin.ofNat 4 c.1)] else []) ++
    (if c.2.waits.isEmpty then [] else [.residencyRewalk (.ctx c.1)])

/-- Events that memory, cards, gathers, trains and seep kernels may make. -/
def State.engineEvents (s : State) : List Instr :=
  (List.range s.pend.length).map Instr.storePerform ++
  (s.cards.flatMap fun c =>
    [.cardDispatch (cardQuarter c), .cardReleasedArrival c.id, .cardVisibleArrival c.id] ++
    (if c.wait.isSome then [.residencyRewalk (.card c.id)] else [])) ++
  (s.gathers.map fun g => .gatherVisibleArrival g.id) ++
  ((s.sent.filter fun x => x.dest == x.train.srcDev).map fun x => .trainReceive x.train) ++
  (if s.parked.isEmpty then [] else [.seepRelease 0]) ++
  s.kernels.flatMap fun k =>
    if k.stage.waits then [.seepClaimGrant k.id]
    else (k.units.map fun u => .seepKernelFail k.id u.id) ++ [.seepRelease k.id]

/-- Gangs that the scheduler may place, with the place that it takes. -/
def State.gangEvents (s : State) : List Instr :=
  ((List.range 4).flatMap s.waitingGangs).flatMap fun x =>
    ((s.choose x.1 x.2).map fun cs => Instr.gangStart x.1.id x.2.num cs).toList ++
    (List.finRange 4).flatMap fun q => (s.runningGangs q).map fun o => .preemptDecision q o.1.id o.2.num x.1.id x.2.num

/-- Events that a quarter's engines may make. -/
def State.quarterEvents (s : State) (q : Fin 4) : List Instr :=
  let x := s.quarter q
  [.trapRecordWrite q] ++
  (match x.swap with
   | none => []
   | some w =>
     [.stopPointReached q, .swapSave q] ++
     match s.gang? w.inLaunch w.inGang with
     | some (l, g) => [.swapLoad q ((s.choose l g).getD [])]
     | none => [.swapLoad q []]) ++
  (if x.migration.isSome then [.migrationSectorCopy q, .migrationFinish q] else [])

/-- Events that the device may make of itself; those of time and of the outside come from the schedule alone. -/
def State.ownEvents (s : State) : List Instr :=
  s.coreEvents ++ s.engineEvents ++ (List.finRange 4).flatMap s.quarterEvents ++
  (s.launches.map fun l => .launchComplete l.id) ++
  (s.launches.map fun l => .gangStart l.id 0 []) ++ s.gangEvents ++
  (List.range s.xlat.owed.length).map .hotnessAdd

/-- Whether a turn makes a difference. -/
def State.changes (s : State) (t : Turn) : Bool :=
  match s.runTurn t with
  | .next s' => s' != s
  | _ => true

/-- Turns that finish what has been begun: retirement, pending traps, ends of contexts, rows of cards, elements of gathers and
replays, writes of TLBIA, and commands of the control processor. -/
def State.openTurns (s : State) : List Turn :=
  (s.ctxs.flatMap fun c =>
    (c.2.ahead.map fun e => Turn.retire (slotIssuer c.1 e.slot)) ++ (if c.2.pending then [.deliver c.1] else []) ++
    (if c.2.ending then [.ctxEnd c.1] else [])) ++
  ((s.cards.filter s.cardGoes).map fun c => .row c.id) ++
  ((s.gathers.filter fun g => !g.atEnd).map fun g => .gather g.id) ++
  (if s.xlat.tlbia.isEmpty then [] else [.tlbia]) ++
  (if s.regs.fwrun.isSome then [.imageDone] else []) ++ (if s.regs.attrun.isSome then [.reportDone] else [])

/-- The first turn that makes a difference: of what is open, of its own events, of its seep units; else the issuer that has been
ready longest. -/
def State.nextTurn (s : State) : Option Turn :=
  let events := s.ownEvents.map Turn.event
  let units := s.kernels.flatMap fun k => k.units.map fun u => Turn.unit k.id u.id
  match (s.openTurns ++ events ++ units).find? s.changes with
  | some t => some t
  | none => (s.readyOrder.find? fun i => !s.frozen (ctxNum i.core i.lc)).map .issue

/-! ## Placing one instruction -/

/-- An 8-byte entry in memory. -/
def State.poke (s : State) (a n v : Nat) : State :=
  { s with mem := wrBytes s.mem a (leBytes n v)
           memPoison := remark 6 s.memPoison a n false |>.filter fun g => g != a / 64 }

/-- Where `withFetchWord` puts its page tables and its packet. -/
def pokeRoot : Nat := 0x10000
def pokeTable : Nat := 0x20000
def pokePacket : Nat := 0x30000

/-- Address space 0 maps its first gibibyte onto the frames from 0 on, with every permission. -/
def State.pokeTables (s : State) : State :=
  let s := (s.poke pokeRoot 8 (2 ^ 62 + pokeTable / 256)).poke pokeTable 8 (2 ^ 62 + 2 ^ 61 + 2 ^ 60 + 2 ^ 59)
  { s with xlat := { s.xlat with asroot := s.xlat.asroot.set 0 (w64 (pokeRoot + 1)), hotbase := 0 }
           quarters := s.quarters.map fun q =>
             { q with stopped := false, swap := none, savelim := 0, jsize := 0 } }

/-- A packet with one slot, at which context 0 of core 0 stands, and its turn. -/
def State.pokeCore (s : State) (w : Nat) : State :=
  let s := s.pokeTables.poke pokePacket 20 (0x11 * 2 ^ 56 + w % 2 ^ 96 * 2 ^ 64)
  let s := (s.modCtxAt 0 fun c =>
    { c with status := .running, starting := 0, thread := { pc := w64 pokePacket, packet := none }, loop := none
             strips := .replicate 4 none, hstrip := none, record := none, waits := [], ahead := []
             held := none, ten := { c.ten with asid := 0 } }).modCoreAt 0 fun c => { c with waiting := c.waiting.filter fun r => r.lc != 0 }
  { s with turns := [.issue { core := 0, lc := 0, lg := none }], tlbs := put s.tlbs 0 []
           torn := s.torn.filter fun t => t.pa != pokePacket
           kernels := [] }

/-- A kernel of one word with one line at address 0, whose unit has the next turn. -/
def State.pokeUnit (s : State) (w : Nat) : State :=
  let k : Kernel :=
    { id := s.nextId, ctx := 0, lg := none, pd := 0, prog := [BitVec.ofNat 64 w], progAt := 0, xbase := 0, rbase := 0, rlines := 1
      frames := [0, 128, 256, 384], pinned := [], statAt := [], stat := 0, vis := 0, agent := s.agentOf 0, ten := (s.ctxAt 0).ten, pc := 0
      stage := .running, fail := none, units := unitsOf [0, 128, 256, 384] }
  { s with kernels := s.kernels ++ [k], nextId := s.nextId + 1, turns := [.unit s.nextId 0]
           quarters := s.quarters.map fun q => { q with stopped := false } }

/-- An instruction where the next step takes it: a 64-bit word on a seep unit, any other in a packet. -/
def State.pokeWord (s : State) (nbits w : Nat) : State :=
  if 32 < nbits ∧ nbits ≤ 64 then s.pokeUnit w else s.pokeCore w

/-- A turn, and after it the waits that have ended for gangs that are out, or on their way (R314). -/
def State.fullTurn (s : State) (t : Turn) : Out :=
  match s.runTurn t with
  | .next s' => .next s'.noteWakes
  | r => r

/-- One step: the next turn that the schedule lays down, or the machine's own. -/
def State.stepTurn (s : State) : Out :=
  match s.turns with
  | t :: ts => State.fullTurn { s with turns := ts } t
  | [] =>
    match s.nextTurn with
    | some t => s.fullTurn t
    | none => .next s

end Sys2Proof.Machine
end

