-- ==== Sys2Proof/Machine/Step.lean ====
section
/-! DEFINITION. One step of Merrok, and the placing of one instruction for it. -/

namespace Sys2Proof.Machine

/-- One step: the first turn of the schedule, or the machine's own when the schedule is empty. -/
def step (s : State) : Host.Outcome State Fault Refusal := s.stepTurn

/-- The state with an instruction of the given bits where its next step fetches. -/
def State.withFetchWord (s : State) (nbits w : Nat) : State := s.pokeWord nbits w

end Sys2Proof.Machine
end

