-- ==== Sys2Proof/Safety.lean ====
section
/-! DEFINITION. What counts as safe: the canonical form of every byte memory that the state holds, and a step that
answers a next state. -/

namespace Sys2Proof.Machine

/-- The memories of a core keep their canonical form. -/
def Core.memOk (c : Core) : Bool := Memory.wf c.stash && Memory.wf c.tiles

/-- The memories of a save record keep their canonical form. -/
def Saved.memOk (x : Saved) : Bool := x.cores.all fun c => c.2.memOk

/-- Every byte memory keeps its canonical form. -/
def State.memOk (s : State) : Bool :=
  Memory.wf s.mem && Memory.wf s.cls && Memory.wf s.host.windows && s.cores.all (fun c => c.2.memOk) &&
  s.quarters.all fun q => q.saves.all Saved.memOk

/-- A step from the state neither faults nor is refused. -/
def State.goesOn (s : State) : Prop := ∃ t, step s = .next t

end Sys2Proof.Machine
end

