-- ==== Sys2Proof/Certificates/Slice0/Obligations.lean ====
section
/-! DEFINITION. What is claimed of the model: one proposition for each obligation of OBLIGATIONS.json, after the
few words that several of them use. -/

namespace Sys2Proof.Claims

open Sys2Proof.Machine

/-- The destination rule of R87 lets an instruction go on: in a body its destination is no shared register. -/
def destOk (s : State) (d : Operand) : Prop := s.inBody = true → isShared d = false

/-- The w low bits of a register at a signedness (R93). -/
def lowBits (signed : Bool) (w : Nat) (a : Word) : Int :=
  if signed then (a.setWidth w).toInt else ((a.setWidth w).toNat : Int)

/-- The least and the greatest value of a w-bit integer type (R53). -/
def leastInt (signed : Bool) (w : Nat) : Int := if signed then -(2 : Int) ^ (w - 1) else 0
def greatestInt (signed : Bool) (w : Nat) : Int := if signed then (2 : Int) ^ (w - 1) - 1 else (2 : Int) ^ w - 1

/-- An exact integer fitted to w bits (R54): saturated or wrapped, and whether it saturated. -/
def fitted (signed : Bool) (w : Nat) (sat : Bool) (x : Int) : Int × Bool :=
  if sat = true ∧ x < leastInt signed w then (leastInt signed w, true)
  else if sat = true ∧ greatestInt signed w < x then (greatestInt signed w, true)
  else (if signed then (BitVec.ofInt w x).toInt else ((BitVec.ofInt w x).toNat : Int), false)

/-- Forms of Table 6-3 and R96 that write D from the values of A and B. -/
def wordForms : List ((Ctl → FR → Instr) × (Word → Word → Word)) :=
  [ (.mulh, fun a b => ((a.signExtend 128 * b.signExtend 128) >>> 64).setWidth 64),
    (.mulhn, fun a b => ((a.setWidth 128 * b.setWidth 128) >>> 64).setWidth 64),
    (.and, fun a b => a &&& b), (.or, fun a b => a ||| b), (.xor, fun a b => a ^^^ b), (.andn, fun a b => a &&& ~~~b),
    (.shl, fun a b => a * BitVec.ofNat 64 (2 ^ (b.toNat % 64))),
    (.shr, fun a b => BitVec.ofNat 64 (a.toNat / 2 ^ (b.toNat % 64))),
    (.sar, fun a b => BitVec.ofInt 64 (a.toInt / 2 ^ (b.toNat % 64))),
    (.rot, fun a b => (a <<< (b.toNat % 64)) ||| (a >>> (64 - b.toNat % 64))),
    (.min, fun a b => if a.toInt ≤ b.toInt then a else b), (.max, fun a b => if b.toInt ≤ a.toInt then a else b),
    (.minn, fun a b => if a.toNat ≤ b.toNat then a else b), (.maxn, fun a b => if b.toNat ≤ a.toNat then a else b),
    (.mov, fun a _ => a) ]

/-- The forms of Table 6-3 that count bits, and `sext`. -/
def countForms : List ((Ctl → FR → Instr) × (Word → Word → Word)) :=
  [ (.clz, fun a _ => BitVec.ofNat 64 ((List.range 64).takeWhile fun i => !a.getMsbD i).length),
    (.ctz, fun a _ => BitVec.ofNat 64 ((List.range 64).takeWhile fun i => !a.getLsbD i).length),
    (.popc, fun a _ => BitVec.ofNat 64 ((List.range 64).countP fun i => a.getLsbD i)),
    (.sext, fun a b =>
      let w := if b.toNat % 64 = 0 then 64 else b.toNat % 64
      (a.setWidth w).signExtend 64) ]

/-- The forms of R94, by operand values. -/
def divForms : List ((Ctl → FR → Instr) × (Word → Word → Word)) :=
  [ (.div, fun a b => if b = 0 then BitVec.allOnes 64 else BitVec.ofInt 64 (a.toInt.tdiv b.toInt)),
    (.divn, fun a b => if b = 0 then BitVec.allOnes 64 else BitVec.ofNat 64 (a.toNat / b.toNat)),
    (.rem, fun a b => if b = 0 then a else BitVec.ofInt 64 (a.toInt.tmod b.toInt)),
    (.remn, fun a b => if b = 0 then a else BitVec.ofNat 64 (a.toNat % b.toNat)) ]

/-- An executed transfer to a target that passes R28. -/
def jumps (s : State) (t : Word) (link : Operand) : State := (s.putS link s.nextPC).goto t

/-- The checks of a lanewise form that follow the resolving of its fields succeed: R79, R239, and the pops of its sources
(R240), which leave the state `u`. -/
def laneReady (i : Instr) (s : State) (o : Operand) (d : Fld) (srcs : List (Operand × Fld)) (u : State) : Prop :=
  s.checkOverlap o d (srcs.map Prod.snd) = .ok () ∧ s.checkStream o i = .ok () ∧ s.popAll (srcs.map Prod.fst) = .ok u

/-- An integer form of D and A, or of D, A and B, passes its checks (R107, R108). -/
def int1Ready (i : Instr) (f : FR) (s : State) (d a : Fld) (u : State) : Prop :=
  s.vecStart i = .ok () ∧ s.field f.opd f.ta f.wid.toNat .int = .ok d ∧ s.field f.opa f.ta f.wid.toNat .int = .ok a ∧
  laneReady i s f.opd d [(f.opa, a)] u
def int2Ready (i : Instr) (f : FR) (s : State) (d a b : Fld) (u : State) : Prop :=
  s.vecStart i = .ok () ∧ s.field f.opd f.ta f.wid.toNat .int = .ok d ∧ s.field f.opa f.ta f.wid.toNat .int = .ok a ∧
  s.field f.opb f.tb 0 .int = .ok b ∧ laneReady i s f.opd d [(f.opa, a), (f.opb, b)] u

/-- A floating form passes its checks (R107, R108, R383). -/
def flt1Ready (i : Instr) (f : FR) (s : State) (d a : Fld) (u : State) : Prop :=
  s.vecStart i = .ok () ∧ s.field f.opd f.ta 0 .flt = .ok d ∧ s.field f.opa f.ta 0 .flt = .ok a ∧
  (f.sat = true → satType d.ty = true) ∧ laneReady i s f.opd d [(f.opa, a)] u
def flt2Ready (i : Instr) (f : FR) (s : State) (d a b : Fld) (u : State) : Prop :=
  s.vecStart i = .ok () ∧ s.field f.opd f.ta 0 .flt = .ok d ∧ s.field f.opa f.ta 0 .flt = .ok a ∧
  s.field f.opb f.tb 0 .flt = .ok b ∧ (f.sat = true → satType d.ty = true) ∧
  laneReady i s f.opd d [(f.opa, a), (f.opb, b)] u

/-- What issuing the rows of an instruction does (R145, R146, R149): unless an unfinished row writes the cells of an empty
block, one waiting row for each block with a present lane, zeros in the cells of the others, and the PC moves on at once
only when there is no row. -/
def rowsGo (u : State) (a : Fld) (fmt cell tok slot : Nat) (present : List Nat) (o : Out) : Prop :=
  let blocks := List.range ((u.slen + 127) / 128)
  let has := fun j => present.any fun i => decide (128 * j ≤ i ∧ i < 128 * j + rowLanes fmt u.ctx.mvl)
  u.rowsOwe cell ((blocks.filter fun j => !has j).flatMap fun j => (List.range 128).map fun i => 128 * j + i) = false →
  ∃ t, o = .next t ∧
    t.core.waiting = u.core.waiting ++ (blocks.filter has).map (fun j => u.rowOf a fmt cell tok slot j present) ∧
    (∀ j ∈ blocks, has j = false → ∀ i, i < 128 → t.core.cell (u.cellKey cell (128 * j + i)) = 0) ∧
    t.core.rows = u.core.rows ∧ t.mem = u.mem ∧
    t.thread = (if (blocks.filter has).isEmpty then u.advance.thread else u.thread)

/-- A number as a rational; 0 for the values that are none. -/
def ratOf : Sys2Proof.Machine.Num → Rat
  | .fin neg n d e => (if neg then -1 else 1) * ((n : Rat) / (d : Rat)) * (2 : Rat) ^ e
  | _ => 0

/-- The exact sum of products under the rules for special values (R57, R70): NaN for a NaN or for infinities of both
signs, an infinity for infinities of one, else the rational sum, whose zero is −0 only when every product is −0. -/
def exactSum (ps : List Sys2Proof.Machine.Num) (sum : Sys2Proof.Machine.Num) : Prop :=
  ((.nan ∈ ps ∨ (.inf true ∈ ps ∧ .inf false ∈ ps)) → sum = .nan) ∧
  (.nan ∉ ps → ∀ b, .inf b ∈ ps → .inf (!b) ∉ ps → sum = .inf b) ∧
  ((∀ p ∈ ps, p.nonFinite = false) → sum.nonFinite = false ∧ ratOf sum = (ps.map ratOf).sum ∧
    (ratOf sum = 0 → sum = .zero (ps.all fun p => p == .zero true)))

/-- A finite value of this form is positive or negative, and its denominator is none of 0. -/
def properNum : Sys2Proof.Machine.Num → Prop
  | .fin _ n d _ => 0 < n ∧ 0 < d
  | _ => True

/-- The largest finite value of a format (Table 4-1). -/
def greatestFlt : Flt → Rat
  | .e4m3 => 448 | .e5m2 => 57344 | .e2m1 => 6 | .f16 => 65504
  | .bf16 => (2 ^ 8 - 1) * 2 ^ 120 | .f32 => (2 ^ 24 - 1) * 2 ^ 104

/-- The multiple of the spacing that a mode rounds a magnitude to, the magnitude in units of the spacing, and the stochastic
state after (R58, R61). -/
def multipleOf (v : Rat) (neg : Bool) (rm : RMode) (st : BitVec 32) : Nat × BitVec 32 :=
  let lo := v.floor.toNat
  let d := v - lo
  if d = 0 then (lo, st)
  else
    match rm with
    | .rtz => (lo, st)
    | .rdn => (if neg then lo + 1 else lo, st)
    | .rup => (if neg then lo else lo + 1, st)
    | .rna => (if 1 / 2 ≤ d then lo + 1 else lo, st)
    | .rsto => (if ((xorShift32 st).toNat : Int) < (d * 2 ^ 32).floor then lo + 1 else lo, xorShift32 st)
    | .rne | .dyn => (if d < 1 / 2 ∨ (d = 1 / 2 ∧ lo % 2 = 0) then lo else lo + 1, st)

/-- A pattern of a format is the finite value of a sign and a magnitude; of magnitude 0, the zero of that sign. -/
def encodes (f : Flt) (bits : Nat) (neg : Bool) (v : Rat) : Prop :=
  (f.val bits).nonFinite = false ∧ (f.val bits).sign = neg ∧ ratOf (f.val bits) = if neg then -v else v

/-- `Overflow` of R59, in a mode other than DYN. -/
def overflows (f : Flt) (neg : Bool) (rm : RMode) (sat wasInf : Bool) (r : Rounded) : Prop :=
  let outward := rm = .rne ∨ rm = .rna ∨ rm = .rsto ∨ (rm = .rup ∧ neg = false) ∨ (rm = .rdn ∧ neg = true)
  (f = .e2m1 ∨ sat = true → encodes f r.bits neg (greatestFlt f) ∧ r.satur = true) ∧
  (f ≠ .e2m1 → sat = false → r.satur = false ∧
    (¬outward → wasInf = false → encodes f r.bits neg (greatestFlt f)) ∧
    (outward ∨ wasInf = true → (f = .e4m3 → r.bits = 0x7F) ∧ (f ≠ .e4m3 → f.val r.bits = .inf neg)))

/-- The core's L1 holds what memory holds, and the elements of an access on memory lie in one sector each, by addresses
that agree with what the L1 holds of their sectors and with one another. -/
def sectorsAgree (s : State) (z : Nat) (rs : List (VElem × Ready)) : Prop :=
  (∀ e ∈ s.core.l1, e.data = BitVec.ofNat 1024 (rdVal s.mem e.pa 128)) ∧
  ∀ x ∈ rs, ∀ asid va pa, x.2 = .at_ (.hbm asid va pa) → va % 128 = pa % 128 ∧ va % 128 + z ≤ 128 ∧
    (∀ e ∈ s.core.l1, e.asid = asid → e.va = va / 128 * 128 → e.pa = pa / 128 * 128) ∧
    ∀ y ∈ rs, ∀ va' pa', y.2 = .at_ (.hbm asid va' pa') → va' / 128 = va / 128 → pa' / 128 = pa / 128

/-- What a vector load does with the elements of a plan once its checks have passed (R79, R217, R239, R240). -/
def vecLoads (i : Instr) (f : FM) (s : State) (d : Fld) (srcs : List (Operand × Fld)) (hot : Nat)
    (plan : State → Act (List VElem × State)) (o : Out) : Prop :=
  ∀ (u s2 s3 s4 : State) (es : List VElem) (rs : List (VElem × Ready)) (vs : List (Nat × Nat)),
    laneReady i s f.opd d srcs u → (∀ x ∈ srcs, u.checkParity x.2 (List.range u.slen) = .ok ()) → plan u = .ok (es, s2) →
    s2.vecCheck (d.width / 8) false false f.ff es = .ok (rs, s3) →
    s3.loadElems s (d.width / 8) f.nt (some hot) rs = .ok (vs, s4) →
    o = .next ((s4.putLanes d vs).residency rs).advance

/-- What a vector store does with the elements of a plan. -/
def vecStores (f : FM) (s : State) (d : Fld) (srcs : List (Operand × Fld)) (hot : Nat)
    (plan : State → Act (List VElem × State)) (o : Out) : Prop :=
  ∀ (u s2 s3 s4 : State) (es : List VElem) (rs : List (VElem × Ready)),
    s.popAll (f.opd :: srcs.map Prod.fst) = .ok u → u.checkParity d (List.range u.slen) = .ok () →
    (∀ x ∈ srcs, u.checkParity x.2 (List.range u.slen) = .ok ()) → plan u = .ok (es, s2) →
    s2.vecCheck (d.width / 8) true false f.ff es = .ok (rs, s3) →
    s3.storeElems (d.width / 8) (some hot) s3.newAcc (s3.pinsOf s3.cur.core (locsOf rs)) f.nt (fun i => d.get (s3.core.row (s3.lane i))) rs = .ok s4 →
    o = .next (s4.residency rs).advance

/-- A write of a column of a line by a seep unit (R185, R208, R385): once its back-invalidate has been acknowledged the 32 bytes
are in memory and the unit goes on; while one waits the unit stays, and nothing but the write-backs is in memory. -/
def unitWrites (s : State) (k : Kernel) (line col v : Nat) (u done : SeepUnit) (o : Out) : Prop :=
  let pa := k.column line col
  let b := s.backInvalidate pa (some (k.agent.asid, k.columnVa line col / 128 * 128))
  (b.trap = none → b.waits = false → pa + 32 ≤ hbmBytes →
    ∃ t : State, o = .next (t.modKernel k.id fun x => x.setUnit done) ∧ t.mem = wrBytes b.state.mem pa (leBytes 32 v)) ∧
  (b.waits = true → ∃ t : State, o = .next (t.modKernel k.id fun x => x.setUnit u) ∧ t.mem = b.state.mem)

/-- A prefix entry that is valid and holds these values (Table 23-3). -/
def entryIs (e : PEntry) (hash : Word) (page asid depth pin : Nat) (age : BitVec 32) : Prop :=
  peV e = true ∧ peHash e = hash ∧ pePage e = page ∧ peAs e = asid ∧ peDepth e = depth ∧ pePin e = pin ∧ peAge e = age

/-- A prefix table that holds the entries of a state but for one. -/
def keepsPrefix (tab : Table PEntry) (s : State) (n : Nat) : Prop := ∀ e, e ≠ n → lookD tab e 0 = s.pentry e

/-- What a context may read of cluster-shared memory (R196): of each byte what is there, or, where another core's stores are not
published to it, what was there before. -/
def mayRead (s : State) (k a n : Nat) (ys : List Byte) : Prop :=
  ys.length = n ∧ ∀ i, i < n → ys.getD i 0 = rdByte s.cls (a + i) ∨ ys.getD i 0 = (s.clsBefore k a n).getD i 0

/-- What a step makes of the outcome of its turn: the waits that have ended for gangs that are out, or on their way, are noted
(R314). -/
def noted (o : Out) : Out :=
  match o with
  | .next t => .next t.noteWakes
  | r => r

/-- The guard and hints of an instruction word, for an instruction that has one. -/
def ctlOf (i : Instr) : Option Ctl :=
  match encode i with
  | .core w => some (Ctl.ofWord w)
  | _ => none

end Sys2Proof.Claims

open Sys2Proof Sys2Proof.Machine Sys2Proof.Claims

/-! ## Scalar integer forms -/

/-- Table 6-3 and `mov` (R96): D takes the result and the PC advances. `clz`, `ctz`, `popc` and `sext` (Table 6-3). -/
def Obligations.WordResults : Prop :=
  (∀ e ∈ wordForms, ∀ (c : Ctl) (f : FR) (s : State), s.guard c = true → destOk s f.opd →
     exec (e.1 c f) s = .next (s.putS f.opd (e.2 (s.val f.opa) (s.val f.opb))).advance) ∧
  (∀ e ∈ countForms, ∀ (c : Ctl) (f : FR) (s : State), s.guard c = true → destOk s f.opd →
     exec (e.1 c f) s = .next (s.putS f.opd (e.2 (s.val f.opa) (s.val f.opb))).advance)

/-- `add`, `sub` and `mul` (R93): the low w bits at TA's signedness, fitted and extended; SATUR when it saturated. `li`,
`lih` and `sel` (R96), `bext` and `bins` (R95), `hmix` (R97). -/
def Obligations.ArithmeticAndFieldResults : Prop :=
  (∀ e ∈ ([(.add, (· + ·)), (.sub, (· - ·)), (.mul, (· * ·))] : List ((Ctl → FR → Instr) × (Int → Int → Int))),
   ∀ (c : Ctl) (f : FR) (s : State), s.guard c = true → destOk s f.opd →
     let w := if f.wid = 0 then 64 else f.wid.toNat
     let signed := f.ta != .n
     let r := fitted signed w f.sat (e.2 (lowBits signed w (s.val f.opa)) (lowBits signed w (s.val f.opb)))
     exec (e.1 c f) s = .next ((s.putS f.opd (BitVec.ofInt 64 r.1)).sticky .satur r.2).advance) ∧
  (∀ (c : Ctl) (s : State), s.guard c = true →
     (∀ f : FI, destOk s f.opd →
       exec (.li c f) s = .next (s.putS f.opd (BitVec.ofInt 64 f.imm.toInt)).advance ∧
       exec (.lih c f) s = .next (s.putS f.opd (f.imm ++ (s.val f.opd).setWidth 24)).advance) ∧
     (∀ f : FR, destOk s f.opd →
       exec (.sel c f) s = .next (s.putS f.opd (if s.readP (Fin.ofNat 8 f.sub.toNat) then s.val f.opa else s.val f.opb)).advance ∧
       exec (.hmix c f) s =
         (let x := s.val f.opa ^^^ (s.val f.opb * 0x9E3779B97F4A7C15)
          let y := (x ^^^ (x >>> 30)) * 0xBF58476D1CE4E5B9
          let z := (y ^^^ (y >>> 27)) * 0x94D049BB133111EB
          .next (s.putS f.opd (z ^^^ (z >>> 31))).advance)) ∧
     (∀ f : FX, destOk s f.opd →
       exec (.bext c f) s = .next (s.putS f.opd
         (if f.sub = 0 then ((s.val f.opa >>> f.xf.toNat).setWidth f.yf.toNat).setWidth 64
          else ((s.val f.opa >>> f.xf.toNat).setWidth f.yf.toNat).signExtend 64)).advance) ∧
     (∀ f : FX, destOk s f.opd → f.xf.toNat + f.yf.toNat ≤ 64 →
       ∃ v : Word, exec (.bins c f) s = .next (s.putS f.opd v).advance ∧
         ∀ i, i < 64 → v.getLsbD i =
           if f.xf.toNat ≤ i ∧ i < f.xf.toNat + f.yf.toNat then (s.val f.opa).getLsbD (i - f.xf.toNat)
           else (s.val f.opd).getLsbD i))

/-- Division (R94): no trap, no STATUS bit, and the decided cases. -/
def Obligations.DivisionResults : Prop :=  (∀ e ∈ divForms, ∀ (c : Ctl) (f : FR) (s : State), s.guard c = true → destOk s f.opd →
    ∃ t, exec (e.1 c f) s = .next t ∧ t = (s.putS f.opd (e.2 (s.val f.opa) (s.val f.opb))).advance ∧
      t.ctx.streg = s.ctx.streg) ∧
  ∀ (c : Ctl) (f : FR) (s : State), s.guard c = true → destOk s f.opd →
    s.val f.opa = BitVec.ofInt 64 (-(2 ^ 63)) → s.val f.opb = BitVec.ofInt 64 (-1) →
    exec (.div c f) s = .next (s.putS f.opd (BitVec.ofInt 64 (-(2 ^ 63)))).advance ∧
    exec (.rem c f) s = .next (s.putS f.opd 0).advance

/-! ## Control -/

/-- `nop` and `yield` (R91) and the transfers of Table 6-1, taken when the target passes R28. -/
def Obligations.TransferResults : Prop :=  (∀ (c : Ctl) (s : State), s.guard c = true →
     (∀ f : FR, exec (.nop c f) s = .next s.advance ∧ exec (.yield c f) s = .next s.advance) ∧
     (∀ f : FB, targetCause (fbTarget s.pc f) = none →
       exec (.br c f) s = .next (s.goto (fbTarget s.pc f)) ∧
       (destOk s f.opd → exec (.call c f) s = .next (jumps s (fbTarget s.pc f) f.opd))) ∧
     (∀ f : FR, targetCause (s.val f.opa) = none →
       exec (.brr c f) s = .next (s.goto (s.val f.opa)) ∧
       exec (.ret c f) s = .next (s.goto (s.val f.opa)) ∧
       (destOk s f.opd → exec (.callr c f) s = .next (jumps s (s.val f.opa) f.opd)))) ∧
  ∀ (c : Ctl) (s : State) (e : Cause), s.guard c = true →
    (∀ f : FB, targetCause (fbTarget s.pc f) = some e →
      exec (.br c f) s = .next (s.takeTrap { cause := e, val := fbTarget s.pc f }) ∧
      (destOk s f.opd → exec (.call c f) s = .next (s.takeTrap { cause := e, val := fbTarget s.pc f }))) ∧
    (∀ f : FR, targetCause (s.val f.opa) = some e →
      exec (.brr c f) s = .next (s.takeTrap { cause := e, val := s.val f.opa }) ∧
      exec (.ret c f) s = .next (s.takeTrap { cause := e, val := s.val f.opa }) ∧
      (destOk s f.opd → exec (.callr c f) s = .next (s.takeTrap { cause := e, val := s.val f.opa })))

/-- The loop brackets (R90): `vloop` skips an empty loop or records the loop; `vend` at the loop's start PC and `vbreak`
end the executing strip, `vbreak` also the starting of strips; outside a body they raise RANGE. The next strip of a
loop starts on the lowest free lane group (R160 to R162) with the index, the length and the register copies that its
number gives. The end of a strip (R90): its lane group is free; while another strip runs or is to start the loop goes
on, stopped if it broke; else the context continues at the exit PC with s32 to s63 and p4 to p7 of the kept strip, but for
the registers that a sum of the loop names, which take their sums (R136). The strip kept of all that have ended, in whatever
order, is the one of lowest SIDX that executed `vbreak`, and with none such the one of highest SIDX (R90). `exit` (R91, R297): once the vector
instructions that its strips have issued have completed, and when the publication at DONESCOPE and the write-back of the
stash succeed, the context is ENDED and no strip of it is left. -/
def Obligations.LoopsAndEnds : Prop :=
  (∀ (c : Ctl) (s : State), s.guard c = true →
     (∀ f : FB, s.inBody = false → targetCause (fbTarget s.pc f) = none →
       (s.val f.opa = 0 → exec (.vloop c f) s = .next (s.goto (fbTarget s.pc f))) ∧
       (s.val f.opa ≠ 0 → exec (.vloop c f) s = .next (s.modCtx fun x =>
         { x with loop := some { n := s.val f.opa, start := s.nextPC, exit := fbTarget s.pc f, next := 0
                                 stopped := false, final := none, sums := [] } }))) ∧
     (∀ (f : FB) (l : Loop), s.inBody = true → s.ctx.loop = some l → targetCause (fbTarget s.pc f) = none →
       (fbTarget s.pc f = l.start → exec (.vend c f) s = .next (s.endStrip false)) ∧
       (fbTarget s.pc f ≠ l.start → exec (.vend c f) s = .next (s.takeTrap { cause := .range, val := fbTarget s.pc f }))) ∧
     (∀ f : FR, s.inBody = true → exec (.vbreak c f) s = .next (s.endStrip true)) ∧
     (∀ f : FB, s.inBody = true → exec (.vloop c f) s = .next (s.takeTrap { cause := .range, val := Instr.upper (.vloop c f) })) ∧
     (∀ (f : FB) (g : FR), s.inBody = false →
       exec (.vend c f) s = .next (s.takeTrap { cause := .range, val := Instr.upper (.vend c f) }) ∧
       exec (.vbreak c g) s = .next (s.takeTrap { cause := .range, val := Instr.upper (.vbreak c g) }))) ∧
  (∀ (core : Fin 320) (lc : Fin 4) (s : State) (l : Loop) (g : Fin 4),
     let k := ctxNum core lc
     let c := s.ctxAt k
     let vl := (s.coreAt core).vl
     c.loop = some l → c.strips.get g = none → (∀ h : Fin 4, h < g → c.strips.get h ≠ none) →
     (c.status = .running ∨ c.status = .handler ∧ c.hstrip = none) → l.stopped = false → l.next < (l.n.toNat + vl - 1) / vl →
     c.record = none → c.pending = false → s.frozen k = false →
     ∃ (t : State) (x : Strip), exec (.stripStart core lc) s = .next t ∧ (t.ctxAt k).strips.get g = some x ∧
       x.thread.pc = l.start ∧ x.sidx = BitVec.ofNat 64 (l.next * vl) ∧ x.slen = min vl (l.n.toNat - l.next * vl) ∧
       (∀ i : Fin 32, x.s.get i = c.s.get (Fin.ofNat 64 (i.val + 32))) ∧
       (∀ i : Fin 4, x.p.get i = c.p.get (Fin.ofNat 8 (i.val + 4))) ∧ (∀ r, x.pops.get r = 0) ∧
       (t.ctxAt k).loop = some { l with next := l.next + 1 } ∧
       (∀ h, h ≠ g → (t.ctxAt k).strips.get h = c.strips.get h) ∧ t.mem = s.mem) ∧
  (∀ (s : State) (g : Fin 4) (t : Strip) (l : Loop) (broke : Bool),
     s.cur.lg = some g → s.ctx.strips.get g = some t → s.ctx.loop = some l →
     let new : Final := { sidx := t.sidx, broke := broke, s := t.s, p := t.p }
     let others := (List.finRange 4).any fun h => h != g && (s.ctx.strips.get h).isSome
     let more := !(l.stopped || broke) && decide (l.next < l.count s.core.vl)
     let u := s.endStrip broke
     ((others || more) = true →
       u.ctx.strips.get g = none ∧ u.ctx.thread = s.ctx.thread ∧ u.ctx.s = s.ctx.s ∧ u.ctx.p = s.ctx.p ∧
       u.ctx.loop = some { l with final := keepFinal l.final new, stopped := l.stopped || broke }) ∧
     ((others || more) = false →
       u.ctx.loop = none ∧ u.ctx.thread.pc = l.exit ∧
       ∀ k, keepFinal l.final new = some k →
         (∀ i : Fin 8, u.ctx.p.get i = if 4 ≤ i.val then k.p.get (Fin.ofNat 4 (i.val - 4)) else s.ctx.p.get i) ∧
         (rising l.sums = true → (∀ x ∈ l.sums, x.1 < 64) → ∀ i : Fin 64,
           u.ctx.s.get i = match look l.sums i.val with
             | some v => v
             | none => if 32 ≤ i.val then k.s.get (Fin.ofNat 32 (i.val - 32)) else s.ctx.s.get i))) ∧
  (∀ ends : List Final, ends ≠ [] → ∃ k ∈ ends, ends.foldl keepFinal none = some k ∧
     (k.broke = true → ∀ e ∈ ends, e.broke = true → k.sidx.toNat ≤ e.sidx.toNat) ∧
     (k.broke = false → ∀ e ∈ ends, e.broke = false ∧ e.sidx.toNat ≤ k.sidx.toNat)) ∧
  (∀ (c : Ctl) (f : FR) (s s1 s2 : State), s.guard c = true → s.ctx.ahead = [] →
     s.publish s.key (doneScopeOf s.ctx.ten.doneScope) = .ok s1 → s1.flushStash s1.cur.core true = .ok s2 →
     ∃ t, exec (.exit c f) s = .next t ∧ (t.ctxAt s2.key).status = .ended ∧ (t.ctxAt s2.key).loop = none ∧
       ∀ g : Fin 4, (t.ctxAt s2.key).strips.get g = none)

/-- `trap` and `brk` (R92): the trap with its cause, IMM40 zero-extended as TRAPVAL and NextPC as TRAPPC. `rfe` leaves
the handler for TRAPPC when that passes R28, traps when it does not, and is ILLEGAL outside a handler. Delivery of a
trap that is neither fatal nor replayable to a context that runs and has a handler (R170, R172): the trap registers,
the state HANDLER, and the handler's PC; nothing in memory. A trap with no handler to go to (R170, R316): the record
with its class, cause, PC and values goes into the queue of the context's quarter when that has room and the context's
strips have no vector instruction left to complete, and TQPROD counts it: by one, but for the records of stash sectors
that the end of the context finds it cannot write back. R87: a destination that strips share raises OPERAND_CLASS in a body,
with the destination's field, before any effect. -/
def Obligations.TrapDelivery : Prop :=
  (∀ (c : Ctl) (s : State), s.guard c = true →
     (∀ f : FI,
       exec (.trap c f) s = .next (s.takeTrap { cause := .software, val := f.imm.setWidth 64, pc := some s.nextPC }) ∧
       exec (.brk c f) s = .next (s.takeTrap { cause := .brk, val := f.imm.setWidth 64, pc := some s.nextPC })) ∧
     (∀ f : FR, s.ctx.status = .handler → targetCause s.ctx.trap.pc = none →
       exec (.rfe c f) s =
         .next ((s.modCtx fun x => { x with status := .running, hstrip := none }).goto s.ctx.trap.pc)) ∧
     (∀ (f : FR) (e : Cause), s.ctx.status = .handler → targetCause s.ctx.trap.pc = some e →
       exec (.rfe c f) s = .next (s.takeTrap { cause := e, val := s.ctx.trap.pc })) ∧
     (∀ f : FR, s.ctx.status ≠ .handler →
       exec (.rfe c f) s = .next (s.takeTrap { cause := .illegal, val := Instr.upper (.rfe c f) }))) ∧
  (∀ (s : State) (t : Trap), t.cause.fatal = false → t.cause.replayable = false → s.ctx.status = .running →
     s.ctx.win.handler ≠ 0 → s.holdsTrap = false →
     let u := s.takeTrap t
     u.ctx.trap = { cause := BitVec.ofNat 64 (Cause.code t.cause), pc := t.pc.getD s.pc, val := t.val, idx0 := t.idx0
                    idx1 := t.idx1, idx2 := t.idx2 } ∧
     u.ctx.status = .handler ∧ u.thread = { pc := s.ctx.win.handler, packet := none } ∧
     u.ctx.streg = s.ctx.streg ∧ u.mem = s.mem ∧ u.cls = s.cls ∧ u.cores = s.cores) ∧
  (∀ (s : State) (t : Trap), t.cause.fatal = false →
     (t.cause.replayable = true ∨ s.ctx.win.handler = 0 ∨ s.ctx.status = .handler) →
     let q := quarterOf (coreOfCtx s.key)
     (s.quarter q).occupancy < 248 → s.holdsTrap = false → s.ctx.ahead = [] →
     let r : TrapRec :=
       { seq := (s.quarter q).tqprod, gen := s.ctx.ten.gen, team := BitVec.ofNat 32 s.ctx.ten.gang, trap := t
         pc := t.pc.getD s.pc, core := s.cur.core, ctx := s.cur.lc
         cls := if s.ctx.status ≠ .handler ∧ t.cause.replayable = true then 1 else 3, card := none }
     let u := s.takeTrap t
     look (u.quarter q).ring ((s.quarter q).tqprod.toNat % 256) = some (r, false) ∧
     (r.cls = 1 ∨ (∀ l ∈ s.core.lines, ∀ (j : Fin 4) (d : BitVec 128), l.2.secs.get j ≠ .dirty d) →
       (u.quarter q).tqprod = (s.quarter q).tqprod + 1) ∧
     (u.ctxAt s.key).status = (if r.cls = 1 then .stalled else .ended)) ∧
  (∀ (c : Ctl) (s : State) (f : FR), s.guard c = true → s.inBody = true → isShared f.opd = true →
     ∀ mk ∈ ([.add, .sub, .mul, .mulh, .mulhn, .div, .divn, .rem, .remn, .and, .or, .xor, .andn, .shl, .shr, .sar, .rot,
              .min, .max, .minn, .maxn, .clz, .ctz, .popc, .sext, .mov, .sel, .hmix, .sfadd, .sfmul, .sffma, .sfcmp, .sfcvt,
              .sfmm, .cmp, .pand, .por, .pxor, .pnot, .pany, .spt, .spc, .spid, .spmk, .callr] :
              List (Ctl → FR → Instr)),
       exec (mk c f) s = .next (s.takeTrap { cause := .operandClass, val := f.opd.code.setWidth 64 })) ∧
  ∀ (c : Ctl) (s : State) (f : FR), s.guard c = true → s.inBody = true → isShared f.opd = true → s.ctx.ahead = [] →
    exec (.mfc c f) s = .next (s.takeTrap { cause := .operandClass, val := f.opd.code.setWidth 64 })

/-! ## Scalar floating, predicates, pointers and control registers -/

/-- Scalar floating forms (R98): exact results rounded once into TA's format at the low bits of D. Sums and products of values
are exact, with the special cases and the zeros of R57. Rounding is exact on what a format holds: a value that is no NaN
comes back as its own encoding, whatever the mode, without SATUR and without a stochastic step (R58); any other finite value
is rounded to a multiple of the spacing at it, by the mode, or overflows, and NaN, infinities and zeros are encoded as R59
says; into an integer, to a multiple of one, and clamped (R63). The spacing, at the greater of the value's own exponent and
the format's least, is that of R59. -/
def Obligations.ScalarFloatResults : Prop :=
  (∀ (c : Ctl) (f : FR) (s : State), s.guard c = true → destOk s f.opd →
     let a := floatIn f.ta (s.val f.opa)
     let b := floatIn f.tb (s.val f.opb)
     let rm := s.rm f.rm
     let down := rm == .rdn
     let st := s.ctx.stochAt 16384
     let format := (fltOfTy f.ta).getD .f32
     let written : Rounded → Host.Outcome State Fault Refusal := fun r =>
       .next (((s.putS f.opd (BitVec.ofNat 64 r.bits)).modCtx fun x => x.setStoch 16384 r.st).sticky .satur r.satur).advance
     exec (.sfadd c f) s = written (format.round (a.add down b) rm f.sat st) ∧
     exec (.sfmul c f) s = written (format.round (a.mul b) rm f.sat st) ∧
     exec (.sffma c f) s = written (format.round ((a.mul b).add down (floatIn f.ta (s.val f.opd))) rm f.sat st) ∧
     exec (.sfcmp c f) s = .next (s.putP f.opd (condOf f.sub.toNat (a.cmp b))).advance ∧
     exec (.sfcvt c f) s =
       written ((scalarTy f.ta).convert ((scalarTy f.tb).val (s.val f.opa).toNat) rm f.sat st) ∧
     ∃ v : Word, exec (.sfmm c f) s = .next (s.putS f.opd v).advance ∧
       (f.ta = f.tb → fltOfTy f.ta ≠ none →
         floatIn f.ta v = (if a = .nan ∧ b ≠ .nan then b else if b = .nan ∧ a ≠ .nan then a
           else Sys2Proof.Machine.Num.minmax (f.sub == 1) a b))) ∧
  (∀ (f : Flt) (bits : Nat) (rm : RMode) (st : BitVec 32), bits < 2 ^ f.width → f.val bits ≠ .nan →
     f.round (f.val bits) rm false st = { bits := bits, satur := false, st := st }) ∧
  (∀ (x y : Sys2Proof.Machine.Num) (down : Bool), properNum x → properNum y →
     let sum := x.add down y
     let product := x.mul y
     properNum sum ∧ properNum product ∧
     (x = .nan ∨ y = .nan → sum = .nan ∧ product = .nan) ∧
     (∀ a, x = .inf a ∨ y = .inf a → x ≠ .nan → y ≠ .nan →
       (x = .inf (!a) ∨ y = .inf (!a) → sum = .nan) ∧ (x ≠ .inf (!a) → y ≠ .inf (!a) → sum = .inf a) ∧
       (ratOf x = 0 ∧ x.nonFinite = false ∨ ratOf y = 0 ∧ y.nonFinite = false → product = .nan) ∧
       ((x.nonFinite = true ∨ ratOf x ≠ 0) → (y.nonFinite = true ∨ ratOf y ≠ 0) → product = .inf (x.sign != y.sign))) ∧
     (x.nonFinite = false → y.nonFinite = false →
       sum.nonFinite = false ∧ ratOf sum = ratOf x + ratOf y ∧
       (ratOf sum = 0 → sum = .zero (if x = .zero true ∧ y = .zero true then true
         else if x = .zero false ∧ y = .zero false then false else down)) ∧
       product.nonFinite = false ∧ ratOf product = ratOf x * ratOf y ∧ product.sign = (x.sign != y.sign))) ∧
  (∀ (f : Flt) (bits : Nat), properNum (f.val bits)) ∧
  (∀ (f : Flt) (x : Sys2Proof.Machine.Num) (rm : RMode) (sat : Bool) (st : BitVec 32), properNum x → rm ≠ .dyn →
     let r := f.round x rm sat st
     let neg := x.sign
     let v := if neg then -ratOf x else ratOf x
     (x = .nan → r.st = st ∧ (f = .e2m1 → r.bits = 0 ∧ r.satur = true) ∧
       (f = .e4m3 → sat = true → r.bits = 0x7E ∧ r.satur = true) ∧
       (f ≠ .e2m1 → (f = .e4m3 → sat = false) → f.nanBits = some r.bits ∧ r.satur = false)) ∧
     (∀ b, x = .inf b → r.st = st ∧ overflows f b rm sat true r) ∧
     (x.nonFinite = false → ratOf x = 0 → r.st = st ∧ r.satur = false ∧ encodes f r.bits neg 0) ∧
     (x.nonFinite = false → ratOf x ≠ 0 → ∃ ex : Int, (2 : Rat) ^ ex ≤ v ∧ v < (2 : Rat) ^ (ex + 1) ∧
       let q := (2 : Rat) ^ (max ex (1 - f.bias) - f.m)
       let y := multipleOf (v / q) neg rm st
       r.st = y.2 ∧ (y.1 * q ≤ greatestFlt f → r.satur = false ∧ encodes f r.bits neg (y.1 * q)) ∧
       (greatestFlt f < y.1 * q → overflows f neg rm sat false r))) ∧
  ∀ (sg : Bool) (w : Nat) (x : Sys2Proof.Machine.Num) (rm : RMode) (st : BitVec 32), 1 ≤ w → properNum x → rm ≠ .dyn →
    let neg := x.sign
    let y := multipleOf (if neg then -ratOf x else ratOf x) neg rm st
    let fit := fitted sg w true (if neg then -(y.1 : Int) else y.1)
    (x = .nan → roundToInt sg w x rm st = { bits := 0, satur := true, st := st }) ∧
    (∀ b, x = .inf b → roundToInt sg w x rm st =
      { bits := (BitVec.ofInt w (if b then leastInt sg w else greatestInt sg w)).toNat, satur := true, st := st }) ∧
    (x.nonFinite = false → roundToInt sg w x rm st =
      { bits := (BitVec.ofInt w fit.1).toNat, satur := fit.2, st := y.2 })

/-- Comparisons and predicate logic (R99), and pointer tests (R101). -/
def Obligations.PredicateResults : Prop :=  ∀ (c : Ctl) (f : FR) (s : State), s.guard c = true → destOk s f.opd →
    let a := s.val f.opa
    let b := s.val f.opb
    let lt := if f.ta = .n then a.ult b else a.slt b
    (∃ v : Bool, exec (.cmp c f) s = .next (s.putP f.opd v).advance ∧
      (f.sub = 0 → v = (a == b)) ∧ (f.sub = 1 → v = (a != b)) ∧ (f.sub = 2 → v = lt) ∧
      (f.sub = 3 → v = (lt || a == b)) ∧ (f.sub = 4 → v = !(lt || a == b)) ∧ (f.sub = 5 → v = !lt) ∧
      (f.sub = 6 → v = true) ∧ (f.sub = 7 → v = false)) ∧
    exec (.pand c f) s = .next (s.putP f.opd (s.getP f.opa && s.getP f.opb)).advance ∧
    exec (.por c f) s = .next (s.putP f.opd (s.getP f.opa || s.getP f.opb)).advance ∧
    exec (.pxor c f) s = .next (s.putP f.opd (xor (s.getP f.opa) (s.getP f.opb))).advance ∧
    exec (.pnot c f) s = .next (s.putP f.opd (!s.getP f.opa)).advance ∧
    exec (.pany c f) s = .next (s.putP f.opd (s.inBody && (List.range 4096).any fun i =>
      tagOf s.cur.lc s.slen (mreg f.opa) i (s.core.row (s.lane i)))).advance ∧
    ∃ v : Bool, exec (.spt c f) s = .next (s.putP f.opd v).advance ∧
      (f.sub = 0 → v = (malformed a == none && bitsAt a 60 4 == 0)) ∧
      (f.sub = 1 → v = (malformed a == none && bitsAt a 60 4 == 8)) ∧
      (f.sub = 2 → v = (malformed a == none && bitsAt a 60 4 == 9)) ∧
      (f.sub = 3 → v = (malformed a == none && bitsAt a 60 4 == 10)) ∧
      (f.sub = 4 → v = (malformed a != none)) ∧
      (f.sub = 5 → v = (malformed a == none &&
        (bitsAt a 60 4 == 9 && bitsAt a 48 9 == s.cur.core.val || bitsAt a 60 4 == 10 && bitsAt a 48 6 == s.cur.core.val / 8)))

/-- `spc` (R102): each cast under its condition, and the trap of each when that fails. -/
def Obligations.PointerCasts : Prop :=  (∀ (c : Ctl) (f : FR) (s : State), s.guard c = true → destOk s f.opd →
     let a := s.val f.opa
     let ok : Word → Prop := fun v => exec (.spc c f) s = .next (s.putS f.opd v).advance
     let range : Prop := exec (.spc c f) s = .next (s.takeTrap { cause := .range, val := a })
     (f.sub = 0 → ∀ e, malformed a = some e →
       exec (.spc c f) s = .next (s.takeTrap { cause := e, val := Instr.upper (.spc c f) })) ∧
     (f.sub = 0 → malformed a = none →
       ok (match bitsAt a 60 4 with
           | 0 => a &&& 0x01FFFFFFFFFFFFFF | 8 => a &&& 0xFFFFFFFF | 9 => a &&& 0xFFFFF | _ => a &&& 0x7FFFFF)) ∧
     (f.sub = 1 → if a.toNat < 2 ^ 32 then ok (0x8000000000000000 ||| a) else range) ∧
     (f.sub = 2 → if a.toNat < 2 ^ 20 then ok (BitVec.ofNat 64 (9 * 2 ^ 60 + s.cur.core.val * 2 ^ 48 + a.toNat)) else range) ∧
     (f.sub = 3 → if a.toNat < 2 ^ 23 then ok (BitVec.ofNat 64 (10 * 2 ^ 60 + s.cur.core.val / 8 * 2 ^ 48 + a.toNat)) else range) ∧
     (f.sub = 4 → if a.toNat < 2 ^ 57 then ok a else range)) ∧
  ∀ p : Word, malformed p =
    (match bitsAt p 60 4 with
     | 0 => if bitsAt p 57 3 = 0 then none else some .noncanon
     | 8 => if bitsAt p 32 28 = 0 then none else some .noncanon
     | 9 => if bitsAt p 57 3 = 0 ∧ bitsAt p 20 28 = 0 then (if bitsAt p 48 9 ≤ 319 then none else some .window)
            else some .noncanon
     | 10 => if bitsAt p 54 6 = 0 ∧ bitsAt p 23 25 = 0 then (if bitsAt p 48 6 ≤ 39 then none else some .window)
             else some .noncanon
     | _ => some .window)

/-- R103: `spid` and `spmk`, their encodings, results and traps. That A is the offending operand where both are out of range is
the model's choice (assumption log 16). -/
def Obligations.StashPointerForms : Prop :=  ∀ (c : Ctl) (f : FR) (s : State),
    encode (.spid c f) = .core (f.word 0x38 2 c) ∧ encode (.spmk c f) = .core (f.word 0x39 0 c) ∧
    (s.guard c = true → destOk s f.opd →
      exec (.spid c f) s = .next (s.putS f.opd
        (if malformed (s.val f.opa) = none ∧ bitsAt (s.val f.opa) 60 4 = 9 then BitVec.ofNat 64 (bitsAt (s.val f.opa) 48 9)
         else BitVec.allOnes 64)).advance ∧
      ((s.val f.opa).toNat ≤ 319 → (s.val f.opb).toNat < 2 ^ 20 →
        exec (.spmk c f) s =
          .next (s.putS f.opd ((9#64 <<< 60) ||| (s.val f.opa <<< 48) ||| s.val f.opb)).advance) ∧
      (319 < (s.val f.opa).toNat → exec (.spmk c f) s = .next (s.takeTrap { cause := .range, val := s.val f.opa })) ∧
      ((s.val f.opa).toNat ≤ 319 → 2 ^ 20 ≤ (s.val f.opb).toNat →
        exec (.spmk c f) s = .next (s.takeTrap { cause := .range, val := s.val f.opb })) ∧
      (∀ n : BitVec 8, f.opb = .imm n → n.msb = true → ∃ v, exec (.spmk c f) s = .next (s.takeTrap { cause := .range, val := v })))

/-- `mfc` and `mtc` (R104): the register's value in D; a write of STATUS, TRAPPC, SRSEED and a field-map entry that
passes R78; RANGE for a non-zero upper half of a narrow register, and for an entry that fails. Both wait until every earlier
vector instruction of the context has retired (R106). What each register of Table 6-6 reads as, CWIN as R75 lays it out and
OWNER as Table 24-3 does. -/
def Obligations.ControlRegisterMoves : Prop :=  (∀ (c : Ctl) (f : FR) (s : State), s.guard c = true →
    s.ctx.ahead ≠ [] → exec (.mfc c f) s = .next s ∧ exec (.mtc c f) s = .next s) ∧
  (∀ (c : Ctl) (f : FR) (s : State), s.guard c = true → s.ctx.ahead = [] →
     (∀ n : BitVec 8, destOk s f.opd → f.opa = .cr n →
       exec (.mfc c f) s = .next (s.putS f.opd (s.readCr n.toNat)).advance) ∧
     ((s.inBody = true → s.ctx.status = .handler) →
       (f.opd = .cr 0x00 → exec (.mtc c f) s =
         .next (s.modCtx fun x => { x with streg := writeStatus x.streg (s.val f.opa) }).advance) ∧
       (f.opd = .cr 0x02 → exec (.mtc c f) s =
         .next (s.modCtx fun x => { x with trap := { x.trap with pc := s.val f.opa } }).advance)) ∧
     (∀ n : BitVec 8, f.opd = .cr n → s.inBody = false →
       (n = 0x0B → (s.val f.opa).toNat < 2 ^ 32 → exec (.mtc c f) s =
         .next (s.modCtx fun x => { x with srseed := (s.val f.opa).setWidth 32, stoch := [] }).advance) ∧
       (∀ k : Fin 32, n = BitVec.ofNat 8 (0x20 + k.val) → (s.val f.opa).toNat < 2 ^ 32 →
         (entryOk s.ctx.win ((s.val f.opa).setWidth 32) = true →
           exec (.mtc c f) s = .next (s.setEntry k ((s.val f.opa).setWidth 32)).advance) ∧
         (entryOk s.ctx.win ((s.val f.opa).setWidth 32) = false →
           exec (.mtc c f) s = .next (s.takeTrap { cause := .range, val := s.val f.opa, idx0 := BitVec.ofNat 64 k.val }))) ∧
       (n ≠ 0x00 → n ≠ 0x02 → 2 ^ 32 ≤ (s.val f.opa).toNat →
         exec (.mtc c f) s = .next (s.takeTrap { cause := .range, val := s.val f.opa }))) ∧
     (∀ n : BitVec 8, f.opd = .cr n → s.inBody = true → (s.ctx.status = .handler → n ≠ 0x00 ∧ n ≠ 0x02) →
       exec (.mtc c f) s = .next (s.takeTrap { cause := .operandClass, val := f.opd.code.setWidth 64 }))) ∧
  (∀ old v : Word,
    let new := writeStatus old v
    bitsAt new 7 9 = 0 ∧ bitsAt new 32 32 = 0 ∧ bitsAt new 16 16 = bitsAt v 16 16 ∧
    bitsAt new 4 3 = (if bitsAt v 4 3 < 6 then bitsAt v 4 3 else bitsAt old 4 3) ∧
    ∀ i, i < 4 → new.getLsbD i = (old.getLsbD i && !v.getLsbD i)) ∧
  ∀ s : State,
    s.readCr 0x00 = s.ctx.streg ∧ s.readCr 0x01 = s.ctx.trap.cause ∧ s.readCr 0x02 = s.ctx.trap.pc ∧
    s.readCr 0x03 = s.ctx.trap.val ∧ s.readCr 0x04 = s.ctx.trap.idx0 ∧ s.readCr 0x05 = s.ctx.trap.idx1 ∧
    s.readCr 0x06 = s.ctx.trap.idx2 ∧ s.readCr 0x08 = BitVec.ofNat 64 s.slen ∧ s.readCr 0x09 = s.sidx ∧
    (s.inBody = false → s.readCr 0x08 = 0 ∧ s.readCr 0x09 = 0) ∧ s.readCr 0x0A = BitVec.ofNat 64 s.ctx.mvl ∧
    s.readCr 0x0B = s.ctx.srseed.setWidth 64 ∧
    (s.ctx.win.cb < 512 → s.readCr 0x0C = BitVec.ofNat 64 (s.ctx.win.cb * 2 ^ 16 + s.ctx.win.cn)) ∧
    s.readCr 0x0D = BitVec.ofNat 64 (s.cur.core.val + s.cur.lc.val * 2 ^ 16) ∧ s.readCr 0x10 = s.regs.aithresh ∧
    s.readCr 0x11 = BitVec.ofNat 64 (s.owner.lease * 2 ^ 48 + s.owner.epoch.toNat * 2 ^ 32 + s.owner.cand * 2 ^ 8 + s.owner.own) ∧
    s.readCr 0x12 = s.regs.fatalsum ∧ ∀ k : Fin 32, s.readCr (0x20 + k.val) = (s.ctx.fmap.get k).setWidth 64

/-! ## Vector forms -/

/-- The type and columns of a vector operand (R107), with its type code or the TYPE of its entry, and the causes of the checks of
R108 that the field map decides: an invalid entry, a format of another width, a class of type that the form does not take, and
columns that leave the window on either side. That the class and the width are checked before the window is the model's choice
(assumption log 16). -/
def Obligations.FieldResolution : Prop :=  ∀ (s : State) (n : Fin 32) (ty : Ty) (wid : Nat) (want : Want),
    let e := s.ctx.fmap.get n
    let r := s.field (.v n) ty wid want
    let operandClass : Act Fld := raise s .operandClass ((Operand.v n).code.setWidth 64) (BitVec.ofNat 64 n.val)
    let range : Act Fld := raise s .range ((Operand.v n).code.setWidth 64) (BitVec.ofNat 64 n.val)
    let inside := fun w => s.ctx.win.cb ≤ bitsAt e 11 9 ∧ bitsAt e 11 9 + w ≤ s.ctx.win.cb + s.ctx.win.cn
    (bitAt e 31 = false → r = operandClass) ∧
    (bitAt e 31 = true → ty = .i ∨ ty = .n →
      let w := if wid = 0 then bitsAt e 25 6 + 1 else wid
      (want = .flt → r = operandClass) ∧
      (want ≠ .flt → inside w → r = .ok { reg := n, ty := .int (ty == .i) w, col := bitsAt e 11 9, width := w }) ∧
      (want ≠ .flt → ¬inside w → r = range)) ∧
    (bitAt e 31 = true → ty = .fm → 1 ≤ bitsAt e 20 5 → bitsAt e 20 5 ≤ 8 →
      let w := bitsAt e 25 6 + 1
      (bitsAt e 20 5 ≤ 2 → entryTy e = .int (bitsAt e 20 5 == 1) w ∧ (want = .flt → r = operandClass)) ∧
      (∀ x : Flt, fltOfTy (.ofCode (bitsAt e 20 5)) = some x → entryTy e = .flt x ∧ (want = .int → r = operandClass)) ∧
      (want = .any ∨ (want = .int ∧ bitsAt e 20 5 ≤ 2) ∨ (want = .flt ∧ 3 ≤ bitsAt e 20 5) →
        (inside w → r = .ok { reg := n, ty := entryTy e, col := bitsAt e 11 9, width := w }) ∧ (¬inside w → r = range))) ∧
    (bitAt e 31 = true → ty = .fm → want = .any → inside (bitsAt e 25 6 + 1) →
      r = .ok { reg := n, ty := entryTy e, col := bitsAt e 11 9, width := bitsAt e 25 6 + 1 }) ∧
    (∀ x : Flt, bitAt e 31 = true → fltOfTy ty = some x →
      (x.width ≠ bitsAt e 25 6 + 1 → r = operandClass) ∧
      (x.width = bitsAt e 25 6 + 1 → want = .int → r = operandClass) ∧
      (x.width = bitsAt e 25 6 + 1 → want ≠ .int →
        (inside x.width → r = .ok { reg := n, ty := .flt x, col := bitsAt e 11 9, width := x.width }) ∧
        (¬inside x.width → r = range)))

/-- Results go into the destination field of active lanes alone (R109): every other bit of every row, and every other part of
the state but the context's stochastic states and its SATUR bit, stays. So do tags in a mask register, but for the tag errors of
the core, whose columns are encoded anew. Fitting to an integer type (R54): the w bits of
the exact result, or the nearest bound with SAT. -/
def Obligations.LaneResultsFrame : Prop :=
  ((∀ (s : State) (m : Fin 6) (d : Fld) (op : Nat → BitVec 512 → BitVec 32 → Rounded),
      let t := s.mapLanes m d op
      (∀ (l b : Nat), b < 512 →
        (t.core.row l).getLsbD b =
          match (s.active m).find? (fun i => s.lane i == l) with
          | some i =>
            if d.col ≤ b ∧ b < d.col + d.width then
              (op i (s.core.row l) (s.ctx.stochAt l)).bits.testBit (b - d.col)
            else (s.core.row l).getLsbD b
          | none => (s.core.row l).getLsbD b) ∧
      (∀ i, i ∈ s.active m ↔ i < s.slen ∧ (m = 0 ∨ (s.core.row (s.lane i)).getLsbD (s.cur.lc.val * 6 + m.val) = true)) ∧
      t.ctx.streg = (if ((s.active m).any fun i => (op i (s.core.row (s.lane i)) (s.ctx.stochAt (s.lane i))).satur) = true
        then s.ctx.streg ||| 4 else s.ctx.streg) ∧
      t.ctx = { s.ctx with stoch := t.ctx.stoch, streg := t.ctx.streg } ∧ (∀ k, k ≠ s.key → t.ctxAt k = s.ctxAt k) ∧
      t.core = { s.core with rows := t.core.rows } ∧ (∀ n, n ≠ s.cur.core.val → t.coreAt n = s.coreAt n) ∧
      t = { s with ctxs := t.ctxs, cores := t.cores }) ∧
   ∀ (s : State) (m j : Fin 6) (op : Nat → BitVec 512 → Bool),
     let t := s.mapTags m j op
     (∀ (l b : Nat), b < 512 →
       (t.core.row l).getLsbD b =
         match (s.active m).find? (fun i => s.lane i == l) with
         | some i => if b = s.cur.lc.val * 6 + j.val then op i (s.core.row l) else (s.core.row l).getLsbD b
         | none => (s.core.row l).getLsbD b) ∧
     t.core = { s.core with rows := t.core.rows, tagErr := t.core.tagErr } ∧
     (∀ n, n ≠ s.cur.core.val → t.coreAt n = s.coreAt n) ∧ t = { s with cores := t.cores }) ∧
  (∀ (signed : Bool) (w : Nat) (sat : Bool) (x : Int) (st : BitVec 32), 1 ≤ w →
     let r := fitTo (.int signed w) sat x st
     let y := fitted signed w sat x
     r.st = st ∧ r.satur = y.2 ∧ BitVec.ofNat w r.bits = BitVec.ofInt w y.1 ∧
     (sat = true → leastInt signed w ≤ y.1 ∧ y.1 ≤ greatestInt signed w) ∧
     (leastInt signed w ≤ x → x ≤ greatestInt signed w → y = (x, false)))

/-- Vector integer forms of A, or of A and B (R113, R116): under the checks of R75, R79, R107 and R108, the exact result
fitted in each active lane. Shifts, comparison, conversion, move and field extraction (R114, R115, R116); the RANGE of
`vbext` has the default values (R386). That `vcmp` reads a scalar operand as signed whatever the type is the model's choice
(assumption log 16). -/
def Obligations.VectorIntegerResults : Prop :=
  (∀ (c : Ctl) (f : FR) (s : State), s.guard c = true →
     (∀ e ∈ ([(.vadd, fun _ a b => a + b), (.vsub, fun _ a b => a - b), (.vmul, fun _ a b => a * b),
              (.vmac, fun d a b => d + a * b), (.vmin, fun _ a b => min a b), (.vmax, fun _ a b => max a b)] :
              List ((Ctl → FR → Instr) × (Int → Int → Int → Int))),
      ∀ (d a b : Fld) (u : State), int2Ready (e.1 c f) f s d a b u →
       exec (e.1 c f) s = .next (u.mapLanes f.msk d fun _ r st =>
         fitTo d.ty f.sat (e.2 (d.int r) (a.int r) (b.int r)) st).advance) ∧
     (∀ (d a b : Fld) (u : State),
       (int2Ready (.vmulh c f) f s d a b u →
         exec (.vmulh c f) s = .next (u.mapLanes f.msk d fun _ r st =>
           fitTo d.ty f.sat (a.int r * b.int r / 2 ^ d.width) st).advance) ∧
       (int2Ready (.vsel c f) f s d a b u →
         exec (.vsel c f) s = .next (u.mapLanes f.msk d fun p r st =>
           fitTo d.ty f.sat (if tagOf s.cur.lc s.slen (Fin.ofNat 6 f.sub.toNat) p r then a.int r else b.int r) st).advance) ∧
       (int2Ready (.vand c f) f s d a b u → exec (.vand c f) s = .next (u.mapLanes f.msk d fun _ r st =>
         ⟨(BitVec.ofInt d.width (a.int r) &&& BitVec.ofInt d.width (b.int r)).toNat, false, st⟩).advance) ∧
       (int2Ready (.vor c f) f s d a b u → exec (.vor c f) s = .next (u.mapLanes f.msk d fun _ r st =>
         ⟨(BitVec.ofInt d.width (a.int r) ||| BitVec.ofInt d.width (b.int r)).toNat, false, st⟩).advance) ∧
       (int2Ready (.vxor c f) f s d a b u → exec (.vxor c f) s = .next (u.mapLanes f.msk d fun _ r st =>
         ⟨(BitVec.ofInt d.width (a.int r) ^^^ BitVec.ofInt d.width (b.int r)).toNat, false, st⟩).advance)) ∧
     (∀ e ∈ ([(.vneg, fun _ a => -a), (.vabs, fun _ a => (a.natAbs : Int)), (.vadds, fun k a => a + k),
              (.vsubs, fun k a => a - k)] : List ((Ctl → FR → Instr) × (Int → Int → Int))),
      ∀ (d a : Fld) (u : State), int1Ready (e.1 c f) f s d a u →
       exec (e.1 c f) s = .next (u.mapLanes f.msk d fun _ r st =>
         fitTo d.ty f.sat (e.2 (if f.tb = .n then ((s.val f.opb).toNat : Int) else (s.val f.opb).toInt) (a.int r)) st).advance) ∧
     (∀ (d a : Fld) (u : State),
       (int1Ready (.vpopc c f) f s d a u → ∃ n : BitVec 512 → Nat,
         exec (.vpopc c f) s = .next (u.mapLanes f.msk d fun _ r st => fitTo d.ty f.sat (n r) st).advance ∧
         ∀ r, n r = (List.range a.width).countP fun i => (a.get r).testBit i) ∧
       (int1Ready (.vclz c f) f s d a u → ∃ n : BitVec 512 → Nat,
         exec (.vclz c f) s = .next (u.mapLanes f.msk d fun _ r st => fitTo d.ty f.sat (n r) st).advance ∧
         ∀ r, a.get r < 2 ^ (a.width - n r) ∧ n r ≤ a.width ∧ (n r < a.width → 2 ^ (a.width - n r - 1) ≤ a.get r)) ∧
       (int1Ready (.vnot c f) f s d a u → exec (.vnot c f) s = .next (u.mapLanes f.msk d fun _ r st =>
         ⟨(~~~BitVec.ofInt d.width (a.int r)).toNat, false, st⟩).advance))) ∧
  (∀ (c : Ctl) (f : FR) (s : State), s.guard c = true →
     (∀ e ∈ ([(.vshl, fun a r k => a.int r * 2 ^ k), (.vshr, fun a r k => ((a.get r / 2 ^ k : Nat) : Int)),
              (.vsar, fun a r k => a.int r / 2 ^ k)] : List ((Ctl → FR → Instr) × (Fld → BitVec 512 → Nat → Int))),
       (∀ (d a b : Fld) (u : State) (n : Fin 32), f.opb = .v n → int2Ready (e.1 c f) f s d a b u →
         exec (e.1 c f) s = .next (u.mapLanes f.msk d fun _ r st =>
           fitTo d.ty f.sat (e.2 a r (b.int r % 64).toNat) st).advance) ∧
       (∀ (d a : Fld) (u : State), (∀ n, f.opb ≠ .v n) → int1Ready (e.1 c f) f s d a u →
         exec (e.1 c f) s = .next (u.mapLanes f.msk d fun _ r st =>
           fitTo d.ty f.sat (e.2 a r ((s.val f.opb).toNat % 64)) st).advance)) ∧
     (∀ (a b : Fld) (u : State) (n : Fin 32), f.opb = .v n → s.vecStart (.vcmp c f) = .ok () →
       s.field f.opa f.ta f.wid.toNat .int = .ok a → s.field f.opb f.tb 0 .int = .ok b → s.popAll [f.opa, f.opb] = .ok u →
       exec (.vcmp c f) s = .next (u.mapTags f.msk (mreg f.opd) fun _ r =>
         condOf f.sub.toNat (some (compare (a.int r) (b.int r)))).advance) ∧
     (∀ (a : Fld) (u : State), (∀ n, f.opb ≠ .v n) → s.vecStart (.vcmp c f) = .ok () →
       s.field f.opa f.ta f.wid.toNat .int = .ok a → s.popAll [f.opa] = .ok u →
       exec (.vcmp c f) s = .next (u.mapTags f.msk (mreg f.opd) fun _ r =>
         condOf f.sub.toNat (some (compare (a.int r) (s.val f.opb).toInt))).advance) ∧
     (∀ (d a : Fld) (u : State), s.vecStart (.vcvt c f) = .ok () → s.field f.opd f.ta f.wid.toNat .int = .ok d →
       s.field f.opa f.tb 0 .int = .ok a → laneReady (.vcvt c f) s f.opd d [(f.opa, a)] u →
       exec (.vcvt c f) s = .next (u.mapLanes f.msk d fun _ r st => fitTo d.ty f.sat (a.int r) st).advance) ∧
     (∀ (d a : Fld) (u : State), s.vecStart (.vmov c f) = .ok () → s.field f.opd .fm 0 .any = .ok d →
       s.field f.opa .fm 0 .any = .ok a → laneReady (.vmov c f) s f.opd d [(f.opa, a)] u →
       exec (.vmov c f) s = .next (u.mapLanes f.msk d fun _ r st => ⟨a.get r % 2 ^ d.width, false, st⟩).advance) ∧
     (∀ (g : FX) (d a : Fld) (u : State), s.vecStart (.vbext c g) = .ok () → s.field g.opd .fm 0 .int = .ok d →
       s.field g.opa .fm 0 .int = .ok a → laneReady (.vbext c g) s g.opd d [(g.opa, a)] u →
       (g.xf.toNat + g.yf.toNat ≤ a.width →
         exec (.vbext c g) s = .next (u.mapLanes g.msk d fun _ r st =>
           let x : BitVec g.yf.toNat := BitVec.ofNat _ (a.get r / 2 ^ g.xf.toNat)
           ⟨(if g.sub = 0 then x.setWidth d.width else x.signExtend d.width).toNat, false, st⟩).advance) ∧
       (a.width < g.xf.toNat + g.yf.toNat →
         exec (.vbext c g) s = .next (s.takeTrap { cause := .range, val := Instr.upper (.vbext c g) }))))

/-- `vfmap`, `vdim`, `vsid`, `vidx` and `vbcast` (R111, R112): the entry, the dimension register, and a value of the
position or of a scalar in each active lane; `vfmap` and `vdim` trap in a body. An error that a scrub found is raised by the
next vector instruction, shown for these and for `vadd` (R86). The order of the checks, and that A is the offending operand
of `vdim` where both are out of range, is the model's choice (assumption log 16). -/
def Obligations.VectorSetupResults : Prop :=  ∀ (c : Ctl) (f : FR) (s : State), s.guard c = true →
    (∀ n : Fin 32, f.opd = .v n → s.inBody = false → s.ctx.scrub = none → s.checkStream f.opd (.vfmap c f) = .ok () →
      (s.val f.opa).toNat < 2 ^ 32 →
      (entryOk s.ctx.win ((s.val f.opa).setWidth 32) = true →
        exec (.vfmap c f) s = .next (s.setEntry n ((s.val f.opa).setWidth 32)).advance) ∧
      (entryOk s.ctx.win ((s.val f.opa).setWidth 32) = false →
        exec (.vfmap c f) s = .next (s.takeTrap { cause := .range, val := s.val f.opa, idx0 := BitVec.ofNat 64 n.val }))) ∧
    (s.inBody = false → s.ctx.scrub = none → s.checkStream f.opd (.vfmap c f) = .ok () → 2 ^ 32 ≤ (s.val f.opa).toNat →
      exec (.vfmap c f) s = .next (s.takeTrap { cause := .range, val := Instr.upper (.vfmap c f) })) ∧
    (∀ n : Fin 3, f.opd = .d n → s.inBody = false → s.ctx.scrub = none → (s.val f.opa).toNat < 2 ^ 32 →
      -(2 ^ 31) ≤ (s.val f.opb).toInt → (s.val f.opb).toInt < 2 ^ 31 →
      exec (.vdim c f) s = .next (s.modCtx fun x => { x with dims :=
        (x.dims.set n.val { len := (s.val f.opa).setWidth 32, stride := (s.val f.opb).setWidth 32 } n.isLt) }).advance) ∧
    (∀ n : Fin 3, f.opd = .d n → s.inBody = false → s.ctx.scrub = none →
      (2 ^ 32 ≤ (s.val f.opa).toNat → exec (.vdim c f) s = .next (s.takeTrap { cause := .range, val := s.val f.opa })) ∧
      ((s.val f.opa).toNat < 2 ^ 32 → (s.val f.opb).toInt < -(2 ^ 31) ∨ 2 ^ 31 ≤ (s.val f.opb).toInt →
        exec (.vdim c f) s = .next (s.takeTrap { cause := .range, val := s.val f.opb }))) ∧
    (∀ (v : Word) (n : Nat), s.inBody = false → s.ctx.scrub = some (v, n) →
      let t : Trap := { cause := .uncorrected, val := v, mem := n, addr := bitsAt v 0 14 }
      exec (.vfmap c f) s = .next (s.takeTrap t) ∧ exec (.vdim c f) s = .next (s.takeTrap t) ∧
      exec (.vadd c f) s = .next (s.takeTrap t)) ∧
    (s.inBody = true →
      exec (.vfmap c f) s = .next (s.takeTrap { cause := .operandClass, val := f.opd.code.setWidth 64 }) ∧
      exec (.vdim c f) s = .next (s.takeTrap { cause := .operandClass, val := f.opd.code.setWidth 64 })) ∧
    (∀ (d : Fld) (u : State), s.field f.opd f.ta f.wid.toNat .int = .ok d →
      (s.vecStart (.vsid c f) = .ok () → laneReady (.vsid c f) s f.opd d [] u →
        exec (.vsid c f) s =
          .next (u.mapLanes f.msk d fun p _ st => fitTo d.ty f.sat ((s.sidx.toNat : Int) + p) st).advance) ∧
      (s.vecStart (.vidx c f) = .ok () → laneReady (.vidx c f) s f.opd d [] u →
        exec (.vidx c f) s = .next (u.mapLanes f.msk d fun p _ st =>
          fitTo d.ty f.sat ((s.val f.opa).toInt + p * (s.val f.opb).toInt) st).advance)) ∧
    (∀ (d : Fld) (u : State), s.vecStart (.vbcast c f) = .ok () → s.field f.opd f.ta f.wid.toNat .any = .ok d →
      laneReady (.vbcast c f) s f.opd d [] u →
      (f.tb = .fm → f.rm = .rne → (f.sat = true → satType d.ty = true) →
        exec (.vbcast c f) s =
          .next (u.mapLanes f.msk d fun _ _ st => ⟨(s.val f.opa).toNat % 2 ^ d.width, false, st⟩).advance) ∧
      (∀ x : Flt, fltOfTy f.tb = some x → (f.sat = true → satType d.ty = true) →
        exec (.vbcast c f) s = .next (u.mapLanes f.msk d fun _ _ st =>
          d.ty.convert (.f (x.val (s.val f.opa).toNat)) (s.rm f.rm) f.sat st).advance) ∧
      (f.tb = .i ∨ f.tb = .n → (f.rm = .rne ∨ d.ty.isFlt = true) → (f.sat = true → satType d.ty = true) →
        exec (.vbcast c f) s = .next (u.mapLanes f.msk d fun _ _ st =>
          d.ty.convert (.i (if f.tb = .n then ((s.val f.opa).toNat : Int) else (s.val f.opa).toInt)) (s.rm f.rm) f.sat st).advance))

/-- Vector floating forms (R117 to R119): under their checks, the exact result rounded once in each active lane. `vfsgn`
(R118) and the block-scale forms (R120 to R122). The exact value that `vfexp2` rounds is the model's own approximation,
`Num.exp2`, correct to many more bits than any format holds (assumption log 10). -/
def Obligations.VectorFloatResults : Prop :=
  (∀ (c : Ctl) (f : FR) (s : State), s.guard c = true →
     let rm := s.rm f.rm
     (∀ e ∈ ([(.vfadd, fun _ a b => a.add (rm == .rdn) b), (.vfsub, fun _ a b => a.add (rm == .rdn) b.neg),
              (.vfmul, fun _ a b => a.mul b), (.vffma, fun d a b => (a.mul b).add (rm == .rdn) d),
              (.vfmm, fun _ a b => Sys2Proof.Machine.Num.minmax (f.sub == 1) a b)] : List ((Ctl → FR → Instr) × (Sys2Proof.Machine.Num → Sys2Proof.Machine.Num → Sys2Proof.Machine.Num → Sys2Proof.Machine.Num))),
      ∀ (d a b : Fld) (u : State), flt2Ready (e.1 c f) f s d a b u →
       exec (e.1 c f) s = .next (u.mapLanes f.msk d fun _ r st =>
         d.ty.convert (.f (e.2 (d.num r) (a.num r) (b.num r))) rm f.sat st).advance) ∧
     (∀ e ∈ ([(.vfexp2, Sys2Proof.Machine.Num.exp2), (.vfrcp, Sys2Proof.Machine.Num.recip)] : List ((Ctl → FR → Instr) × (Sys2Proof.Machine.Num → Sys2Proof.Machine.Num))),
      ∀ (d a : Fld) (u : State), flt1Ready (e.1 c f) f s d a u →
       exec (e.1 c f) s = .next (u.mapLanes f.msk d fun _ r st => d.ty.convert (.f (e.2 (a.num r))) rm f.sat st).advance) ∧
     (∀ (a b : Fld) (u : State), s.vecStart (.vfcmp c f) = .ok () → s.field f.opa f.ta 0 .flt = .ok a →
       s.field f.opb f.tb 0 .flt = .ok b → s.popAll [f.opa, f.opb] = .ok u →
       exec (.vfcmp c f) s = .next (u.mapTags f.msk (mreg f.opd) fun _ r =>
         condOf f.sub.toNat ((a.num r).cmp (b.num r))).advance) ∧
     (∀ (d a : Fld) (u : State), s.vecStart (.vfcvt c f) = .ok () → s.field f.opd f.ta f.wid.toNat .any = .ok d →
       s.field f.opa f.tb 0 .any = .ok a → (f.rm = .rne ∨ d.ty.isFlt = true ∨ a.ty.isFlt = true) →
       (f.sat = true → satType d.ty = true) → laneReady (.vfcvt c f) s f.opd d [(f.opa, a)] u →
       exec (.vfcvt c f) s = .next (u.mapLanes f.msk d fun _ r st => d.ty.convert (a.val r) rm f.sat st).advance)) ∧
  (∀ (c : Ctl) (f : FR) (s : State), s.guard c = true →
     (∀ (d a b : Fld) (x : Flt) (u : State), s.vecStart (.vfsgn c f) = .ok () → s.field f.opd f.ta 0 .flt = .ok d →
       s.field f.opa f.ta 0 .flt = .ok a → d.ty = .flt x → a.ty = .flt x → f.sub.toNat < 3 →
       s.field f.opb f.tb 0 .flt = .ok b → laneReady (.vfsgn c f) s f.opd d [(f.opa, a), (f.opb, b)] u →
       exec (.vfsgn c f) s = .next (u.mapLanes f.msk d fun _ r st =>
         ⟨(if x.val (a.get r) = .nan then x.nanBits.getD 0
           else x.signed (if f.sub = 0 then b.signBit r else if f.sub = 1 then !b.signBit r else a.signBit r != b.signBit r)
             (a.get r % 2 ^ (x.width - 1))) % 2 ^ d.width, false, st⟩).advance) ∧
     (∀ (d a : Fld) (x : Flt) (u : State), s.vecStart (.vfsgn c f) = .ok () → s.field f.opd f.ta 0 .flt = .ok d →
       s.field f.opa f.ta 0 .flt = .ok a → d.ty = .flt x → a.ty = .flt x → f.sub = 3 ∨ f.sub = 4 →
       laneReady (.vfsgn c f) s f.opd d [(f.opa, a)] u →
       exec (.vfsgn c f) s = .next (u.mapLanes f.msk d fun _ r st =>
         ⟨(if x.val (a.get r) = .nan then x.nanBits.getD 0
           else x.signed (f.sub == 4 && !a.signBit r) (a.get r % 2 ^ (x.width - 1))) % 2 ^ d.width, false, st⟩).advance) ∧
     (∀ (d a b : Fld) (u : State), s.vecStart (.vfscl c f) = .ok () → s.field f.opd f.ta 0 .flt = .ok d →
       s.field f.opa f.ta 0 .flt = .ok a → s.field f.opb f.tb 0 .int = .ok b → (f.sat = true → satType d.ty = true) →
       (b.width = 12 → laneReady (.vfscl c f) s f.opd d [(f.opa, a), (f.opb, b)] u →
         exec (.vfscl c f) s = .next (u.mapLanes f.msk d fun _ r st =>
           d.ty.convert (.f (if f.sub = 0 then scaleMul (a.num r) (b.get r) else scaleDiv (a.num r) (b.get r)))
             (s.rm f.rm) f.sat st).advance) ∧
       (b.width ≠ 12 → exec (.vfscl c f) s = .next (s.takeTrap
         { cause := .operandClass, val := f.opb.code.setWidth 64, idx0 := BitVec.ofNat 64 (vreg f.opb).val }))) ∧
     (∀ (e a sc : Fld) (u : State), s.vecStart (.vfnb8 c f) = .ok () → f.sub = 0 →
       s.rawField f.opd (nb8Elem f.ta).width = .ok e → s.field f.opa f.tb 0 .any = .ok a → s.rawField f.opb 12 = .ok sc →
       (e.disjoint sc && e.disjoint a && sc.disjoint a) = true → s.checkStream f.opd (.vfnb8 c f) = .ok () →
       s.checkStream f.opb (.vfnb8 c f) = .ok () → s.popAll [f.opa] = .ok u →
       exec (.vfnb8 c f) s = .next (u.packAll f.msk e a sc (nb8Elem f.ta) (u.rm f.rm)).advance) ∧
     (∀ (d e sc : Fld) (u : State), s.vecStart (.vfnb8 c f) = .ok () → f.sub ≠ 0 →
       s.field f.opd f.tb 0 .any = .ok d → s.rawField f.opa (nb8Elem f.ta).width = .ok e → s.rawField f.opb 12 = .ok sc →
       (f.sat = true → satType d.ty = true) → (d.disjoint e && d.disjoint sc) = true →
       laneReady (.vfnb8 c f) s f.opd d [(f.opa, e), (f.opb, sc)] u →
       exec (.vfnb8 c f) s = .next (u.mapLanes f.msk d fun _ r st =>
         d.ty.convert (.f (unpackVal (nb8Elem f.ta) (e.get r) (sc.get r))) (s.rm f.rm) f.sat st).advance))

/-! ## Search, selection and reduction -/

/-- `asrch`, `asrchr`, `awr` and `apass` (R126 to R128): the key compared on bits lsb to lsb + width − 1 under the care
mask, combined into the destination tag at every row below SLEN; the write in the rows tagged in the mask, of every row and
column what it holds then. RANGE of a search beyond its field names the operand field (R126), RANGE of a write the default
of R386. The comparison of `apass` takes in the whole field, and bits of key and care beyond 63 are none. That the k-th
enabled column takes bit k of the value is the model's reading (assumption log 15); a T of `apass` outside m1 to m5 does not
decode (R128, log 14). -/
def Obligations.SearchAndWriteResults : Prop :=  (∀ (c : Ctl) (f : FX) (s : State), s.guard c = true →
     let lsb := f.xf.toNat
     let w := f.yf.toNat
     (∀ e ∈ ([(.asrch, fun _ => BitVec.allOnes 64), (.asrchr, fun u => u.nextS f.opb 1)] :
              List ((Ctl → FX → Instr) × (State → Word))),
      ∀ (a : Fld) (u : State), s.vecStart (e.1 c f) = .ok () → s.field f.opa .fm 0 .any = .ok a → lsb + w ≤ a.width →
       w ≤ 64 → s.popAll [f.opa] = .ok u →
       exec (e.1 c f) s = .next (u.putTags (mreg f.opd) ((List.range u.slen).map fun i =>
         let r := u.core.row (u.lane i)
         let hit := decide (∀ j < w, (e.2 u).getLsbD j = true → (a.get r).testBit (lsb + j) = (u.val f.opb).getLsbD j) &&
           tagOf u.cur.lc u.slen f.msk i r
         (i, combine f.sub.toNat (tagOf u.cur.lc u.slen (mreg f.opd) i r) hit))).advance) ∧
     (∀ mk ∈ ([.asrch, .asrchr] : List (Ctl → FX → Instr)), ∀ a : Fld, s.vecStart (mk c f) = .ok () →
       s.field f.opa .fm 0 .any = .ok a → a.width < lsb + w →
       exec (mk c f) s = .next (s.takeTrap { cause := .range, val := f.opa.code.setWidth 64 })) ∧
     (∀ d : Fld, s.vecStart (.awr c f) = .ok () → s.field f.opd .fm 0 .any = .ok d →
       (lsb + w ≤ d.width → s.checkStream f.opd (.awr c f) = .ok () →
         ∃ rows, exec (.awr c f) s = .next (s.modCore fun k => { k with rows := rows }).advance ∧ ∀ l b, b < 512 →
           (lookD rows l 0).getLsbD b =
             if (∃ i ∈ s.active f.msk, s.lane i = l) ∧ d.col + lsb ≤ b ∧ b < d.col + lsb + w
             then (s.val f.opb).getLsbD (b - d.col - lsb)
             else (s.core.row l).getLsbD b) ∧
       (d.width < lsb + w →
         exec (.awr c f) s = .next (s.takeTrap { cause := .range, val := Instr.upper (.awr c f) }))) ∧
     (∀ (d a : Fld) (u : State), s.vecStart (.apass c f) = .ok () → s.field f.opd .fm 0 .any = .ok d →
       s.field f.opa .fm 0 .any = .ok a → s.checkStream f.opd (.apass c f) = .ok () → s.popAll [f.opa] = .ok u →
       1 ≤ f.xf.toNat % 8 → f.xf.toNat % 8 ≤ 5 →
       let t : Fin 6 := Fin.ofNat 6 (f.xf.toNat % 8)
       let v := u.putTags t ((List.range u.slen).map fun i =>
         let r := u.core.row (u.lane i)
         let hit := decide (∀ j < a.width, (u.nextS f.opb 1).getLsbD j = true →
             (a.get r).testBit j = (u.nextS f.opb 0).getLsbD j) && tagOf u.cur.lc u.slen f.msk i r
         (i, combine (f.xf.toNat / 8 % 8) (tagOf u.cur.lc u.slen t i r) hit))
       let enable := (u.nextS f.opb 3).toNat % 2 ^ d.width
       ∃ value, exec (.apass c f) s = .next (v.writePass d value enable t).advance ∧
         ∀ j, j < d.width → enable.testBit j = true →
           value.testBit j = (u.nextS f.opb 2).getLsbD (((List.range j).filter enable.testBit).length))) ∧
  ∀ old hit : Bool, combine 0 old hit = hit ∧ combine 1 old hit = (old && hit) ∧ combine 2 old hit = (old || hit) ∧
    combine 3 old hit = (old && !hit) ∧ combine 4 old hit = xor old hit

/-- `acnt`, `afirst` and `aext` (R129, R130): the count, the lowest or highest position, and the value of a lane. `atopk`
(R131): tags for the selected lanes and 0 elsewhere below SLEN; the selection holds min(k, candidates) lanes, no lane
left out ranks above one taken, and of equal keys the lower positions are taken. The keys are those of Table 8-3, and a NaN has
none. -/
def Obligations.CountExtractAndSelect : Prop :=
  (∀ (c : Ctl) (s : State), s.guard c = true →
     (∀ f : FR, destOk s f.opd →
       let l := (s.active f.msk).filter fun i => tagOf s.cur.lc s.slen (mreg f.opa) i (s.core.row (s.lane i))
       (s.vecStart (.acnt c f) = .ok () →
         exec (.acnt c f) s = .next (s.putS f.opd (BitVec.ofNat 64 l.length)).advance) ∧
       (s.vecStart (.afirst c f) = .ok () → ∃ v : Word,
         exec (.afirst c f) s = .next (s.putS f.opd v).advance ∧ (l = [] → v = BitVec.allOnes 64) ∧
         ∀ i ∈ l, (f.sub = 0 → (∀ j ∈ l, i ≤ j) → v = BitVec.ofNat 64 i) ∧
           (f.sub ≠ 0 → (∀ j ∈ l, j ≤ i) → v = BitVec.ofNat 64 i))) ∧
     (∀ (f : FX) (a : Fld) (u : State), destOk s f.opd → s.vecStart (.aext c f) = .ok () →
       s.field f.opa .fm 0 .any = .ok a → s.popAll [f.opa] = .ok u → ∃ v : Word,
         exec (.aext c f) s = .next (u.putS f.opd v).advance ∧
         (u.active f.msk = [] → v = 0) ∧
         (f.sub ≠ 0 → (u.val f.opb).toNat ∉ u.active f.msk → v = 0) ∧
         ∀ i ∈ u.active f.msk, (f.sub = 0 → ∀ j ∈ u.active f.msk, i ≤ j) → (f.sub ≠ 0 → i = (u.val f.opb).toNat) →
           v = (match a.ty with
             | .int _ _ => BitVec.ofInt 64 (a.int (u.core.row (u.lane i)))
             | .flt _ => BitVec.ofNat 64 (a.get (u.core.row (u.lane i)))))) ∧
  ((∀ (c : Ctl) (f : FX) (s u : State) (a : Fld), s.guard c = true → s.vecStart (.atopk c f) = .ok () →
     s.field f.opa .fm 0 .any = .ok a → s.popAll [f.opa] = .ok u →
     let cand := (u.active f.msk).filterMap fun i =>
       (orderKey a.ty (f.sub == 1) (a.get (u.core.row (u.lane i)))).map fun key => (i, key)
     exec (.atopk c f) s = .next (u.putTags (mreg f.opd) ((List.range u.slen).map fun i =>
       (i, (selectTop a.width cand (u.val f.opb).toNat).contains i))).advance) ∧
   (∀ (smallest : Bool) (w b : Nat), 1 ≤ w → b < 2 ^ w →
     let p := BitVec.ofNat w b
     let flipped := p ^^^ BitVec.twoPow w (w - 1)
     let key := fun n : BitVec w => some (if smallest then ~~~n else n).toNat
     orderKey (.int false w) smallest b = key p ∧ orderKey (.int true w) smallest b = key flipped ∧
     ∀ x : Flt, x.width = w →
       orderKey (.flt x) smallest b = if x.val b = .nan then none else key (if p.msb then ~~~p else flipped)) ∧
   ∀ (b : Nat) (cand : List (Nat × Nat)) (k : Nat), cand.Pairwise (fun x y => x.1 < y.1) → (∀ x ∈ cand, x.2 < 2 ^ b) →
     let sel := selectTop b cand k
     sel.length = min k cand.length ∧ (∀ i ∈ sel, ∃ key, (i, key) ∈ cand) ∧
     ∀ x ∈ cand, x.1 ∈ sel → ∀ y ∈ cand, y.1 ∉ sel → y.2 < x.2 ∨ (y.2 = x.2 ∧ x.1 < y.1))

/-- `asred` (R134): under its checks each segment's leader takes the segment's result and every other lane below SLEN
takes 0; an integer sum is exact and fitted once. `ared` (R135, R136) in a body: the strip's result goes into D, or
with `.loop` into the loop sum of a shared register; outside a body D takes 0 and `.loop` does nothing. -/
def Obligations.SumResults : Prop :=
  (∀ (c : Ctl) (f : FR) (s u : State) (d a : Fld), s.guard c = true → s.vecStart (.asred c f) = .ok () →
     s.field f.opd f.ta 0 .any = .ok d → s.field f.opa f.ta 0 .any = .ok a → d.ty.isFlt = a.ty.isFlt →
     (f.rm = .rne ∨ d.ty.isFlt = true) → (f.sat = true → satType d.ty = true) →
     laneReady (.asred c f) s f.opd d [(f.opa, a)] u →
     let g := segOrder f.opb
     ∃ t, exec (.asred c f) s = .next t ∧ t.mem = u.mem ∧ t.ctx.s = u.ctx.s ∧
       ∀ i b, i < u.slen → b < d.width → d.col + b < 512 →
         ∃ st : TreeSt, (t.core.row (u.lane i)).getLsbD (d.col + b) =
           (i % 2 ^ g == 0 &&
             (u.segment a d.ty f.msk (u.rm f.rm) f.sat g i (min (i + 2 ^ g) u.slen) st).1.testBit b) ∧
           ∀ sg w, d.ty = .int sg w → 1 ≤ w →
             let x := ((u.active f.msk).filter fun j => decide (i ≤ j ∧ j < min (i + 2 ^ g) u.slen)).map
               fun j => a.int (u.core.row (u.lane j))
             BitVec.ofNat w (u.segment a d.ty f.msk (u.rm f.rm) f.sat g i (min (i + 2 ^ g) u.slen) st).1 =
               BitVec.ofInt w (fitted sg w f.sat x.sum).1) ∧
  (∀ (c : Ctl) (f : FR) (s u : State) (a : Fld) (t : NTy), s.guard c = true → s.vecStart (.ared c f) = .ok () →
     s.field f.opa f.ta 0 .any = .ok a → aredType f.tb a.ty = some t → (f.rm = .rne ∨ t.isFlt = true) →
     (f.sat = true → satType t = true) → s.popAll [f.opa] = .ok u →
     let r := u.segment a t f.msk (u.rm f.rm) f.sat 12 0 u.slen { ctx := u.ctx, satur := false }
     (u.inBody = false → f.sub = 0 → destOk s f.opd → exec (.ared c f) s = .next (u.putS f.opd 0).advance) ∧
     (u.inBody = false → f.sub = 1 → isShared f.opd = true → exec (.ared c f) s = .next u.advance) ∧
     (u.inBody = true → f.sub = 0 → destOk s f.opd →
       exec (.ared c f) s =
         .next (((u.modCtx fun _ => r.2.ctx).sticky .satur r.2.satur).putS f.opd (BitVec.ofNat 64 r.1)).advance) ∧
     (u.inBody = true → f.sub = 1 → isShared f.opd = true →
       let v := (u.modCtx fun _ => r.2.ctx).sticky .satur r.2.satur
       let x := v.ctx.loopAdd (Fin.ofNat 64 f.opd.idx) t (u.rm f.rm) f.sat r.1
       exec (.ared c f) s = .next ((v.modCtx fun _ => x.1).sticky .satur x.2).advance) ∧
     (f.sub = 1 → isShared f.opd = false →
       exec (.ared c f) s = .next (s.takeTrap { cause := .operandClass, val := Instr.upper (.ared c f) })))

/-- Mask logic (R137): the function of the two tags, written in each active lane. `ahamm` (R132) counts the bits in which
the field and B differ, fitted to D. `vhash` (R133) chains HMix over the active lanes of each segment into the field of its
first lane, and traps on a field of another width than 64. -/
def Obligations.MaskLogicResults : Prop :=  (∀ e ∈ ([(.mand, fun a b => a && b), (.mor, fun a b => a || b), (.mxor, fun a b => xor a b), (.mnot, fun a _ => !a)] :
           List ((Ctl → FR → Instr) × (Bool → Bool → Bool))),
   ∀ (c : Ctl) (f : FR) (s u : State), s.guard c = true → s.vecStart (e.1 c f) = .ok () → s.popAll [] = .ok u →
     exec (e.1 c f) s = .next (u.mapTags f.msk (mreg f.opd) fun i r =>
       e.2 (tagOf s.cur.lc s.slen (mreg f.opa) i r) (tagOf s.cur.lc s.slen (mreg f.opb) i r)).advance) ∧
  ∀ (c : Ctl) (f : FR) (s : State), s.guard c = true →
    (∀ (d a : Fld) (u : State), s.vecStart (.ahamm c f) = .ok () → s.field f.opd f.ta f.wid.toNat .int = .ok d →
      s.field f.opa .fm 0 .any = .ok a → laneReady (.ahamm c f) s f.opd d [(f.opa, a)] u → ∃ n : BitVec 512 → Nat,
        exec (.ahamm c f) s = .next (u.mapLanes f.msk d fun _ r st => fitTo d.ty f.sat (n r) st).advance ∧
        ∀ r, n r = (List.range a.width).countP fun j => xor ((a.get r).testBit j) ((s.val f.opb).getLsbD j)) ∧
    (∀ (d a : Fld) (u : State), s.vecStart (.vhash c f) = .ok () → s.field f.opd .fm 0 .int = .ok d →
      s.field f.opa .fm 0 .int = .ok a →
      (d.width ≠ 64 → exec (.vhash c f) s = .next (s.takeTrap
        { cause := .operandClass, val := f.opd.code.setWidth 64, idx0 := BitVec.ofNat 64 d.reg.val })) ∧
      (d.width = 64 → laneReady (.vhash c f) s f.opd d [(f.opa, a)] u →
        exec (.vhash c f) s = .next (u.putLanes d (((List.range u.slen).filter fun l => l % 2 ^ segOrder f.opb == 0).map
          fun l => (l, (((u.active f.msk).filter fun i => decide (l ≤ i ∧ i < l + 2 ^ segOrder f.opb)).foldl
            (fun h i => hMix h (BitVec.ofNat 64 (a.get (u.core.row (u.lane i)))))
            (BitVec.ofNat 64 (d.get (u.core.row (u.lane l))))).toNat))).advance))

/-! ## The matrix engine -/

/-- `msetmvl`, the token forms, and the clearing and zero-flag forms (R144, R152 to R154, R157): the state that each
leaves when nothing holds it, and the waits. A failed token is consumed by `mwait` and by `mtok` alike. `mclr` of an
accumulator writes the cells of active lanes and no others; `mclr` of a slot makes its bytes zero, each of its flags set and
stamped with the new GEN, and no weight row in it non-finite (NF), and changes no other slot. -/
def Obligations.MatrixControlResults : Prop :=  ∀ (c : Ctl) (f : FR) (s : State), s.guard c = true →
    (s.inBody = false → exec (.msetmvl c f) s = .next (s.modCtx fun x => { x with mvl := 32 * 2 ^ f.sub.toNat }).advance) ∧
    (s.inBody = true →
      exec (.msetmvl c f) s = .next (s.takeTrap { cause := .operandClass, val := Instr.upper (.msetmvl c f) })) ∧
    (∀ n : Fin 16, f.opa = .tk n →
      ((s.ctx.toks.get n).count = 0 → (s.ctx.toks.get n).fail = none →
        exec (.mwait c f) s = .next s.advance ∧
        (destOk s f.opd → exec (.mtok c f) s = .next (s.putP f.opd true).advance)) ∧
      ((s.ctx.toks.get n).count ≠ 0 →
        exec (.mwait c f) s = .next s ∧
        (destOk s f.opd → exec (.mtok c f) s = .next (s.putP f.opd false).advance)) ∧
      (∀ w, (s.ctx.toks.get n).count = 0 → (s.ctx.toks.get n).fail = some w →
        let t := (s.modCtx fun x => x.modTok n fun k => { k with fail := none }).takeTrap
          { cause := .token, val := w, idx0 := BitVec.ofNat 64 n.val }
        exec (.mwait c f) s = .next t ∧ (destOk s f.opd → exec (.mtok c f) s = .next t))) ∧
    ((∀ n : Fin 16, (s.ctx.toks.get n).count = 0) → exec (.mdrain c f) s = .next s.advance) ∧
    ((∃ n : Fin 16, (s.ctx.toks.get n).count ≠ 0) → exec (.mdrain c f) s = .next s) ∧
    (∀ cell, s.vecStart (.mclrAcc c f) = .ok () → s.accCell f.opd (.mclrAcc c f) = .ok cell →
      (s.rowsOwe cell (s.active f.msk) = true → exec (.mclrAcc c f) s = .next s) ∧
      (s.rowsOwe cell (s.active f.msk) = false → ∃ cells poison,
        exec (.mclrAcc c f) s = .next (s.modCore fun k => { k with cells := cells, cellPoison := poison }).advance ∧
        ∀ x, lookD cells x 0 = (if ∃ i ∈ s.active f.msk, s.cellKey cell i = x then 0 else s.core.cell x) ∧
          (x ∈ poison ↔ x ∈ s.core.cellPoison ∧ ¬∃ i ∈ s.active f.msk, s.cellKey cell i = x))) ∧
    (∀ b : Fin 32, f.opd = .b b →
      (s.core.slotFree b = false → exec (.mclrB c f) s = .next s) ∧
      (s.core.slotFree b = true → ∃ tiles poison,
        exec (.mclrB c f) s = .next (s.modCore fun k => Core.setSlot { k with tiles := tiles, tilePoison := poison } b
          { s.core.slotAt b with gen := (s.core.slotAt b).gen + 1
                                 z := .replicate 8 true
                                 stamp := .replicate 8 ((s.core.slotAt b).gen + 1) }).advance ∧
        (∀ a, rdByte tiles a =
          if b.val * 16384 ≤ a ∧ a < (b.val + 1) * 16384 then 0 else rdByte s.core.tiles a) ∧
        (∀ g, g ∈ poison ↔ g ∈ s.core.tilePoison ∧ ¬(b.val * 16384 ≤ 16 * g ∧ 16 * g < (b.val + 1) * 16384)) ∧
        ∀ (r : MRow) (n : Nat), (∀ col, col < 128 → b.val * 16384 ≤ r.slot * 16384 + (weightByte r.fmt n col).1 ∧
            r.slot * 16384 + (weightByte r.fmt n col).1 + (if r.fmt < 4 then 1 else 2) ≤ (b.val + 1) * 16384) →
          Core.nonFiniteRow { s.core with tiles := tiles } r n = false)) ∧
    (∀ b : Fin 32, f.opd = .b b →
      ((s.core.slotAt b).busy = true → exec (.mzfScan c f) s = .next s) ∧
      ((s.core.slotAt b).busy = false → exec (.mzfScan c f) s = .next (s.modCore fun k => k.setSlot b
        { s.core.slotAt b with z := Vector.ofFn fun n => k.flagZero b n
                               stamp := .replicate 8 (s.core.slotAt b).gen }).advance)) ∧
    (∀ b : Fin 32, f.opa = .b b → destOk s f.opd →
      exec (.mzfGet c f) s = .next (s.putS f.opd (s.core.slotAt b).word).advance)

/-- The row forms (R145 to R149): when the checks pass and no unfinished row writes the cells of an empty block, each
block with a present lane becomes a waiting row and every other block's cells become 0; with no row the instruction
is done. Acceptance and completion of a row (R146, R148, R150, R152): acceptance computes it, counts it on its token and,
with the last row of its instruction, lets the issuer go on; completion writes its 128 cells, counts down and sets its
sticky bits, and of a row that met an uncorrectable error poisons the cells and records the failure instead (R155); that such
a row sets no sticky bit, and that its error is logged at its acceptance, is the model's choice (assumption log 19). What a
row computes (R70, R72, R146): in each column the exact sum of the products of the elements present whose zero flag is not
current, rounded once; STALEZ for a stale flag among those; NXSKIP for a non-finite value that was left out. -/
def Obligations.RowResults : Prop :=
  (∀ (c : Ctl) (f : FX) (s : State), s.guard c = true →
     (∀ (a : Fld) (u : State), s.vecStart (.mrow c f) = .ok () → f.opd.idx < s.ctx.win.an →
       s.field f.opa .fm 0 .any = .ok a → a.width = rowWidth f.sub.toNat → s.checkTile f.sub.toNat f.opb.idx = .ok () →
       s.popAll [f.opa] = .ok u → u.checkParity a (List.range u.slen) = .ok () →
       let n := rowLanes f.sub.toNat u.ctx.mvl
       let cell := s.ctx.win.ab + f.opd.idx
       let present := (u.active f.msk).filter fun p => decide (p % 128 < n)
       rowsGo u a f.sub.toNat cell f.xf.toNat f.opb.idx present (exec (.mrow c f) s)) ∧
     (∀ (a : Fld) (u u' : State) (present : List Nat), s.vecStart (.mrowh c f) = .ok () → f.opd.idx < s.ctx.win.an →
       s.field f.opa .fm 0 .any = .ok a → a.width = rowWidth f.sub.toNat → s.checkTile f.sub.toNat f.yf.toNat = .ok () →
       s.rowHandle (some f.opb) = .ok () → s.popAll [f.opa] = .ok u → u.checkParity a (List.range u.slen) = .ok () →
       (((u.active f.msk).filter fun p => decide (p % 128 < rowLanes f.sub.toNat u.ctx.mvl)).filterM fun p => do
           let r ← lookup (u.handle f.opb) (u.sidx + w64 p) (u.sidx + w64 p).toNat
           pure r.isSome : Rd (List Nat)) u = .ok (present, u') →
       rowsGo u' a f.sub.toNat (s.ctx.win.ab + f.opd.idx) f.xf.toNat f.yf.toNat present (exec (.mrowh c f) s))) ∧
  (∀ (core : Fin 320) (s : State),
     (∀ r, (s.coreAt core).flight.length < 32 → (s.quarter (quarterOf core)).hold = false →
       s.acceptable core (s.coreAt core).waiting [] = some r →
       let i : Issuer := { core := core, lc := r.lc, lg := some r.lg }
       ∃ t, exec (.rowAccept core) s = .next t ∧
         (t.coreAt core).flight = (s.coreAt core).flight ++ [(s.coreAt core).compute r] ∧
         (t.coreAt core).waiting = (s.coreAt core).waiting.erase r ∧
         ((t.ctxAt (ctxNum core r.lc)).toks.get r.tok).count = ((s.ctxAt (ctxNum core r.lc)).toks.get r.tok).count + 1 ∧
         State.thread { t with cur := i } =
           (if ((s.coreAt core).waiting.erase r).any fun x => x.lc == r.lc && x.lg == r.lg then State.thread { s with cur := i }
            else (State.advance { s with cur := i }).thread) ∧
         t.regs.errprod = (if ((s.coreAt core).rowBad r).isSome then s.regs.errprod + 1 else s.regs.errprod) ∧
         (t.coreAt core).cells = (s.coreAt core).cells ∧ (t.coreAt core).rows = (s.coreAt core).rows ∧ t.mem = s.mem) ∧
     ((s.coreAt core).flight.length = 32 → exec (.rowAccept core) s = .next s) ∧
     (∀ (k : Nat) (m : MFlight), (s.coreAt core).flight[k]? = some m →
       ((s.coreAt core).flight.take k).any (fun x => x.row.sameCells m.row) = false → m.failed = none →
       ∃ t, exec (.rowComplete core k) s = .next t ∧
         (t.coreAt core).flight = (s.coreAt core).flight.eraseIdx k ∧
         (∀ i, i < 128 → (t.coreAt core).cell ((m.row.firstLane + i) * 16 + m.row.cell) = m.cells.extractLsb' (32 * i) 32) ∧
         ((t.ctxAt (ctxNum core m.row.lc)).toks.get m.row.tok).count =
           ((s.ctxAt (ctxNum core m.row.lc)).toks.get m.row.tok).count - 1 ∧
         (t.ctxAt (ctxNum core m.row.lc)).streg = (s.ctxAt (ctxNum core m.row.lc)).streg |||
           (if m.nxskip then 1 else 0) ||| (if m.stalez then 2 else 0) ∧
         t.mem = s.mem ∧ (t.coreAt core).rows = (s.coreAt core).rows) ∧
     (∀ (k : Nat) (m : MFlight) (b : Nat), (s.coreAt core).flight[k]? = some m →
       ((s.coreAt core).flight.take k).any (fun x => x.row.sameCells m.row) = false → m.failed = some b →
       let old := (s.ctxAt (ctxNum core m.row.lc)).toks.get m.row.tok
       ∃ t, exec (.rowComplete core k) s = .next t ∧
         (t.coreAt core).flight = (s.coreAt core).flight.eraseIdx k ∧ (t.coreAt core).cells = (s.coreAt core).cells ∧
         (∀ i, i < 128 → (m.row.firstLane + i) * 16 + m.row.cell ∈ (t.coreAt core).cellPoison) ∧
         (t.ctxAt (ctxNum core m.row.lc)).toks.get m.row.tok =
           { count := old.count - 1
             fail := match old.fail with
               | some w => some w
               | none => some (BitVec.ofNat 64 (b / 16384 + m.row.block * 256)) } ∧
         (t.ctxAt (ctxNum core m.row.lc)).streg = (s.ctxAt (ctxNum core m.row.lc)).streg ∧ t.mem = s.mem)) ∧
  (∀ (c : Core) (r : MRow),
     let m := c.compute r
     let current := fun k => (c.slotAt (rowSlot r k)).current (rowFlag r.fmt k)
     let taken := (List.range r.k).filter fun k => r.isPresent k && !current k
     m.row = r ∧ m.failed = c.rowBad r ∧
     m.stalez = (taken.any fun k => (c.slotAt (rowSlot r k)).stale (rowFlag r.fmt k)) ∧
     m.nxskip = ((List.range r.k).any fun k =>
       if r.isPresent k then current k && valNonFinite (r.elem k) else valNonFinite (r.elem k) || c.nonFiniteRow r k) ∧
     ∀ col, col < 128 →
       let cell := m.cells.extractLsb' (32 * col) 32
       (r.fmt = 3 → cell = BitVec.ofInt 32 ((taken.map fun k =>
         (BitVec.ofNat 8 (bitsAt r.data (8 * k) 8)).toInt * (BitVec.ofNat 8 (c.weight r k col)).toInt).sum)) ∧
       ∀ x : Flt, rowTy r.fmt = .flt x →
         let w := rowBitsOf r.fmt
         let ps := taken.map fun k => (x.val (bitsAt r.data (w * k) w)).mul (x.val (c.weight r k col))
         (ps = [] → cell = 0) ∧
         (ps ≠ [] → ∃ sum, exactSum ps sum ∧ cell = BitVec.ofNat 32 (Flt.f32.round sum .rne false 0).bits))

/-- `msacc` and `mext` (R154, R156): under their checks, the cell of each active lane takes the sum that R71 gives, in three
roundings that each take a step of the lane's stochastic state; cells and states of other lanes, and other cells, stay. `mext`
converts the cells' values into D. -/
def Obligations.AccumulatorResults : Prop :=  ∀ (c : Ctl) (f : FR) (s : State), s.guard c = true →
    (∀ (d a : Nat) (sa : Fld) (u : State), s.vecStart (.msacc c f) = .ok () → s.accCell f.opd (.msacc c f) = .ok d →
      s.accCell f.opa (.msacc c f) = .ok a → s.field (.v f.sub.toFin) .fm 0 .any = .ok sa → sa.ty = .flt .f32 →
      s.popAll [.v f.sub.toFin] = .ok u → u.rowsOwe d (u.active f.msk) = false → u.rowsOwe a (u.active f.msk) = false →
      u.checkCells f.opa a (u.active f.msk) = .ok () → u.checkCells f.opa d (u.active f.msk) = .ok () →
      u.checkParity sa (List.range u.slen) = .ok () →
      let rm := u.rm f.rm
      ∃ cells poison stoch, exec (.msacc c f) s = .next ((u.modCore fun k => { k with cells := cells, cellPoison := poison }).modCtx
          fun x => { x with stoch := stoch }).advance ∧
        (∀ i ∈ u.active f.msk,
          let value := fun n => Flt.f32.val (u.core.cell (u.cellKey n i)).toNat
          let x := Flt.f32.round ((value a).mul (sa.num (u.core.row (u.lane i)))) rm false (u.ctx.stochAt (u.lane i))
          let y := Flt.f32.round ((Flt.f32.val x.bits).mul (floatIn .f32 (u.val f.opb))) rm false x.st
          let z := Flt.f32.round ((value d).add (rm == .rdn) (Flt.f32.val y.bits)) rm false y.st
          lookD cells (u.cellKey d i) 0 = BitVec.ofNat 32 z.bits ∧
          Ctx.stochAt { u.ctx with stoch := stoch } (u.lane i) = z.st) ∧
        (∀ x, (∀ i ∈ u.active f.msk, u.cellKey d i ≠ x) → lookD cells x 0 = u.core.cell x) ∧
        (∀ x, x ∈ poison ↔ x ∈ u.core.cellPoison ∧ ∀ i ∈ u.active f.msk, u.cellKey d i ≠ x) ∧
        ∀ l, (∀ i ∈ u.active f.msk, u.lane i ≠ l) →
          Ctx.stochAt { u.ctx with stoch := stoch } l = u.ctx.stochAt l) ∧
    (∀ (a : Nat) (d : Fld), s.vecStart (.mext c f) = .ok () → s.accCell f.opa (.mext c f) = .ok a →
      s.field f.opd f.ta f.wid.toNat .any = .ok d → (f.rm = .rne ∨ d.ty.isFlt = true ∨ f.tb = .f32) →
      (f.sat = true → satType d.ty = true) → s.checkStream f.opd (.mext c f) = .ok () →
      s.rowsOwe a (s.active f.msk) = false → s.checkCells f.opa a (s.active f.msk) = .ok () →
      exec (.mext c f) s = .next (s.mapLanes f.msk d fun p _ st =>
        d.ty.convert ((if f.tb = .f32 then NTy.flt .f32 else .int true 32).val (s.core.cell (s.cellKey a p)).toNat)
          (s.rm f.rm) f.sat st).advance)

/-! ## Memory -/

/-- `ld` and `st` (R212, R214, R217): when the address A + SignExtend(DISP) + B passes Table 11-2 and nothing stalls, a
load writes the little-endian value zero-extended, from the bytes of the stash, of the cluster's SRAM (or those that stood there
before another core's stores that are not published to it, R196), or of the core's L1 or memory, under the context's own pending
stores; a store is issued at the address found, or made at once
in the stash; on an unbound line of the own stash both complete outright. An element that a check of Table 11-2 refuses
(R175, R212): the trap with the pointer as TRAPVAL, and nothing done; orders 1 to 6 of that table. A pending store performs
at its home (R195, R197): its bytes are in memory and every other byte is as before; while an earlier store of the context to
the same bytes has not performed, or its line is claimed, it does not, and the state stays. -/
def Obligations.ScalarAccesses : Prop :=
  (∀ (c : Ctl) (f : FM) (s s1 : State) (l : Loc), s.guard c = true →
     let z := scalarSize f.ta
     let p := s.fmBase f + s.val f.opb
     (destOk s f.opd → s.scalarLoc p z z false = .ok (l, s1) →
       ∀ bs u, s1.readLoc s.key l z f.nt = .ok (bs, false, u) →
         exec (.ld c f) s = .next (u.putS f.opd (BitVec.ofNat 64 (leVal bs))).advance ∧
         (∀ off, l = .stash off → bs = rdBytes u.core.stash off z) ∧
         (∀ a, l = .cluster a → ∃ ys, mayRead s1 s.key a z ys ∧ bs = overlay s1.pend s.key .cluster a ys) ∧
         (∀ asid va pa, l = .hbm asid va pa → u.mem = s.mem ∧ u.cls = s.cls ∧
           ∀ e, s1.core.l1Find asid va = e →
             bs = overlay s1.pend s.key .hbm pa
               (match e with
                | some x => leBytes z (bitsAt x.data (8 * (va % 128)) (8 * z))
                | none => rdBytes s.mem pa z))) ∧
     (s.scalarLoc p z z true = .ok (l, s1) →
       let bytes := leBytes z (s.val f.opd).toNat
       (∀ asid va pa, l = .hbm asid va pa →
         exec (.st c f) s = .next (State.advance { s1 with pend := s1.pend ++
           [{ ctx := s.key, acc := s1.newAcc, pages := [s1.pinOf s.cur.core asid va], home := .hbm, addr := pa, bytes := bytes
              hot := none, nt := f.nt }] })) ∧
       (∀ a, l = .cluster a →
         exec (.st c f) s = .next (State.advance { s1 with pend := s1.pend ++
           [{ ctx := s.key, acc := s1.newAcc, pages := [], home := .cluster, addr := a, bytes := bytes, hot := none
              nt := f.nt }] })) ∧
       (∀ off u, l = .stash off → s1.readyStash (coreOfCtx s.key) off z true = .ok u →
         ∃ t, exec (.st c f) s = .next t ∧ t.mem = u.mem ∧
           (∀ i, i < z → rdByte t.core.stash (off + i) = bytes.getD i 0) ∧
           ∀ a, a < off ∨ off + z ≤ a → rdByte t.core.stash a = rdByte u.core.stash a)) ∧
     (malformed p = none → bitsAt p 60 4 = 9 → bitsAt p 48 9 = s.cur.core.val →
       let off := bitsAt p 0 20
       off + z ≤ 4 * s.core.k.val * 65536 → off % z = 0 → look s.core.lines (off / 512) = none → s.core.scores = [] →
       s.pinsHeld s.cur.core ≤ 4096 →
       (destOk s f.opd → marked 3 s.core.stashPoison off z = false →
         exec (.ld c f) s = .next (s.putS f.opd (BitVec.ofNat 64 (rdVal s.core.stash off z))).advance) ∧
       exec (.st c f) s = .next (s.modCore fun k =>
         { k with stash := wrBytes k.stash off (leBytes z (s.val f.opd).toNat)
                  stashPoison := remark 3 k.stashPoison off z false }).advance)) ∧
  (∀ (c : Ctl) (f : FM) (s : State) (e : Cause), s.guard c = true →
     let z := scalarSize f.ta
     let p := s.fmBase f + s.val f.opb
     (destOk s f.opd → (s.find (s.agentOf s.key) p z z false).1 = .fail e →
       exec (.ld c f) s = .next (s.takeTrap { cause := e, val := p })) ∧
     ((s.find (s.agentOf s.key) p z z true).1 = .fail e →
       exec (.st c f) s = .next (s.takeTrap { cause := e, val := p })) ∧
     ∀ (q : Word) (n : Nat) (write : Bool),
       let r := (s.find (s.agentOf s.key) q n n write).1
       (malformed q = some e → r = .fail e) ∧
       (malformed q = none → bitsAt q 60 4 = 0 → q.toNat % n ≠ 0 → r = .fail .align) ∧
       (malformed q = none → bitsAt q 60 4 = 8 →
         (s.ctx.win.psize.toNat < bitsAt q 0 32 + n → r = .fail .range) ∧
         (bitsAt q 0 32 + n ≤ s.ctx.win.psize.toNat → bitsAt q 0 32 % n ≠ 0 → r = .fail .align)) ∧
       (malformed q = none → bitsAt q 60 4 = 9 →
         (bitsAt q 48 9 ≠ s.cur.core.val → r = .fail .foreignStash) ∧
         (bitsAt q 48 9 = s.cur.core.val → 4 * s.core.k.val * 65536 < bitsAt q 0 20 + n → r = .fail .range) ∧
         (bitsAt q 48 9 = s.cur.core.val → bitsAt q 0 20 + n ≤ 4 * s.core.k.val * 65536 → bitsAt q 0 20 % n ≠ 0 →
           r = .fail .align)) ∧
       (malformed q = none → bitsAt q 60 4 = 10 → bitsAt q 0 23 % n ≠ 0 → r = .fail .align)) ∧
  (∀ (k : Nat) (p : Pending) (s : State), s.pend[k]? = some p →
     (s.storeReady p = false ∨
       (∃ q ∈ s.pend.take k, q.ctx = p.ctx ∧ q.home = p.home ∧ q.addr < p.addr + p.bytes.length ∧
         p.addr < q.addr + q.bytes.length) → exec (.storePerform k) s = .next s) ∧
     (s.storeReady p = true → (p.home = .hbm → p.addr + p.bytes.length ≤ hbmBytes) →
     (∀ q ∈ s.pend.take k, q.ctx = p.ctx → q.home = p.home → p.addr + p.bytes.length ≤ q.addr ∨
       q.addr + q.bytes.length ≤ p.addr) →
     ∃ t, exec (.storePerform k) s = .next t ∧ t.pend = s.pend.eraseIdx k ∧
       (p.home = .hbm → t.cls = s.cls ∧
         (∀ i, i < p.bytes.length → rdByte t.mem (p.addr + i) = p.bytes.getD i 0) ∧
         ∀ a, a < p.addr ∨ p.addr + p.bytes.length ≤ a → rdByte t.mem a = rdByte s.mem a) ∧
       (p.home = .cluster → t.mem = s.mem ∧
         (∀ i, i < p.bytes.length → rdByte t.cls (p.addr + i) = p.bytes.getD i 0) ∧
         ∀ a, a < p.addr ∨ p.addr + p.bytes.length ≤ a → rdByte t.cls a = rdByte s.cls a) ∧
       t.ctxs = s.ctxs))

/-- Vector loads (R213 to R218): under the checks, the addresses of Table 13-2 over the active lanes, the elements that
perform written into D, and m5 marking those whose page is ABSENT. Lane i takes the bytes at the address of its element,
under the context's own pending stores (R196), and 0 for an element that does not perform; where the L1 holds what memory
holds, those are the bytes of memory. m5 of the lane of each element of the access says whether its page is ABSENT, and
every other tag, and the rows of every other lane, stay (R187, R216). -/
def Obligations.VectorLoadResults : Prop :=  (∀ (c : Ctl) (f : FM) (s : State) (d x : Fld), s.guard c = true →
    (s.vecData (.vld c f) f false = .ok d →
      vecLoads (.vld c f) f s d [] 0
        (fun u => .ok ((u.active f.msk).map fun i =>
          .at_ i (u.fmBase f + (u.sidx + BitVec.ofNat 64 i) * BitVec.ofNat 64 (d.width / 8)) (u.sidx + BitVec.ofNat 64 i), u))
        (exec (.vld c f) s)) ∧
    (s.vecData (.vlds c f) f false = .ok d →
      vecLoads (.vlds c f) f s d [] 1
        (fun u => .ok ((u.active f.msk).map fun i =>
          .at_ i (u.fmBase f + (u.sidx + BitVec.ofNat 64 i) * u.val f.opb) (u.sidx + BitVec.ofNat 64 i), u))
        (exec (.vlds c f) s)) ∧
    (s.vecData (.vldx c f) f false = .ok d → s.field f.opb .fm 0 .int = .ok x →
      vecLoads (.vldx c f) f s d [(f.opb, x)] 2 (fun u => .ok (u.planIndex f (d.width / 8) x, u)) (exec (.vldx c f) s)) ∧
    (s.vecData (.vldd c f) f false = .ok d →
      vecLoads (.vldd c f) f s d [] 1 (fun u => .ok (u.planDims f (d.width / 8), u)) (exec (.vldd c f) s)) ∧
    (s.vecData (.vldh c f) f false = .ok d → s.typedCheck f.opb d.width = .ok () →
      vecLoads (.vldh c f) f s d [] 2 (fun u => u.planHandle f (d.width / 8)) (exec (.vldh c f) s))) ∧
  (∀ (s s0 t : State) (z : Nat) (nt : Bool) (hot : Option Nat) (rs : List (VElem × Ready)) (vs : List (Nat × Nat)),
    s.loadElems s0 z nt hot rs = .ok (vs, t) →
    vs.map Prod.fst = rs.map (fun x => x.1.pos) ∧ t.mem = s.mem ∧ t.cls = s.cls ∧ t.pend = s.pend ∧
    ∀ (j : Nat) (x : VElem × Ready) (v : Nat × Nat), rs[j]? = some x → vs[j]? = some v →
      ((∀ l, x.2 ≠ .at_ l) → v.2 = 0) ∧
      (∀ a, x.2 = .at_ (.cluster a) → ∃ ys, mayRead s s.key a z ys ∧ v.2 = leVal (overlay s.pend s.key .cluster a ys)) ∧
      (∀ off, x.2 = .at_ (.stash off) → look s.core.lines (off / 512) = none → off % 512 + z ≤ 512 →
        v.2 = rdVal s.core.stash off z) ∧
      (∀ asid va pa, x.2 = .at_ (.hbm asid va pa) → sectorsAgree s z rs →
        v.2 = leVal (overlay s.pend s.key .hbm pa (rdBytes s.mem pa z)))) ∧
  ∀ (s : State) (rs : List (VElem × Ready)), (rs.map fun x => s.lane x.1.pos).Nodup →
    let t := s.residency rs
    (∀ x ∈ rs, ∀ b, b < 512 → (t.core.row (s.lane x.1.pos)).getLsbD b =
      if b = s.cur.lc.val * 6 + 5 then x.2.isAbsent else (s.core.row (s.lane x.1.pos)).getLsbD b) ∧
    (∀ l, (∀ x ∈ rs, s.lane x.1.pos ≠ l) → t.core.row l = s.core.row l) ∧ t.mem = s.mem ∧ t.pend = s.pend

/-- Vector stores (R213 to R218), with the same addresses. The bytes of each lane's element become a pending store at its
address, in the order of the lanes, with the pages of all of them pinned until the last has performed (R189), and nothing
else of memory changes (they land there by the events of the scalar accesses' statement); in the stash they land at once, there and nowhere else. -/
def Obligations.VectorStoreResults : Prop :=  (∀ (c : Ctl) (f : FM) (s : State) (d x : Fld), s.guard c = true →
    (s.vecData (.vst c f) f false = .ok d →
      vecStores f s d [] 0
        (fun u => .ok ((u.active f.msk).map fun i =>
          .at_ i (u.fmBase f + (u.sidx + BitVec.ofNat 64 i) * BitVec.ofNat 64 (d.width / 8)) (u.sidx + BitVec.ofNat 64 i), u))
        (exec (.vst c f) s)) ∧
    (s.vecData (.vsts c f) f false = .ok d →
      vecStores f s d [] 1
        (fun u => .ok ((u.active f.msk).map fun i =>
          .at_ i (u.fmBase f + (u.sidx + BitVec.ofNat 64 i) * u.val f.opb) (u.sidx + BitVec.ofNat 64 i), u))
        (exec (.vsts c f) s)) ∧
    (s.vecData (.vstx c f) f false = .ok d → s.field f.opb .fm 0 .int = .ok x →
      vecStores f s d [(f.opb, x)] 2 (fun u => .ok (u.planIndex f (d.width / 8) x, u)) (exec (.vstx c f) s)) ∧
    (s.vecData (.vstd c f) f false = .ok d →
      vecStores f s d [] 1 (fun u => .ok (u.planDims f (d.width / 8), u)) (exec (.vstd c f) s)) ∧
    (s.vecData (.vsth c f) f false = .ok d → s.typedCheck f.opb d.width = .ok () →
      vecStores f s d [] 2 (fun u => u.planHandle f (d.width / 8)) (exec (.vsth c f) s))) ∧
  (∀ (s t : State) (z acc : Nat) (hot : Option Nat) (pages : List Pinned) (nt : Bool) (data : Nat → Nat)
    (rs : List (VElem × Ready)), s.storeElems z hot acc pages nt data rs = .ok t →
    ((∀ x ∈ rs, ∀ off, x.2 ≠ .at_ (.stash off)) →
      t.mem = s.mem ∧ t.cls = s.cls ∧ t.cores = s.cores ∧
      t.pend = s.pend ++ rs.filterMap fun x =>
        match x.2 with
        | .at_ (.hbm _ _ pa) =>
          some { ctx := s.key, acc := acc, pages := pages, home := .hbm, addr := pa
                 bytes := leBytes z (data x.1.pos), hot := hot, nt := nt }
        | .at_ (.cluster a) =>
          some { ctx := s.key, acc := acc, pages := pages, home := .cluster, addr := a, bytes := leBytes z (data x.1.pos)
                 hot := none, nt := nt }
        | _ => none) ∧
    ((∀ x ∈ rs, ∀ l, x.2 = .at_ l → ∃ off, l = .stash off ∧ look s.core.lines (off / 512) = none ∧ off % 512 + z ≤ 512) →
      t.mem = s.mem ∧ t.cls = s.cls ∧ t.pend = s.pend ∧
      (∀ a, (∀ x ∈ rs, ∀ off, x.2 = .at_ (.stash off) → a < off ∨ off + z ≤ a) →
        rdByte t.core.stash a = rdByte s.core.stash a) ∧
      (rs.Pairwise (fun x y => ∀ o o', x.2 = .at_ (.stash o) → y.2 = .at_ (.stash o') → o + z ≤ o' ∨ o' + z ≤ o) →
        ∀ x ∈ rs, ∀ off, x.2 = .at_ (.stash off) → ∀ i, i < z →
          rdByte t.core.stash (off + i) = BitVec.ofNat 8 (data x.1.pos / 2 ^ (8 * i)))))

/-- Prefetch, stash maintenance and stash fill (R219 to R221), and the events of stash sectors (R181, R182, R185): a
prefetch and a fill change no byte of memory; `cmo.wb` leaves the line's sectors INVALID, `cmo.bind` binds or unbinds it,
`cmo.inv` drops the sector from the L1; `stfl` answers whether every sector is ready. A fill takes the 128 bytes of the
sector's frame. A write-back that is due writes the bytes of the dirty mask alone (R182), where one of the core's 4,096
translation-pin slots is free, as a fill does (R189, R325); that it leaves the sector CLEAN until its boundary drops it is the
model's choice (assumption log 20); one that is not due does not happen (R195). A back-invalidate leaves no L1 with the sector,
and no bound stash sector on a recorded, writable frame; where one sector alone stands for it DIRTY, of whatever core and line,
the dirty bytes of that one are in memory then (R185). -/
def Obligations.StashMaintenanceResults : Prop :=  (∀ (c : Ctl) (f : FM) (s : State), s.guard c = true →
    (∀ sc, s.scope f.scope (.prf c f) = .ok sc → ∃ t, exec (.prf c f) s = .next t ∧ t.mem = s.mem ∧ t.cls = s.cls ∧
      t.ctx.s = s.ctx.s ∧ t.thread = s.advance.thread) ∧
    (∀ (sc : Scope) (off : Nat) (u : State), s.scope f.scope (.cmoWb c f) = .ok sc → s.ownStash (s.fmBase f) 1 = .ok off →
      s.core.stalled (512 * (off / 512)) 512 true = false → s.dropLine s.cur.core (off / 512) = .ok u →
      (look u.core.lines (off / 512) = none → exec (.cmoWb c f) s = .next u.advance) ∧
      ∀ l, look u.core.lines (off / 512) = some l →
        ∃ t, exec (.cmoWb c f) s = .next t ∧ t.mem = u.mem ∧ look t.core.lines (off / 512) =
          some { va := l.va, asid := l.asid, frame := none, secs := .replicate 4 .invalid }) ∧
    (∀ (sc : Scope) (off : Nat) (u : State), s.scope f.scope (.cmoBind c f) = .ok sc →
      s.ownStash (s.fmBase f) 1 = .ok off → (s.val f.opd = 0 ∨ bindable (s.val f.opd) = true) →
      s.core.stalled (512 * (off / 512)) 512 true = false → s.dropLine s.cur.core (off / 512) = .ok u →
      ∃ t, exec (.cmoBind c f) s = .next t ∧ t.mem = u.mem ∧
        (s.val f.opd = 0 → look t.core.lines (off / 512) = none ∧
          ∀ a, a / 512 = off / 512 → rdByte t.core.stash a = 0) ∧
        (s.val f.opd ≠ 0 → look t.core.lines (off / 512) =
          some { va := s.val f.opd, asid := u.asid, frame := none, secs := .replicate 4 .invalid })) ∧
    (∀ (asid : Fin 16) (va pa : Nat) (u : State), s.scope f.scope (.cmoInv c f) = .ok .core →
      malformed (s.fmBase f) = none → (windowOf (s.fmBase f) = 0 ∨ windowOf (s.fmBase f) = 8) →
      s.scalarLoc (s.fmBase f) 1 1 false = .ok (.hbm asid va pa, u) →
      ∃ t, exec (.cmoInv c f) s = .next t ∧ t.mem = s.mem ∧ t.core.l1Find asid va = none) ∧
    (∀ (off : Nat) (u : State), destOk s f.opd → s.ownStash (s.fmBase f) (s.val f.opb).toNat = .ok off →
      s.core.stalled off (s.val f.opb).toNat false = false →
      s.fillRange (s.fmBase f) (granules 7 off (s.val f.opb).toNat) = .ok u →
      exec (.stfl c f) s =
        .next (u.putP f.opd ((granules 7 off (s.val f.opb).toNat).all u.core.sectorReady)).advance ∧
      u.mem = s.mem ∧ u.cls = s.cls ∧ u.pend = s.pend)) ∧
  (∀ (s : State) (core : Fin 320) (line : Nat) (j : Fin 4) (l : Line), look (s.coreAt core).lines line = some l →
    (∀ pa rec, l.secs.get j = .invalid → s.lineFrame l j false = .at_ pa rec → s.claimed pa 128 = false →
      s.pinsHeld core < 4096 → ∃ t, exec (.stashFill core line j) s = .next t ∧ t.mem = s.mem ∧ t.cls = s.cls ∧
        (∀ i, i < 128 → rdByte (t.coreAt core).stash (512 * line + 128 * j.val + i) = rdByte s.mem (pa + i)) ∧
        look (t.coreAt core).lines line = some ({ l with frame := some rec }.setSec j .clean)) ∧
    (l.secs.get j ≠ .invalid → exec (.stashFill core line j) s = .next s) ∧
    (4 * line + j.val ∉ (s.coreAt core).due → exec (.stashWriteBack core line j) s = .next s) ∧
    (∀ mask pa rec, 4 * line + j.val ∈ (s.coreAt core).due → (s.quarter (quarterOf core)).stopped = false →
      l.secs.get j = .dirty mask →
      s.lineFrame l j true = .at_ pa rec → s.claimed pa 128 = false → s.pinsHeld core < 4096 →
      ∃ t, exec (.stashWriteBack core line j) s = .next t ∧ t.cls = s.cls ∧
        (∀ i, i < 128 → rdByte t.mem (pa + i) =
          if mask.getLsbD i then rdByte (s.coreAt core).stash (512 * line + 128 * j.val + i) else rdByte s.mem (pa + i)) ∧
        (∀ a, a < pa ∨ pa + 128 ≤ a → rdByte t.mem a = rdByte s.mem a) ∧
        look (t.coreAt core).lines line = some ({ l with frame := some rec }.setSec j .clean))) ∧
  ∀ (s : State) (sector : Nat), ∃ t, exec (.backInvalidate sector) s = .next t ∧ t.cls = s.cls ∧
    (∀ n e, look s.cores n = some e → ∀ x ∈ (t.coreAt n).l1, x.pa ≠ sector * 128) ∧
    (∀ n c i l f, ∀ j : Fin 4, look s.cores n = some c → look c.lines i = some l → l.frame = some f → f.w = true → f.new = none →
      s.pinsHeld n < 4096 → f.pa + 128 * j.val = sector * 128 →
      ∃ l', look (t.coreAt n).lines i = some l' ∧ l'.secs.get j = .invalid) ∧
    (∀ n c i l f m, ∀ j : Fin 4, rising s.cores = true → (∀ x ∈ s.cores, rising x.2.lines = true) →
      look s.cores n = some c → look c.lines i = some l → l.frame = some f → f.w = true → f.new = none →
      s.pinsHeld n < 4096 → f.pa + 128 * j.val = sector * 128 → l.secs.get j = .dirty m →
      (∀ x ∈ s.cores, ∀ y ∈ x.2.lines, ∀ k : Fin 4, (∃ d, y.2.secs.get k = .dirty d) → (x.1 ≠ n ∨ y.1 ≠ i ∨ k ≠ j) →
        y.2.frame ≠ none ∧ s.secIs y.2 k (sector * 128) none = false) →
      ∀ b, b < 128 → rdByte t.mem (sector * 128 + b) =
        if m.getLsbD b then rdByte c.stash (512 * i + 128 * j.val + b) else rdByte s.mem (sector * 128 + b))

/-! ## Atomics and synchronisation -/

/-- Scalar atomics (R202, R203, R222, R223): D takes the old value, zero-extended; the location takes the new one, or
stays when `cas` does not find what it expects; on memory, at the home and after the context's earlier stores to the
location, while the stores of every other context stay pending. The
operations of R222 on w-bit patterns. -/
def Obligations.AtomicResults : Prop :=
  (∀ (c : Ctl) (f : FM) (s s1 s2 s3 s4 : State) (l : Loc) (sc : Scope) (old : Nat), s.guard c = true → destOk s f.opd →
     let z := scalarSize f.ta
     let b := (s.val f.opb).toNat % 2 ^ (8 * z)
     let at_ := atomicScope l sc
     s.scalarLoc (s.fmBase f) z z true = .ok (l, s1) →
     (if f.ph then s1.publish s1.key at_ else .ok s1) = .ok s2 →
     (if f.ph then s3.refresh s3.key at_ else .ok s3) = .ok s4 →
     (∀ op, s.scope f.scope (.amo c op f) = .ok sc →
       s2.ctxAtomic s2.key l z (fun o => some (amoVal op (8 * z) o b)) = .ok (old, false, s3) →
       exec (.amo c op f) s = .next (s4.putS f.opd (BitVec.ofNat 64 old)).advance) ∧
     (s.scope f.scope (.cas c f) = .ok sc →
       s2.ctxAtomic s2.key l z (fun o => if o = (s.val f.opd).toNat % 2 ^ (8 * z) then some b else none) = .ok (old, false, s3) →
       exec (.cas c f) s = .next (s4.putS f.opd (BitVec.ofNat 64 old)).advance) ∧
     (∀ (asid : Fin 16) (va pa : Nat) (g : Nat → Option Nat), l = .hbm asid va pa → pa + z ≤ hbmBytes →
       s2.ctxAtomic s2.key l z g = .ok (old, false, s3) →
       ∃ u, s2.drainLoc s2.key l z = .ok u ∧ old = rdVal u.mem pa z ∧
         s3.mem = (match g old with
           | none => u.mem
           | some v => wrBytes u.mem pa (leBytes z v)) ∧
         ∀ p ∈ s2.pend, p.ctx ≠ s2.key → p ∈ s3.pend)) ∧
  (∀ (w : Nat) (old b : BitVec w), 1 ≤ w →
     let r := fun op => BitVec.ofNat w (amoVal op w old.toNat b.toNat)
     r .add = old + b ∧ r .and = old &&& b ∧ r .or = old ||| b ∧ r .xor = old ^^^ b ∧ r .swap = b ∧
     r .min = (if b.slt old then b else old) ∧ r .max = (if old.slt b then b else old) ∧
     r .minn = (if b.ult old then b else old) ∧ r .maxn = (if old.ult b then b else old))

/-- `vamo` (R224) and the reductions into bins and remote memory (R246, R247, R244): under their checks, the elements in
order, then the PC advances; `scred` first sends its trains and then completes when each is acknowledged, and raises RANGE
with the default TRAPVAL for a bad s[A + 1]; `binpl` hands its regions to the binning engine and completes once the replay
has ended (R209). -/
def Obligations.VectorAtomicsAndReductions : Prop :=  ∀ (c : Ctl) (s : State), s.guard c = true →
    (∀ (op : AmoOp) (f : FM) (d x : Fld) (sc : Scope) (s1 s2 s3 s4 s5 : State) (rs : List (VElem × Ready)),
      s.vecData (.vamo c op f) f true = .ok d → s.field f.opb .fm 0 .int = .ok x → s.scope f.scope (.vamo c op f) = .ok sc →
      s.popAll [f.opd, f.opb] = .ok s1 → s1.checkParity d (List.range s1.slen) = .ok () →
      s1.checkParity x (List.range s1.slen) = .ok () →
      s1.vecCheck (d.width / 8) true true f.ff
        ((s1.planIndex f (d.width / 8) x).map fun e => { e with i1 := 0 }) = .ok (rs, s2) →
      (if f.ph && s2.inBody then s2.publish s2.key (elemsScope rs sc) else .ok s2) = .ok s3 →
      s3.atomicElems s (d.width / 8) (amoVal op d.width) (fun i => d.get (s3.core.row (s3.lane i))) rs = .ok s4 →
      (if f.ph && s2.inBody then s4.refresh s4.key (elemsScope rs sc) else .ok s4) = .ok s5 →
      exec (.vamo c op f) s = .next (s5.residency rs).advance) ∧
    (∀ f : FE, s.ctx.sends.contains s.issuerSlot = true →
      s.sentBy s.key s.issuerSlot = [] →
      exec (.scred c f) s = .next (s.modCtx fun x => { x with sends := setDel x.sends s.issuerSlot }).advance) ∧
    (∀ f : FE, s.ctx.sends.contains s.issuerSlot = false →
      ((s.feRegs f).getD 1 0 >>> 45 ≠ 0 ∨
        applyOk (scredOp ((s.feRegs f).getD 1 0)) (scredZ ((s.feRegs f).getD 1 0)) = false) →
      exec (.scred c f) s = .next (s.takeTrap { cause := .range, val := Instr.upper (.scred c f) })) ∧
    (∀ (f : FE) (es : List (Nat × Nat × Nat)) (s1 s2 : State),
      let rs := s.feRegs f
      let w := rs.getD 1 0
      s.ctx.sends.contains s.issuerSlot = false → w >>> 45 = 0 → applyOk (scredOp w) (scredZ w) = true →
      s.readEntries (rs.getD 0 0) (bitsAt w 42 3) (bitsAt w 0 32) 0 = .ok (es, s1) →
      s.checkEntries (scredZ w) es none = .ok () →
      (trainsOf (scredZ w) es).foldl (fun (r : Option State) t =>
        r.bind fun s' => s'.send s'.ctx.ten s'.cur.core t.1 s'.asid false (scredOp w) (scredZ w) t.2
          (.issuer s'.key s.issuerSlot))
        (some s1) = some s2 →
      (es = [] → exec (.scred c f) s = .next s2.advance) ∧
      (es ≠ [] → exec (.scred c f) s = .next (s2.modCtx fun x => { x with sends := setAdd x.sends s.issuerSlot }))) ∧
    (∀ (f : FE) (d : BitVec 512) (n : Nat) (es : List (Nat × Nat × Nat)) (s1 s2 s3 s4 : State),
      let b := BinSet.ofBits d
      s.binSet ((s.feRegs f).getD 0 0) (.binap c f) = .ok (d, s1) → s.replaying ((s.feRegs f).getD 0 0) = false →
      s.needWindow (s.val f.opb) [0, 10] = .ok () →
      s1.scalarVal (s.val f.opb) 8 = .ok (n, s2) →
      s2.readEntries (s.val f.opb + 8) (bitsAt b.rbase 54 3) n 0 = .ok (es, s3) → s.checkEntries b.zlog es (some (Instr.upper (.binap c f))) = .ok () →
      s3.engDo (es.forM fun e => binPlace (s3.agentOf s3.key) b e.2.1 e.1 (e.2.1 % 2 ^ 54)) = .ok ((), s4) →
      exec (.binap c f) s = .next s4.advance) ∧
    (∀ f : FE, s.ctx.sends.contains s.issuerSlot = true →
      (s.replayOf s.key s.issuerSlot = true → exec (.binpl c f) s = .next s.retrySends) ∧
      (s.replayOf s.key s.issuerSlot = false →
        exec (.binpl c f) s = .next (s.modCtx fun x => { x with sends := setDel x.sends s.issuerSlot }).advance)) ∧
    (∀ (f : FE) (sc : Scope) (d : BitVec 512) (s1 : State), s.ctx.sends.contains s.issuerSlot = false →
      s.scope f.scope (.binpl c f) = .ok sc →
      s.checkBarrier (s.val f.opb) = .ok () → s.binSet ((s.feRegs f).getD 0 0) (.binpl c f) = .ok (d, s1) →
      s.replaying ((s.feRegs f).getD 0 0) = false →
      ∃ (t : State) (g : Gather), exec (.binpl c f) s = .next t ∧ t.gathers = s1.gathers ++ [g] ∧
        g.bins = some ((s.feRegs f).getD 0 0, d) ∧ g.vis = s.val f.opb ∧ g.ctx = s1.key ∧ g.slot = s1.issuerSlot ∧
        g.next = 0 ∧ g.atEnd = false ∧
        g.total = (BinSet.ofBits d).nrgn ∧ g.arrives = (BinSet.ofBits d).nrgn ∧
        g.act = binReplay g.agent (BinSet.ofBits d) 0 ∧ t.mem = s1.mem ∧ t.thread = s1.thread ∧
        t.ctx.sends = setAdd s1.ctx.sends s1.issuerSlot)

/-- Phase boundaries and barriers (R225 to R228): `phase` when its boundary completes; `barinit` writes the expected count;
`bararr` adds to the arrivals; `barwait` goes on only when GEN differs from B, `bartest` says whether it does. -/
def Obligations.BarrierResults : Prop :=  ∀ (c : Ctl) (f : FR) (s : State), s.guard c = true →
    (∀ sc u, s.scopeOperand f.opa (.phase c f) = .ok sc → s.boundary s.key sc = .ok u →
      exec (.phase c f) s = .next u.advance) ∧
    (∀ l s1 s2 s3, 1 ≤ (s.val f.opb).toNat → (s.val f.opb).toNat < 2 ^ 32 → s.barLoc (s.val f.opa) = .ok (l, s1) →
      s1.drainLoc s1.key l 16 = .ok s2 → (s2.noteLoc (.ctx s2.key) l (leBytes 16 (s.val f.opb).toNat)).homeWrite s2.cur.core l (leBytes 16 (s.val f.opb).toNat) false = .ok s3 →
      exec (.barinit c f) s = .next s3.advance) ∧
    ((s.val f.opb).toNat = 0 ∨ 2 ^ 32 ≤ (s.val f.opb).toNat →
      exec (.barinit c f) s = .next (s.takeTrap { cause := .range, val := Instr.upper (.barinit c f) })) ∧
    (∀ sc l s1 s2 s3 old, destOk s f.opd → s.subScope f.sub (.bararr c f) = .ok sc → (s.val f.opb).toNat < 2 ^ 32 →
      s.barLoc (s.val f.opa) = .ok (l, s1) → s1.publish s1.key sc = .ok s2 →
      s2.ctxAtomic s2.key l 16 (fun o => some (arrive o (s.val f.opb).toNat)) = .ok (old, false, s3) →
      exec (.bararr c f) s = .next (s3.putS f.opd (BitVec.ofNat 64 (old / 2 ^ 96 % 2 ^ 32))).advance) ∧
    (∀ sc g s1, s.subScope f.sub (.barwait c f) = .ok sc → s.barRead (s.val f.opa) = .ok (g, s1) →
      (g ≠ (s.val f.opb).toNat % 2 ^ 32 → ∀ s2, s1.passBarrier sc = .ok s2 → exec (.barwait c f) s = .next s2.advance) ∧
      (g = (s.val f.opb).toNat % 2 ^ 32 → ∃ t, exec (.barwait c f) s = .next t ∧ t.thread = s.thread)) ∧
    (∀ sc g s1, destOk s f.opd → s.subScope f.sub (.bartest c f) = .ok sc → s.barRead (s.val f.opa) = .ok (g, s1) →
      (g ≠ (s.val f.opb).toNat % 2 ^ 32 → ∀ s2, s1.passBarrier sc = .ok s2 → exec (.bartest c f) s = .next (s2.putP f.opd true).advance) ∧
      (g = (s.val f.opb).toNat % 2 ^ 32 → exec (.bartest c f) s = .next (s1.putP f.opd false).advance)) ∧
    (∀ o n : Nat, o < 2 ^ 128 → n < 2 ^ 32 →
      barExp (arrive o n) = barExp o ∧
      (barCur o + n < barExp o → barGen (arrive o n) = barGen o ∧ barCur (arrive o n) = barCur o + n) ∧
      (barExp o ≤ barCur o + n → barGen (arrive o n) = (barGen o + 1) % 2 ^ 32 ∧
        barCur (arrive o n) = min (barCur o + n - barExp o) (2 ^ 32 - 1)))

/-! ## Engines and streams -/

/-- `card` (R229 to R232) for every kind: when its registers, pointers and footprint pass and there is room, the card joins
the queue unstarted, behind every card that its footprint meets, holds its ranges on the scoreboard, and the PC advances;
`cardq` counts (R238). -/
def Obligations.CardIssue : Prop :=  (∀ (c : Ctl) (k : CardKind) (f : FE) (s : State) (sc : Scope), s.guard c = true →
    let r := s.feRegs f
    let a := s.agentOf s.key
    let live := fun (x : List Range) => (x.filter fun y => y.len != 0).map fun y => y.region a
    let rr := live (cReads k r)
    let wr := live (cWrites k r) ++ (cSlots k r).map fun b => { space := .tile a.core, lo := b, hi := b + 1 : Region }
    let es := scoresOf a.core s.nextId rr wr
    s.scope f.scope (.card c k f) = .ok sc → s.checkBarrier (r.getD 6 0) = .ok () → s.checkBarrier (r.getD 7 0) = .ok () →
    (∀ n, n < 6 → regOk k r n = true) → s.checkRanges (cReads k r ++ cWrites k r) = .ok () → es.length ≤ 32 →
    (s.cardsOf (quarterOf a.core)).length < 1024 → s.core.scores.length + es.length ≤ 32 →
    ∃ (t : State) (x : Card), exec (.card c k f) s = .next t ∧ t.cards = s.cards ++ [x] ∧
      x.kind = k ∧ x.regs = Vector.ofFn (fun i => r.getD i 0) ∧ x.phase = .queued ∧ x.row = 0 ∧ x.n = cCount k r ∧
      x.reads = rr ∧ x.writes = wr ∧ x.ctx = s.key ∧
      (∀ p ∈ s.cards, cardQuarter p = quarterOf a.core →
        (regionsMeet p.writes rr || regionsMeet p.reads wr || regionsMeet p.writes wr) = true → p.id ∈ x.after) ∧
      t.core.scores = s.core.scores ++ es ∧ t.thread = s.advance.thread ∧ t.mem = s.mem) ∧
  ∀ (c : Ctl) (f : FR) (s : State), s.guard c = true → destOk s f.opd →
    (f.sub = 0 → exec (.cardq c f) s = .next (s.putS f.opd
      (BitVec.ofNat 64 (1024 - (s.cards.filter fun x => quarterOf x.agent.core == quarterOf s.cur.core).length))).advance) ∧
    (f.sub = 1 → exec (.cardq c f) s = .next (s.putS f.opd
      (BitVec.ofNat 64 (s.cards.filter fun x => x.ctx == s.key && x.ten == s.ctx.ten).length)).advance) ∧
    (f.sub = 2 → exec (.cardq c f) s = .next (s.putS f.opd (BitVec.ofNat 64 (32 - s.core.scores.length))).advance)

/-- The life of a card (R233, R238): the oldest card that is ready goes to a free copy engine; in its turns it reads a row whole
and then writes it, half a row at a time; once every read has performed the card arrives on its released barrier, and at
last on its visible barrier, and is gone. `gath` (R243) is issued like a card; in its turns a gather moves one element, and
once the last has performed it ends with its arrival. -/
def Obligations.CardAndGatherLife : Prop :=
  ((∀ (q : Fin 4) (s : State) (c : Card) (e : Nat), (s.quarter q).stopped = false →
     s.freeEngine q = some e → (s.cardsOf q).find? s.cardReady = some c →
     exec (.cardDispatch q) s = .next (s.modCard c.id fun c => cardNext
       { c with phase := .running, engine := some e, agent := { c.agent with tlb := engineOf q e } }) ∧
     (∀ x ∈ s.cardsOf q, x.engine ≠ some e) ∧ e < 64 ∧ ∀ p ∈ c.after, ∀ x ∈ s.cards, x.id ≠ p) ∧
   (∀ (s s1 : State) (c c1 : Card), s.cards.find? (fun x => x.id == c.id) = some c → s.cardGoes c = true →
     cardStep c s = .ok (c1, s1) →
     s.rowTurn c.id = (s1.modCard c.id fun _ => if cRows c1.regs.toList ≤ c1.row then cardMoved c1 else c1) ∧
     (c.loaded = none → c.kind ≠ .kvcompact → c1.row = c.row ∧ c1.loaded.isSome = true) ∧
     (c.loaded.isSome = true → c.kind ≠ .rcopy →
       c1.row = c.row + 1 ∧ c1.pinned = [] ∧ c1.loaded = none)) ∧
   (∀ (s s' : State) (c : Card), s.cards.find? (fun x => x.id == c.id) = some c →
     (c.phase = .moved ∨ c.phase = .running ∧
       (c.kind = .fill ∨ c.loaded.isSome = true ∧ c.row + 1 = cRows c.regs.toList)) →
     (s.quarter (cardQuarter c)).stopped = false → engArrive c.agent (c.regs.get 6) c.n s = .ok ((), s') →
     exec (.cardReleasedArrival c.id) s =
       .next ((s'.modCard c.id fun x => { x with phase := if x.phase = .moved then .released else .draining }).freeScores
         c.agent.core c.id false)) ∧
   ∀ (s s' : State) (c : Card), s.cards.find? (fun x => x.id == c.id) = some c → c.phase = .released → cardFree c = true →
     (s.quarter (cardQuarter c)).stopped = false → (s.sent.any fun x => x.owner == .card c.id) = false →
     engArrive c.agent (c.regs.get 7) c.n s = .ok ((), s') →
     ∃ t, exec (.cardVisibleArrival c.id) s = .next t ∧ t.mem = s'.mem ∧ ∀ x ∈ t.cards, x.id ≠ c.id) ∧
  ((∀ (c : Ctl) (f : FE) (s : State) (sc : Scope), s.guard c = true →
     let r := s.feRegs f
     let a := s.agentOf s.key
     let live := fun (x : List Range) => (x.filter fun y => y.len != 0).map fun y => y.region a
     let es := scoresOf a.core s.nextId (live (gReads r)) (live (gWrites r))
     s.scope f.scope (.gath c f) = .ok sc → s.checkBarrier (s.val f.opb) = .ok () → (∀ n, n < 4 → gathOk r n = true) →
     s.checkDestWindow (r.getD 3 0) = .ok () → s.checkRanges (gReads r ++ gWrites r) = .ok () →
     s.core.scores.length + es.length ≤ 32 →
     ∃ (t : State) (g : Gather), exec (.gath c f) s = .next t ∧ t.gathers = s.gathers ++ [g] ∧
       g.regs = Vector.ofFn (fun i => r.getD i 0) ∧ g.vis = s.val f.opb ∧ g.ctx = s.key ∧
       t.core.scores = s.core.scores ++ es ∧ t.thread = s.advance.thread ∧ t.mem = s.mem) ∧
   (∀ (s s' : State) (g : Gather) (e : Nat), s.gathers.find? (fun x => x.id == g.id) = some g →
     g.atEnd = false → s.gatherGoes g = true → g.engine = some e → g.next < g.total → g.act s = .ok ((), s') →
     s.elemTurn g.id = s'.modGather g.id fun _ =>
       if g.next + 1 < g.total then { g with next := g.next + 1 }
       else { g with next := g.next + 1, atEnd := true, engine := none }) ∧
   ∀ (s s' : State) (g : Gather), s.gathers.find? (fun x => x.id == g.id) = some g → g.atEnd = true → s.gatherGoes g = true →
     engArrive g.agent g.vis g.arrives s = .ok ((), s') →
     ∃ t, exec (.gatherVisibleArrival g.id) s = .next t ∧ t.mem = s'.mem ∧ ∀ x ∈ t.gathers, x.id ≠ g.id)

/-- Streams (R239 to R242): `strm` and `strmkv` put the register in stream mode at the start of their walk; `strmx.stop` leaves
stream mode; `strmx.stat` reads the pops of the strip. When the stream unit reads ahead, no register, predicate, row, tag or
status of any context changes, and of the stream nothing but what it holds ahead and the blocks it has found absent: its
position, its pops and the other streams stay; without stores of its context still to perform, memory stays too. -/
def Obligations.StreamResults : Prop :=  ∀ (c : Ctl) (s : State) (r : Fin 4) (z : Nat), s.guard c = true →
    (∀ f : FX, s.streamReg f.opd (.strm c f) = .ok (r, z) →
      ∃ x : Stream,
        exec (.strm c f) s = .next (s.modCtx fun y => { y with streams := y.streams.set r (some x) r.isLt }).advance ∧
        x.kv = false ∧ x.base = s.val f.opa ∧ x.z = z ∧ x.next = 0 ∧ x.pops = 0 ∧ x.ahead = [] ∧
        x.dims = s.ctx.dims.toList.take (f.opb.idx + 1)) ∧
    (∀ (f : FX) (a b d : Nat) (v : State), s.streamReg f.opd (.strmkv c f) = .ok (0, z) →
      16 * (f.xf.toNat + 1) ≤ s.core.vl → s.walkRecord (s.val f.opa) = .ok ([a, b, d, 0], v) →
      b < 2 ^ 32 →
      ∃ x : Stream,
        exec (.strmkv c f) s = .next (v.modCtx fun y => { y with streams := y.streams.set 0 (some x) }).advance ∧
        x.kv = true ∧ x.table = BitVec.ofNat 64 a ∧ x.len = b ∧ x.base = BitVec.ofNat 64 d ∧ x.row = f.xf.toNat + 1 ∧ x.pops = 0 ∧
        x.delivered = [] ∧ x.deferred = []) ∧
    (∀ f : FR, s.streamReg f.opa (.strmxStop c f) = .ok (r, z) →
      exec (.strmxStop c f) s = .next (s.modCtx fun y => { y with streams := y.streams.set r none r.isLt }).advance) ∧
    (∀ f : FR, destOk s f.opd → s.streamReg f.opa (.strmxStat c f) = .ok (r, z) →
      (∀ x, s.strip? = some x → exec (.strmxStat c f) s = .next (s.putS f.opd (x.pops.get r)).advance) ∧
      (s.strip? = none → exec (.strmxStat c f) s = .next (s.putS f.opd 0).advance)) ∧
    ∀ (core : Fin 320) (lc : Fin 4), let k := ctxNum core lc
      ∃ (t : State) (streams : Vector (Option Stream) 4), exec (.streamReadAhead core lc r) s = .next t ∧
        ((∀ p ∈ s.pend, p.ctx ≠ k) → t.mem = s.mem ∧ t.cls = s.cls) ∧
        t.ctxAt k = { s.ctxAt k with streams := streams } ∧ (∀ n, n ≠ k → t.ctxAt n = s.ctxAt n) ∧
        (∀ n, (t.coreAt n).rows = (s.coreAt n).rows) ∧ (∀ i, i ≠ r → streams.get i = (s.ctxAt k).streams.get i) ∧
        ((s.ctxAt k).streams.get r = none → streams.get r = none) ∧
        ∀ x, (s.ctxAt k).streams.get r = some x → ∃ more later,
          streams.get r = some { x with ahead := x.ahead ++ more, deferred := x.deferred ++ later }

/-! ## Seep kernels -/

/-- `seep` (R275, R276): with PLACE 1 and INTENS at or above the threshold it sets pD to 0 and does nothing; otherwise, when
everything it names can be read and pinned and its writes to the region are published, the kernel waits for its claim, with
its claim for program memory, or starts at once. A waiting kernel starts when its claim is granted and its dies have room
(R281); a kernel fails at a failing unit, and at its release, once its STAT words have performed, it arrives and is gone, or
its record is written and its issuer ends (R280, R282). -/
def Obligations.SeepKernelLife : Prop :=  (∀ (c : Ctl) (f : FE) (s s1 : State) (sc : Scope) (prog : List (BitVec 64)), s.guard c = true → destOk s f.opd →
    let r := s.feRegs f
    s.awaitsClaim s.cur = false → s.scope f.scope (.seep c f) = .ok sc → kNw r ≠ 0 → kNw r ≤ 256 →
    s.readSeep (r.getD 0 0) (kNw r) 0 = .ok (prog, s1) → s.checkKernelPointers r = .ok () →
    s.checkBarrier (s.val f.opb) = .ok () → (∀ n, n < 6 → kOk r n = true) →
    (kPlace r = 1 → bitsAt s.regs.aithresh 0 32 ≤ kIntens r → exec (.seep c f) s = .next (s1.putP f.opd false).advance) ∧
    (∀ (frames x : List Nat) (s2 s3 s4 s6 : State), (kPlace r ≠ 1 ∨ kIntens r < bitsAt s.regs.aithresh 0 32) →
      let k := s1.newKernel f.opd r (s.val f.opb) prog
      (∀ y ∈ s1.kernels, y.id ≠ k.id) →
      (s1.withKernel k).pinSectors (r.getD 1 0).toNat true (4 * kLines r) [] = .ok (frames, s2) →
      s2.pinSectors (k.progAt / 128 * 128) false ((k.progAt % 128 + 8 * prog.length + 127) / 128) [] = .ok (x, s3) →
      (r.getD 5 0 = 0 ∧ s4 = s3 ∨ r.getD 5 0 ≠ 0 ∧ ∃ y z v, s3.pinSectors (r.getD 5 0).toNat true 24 [] = .ok (y, v) ∧
        v.pinSectors ((r.getD 5 0).toNat + 3071) true 1 [] = .ok (z, s4)) →
      let k1 := { k with frames := frames.reverse, pinned := s4.kernelPages k, statAt := s4.statFrames k.stat
                         units := unitsOf frames.reverse, stage := .publish }
      State.seepPublish { s4 with kernels := s1.kernels ++ [k1] } k1 = .ok s6 →
      let claimed := { s6 with kernels := s1.kernels ++ [{ k1 with stage := .claimed }] }
      (grantable s1.kernels k1 = false →
        exec (.seep c f) s = .next { s6 with kernels := s1.kernels ++ [{ k1 with stage := .queued }] }) ∧
      (grantable s1.kernels k1 = true → programRoom s1.kernels k1 = false → exec (.seep c f) s = .next claimed) ∧
      (grantable s1.kernels k1 = true → programRoom s1.kernels k1 = true →
        exec (.seep c f) s = .next (claimed.startKernel { k1 with stage := .claimed })))) ∧
  (∀ (s : State) (k : Kernel), s.kernels.find? (fun x => x.id == k.id) = some k → k.stage = .queued →
    s.live k.issuer = true → grantable (s.kernels.takeWhile fun x => x.id != k.id) k = true →
    let u := s.modKernel k.id fun x => { x with stage := .claimed }
    (programRoom u.kernels k = true → exec (.seepClaimGrant k.id) s =
      .next (s.asIssuer k.issuer fun v => (v.modKernel k.id fun x => { x with stage := .claimed }).startKernel
        { k with stage := .claimed })) ∧
    (programRoom u.kernels k = false → exec (.seepClaimGrant k.id) s = .next u)) ∧
  (∀ (s : State) (k : Kernel), let t := s.startKernel k
    t.readP k.pd = (s.putP (.p k.pd) true).readP k.pd ∧ t.mem = s.mem ∧
    t.kernels = s.kernels.map fun x => if x.id = k.id then { x with stage := .running } else x) ∧
  (∀ (s : State) (k : Kernel) (u : SeepUnit) (w : Nat) (bad : Bool), s.kernels.find? (fun x => x.id == k.id) = some k →
    k.units.find? (fun x => x.id == u.id) = some u → u.failing = some (w, bad) → k.fail = none →
    ∃ t, exec (.seepKernelFail k.id u.id) s = .next t ∧ t.mem = s.mem ∧ { k with fail := some (w, u.id, bad) } ∈ t.kernels) ∧
  (∀ (s t : State) (k : Kernel), s.kernels.find? (fun x => x.id == k.id) = some k → k.stage = .running →
    (∀ u ∈ k.units, u.halted = true ∧ u.failing = none) → k.fail = none → (s.writeStat k).2 = true →
    (s.quarter (quarterOf k.agent.core)).stopped = false →
    ((s.releaseKernel k).quarter (quarterOf k.agent.core)).stopped = false →
    engArrive k.agent k.vis k.rlines (s.releaseKernel k) = .ok ((), t) →
    exec (.seepRelease k.id) s = .next ((t.dropTorn (.kernel k.id)).dropKernel k.id)) ∧
  ∀ (s t : State) (k : Kernel) (x : Nat × Nat × Bool), k.stage = .failed → k.fail = some x →
    s.putRecord (quarterOf k.agent.core) (kernelRecord k x) = some t →
    s.kernelEnds k = (t.dropKernel k.id).endIssuer k.ctx k.ten

/-- Arithmetic of a seep unit (R278, R279): the named lanes of Wd take the rounded results of the lanes as they stood
before the word; nothing else of the machine changes but the unit. Fetch, write-back and control of a seep unit (R277
to R279): columns of the unit's line are read and written in memory, other bytes stay, and `loop`, `halt`, `sync` and
an idle word move the unit on; without an executing unit each of them stops. That `stc` of a poisoned register fails the unit
is the model's choice (assumption log 28). -/
def Obligations.SeepUnitResults : Prop :=
  (∀ (a : SeepArith) (s : State) (k : Kernel) (u : SeepUnit), s.unitAt = some (k, u) →
     let lane := fun (n : Fin 16) (i : Nat) => laneOf a.ty (u.reg n) i
     (∀ e ∈ ([(.seepAdd, fun x y _ => addV x y), (.seepMul, fun x y _ => mulV x y), (.fma, fun x y d => addV (mulV x y) d),
              (.seepMax, fun x y _ => maxV x y)] : List ((SeepArith → Instr) × (Val → Val → Val → Val))),
       ∃ (v : Nat) (bad : Bool), exec (e.1 a) s = .next (s.modKernel k.id fun x => x.setUnit (u.setReg a.wd v bad).pop) ∧
         ∀ i, i < seepLanes a.ty →
           bitsAt (BitVec.ofNat 256 v) ((seepTy a.ty).width * i) (seepTy a.ty).width =
             seepRound a.ty (e.2 (lane a.wa i) (lane a.wb i) (lane a.wd i))) ∧
     (∃ v bad, exec (.rsum a) s = .next (s.modKernel k.id fun x => x.setUnit (u.setReg a.wd v bad).pop) ∧
       v = treeSum a.ty (Nat.log2 (seepLanes a.ty)) ((List.range (seepLanes a.ty)).map fun i =>
         seepRound a.ty (lane a.wa i))) ∧
     (∃ v bad, exec (.deq a) s = .next (s.modKernel k.id fun x => x.setUnit (u.setReg a.wd v bad).pop) ∧
       ∀ i, i < 8 → bitsAt (BitVec.ofNat 256 v) (32 * i) 32 =
         (Flt.f32.round ((deqSrc a.ty (u.reg a.wa) (8 * a.imm.toNat + i)).mul (Flt.f32.val (bitsAt (u.reg a.wb) 0 32)))
           .rne false 0).bits)) ∧
  ((∀ (s : State) (k : Kernel) (u : SeepUnit), s.unitAt = some (k, u) →
     let go := fun (v : SeepUnit) => Host.Outcome.next (s.modKernel k.id fun x => x.setUnit v)
     exec .idle s = go u.pop ∧ exec .seepHalt s = go { u with halted := true, ops := [] } ∧
     (u.at_ + 1 < u.lines.length → exec .seepLoop s = go { u with at_ := u.at_ + 1, word := 0, run := 0, ops := [] }) ∧
     (u.lines.length ≤ u.at_ + 1 → exec .seepLoop s = go u.pop) ∧
     ((k.units.all fun v => v.id == u.id || v.halted || v.failing.isSome || u.syncs ≤ v.syncs) = true →
       exec .seepSync s = go u.pop) ∧
     (∀ wd col, exec (.fld wd col) s =
       go (u.setReg wd (rdVal s.mem (k.colAt u col) 32) (s.poisoned (k.colAt u col) 32)).pop) ∧
     (∀ wd wa pa w v, let va := k.xbase.toNat + 32 * bitsAt (u.reg wa) 0 32
       k.xbase ≠ 0 → va < 2 ^ 57 → s.tlbWalk (576 + u.id / 32) k.agent.asid va = (w, v) →
       (∀ log, w ≠ .absent log) → (∀ a, w ≠ .poisoned a) → w.physical va = some pa →
       exec (.fldx wd wa) s = .next (v.modKernel k.id fun x => x.setUnit
         (u.setReg wd (rdVal s.mem pa 32) (s.poisoned pa 32 || u.isBad wa)).pop)) ∧
     (∀ wa (col : Fin 16), unitWrites s k (u.lines.getD u.at_ 0) col.val (u.reg wa).toNat u u.pop (exec (.seepSt wa col) s)) ∧
     (∀ wa, u.isBad wa = true → exec (.stc wa) s =
       .next ((s.logError 10 3 true (u.id / 32) 0).modKernel k.id fun x => x.setUnit (u.fails true).pop)) ∧
     (∀ wa, u.isBad wa = false → u.reg wa = 0 → exec (.stc wa) s = go u.pop) ∧
     (∀ wa l, u.isBad wa = false → u.reg wa ≠ 0 → u.lines[u.cursor / 16]? = some l →
       unitWrites s k l (u.cursor % 16) (u.reg wa).toNat u { u with cursor := u.cursor + 1 }.pop (exec (.stc wa) s)) ∧
     (∀ wa, u.isBad wa = false → u.reg wa ≠ 0 → u.lines[u.cursor / 16]? = none →
       exec (.stc wa) s = go { u with ovf := true }.pop) ∧
     (∀ wa (col : Fin 16) (m : Fin 3), ∃ v : Nat,
       unitWrites s k (u.lines.getD u.at_ 0) col.val v u u.pop (exec (.red wa col m) s) ∧
       ∀ i, i < seepLanes (redTy m) →
         bitsAt (BitVec.ofNat 256 v) ((seepTy (redTy m)).width * i) (seepTy (redTy m)).width =
           seepRound (redTy m) (addV (laneOf (redTy m) (BitVec.ofNat 256 (rdVal s.mem (k.colAt u col) 32)) i)
             (laneOf (redTy m) (u.reg wa) i)))) ∧
   ∀ (s : State) (wd wa col : Fin 16) (m : Fin 3) (a : SeepArith) (i : Instr), s.unit = none →
     i ∈ ([.idle, .seepLoop, .seepHalt, .seepSync, .fld wd col, .fldx wd wa, .seepAdd a, .seepMul a, .fma a, .deq a, .seepMax a,
       .rsum a, .seepSt wa col, .stc wa, .red wa col m] : List Instr) → exec i s = .fault .noSeepUnit)

/-! ## Tensor handles, patterns, generators and taps -/

/-- Handles (R248, R250, R253, R254): `hld` takes a descriptor that passes the checks, traps with one that does not, and
traps in a body; `hst` makes eight stores of 8 bytes; `hq` reads a word of a descriptor or tells whether it can be run
inversely (R260). -/
def Obligations.HandleForms : Prop :=  ∀ (c : Ctl) (s : State), s.guard c = true →
    (∀ f : FM, s.inBody = true →
      exec (.hld c f) s = .next (s.takeTrap { cause := .operandClass, val := f.opd.code.setWidth 64 })) ∧
    (∀ (f : FM) (bs : List Byte) (u : State), s.inBody = false → s.scalarRead (s.fmBase f) 64 64 = .ok (bs, u) →
      let h : Handle := BitVec.ofNat 512 (leVal bs)
      (handleOk h = true → ∃ t, exec (.hld c f) s = .next t ∧ t.ctx.handles.get (hreg f.opd) = h ∧
        (∀ n, n ≠ hreg f.opd → t.ctx.handles.get n = u.ctx.handles.get n) ∧ t.mem = u.mem ∧ t.ctx.s = u.ctx.s ∧
        t.thread = u.advance.thread) ∧
      (handleOk h = false → exec (.hld c f) s = .next (s.takeTrap { cause := .handleType, val := hWord h 0 }))) ∧
    (∀ (f : FM) (l : Loc) (u v : State), s.scalarLoc (s.fmBase f) 64 64 true = .ok (l, u) →
      (List.range 8).foldlM (fun w j => w.storeLoc w.key (l.shift (8 * j))
        (leBytes 8 (hWord (u.handle f.opd) j).toNat) u.newAcc (u.pinsOf u.cur.core [l])) u = .ok v → exec (.hst c f) s = .next v.advance) ∧
    (∀ (f : FM) (asid : Fin 16) (va pa : Nat) (u : State), s.scalarLoc (s.fmBase f) 64 64 true = .ok (.hbm asid va pa, u) →
      ∃ (t : State) (ps : List Pending), exec (.hst c f) s = .next t ∧ t.pend = u.pend ++ ps ∧ t.mem = u.mem ∧
        ps.length = 8 ∧ ∀ (j : Nat) (p : Pending), ps[j]? = some p → p.ctx = u.key ∧ p.home = .hbm ∧ p.addr = pa + 8 * j ∧
          p.bytes = leBytes 8 (hWord (u.handle f.opd) j).toNat) ∧
    ∀ f : FR, destOk s f.opd →
      let h := s.handle f.opa
      exec (.hqWord c f) s = .next (s.putS f.opd (h.extractLsb' (64 * f.opb.idx) 64)).advance ∧
      (hPattern h = none → exec (.hqInv c f) s = .next (s.putS f.opd (if hNlev h = 0 then 0 else 1)).advance) ∧
      ∀ l, hPattern h = some l →
        (hKind h l ∈ [1, 2, 3] → exec (.hqInv c f) s = .next (s.putS f.opd 1).advance) ∧
        (hKind h l = 5 → exec (.hqInv c f) s = .next (s.putS f.opd 0).advance) ∧
        (∀ (ws : List Nat) (u : State), hKind h l = 0 → readWords (hPtr h l) 0 (hNw h l) 0 s = .ok (ws, u) →
          exec (.hqInv c f) s = .next (u.putS f.opd (if ws.any (fun w => w / 2 ^ 28 == 14) then 1 else 0)).advance) ∧
        (∀ (b : Bool) (u : State), hKind h l = 4 → invertible h l 0 s = .ok (b, u) →
          exec (.hqInv c f) s = .next (u.putS f.opd (if b then 1 else 0)).advance)

/-- The sets of the patterns (R256, R258, Table 15-4), forward and inverse: the canonical ones, the Kronecker pattern from
the sets of its sub-handles, and a program's, which are the values that it emits in range; what each of the operations of a
program does (R259, Table 15-5). Lookup (R251): every element of an all-dense handle is present, at the position of its number; a
lookup goes through the levels with the coordinates of the element, and each compressed, singleton, bitmap or pattern
level finds its coordinate as the rule says. -/
def Obligations.PatternSets : Prop :=  (∀ (npp lim x p0 p1 p2 : Nat) (l : List Nat) (j : Nat),
    let o : Int := (BitVec.ofNat 32 p2).toInt
    (canonSet 1 npp lim false x p0 p1 p2 = some l → l.length ≤ npp → (j ∈ l ↔ j < lim ∧ x ≤ j + p0 ∧ j ≤ x + p1)) ∧
    (canonSet 1 npp lim true x p0 p1 p2 = some l → l.length ≤ npp → (j ∈ l ↔ j < lim ∧ x ≤ j + p1 ∧ j ≤ x + p0)) ∧
    (canonSet 2 npp lim false x p0 p1 p2 = some l → (j ∈ l ↔ j < lim ∧ ∃ k, k < p0 ∧ (j : Int) = x + o + k * p1)) ∧
    (canonSet 2 npp lim true x p0 p1 p2 = some l → (j ∈ l ↔ j < lim ∧ ∃ k, k < p0 ∧ (x : Int) = j + o + k * p1)) ∧
    (canonSet 3 npp lim false x p0 p1 p2 = some l → l.length ≤ npp → (j ∈ l ↔ j < lim ∧ j / p1 = x / p0)) ∧
    (canonSet 3 npp lim true x p0 p1 p2 = some l → l.length ≤ npp → (j ∈ l ↔ j < lim ∧ j / p0 = x / p1)) ∧
    (canonSet 5 npp lim false x p0 p1 p2 = some l → (j ∈ l ↔ j < lim ∧ ∃ k, k < p0 ∧
      j = (hMix (BitVec.ofNat 64 (p2 * 2 ^ 32 + p1)) (BitVec.ofNat 64 (x * 2 ^ 32 + k))).toNat % lim))) ∧
  (∀ (h : Handle) (i0 : Word) (l x : Nat) (inv : Bool) (s s1 s2 s3 s4 s5 s6 s7 : State) (pa pb : Word) (rb cb : Nat)
      (a b : Handle) (sa sb : List Nat), hKind h l = 4 → kronPtrs h i0 l s = .ok ((pa, pb), s1) →
    param h l 4 i0 s1 = .ok (rb, s2) → param h l 5 i0 s2 = .ok (cb, s3) → rb ≠ 0 → cb ≠ 0 →
    subHandle pa i0 (BitVec.ofNat 64 x) s3 = .ok (a, s4) → subHandle pb i0 (BitVec.ofNat 64 x) s4 = .ok (b, s5) →
    (if inv then subParents a i0 (x / cb) s5 else subSet a i0 (x / rb) s5) = .ok (sa, s6) →
    (if inv then subParents b i0 (x % cb) s6 else subSet b i0 (x % rb) s6) = .ok (sb, s7) →
    ∃ set : List Nat, set.Pairwise (· < ·) ∧
      (∀ j, j ∈ set ↔ j < (if inv then hProd h l else hDim h l) ∧ ∃ u ∈ sa, ∃ v ∈ sb,
        v < (if inv then rb else cb) ∧ j = u * (if inv then rb else cb) + v) ∧
      (set.length ≤ hNpp h l → runPattern h i0 inv l x s = .ok (set, s7))) ∧
  (∀ (h : Handle) (i0 : Word) (l x : Nat) (inv : Bool) (s s1 s2 : State) (ws : List Nat) (es : List Int) (last : Nat),
    let lim := if inv then hProd h l else hDim h l
    let start := if inv then (ws.findIdx fun w => w / 2 ^ 28 == 0xE) + 1 else 0
    hKind h l = 0 → readWords (hPtr h l) i0 (hNw h l) 0 s = .ok (ws, s1) →
    runWords h i0 l ws (BitVec.ofNat 64 x) (subElement h i0 l (BitVec.ofNat 64 x)) 65536 start (start - 1)
      (Run.start (BitVec.ofNat 64 x) (BitVec.ofNat 64 lim)) s1 = .ok ((es, last), s2) →
    ∃ set : List Nat, set.Pairwise (· < ·) ∧ (∀ j : Nat, j ∈ set ↔ j < lim ∧ (j : Int) ∈ es) ∧
      (set.length ≤ hNpp h l → runPattern h i0 inv l x s = .ok (set, s2))) ∧
  (∀ (h : Handle) (i0 arg : Word) (l pc last fuel w : Nat) (ws : List Nat) (sub : Bool → Word → Word → Rd Word) (r : Run)
      (s : State), ws[pc]? = some w →
    let go := runWords h i0 l ws arg sub
    let d := w / 2 ^ 25 % 8
    let a := r.get (w / 2 ^ 22)
    let b := r.get (w / 2 ^ 19)
    let imm : BitVec 19 := BitVec.ofNat 19 w
    (w / 2 ^ 28 = 0x0 ∨ w / 2 ^ 28 = 0xE → go (fuel + 1) pc last r s = .ok ((r.out, pc), s)) ∧
    (w / 2 ^ 28 = 0x1 → go (fuel + 1) pc last r s = go fuel (pc + 1) pc (r.set d (imm.signExtend 64)) s) ∧
    (w / 2 ^ 28 = 0x3 → go (fuel + 1) pc last r s = go fuel (pc + 1) pc (r.set d (a + b)) s) ∧
    (w / 2 ^ 28 = 0x5 → go (fuel + 1) pc last r s = go fuel (pc + 1) pc (r.set d (a - b)) s) ∧
    (w / 2 ^ 28 = 0x6 → go (fuel + 1) pc last r s = go fuel (pc + 1) pc (r.set d (a * b)) s) ∧
    (∀ v s', w / 2 ^ 28 = 0x2 → param h l (w % 16) i0 s = .ok (v, s') →
      go (fuel + 1) pc last r s = go fuel (pc + 1) pc (r.set d (BitVec.ofNat 64 v)) s') ∧
    (w / 2 ^ 28 = 0x4 → go (fuel + 1) pc last r s = go fuel (pc + 1) pc (r.set d (a + imm.signExtend 64)) s) ∧
    (w / 2 ^ 28 = 0x7 → go (fuel + 1) pc last r s = go fuel (pc + 1) pc (r.set d (a >>> (w % 64))) s) ∧
    (w / 2 ^ 28 = 0x8 → go (fuel + 1) pc last r s = go fuel (pc + 1) pc (r.set d (a &&& b)) s) ∧
    (w / 2 ^ 28 = 0x9 →
      go (fuel + 1) pc last r s = go fuel (pc + 1) pc (r.set d (if a.toInt ≤ b.toInt then a else b)) s) ∧
    (w / 2 ^ 28 = 0xA →
      go (fuel + 1) pc last r s = go fuel (pc + 1) pc (r.set d (if b.toInt ≤ a.toInt then a else b)) s) ∧
    (w / 2 ^ 28 = 0xB → go (fuel + 1) pc last r s = go fuel (pc + 1) pc (r.set d (hMix a b)) s) ∧
    (∀ v s', w / 2 ^ 28 = 0xF → sub (w % 2 == 1) a b s = .ok (v, s') →
      go (fuel + 1) pc last r s = go fuel (pc + 1) pc (r.set d v) s') ∧
    (w / 2 ^ 28 = 0xC → b.toInt ≤ a.toInt → go (fuel + 1) pc last r s = go fuel (pc + 1) pc r s) ∧
    (w / 2 ^ 28 = 0xC → a.toInt < b.toInt → 0 ≤ (pc : Int) + imm.toInt → (pc : Int) + imm.toInt < ws.length →
      go (fuel + 1) pc last r s = go fuel ((pc : Int) + imm.toInt).toNat pc r s) ∧
    (w / 2 ^ 28 = 0xD → r.out.length < 8192 →
      go (fuel + 1) pc last r s = go fuel (pc + 1) pc { r with out := r.out ++ [a.toInt] } s)) ∧
  (∀ (h : Handle) (i0 arg x i : Word) (l lo hi : Nat) (second : Bool) (sh : Handle) (set : List Nat) (s s1 s2 s3 s4 : State),
    param h l (if second then 10 else 8) i0 s = .ok (lo, s1) → param h l (if second then 11 else 9) i0 s1 = .ok (hi, s2) →
    subHandle (BitVec.ofNat 64 (lo + 2 ^ 32 * hi)) i0 arg s2 = .ok (sh, s3) → subSet sh i0 x.toNat s3 = .ok (set, s4) →
    subElement h i0 l arg second x i s =
      .ok (if i.toNat < set.length then BitVec.ofNat 64 (set.getD i.toNat 0) else BitVec.allOnes 64, s4)) ∧
  (∀ (h : Handle) (i0 : Word) (e : Nat) (s : State), 1 ≤ hNlev h → (∀ l, l < hNlev h → hFmt h l = 0) →
    (e < hProd h (hNlev h) → lookup h i0 e s = .ok (some e, s)) ∧
    (hProd h (hNlev h) ≤ e → lookup h i0 e s = .ok (none, s))) ∧
  (∀ (h : Handle) (i0 : Word) (e n : Nat) (s : State), 1 ≤ n → hNlev h = n → e < hProd h n →
    lookup h i0 e s = lookupFrom h i0 (runPattern h i0 false) (coords h n e) 0 0 s ∧ (coords h n e).length = n ∧
    (coords h n e).zipIdx.foldl (fun x c => x * hDim h c.2 + c.1) 0 = e) ∧
  ∀ (h : Handle) (i0 : Word) (run : Nat → Nat → Rd (List Nat)) (l p c : Nat) (cs : List Nat) (s s1 s2 s3 : State),
    (∀ q, level h i0 run l p c s = .ok (some q, s1) →
      lookupFrom h i0 run (c :: cs) l p s = lookupFrom h i0 run cs (l + 1) q s1) ∧
    (level h i0 run l p c s = .ok (none, s1) → lookupFrom h i0 run (c :: cs) l p s = .ok (none, s1)) ∧
    (∀ (lo hi : Nat) (r : Option Nat), hFmt h l = 1 → rd (hPtr h l + BitVec.ofNat 64 (4 * p)) 4 i0 s = .ok (lo, s1) →
      rd (hPtr h l + BitVec.ofNat 64 (4 * p + 4)) 4 i0 s1 = .ok (hi, s2) →
      level h i0 run l p c s = .ok (r, s3) →
      let crd := fun q => hPtr h l + BitVec.ofNat 64 (hAux h l) + BitVec.ofNat 64 (4 * q)
      (∀ q, r = some q → lo ≤ q ∧ q < hi ∧ (∃ u, rd (crd q) 4 i0 u = .ok (c, s3)) ∧
        ∀ k, lo ≤ k → k < q → ∃ u v x, rd (crd k) 4 i0 u = .ok (x, v) ∧ x ≠ c) ∧
      (r = none → ∀ k, lo ≤ k → k < hi → ∃ u v x, rd (crd k) 4 i0 u = .ok (x, v) ∧ x ≠ c)) ∧
    (∀ v, hFmt h l = 2 → rd (hPtr h l + BitVec.ofNat 64 (4 * p)) 4 i0 s = .ok (v, s1) →
      level h i0 run l p c s = .ok (if v = c then some p else none, s1)) ∧
    (∀ b m, hFmt h l = 3 → let t := p * hDim h l + c
      rd (hPtr h l + BitVec.ofNat 64 (t / 8)) 1 i0 s = .ok (b, s1) →
      (b.testBit (t % 8) = false → level h i0 run l p c s = .ok (none, s1)) ∧
      (b.testBit (t % 8) = true → countBytes (hPtr h l) i0 (t / 8) 0 s1 = .ok (m, s2) →
        level h i0 run l p c s = .ok (some (m + onesOf b (t % 8)), s2) ∧
        ∃ vs : List Nat, vs.length = t / 8 ∧ m = (vs.map fun v => onesOf v 8).sum ∧
          ∀ j, j < t / 8 → ∃ u v, rd (hPtr h l + BitVec.ofNat 64 j) 1 i0 u = .ok (vs.getD j 0, v))) ∧
    (∀ set, hFmt h l = 4 → run l p s = .ok (set, s1) →
      (∀ k, set.findIdx? (· == c) = some k → level h i0 run l p c s = .ok (some (p * hNpp h l + k), s1)) ∧
      (c ∉ set → level h i0 run l p c s = .ok (none, s1)))

/-- `hmask` (R255) writes the presence of each active lane; `gstart` and `ginv` (R262) list a run's set, `gnext` (R263) takes
the next entries of the list. -/
def Obligations.PresenceAndGenerators : Prop :=  ∀ (c : Ctl) (f : FR) (s u v w : State), s.guard c = true →
    let h := s.handle f.opa
    (∀ ts : List (Nat × Bool), s.vecStart (.hmaskLin c f) = .ok () → hNlev h ≠ 0 → precheck h s = .ok ((), u) →
      presentLanes (fun i => do let r ← lookup h (w64 (s.sidx.toNat + i)) (s.sidx.toNat + i); pure r.isSome)
        (s.active f.msk) u = .ok (ts, v) →
      exec (.hmaskLin c f) s = .next (v.putTags (mreg f.opd) ts).advance) ∧
    (s.vecStart (.hmaskTr c f) = .ok () → hNlev h = 2 → (s.val f.opb).toNat < hDim h 1 → precheck h s = .ok ((), u) →
      (∀ ts : List (Nat × Bool), hFmt h 1 ≠ 4 →
        presentLanes (fun i => do
          let r ← lookup h (w64 (s.sidx.toNat + i)) ((s.sidx.toNat + i) * hDim h 1 + (s.val f.opb).toNat)
          pure r.isSome) (s.active f.msk) u = .ok (ts, v) →
        exec (.hmaskTr c f) s = .next (v.putTags (mreg f.opd) ts).advance) ∧
      (∀ (u' : State) (rows : List Nat), hFmt h 1 = 4 → s.inBody = true →
        checkLevel h 1 (s.val f.opb).toNat u = .ok ((), u') → invertible h 1 0 u' = .ok (true, v) →
        runPattern h 0 true 1 (s.val f.opb).toNat v = .ok (rows, w) →
        exec (.hmaskTr c f) s = .next (w.putTags (mreg f.opd)
          ((s.active f.msk).map fun i => (i, rows.contains (s.sidx.toNat + i)))).advance) ∧
      (∀ u' : State, hFmt h 1 = 4 → checkLevel h 1 (s.val f.opb).toNat u = .ok ((), u') →
        invertible h 1 0 u' = .ok (false, v) → exec (.hmaskTr c f) s = .next (s.takeTrap
        { cause := .noninvertiblePattern, val := BitVec.ofNat 64 (hAux h 1), idx0 := BitVec.ofNat 64 (hreg f.opa).val }))) ∧
    (∀ (l : Nat) (set : List Nat), s.inBody = false → hPattern h = some l → (s.val f.opb).toNat < hProd h l →
      checkLevel h l (s.val f.opb).toNat s = .ok ((), u) → runPattern h 0 false l (s.val f.opb).toNat u = .ok (set, v) →
      ∃ t, exec (.gstart c f) s = .next t ∧ (t.ctx.gens.get (greg f.opd)).left = set.map (BitVec.ofNat 64) ∧
        (∀ n, n ≠ greg f.opd → t.ctx.gens.get n = v.ctx.gens.get n) ∧ t.mem = v.mem ∧ t.thread = v.advance.thread) ∧
    (∀ (l : Nat) (set : List Nat), s.inBody = false → hPattern h = some l → (s.val f.opb).toNat < hDim h l →
      checkLevel h l (s.val f.opb).toNat s = .ok ((), u) → invertible h l 0 u = .ok (true, v) →
      runPattern h 0 true l (s.val f.opb).toNat v = .ok (set, w) →
      ∃ t, exec (.ginv c f) s = .next t ∧ (t.ctx.gens.get (greg f.opd)).left = set.map (BitVec.ofNat 64) ∧
        (∀ n, n ≠ greg f.opd → t.ctx.gens.get n = w.ctx.gens.get n) ∧ t.mem = w.mem ∧ t.thread = w.advance.thread) ∧
    (destOk s f.opd →
      ((s.ctx.gens.get (greg f.opa)).left = [] →
        exec (.gnextScalar c f) s = .next (s.putS f.opd (BitVec.allOnes 64)).advance) ∧
      ∀ (x : Word) (rest : List Word), (s.ctx.gens.get (greg f.opa)).left = x :: rest →
        ∃ g : Gen, g.left = rest ∧
          exec (.gnextScalar c f) s = .next ((s.putS f.opd x).modCtx fun k => k.setGen (greg f.opa) g).advance) ∧
    ∀ d : Fld, s.vecStart (.gnextVector c f) = .ok () → s.field f.opd f.ta f.wid.toNat .int = .ok d →
      s.checkStream f.opd (.gnextVector c f) = .ok () →
      let xs := (s.ctx.gens.get (greg f.opa)).left.take s.slen
      ∃ g : Gen, g.left = (s.ctx.gens.get (greg f.opa)).left.drop s.slen ∧
        exec (.gnextVector c f) s = .next ((((s.putLanes d ((List.range xs.length).map fun i =>
          (i, (fitTo d.ty f.sat ((xs.getD i 0).toNat) 0).bits))).putTags (mreg f.opb)
            ((List.range s.slen).map fun i => (i, decide (i < xs.length)))).modCtx fun k =>
              k.setGen (greg f.opa) g).sticky .satur
                ((List.range xs.length).any fun i => (fitTo d.ty f.sat ((xs.getD i 0).toNat) 0).satur)).advance

/-- `tap` (R267 to R269): outside a body nothing; in a body it opens the tap when it is closed, marks the slots
evaluated, adds the exact sum of weight × value of each slot to its score, rounded once, and adds the steering
vectors. `tapfin` (R270, R271) closes the tap; a slot at which a way's score crosses its threshold raises PROBE for
the instruction after it; `tapq` (R272) reads the scores, masks, state and entry numbers. -/
def Obligations.TapResults : Prop :=
  (∀ (c : Ctl) (f : FX) (s : State), s.guard c = true →
     (s.inBody = false → exec (.tap c f) s = .next s.advance) ∧
     ∀ (d : Fld) (steer : List Steer) (s1 s2 u : State) (vs : List (Nat × Sys2Proof.Machine.Num × Sys2Proof.Machine.Num)), s.inBody = true →
       s.vecStart (.tap c f) = .ok () → s.field f.opd .fm 0 .any = .ok d →
       (d.ty = .flt .f32 ∨ d.ty = .flt .bf16 ∨ d.ty = .flt .f16) → s.checkStream f.opd (.tap c f) = .ok () →
       let dd := bitsAt (s.val f.opa) 0 16
       let elem := fun (p : Nat) => (s.sidx + BitVec.ofNat 64 p).toNat
       let slotOf := fun p => bitsAt (s.val f.opa) 16 6 + elem p / dd
       let on := s.active f.msk
       dd ≠ 0 → (s.val f.opa) >>> 22 = 0 → (∀ p ∈ on, slotOf p < 64) →
       (s.ctx.tap.isOpen = true →
         s.ctx.tap.layer = f.xf.toNat ∧ s.ctx.tap.point = f.sub.toNat ∧ s.ctx.tap.d = dd) →
       (f.opb = .s 0 ∧ steer = [] ∧ s1 = s ∨
         f.opb ≠ .s 0 ∧ s.needGlobal (s.val f.opb) 16 = .ok () ∧
         s.readSteer (s.val f.opb) (on.map slotOf).eraseDups = .ok (steer, s1)) →
       s1.readVectors steer slotOf (fun p => elem p % dd) on = .ok (vs, s2) →
       s2.tapPins (tapReads (s.val f.opb) (on.map slotOf).eraseDups steer slotOf (fun p => elem p % dd) on) = true →
       s2.checkParity d (List.range s2.slen) = .ok () →
       u = (if s.ctx.tap.isOpen then s2 else s2.openTap f.xf.toNat f.sub.toNat dd) → s2.ctx.tap = s.ctx.tap →
       u.badWeight u.ctx.tap.ways (on.map fun p => elem p % dd) = none → u.ctx.tap.ways.length ≤ 16 →
       let x := fun (p : Nat) => d.num (u.core.row (u.lane p))
       ∃ v : State,
         exec (.tap c f) s = .next (v.putLanes d (vs.map fun y =>
           (y.1, (d.ty.convert (.f ((x y.1).add false (y.2.1.mul y.2.2))) .rne false 0).bits))).advance ∧
         v.mem = u.mem ∧ v.core = u.core ∧ v.ctx.tap.isOpen = u.ctx.tap.isOpen ∧ v.ctx.tap.ways = u.ctx.tap.ways ∧
         (∀ n : Nat, n < 64 → v.ctx.tap.eval.getLsbD n = (u.ctx.tap.eval.getLsbD n || (on.map slotOf).contains n)) ∧
         ∀ (n k : Nat) (w : Way), u.ctx.tap.ways[k]? = some w →
           let old := lookD u.ctx.tap.acc (n * 16 + k) 0
           let new := lookD v.ctx.tap.acc (n * 16 + k) 0
           (n ∉ on.map slotOf → new = old) ∧
           (∀ p rest, on.filter (fun p => slotOf p == n) = p :: rest →
             new = BitVec.ofNat 32 (Flt.f32.round ((Flt.f32.val old.toNat).add false
               (rest.foldl (fun y q => y.add false ((u.weightAt w (elem q % dd)).mul (x q)))
                 ((u.weightAt w (elem p % dd)).mul (x p)))) .rne false 0).bits)) ∧
  (∀ (c : Ctl) (f : FR) (s : State), s.guard c = true →
     let t := s.ctx.tap
     let slots := (List.range 64).filter fun n => t.eval.getLsbD n
     let crossed := slots.filter fun n => t.ways.zipIdx.any fun w => t.crosses n w.2 w.1
     (s.inBody = false →
       (t.isOpen = false → exec (.tapfin c f) s = .next s.advance) ∧
       (t.isOpen = true → crossed = [] → exec (.tapfin c f) s =
         .next (s.modCtx fun k => { k with tap := { t with isOpen := false, cross := 0 } }).advance) ∧
       (t.isOpen = true → crossed ≠ [] → ∃ (cross ways : Word),
         (∀ n : Nat, n < 64 → cross.getLsbD n = crossed.contains n) ∧
         (∀ k : Nat, k < 64 → ways.getLsbD k =
           (t.ways.zipIdx.any fun w => w.2 == k && slots.any fun n => t.crosses n w.2 w.1)) ∧
         exec (.tapfin c f) s = .next ((s.modCtx fun k => { k with tap := { t with isOpen := false, cross := cross } }).takeTrap
           { cause := .probe, val := cross, idx0 := t.eval, idx1 := ways
             idx2 := BitVec.ofNat 64 (t.layer + 1024 * t.point), pc := some s.nextPC }))) ∧
     (destOk s f.opd →
       (f.sub = 0 → s.val f.opa &&& ~~~(0xF3F : Word) = 0 →
         exec (.tapq c f) s = .next (s.putS f.opd (if t.ways.length ≤ bitsAt (s.val f.opa) 8 4 then BitVec.allOnes 64
           else (lookD t.acc (bitsAt (s.val f.opa) 0 6 * 16 + bitsAt (s.val f.opa) 8 4) 0).setWidth 64)).advance) ∧
       (f.sub = 1 → exec (.tapq c f) s = .next (s.putS f.opd t.cross).advance) ∧
       (f.sub = 2 → exec (.tapq c f) s = .next (s.putS f.opd t.eval).advance) ∧
       (f.sub = 3 → exec (.tapq c f) s = .next (s.putS f.opd (BitVec.ofNat 64 (t.ways.length +
         (if t.isOpen then 256 else 0) + t.layer * 2 ^ 16 + t.point * 2 ^ 26 + t.d * 2 ^ 32))).advance) ∧
       (f.sub = 4 → exec (.tapq c f) s = .next (s.putS f.opd (((t.ways[bitsAt (s.val f.opa) 0 4]?).map fun w =>
         BitVec.ofNat 64 w.entry).getD (BitVec.allOnes 64))).advance)))

/-! ## Launches, gangs and pre-emption -/

/-- `launch` (R301) publishes, reads its record and offers it: pD of its guard becomes false when it is not accepted. A record
is refused when it is malformed (2) or its store is full (1); else it joins the store with its gangs waiting (R294). That one
which is both answers 2 is the model's choice (assumption log 32). -/
def Obligations.LaunchResults : Prop :=  (∀ (c : Ctl) (f : FE) (s s1 s3 : State) (sc : Scope) (pl : Place) (bs : List Byte), s.guard c = true →
    destOk s f.opd → s.scope f.scope (.launch c f) = .ok sc → s.publish s.key sc = .ok s1 →
    s1.place (s.val f.opa) 256 256 = .ok pl → s1.readRecord (s.val f.opa) = .ok (bs, s3) →
    let r := s3.offer (BitVec.ofNat 2048 (leVal bs)) (s3.storeOf f.parm) s3.asid (originLaunch s3.key)
    (r.1 = 0 → exec (.launch c f) s = .next (r.2.putS f.opd 0).advance) ∧
    (r.1 ≠ 0 → exec (.launch c f) s = .next ((r.2.putS f.opd (BitVec.ofNat 64 r.1)).writeP c.gp c.gn).advance)) ∧
  ∀ (s : State) (r : Rec) (q : Nat) (a : Fin 16) (o : Nat),
    let x := s.quarter (Fin.ofNat 4 q)
    let full := 4096 ≤ (s.launches.filter fun l => l.quarter == q).length ∨ x.journalFull = true
    (wellFormedRecord r = false → s.offer r q a o = (2, s)) ∧
    (wellFormedRecord r = true → full → s.offer r q a o = (1, s)) ∧
    (wellFormedRecord r = true → ¬full → ∃ (t : State) (l : Launch), s.offer r q a o = (0, t) ∧
      t.launches = s.launches ++ [l] ∧ l.id = s.nextId ∧ l.record = r ∧ l.quarter = q ∧ l.asid = a ∧ l.ready = false ∧
      (∀ g ∈ l.gangs, g.fate = .waiting) ∧
      l.gangs.map Gang.num = (if rGrouped r then [] else List.range (rNgang r)) ∧
      (x.journalSize = 0 → t.mem = s.mem) ∧
      (x.journalSize ≠ 0 → l.journal = some x.jprod ∧
        t.mem = wrBytes s.mem (x.journalEntry x.jprod) (journalBytes r x.jprod o) ∧
        (t.quarter (Fin.ofNat 4 q)).jprod = x.jprod + 1))

/-- Withdrawal (R299, R302, R303): of the launches with the tag every gang that has not started is removed, and sD (or
WDRES) counts the gangs and the launches that never started one; tag 0 withdraws nothing. Host launch windows (R299,
R351): the bytes of a write land in the window and nowhere else; the write of byte 255 commits the record, with
WSTAT's count one higher and its outcome; a write that the owner does not make is refused. A launch that is over
leaves the store at its completion (R298). -/
def Obligations.WithdrawalAndWindows : Prop :=
  ((∀ (c : Ctl) (f : FE) (s : State), s.guard c = true → destOk s f.opd →
     exec (.withdraw c f) s = .next ((s.withdrawTag (bitsAt (s.val f.opa) 0 32)).2.putS f.opd
       (s.withdrawTag (bitsAt (s.val f.opa) 0 32)).1).advance) ∧
   (∀ (tag : Word) (s : State), s.owner.own = 0 → ∃ t, exec (.wdraw tag) s = .next t ∧
     t.host.wdres = (s.withdrawTag (bitsAt tag 0 32)).1 ∧ t.launches = (s.withdrawTag (bitsAt tag 0 32)).2.launches) ∧
   ∀ (s : State) (tag : Nat),
     s.withdrawTag 0 = (0, s) ∧
     (tag ≠ 0 →
       let hit := s.launches.filter fun l => rTag l.record == tag
       (s.withdrawTag tag).1 = BitVec.ofNat 64
         ((hit.map fun l => (l.gangs.filter fun g => g.fate == .waiting).length).sum % 2 ^ 32 +
           (hit.filter Launch.whollyWithdrawn).length * 2 ^ 32) ∧
       ∀ l ∈ (s.withdrawTag tag).2.launches, rTag l.record = tag → ∀ g ∈ l.gangs, g.fate ≠ .waiting)) ∧
  ((∀ (w : Fin 64) (off : Nat) (bytes : List Byte) (dmwr : Bool) (s : State), off + bytes.length ≤ 256 → bytes ≠ [] →
     (s.owner.own = 0 → off + bytes.length < 256 →
       ∃ t, exec (.hostWindowWrite w off bytes dmwr) s = .next t ∧ t.mem = s.mem ∧ t.launches = s.launches ∧
         t.host.wstat = s.host.wstat ∧
         ∀ a, rdByte t.host.windows a = if 256 * w.val + off ≤ a ∧ a < 256 * w.val + off + bytes.length
           then bytes.getD (a - (256 * w.val + off)) 0 else rdByte s.host.windows a) ∧
     (s.owner.own = 0 → off + bytes.length = 256 →
       let r : Rec := BitVec.ofNat 2048 (rdVal (wrBytes s.host.windows (256 * w.val + off) bytes) (256 * w.val) 256)
       ∃ (t u : State) (n : Nat), exec (.hostWindowWrite w off bytes dmwr) s = .next t ∧
         (s.regs.mgmtOnly = true → n = 3 ∧ t.launches = s.launches ∧ t.mem = s.mem) ∧
         (s.regs.mgmtOnly = false → (n, u) = State.offer (State.dropTorn { s with host := { s.host with
             windows := wrBytes s.host.windows (256 * w.val + off) bytes
             aborted := if dmwr then false else s.host.aborted } } .host) r (w.val / 16)
             (Fin.ofNat 16 (bitsAt (s.xlat.was.get w) 0 4)) (w.val * 256) ∧ t.launches = u.launches ∧ t.mem = u.mem) ∧
         t.host.wstat.get w = BitVec.ofNat 64 ((bitsAt (s.host.wstat.get w) 32 32 + 1) % 2 ^ 32 * 2 ^ 32 + n) ∧
         ∀ v, v ≠ w → t.host.wstat.get v = s.host.wstat.get v) ∧
     (s.owner.own ≠ 0 → ∃ t, exec (.hostWindowWrite w off bytes dmwr) s = .next t ∧ t.mem = s.mem ∧
       t.launches = s.launches ∧ t.host.windows = s.host.windows ∧ t.host.wstat = s.host.wstat ∧
       t.owner.mlogprod = s.owner.mlogprod + 1)) ∧
   ∀ (s t : State) (l : Launch) (n : Nat), s.settleLaunches.launch? n = some l → s.settleLaunches.launchOver l = true →
     s.settleLaunches.finishLaunch l (if l.withdrawn then 3 else if l.lost then 2 else 1) = some t →
     exec (.launchComplete n) s = .next t ∧ ∀ x ∈ t.launches, x.id ≠ n)

/-- The start of a gang (R159, R291, R292, R296): the scheduler starts the placeable gang that goes before every other; each
of its contexts stands at the entry with its window, tenancy and a cleared state, and the steps before its first instruction
give it its field map and its registers. A saved gang is restored. -/
def Obligations.GangStarts : Prop :=  (∀ (s : State) (l : Launch) (g : Gang) (n : Nat) (cores : List Nat),
    let u := s.schedule
    u.launch? l.id = some l → l.gangs.find? (fun x => x.num == n) = some g → u.placeable l g cores = true →
    u.isNext l g = true → (∀ k ∈ cores, u.reserved k = false) → (u.quarter (Fin.ofNat 4 l.quarter)).stopped = false →
    (g.fate = .waiting → exec (.gangStart l.id n cores) s = .next (u.startGang l g cores)) ∧
    (g.fate = .saved → exec (.gangStart l.id n cores) s = .next (u.restoreGang l g))) ∧
  (∀ (s : State) (l : Launch) (g : Gang) (alone : List Nat) (k rank : Nat),
    let x := (s.putStart l g alone k rank).ctxAt k
    let r := l.record
    x.status = .running ∧ x.starting ≠ 0 ∧ x.thread.pc = rEntry r g.entry ∧ x.s = .replicate 64 0 ∧
    x.p = .replicate 8 false ∧ x.streg = 0 ∧ x.loop = none ∧ x.srseed = rSeed r ∧ x.win.handler = rHandler r ∧
    x.win.cb = rCb r (lcOfCtx k) ∧ x.win.cn = rCn r (lcOfCtx k) ∧ x.win.ab = rAb r (lcOfCtx k) ∧
    x.win.an = rAn r (lcOfCtx k) ∧ x.win.psize = rPsize r ∧
    x.ten.index = g.num * rGangSize r + rank ∧ x.ten.launch = l.id ∧ x.ten.gang = g.num ∧ x.ten.asid = l.asid ∧
    x.ten.gen = rGen r ∧
    x.win.pbase = rPrivBase r + BitVec.ofNat 64 (g.num * rGangSize r + rank) * BitVec.ofNat 64 (rPsize r).toNat) ∧
  ∀ (s u v w : State) (r : Rec) (grp : List Word) (image args : List Byte), s.refresh s.key .device = .ok u →
    u.scalarRead (rFmapPtr r) 128 128 = .ok (image, v) →
    (rArgPtr r = 0 ∧ args = [] ∧ w = v ∨ rArgPtr r ≠ 0 ∧
      v.scalarRead (rArgPtr r + BitVec.ofNat 64 (64 * u.ctx.ten.index)) 64 64 = .ok (args, w)) →
    (∀ n, n < 32 → entryOk u.ctx.win (BitVec.ofNat 32 (wordsOf 4 image n)) = true) →
    ∃ t, s.loadStart r grp = .ok t ∧ t.ctx.starting = 0 ∧ t.mem = w.mem ∧ t.ctx.s.get 0 = 0 ∧
      (∀ n : Fin 64, 1 ≤ n.val → n.val ≤ 8 → t.ctx.s.get n = BitVec.ofNat 64 (wordsOf 8 args (n.val - 1))) ∧
      t.ctx.s.get 9 = BitVec.ofNat 64 u.ctx.ten.index ∧ t.ctx.s.get 10 = BitVec.ofNat 64 w.ctx.ten.gang ∧
      (∀ n : Fin 64, 11 ≤ n.val → n.val ≤ 14 → t.ctx.s.get n = grp.getD (n.val - 11) 0) ∧
      (∀ n : Fin 64, 15 ≤ n.val → t.ctx.s.get n = 0) ∧
      ∀ n : Fin 32, t.ctx.fmap.get n = entryStored (BitVec.ofNat 32 (wordsOf 4 image n.val))

/-- Pre-emption (R306 to R312): the decision and an expired quantum request a stop of the victim, which has the lowest PRIO
of those whose removal places the waiting gang, and of equal ones has used most of its quantum; the stop, the save and the load
follow in this order, and the save frees the gang's contexts and keeps its record. A gang that has gone meanwhile is not waited
for; that a swap whose record no longer fits is given up is the model's choice (assumption log 33). -/
def Obligations.SwapSteps : Prop :=  (∀ (q : Fin 4) (ol og il ig : Nat) (s : State) (out inn : Launch × Gang),
    let u := s.schedule
    u.gang? ol og = some out → u.gang? il ig = some inn →
    u.swapFree q = true → (inn.2.fate = .saved ∨ inn.1.ready = true ∧ inn.1.nextGang = some inn.2) →
    u.swapVictim q out inn = true → (∀ o ∈ u.runningGangs q, u.swapVictim q o inn = true → victimBefore out o = true) →
    (∀ x ∈ u.allWaiting, goesBefore x inn = true → ∀ o ∈ u.runningGangs q, u.swapVictim q o x = false) →
    ∃ t w, exec (.preemptDecision q ol og il ig) s = .next t ∧ (t.quarter q).swap = some w ∧ w.outLaunch = out.1.id ∧
      w.outGang = out.2.num ∧ w.inLaunch = inn.1.id ∧ w.inGang = inn.2.num ∧ w.step = 1 ∧ t.mem = u.mem ∧
      t.ctxs = u.ctxs) ∧
  (∀ a b : Launch × Gang,
    (rPrio a.1.record < rPrio b.1.record → victimBefore a b = true) ∧
    (rPrio b.1.record < rPrio a.1.record → victimBefore a b = false) ∧
    (rPrio a.1.record = rPrio b.1.record → a.2.expired = true → b.2.expired = false →
      victimBefore a b = true ∧ victimBefore b a = false) ∧
    (rPrio a.1.record = rPrio b.1.record → a.2.expired = true → b.2.expired = true →
      (victimBefore a b = true ↔ a.2.num ≤ b.2.num))) ∧
  (∀ (s : State) (n g : Nat) (out : Launch × Gang),
    let v := s.schedule
    v.gang? n g = some out → out.2.fate = .running →
    (v.waiterFor out = none → exec (.quantumExpiry n g) s = .next (v.setGang n g fun x => { x with expired := false })) ∧
    ∀ inn, v.waiterFor out = some inn →
      let u := v.setGang n g fun x => { x with expired := true }
      let o := (out.1, { out.2 with expired := true })
      (u.swapFree out.2.quarter = true → u.bestVictim out.2.quarter o inn = true →
        exec (.quantumExpiry n g) s = .next (u.startSwap out.2.quarter o inn)) ∧
      (u.swapFree out.2.quarter = false ∨ u.bestVictim out.2.quarter o inn = false →
        exec (.quantumExpiry n g) s = .next u)) ∧
  ∀ (q : Fin 4) (s : State) (w : Swap), (s.quarter q).swap = some w →
    (s.outgoing w = none → (w.step = 1 → exec (.stopPointReached q) s = .next (s.swapStep q w 2)) ∧
      (w.step = 2 → (s.quarter q).stopped = false → exec (.swapSave q) s = .next (s.swapStep q w 4))) ∧
    (∀ (l : Launch) (g : Gang), s.outgoing w = some (l, g) → w.step = 1 → g.fate = .running → (s.gangCtxs l.id g.num).any s.busyAt = false →
      (s.aloneCores l g).any (s.stashWork l g) = false →
      ∃ t, exec (.stopPointReached q) s = .next t ∧ (t.quarter q).swap = some { w with step := 2 } ∧
        (s.parked = [] → t.mem = s.mem) ∧
        t.kernels = s.kernels.filter fun k => !k.stage.waits || !(s.gangCtxs l.id g.num).contains k.ctx) ∧
    (∀ (l : Launch) (g : Gang), s.outgoing w = some (l, g) → w.step = 2 → (s.quarter q).stopped = false →
      g.fate = .running → s.saveFits q l g = false → exec (.swapSave q) s = .next (s.giveUpSwap q l g)) ∧
    (∀ (l : Launch) (g : Gang) (u v : State), s.outgoing w = some (l, g) → w.step = 2 → (s.quarter q).stopped = false →
      g.fate = .running → s.saveFits q l g = true → (s.aloneCores l g).any (s.stashWork l g) = false →
      s.drainAll (s.gangCtxs l.id g.num) = some u → u.emptyStashes (u.gangCtxs l.id g.num) (u.aloneCores l g) = .ok v →
      ∃ (t : State) (x : Saved), exec (.swapSave q) s = .next t ∧ (t.quarter q).swap = some { w with step := 4 } ∧
        (t.quarter q).saves = (v.quarter q).saves ++ [x] ∧ x.launch = l.id ∧ x.gang = g.num ∧ t.mem = v.mem ∧
        x.ctxs.map Prod.fst = v.gangCtxs l.id g.num ∧ ∀ k ∈ v.gangCtxs l.id g.num, (t.ctxAt k).status = .idle) ∧
    ∀ (l : Launch) (g : Gang) (cores : List Nat), s.gang? w.inLaunch w.inGang = some (l, g) → w.step = 4 →
      (s.quarter q).stopped = false → (s.quarter (Fin.ofNat 4 l.quarter)).stopped = false → s.placeable l g cores = true →
      let u := s.modQuarter q fun x => { x with swap := none }
      (g.fate = .waiting → exec (.swapLoad q cores) s = .next (u.startGang l g cores)) ∧
      (g.fate = .saved → exec (.swapLoad q cores) s = .next (u.restoreGang l g))

/-- The trap queue (R316, R317): a held record is written once there is room and takes its class, of a context, of a saved
context, of a card or of a gather; the owner's TQCONS frees entries, and TQACT replays a STALLED context or ends it, once for
each record. -/
def Obligations.TrapQueueResults : Prop :=  (∀ (q : Fin 4) (s : State), (s.quarter q).occupancy < 248 → (s.quarter q).stopped = false →
    let resident := s.ctxs.find? fun c => quarterOf (coreOfCtx c.1) == q && c.2.heldRecord.isSome
    let saved := ((s.quarter q).saves.flatMap fun x => x.ctxs.map fun c => (x, c)).find? fun c => c.2.2.record.isSome
    let card := (s.cardsOf q).find? fun c => c.record.isSome
    let gather := s.gathers.find? fun g => quarterOf g.agent.core == q && g.record.isSome
    (∀ k x r, resident = some (k, x) → x.record = some r → exec (.trapRecordWrite q) s =
      .next ((if s.frozen k then s.modCtxAt k fun y => { y with wake := true } else s).post k r)) ∧
    (∀ x k y r, resident = none → saved = some (x, (k, y)) → y.record = some r →
      exec (.trapRecordWrite q) s = .next (s.postSaved q x k y.ten r)) ∧
    (∀ x r, resident = none → saved = none → card = some x → x.record = some r →
      exec (.trapRecordWrite q) s = .next (s.postCard x r)) ∧
    (∀ x r, resident = none → saved = none → card = none → gather = some x → x.record = some r →
      exec (.trapRecordWrite q) s = .next (s.postGather x r))) ∧
  ∀ (m q : Fin 4) (v : Word) (s : State), s.owner.own = m.val →
    (((s.quarter q).tqprod - v.setWidth 32).toNat ≤ 256 → ∃ t, exec (.tqconsWrite m q v) s = .next t ∧
      (t.quarter q).tqcons = v.setWidth 32 ∧ (t.quarter q).tqprod = (s.quarter q).tqprod ∧ t.mem = s.mem) ∧
    (256 < ((s.quarter q).tqprod - v.setWidth 32).toNat → ∃ t, exec (.tqconsWrite m q v) s = .next t ∧
      (t.quarter q).tqcons = (s.quarter q).tqcons ∧ bitsAt (t.owner.mstat.get m) 0 32 = 2) ∧
    ∀ r : TrapRec, (s.quarter q).actable (v.setWidth 32) = some r → r.card = none →
      (s.ctxAt (ctxNum r.core r.ctx)).stalledFor (v.setWidth 32) = true →
      (∃ t, exec (.tqactReplay m q v) s = .next t ∧ (t.ctxAt (ctxNum r.core r.ctx)).status = .running ∧
        (t.ctxAt (ctxNum r.core r.ctx)).thread = (s.ctxAt (ctxNum r.core r.ctx)).thread ∧
        (t.quarter q).actable (v.setWidth 32) = none ∧ t.mem = s.mem) ∧
      ∃ t, exec (.tqactTerminate m q v) s = .next t ∧ (t.ctxAt (ctxNum r.core r.ctx)).status = .ended ∧
        (1 ≤ ((s.quarter q).tqprod - v.setWidth 32).toNat → ((s.quarter q).tqprod - v.setWidth 32).toNat ≤ 256 →
          (t.quarter q).actable (v.setWidth 32) = none)

/-! ## Pages, migration, prefixes -/

/-- Page forms (R331 to R335): `pgreq` requests each ABSENT page of its range, `pgpin` pins pages that are all present and valid,
or none, raises INVALID_PAGE at the first INVALID one and waits for one that is ABSENT or in TRANSIT, `pgunpin` drops pins, both
raise RANGE for more than 16 pages, `tlbi`, whose write-backs are its context's (R195), completes when no pin is held on the
pages that hold what it names, with no entry of them left in any TLB, and `hot` reads a counter or all ones, and traps on a
poisoned one (R368). -/
def Obligations.PageForms : Prop :=  ∀ (c : Ctl) (s : State), s.guard c = true →
    (∀ (f : FM) (va : Nat), s.pagePtr (s.fmBase f) = .ok va →
      let b := (s.val f.opb).toNat
      let ps := s.pagesOf s.asid va (va + b) 17
      (b ≤ 2 ^ 30 → exec (.pgreq c f) s = .next ((s.pagesOf s.asid va (va + b) 16386).foldl (fun u p => match p.walk with
        | .absent _ => u.postResidency u.asid p.base (BitVec.ofNat 32 u.cur.core)
        | _ => u) s).advance) ∧
      (ps.length ≤ 16 → destOk s f.opd → (∀ p ∈ ps, ∃ pa w x, p.walk = .valid p.log pa w x) →
        let pins := ps.foldl (fun m p => addPin m s.asid p) s.xlat.pins
        (pins.length ≤ 1024 → exec (.pgpin c f) s = .next ((s.setPins pins).putP f.opd true).advance) ∧
        (1024 < pins.length → exec (.pgpin c f) s = .next (s.putP f.opd false).advance)) ∧
      (ps.length ≤ 16 → destOk s f.opd →
        (∀ (before after : List Page) (p : Page), ps = before ++ p :: after → p.walk = .invalid →
          (∀ x ∈ before, x.walk ≠ .invalid ∧ ∀ a, x.walk ≠ .poisoned a) →
          exec (.pgpin c f) s = .next (s.takeTrap { cause := .invalidPage, val := BitVec.ofNat 64 p.base })) ∧
        ((∀ x ∈ ps, x.walk ≠ .invalid ∧ ∀ a, x.walk ≠ .poisoned a) →
          (∃ x ∈ ps, x.walk.isAbsent = true ∨ ∃ old new p w e, x.walk = .transit old new p w e) →
          ∃ t, exec (.pgpin c f) s = .next t ∧ t.thread = s.thread ∧ t.mem = s.mem ∧ t.xlat.pins = s.xlat.pins)) ∧
      (16 < ps.length →
        (destOk s f.opd → exec (.pgpin c f) s = .next (s.takeTrap { cause := .range, val := s.val f.opb })) ∧
        exec (.pgunpin c f) s = .next (s.takeTrap { cause := .range, val := s.val f.opb })) ∧
      (ps.length ≤ 16 → ∃ t, exec (.pgunpin c f) s = .next t ∧ t.mem = s.mem ∧ t.thread = s.advance.thread ∧
        ∀ x : Pin, x ∈ t.xlat.pins ↔ x.count ≠ 0 ∧ ∃ y ∈ s.xlat.pins, x = y.drop s.asid va (va + b))) ∧
    (∀ (f : FR) (x : Cover) (u v : State),
      (f.sub = 0 ∧ s.pagePtr (s.val f.opa) = .ok x.lo ∧ x.hi = x.lo + 1 ∧ x.asid = s.asid ∨
        f.sub = 1 ∧ s.pagePtr (s.val f.opa) = .ok x.lo ∧ x.hi = x.lo + (s.val f.opb).toNat ∧ x.asid = s.asid ∨
        f.sub = 2 ∧ x = { asid := s.asid, lo := 0, hi := 2 ^ 58 }) →
      s.drainAct s.key = .ok u → u.unacked s.key .core = false → u.invalidate x false (some s.key) = .ok v →
      exec (.tlbi c f) s = .next v.advance ∧ u.pinnedIn (u.widen x) = false ∧
      ∀ k ∈ v.tlbs, ∀ e ∈ k.2,
        ¬(e.asid = x.asid ∧ (u.widen x).lo < (u.widen x).hi ∧ (u.widen x).holds e.va e.log = true)) ∧
    ∀ f : FR, destOk s f.opd → f.sub.toNat < 6 →
      (bitAt s.xlat.hotbase 0 = false ∨ s.hotFrame (s.val f.opa) = .ok none →
        exec (.hot c f) s = .next (s.putS f.opd (BitVec.allOnes 64)).advance) ∧
      ∀ pa, bitAt s.xlat.hotbase 0 = true → s.hotFrame (s.val f.opa) = .ok (some pa) →
        let a := s.hotEntry pa + 4 * (f.sub.toNat % 3)
        (s.poisoned a 4 = true → exec (.hot c f) s =
          .next (s.takeTrap { cause := .uncorrected, val := s.val f.opa, mem := 9, addr := a })) ∧
        (s.poisoned a 4 = false → f.sub.toNat < 3 → exec (.hot c f) s = .next (s.putS f.opd (BitVec.ofNat 64 (rdVal s.mem a 4))).advance) ∧
        (s.poisoned a 4 = false → 3 ≤ f.sub.toNat → a + 4 ≤ hbmBytes → ∃ w, exec (.hot c f) s = .next (State.advance w) ∧ w.mem = wrBytes s.mem a [0, 0, 0, 0] ∧
          w.ctxs = (s.putS f.opd (BitVec.ofNat 64 (rdVal s.mem a 4))).ctxs)

/-- Waits for pages and counts (R326, R330): a waiter whose page is no longer ABSENT goes on, one whose page still is requests
it again; a count that is owed is added to its counter, which stays at its largest value. -/
def Obligations.RewalksAndCounts : Prop :=  (∀ (k slot va : Nat) (asid : Fin 16) (who : BitVec 32) (s : State), (s.ctxAt k).waits = [(slot, (asid, va, who))] →
    ((s.walk asid va).isAbsent = false → ∃ t, exec (.residencyRewalk (.ctx k)) s = .next t ∧
      (t.ctxAt k).waits = [] ∧ t.mem = s.mem ∧ (t.ctxAt k).thread = (s.ctxAt k).thread) ∧
    ((s.walk asid va).isAbsent = true → exec (.residencyRewalk (.ctx k)) s =
      .next (s.postResidency asid va who))) ∧
  (∀ (x : Card) (va : Nat) (asid : Fin 16) (s : State), s.cards.find? (fun c => c.id == x.id) = some x →
    x.wait = some (asid, va) →
    ((s.walk asid va).isAbsent = false → exec (.residencyRewalk (.card x.id)) s =
      .next (s.modCard x.id fun c => { c with wait := none })) ∧
    ((s.walk asid va).isAbsent = true → exec (.residencyRewalk (.card x.id)) s =
      .next (s.postResidency asid va (BitVec.allOnes 32)))) ∧
  (∀ (k : Nat) (o : Owed) (s : State), s.xlat.owed[k]? = some o → o.addr + 4 * o.kind + 4 ≤ hbmBytes →
    s.hotBad o.addr o.kind = false → ∃ t, exec (.hotnessAdd k) s = .next t ∧
    rdVal t.mem (o.addr + 4 * o.kind) 4 = min (rdVal s.mem (o.addr + 4 * o.kind) 4 + o.n) (2 ^ 32 - 1) ∧
    (∀ a, a < o.addr + 4 * o.kind ∨ o.addr + 4 * o.kind + 4 ≤ a → rdByte t.mem a = rdByte s.mem a) ∧
    t.xlat.owed = s.xlat.owed.eraseIdx k) ∧
  ∀ (s : State) (asid : Fin 16) (va : Nat) (core : BitVec 32),
    let page := s.requestPage asid va
    let held := (s.xlat.rqprod - s.xlat.rqcons).toNat
    (256 ≤ held → s.postResidency asid va core = s) ∧
    (held = 0 → ∃ t, s.postResidency asid va core = t ∧
      t.xlat.rqprod = s.xlat.rqprod + 1 ∧ look t.xlat.ring (s.xlat.rqprod.toNat % 256) = some (page, asid, core) ∧
      t.mem = s.mem)

/-- Migration (R327 to R329, R188): MIGFR begins it for a page that may migrate; sector by sector the old frame's bytes go to
the new frame and the entry's progress follows; at the end the entry is VALID on the new frame with W and X kept. -/
def Obligations.MigrationSteps : Prop :=  (∀ (m q : Fin 4) (v : Word) (s : State), s.owner.own = m.val →
    ((s.quarter q).migst ≠ 1 → ∃ t, exec (.migvaWrite m q v) s = .next t ∧
      (t.quarter q).migva = BitVec.ofNat 64 (bitsAt v 16 41 * 2 ^ 16 + bitsAt v 0 4) ∧ t.mem = s.mem) ∧
    ((s.quarter q).migst = 1 → exec (.migvaWrite m q v) s =
        .next { s with owner := s.owner.refuse m (0x10030 + 0x1000 * q.val) v 2 } ∧
      exec (.migrationStart m q v) s = .next { s with owner := s.owner.refuse m (0x10038 + 0x1000 * q.val) v 2 }) ∧
    ((s.quarter q).migst ≠ 1 →
      let va := migPage (s.quarter q).migva
      let asid := migAsid (s.quarter q).migva
      let new := bitsAt v 0 24 * 65536
      (s.migratable asid va = none → ∃ t, exec (.migrationStart m q v) s = .next t ∧ (t.quarter q).migst = 2 ∧ t.mem = s.mem) ∧
      ∀ old, s.migratable asid va = some old →
        (s.frameBad new 65536 = true → ∃ t, exec (.migrationStart m q v) s = .next t ∧ (t.quarter q).migst = 3 ∧
          t.mem = s.mem) ∧
        (s.frameBad new 65536 = false → ∃ t, exec (.migrationStart m q v) s = .next t ∧ (t.quarter q).migst = 1 ∧
          (t.quarter q).migration = some { va := va, asid := asid, old := old, new := new, done := 0 } ∧
          t.mem = (s.writePte asid va (pteTransit old new 0)).mem))) ∧
  (∀ (q : Fin 4) (s : State) (g : Migration), (s.quarter q).migration = some g → (s.quarter q).stopped = false →
    (∀ u, g.done = 0 → s.invalidate g.cover true = .ok u → exec (.migrationSectorCopy q) s =
      .next (u.setMigration q { g with done := 1 })) ∧
    (0 < g.done → g.done < 513 → s.pinnedIn (s.widen g.cover) = false → exec (.migrationSectorCopy q) s =
      .next (((s.copySector g (g.done - 1)).writePte g.asid g.va (pteTransit g.old g.new g.done)).setMigration q
        { g with done := g.done + 1 })) ∧
    (g.done = 513 → exec (.migrationFinish q) s =
      .next ((s.writePte g.asid g.va (pteValid g.new)).setMigration q { g with done := 514 })) ∧
    (∀ u, g.done = 514 → s.invalidate g.cover true = .ok u → exec (.migrationFinish q) s =
      .next (u.setMigration q { g with done := 515 })) ∧
    (g.done = 515 → (s.xlat.owed.any fun o => o.addr == s.hotEntry g.old) = false → ∃ t,
      exec (.migrationFinish q) s = .next t ∧ (t.quarter q).migst = 0 ∧ (t.quarter q).migration = none)) ∧
  (∀ (s : State) (g : Migration) (j a : Nat), g.new + 128 * j + 128 ≤ hbmBytes → g.old + 128 * j + 128 ≤ g.new + 128 * j ∨ g.new + 128 * j + 128 ≤ g.old + 128 * j →
    rdByte (s.copySector g j).mem a = if g.new + 128 * j ≤ a ∧ a < g.new + 128 * j + 128
      then rdByte s.mem (g.old + (a - g.new)) else rdByte s.mem a) ∧
  ∀ (old new p : Nat) (e : Word), old % 65536 = 0 → old < 2 ^ 40 → new % 65536 = 0 → new < 2 ^ 40 → p ≤ 512 →
    bitsAt (pteTransit old new p e) 62 2 = 3 ∧ bitsAt (pteTransit old new p e) 0 24 * 65536 = old ∧
    bitsAt (pteTransit old new p e) 24 24 * 65536 = new ∧ bitsAt (pteTransit old new p e) 48 10 = p ∧
    bitsAt (pteTransit old new p e) 59 2 = bitsAt e 59 2 ∧ bitsAt (pteValid new e) 62 2 = 1 ∧
    bitsAt (pteValid new e) 0 24 * 65536 = new ∧ bitsAt (pteValid new e) 24 35 = 0 ∧
    bitsAt (pteValid new e) 59 2 = bitsAt e 59 2

/-- The prefix table (R344, R345): `pfxl` finds the deepest entry of the issuer whose hash is at its depth, ties to the lower
index, and takes a pin; `pfxi` inserts over the lowest entry with V = 0, else over the unpinned entry of greatest age, refreshes,
refuses, and drops a pin; no form changes another entry; PFXINV clears V. More than 4,096 hashes and an ill-formed insert block
raise RANGE with the default TRAPVAL (R386), a wrong index with the index. -/
def Obligations.PrefixTableResults : Prop :=  (∀ (c : Ctl) (f : FR) (s : State), s.guard c = true → destOk s f.opd →
    (∀ (hs : List Word) (u : State), let n := (s.val f.opb).toNat
      (n = 0 → exec (.pfxlFind c f) s = .next (s.putS f.opd 0).advance ∧ exec (.pfxlPin c f) s = .next (s.putS f.opd 0).advance) ∧
      (4096 < n → exec (.pfxlFind c f) s = .next (s.takeTrap { cause := .range, val := Instr.upper (.pfxlFind c f) }) ∧
        exec (.pfxlPin c f) s = .next (s.takeTrap { cause := .range, val := Instr.upper (.pfxlPin c f) })) ∧
      (n ≠ 0 → n ≤ 4096 → s.readHashes (s.val f.opa) n 0 = .ok (hs, u) → hs.length = n ∧
        (u.bestPrefix hs = none → exec (.pfxlFind c f) s = .next (u.putS f.opd 0).advance ∧
          exec (.pfxlPin c f) s = .next (u.putS f.opd 0).advance) ∧
        ∀ b, u.bestPrefix hs = some b →
          let old := u.pentry b
          let d := BitVec.ofNat 64 (2 ^ 31 + b * 2 ^ 16 + peDepth old)
          let found : Nat → Host.Outcome State Fault Refusal → Prop := fun pin o => ∃ tab, o = .next (State.advance
              (State.putS { u with serving := { u.serving with prefix_ := tab, aclk := u.serving.aclk + 1 } } f.opd d)) ∧
            keepsPrefix tab u b ∧ entryIs (lookD tab b 0) (peHash old) (pePage old) (peAs old) (peDepth old) pin (u.serving.aclk + 1)
          found (pePin old) (exec (.pfxlFind c f) s) ∧ found (min 65535 (pePin old + 1)) (exec (.pfxlPin c f) s))) ∧
    (64 ≤ (s.val f.opa).toNat →
      exec (.pfxlPage c f) s = .next (s.takeTrap { cause := .range, val := s.val f.opa }) ∧
      exec (.pfxiUnpin c f) s = .next (s.takeTrap { cause := .range, val := s.val f.opa })) ∧
    (let n := (s.val f.opa).toNat
     let old := s.pentry n
     n < 64 →
      exec (.pfxlPage c f) s = .next (s.putS f.opd (if s.pmatch n = true
        then BitVec.ofNat 64 (pePage old * 65536) else BitVec.allOnes 64)).advance ∧
      (s.pmatch n = false ∨ pePin old = 0 →
        exec (.pfxiUnpin c f) s = .next (s.putS f.opd (BitVec.allOnes 64)).advance) ∧
      (s.pmatch n = true → pePin old = 65535 → exec (.pfxiUnpin c f) s = .next (s.putS f.opd 65535).advance) ∧
      (s.pmatch n = true → pePin old ≠ 0 → pePin old ≠ 65535 → ∃ tab,
        exec (.pfxiUnpin c f) s = .next (State.advance (State.putS { s with serving := { s.serving with prefix_ := tab } } f.opd
          (BitVec.ofNat 64 (pePin old - 1)))) ∧
        keepsPrefix tab s n ∧
        entryIs (lookD tab n 0) (peHash old) (pePage old) (peAs old) (peDepth old) (pePin old - 1) (peAge old))) ∧
    ∀ (h w : Nat) (u v : State), s.scalarVal (s.val f.opa) 8 = .ok (h, u) →
      u.scalarVal (s.val f.opa + 8) 8 = .ok (w, v) → w < 2 ^ 64 →
      (w / 2 ^ 41 % 128 ≠ 0 ∨ w / 2 ^ 48 = 0 →
        exec (.pfxiIns c f) s = .next (s.takeTrap { cause := .range, val := Instr.upper (.pfxiIns c f) })) ∧
      (w / 2 ^ 41 % 128 = 0 → w / 2 ^ 48 ≠ 0 →
       let found := (List.range 64).find? fun e =>
         v.pmatch e && peHash (v.pentry e) == BitVec.ofNat 64 h && peDepth (v.pentry e) == w / 2 ^ 48
       let written : Nat → Nat → Host.Outcome State Fault Refusal → Table PEntry → Prop := fun e d o tab => o = .next
           (State.advance (State.putS { v with serving := { v.serving with prefix_ := tab, aclk := v.serving.aclk + 1 } } f.opd
             (BitVec.ofNat 64 d))) ∧ keepsPrefix tab v e
       (∀ e, found = some e → let old := v.pentry e
         ∃ tab, written e (256 + e) (exec (.pfxiIns c f) s) tab ∧
           entryIs (lookD tab e 0) (peHash old) (pePage old) (peAs old) (peDepth old) (pePin old) (v.serving.aclk + 1)) ∧
       (∀ e, found = none → v.victim = some e →
         ∃ tab, written e e (exec (.pfxiIns c f) s) tab ∧
           entryIs (lookD tab e 0) (BitVec.ofNat 64 h) (w % 2 ^ 41) v.asid.val (w / 2 ^ 48) 0 (v.serving.aclk + 1)) ∧
       (found = none → v.victim = none → exec (.pfxiIns c f) s = .next (v.putS f.opd 0x200).advance))) ∧
  (∀ (u : State) (hs : List Word),
    let depth := fun e => peDepth (u.pentry e)
    let fits := fun e => peV (u.pentry e) = true ∧ peAs (u.pentry e) = u.asid.val ∧ 1 ≤ depth e ∧
      hs[depth e - 1]? = some (peHash (u.pentry e))
    let age := fun e => (u.serving.aclk + 1 - peAge (u.pentry e)).toNat
    (∀ e, u.pmatch e = true ↔ peV (u.pentry e) = true ∧ peAs (u.pentry e) = u.asid.val) ∧
    (u.bestPrefix hs = none ↔ ∀ e < 64, ¬fits e) ∧
    (∀ b, u.bestPrefix hs = some b →
      b < 64 ∧ fits b ∧ ∀ e < 64, fits e → depth e < depth b ∨ (depth e = depth b ∧ b ≤ e)) ∧
    (u.victim = none ↔ ∀ e < 64, peV (u.pentry e) = true ∧ pePin (u.pentry e) ≠ 0) ∧
    (∀ b, u.victim = some b → b < 64 ∧
      (peV (u.pentry b) = false ∧ (∀ e < b, peV (u.pentry e) = true) ∨
       (∀ e < 64, peV (u.pentry e) = true) ∧ pePin (u.pentry b) = 0 ∧
         ∀ e < 64, pePin (u.pentry e) = 0 → age e < age b ∨ (age e = age b ∧ b ≤ e)))) ∧
  ∀ (m : Fin 4) (v : Word) (s : State), s.owner.own = m.val → ∃ t, exec (.pfxinv m v) s = .next t ∧
    peV (t.pentry (bitsAt v 0 6)) = false ∧ (∀ e, e ≠ bitsAt v 0 6 → t.pentry e = s.pentry e) ∧ t.mem = s.mem

/-! ## Trains, links and the outside -/

/-- Trains and flits (R244, R245, R323, R352 to R355, R367): a train is applied once, and acknowledged or dropped, the
acknowledgement to another device going on a live plane; an element that may not perform faults; an acknowledgement
frees the sender's copy; a flit with a wrong CRC or number changes nothing, one that is not admitted is only counted, another
is received in order; a port that makes no progress goes down after 64 resends; PORTCTL retrains ports. That a flit which is
not admitted uses up its number, and that the acknowledgement and the credits of a discarded one are not taken, is the
model's choice (assumption log 35). -/
def Obligations.TrainsAndLinks : Prop :=  (∀ (t : Train) (s : State), (s.parked.any fun p => trainPair p.train == trainPair t && p.train.seq == t.seq) = false →
    s.trainHeld t = false →
    bitAt s.regs.domctl (t.srcDev / 16) = true →
    let win := lookD s.windows (trainPair t) { h := 0, marks := 0 }
    (win.take t.seq = .drop → exec (.trainReceive t) s = .next (s.ackTrain t)) ∧
    (∀ w, win.take t.seq = .apply w → (∀ e ∈ t.elems, ∃ pa, s.destOf t e = .at_ pa) →
      exec (.trainReceive t) s = .next ((t.elems.foldl (fun u e => match s.destOf t e with
        | .at_ pa => u.applyElem t e pa
        | _ => u) s).ackTrain t) ∧ (lookD (s.ackTrain t).windows (trainPair t) { h := 0, marks := 0 }).take t.seq = .drop) ∧
    (∀ w e c a, win.take t.seq = .apply w → t.elems.head? = some e → s.destOf t e = .fault c a →
      exec (.trainReceive t) s = .next (s.trainFault t e c a)) ∧
    (∀ p, t.srcDev ≠ bitsAt s.regs.devnum 0 10 → s.planeOf t.seq.toNat = some p →
      s.sendAck t = (s.setPort p { s.port p with queue := (s.port p).queue ++
        [(1, t.srcDev, Config.ackFlit t.src (bitsAt s.regs.devnum 0 10) t.seq.toNat)] }).pumpPort p)) ∧
  (∀ (src dest : Nat) (seq : BitVec 32) (s : State), ∃ t, exec (.trainAck src dest seq) s = .next t ∧ t.mem = s.mem ∧
    ∀ x, x ∈ t.sent ↔ x ∈ s.sent ∧ ¬(x.dest = dest ∧ x.train.src = src ∧ x.train.seq = seq)) ∧
  (∀ (p : Fin 48) (x : Flit) (s : State), (s.port p).down = false →
    (fCrcOk x = false → exec (.flitReceive p x) s = .next s) ∧
    (fCrcOk x = true → fNull x = false → fSeq x ≠ (s.port p).rxseq → exec (.flitReceive p x) s = .next s) ∧
    (fCrcOk x = true → fNull x = false → fSeq x = (s.port p).rxseq → s.admits x = false →
      ∃ t, exec (.flitReceive p x) s = .next t ∧ t.regs.porterr = s.regs.porterr + 1 ∧
        (t.port p).rxseq = (s.port p).rxseq + 1 ∧ (t.port p).received = (s.port p).received ∧ t.mem = s.mem) ∧
    (fCrcOk x = true → fNull x = false → fSeq x = (s.port p).rxseq → s.admits x = true →
      ∃ t, exec (.flitReceive p x) s = .next t ∧ (t.port p).received = (s.port p).received ++ [x] ∧
        (t.port p).rxseq = (s.port p).rxseq + 1 ∧ t.regs = s.regs ∧ t.mem = s.mem)) ∧
  (∀ (p : Fin 48) (s : State),
    ((s.port p).down = true ∨ (s.port p).unacked = [] → exec (.linkRetryTimeout p) s = .next s) ∧
    ((s.port p).down = false → (s.port p).unacked ≠ [] →
      ((s.port p).resends < 64 → exec (.linkRetryTimeout p) s =
        .next (s.setPort p { s.port p with resends := (s.port p).resends + 1 })) ∧
      (64 ≤ (s.port p).resends → exec (.linkRetryTimeout p) s = .next (s.portDown p)))) ∧
  ∀ (m : Fin 4) (v : Word) (s : State), s.owner.own = m.val → s.sent = [] → ∃ t, exec (.portctl m v) s = .next t ∧
    t.mem = s.mem ∧ ∀ p, p < 48 → t.port p = if v.getLsbD p then (s.port p).retrained else s.port p

/-! ## The management window -/

/-- A write of a register by a master that does not own the device (R356, R358): status 1, one more refusal, an entry of the
log with the offset, the master, the epoch and the value, and nothing else. -/
def Obligations.RefusedRegisterWrites : Prop :=  ∀ (m q : Fin 4) (v : Word) (c : Fin 320) (e : Fin 256) (w : Fin 4) (n : Fin 32) (r : Fin 3) (s : State),
    s.owner.own ≠ m.val →
    (∀ x ∈ ([(.quantumWrite m q v, 0x10000 + 0x1000 * q.val, v), (.savebaseWrite m q v, 0x10008 + 0x1000 * q.val, v),
        (.savelimWrite m q v, 0x10010 + 0x1000 * q.val, v), (.tqconsWrite m q v, 0x10020 + 0x1000 * q.val, v),
        (.tqactReplay m q v, 0x10028 + 0x1000 * q.val, v &&& ~~~(0x100000000 : Word)),
        (.tqactTerminate m q v, 0x10028 + 0x1000 * q.val, v ||| (0x100000000 : Word)),
        (.migvaWrite m q v, 0x10030 + 0x1000 * q.val, v), (.migrationStart m q v, 0x10038 + 0x1000 * q.val, v),
        (.portctl m v, 0x510, v), (.rqconsWrite m v, 0x1290, v), (.tlbia m v, 0x12A0, v), (.rpclr m v, 0x12B0, v),
        (.pfxinv m v, 0x12B8, v), (.probeStageWrite m e w v, 0x121000 + 32 * e.val + 8 * w.val, v),
        (.probeCommit m e v, 0x121000 + 32 * e.val, v), (.qrst m v, 0x200000, v),
        (.dstop m v, 0x200000, v ||| 16),
        (.journalConfigWrite m q r v, 0x200080 + 0x20 * q.val + 8 * (if r = 2 then 3 else r.val), v),
        (.fwcmd m v, 0x200108, v), (.attcmd m v, 0x200120, v), (.spareWrite m c v, 0x200400 + 8 * c.val, v),
        (.rowSpareTableWrite m c n v, 0x210000 + 0x100 * c.val + 8 * n.val, v)] : List (Instr × Nat × Word)),
      exec x.1 s = .next { s with owner := s.owner.refuse m x.2.1 x.2.2 1 }) ∧
    ∀ (off st : Nat), st < 2 ^ 16 →
      let o := s.owner.refuse m off v st
      let x := lookD o.mlog (s.owner.mlogprod.toNat % 64) 0
      bitsAt (o.mstat.get m) 0 32 = st ∧
      bitsAt (o.mstat.get m) 32 32 = (bitsAt (s.owner.mstat.get m) 32 32 + 1) % 2 ^ 32 ∧
      (∀ k, k ≠ m → o.mstat.get k = s.owner.mstat.get k) ∧ o.mlogprod = s.owner.mlogprod + 1 ∧
      bitsAt x 0 22 = off % 2 ^ 22 ∧ bitsAt x 22 2 = m.val ∧ bitsAt x 32 16 = s.owner.epoch.toNat ∧
      bitsAt x 48 16 = st ∧ bitsAt x 64 64 = v.toNat ∧ o.own = s.owner.own ∧ o.cand = s.owner.cand ∧
      o.epoch = s.owner.epoch ∧ o.lease = s.owner.lease

/-- The owner's writes of registers that the scheduler, translation, the probe table, the journal and sparing use (R306, R313,
R326, R332, R334, R348, R374, R376): the value that the register takes, or a refusal by its own rule with status 2. -/
def Obligations.OwnerRegisterWrites : Prop :=  ∀ (m q : Fin 4) (v : Word) (s : State), s.owner.own = m.val →
    let done := fun (t : State) => t.mem = s.mem ∧ t.ctxs = s.ctxs ∧ bitsAt (t.owner.mstat.get m) 0 32 = 0
    let refused := fun (off : Nat) => Host.Outcome.next { s with owner := s.owner.refuse m off v 2 }
    (100 ≤ bitsAt v 0 32 → bitsAt v 0 32 ≤ 100000 → ∃ t, exec (.quantumWrite m q v) s = .next t ∧ done t ∧
      (t.quarter q).quantum = BitVec.ofNat 64 (bitsAt v 0 32)) ∧
    (bitsAt v 0 32 < 100 ∨ 100000 < bitsAt v 0 32 →
      exec (.quantumWrite m q v) s = refused (0x10000 + 0x1000 * q.val)) ∧
    ((s.quarter q).saves = [] → (∃ t, exec (.savebaseWrite m q v) s = .next t ∧ done t ∧
        (t.quarter q).savebase = BitVec.ofNat 64 (bitsAt v 16 24 * 2 ^ 16)) ∧
      ∃ t, exec (.savelimWrite m q v) s = .next t ∧ done t ∧ (t.quarter q).savelim = BitVec.ofNat 64 (bitsAt v 0 32)) ∧
    ((s.quarter q).saves ≠ [] → exec (.savebaseWrite m q v) s = refused (0x10008 + 0x1000 * q.val) ∧
      exec (.savelimWrite m q v) s = refused (0x10010 + 0x1000 * q.val)) ∧
    ((s.xlat.rqprod - v.setWidth 32).toNat ≤ 256 → ∃ t, exec (.rqconsWrite m v) s = .next t ∧ done t ∧
      t.xlat.rqcons = v.setWidth 32 ∧ t.xlat.rqprod = s.xlat.rqprod) ∧
    (∃ t, exec (.rpclr m v) s = .next t ∧ done t ∧ t.xlat.pins = []) ∧
    (∀ u, s.xlat.tlbia = [] → State.invalidate { s with
        xlat := { s.xlat with tlbia := [(m, v)] }
        owner := if m = 0 then s.owner else { s.owner with replies := s.owner.replies.set m none m.isLt } } (if bitAt v 4 then { asid := Fin.ofNat 16 (bitsAt v 0 4), lo := 0, hi := 2 ^ 58 }
        else { asid := Fin.ofNat 16 (bitsAt v 0 4), lo := bitsAt v 16 41 * 65536, hi := bitsAt v 16 41 * 65536 + 1 }) true = .ok u →
      exec (.tlbia m v) s =
        .next { u with xlat := { u.xlat with tlbia := [] }, owner := u.owner.setStatus m 0 0 }) ∧
    (∀ e : Fin 256, exec (.probeStageWrite m e 0 v) s = exec (.probeCommit m e v) s) ∧
    (∀ (e : Fin 256) (w : Fin 4), w ≠ 0 → ∃ t, exec (.probeStageWrite m e w v) s = .next t ∧ done t ∧
      t.serving.probes = s.serving.probes ∧
      lookD t.serving.staging e.val 0 = setProbeWord (lookD s.serving.staging e.val 0) w.val v) ∧
    (∀ e : Fin 256,
      let x := setProbeWord (lookD s.serving.staging e.val 0) 0 v
      (s.probeOk e.val x = true → ∃ t, exec (.probeCommit m e v) s = .next t ∧ done t ∧ t.probe e.val = x ∧
        ∀ k, k ≠ e.val → t.probe k = s.probe k) ∧
      (s.probeOk e.val x = false → exec (.probeCommit m e v) s = refused (0x121000 + 32 * e.val))) ∧
    ((s.quarter q).jprod = (s.quarter q).jcons →
      (∃ t, exec (.journalConfigWrite m q 0 v) s = .next t ∧ done t ∧
        (t.quarter q).jbase = BitVec.ofNat 64 (bitsAt v 0 24)) ∧
      (journalSizeOk (bitsAt v 0 17) = true → ∃ t, exec (.journalConfigWrite m q 1 v) s = .next t ∧ done t ∧
        bitsAt (t.quarter q).jsize 0 17 = bitsAt v 0 17 ∧ bitAt (t.quarter q).jsize 31 = bitAt v 31)) ∧
    (∃ t, exec (.journalConfigWrite m q 2 v) s = .next t ∧ done t ∧ (t.quarter q).jcons = v.setWidth 32) ∧
    ∀ c : Fin 320,
      (s.coreEmpty c.val = true → tspareOk (bitsAt v 0 16) = true → bitAt v 63 = false →
        ∃ t, exec (.spareWrite m c v) s = .next t ∧ done t ∧ (t.coreAt c.val).dis = false ∧
          (t.coreAt c.val).tspare = bitsAt v 0 16) ∧
      (s.coreEmpty c.val = true → tspareOk (bitsAt v 0 16) = true → bitAt v 63 = true →
        ∃ t, exec (.spareWrite m c v) s = .next t ∧ t.mem = s.mem ∧ (t.coreAt c.val).dis = true ∧
          (t.coreAt c.val).tspare = bitsAt v 0 16) ∧
      (s.coreEmpty c.val = false → exec (.spareWrite m c v) s = refused (0x200400 + 8 * c.val)) ∧
      ∀ n : Fin 32,
        let t := (List.range 4).foldl (fun (t : Table (BitVec 16)) j =>
          putOr 0 t (4 * n.val + j) (v.extractLsb' (16 * j) 16)) (s.coreAt c.val).rowSpare
        (s.coreEmpty c.val = true → (∀ j, j < 4 → rowEntryOk t (4 * n.val + j) = true) →
          ∃ u, exec (.rowSpareTableWrite m c n v) s = .next u ∧ done u ∧ (u.coreAt c.val).rowSpare = t) ∧
        (s.coreEmpty c.val = false →
          exec (.rowSpareTableWrite m c n v) s = refused (0x210000 + 0x100 * c.val + 8 * n.val))

/-- Ownership (R357, Table 24-3, R384): who may claim, renew, offer, accept and release, and the new owner, candidate, lease and
epoch; a lease that runs out leaves no owner; MLOGCONS consumes one entry. That the event names the command whatever ACT the
written value holds, and that TERM and TARGET are not checked by the commands that do not use them, is the model's choice
(assumption log 42). -/
def Obligations.OwnershipCommands : Prop :=  ∀ (m : Fin 4) (v : Word) (s : State),
    let o := s.owner
    let ok := fun (act : Nat) => o.cmdOk ((v &&& ~~~(7 : Word)) ||| BitVec.ofNat 64 act) = true
    let takes := fun (x : Out) (own cand lease : Nat) (e : BitVec 16) => ∃ t, x = .next t ∧ t.owner.own = own ∧
      t.owner.cand = cand ∧ t.owner.lease = lease ∧ t.owner.epoch = e ∧ bitsAt (t.owner.mstat.get m) 0 32 = 0 ∧ t.mem = s.mem
    let refused := fun (x : Out) => ∃ t, x = .next t ∧ t.owner.own = o.own ∧ t.owner.cand = o.cand ∧
      t.owner.lease = o.lease ∧ t.owner.epoch = o.epoch ∧ bitsAt (t.owner.mstat.get m) 0 32 = 2 ∧ t.mem = s.mem
    let term := bitsAt v 16 16
    let target := bitsAt v 8 3
    (ok 1 → o.own = 7 → 100 ≤ term → takes (exec (.claim m v) s) m.val o.cand term (o.epoch + 1)) ∧
    (¬(ok 1 ∧ o.own = 7 ∧ 100 ≤ term) → refused (exec (.claim m v) s)) ∧
    (ok 2 → o.own = m.val → 100 ≤ term → takes (exec (.renew m v) s) o.own o.cand term o.epoch) ∧
    (¬(ok 2 ∧ o.own = m.val ∧ 100 ≤ term) → refused (exec (.renew m v) s)) ∧
    (ok 3 → o.own = m.val → target ≤ 3 → target ≠ m.val → takes (exec (.offer m v) s) o.own target o.lease o.epoch) ∧
    (¬(ok 3 ∧ o.own = m.val ∧ target ≤ 3 ∧ target ≠ m.val) → refused (exec (.offer m v) s)) ∧
    (ok 4 → o.cand = m.val → takes (exec (.accept m v) s) m.val 7 o.lease (o.epoch + 1)) ∧
    (¬(ok 4 ∧ o.cand = m.val) → refused (exec (.accept m v) s)) ∧
    (ok 5 → o.own = m.val → takes (exec (.release m v) s) 7 7 o.lease (o.epoch + 1)) ∧
    (¬(ok 5 ∧ o.own = m.val) → refused (exec (.release m v) s)) ∧
    (∀ ms : Nat, ∃ t, exec (.leaseExpiry ms) s = .next t ∧ t.mem = s.mem ∧ t.owner.lease = o.lease - ms ∧
      (o.own ≠ 7 → o.lease ≤ ms → t.owner.own = 7 ∧ t.owner.cand = 7 ∧ t.owner.epoch = o.epoch + 1) ∧
      (o.own = 7 ∨ ms < o.lease → t.owner.own = o.own ∧ t.owner.cand = o.cand ∧ t.owner.epoch = o.epoch)) ∧
    (v = 1 → o.mlogcons ≠ o.mlogprod → ∃ t, exec (.mlogcons m v) s = .next t ∧
      t.owner.mlogcons = (if 64 < (o.mlogprod - o.mlogcons).toNat then o.mlogprod - 64 else o.mlogcons) + 1 ∧
      t.owner.own = o.own ∧ t.mem = s.mem) ∧
    (v ≠ 1 ∨ o.mlogcons = o.mlogprod → exec (.mlogcons m v) s = .next { s with owner := o.refuse m 0x48 v 2 })

/-- The window by offset (R356, R364, Tables 24-4 and 26-1): an aligned write of eight bytes is the write of the register that
lies there, and what a master reads is in its response; a misplaced or short write is refused with status 2, and with
status 1 from a master that may not write there at all (assumption log 29); and the commands of the last chapter: a quarter
reset and a stop (R370, R371), the start and the end of an image's command (R380) and of a report (R382). That ATTCMD is
refused for a report that would lie beyond the stacks, and while one runs, is the model's choice (assumption log 36). -/
def Obligations.ManagementWindow : Prop :=  (∀ (m q : Fin 4) (v : Word) (bytes : List Byte) (s : State), bytes.length = 8 → v = BitVec.ofNat 64 (leVal bytes) →
    (∀ x ∈ ([(0x48, .mlogcons m v), (0x510, .portctl m v), (0x1290, .rqconsWrite m v), (0x12A0, .tlbia m v),
        (0x12B0, .rpclr m v), (0x12B8, .pfxinv m v), (0x10000 + 0x1000 * q.val, .quantumWrite m q v),
        (0x10008 + 0x1000 * q.val, .savebaseWrite m q v), (0x10010 + 0x1000 * q.val, .savelimWrite m q v),
        (0x10020 + 0x1000 * q.val, .tqconsWrite m q v), (0x10030 + 0x1000 * q.val, .migvaWrite m q v),
        (0x10038 + 0x1000 * q.val, .migrationStart m q v), (0x200000, .qrst m v), (0x200108, .fwcmd m v),
        (0x200120, .attcmd m v), (0x200080 + 0x20 * q.val, .journalConfigWrite m q 0 v),
        (0x200088 + 0x20 * q.val, .journalConfigWrite m q 1 v), (0x200098 + 0x20 * q.val, .journalConfigWrite m q 2 v)] :
        List (Nat × Instr)),
      exec (.mgmtRegisterWrite m x.1 bytes false) s = exec x.2 s) ∧
    (∀ x ∈ ([(1, .claim m v), (2, .renew m v), (3, .offer m v), (4, .accept m v), (5, .release m v)] : List (Nat × Instr)),
      bitsAt v 0 3 = x.1 → exec (.mgmtRegisterWrite m 0x10 bytes false) s = exec x.2 s) ∧
    (∀ c : Fin 320, exec (.mgmtRegisterWrite m (0x200400 + 8 * c.val) bytes false) s = exec (.spareWrite m c v) s) ∧
    (∀ (c : Fin 320) (n : Fin 32), exec (.mgmtRegisterWrite m (0x210000 + 0x100 * c.val + 8 * n.val) bytes false) s =
      exec (.rowSpareTableWrite m c n v) s) ∧
    (s.owner.own = m.val → ∀ n : Fin 16,
      (∃ t, exec (.mgmtRegisterWrite m 0x500 bytes false) s = .next t ∧ t.regs.devnum = BitVec.ofNat 64 (bitsAt v 0 10)) ∧
      (∃ t, exec (.mgmtRegisterWrite m 0x508 bytes false) s = .next t ∧ t.regs.domctl = v) ∧
      (∃ t, exec (.mgmtRegisterWrite m 0x600 bytes false) s = .next t ∧ t.regs.aithresh = BitVec.ofNat 64 (bitsAt v 0 32)) ∧
      (∃ t, exec (.mgmtRegisterWrite m 0x608 bytes false) s = .next t ∧ t.regs.fatalsum = fatalWrite s.regs.fatalsum v) ∧
      (s.noMigration = true → ∃ t, exec (.mgmtRegisterWrite m (0x1000 + 8 * n.val) bytes false) s = .next t ∧
        t.xlat.asroot.get n = v &&& BitVec.ofNat 64 0xFFFFFF0001 ∧ ∀ k, k ≠ n → t.xlat.asroot.get k = s.xlat.asroot.get k) ∧
      ∀ off ∈ ([0x0, 0x8, 0x20, 0x40, 0x518, 0x1288, 0x10018, 0x10040, 0x110000, 0x120000, 0x200010, 0x200090,
          0x200110, 0x200128] : List Nat),
        exec (.mgmtRegisterWrite m off bytes false) s = .next { s with owner := s.owner.refuse m off v 2 })) ∧
  (∀ (m : Fin 4) (off : Nat) (bytes : List Byte) (s : State), off % 8 ≠ 0 ∨ bytes.length ≠ 8 →
    (s.owner.own = m.val → exec (.mgmtRegisterWrite m off bytes false) s =
      .next { s with owner := s.owner.refuse m (off / 8 * 8) (placedValue off bytes) 2 }) ∧
    (s.owner.own ≠ m.val → exec (.mgmtRegisterWrite m off bytes false) s = .next { s with
      owner := s.owner.refuse m (off / 8 * 8) (placedValue off bytes)
        (if off / 8 * 8 = 0x10 ∨ off / 8 * 8 = 0x48 then 2 else 1) })) ∧
  (∀ (m : Fin 4) (off : Nat) (ts : List Turn) (s : State), s.turns = .mgmtRead m off :: ts →
    let u := { s with turns := ts }
    ∃ t, step s = .next t ∧ t.owner.replies.get m = some (.read (u.mgmtRead (off / 8 * 8))) ∧ t.mem = s.mem ∧ t.regs = s.regs) ∧
  (∀ (o : Owner) (m : Fin 4) (st n : Nat), m ≠ 0 → (o.setStatus m st n).replies.get m = some (.wrote st)) ∧
  ∀ (m : Fin 4) (v : Word) (s : State), s.owner.own = m.val →
    (∀ q : Fin 4, v = BitVec.ofNat 64 (2 ^ q.val) → (s.quarter q).stopped = true → ∃ t, exec (.qrst m v) s = .next t ∧
      (t.quarter q).stopped = false ∧ (t.quarter q).tqprod = 0 ∧ (t.quarter q).tqcons = 0 ∧ (t.quarter q).saves = [] ∧
      (t.quarter q).swap = none ∧ (∀ c ∈ t.ctxs, quarterOf (coreOfCtx c.1) ≠ q) ∧
      (∀ x ∈ t.launches, x.quarter = q.val → x.lost = true ∧ ∀ g ∈ x.gangs, g.fate = .ended)) ∧
    (∀ q : Fin 4, bitAt v q.val = true → (s.quarter q).stopped = false →
      exec (.qrst m v) s = .next { s with owner := s.owner.refuse m 0x200000 v 2 }) ∧
    (v = 16 → ∃ t, exec (.dstop m v) s = .next t ∧ t.mem = s.mem ∧ ∀ q, (t.quarter q).stopped = true) ∧
    (bitsAt v 0 3 = 1 → ∃ t, exec (.fwcmd m v) s = .next t ∧ t.mem = s.mem ∧ t.regs.fwver = s.regs.fwver ∧
      bitsAt t.regs.fwstat 32 32 = (bitsAt s.regs.fwstat 32 32 + 1) % 2 ^ 32 ∧
      (s.regs.fwrun = none → t.regs.fwrun = some s.regs.fwaddr) ∧
      (s.regs.fwrun ≠ none → t.regs.fwrun = s.regs.fwrun ∧ bitsAt t.regs.fwstat 0 4 = 1)) ∧
    (∀ p, s.regs.fwrun = some p →
      let h : BitVec 1536 := BitVec.ofNat 1536 (rdVal s.mem p.toNat 192)
      let n := s.checkImage h p.toNat
      let t := s.imageDone
      t.mem = s.mem ∧ t.regs.fwrun = none ∧ bitsAt t.regs.fwstat 0 4 = n ∧
      bitsAt t.regs.fwstat 32 32 = bitsAt s.regs.fwstat 32 32 ∧
      (n ≠ 0 → t.regs.fwver = s.regs.fwver ∧ t.regs.fwdigest = s.regs.fwdigest ∧
        t.regs.fusedSpare = s.regs.fusedSpare ∧ t.regs.fusedRows = s.regs.fusedRows) ∧
      (n = 0 → imgType h ≠ 4 → lookD t.regs.fwver (imgType h) 0 = BitVec.ofNat 64 (imgVersion h) ∧
        lookD t.regs.fwdigest (imgType h) 0 = imgDigest h)) ∧
    (s.regs.attrun = none → s.regs.attaddr.toNat + 512 ≤ 12 * 2 ^ 36 → bitAt v 0 = true →
      ∃ t, exec (.attcmd m v) s = .next t ∧ t.mem = s.mem ∧ t.regs.attrun = some s.regs.attaddr) ∧
    (s.regs.attrun ≠ none ∨ 12 * 2 ^ 36 < s.regs.attaddr.toNat + 512 →
      exec (.attcmd m v) s = .next { s with owner := s.owner.refuse m 0x200120 v 2 }) ∧
    (∀ p, s.regs.attrun = some p → p.toNat + 512 ≤ 12 * 2 ^ 36 →
      let body := s.reportBody (rdVal s.mem p.toNat 32)
      s.reportDone.regs.attrun = none ∧
      s.reportDone.mem = wrBytes s.mem p.toNat (body ++ leBytes 64 (Config.sha512 body).toNat ++
        leBytes 64 (Config.sign (Config.sha512 body)).toNat))

/-- Errors, heat, the host's accesses and device reset (R2, R86, R350, R351, R365 to R369, R377, R378). A reset leaves every
register, table and memory as `State.reset` has it (`ResetState` gives the values), but BDFAIL, the spare maps of each core,
which take their fused values, and whether the management window alone serves; the model's own schedule of turns goes on. What
a reset keeps (installed versions and their digests, fused values) and clears (all else), and that a scrub tells every live
context of the core of a tag error, is the model's choice (assumption logs 7 and 8). -/
def Obligations.DeviceEvents : Prop :=  (∀ (s : State) (x : ErrSite), ∃ t, exec (.memoryError x false) s = .next t ∧ t.mem = s.mem ∧ t.memPoison = s.memPoison ∧
    t.cores = s.cores ∧ t.ctxs = s.ctxs ∧ t.serving = s.serving ∧ t.regs.errprod = s.regs.errprod + 1) ∧
  (∀ (s : State) (pa : Nat), ∃ t, exec (.memoryError (.hbm pa) true) s = .next t ∧ t.mem = s.mem ∧
    (∀ g, g ∈ t.memPoison ↔ g ∈ s.memPoison ∨ g = pa / 64) ∧ t.regs.errprod = s.regs.errprod + 1) ∧
  (∀ (s : State) (q : Fin 4), (s.quarter q).stopped = false → ∃ t, exec (.memoryError (.control q) true) s = .next t ∧
    (t.quarter q).stopped = true ∧ ∀ p, p ≠ q → t.quarter p = s.quarter p) ∧
  (∀ (s : State) (core : Fin 320) (lane : BitVec 14), (∀ lc : Fin 4, (s.ctxAt (ctxNum core lc)).status = .running) →
    (s.coreAt core).tagErr.contains lane.toNat = true → ∃ t, exec (.tarnScrub core lane) s = .next t ∧
      ∀ lc : Fin 4, (s.ctxAt (ctxNum core lc)).scrub = none →
        (t.ctxAt (ctxNum core lc)).scrub = some (tarnVal lane.toNat 31 lc, 2)) ∧
  (∀ (s : State) (q : Fin 4) (x : BitVec 16), ∃ t, exec (.thermalBandChange q x) s = .next t ∧ t.mem = s.mem ∧
    (t.quarter q).temp = x ∧
    (105 * 16 < x.toNat → (t.quarter q).slow = true) ∧ (x.toNat < 100 * 16 → (t.quarter q).slow = false) ∧
    (115 * 16 ≤ x.toNat → (t.quarter q).hold = true) ∧ (x.toNat < 110 * 16 → (t.quarter q).hold = false) ∧
    (125 * 16 ≤ x.toNat → (t.quarter q).stopped = true) ∧
    (x.toNat < 125 * 16 → (t.quarter q).stopped = (s.quarter q).stopped)) ∧
  (∀ (s : State) (pa n : Nat), ∃ t, exec (.hostBar4Read pa n) s = .next t ∧ t.mem = s.mem ∧ t.host.read.length = n ∧
    (∀ i, i < n → t.host.read.getD i 0 = if pa + i < 12 * 2 ^ 36 then rdByte s.mem (pa + i) else 0xFF) ∧
    (0 < n → t.host.ep = s.poisoned pa n)) ∧
  (∀ (s : State) (pa : Nat) (bytes : List Byte) (d : Bool), ∃ t, exec (.hostBar4Write pa bytes d) s = .next t ∧
    (∀ a, rdByte t.mem a = if pa ≤ a ∧ a < pa + bytes.length ∧ a < 12 * 2 ^ 36 then bytes.getD (a - pa) 0
      else rdByte s.mem a) ∧
    (d = true → t.host.aborted = decide (12 * 2 ^ 36 < pa + bytes.length))) ∧
  (∀ (s : State) (v : BitVec 11), ∃ t, exec (.msixUnmask v) s = .next t ∧ t.mem = s.mem ∧ t.host.masked v.toNat = false ∧
    (∀ w, w ≠ v.toNat → t.host.entry w = s.host.entry w) ∧
    (v.toNat ∈ s.host.pending →
      t.host.sent = s.host.sent ++ [(v.toNat, (s.host.entry v.toNat).extractLsb' 0 96)] ∧ v.toNat ∉ t.host.pending) ∧
    (v.toNat ∉ s.host.pending → t.host.sent = s.host.sent ∧ t.host.pending = s.host.pending)) ∧
  (∀ (s : State) (off n : Nat) (ts : List Turn), s.turns = .bar0Read off n :: ts → ∃ t, step s = .next t ∧ t.mem = s.mem ∧
    t.host.read = (List.range n).map fun i => s.host.bar0 (off + i)) ∧
  (∀ (h : HostLink) (w : Fin 64), let rd8 := fun (off : Nat) => leVal ((List.range 8).map fun i => h.bar0 (off + i))
    rd8 (0x4000 + 8 * w.val) = (h.wstat.get w).toNat ∧ rd8 0x4208 = h.wdres.toNat ∧
    ∀ off, off < 0x4000 → h.bar0 off = rdByte h.windows off) ∧
  ∀ (s : State) (fitted : Bool) (bd : BitVec 12), ∃ cores,
    exec (.deviceReset fitted bd) s = .next { State.reset with
      turns := s.turns
      ticks := s.ticks
      cores := cores
      regs := { State.reset.regs with
        fatalsum := BitVec.ofNat 64 (bd.toNat * 2 ^ 4)
        mgmtOnly := !fitted || bd != 0
        fwver := s.regs.fwver
        fwdigest := s.regs.fwdigest
        fusedSpare := s.regs.fusedSpare
        fusedRows := s.regs.fusedRows } } ∧
    ∀ c, c < 320 → let spare := lookD s.regs.fusedSpare c 0
      ∃ rows, lookD cores c Core.reset =
          { Core.reset with dis := spare.getLsbD 63, tspare := bitsAt spare 0 16, rowSpare := rows } ∧
        ∀ e, e < 128 → lookD rows e 0 = lookD s.regs.fusedRows (128 * c + e) 0

/-! ## The whole machine -/

/-- The guard is p[GP] XOR GN, where p0 reads 1, and an instruction whose guard is false only advances the PC (R31). -/
def Obligations.FalseGuardAdvances : Prop :=  (∀ (s : State) (c : Ctl), s.guard c = xor (s.readP c.gp) c.gn ∧ s.readP 0 = true) ∧
  ∀ (i : Instr) (c : Ctl) (s : State), ctlOf i = some c → s.guard c = false → exec i s = .next s.advance

/-- Words written out from Tables 2-2 to 2-7 and 3-2 to 3-5 decode to the instructions that they stand for (the `vadd` is
the worked encoding of the manual), and those of Table 3-8 that are no instructions are ILLEGAL. -/
def Obligations.SampleWordsDecode : Prop :=  let k : Ctl := { gn := false, gp := 0, stall := 0, hyield := false, chain := false, lasta := false, lastb := false }
  let r : FR := { opd := .s 0, opa := .s 0, opb := .s 0, ta := .fm, tb := .fm, wid := 0, rm := .rne, sat := false, msk := 0, sub := 0 }
  let m : FM := { opd := .s 0, opa := .s 0, opb := .s 0, ta := .fm, ff := false, ph := false, nt := false, disp := 0, msk := 0
                  scope := .none }
  decode 0x4802C5001051021070848040#96 = .ok (.vadd { k with gn := true, gp := 3, stall := 1, chain := true }
    { r with opd := .v 5, opa := .v 2, opb := .v 7, ta := .i, tb := .i, wid := 8, msk := 2 }) ∧
  decode 0x01000000000000FFFFFFFFD9#96 = .ok (.br k { opd := .s 0, opa := .s 0, pdisp := 0xFFFFFFFFD, tslot := 9 }) ∧
  decode 0x10000000003004BFB0808100#96 =
    .ok (.add k { r with opd := .s 3, opa := .s 4, opb := .imm 0xFB, ta := .i, wid := 8, sat := true }) ∧
  decode 0x08000000000000123456789A#96 = .ok (.trap k { opd := .s 0, opa := .s 0, imm := 0x123456789A }) ∧
  decode 0x200000000030040054180A00#96 =
    .ok (.sfadd k { r with opd := .s 3, opa := .s 4, opb := .s 5, ta := .f32, tb := .f16, rm := .rsto }) ∧
  decode 0x800000002011020030004004#96 =
    .ok (.asrch k { opd := .m 1, opa := .v 2, opb := .s 3, xf := 0, yf := 64, msk := 0, sub := 4 }) ∧
  decode 0xA00000000010020031180000#96 = .ok (.ld k { m with opd := .s 1, opa := .s 2, opb := .s 3, ta := .n, nt := true, disp := 0x800 }) ∧
  decode 0xC00800000010020031200004#96 =
    .ok (.amo k .or { m with opd := .s 1, opa := .s 2, opb := .s 3, ph := true, scope := .device, ta := .n }) ∧
  decode 0xD01C00000000380007200001#96 =
    .ok (.card k .kvcompact { opd := .s 0, opa := .s 56, opb := .s 0, nreg := 7, scope := .device, parm := 1 }) ∧
  decode 0x9100000050F10261F03C0005#96 =
    .ok (.mrow k { opd := .acc 15, opa := .v 2, opb := .b 31, xf := 15, yf := 0, msk := 0, sub := 5 }) ∧
  decodeSeep 0x2000012348001230#64 = some
    [.seepAdd { wd := 2, wa := 3, wb := 4, ty := 8, imm := 0 }, .seepSt 2 3, .seepHalt] ∧
  decode 0x481800000000000000000000#96 = .error .illegal ∧ decode 0xD02400000000000000000000#96 = .error .illegal ∧
  decode 0x0A0000000000000000000000#96 = .error .illegal ∧ decode 0xFC0000000000000000000000#96 = .error .illegal

/-- A turn of an issuer runs the instruction that its word decodes to (R24, R26, R27, R42, R163); one of a seep unit runs the
operations of its word (R277), and an event's turn is the event. A vector instruction that is issued ahead joins those that
have not retired (R164); the oldest of them retires in the state in which it was issued, with the scalar registers that
later instructions wrote put back, and leaves those registers as they stand unless it traps (R165, R167); a pending trap is
delivered once nothing is left to retire (R168). A vector instruction of a context with 32 unretired waits (R164), and after
each turn the waits that have ended for gangs that are out are noted (R314). -/
def Obligations.StepRunsTheInstruction : Prop :=  (∀ (s u v : State) (i : Issuer) (ts : List Turn) (p : BitVec 1024), s.turns = .issue i :: ts →
    u = { s with turns := ts, cur := i, order := State.readyOrder { s with turns := ts } |>.filter fun x => x != i } →
    s.mayIssue i = true → s.frozen (ctxNum i.core i.lc) = false → u.ctx.starting = 0 →
    (u.thread.packet = some p ∧ v = u ∨ u.thread.packet = none ∧ ∃ bad w, u.readPacket (packetOf u.pc) = .ok (p, bad, w) ∧
      bitAt bad 0 = false ∧ headerCause (p.extractLsb' 0 64) = none ∧
      (bitAt bad 1 = false ∨ 8 + 12 * bitsAt (p.extractLsb' 0 64) 56 4 ≤ 64) ∧
      v = w.setThread { pc := w.pc, packet := some p }) →
    (v.thread.cnt ≤ slotOf v.pc → step s = noted (.next (v.goto (packetOf v.pc + 128)))) ∧
    (slotOf v.pc < v.thread.cnt →
      (∀ (x : Instr) (t : State), decode (p.extractLsb' (64 + 96 * slotOf v.pc) 96) = .ok x →
        (v.aheadFull x = true → step s = noted (.next v.waitBegins)) ∧
        (v.aheadFull x = false → exec x v = .next t →
          step s = noted (.next { v.noteWait t with
            order := if (yields x || v.stayed t) = true then t.order else t.order ++ [v.cur] }))) ∧
      ∀ e : Fate, decode (p.extractLsb' (64 + 96 * slotOf v.pc) 96) = .error e →
        step s = noted (.next (v.takeTrap
          { cause := fateCause e, val := (p.extractLsb' (64 + 96 * slotOf v.pc) 96).extractLsb' 32 64 })))) ∧
  (∀ (s : State) (k : Kernel) (u : SeepUnit) (op : Instr) (ops : List Instr) (ts : List Turn),
    s.turns = .unit k.id u.id :: ts → s.kernels.find? (fun x => x.id == k.id) = some k →
    k.units.find? (fun x => x.id == u.id) = some u → k.stage = .running → k.stoppedUnit u = false →
    (s.quarter (quarterOf k.agent.core)).stopped = false → u.ops = op :: ops → step s = noted
      (exec op { (State.modKernel { s with turns := ts } k.id fun x => x.setUnit u) with unit := some (k.id, u.id) })) ∧
  (∀ (s : State) (e : Instr) (ts : List Turn), s.turns = .event e :: ts → encode e = .event → wf e = true →
    step s = noted (exec e { s with turns := ts })) ∧
  (∀ (s : State) (core : Fin 320) (k : Nat) (ts : List Turn), s.turns = .evict core k :: ts →
    step s = noted (.next (State.modCoreAt { s with turns := ts } core fun c => { c with l1 := c.l1.eraseIdx k }))) ∧
  (∀ (s u : State) (i : Issuer) (ts : List Turn) (p : BitVec 1024) (x : Instr) (w : BitVec 96), s.turns = .ahead i :: ts →
    u = { s with turns := ts, cur := i } → u.ctx.runs i.lg = true → u.frozen u.key = false → u.atInstr i = true →
    u.ctx.starting = 0 → u.thread.packet = some p → slotOf u.pc < u.thread.cnt →
    decode (p.extractLsb' (64 + 96 * slotOf u.pc) 96) = .ok x → coreWord x = some w → leavesBehind w = true →
    u.ctx.streams.all Option.isNone = true → u.ctx.ahead.length < 32 →
    step s = noted (.next (u.advance.waitEnds.modCtx fun c => { c with
      ahead := c.ahead ++ [{ slot := u.issuerSlot, thread := u.thread, instr := x }] }))) ∧
  (∀ (s u t : State) (i : Issuer) (ts : List Turn) (e : Unretired), s.turns = .retire i :: ts →
    u = { s with turns := ts, cur := i } → u.ctx.ahead.find? (fun x => x.slot == i.slot) = some e →
    u.ctx.status = .running → exec e.instr (u.rollBack e) = .next t →
    ((u.rollBack e).trapped t = true → step s = noted (.next t)) ∧
    ((u.rollBack e).trapped t = false → t.thread ≠ (u.rollBack e).thread → i.lg = none → t.cur = i →
      ∃ v, step s = .next v ∧ v.mem = t.mem ∧ v.core.rows = t.core.rows ∧ v.ctx.thread = u.ctx.thread ∧ v.ctx.s = u.ctx.s ∧
        v.ctx.p = u.ctx.p ∧ v.ctx.ahead = dropOldest e.slot u.ctx.ahead ∧ v.ctx.streg = t.ctx.streg)) ∧
  (∀ (s : State) (e : Unretired) (h : Hist), s.cur.lg = none →
    (s.rollBack e).thread = e.thread ∧ (s.rollBack e).mem = s.mem ∧ (s.rollBack e).core.rows = s.core.rows ∧
    (∀ n : Fin 64, s.core.hist = [h] → s.ownsHist h = true → h.reg = .s n → n ≠ 0 → (s.rollBack e).readS n = h.old)) ∧
  ∀ (s : State) (k : Nat) (ts : List Turn) (lg : Option (Fin 4)) (t : Trap), s.turns = .deliver k :: ts →
    (s.ctxAt k).status = .running → (s.ctxAt k).record = none → (s.ctxAt k).ahead = [] → s.frozen k = false →
    (s.ctxAt k).nextPending = some (lg, t) →
    step s = noted (.next (State.asIssuer { s with turns := ts } { ctxIssuer k with lg := lg } fun u =>
      (if u.inBody then u.modStrip fun x => { x with held := none } else u.modCtx fun c => { c with held := none }).takeTrap t))

/-- Decoding gives back every well-formed instruction from its encoded word, with every field at every value that its row
admits (R30 to R42, R50, R51). -/
def Obligations.DecodeOfEncode : Prop :=  ∀ i : Instr, wf i = true →
    (∀ w, encode i = .core w → decode w = .ok i) ∧ (∀ w, encode i = .seep w → decodeSeep w = some [i])

/-- Every step keeps each byte memory in its canonical form (the model's own invariant, assumption log 5). -/
def Obligations.StepKeepsMemoryForm : Prop := ∀ s t : State, s.memOk = true → step s = .next t → t.memOk = true

/-- What reset leaves where the manual gives it (R2, R105, R344, R347, R373, R384, Tables 9-2, 15-1, 20-3, 21-4, 21-5, 22-1, 24-3
and 24-4): contexts IDLE with STATUS 0, clear handles and tile flags, the registers of the quarters, of translation, of
ownership and of the links; and the byte memories in their canonical form (the model's own, assumption log 5). -/
def Obligations.ResetState : Prop :=  let s := State.reset
  s.memOk = true ∧
  (∀ n, (s.ctxAt n).status = .idle ∧ (s.ctxAt n).streg = 0 ∧ ∀ h, (s.ctxAt n).handles.get h = 0) ∧
  (∀ n, ∀ b : Fin 32, ((s.coreAt n).slots.get b).gen = 0 ∧ ((s.coreAt n).slots.get b).busy = false ∧
    ∀ f, ((s.coreAt n).slots.get b).z.get f = false ∧ ((s.coreAt n).slots.get b).stamp.get f = ((s.coreAt n).slots.get b).gen) ∧
  (∀ q, (s.quarter q).quantum = 2000 ∧ (s.quarter q).savebase = 0 ∧ (s.quarter q).savelim = 0 ∧ (s.quarter q).tqprod = 0 ∧
    (s.quarter q).tqcons = 0 ∧ (s.quarter q).migva = 0 ∧ (s.quarter q).migst = 0) ∧
  (∀ n, s.xlat.asroot.get n = 0) ∧ (∀ n, s.xlat.was.get n = 0) ∧ s.xlat.hotbase = 0 ∧ s.xlat.rqprod = 0 ∧ s.xlat.rqcons = 0 ∧
  (∀ n, peV (s.pentry n) = false) ∧ s.serving.aclk = 0 ∧ (∀ n, prValid (s.probe n) = false) ∧
  s.owner.own = 7 ∧ s.owner.cand = 7 ∧ s.owner.epoch = 0 ∧ s.owner.lease = 0 ∧ s.owner.mlogcons = 0 ∧
  s.regs.devnum = 0 ∧ s.regs.domctl = BitVec.allOnes 64 ∧ (∀ q, (s.quarter q).stopped = false) ∧
  (∀ w, s.host.wstat.get w = 0) ∧ s.launches = [] ∧ s.regs.fatalsum &&& ~~~0xFFF0#64 = 0
end

