-- ==== Sys2Proof/Laws/State.lean ====
section
/-! SUPPORT. Each field of the state after each update: those that the update does not write are unchanged. -/

namespace Sys2Proof.Machine

/-! ## setCtxAt -/

@[simp] theorem State.setCtxAt_turns (s : State) (k : Nat) (c : Ctx) : (s.setCtxAt k c).turns = s.turns := rfl
@[simp] theorem State.setCtxAt_cur (s : State) (k : Nat) (c : Ctx) : (s.setCtxAt k c).cur = s.cur := rfl
@[simp] theorem State.setCtxAt_unit (s : State) (k : Nat) (c : Ctx) : (s.setCtxAt k c).unit = s.unit := rfl
@[simp] theorem State.setCtxAt_order (s : State) (k : Nat) (c : Ctx) : (s.setCtxAt k c).order = s.order := rfl
@[simp] theorem State.setCtxAt_ticks (s : State) (k : Nat) (c : Ctx) : (s.setCtxAt k c).ticks = s.ticks := rfl
@[simp] theorem State.setCtxAt_cores (s : State) (k : Nat) (c : Ctx) : (s.setCtxAt k c).cores = s.cores := rfl
@[simp] theorem State.setCtxAt_mem (s : State) (k : Nat) (c : Ctx) : (s.setCtxAt k c).mem = s.mem := rfl
@[simp] theorem State.setCtxAt_memPoison (s : State) (k : Nat) (c : Ctx) :
    (s.setCtxAt k c).memPoison = s.memPoison := rfl
@[simp] theorem State.setCtxAt_cls (s : State) (k : Nat) (c : Ctx) : (s.setCtxAt k c).cls = s.cls := rfl
@[simp] theorem State.setCtxAt_clsPoison (s : State) (k : Nat) (c : Ctx) :
    (s.setCtxAt k c).clsPoison = s.clsPoison := rfl
@[simp] theorem State.setCtxAt_pend (s : State) (k : Nat) (c : Ctx) : (s.setCtxAt k c).pend = s.pend := rfl
@[simp] theorem State.setCtxAt_torn (s : State) (k : Nat) (c : Ctx) : (s.setCtxAt k c).torn = s.torn := rfl
@[simp] theorem State.setCtxAt_stale (s : State) (k : Nat) (c : Ctx) : (s.setCtxAt k c).stale = s.stale := rfl
@[simp] theorem State.setCtxAt_tlbs (s : State) (k : Nat) (c : Ctx) : (s.setCtxAt k c).tlbs = s.tlbs := rfl
@[simp] theorem State.setCtxAt_quarters (s : State) (k : Nat) (c : Ctx) : (s.setCtxAt k c).quarters = s.quarters := rfl
@[simp] theorem State.setCtxAt_launches (s : State) (k : Nat) (c : Ctx) : (s.setCtxAt k c).launches = s.launches := rfl
@[simp] theorem State.setCtxAt_nextId (s : State) (k : Nat) (c : Ctx) : (s.setCtxAt k c).nextId = s.nextId := rfl
@[simp] theorem State.setCtxAt_cards (s : State) (k : Nat) (c : Ctx) : (s.setCtxAt k c).cards = s.cards := rfl
@[simp] theorem State.setCtxAt_gathers (s : State) (k : Nat) (c : Ctx) : (s.setCtxAt k c).gathers = s.gathers := rfl
@[simp] theorem State.setCtxAt_kernels (s : State) (k : Nat) (c : Ctx) : (s.setCtxAt k c).kernels = s.kernels := rfl
@[simp] theorem State.setCtxAt_sent (s : State) (k : Nat) (c : Ctx) : (s.setCtxAt k c).sent = s.sent := rfl
@[simp] theorem State.setCtxAt_seqs (s : State) (k : Nat) (c : Ctx) : (s.setCtxAt k c).seqs = s.seqs := rfl
@[simp] theorem State.setCtxAt_windows (s : State) (k : Nat) (c : Ctx) : (s.setCtxAt k c).windows = s.windows := rfl
@[simp] theorem State.setCtxAt_parked (s : State) (k : Nat) (c : Ctx) : (s.setCtxAt k c).parked = s.parked := rfl
@[simp] theorem State.setCtxAt_xlat (s : State) (k : Nat) (c : Ctx) : (s.setCtxAt k c).xlat = s.xlat := rfl
@[simp] theorem State.setCtxAt_serving (s : State) (k : Nat) (c : Ctx) : (s.setCtxAt k c).serving = s.serving := rfl
@[simp] theorem State.setCtxAt_host (s : State) (k : Nat) (c : Ctx) : (s.setCtxAt k c).host = s.host := rfl
@[simp] theorem State.setCtxAt_owner (s : State) (k : Nat) (c : Ctx) : (s.setCtxAt k c).owner = s.owner := rfl
@[simp] theorem State.setCtxAt_ports (s : State) (k : Nat) (c : Ctx) : (s.setCtxAt k c).ports = s.ports := rfl
@[simp] theorem State.setCtxAt_regs (s : State) (k : Nat) (c : Ctx) : (s.setCtxAt k c).regs = s.regs := rfl

/-! ## modCtxAt -/

@[simp] theorem State.modCtxAt_turns (s : State) (k : Nat) (f : Ctx → Ctx) : (s.modCtxAt k f).turns = s.turns := rfl
@[simp] theorem State.modCtxAt_cur (s : State) (k : Nat) (f : Ctx → Ctx) : (s.modCtxAt k f).cur = s.cur := rfl
@[simp] theorem State.modCtxAt_unit (s : State) (k : Nat) (f : Ctx → Ctx) : (s.modCtxAt k f).unit = s.unit := rfl
@[simp] theorem State.modCtxAt_order (s : State) (k : Nat) (f : Ctx → Ctx) : (s.modCtxAt k f).order = s.order := rfl
@[simp] theorem State.modCtxAt_ticks (s : State) (k : Nat) (f : Ctx → Ctx) : (s.modCtxAt k f).ticks = s.ticks := rfl
@[simp] theorem State.modCtxAt_cores (s : State) (k : Nat) (f : Ctx → Ctx) : (s.modCtxAt k f).cores = s.cores := rfl
@[simp] theorem State.modCtxAt_mem (s : State) (k : Nat) (f : Ctx → Ctx) : (s.modCtxAt k f).mem = s.mem := rfl
@[simp] theorem State.modCtxAt_memPoison (s : State) (k : Nat) (f : Ctx → Ctx) :
    (s.modCtxAt k f).memPoison = s.memPoison := rfl
@[simp] theorem State.modCtxAt_cls (s : State) (k : Nat) (f : Ctx → Ctx) : (s.modCtxAt k f).cls = s.cls := rfl
@[simp] theorem State.modCtxAt_clsPoison (s : State) (k : Nat) (f : Ctx → Ctx) :
    (s.modCtxAt k f).clsPoison = s.clsPoison := rfl
@[simp] theorem State.modCtxAt_pend (s : State) (k : Nat) (f : Ctx → Ctx) : (s.modCtxAt k f).pend = s.pend := rfl
@[simp] theorem State.modCtxAt_torn (s : State) (k : Nat) (f : Ctx → Ctx) : (s.modCtxAt k f).torn = s.torn := rfl
@[simp] theorem State.modCtxAt_stale (s : State) (k : Nat) (f : Ctx → Ctx) : (s.modCtxAt k f).stale = s.stale := rfl
@[simp] theorem State.modCtxAt_tlbs (s : State) (k : Nat) (f : Ctx → Ctx) : (s.modCtxAt k f).tlbs = s.tlbs := rfl
@[simp] theorem State.modCtxAt_quarters (s : State) (k : Nat) (f : Ctx → Ctx) :
    (s.modCtxAt k f).quarters = s.quarters := rfl
@[simp] theorem State.modCtxAt_launches (s : State) (k : Nat) (f : Ctx → Ctx) :
    (s.modCtxAt k f).launches = s.launches := rfl
@[simp] theorem State.modCtxAt_nextId (s : State) (k : Nat) (f : Ctx → Ctx) : (s.modCtxAt k f).nextId = s.nextId := rfl
@[simp] theorem State.modCtxAt_cards (s : State) (k : Nat) (f : Ctx → Ctx) : (s.modCtxAt k f).cards = s.cards := rfl
@[simp] theorem State.modCtxAt_gathers (s : State) (k : Nat) (f : Ctx → Ctx) :
    (s.modCtxAt k f).gathers = s.gathers := rfl
@[simp] theorem State.modCtxAt_kernels (s : State) (k : Nat) (f : Ctx → Ctx) :
    (s.modCtxAt k f).kernels = s.kernels := rfl
@[simp] theorem State.modCtxAt_sent (s : State) (k : Nat) (f : Ctx → Ctx) : (s.modCtxAt k f).sent = s.sent := rfl
@[simp] theorem State.modCtxAt_seqs (s : State) (k : Nat) (f : Ctx → Ctx) : (s.modCtxAt k f).seqs = s.seqs := rfl
@[simp] theorem State.modCtxAt_windows (s : State) (k : Nat) (f : Ctx → Ctx) :
    (s.modCtxAt k f).windows = s.windows := rfl
@[simp] theorem State.modCtxAt_parked (s : State) (k : Nat) (f : Ctx → Ctx) : (s.modCtxAt k f).parked = s.parked := rfl
@[simp] theorem State.modCtxAt_xlat (s : State) (k : Nat) (f : Ctx → Ctx) : (s.modCtxAt k f).xlat = s.xlat := rfl
@[simp] theorem State.modCtxAt_serving (s : State) (k : Nat) (f : Ctx → Ctx) :
    (s.modCtxAt k f).serving = s.serving := rfl
@[simp] theorem State.modCtxAt_host (s : State) (k : Nat) (f : Ctx → Ctx) : (s.modCtxAt k f).host = s.host := rfl
@[simp] theorem State.modCtxAt_owner (s : State) (k : Nat) (f : Ctx → Ctx) : (s.modCtxAt k f).owner = s.owner := rfl
@[simp] theorem State.modCtxAt_ports (s : State) (k : Nat) (f : Ctx → Ctx) : (s.modCtxAt k f).ports = s.ports := rfl
@[simp] theorem State.modCtxAt_regs (s : State) (k : Nat) (f : Ctx → Ctx) : (s.modCtxAt k f).regs = s.regs := rfl

/-! ## modCtx -/

@[simp] theorem State.modCtx_turns (s : State) (f : Ctx → Ctx) : (s.modCtx f).turns = s.turns := rfl
@[simp] theorem State.modCtx_cur (s : State) (f : Ctx → Ctx) : (s.modCtx f).cur = s.cur := rfl
@[simp] theorem State.modCtx_unit (s : State) (f : Ctx → Ctx) : (s.modCtx f).unit = s.unit := rfl
@[simp] theorem State.modCtx_order (s : State) (f : Ctx → Ctx) : (s.modCtx f).order = s.order := rfl
@[simp] theorem State.modCtx_ticks (s : State) (f : Ctx → Ctx) : (s.modCtx f).ticks = s.ticks := rfl
@[simp] theorem State.modCtx_cores (s : State) (f : Ctx → Ctx) : (s.modCtx f).cores = s.cores := rfl
@[simp] theorem State.modCtx_mem (s : State) (f : Ctx → Ctx) : (s.modCtx f).mem = s.mem := rfl
@[simp] theorem State.modCtx_memPoison (s : State) (f : Ctx → Ctx) : (s.modCtx f).memPoison = s.memPoison := rfl
@[simp] theorem State.modCtx_cls (s : State) (f : Ctx → Ctx) : (s.modCtx f).cls = s.cls := rfl
@[simp] theorem State.modCtx_clsPoison (s : State) (f : Ctx → Ctx) : (s.modCtx f).clsPoison = s.clsPoison := rfl
@[simp] theorem State.modCtx_pend (s : State) (f : Ctx → Ctx) : (s.modCtx f).pend = s.pend := rfl
@[simp] theorem State.modCtx_torn (s : State) (f : Ctx → Ctx) : (s.modCtx f).torn = s.torn := rfl
@[simp] theorem State.modCtx_stale (s : State) (f : Ctx → Ctx) : (s.modCtx f).stale = s.stale := rfl
@[simp] theorem State.modCtx_tlbs (s : State) (f : Ctx → Ctx) : (s.modCtx f).tlbs = s.tlbs := rfl
@[simp] theorem State.modCtx_quarters (s : State) (f : Ctx → Ctx) : (s.modCtx f).quarters = s.quarters := rfl
@[simp] theorem State.modCtx_launches (s : State) (f : Ctx → Ctx) : (s.modCtx f).launches = s.launches := rfl
@[simp] theorem State.modCtx_nextId (s : State) (f : Ctx → Ctx) : (s.modCtx f).nextId = s.nextId := rfl
@[simp] theorem State.modCtx_cards (s : State) (f : Ctx → Ctx) : (s.modCtx f).cards = s.cards := rfl
@[simp] theorem State.modCtx_gathers (s : State) (f : Ctx → Ctx) : (s.modCtx f).gathers = s.gathers := rfl
@[simp] theorem State.modCtx_kernels (s : State) (f : Ctx → Ctx) : (s.modCtx f).kernels = s.kernels := rfl
@[simp] theorem State.modCtx_sent (s : State) (f : Ctx → Ctx) : (s.modCtx f).sent = s.sent := rfl
@[simp] theorem State.modCtx_seqs (s : State) (f : Ctx → Ctx) : (s.modCtx f).seqs = s.seqs := rfl
@[simp] theorem State.modCtx_windows (s : State) (f : Ctx → Ctx) : (s.modCtx f).windows = s.windows := rfl
@[simp] theorem State.modCtx_parked (s : State) (f : Ctx → Ctx) : (s.modCtx f).parked = s.parked := rfl
@[simp] theorem State.modCtx_xlat (s : State) (f : Ctx → Ctx) : (s.modCtx f).xlat = s.xlat := rfl
@[simp] theorem State.modCtx_serving (s : State) (f : Ctx → Ctx) : (s.modCtx f).serving = s.serving := rfl
@[simp] theorem State.modCtx_host (s : State) (f : Ctx → Ctx) : (s.modCtx f).host = s.host := rfl
@[simp] theorem State.modCtx_owner (s : State) (f : Ctx → Ctx) : (s.modCtx f).owner = s.owner := rfl
@[simp] theorem State.modCtx_ports (s : State) (f : Ctx → Ctx) : (s.modCtx f).ports = s.ports := rfl
@[simp] theorem State.modCtx_regs (s : State) (f : Ctx → Ctx) : (s.modCtx f).regs = s.regs := rfl

/-! ## setCoreAt -/

@[simp] theorem State.setCoreAt_turns (s : State) (n : Nat) (c : Core) : (s.setCoreAt n c).turns = s.turns := rfl
@[simp] theorem State.setCoreAt_cur (s : State) (n : Nat) (c : Core) : (s.setCoreAt n c).cur = s.cur := rfl
@[simp] theorem State.setCoreAt_unit (s : State) (n : Nat) (c : Core) : (s.setCoreAt n c).unit = s.unit := rfl
@[simp] theorem State.setCoreAt_order (s : State) (n : Nat) (c : Core) : (s.setCoreAt n c).order = s.order := rfl
@[simp] theorem State.setCoreAt_ticks (s : State) (n : Nat) (c : Core) : (s.setCoreAt n c).ticks = s.ticks := rfl
@[simp] theorem State.setCoreAt_ctxs (s : State) (n : Nat) (c : Core) : (s.setCoreAt n c).ctxs = s.ctxs := rfl
@[simp] theorem State.setCoreAt_mem (s : State) (n : Nat) (c : Core) : (s.setCoreAt n c).mem = s.mem := rfl
@[simp] theorem State.setCoreAt_memPoison (s : State) (n : Nat) (c : Core) :
    (s.setCoreAt n c).memPoison = s.memPoison := rfl
@[simp] theorem State.setCoreAt_cls (s : State) (n : Nat) (c : Core) : (s.setCoreAt n c).cls = s.cls := rfl
@[simp] theorem State.setCoreAt_clsPoison (s : State) (n : Nat) (c : Core) :
    (s.setCoreAt n c).clsPoison = s.clsPoison := rfl
@[simp] theorem State.setCoreAt_pend (s : State) (n : Nat) (c : Core) : (s.setCoreAt n c).pend = s.pend := rfl
@[simp] theorem State.setCoreAt_torn (s : State) (n : Nat) (c : Core) : (s.setCoreAt n c).torn = s.torn := rfl
@[simp] theorem State.setCoreAt_stale (s : State) (n : Nat) (c : Core) : (s.setCoreAt n c).stale = s.stale := rfl
@[simp] theorem State.setCoreAt_tlbs (s : State) (n : Nat) (c : Core) : (s.setCoreAt n c).tlbs = s.tlbs := rfl
@[simp] theorem State.setCoreAt_quarters (s : State) (n : Nat) (c : Core) :
    (s.setCoreAt n c).quarters = s.quarters := rfl
@[simp] theorem State.setCoreAt_launches (s : State) (n : Nat) (c : Core) :
    (s.setCoreAt n c).launches = s.launches := rfl
@[simp] theorem State.setCoreAt_nextId (s : State) (n : Nat) (c : Core) : (s.setCoreAt n c).nextId = s.nextId := rfl
@[simp] theorem State.setCoreAt_cards (s : State) (n : Nat) (c : Core) : (s.setCoreAt n c).cards = s.cards := rfl
@[simp] theorem State.setCoreAt_gathers (s : State) (n : Nat) (c : Core) : (s.setCoreAt n c).gathers = s.gathers := rfl
@[simp] theorem State.setCoreAt_kernels (s : State) (n : Nat) (c : Core) : (s.setCoreAt n c).kernels = s.kernels := rfl
@[simp] theorem State.setCoreAt_sent (s : State) (n : Nat) (c : Core) : (s.setCoreAt n c).sent = s.sent := rfl
@[simp] theorem State.setCoreAt_seqs (s : State) (n : Nat) (c : Core) : (s.setCoreAt n c).seqs = s.seqs := rfl
@[simp] theorem State.setCoreAt_windows (s : State) (n : Nat) (c : Core) : (s.setCoreAt n c).windows = s.windows := rfl
@[simp] theorem State.setCoreAt_parked (s : State) (n : Nat) (c : Core) : (s.setCoreAt n c).parked = s.parked := rfl
@[simp] theorem State.setCoreAt_xlat (s : State) (n : Nat) (c : Core) : (s.setCoreAt n c).xlat = s.xlat := rfl
@[simp] theorem State.setCoreAt_serving (s : State) (n : Nat) (c : Core) : (s.setCoreAt n c).serving = s.serving := rfl
@[simp] theorem State.setCoreAt_host (s : State) (n : Nat) (c : Core) : (s.setCoreAt n c).host = s.host := rfl
@[simp] theorem State.setCoreAt_owner (s : State) (n : Nat) (c : Core) : (s.setCoreAt n c).owner = s.owner := rfl
@[simp] theorem State.setCoreAt_ports (s : State) (n : Nat) (c : Core) : (s.setCoreAt n c).ports = s.ports := rfl
@[simp] theorem State.setCoreAt_regs (s : State) (n : Nat) (c : Core) : (s.setCoreAt n c).regs = s.regs := rfl

/-! ## modCoreAt -/

@[simp] theorem State.modCoreAt_turns (s : State) (n : Nat) (f : Core → Core) : (s.modCoreAt n f).turns = s.turns := rfl
@[simp] theorem State.modCoreAt_cur (s : State) (n : Nat) (f : Core → Core) : (s.modCoreAt n f).cur = s.cur := rfl
@[simp] theorem State.modCoreAt_unit (s : State) (n : Nat) (f : Core → Core) : (s.modCoreAt n f).unit = s.unit := rfl
@[simp] theorem State.modCoreAt_order (s : State) (n : Nat) (f : Core → Core) : (s.modCoreAt n f).order = s.order := rfl
@[simp] theorem State.modCoreAt_ticks (s : State) (n : Nat) (f : Core → Core) : (s.modCoreAt n f).ticks = s.ticks := rfl
@[simp] theorem State.modCoreAt_ctxs (s : State) (n : Nat) (f : Core → Core) : (s.modCoreAt n f).ctxs = s.ctxs := rfl
@[simp] theorem State.modCoreAt_mem (s : State) (n : Nat) (f : Core → Core) : (s.modCoreAt n f).mem = s.mem := rfl
@[simp] theorem State.modCoreAt_memPoison (s : State) (n : Nat) (f : Core → Core) :
    (s.modCoreAt n f).memPoison = s.memPoison := rfl
@[simp] theorem State.modCoreAt_cls (s : State) (n : Nat) (f : Core → Core) : (s.modCoreAt n f).cls = s.cls := rfl
@[simp] theorem State.modCoreAt_clsPoison (s : State) (n : Nat) (f : Core → Core) :
    (s.modCoreAt n f).clsPoison = s.clsPoison := rfl
@[simp] theorem State.modCoreAt_pend (s : State) (n : Nat) (f : Core → Core) : (s.modCoreAt n f).pend = s.pend := rfl
@[simp] theorem State.modCoreAt_torn (s : State) (n : Nat) (f : Core → Core) : (s.modCoreAt n f).torn = s.torn := rfl
@[simp] theorem State.modCoreAt_stale (s : State) (n : Nat) (f : Core → Core) : (s.modCoreAt n f).stale = s.stale := rfl
@[simp] theorem State.modCoreAt_tlbs (s : State) (n : Nat) (f : Core → Core) : (s.modCoreAt n f).tlbs = s.tlbs := rfl
@[simp] theorem State.modCoreAt_quarters (s : State) (n : Nat) (f : Core → Core) :
    (s.modCoreAt n f).quarters = s.quarters := rfl
@[simp] theorem State.modCoreAt_launches (s : State) (n : Nat) (f : Core → Core) :
    (s.modCoreAt n f).launches = s.launches := rfl
@[simp] theorem State.modCoreAt_nextId (s : State) (n : Nat) (f : Core → Core) :
    (s.modCoreAt n f).nextId = s.nextId := rfl
@[simp] theorem State.modCoreAt_cards (s : State) (n : Nat) (f : Core → Core) : (s.modCoreAt n f).cards = s.cards := rfl
@[simp] theorem State.modCoreAt_gathers (s : State) (n : Nat) (f : Core → Core) :
    (s.modCoreAt n f).gathers = s.gathers := rfl
@[simp] theorem State.modCoreAt_kernels (s : State) (n : Nat) (f : Core → Core) :
    (s.modCoreAt n f).kernels = s.kernels := rfl
@[simp] theorem State.modCoreAt_sent (s : State) (n : Nat) (f : Core → Core) : (s.modCoreAt n f).sent = s.sent := rfl
@[simp] theorem State.modCoreAt_seqs (s : State) (n : Nat) (f : Core → Core) : (s.modCoreAt n f).seqs = s.seqs := rfl
@[simp] theorem State.modCoreAt_windows (s : State) (n : Nat) (f : Core → Core) :
    (s.modCoreAt n f).windows = s.windows := rfl
@[simp] theorem State.modCoreAt_parked (s : State) (n : Nat) (f : Core → Core) :
    (s.modCoreAt n f).parked = s.parked := rfl
@[simp] theorem State.modCoreAt_xlat (s : State) (n : Nat) (f : Core → Core) : (s.modCoreAt n f).xlat = s.xlat := rfl
@[simp] theorem State.modCoreAt_serving (s : State) (n : Nat) (f : Core → Core) :
    (s.modCoreAt n f).serving = s.serving := rfl
@[simp] theorem State.modCoreAt_host (s : State) (n : Nat) (f : Core → Core) : (s.modCoreAt n f).host = s.host := rfl
@[simp] theorem State.modCoreAt_owner (s : State) (n : Nat) (f : Core → Core) : (s.modCoreAt n f).owner = s.owner := rfl
@[simp] theorem State.modCoreAt_ports (s : State) (n : Nat) (f : Core → Core) : (s.modCoreAt n f).ports = s.ports := rfl
@[simp] theorem State.modCoreAt_regs (s : State) (n : Nat) (f : Core → Core) : (s.modCoreAt n f).regs = s.regs := rfl

/-! ## modCore -/

@[simp] theorem State.modCore_turns (s : State) (f : Core → Core) : (s.modCore f).turns = s.turns := rfl
@[simp] theorem State.modCore_cur (s : State) (f : Core → Core) : (s.modCore f).cur = s.cur := rfl
@[simp] theorem State.modCore_unit (s : State) (f : Core → Core) : (s.modCore f).unit = s.unit := rfl
@[simp] theorem State.modCore_order (s : State) (f : Core → Core) : (s.modCore f).order = s.order := rfl
@[simp] theorem State.modCore_ticks (s : State) (f : Core → Core) : (s.modCore f).ticks = s.ticks := rfl
@[simp] theorem State.modCore_ctxs (s : State) (f : Core → Core) : (s.modCore f).ctxs = s.ctxs := rfl
@[simp] theorem State.modCore_mem (s : State) (f : Core → Core) : (s.modCore f).mem = s.mem := rfl
@[simp] theorem State.modCore_memPoison (s : State) (f : Core → Core) : (s.modCore f).memPoison = s.memPoison := rfl
@[simp] theorem State.modCore_cls (s : State) (f : Core → Core) : (s.modCore f).cls = s.cls := rfl
@[simp] theorem State.modCore_clsPoison (s : State) (f : Core → Core) : (s.modCore f).clsPoison = s.clsPoison := rfl
@[simp] theorem State.modCore_pend (s : State) (f : Core → Core) : (s.modCore f).pend = s.pend := rfl
@[simp] theorem State.modCore_torn (s : State) (f : Core → Core) : (s.modCore f).torn = s.torn := rfl
@[simp] theorem State.modCore_stale (s : State) (f : Core → Core) : (s.modCore f).stale = s.stale := rfl
@[simp] theorem State.modCore_tlbs (s : State) (f : Core → Core) : (s.modCore f).tlbs = s.tlbs := rfl
@[simp] theorem State.modCore_quarters (s : State) (f : Core → Core) : (s.modCore f).quarters = s.quarters := rfl
@[simp] theorem State.modCore_launches (s : State) (f : Core → Core) : (s.modCore f).launches = s.launches := rfl
@[simp] theorem State.modCore_nextId (s : State) (f : Core → Core) : (s.modCore f).nextId = s.nextId := rfl
@[simp] theorem State.modCore_cards (s : State) (f : Core → Core) : (s.modCore f).cards = s.cards := rfl
@[simp] theorem State.modCore_gathers (s : State) (f : Core → Core) : (s.modCore f).gathers = s.gathers := rfl
@[simp] theorem State.modCore_kernels (s : State) (f : Core → Core) : (s.modCore f).kernels = s.kernels := rfl
@[simp] theorem State.modCore_sent (s : State) (f : Core → Core) : (s.modCore f).sent = s.sent := rfl
@[simp] theorem State.modCore_seqs (s : State) (f : Core → Core) : (s.modCore f).seqs = s.seqs := rfl
@[simp] theorem State.modCore_windows (s : State) (f : Core → Core) : (s.modCore f).windows = s.windows := rfl
@[simp] theorem State.modCore_parked (s : State) (f : Core → Core) : (s.modCore f).parked = s.parked := rfl
@[simp] theorem State.modCore_xlat (s : State) (f : Core → Core) : (s.modCore f).xlat = s.xlat := rfl
@[simp] theorem State.modCore_serving (s : State) (f : Core → Core) : (s.modCore f).serving = s.serving := rfl
@[simp] theorem State.modCore_host (s : State) (f : Core → Core) : (s.modCore f).host = s.host := rfl
@[simp] theorem State.modCore_owner (s : State) (f : Core → Core) : (s.modCore f).owner = s.owner := rfl
@[simp] theorem State.modCore_ports (s : State) (f : Core → Core) : (s.modCore f).ports = s.ports := rfl
@[simp] theorem State.modCore_regs (s : State) (f : Core → Core) : (s.modCore f).regs = s.regs := rfl

/-! ## modQuarter -/

@[simp] theorem State.modQuarter_turns (s : State) (q : Fin 4) (f : Quarter → Quarter) :
    (s.modQuarter q f).turns = s.turns := rfl
@[simp] theorem State.modQuarter_cur (s : State) (q : Fin 4) (f : Quarter → Quarter) :
    (s.modQuarter q f).cur = s.cur := rfl
@[simp] theorem State.modQuarter_unit (s : State) (q : Fin 4) (f : Quarter → Quarter) :
    (s.modQuarter q f).unit = s.unit := rfl
@[simp] theorem State.modQuarter_order (s : State) (q : Fin 4) (f : Quarter → Quarter) :
    (s.modQuarter q f).order = s.order := rfl
@[simp] theorem State.modQuarter_ticks (s : State) (q : Fin 4) (f : Quarter → Quarter) :
    (s.modQuarter q f).ticks = s.ticks := rfl
@[simp] theorem State.modQuarter_ctxs (s : State) (q : Fin 4) (f : Quarter → Quarter) :
    (s.modQuarter q f).ctxs = s.ctxs := rfl
@[simp] theorem State.modQuarter_cores (s : State) (q : Fin 4) (f : Quarter → Quarter) :
    (s.modQuarter q f).cores = s.cores := rfl
@[simp] theorem State.modQuarter_mem (s : State) (q : Fin 4) (f : Quarter → Quarter) :
    (s.modQuarter q f).mem = s.mem := rfl
@[simp] theorem State.modQuarter_memPoison (s : State) (q : Fin 4) (f : Quarter → Quarter) :
    (s.modQuarter q f).memPoison = s.memPoison := rfl
@[simp] theorem State.modQuarter_cls (s : State) (q : Fin 4) (f : Quarter → Quarter) :
    (s.modQuarter q f).cls = s.cls := rfl
@[simp] theorem State.modQuarter_clsPoison (s : State) (q : Fin 4) (f : Quarter → Quarter) :
    (s.modQuarter q f).clsPoison = s.clsPoison := rfl
@[simp] theorem State.modQuarter_pend (s : State) (q : Fin 4) (f : Quarter → Quarter) :
    (s.modQuarter q f).pend = s.pend := rfl
@[simp] theorem State.modQuarter_torn (s : State) (q : Fin 4) (f : Quarter → Quarter) :
    (s.modQuarter q f).torn = s.torn := rfl
@[simp] theorem State.modQuarter_stale (s : State) (q : Fin 4) (f : Quarter → Quarter) :
    (s.modQuarter q f).stale = s.stale := rfl
@[simp] theorem State.modQuarter_tlbs (s : State) (q : Fin 4) (f : Quarter → Quarter) :
    (s.modQuarter q f).tlbs = s.tlbs := rfl
@[simp] theorem State.modQuarter_launches (s : State) (q : Fin 4) (f : Quarter → Quarter) :
    (s.modQuarter q f).launches = s.launches := rfl
@[simp] theorem State.modQuarter_nextId (s : State) (q : Fin 4) (f : Quarter → Quarter) :
    (s.modQuarter q f).nextId = s.nextId := rfl
@[simp] theorem State.modQuarter_cards (s : State) (q : Fin 4) (f : Quarter → Quarter) :
    (s.modQuarter q f).cards = s.cards := rfl
@[simp] theorem State.modQuarter_gathers (s : State) (q : Fin 4) (f : Quarter → Quarter) :
    (s.modQuarter q f).gathers = s.gathers := rfl
@[simp] theorem State.modQuarter_kernels (s : State) (q : Fin 4) (f : Quarter → Quarter) :
    (s.modQuarter q f).kernels = s.kernels := rfl
@[simp] theorem State.modQuarter_sent (s : State) (q : Fin 4) (f : Quarter → Quarter) :
    (s.modQuarter q f).sent = s.sent := rfl
@[simp] theorem State.modQuarter_seqs (s : State) (q : Fin 4) (f : Quarter → Quarter) :
    (s.modQuarter q f).seqs = s.seqs := rfl
@[simp] theorem State.modQuarter_windows (s : State) (q : Fin 4) (f : Quarter → Quarter) :
    (s.modQuarter q f).windows = s.windows := rfl
@[simp] theorem State.modQuarter_parked (s : State) (q : Fin 4) (f : Quarter → Quarter) :
    (s.modQuarter q f).parked = s.parked := rfl
@[simp] theorem State.modQuarter_xlat (s : State) (q : Fin 4) (f : Quarter → Quarter) :
    (s.modQuarter q f).xlat = s.xlat := rfl
@[simp] theorem State.modQuarter_serving (s : State) (q : Fin 4) (f : Quarter → Quarter) :
    (s.modQuarter q f).serving = s.serving := rfl
@[simp] theorem State.modQuarter_host (s : State) (q : Fin 4) (f : Quarter → Quarter) :
    (s.modQuarter q f).host = s.host := rfl
@[simp] theorem State.modQuarter_owner (s : State) (q : Fin 4) (f : Quarter → Quarter) :
    (s.modQuarter q f).owner = s.owner := rfl
@[simp] theorem State.modQuarter_ports (s : State) (q : Fin 4) (f : Quarter → Quarter) :
    (s.modQuarter q f).ports = s.ports := rfl
@[simp] theorem State.modQuarter_regs (s : State) (q : Fin 4) (f : Quarter → Quarter) :
    (s.modQuarter q f).regs = s.regs := rfl

/-! ## modRegs -/

@[simp] theorem State.modRegs_turns (s : State) (f : Regs → Regs) : (s.modRegs f).turns = s.turns := rfl
@[simp] theorem State.modRegs_cur (s : State) (f : Regs → Regs) : (s.modRegs f).cur = s.cur := rfl
@[simp] theorem State.modRegs_unit (s : State) (f : Regs → Regs) : (s.modRegs f).unit = s.unit := rfl
@[simp] theorem State.modRegs_order (s : State) (f : Regs → Regs) : (s.modRegs f).order = s.order := rfl
@[simp] theorem State.modRegs_ticks (s : State) (f : Regs → Regs) : (s.modRegs f).ticks = s.ticks := rfl
@[simp] theorem State.modRegs_ctxs (s : State) (f : Regs → Regs) : (s.modRegs f).ctxs = s.ctxs := rfl
@[simp] theorem State.modRegs_cores (s : State) (f : Regs → Regs) : (s.modRegs f).cores = s.cores := rfl
@[simp] theorem State.modRegs_mem (s : State) (f : Regs → Regs) : (s.modRegs f).mem = s.mem := rfl
@[simp] theorem State.modRegs_memPoison (s : State) (f : Regs → Regs) : (s.modRegs f).memPoison = s.memPoison := rfl
@[simp] theorem State.modRegs_cls (s : State) (f : Regs → Regs) : (s.modRegs f).cls = s.cls := rfl
@[simp] theorem State.modRegs_clsPoison (s : State) (f : Regs → Regs) : (s.modRegs f).clsPoison = s.clsPoison := rfl
@[simp] theorem State.modRegs_pend (s : State) (f : Regs → Regs) : (s.modRegs f).pend = s.pend := rfl
@[simp] theorem State.modRegs_torn (s : State) (f : Regs → Regs) : (s.modRegs f).torn = s.torn := rfl
@[simp] theorem State.modRegs_stale (s : State) (f : Regs → Regs) : (s.modRegs f).stale = s.stale := rfl
@[simp] theorem State.modRegs_tlbs (s : State) (f : Regs → Regs) : (s.modRegs f).tlbs = s.tlbs := rfl
@[simp] theorem State.modRegs_quarters (s : State) (f : Regs → Regs) : (s.modRegs f).quarters = s.quarters := rfl
@[simp] theorem State.modRegs_launches (s : State) (f : Regs → Regs) : (s.modRegs f).launches = s.launches := rfl
@[simp] theorem State.modRegs_nextId (s : State) (f : Regs → Regs) : (s.modRegs f).nextId = s.nextId := rfl
@[simp] theorem State.modRegs_cards (s : State) (f : Regs → Regs) : (s.modRegs f).cards = s.cards := rfl
@[simp] theorem State.modRegs_gathers (s : State) (f : Regs → Regs) : (s.modRegs f).gathers = s.gathers := rfl
@[simp] theorem State.modRegs_kernels (s : State) (f : Regs → Regs) : (s.modRegs f).kernels = s.kernels := rfl
@[simp] theorem State.modRegs_sent (s : State) (f : Regs → Regs) : (s.modRegs f).sent = s.sent := rfl
@[simp] theorem State.modRegs_seqs (s : State) (f : Regs → Regs) : (s.modRegs f).seqs = s.seqs := rfl
@[simp] theorem State.modRegs_windows (s : State) (f : Regs → Regs) : (s.modRegs f).windows = s.windows := rfl
@[simp] theorem State.modRegs_parked (s : State) (f : Regs → Regs) : (s.modRegs f).parked = s.parked := rfl
@[simp] theorem State.modRegs_xlat (s : State) (f : Regs → Regs) : (s.modRegs f).xlat = s.xlat := rfl
@[simp] theorem State.modRegs_serving (s : State) (f : Regs → Regs) : (s.modRegs f).serving = s.serving := rfl
@[simp] theorem State.modRegs_host (s : State) (f : Regs → Regs) : (s.modRegs f).host = s.host := rfl
@[simp] theorem State.modRegs_owner (s : State) (f : Regs → Regs) : (s.modRegs f).owner = s.owner := rfl
@[simp] theorem State.modRegs_ports (s : State) (f : Regs → Regs) : (s.modRegs f).ports = s.ports := rfl

/-! ## logError -/

@[simp] theorem State.logError_turns (s : State) (code outcome : Nat) (base : Bool) (unit addr : Nat) :
    (s.logError code outcome base unit addr).turns = s.turns := rfl
@[simp] theorem State.logError_cur (s : State) (code outcome : Nat) (base : Bool) (unit addr : Nat) :
    (s.logError code outcome base unit addr).cur = s.cur := rfl
@[simp] theorem State.logError_unit (s : State) (code outcome : Nat) (base : Bool) (unit addr : Nat) :
    (s.logError code outcome base unit addr).unit = s.unit := rfl
@[simp] theorem State.logError_order (s : State) (code outcome : Nat) (base : Bool) (unit addr : Nat) :
    (s.logError code outcome base unit addr).order = s.order := rfl
@[simp] theorem State.logError_ticks (s : State) (code outcome : Nat) (base : Bool) (unit addr : Nat) :
    (s.logError code outcome base unit addr).ticks = s.ticks := rfl
@[simp] theorem State.logError_ctxs (s : State) (code outcome : Nat) (base : Bool) (unit addr : Nat) :
    (s.logError code outcome base unit addr).ctxs = s.ctxs := rfl
@[simp] theorem State.logError_cores (s : State) (code outcome : Nat) (base : Bool) (unit addr : Nat) :
    (s.logError code outcome base unit addr).cores = s.cores := rfl
@[simp] theorem State.logError_mem (s : State) (code outcome : Nat) (base : Bool) (unit addr : Nat) :
    (s.logError code outcome base unit addr).mem = s.mem := rfl
@[simp] theorem State.logError_memPoison (s : State) (code outcome : Nat) (base : Bool) (unit addr : Nat) :
    (s.logError code outcome base unit addr).memPoison = s.memPoison := rfl
@[simp] theorem State.logError_cls (s : State) (code outcome : Nat) (base : Bool) (unit addr : Nat) :
    (s.logError code outcome base unit addr).cls = s.cls := rfl
@[simp] theorem State.logError_clsPoison (s : State) (code outcome : Nat) (base : Bool) (unit addr : Nat) :
    (s.logError code outcome base unit addr).clsPoison = s.clsPoison := rfl
@[simp] theorem State.logError_pend (s : State) (code outcome : Nat) (base : Bool) (unit addr : Nat) :
    (s.logError code outcome base unit addr).pend = s.pend := rfl
@[simp] theorem State.logError_torn (s : State) (code outcome : Nat) (base : Bool) (unit addr : Nat) :
    (s.logError code outcome base unit addr).torn = s.torn := rfl
@[simp] theorem State.logError_stale (s : State) (code outcome : Nat) (base : Bool) (unit addr : Nat) :
    (s.logError code outcome base unit addr).stale = s.stale := rfl
@[simp] theorem State.logError_tlbs (s : State) (code outcome : Nat) (base : Bool) (unit addr : Nat) :
    (s.logError code outcome base unit addr).tlbs = s.tlbs := rfl
@[simp] theorem State.logError_quarters (s : State) (code outcome : Nat) (base : Bool) (unit addr : Nat) :
    (s.logError code outcome base unit addr).quarters = s.quarters := rfl
@[simp] theorem State.logError_launches (s : State) (code outcome : Nat) (base : Bool) (unit addr : Nat) :
    (s.logError code outcome base unit addr).launches = s.launches := rfl
@[simp] theorem State.logError_nextId (s : State) (code outcome : Nat) (base : Bool) (unit addr : Nat) :
    (s.logError code outcome base unit addr).nextId = s.nextId := rfl
@[simp] theorem State.logError_cards (s : State) (code outcome : Nat) (base : Bool) (unit addr : Nat) :
    (s.logError code outcome base unit addr).cards = s.cards := rfl
@[simp] theorem State.logError_gathers (s : State) (code outcome : Nat) (base : Bool) (unit addr : Nat) :
    (s.logError code outcome base unit addr).gathers = s.gathers := rfl
@[simp] theorem State.logError_kernels (s : State) (code outcome : Nat) (base : Bool) (unit addr : Nat) :
    (s.logError code outcome base unit addr).kernels = s.kernels := rfl
@[simp] theorem State.logError_sent (s : State) (code outcome : Nat) (base : Bool) (unit addr : Nat) :
    (s.logError code outcome base unit addr).sent = s.sent := rfl
@[simp] theorem State.logError_seqs (s : State) (code outcome : Nat) (base : Bool) (unit addr : Nat) :
    (s.logError code outcome base unit addr).seqs = s.seqs := rfl
@[simp] theorem State.logError_windows (s : State) (code outcome : Nat) (base : Bool) (unit addr : Nat) :
    (s.logError code outcome base unit addr).windows = s.windows := rfl
@[simp] theorem State.logError_parked (s : State) (code outcome : Nat) (base : Bool) (unit addr : Nat) :
    (s.logError code outcome base unit addr).parked = s.parked := rfl
@[simp] theorem State.logError_xlat (s : State) (code outcome : Nat) (base : Bool) (unit addr : Nat) :
    (s.logError code outcome base unit addr).xlat = s.xlat := rfl
@[simp] theorem State.logError_serving (s : State) (code outcome : Nat) (base : Bool) (unit addr : Nat) :
    (s.logError code outcome base unit addr).serving = s.serving := rfl
@[simp] theorem State.logError_host (s : State) (code outcome : Nat) (base : Bool) (unit addr : Nat) :
    (s.logError code outcome base unit addr).host = s.host := rfl
@[simp] theorem State.logError_owner (s : State) (code outcome : Nat) (base : Bool) (unit addr : Nat) :
    (s.logError code outcome base unit addr).owner = s.owner := rfl
@[simp] theorem State.logError_ports (s : State) (code outcome : Nat) (base : Bool) (unit addr : Nat) :
    (s.logError code outcome base unit addr).ports = s.ports := rfl

/-! ## setGang -/

@[simp] theorem State.setGang_turns (s : State) (l g : Nat) (f : Gang → Gang) : (s.setGang l g f).turns = s.turns := rfl
@[simp] theorem State.setGang_cur (s : State) (l g : Nat) (f : Gang → Gang) : (s.setGang l g f).cur = s.cur := rfl
@[simp] theorem State.setGang_unit (s : State) (l g : Nat) (f : Gang → Gang) : (s.setGang l g f).unit = s.unit := rfl
@[simp] theorem State.setGang_order (s : State) (l g : Nat) (f : Gang → Gang) : (s.setGang l g f).order = s.order := rfl
@[simp] theorem State.setGang_ticks (s : State) (l g : Nat) (f : Gang → Gang) : (s.setGang l g f).ticks = s.ticks := rfl
@[simp] theorem State.setGang_ctxs (s : State) (l g : Nat) (f : Gang → Gang) : (s.setGang l g f).ctxs = s.ctxs := rfl
@[simp] theorem State.setGang_cores (s : State) (l g : Nat) (f : Gang → Gang) : (s.setGang l g f).cores = s.cores := rfl
@[simp] theorem State.setGang_mem (s : State) (l g : Nat) (f : Gang → Gang) : (s.setGang l g f).mem = s.mem := rfl
@[simp] theorem State.setGang_memPoison (s : State) (l g : Nat) (f : Gang → Gang) :
    (s.setGang l g f).memPoison = s.memPoison := rfl
@[simp] theorem State.setGang_cls (s : State) (l g : Nat) (f : Gang → Gang) : (s.setGang l g f).cls = s.cls := rfl
@[simp] theorem State.setGang_clsPoison (s : State) (l g : Nat) (f : Gang → Gang) :
    (s.setGang l g f).clsPoison = s.clsPoison := rfl
@[simp] theorem State.setGang_pend (s : State) (l g : Nat) (f : Gang → Gang) : (s.setGang l g f).pend = s.pend := rfl
@[simp] theorem State.setGang_torn (s : State) (l g : Nat) (f : Gang → Gang) : (s.setGang l g f).torn = s.torn := rfl
@[simp] theorem State.setGang_stale (s : State) (l g : Nat) (f : Gang → Gang) : (s.setGang l g f).stale = s.stale := rfl
@[simp] theorem State.setGang_tlbs (s : State) (l g : Nat) (f : Gang → Gang) : (s.setGang l g f).tlbs = s.tlbs := rfl
@[simp] theorem State.setGang_quarters (s : State) (l g : Nat) (f : Gang → Gang) :
    (s.setGang l g f).quarters = s.quarters := rfl
@[simp] theorem State.setGang_nextId (s : State) (l g : Nat) (f : Gang → Gang) :
    (s.setGang l g f).nextId = s.nextId := rfl
@[simp] theorem State.setGang_cards (s : State) (l g : Nat) (f : Gang → Gang) : (s.setGang l g f).cards = s.cards := rfl
@[simp] theorem State.setGang_gathers (s : State) (l g : Nat) (f : Gang → Gang) :
    (s.setGang l g f).gathers = s.gathers := rfl
@[simp] theorem State.setGang_kernels (s : State) (l g : Nat) (f : Gang → Gang) :
    (s.setGang l g f).kernels = s.kernels := rfl
@[simp] theorem State.setGang_sent (s : State) (l g : Nat) (f : Gang → Gang) : (s.setGang l g f).sent = s.sent := rfl
@[simp] theorem State.setGang_seqs (s : State) (l g : Nat) (f : Gang → Gang) : (s.setGang l g f).seqs = s.seqs := rfl
@[simp] theorem State.setGang_windows (s : State) (l g : Nat) (f : Gang → Gang) :
    (s.setGang l g f).windows = s.windows := rfl
@[simp] theorem State.setGang_parked (s : State) (l g : Nat) (f : Gang → Gang) :
    (s.setGang l g f).parked = s.parked := rfl
@[simp] theorem State.setGang_xlat (s : State) (l g : Nat) (f : Gang → Gang) : (s.setGang l g f).xlat = s.xlat := rfl
@[simp] theorem State.setGang_serving (s : State) (l g : Nat) (f : Gang → Gang) :
    (s.setGang l g f).serving = s.serving := rfl
@[simp] theorem State.setGang_host (s : State) (l g : Nat) (f : Gang → Gang) : (s.setGang l g f).host = s.host := rfl
@[simp] theorem State.setGang_owner (s : State) (l g : Nat) (f : Gang → Gang) : (s.setGang l g f).owner = s.owner := rfl
@[simp] theorem State.setGang_ports (s : State) (l g : Nat) (f : Gang → Gang) : (s.setGang l g f).ports = s.ports := rfl
@[simp] theorem State.setGang_regs (s : State) (l g : Nat) (f : Gang → Gang) : (s.setGang l g f).regs = s.regs := rfl

/-! ## modStrip -/

@[simp] theorem State.modStrip_turns (s : State) (f : Strip → Strip) :
    (s.modStrip f).turns = s.turns := by unfold State.modStrip; split <;> rfl
@[simp] theorem State.modStrip_cur (s : State) (f : Strip → Strip) :
    (s.modStrip f).cur = s.cur := by unfold State.modStrip; split <;> rfl
@[simp] theorem State.modStrip_unit (s : State) (f : Strip → Strip) :
    (s.modStrip f).unit = s.unit := by unfold State.modStrip; split <;> rfl
@[simp] theorem State.modStrip_order (s : State) (f : Strip → Strip) :
    (s.modStrip f).order = s.order := by unfold State.modStrip; split <;> rfl
@[simp] theorem State.modStrip_ticks (s : State) (f : Strip → Strip) :
    (s.modStrip f).ticks = s.ticks := by unfold State.modStrip; split <;> rfl
@[simp] theorem State.modStrip_cores (s : State) (f : Strip → Strip) :
    (s.modStrip f).cores = s.cores := by unfold State.modStrip; split <;> rfl
@[simp] theorem State.modStrip_mem (s : State) (f : Strip → Strip) :
    (s.modStrip f).mem = s.mem := by unfold State.modStrip; split <;> rfl
@[simp] theorem State.modStrip_memPoison (s : State) (f : Strip → Strip) :
    (s.modStrip f).memPoison = s.memPoison := by unfold State.modStrip; split <;> rfl
@[simp] theorem State.modStrip_cls (s : State) (f : Strip → Strip) :
    (s.modStrip f).cls = s.cls := by unfold State.modStrip; split <;> rfl
@[simp] theorem State.modStrip_clsPoison (s : State) (f : Strip → Strip) :
    (s.modStrip f).clsPoison = s.clsPoison := by unfold State.modStrip; split <;> rfl
@[simp] theorem State.modStrip_pend (s : State) (f : Strip → Strip) :
    (s.modStrip f).pend = s.pend := by unfold State.modStrip; split <;> rfl
@[simp] theorem State.modStrip_torn (s : State) (f : Strip → Strip) :
    (s.modStrip f).torn = s.torn := by unfold State.modStrip; split <;> rfl
@[simp] theorem State.modStrip_stale (s : State) (f : Strip → Strip) :
    (s.modStrip f).stale = s.stale := by unfold State.modStrip; split <;> rfl
@[simp] theorem State.modStrip_tlbs (s : State) (f : Strip → Strip) :
    (s.modStrip f).tlbs = s.tlbs := by unfold State.modStrip; split <;> rfl
@[simp] theorem State.modStrip_quarters (s : State) (f : Strip → Strip) :
    (s.modStrip f).quarters = s.quarters := by unfold State.modStrip; split <;> rfl
@[simp] theorem State.modStrip_launches (s : State) (f : Strip → Strip) :
    (s.modStrip f).launches = s.launches := by unfold State.modStrip; split <;> rfl
@[simp] theorem State.modStrip_nextId (s : State) (f : Strip → Strip) :
    (s.modStrip f).nextId = s.nextId := by unfold State.modStrip; split <;> rfl
@[simp] theorem State.modStrip_cards (s : State) (f : Strip → Strip) :
    (s.modStrip f).cards = s.cards := by unfold State.modStrip; split <;> rfl
@[simp] theorem State.modStrip_gathers (s : State) (f : Strip → Strip) :
    (s.modStrip f).gathers = s.gathers := by unfold State.modStrip; split <;> rfl
@[simp] theorem State.modStrip_kernels (s : State) (f : Strip → Strip) :
    (s.modStrip f).kernels = s.kernels := by unfold State.modStrip; split <;> rfl
@[simp] theorem State.modStrip_sent (s : State) (f : Strip → Strip) :
    (s.modStrip f).sent = s.sent := by unfold State.modStrip; split <;> rfl
@[simp] theorem State.modStrip_seqs (s : State) (f : Strip → Strip) :
    (s.modStrip f).seqs = s.seqs := by unfold State.modStrip; split <;> rfl
@[simp] theorem State.modStrip_windows (s : State) (f : Strip → Strip) :
    (s.modStrip f).windows = s.windows := by unfold State.modStrip; split <;> rfl
@[simp] theorem State.modStrip_parked (s : State) (f : Strip → Strip) :
    (s.modStrip f).parked = s.parked := by unfold State.modStrip; split <;> rfl
@[simp] theorem State.modStrip_xlat (s : State) (f : Strip → Strip) :
    (s.modStrip f).xlat = s.xlat := by unfold State.modStrip; split <;> rfl
@[simp] theorem State.modStrip_serving (s : State) (f : Strip → Strip) :
    (s.modStrip f).serving = s.serving := by unfold State.modStrip; split <;> rfl
@[simp] theorem State.modStrip_host (s : State) (f : Strip → Strip) :
    (s.modStrip f).host = s.host := by unfold State.modStrip; split <;> rfl
@[simp] theorem State.modStrip_owner (s : State) (f : Strip → Strip) :
    (s.modStrip f).owner = s.owner := by unfold State.modStrip; split <;> rfl
@[simp] theorem State.modStrip_ports (s : State) (f : Strip → Strip) :
    (s.modStrip f).ports = s.ports := by unfold State.modStrip; split <;> rfl
@[simp] theorem State.modStrip_regs (s : State) (f : Strip → Strip) :
    (s.modStrip f).regs = s.regs := by unfold State.modStrip; split <;> rfl

/-! ## setThread -/

@[simp] theorem State.setThread_turns (s : State) (t : Thread) :
    (s.setThread t).turns = s.turns := by unfold State.setThread; split <;> simp
@[simp] theorem State.setThread_cur (s : State) (t : Thread) :
    (s.setThread t).cur = s.cur := by unfold State.setThread; split <;> simp
@[simp] theorem State.setThread_unit (s : State) (t : Thread) :
    (s.setThread t).unit = s.unit := by unfold State.setThread; split <;> simp
@[simp] theorem State.setThread_order (s : State) (t : Thread) :
    (s.setThread t).order = s.order := by unfold State.setThread; split <;> simp
@[simp] theorem State.setThread_ticks (s : State) (t : Thread) :
    (s.setThread t).ticks = s.ticks := by unfold State.setThread; split <;> simp
@[simp] theorem State.setThread_cores (s : State) (t : Thread) :
    (s.setThread t).cores = s.cores := by unfold State.setThread; split <;> simp
@[simp] theorem State.setThread_mem (s : State) (t : Thread) :
    (s.setThread t).mem = s.mem := by unfold State.setThread; split <;> simp
@[simp] theorem State.setThread_memPoison (s : State) (t : Thread) :
    (s.setThread t).memPoison = s.memPoison := by unfold State.setThread; split <;> simp
@[simp] theorem State.setThread_cls (s : State) (t : Thread) :
    (s.setThread t).cls = s.cls := by unfold State.setThread; split <;> simp
@[simp] theorem State.setThread_clsPoison (s : State) (t : Thread) :
    (s.setThread t).clsPoison = s.clsPoison := by unfold State.setThread; split <;> simp
@[simp] theorem State.setThread_pend (s : State) (t : Thread) :
    (s.setThread t).pend = s.pend := by unfold State.setThread; split <;> simp
@[simp] theorem State.setThread_torn (s : State) (t : Thread) :
    (s.setThread t).torn = s.torn := by unfold State.setThread; split <;> simp
@[simp] theorem State.setThread_stale (s : State) (t : Thread) :
    (s.setThread t).stale = s.stale := by unfold State.setThread; split <;> simp
@[simp] theorem State.setThread_tlbs (s : State) (t : Thread) :
    (s.setThread t).tlbs = s.tlbs := by unfold State.setThread; split <;> simp
@[simp] theorem State.setThread_quarters (s : State) (t : Thread) :
    (s.setThread t).quarters = s.quarters := by unfold State.setThread; split <;> simp
@[simp] theorem State.setThread_launches (s : State) (t : Thread) :
    (s.setThread t).launches = s.launches := by unfold State.setThread; split <;> simp
@[simp] theorem State.setThread_nextId (s : State) (t : Thread) :
    (s.setThread t).nextId = s.nextId := by unfold State.setThread; split <;> simp
@[simp] theorem State.setThread_cards (s : State) (t : Thread) :
    (s.setThread t).cards = s.cards := by unfold State.setThread; split <;> simp
@[simp] theorem State.setThread_gathers (s : State) (t : Thread) :
    (s.setThread t).gathers = s.gathers := by unfold State.setThread; split <;> simp
@[simp] theorem State.setThread_kernels (s : State) (t : Thread) :
    (s.setThread t).kernels = s.kernels := by unfold State.setThread; split <;> simp
@[simp] theorem State.setThread_sent (s : State) (t : Thread) :
    (s.setThread t).sent = s.sent := by unfold State.setThread; split <;> simp
@[simp] theorem State.setThread_seqs (s : State) (t : Thread) :
    (s.setThread t).seqs = s.seqs := by unfold State.setThread; split <;> simp
@[simp] theorem State.setThread_windows (s : State) (t : Thread) :
    (s.setThread t).windows = s.windows := by unfold State.setThread; split <;> simp
@[simp] theorem State.setThread_parked (s : State) (t : Thread) :
    (s.setThread t).parked = s.parked := by unfold State.setThread; split <;> simp
@[simp] theorem State.setThread_xlat (s : State) (t : Thread) :
    (s.setThread t).xlat = s.xlat := by unfold State.setThread; split <;> simp
@[simp] theorem State.setThread_serving (s : State) (t : Thread) :
    (s.setThread t).serving = s.serving := by unfold State.setThread; split <;> simp
@[simp] theorem State.setThread_host (s : State) (t : Thread) :
    (s.setThread t).host = s.host := by unfold State.setThread; split <;> simp
@[simp] theorem State.setThread_owner (s : State) (t : Thread) :
    (s.setThread t).owner = s.owner := by unfold State.setThread; split <;> simp
@[simp] theorem State.setThread_ports (s : State) (t : Thread) :
    (s.setThread t).ports = s.ports := by unfold State.setThread; split <;> simp
@[simp] theorem State.setThread_regs (s : State) (t : Thread) :
    (s.setThread t).regs = s.regs := by unfold State.setThread; split <;> simp

/-! ## goto -/

@[simp] theorem State.goto_turns (s : State) (pc : Word) : (s.goto pc).turns = s.turns := by simp [State.goto]
@[simp] theorem State.goto_cur (s : State) (pc : Word) : (s.goto pc).cur = s.cur := by simp [State.goto]
@[simp] theorem State.goto_unit (s : State) (pc : Word) : (s.goto pc).unit = s.unit := by simp [State.goto]
@[simp] theorem State.goto_order (s : State) (pc : Word) : (s.goto pc).order = s.order := by simp [State.goto]
@[simp] theorem State.goto_ticks (s : State) (pc : Word) : (s.goto pc).ticks = s.ticks := by simp [State.goto]
@[simp] theorem State.goto_cores (s : State) (pc : Word) : (s.goto pc).cores = s.cores := by simp [State.goto]
@[simp] theorem State.goto_mem (s : State) (pc : Word) : (s.goto pc).mem = s.mem := by simp [State.goto]
@[simp] theorem State.goto_memPoison (s : State) (pc : Word) :
    (s.goto pc).memPoison = s.memPoison := by simp [State.goto]
@[simp] theorem State.goto_cls (s : State) (pc : Word) : (s.goto pc).cls = s.cls := by simp [State.goto]
@[simp] theorem State.goto_clsPoison (s : State) (pc : Word) :
    (s.goto pc).clsPoison = s.clsPoison := by simp [State.goto]
@[simp] theorem State.goto_pend (s : State) (pc : Word) : (s.goto pc).pend = s.pend := by simp [State.goto]
@[simp] theorem State.goto_torn (s : State) (pc : Word) : (s.goto pc).torn = s.torn := by simp [State.goto]
@[simp] theorem State.goto_stale (s : State) (pc : Word) : (s.goto pc).stale = s.stale := by simp [State.goto]
@[simp] theorem State.goto_tlbs (s : State) (pc : Word) : (s.goto pc).tlbs = s.tlbs := by simp [State.goto]
@[simp] theorem State.goto_quarters (s : State) (pc : Word) : (s.goto pc).quarters = s.quarters := by simp [State.goto]
@[simp] theorem State.goto_launches (s : State) (pc : Word) : (s.goto pc).launches = s.launches := by simp [State.goto]
@[simp] theorem State.goto_nextId (s : State) (pc : Word) : (s.goto pc).nextId = s.nextId := by simp [State.goto]
@[simp] theorem State.goto_cards (s : State) (pc : Word) : (s.goto pc).cards = s.cards := by simp [State.goto]
@[simp] theorem State.goto_gathers (s : State) (pc : Word) : (s.goto pc).gathers = s.gathers := by simp [State.goto]
@[simp] theorem State.goto_kernels (s : State) (pc : Word) : (s.goto pc).kernels = s.kernels := by simp [State.goto]
@[simp] theorem State.goto_sent (s : State) (pc : Word) : (s.goto pc).sent = s.sent := by simp [State.goto]
@[simp] theorem State.goto_seqs (s : State) (pc : Word) : (s.goto pc).seqs = s.seqs := by simp [State.goto]
@[simp] theorem State.goto_windows (s : State) (pc : Word) : (s.goto pc).windows = s.windows := by simp [State.goto]
@[simp] theorem State.goto_parked (s : State) (pc : Word) : (s.goto pc).parked = s.parked := by simp [State.goto]
@[simp] theorem State.goto_xlat (s : State) (pc : Word) : (s.goto pc).xlat = s.xlat := by simp [State.goto]
@[simp] theorem State.goto_serving (s : State) (pc : Word) : (s.goto pc).serving = s.serving := by simp [State.goto]
@[simp] theorem State.goto_host (s : State) (pc : Word) : (s.goto pc).host = s.host := by simp [State.goto]
@[simp] theorem State.goto_owner (s : State) (pc : Word) : (s.goto pc).owner = s.owner := by simp [State.goto]
@[simp] theorem State.goto_ports (s : State) (pc : Word) : (s.goto pc).ports = s.ports := by simp [State.goto]
@[simp] theorem State.goto_regs (s : State) (pc : Word) : (s.goto pc).regs = s.regs := by simp [State.goto]

/-! ## advance -/

@[simp] theorem State.advance_turns (s : State) : (s.advance).turns = s.turns := by simp [State.advance]
@[simp] theorem State.advance_cur (s : State) : (s.advance).cur = s.cur := by simp [State.advance]
@[simp] theorem State.advance_unit (s : State) : (s.advance).unit = s.unit := by simp [State.advance]
@[simp] theorem State.advance_order (s : State) : (s.advance).order = s.order := by simp [State.advance]
@[simp] theorem State.advance_ticks (s : State) : (s.advance).ticks = s.ticks := by simp [State.advance]
@[simp] theorem State.advance_cores (s : State) : (s.advance).cores = s.cores := by simp [State.advance]
@[simp] theorem State.advance_mem (s : State) : (s.advance).mem = s.mem := by simp [State.advance]
@[simp] theorem State.advance_memPoison (s : State) : (s.advance).memPoison = s.memPoison := by simp [State.advance]
@[simp] theorem State.advance_cls (s : State) : (s.advance).cls = s.cls := by simp [State.advance]
@[simp] theorem State.advance_clsPoison (s : State) : (s.advance).clsPoison = s.clsPoison := by simp [State.advance]
@[simp] theorem State.advance_pend (s : State) : (s.advance).pend = s.pend := by simp [State.advance]
@[simp] theorem State.advance_torn (s : State) : (s.advance).torn = s.torn := by simp [State.advance]
@[simp] theorem State.advance_stale (s : State) : (s.advance).stale = s.stale := by simp [State.advance]
@[simp] theorem State.advance_tlbs (s : State) : (s.advance).tlbs = s.tlbs := by simp [State.advance]
@[simp] theorem State.advance_quarters (s : State) : (s.advance).quarters = s.quarters := by simp [State.advance]
@[simp] theorem State.advance_launches (s : State) : (s.advance).launches = s.launches := by simp [State.advance]
@[simp] theorem State.advance_nextId (s : State) : (s.advance).nextId = s.nextId := by simp [State.advance]
@[simp] theorem State.advance_cards (s : State) : (s.advance).cards = s.cards := by simp [State.advance]
@[simp] theorem State.advance_gathers (s : State) : (s.advance).gathers = s.gathers := by simp [State.advance]
@[simp] theorem State.advance_kernels (s : State) : (s.advance).kernels = s.kernels := by simp [State.advance]
@[simp] theorem State.advance_sent (s : State) : (s.advance).sent = s.sent := by simp [State.advance]
@[simp] theorem State.advance_seqs (s : State) : (s.advance).seqs = s.seqs := by simp [State.advance]
@[simp] theorem State.advance_windows (s : State) : (s.advance).windows = s.windows := by simp [State.advance]
@[simp] theorem State.advance_parked (s : State) : (s.advance).parked = s.parked := by simp [State.advance]
@[simp] theorem State.advance_xlat (s : State) : (s.advance).xlat = s.xlat := by simp [State.advance]
@[simp] theorem State.advance_serving (s : State) : (s.advance).serving = s.serving := by simp [State.advance]
@[simp] theorem State.advance_host (s : State) : (s.advance).host = s.host := by simp [State.advance]
@[simp] theorem State.advance_owner (s : State) : (s.advance).owner = s.owner := by simp [State.advance]
@[simp] theorem State.advance_ports (s : State) : (s.advance).ports = s.ports := by simp [State.advance]
@[simp] theorem State.advance_regs (s : State) : (s.advance).regs = s.regs := by simp [State.advance]

/-! ## writeS -/

@[simp] theorem State.writeS_turns (s : State) (n : Fin 64) (v : Word) :
    (s.writeS n v).turns = s.turns := by unfold State.writeS; (repeat' split) <;> simp
@[simp] theorem State.writeS_cur (s : State) (n : Fin 64) (v : Word) :
    (s.writeS n v).cur = s.cur := by unfold State.writeS; (repeat' split) <;> simp
@[simp] theorem State.writeS_unit (s : State) (n : Fin 64) (v : Word) :
    (s.writeS n v).unit = s.unit := by unfold State.writeS; (repeat' split) <;> simp
@[simp] theorem State.writeS_order (s : State) (n : Fin 64) (v : Word) :
    (s.writeS n v).order = s.order := by unfold State.writeS; (repeat' split) <;> simp
@[simp] theorem State.writeS_ticks (s : State) (n : Fin 64) (v : Word) :
    (s.writeS n v).ticks = s.ticks := by unfold State.writeS; (repeat' split) <;> simp
@[simp] theorem State.writeS_cores (s : State) (n : Fin 64) (v : Word) :
    (s.writeS n v).cores = s.cores := by unfold State.writeS; (repeat' split) <;> simp
@[simp] theorem State.writeS_mem (s : State) (n : Fin 64) (v : Word) :
    (s.writeS n v).mem = s.mem := by unfold State.writeS; (repeat' split) <;> simp
@[simp] theorem State.writeS_memPoison (s : State) (n : Fin 64) (v : Word) :
    (s.writeS n v).memPoison = s.memPoison := by unfold State.writeS; (repeat' split) <;> simp
@[simp] theorem State.writeS_cls (s : State) (n : Fin 64) (v : Word) :
    (s.writeS n v).cls = s.cls := by unfold State.writeS; (repeat' split) <;> simp
@[simp] theorem State.writeS_clsPoison (s : State) (n : Fin 64) (v : Word) :
    (s.writeS n v).clsPoison = s.clsPoison := by unfold State.writeS; (repeat' split) <;> simp
@[simp] theorem State.writeS_pend (s : State) (n : Fin 64) (v : Word) :
    (s.writeS n v).pend = s.pend := by unfold State.writeS; (repeat' split) <;> simp
@[simp] theorem State.writeS_torn (s : State) (n : Fin 64) (v : Word) :
    (s.writeS n v).torn = s.torn := by unfold State.writeS; (repeat' split) <;> simp
@[simp] theorem State.writeS_stale (s : State) (n : Fin 64) (v : Word) :
    (s.writeS n v).stale = s.stale := by unfold State.writeS; (repeat' split) <;> simp
@[simp] theorem State.writeS_tlbs (s : State) (n : Fin 64) (v : Word) :
    (s.writeS n v).tlbs = s.tlbs := by unfold State.writeS; (repeat' split) <;> simp
@[simp] theorem State.writeS_quarters (s : State) (n : Fin 64) (v : Word) :
    (s.writeS n v).quarters = s.quarters := by unfold State.writeS; (repeat' split) <;> simp
@[simp] theorem State.writeS_launches (s : State) (n : Fin 64) (v : Word) :
    (s.writeS n v).launches = s.launches := by unfold State.writeS; (repeat' split) <;> simp
@[simp] theorem State.writeS_nextId (s : State) (n : Fin 64) (v : Word) :
    (s.writeS n v).nextId = s.nextId := by unfold State.writeS; (repeat' split) <;> simp
@[simp] theorem State.writeS_cards (s : State) (n : Fin 64) (v : Word) :
    (s.writeS n v).cards = s.cards := by unfold State.writeS; (repeat' split) <;> simp
@[simp] theorem State.writeS_gathers (s : State) (n : Fin 64) (v : Word) :
    (s.writeS n v).gathers = s.gathers := by unfold State.writeS; (repeat' split) <;> simp
@[simp] theorem State.writeS_kernels (s : State) (n : Fin 64) (v : Word) :
    (s.writeS n v).kernels = s.kernels := by unfold State.writeS; (repeat' split) <;> simp
@[simp] theorem State.writeS_sent (s : State) (n : Fin 64) (v : Word) :
    (s.writeS n v).sent = s.sent := by unfold State.writeS; (repeat' split) <;> simp
@[simp] theorem State.writeS_seqs (s : State) (n : Fin 64) (v : Word) :
    (s.writeS n v).seqs = s.seqs := by unfold State.writeS; (repeat' split) <;> simp
@[simp] theorem State.writeS_windows (s : State) (n : Fin 64) (v : Word) :
    (s.writeS n v).windows = s.windows := by unfold State.writeS; (repeat' split) <;> simp
@[simp] theorem State.writeS_parked (s : State) (n : Fin 64) (v : Word) :
    (s.writeS n v).parked = s.parked := by unfold State.writeS; (repeat' split) <;> simp
@[simp] theorem State.writeS_xlat (s : State) (n : Fin 64) (v : Word) :
    (s.writeS n v).xlat = s.xlat := by unfold State.writeS; (repeat' split) <;> simp
@[simp] theorem State.writeS_serving (s : State) (n : Fin 64) (v : Word) :
    (s.writeS n v).serving = s.serving := by unfold State.writeS; (repeat' split) <;> simp
@[simp] theorem State.writeS_host (s : State) (n : Fin 64) (v : Word) :
    (s.writeS n v).host = s.host := by unfold State.writeS; (repeat' split) <;> simp
@[simp] theorem State.writeS_owner (s : State) (n : Fin 64) (v : Word) :
    (s.writeS n v).owner = s.owner := by unfold State.writeS; (repeat' split) <;> simp
@[simp] theorem State.writeS_ports (s : State) (n : Fin 64) (v : Word) :
    (s.writeS n v).ports = s.ports := by unfold State.writeS; (repeat' split) <;> simp
@[simp] theorem State.writeS_regs (s : State) (n : Fin 64) (v : Word) :
    (s.writeS n v).regs = s.regs := by unfold State.writeS; (repeat' split) <;> simp

/-! ## writeP -/

@[simp] theorem State.writeP_turns (s : State) (n : Fin 8) (v : Bool) :
    (s.writeP n v).turns = s.turns := by unfold State.writeP; (repeat' split) <;> simp
@[simp] theorem State.writeP_cur (s : State) (n : Fin 8) (v : Bool) :
    (s.writeP n v).cur = s.cur := by unfold State.writeP; (repeat' split) <;> simp
@[simp] theorem State.writeP_unit (s : State) (n : Fin 8) (v : Bool) :
    (s.writeP n v).unit = s.unit := by unfold State.writeP; (repeat' split) <;> simp
@[simp] theorem State.writeP_order (s : State) (n : Fin 8) (v : Bool) :
    (s.writeP n v).order = s.order := by unfold State.writeP; (repeat' split) <;> simp
@[simp] theorem State.writeP_ticks (s : State) (n : Fin 8) (v : Bool) :
    (s.writeP n v).ticks = s.ticks := by unfold State.writeP; (repeat' split) <;> simp
@[simp] theorem State.writeP_cores (s : State) (n : Fin 8) (v : Bool) :
    (s.writeP n v).cores = s.cores := by unfold State.writeP; (repeat' split) <;> simp
@[simp] theorem State.writeP_mem (s : State) (n : Fin 8) (v : Bool) :
    (s.writeP n v).mem = s.mem := by unfold State.writeP; (repeat' split) <;> simp
@[simp] theorem State.writeP_memPoison (s : State) (n : Fin 8) (v : Bool) :
    (s.writeP n v).memPoison = s.memPoison := by unfold State.writeP; (repeat' split) <;> simp
@[simp] theorem State.writeP_cls (s : State) (n : Fin 8) (v : Bool) :
    (s.writeP n v).cls = s.cls := by unfold State.writeP; (repeat' split) <;> simp
@[simp] theorem State.writeP_clsPoison (s : State) (n : Fin 8) (v : Bool) :
    (s.writeP n v).clsPoison = s.clsPoison := by unfold State.writeP; (repeat' split) <;> simp
@[simp] theorem State.writeP_pend (s : State) (n : Fin 8) (v : Bool) :
    (s.writeP n v).pend = s.pend := by unfold State.writeP; (repeat' split) <;> simp
@[simp] theorem State.writeP_torn (s : State) (n : Fin 8) (v : Bool) :
    (s.writeP n v).torn = s.torn := by unfold State.writeP; (repeat' split) <;> simp
@[simp] theorem State.writeP_stale (s : State) (n : Fin 8) (v : Bool) :
    (s.writeP n v).stale = s.stale := by unfold State.writeP; (repeat' split) <;> simp
@[simp] theorem State.writeP_tlbs (s : State) (n : Fin 8) (v : Bool) :
    (s.writeP n v).tlbs = s.tlbs := by unfold State.writeP; (repeat' split) <;> simp
@[simp] theorem State.writeP_quarters (s : State) (n : Fin 8) (v : Bool) :
    (s.writeP n v).quarters = s.quarters := by unfold State.writeP; (repeat' split) <;> simp
@[simp] theorem State.writeP_launches (s : State) (n : Fin 8) (v : Bool) :
    (s.writeP n v).launches = s.launches := by unfold State.writeP; (repeat' split) <;> simp
@[simp] theorem State.writeP_nextId (s : State) (n : Fin 8) (v : Bool) :
    (s.writeP n v).nextId = s.nextId := by unfold State.writeP; (repeat' split) <;> simp
@[simp] theorem State.writeP_cards (s : State) (n : Fin 8) (v : Bool) :
    (s.writeP n v).cards = s.cards := by unfold State.writeP; (repeat' split) <;> simp
@[simp] theorem State.writeP_gathers (s : State) (n : Fin 8) (v : Bool) :
    (s.writeP n v).gathers = s.gathers := by unfold State.writeP; (repeat' split) <;> simp
@[simp] theorem State.writeP_kernels (s : State) (n : Fin 8) (v : Bool) :
    (s.writeP n v).kernels = s.kernels := by unfold State.writeP; (repeat' split) <;> simp
@[simp] theorem State.writeP_sent (s : State) (n : Fin 8) (v : Bool) :
    (s.writeP n v).sent = s.sent := by unfold State.writeP; (repeat' split) <;> simp
@[simp] theorem State.writeP_seqs (s : State) (n : Fin 8) (v : Bool) :
    (s.writeP n v).seqs = s.seqs := by unfold State.writeP; (repeat' split) <;> simp
@[simp] theorem State.writeP_windows (s : State) (n : Fin 8) (v : Bool) :
    (s.writeP n v).windows = s.windows := by unfold State.writeP; (repeat' split) <;> simp
@[simp] theorem State.writeP_parked (s : State) (n : Fin 8) (v : Bool) :
    (s.writeP n v).parked = s.parked := by unfold State.writeP; (repeat' split) <;> simp
@[simp] theorem State.writeP_xlat (s : State) (n : Fin 8) (v : Bool) :
    (s.writeP n v).xlat = s.xlat := by unfold State.writeP; (repeat' split) <;> simp
@[simp] theorem State.writeP_serving (s : State) (n : Fin 8) (v : Bool) :
    (s.writeP n v).serving = s.serving := by unfold State.writeP; (repeat' split) <;> simp
@[simp] theorem State.writeP_host (s : State) (n : Fin 8) (v : Bool) :
    (s.writeP n v).host = s.host := by unfold State.writeP; (repeat' split) <;> simp
@[simp] theorem State.writeP_owner (s : State) (n : Fin 8) (v : Bool) :
    (s.writeP n v).owner = s.owner := by unfold State.writeP; (repeat' split) <;> simp
@[simp] theorem State.writeP_ports (s : State) (n : Fin 8) (v : Bool) :
    (s.writeP n v).ports = s.ports := by unfold State.writeP; (repeat' split) <;> simp
@[simp] theorem State.writeP_regs (s : State) (n : Fin 8) (v : Bool) :
    (s.writeP n v).regs = s.regs := by unfold State.writeP; (repeat' split) <;> simp

/-! ## putS -/

@[simp] theorem State.putS_turns (s : State) (o : Operand) (v : Word) :
    (s.putS o v).turns = s.turns := by cases o <;> simp [State.putS]
@[simp] theorem State.putS_cur (s : State) (o : Operand) (v : Word) :
    (s.putS o v).cur = s.cur := by cases o <;> simp [State.putS]
@[simp] theorem State.putS_unit (s : State) (o : Operand) (v : Word) :
    (s.putS o v).unit = s.unit := by cases o <;> simp [State.putS]
@[simp] theorem State.putS_order (s : State) (o : Operand) (v : Word) :
    (s.putS o v).order = s.order := by cases o <;> simp [State.putS]
@[simp] theorem State.putS_ticks (s : State) (o : Operand) (v : Word) :
    (s.putS o v).ticks = s.ticks := by cases o <;> simp [State.putS]
@[simp] theorem State.putS_cores (s : State) (o : Operand) (v : Word) :
    (s.putS o v).cores = s.cores := by cases o <;> simp [State.putS]
@[simp] theorem State.putS_mem (s : State) (o : Operand) (v : Word) :
    (s.putS o v).mem = s.mem := by cases o <;> simp [State.putS]
@[simp] theorem State.putS_memPoison (s : State) (o : Operand) (v : Word) :
    (s.putS o v).memPoison = s.memPoison := by cases o <;> simp [State.putS]
@[simp] theorem State.putS_cls (s : State) (o : Operand) (v : Word) :
    (s.putS o v).cls = s.cls := by cases o <;> simp [State.putS]
@[simp] theorem State.putS_clsPoison (s : State) (o : Operand) (v : Word) :
    (s.putS o v).clsPoison = s.clsPoison := by cases o <;> simp [State.putS]
@[simp] theorem State.putS_pend (s : State) (o : Operand) (v : Word) :
    (s.putS o v).pend = s.pend := by cases o <;> simp [State.putS]
@[simp] theorem State.putS_torn (s : State) (o : Operand) (v : Word) :
    (s.putS o v).torn = s.torn := by cases o <;> simp [State.putS]
@[simp] theorem State.putS_stale (s : State) (o : Operand) (v : Word) :
    (s.putS o v).stale = s.stale := by cases o <;> simp [State.putS]
@[simp] theorem State.putS_tlbs (s : State) (o : Operand) (v : Word) :
    (s.putS o v).tlbs = s.tlbs := by cases o <;> simp [State.putS]
@[simp] theorem State.putS_quarters (s : State) (o : Operand) (v : Word) :
    (s.putS o v).quarters = s.quarters := by cases o <;> simp [State.putS]
@[simp] theorem State.putS_launches (s : State) (o : Operand) (v : Word) :
    (s.putS o v).launches = s.launches := by cases o <;> simp [State.putS]
@[simp] theorem State.putS_nextId (s : State) (o : Operand) (v : Word) :
    (s.putS o v).nextId = s.nextId := by cases o <;> simp [State.putS]
@[simp] theorem State.putS_cards (s : State) (o : Operand) (v : Word) :
    (s.putS o v).cards = s.cards := by cases o <;> simp [State.putS]
@[simp] theorem State.putS_gathers (s : State) (o : Operand) (v : Word) :
    (s.putS o v).gathers = s.gathers := by cases o <;> simp [State.putS]
@[simp] theorem State.putS_kernels (s : State) (o : Operand) (v : Word) :
    (s.putS o v).kernels = s.kernels := by cases o <;> simp [State.putS]
@[simp] theorem State.putS_sent (s : State) (o : Operand) (v : Word) :
    (s.putS o v).sent = s.sent := by cases o <;> simp [State.putS]
@[simp] theorem State.putS_seqs (s : State) (o : Operand) (v : Word) :
    (s.putS o v).seqs = s.seqs := by cases o <;> simp [State.putS]
@[simp] theorem State.putS_windows (s : State) (o : Operand) (v : Word) :
    (s.putS o v).windows = s.windows := by cases o <;> simp [State.putS]
@[simp] theorem State.putS_parked (s : State) (o : Operand) (v : Word) :
    (s.putS o v).parked = s.parked := by cases o <;> simp [State.putS]
@[simp] theorem State.putS_xlat (s : State) (o : Operand) (v : Word) :
    (s.putS o v).xlat = s.xlat := by cases o <;> simp [State.putS]
@[simp] theorem State.putS_serving (s : State) (o : Operand) (v : Word) :
    (s.putS o v).serving = s.serving := by cases o <;> simp [State.putS]
@[simp] theorem State.putS_host (s : State) (o : Operand) (v : Word) :
    (s.putS o v).host = s.host := by cases o <;> simp [State.putS]
@[simp] theorem State.putS_owner (s : State) (o : Operand) (v : Word) :
    (s.putS o v).owner = s.owner := by cases o <;> simp [State.putS]
@[simp] theorem State.putS_ports (s : State) (o : Operand) (v : Word) :
    (s.putS o v).ports = s.ports := by cases o <;> simp [State.putS]
@[simp] theorem State.putS_regs (s : State) (o : Operand) (v : Word) :
    (s.putS o v).regs = s.regs := by cases o <;> simp [State.putS]

/-! ## putP -/

@[simp] theorem State.putP_turns (s : State) (o : Operand) (v : Bool) :
    (s.putP o v).turns = s.turns := by cases o <;> simp [State.putP]
@[simp] theorem State.putP_cur (s : State) (o : Operand) (v : Bool) :
    (s.putP o v).cur = s.cur := by cases o <;> simp [State.putP]
@[simp] theorem State.putP_unit (s : State) (o : Operand) (v : Bool) :
    (s.putP o v).unit = s.unit := by cases o <;> simp [State.putP]
@[simp] theorem State.putP_order (s : State) (o : Operand) (v : Bool) :
    (s.putP o v).order = s.order := by cases o <;> simp [State.putP]
@[simp] theorem State.putP_ticks (s : State) (o : Operand) (v : Bool) :
    (s.putP o v).ticks = s.ticks := by cases o <;> simp [State.putP]
@[simp] theorem State.putP_cores (s : State) (o : Operand) (v : Bool) :
    (s.putP o v).cores = s.cores := by cases o <;> simp [State.putP]
@[simp] theorem State.putP_mem (s : State) (o : Operand) (v : Bool) :
    (s.putP o v).mem = s.mem := by cases o <;> simp [State.putP]
@[simp] theorem State.putP_memPoison (s : State) (o : Operand) (v : Bool) :
    (s.putP o v).memPoison = s.memPoison := by cases o <;> simp [State.putP]
@[simp] theorem State.putP_cls (s : State) (o : Operand) (v : Bool) :
    (s.putP o v).cls = s.cls := by cases o <;> simp [State.putP]
@[simp] theorem State.putP_clsPoison (s : State) (o : Operand) (v : Bool) :
    (s.putP o v).clsPoison = s.clsPoison := by cases o <;> simp [State.putP]
@[simp] theorem State.putP_pend (s : State) (o : Operand) (v : Bool) :
    (s.putP o v).pend = s.pend := by cases o <;> simp [State.putP]
@[simp] theorem State.putP_torn (s : State) (o : Operand) (v : Bool) :
    (s.putP o v).torn = s.torn := by cases o <;> simp [State.putP]
@[simp] theorem State.putP_stale (s : State) (o : Operand) (v : Bool) :
    (s.putP o v).stale = s.stale := by cases o <;> simp [State.putP]
@[simp] theorem State.putP_tlbs (s : State) (o : Operand) (v : Bool) :
    (s.putP o v).tlbs = s.tlbs := by cases o <;> simp [State.putP]
@[simp] theorem State.putP_quarters (s : State) (o : Operand) (v : Bool) :
    (s.putP o v).quarters = s.quarters := by cases o <;> simp [State.putP]
@[simp] theorem State.putP_launches (s : State) (o : Operand) (v : Bool) :
    (s.putP o v).launches = s.launches := by cases o <;> simp [State.putP]
@[simp] theorem State.putP_nextId (s : State) (o : Operand) (v : Bool) :
    (s.putP o v).nextId = s.nextId := by cases o <;> simp [State.putP]
@[simp] theorem State.putP_cards (s : State) (o : Operand) (v : Bool) :
    (s.putP o v).cards = s.cards := by cases o <;> simp [State.putP]
@[simp] theorem State.putP_gathers (s : State) (o : Operand) (v : Bool) :
    (s.putP o v).gathers = s.gathers := by cases o <;> simp [State.putP]
@[simp] theorem State.putP_kernels (s : State) (o : Operand) (v : Bool) :
    (s.putP o v).kernels = s.kernels := by cases o <;> simp [State.putP]
@[simp] theorem State.putP_sent (s : State) (o : Operand) (v : Bool) :
    (s.putP o v).sent = s.sent := by cases o <;> simp [State.putP]
@[simp] theorem State.putP_seqs (s : State) (o : Operand) (v : Bool) :
    (s.putP o v).seqs = s.seqs := by cases o <;> simp [State.putP]
@[simp] theorem State.putP_windows (s : State) (o : Operand) (v : Bool) :
    (s.putP o v).windows = s.windows := by cases o <;> simp [State.putP]
@[simp] theorem State.putP_parked (s : State) (o : Operand) (v : Bool) :
    (s.putP o v).parked = s.parked := by cases o <;> simp [State.putP]
@[simp] theorem State.putP_xlat (s : State) (o : Operand) (v : Bool) :
    (s.putP o v).xlat = s.xlat := by cases o <;> simp [State.putP]
@[simp] theorem State.putP_serving (s : State) (o : Operand) (v : Bool) :
    (s.putP o v).serving = s.serving := by cases o <;> simp [State.putP]
@[simp] theorem State.putP_host (s : State) (o : Operand) (v : Bool) :
    (s.putP o v).host = s.host := by cases o <;> simp [State.putP]
@[simp] theorem State.putP_owner (s : State) (o : Operand) (v : Bool) :
    (s.putP o v).owner = s.owner := by cases o <;> simp [State.putP]
@[simp] theorem State.putP_ports (s : State) (o : Operand) (v : Bool) :
    (s.putP o v).ports = s.ports := by cases o <;> simp [State.putP]
@[simp] theorem State.putP_regs (s : State) (o : Operand) (v : Bool) :
    (s.putP o v).regs = s.regs := by cases o <;> simp [State.putP]

/-! ## sticky -/

@[simp] theorem State.sticky_turns (s : State) (b : Sticky) (on : Bool) :
    (s.sticky b on).turns = s.turns := by unfold State.sticky; split <;> simp
@[simp] theorem State.sticky_cur (s : State) (b : Sticky) (on : Bool) :
    (s.sticky b on).cur = s.cur := by unfold State.sticky; split <;> simp
@[simp] theorem State.sticky_unit (s : State) (b : Sticky) (on : Bool) :
    (s.sticky b on).unit = s.unit := by unfold State.sticky; split <;> simp
@[simp] theorem State.sticky_order (s : State) (b : Sticky) (on : Bool) :
    (s.sticky b on).order = s.order := by unfold State.sticky; split <;> simp
@[simp] theorem State.sticky_ticks (s : State) (b : Sticky) (on : Bool) :
    (s.sticky b on).ticks = s.ticks := by unfold State.sticky; split <;> simp
@[simp] theorem State.sticky_cores (s : State) (b : Sticky) (on : Bool) :
    (s.sticky b on).cores = s.cores := by unfold State.sticky; split <;> simp
@[simp] theorem State.sticky_mem (s : State) (b : Sticky) (on : Bool) :
    (s.sticky b on).mem = s.mem := by unfold State.sticky; split <;> simp
@[simp] theorem State.sticky_memPoison (s : State) (b : Sticky) (on : Bool) :
    (s.sticky b on).memPoison = s.memPoison := by unfold State.sticky; split <;> simp
@[simp] theorem State.sticky_cls (s : State) (b : Sticky) (on : Bool) :
    (s.sticky b on).cls = s.cls := by unfold State.sticky; split <;> simp
@[simp] theorem State.sticky_clsPoison (s : State) (b : Sticky) (on : Bool) :
    (s.sticky b on).clsPoison = s.clsPoison := by unfold State.sticky; split <;> simp
@[simp] theorem State.sticky_pend (s : State) (b : Sticky) (on : Bool) :
    (s.sticky b on).pend = s.pend := by unfold State.sticky; split <;> simp
@[simp] theorem State.sticky_torn (s : State) (b : Sticky) (on : Bool) :
    (s.sticky b on).torn = s.torn := by unfold State.sticky; split <;> simp
@[simp] theorem State.sticky_stale (s : State) (b : Sticky) (on : Bool) :
    (s.sticky b on).stale = s.stale := by unfold State.sticky; split <;> simp
@[simp] theorem State.sticky_tlbs (s : State) (b : Sticky) (on : Bool) :
    (s.sticky b on).tlbs = s.tlbs := by unfold State.sticky; split <;> simp
@[simp] theorem State.sticky_quarters (s : State) (b : Sticky) (on : Bool) :
    (s.sticky b on).quarters = s.quarters := by unfold State.sticky; split <;> simp
@[simp] theorem State.sticky_launches (s : State) (b : Sticky) (on : Bool) :
    (s.sticky b on).launches = s.launches := by unfold State.sticky; split <;> simp
@[simp] theorem State.sticky_nextId (s : State) (b : Sticky) (on : Bool) :
    (s.sticky b on).nextId = s.nextId := by unfold State.sticky; split <;> simp
@[simp] theorem State.sticky_cards (s : State) (b : Sticky) (on : Bool) :
    (s.sticky b on).cards = s.cards := by unfold State.sticky; split <;> simp
@[simp] theorem State.sticky_gathers (s : State) (b : Sticky) (on : Bool) :
    (s.sticky b on).gathers = s.gathers := by unfold State.sticky; split <;> simp
@[simp] theorem State.sticky_kernels (s : State) (b : Sticky) (on : Bool) :
    (s.sticky b on).kernels = s.kernels := by unfold State.sticky; split <;> simp
@[simp] theorem State.sticky_sent (s : State) (b : Sticky) (on : Bool) :
    (s.sticky b on).sent = s.sent := by unfold State.sticky; split <;> simp
@[simp] theorem State.sticky_seqs (s : State) (b : Sticky) (on : Bool) :
    (s.sticky b on).seqs = s.seqs := by unfold State.sticky; split <;> simp
@[simp] theorem State.sticky_windows (s : State) (b : Sticky) (on : Bool) :
    (s.sticky b on).windows = s.windows := by unfold State.sticky; split <;> simp
@[simp] theorem State.sticky_parked (s : State) (b : Sticky) (on : Bool) :
    (s.sticky b on).parked = s.parked := by unfold State.sticky; split <;> simp
@[simp] theorem State.sticky_xlat (s : State) (b : Sticky) (on : Bool) :
    (s.sticky b on).xlat = s.xlat := by unfold State.sticky; split <;> simp
@[simp] theorem State.sticky_serving (s : State) (b : Sticky) (on : Bool) :
    (s.sticky b on).serving = s.serving := by unfold State.sticky; split <;> simp
@[simp] theorem State.sticky_host (s : State) (b : Sticky) (on : Bool) :
    (s.sticky b on).host = s.host := by unfold State.sticky; split <;> simp
@[simp] theorem State.sticky_owner (s : State) (b : Sticky) (on : Bool) :
    (s.sticky b on).owner = s.owner := by unfold State.sticky; split <;> simp
@[simp] theorem State.sticky_ports (s : State) (b : Sticky) (on : Bool) :
    (s.sticky b on).ports = s.ports := by unfold State.sticky; split <;> simp
@[simp] theorem State.sticky_regs (s : State) (b : Sticky) (on : Bool) :
    (s.sticky b on).regs = s.regs := by unfold State.sticky; split <;> simp

end Sys2Proof.Machine
end

