-- ==== Sys2Proof/Laws/Table.lean ====
section
/-! SUPPORT. What the operations on sparse tables and byte memories do: read after write, the order of the keys, the
canonical form of memory, and sets of numbers. -/

namespace Sys2Proof.Machine

/-! ## Reading after a write -/

@[simp] theorem look_nil {α : Type} (k : Nat) : look ([] : List (Nat × α)) k = none := rfl

@[simp] theorem look_put_same {α : Type} (m : List (Nat × α)) (k : Nat) (v : α) : look (put m k v) k = some v := by
  induction m with
  | nil => simp [put, look]
  | cons x t ih =>
    obtain ⟨a, w⟩ := x
    simp only [put]
    split
    · simp [look]
    · split
      · simp [look]
      · have : a ≠ k := by omega
        simp [look, this, ih]

theorem look_put_ne {α : Type} (m : List (Nat × α)) {k j : Nat} (v : α) (h : j ≠ k) : look (put m k v) j = look m j := by
  induction m with
  | nil => simp [put, look, Ne.symm h]
  | cons x t ih =>
    obtain ⟨a, w⟩ := x
    simp only [put]
    split
    · simp [look, Ne.symm h]
    · split
      · subst_vars; simp [look, Ne.symm h]
      · simp only [look, ih]

@[simp] theorem look_del_same {α : Type} (m : List (Nat × α)) (k : Nat) : look (del m k) k = none := by
  induction m with
  | nil => rfl
  | cons x t ih =>
    simp only [del]
    split <;> simp_all [look]

theorem look_del_ne {α : Type} (m : List (Nat × α)) {k j : Nat} (h : j ≠ k) : look (del m k) j = look m j := by
  induction m with
  | nil => rfl
  | cons x t ih =>
    simp only [del, look]
    split
    · subst_vars; simp [Ne.symm h, ih]
    · simp only [look, ih]

@[simp] theorem lookD_put_same {α : Type} (m : List (Nat × α)) (k : Nat) (v d : α) : lookD (put m k v) k d = v := by
  simp [lookD]
theorem lookD_put_ne {α : Type} (m : List (Nat × α)) {k j : Nat} (v d : α) (h : j ≠ k) :
    lookD (put m k v) j d = lookD m j d := by simp [lookD, look_put_ne m v h]

@[simp] theorem lookD_putOr_same {α : Type} [DecidableEq α] (d v : α) (m : List (Nat × α)) (k : Nat) :
    lookD (putOr d m k v) k d = v := by
  unfold putOr
  split <;> simp_all [lookD]
theorem lookD_putOr_ne {α : Type} [DecidableEq α] (d v : α) (m : List (Nat × α)) {k j : Nat} (h : j ≠ k) :
    lookD (putOr d m k v) j d = lookD m j d := by
  unfold putOr
  split <;> simp [lookD, look_put_ne, look_del_ne, h]

/-! ## The order of the keys -/

/-- Every key of the table is above a bound. -/
def above {α : Type} (n : Nat) (m : List (Nat × α)) : Prop := ∀ x ∈ m, n < x.1

theorem rising_cons {α : Type} (x : Nat × α) (m : List (Nat × α)) :
    rising (x :: m) = true ↔ above x.1 m ∧ rising m = true := by
  induction m generalizing x with
  | nil => simp [rising, above]
  | cons y t ih =>
    obtain ⟨a, w⟩ := x
    obtain ⟨b, u⟩ := y
    simp only [rising, Bool.and_eq_true, decide_eq_true_eq]
    constructor
    · rintro ⟨h, r⟩
      refine ⟨?_, r⟩
      intro z hz
      rcases List.mem_cons.1 hz with rfl | hz
      · exact h
      · exact Nat.lt_trans h (((ih _).1 r).1 z hz)
    · rintro ⟨h, r⟩
      exact ⟨h _ (List.mem_cons_self ..), r⟩

theorem mem_put {α : Type} {m : List (Nat × α)} {k : Nat} {v : α} {x : Nat × α} (h : x ∈ put m k v) :
    x = (k, v) ∨ x ∈ m := by
  induction m with
  | nil => simpa [put] using h
  | cons y t ih =>
    obtain ⟨a, w⟩ := y
    simp only [put] at h
    split at h
    · simpa using h
    · split at h
      · rcases List.mem_cons.1 h with h | h <;> simp [h]
      · rcases List.mem_cons.1 h with h | h
        · simp [h]
        · rcases ih h with h | h <;> simp [h]

theorem mem_del {α : Type} {m : List (Nat × α)} {k : Nat} {x : Nat × α} (h : x ∈ del m k) : x ∈ m ∧ x.1 ≠ k := by
  induction m with
  | nil => simp [del] at h
  | cons y t ih =>
    obtain ⟨a, w⟩ := y
    simp only [del] at h
    split at h
    · exact ⟨List.mem_cons_of_mem _ (ih h).1, (ih h).2⟩
    · rcases List.mem_cons.1 h with rfl | h
      · exact ⟨List.mem_cons_self .., ‹_›⟩
      · exact ⟨List.mem_cons_of_mem _ (ih h).1, (ih h).2⟩

theorem rising_put {α : Type} (m : List (Nat × α)) (k : Nat) (v : α) (h : rising m = true) :
    rising (put m k v) = true := by
  induction m with
  | nil => rfl
  | cons y t ih =>
    obtain ⟨a, w⟩ := y
    have hy := (rising_cons _ _).1 h
    simp only [put]
    split
    · refine (rising_cons _ _).2 ⟨?_, h⟩
      intro z hz
      rcases List.mem_cons.1 hz with rfl | hz
      · assumption
      · exact Nat.lt_trans (by assumption) (hy.1 z hz)
    · split
      · subst_vars; exact (rising_cons _ _).2 hy
      · refine (rising_cons _ _).2 ⟨?_, ih hy.2⟩
        intro z hz
        rcases mem_put hz with rfl | hz
        · show a < k; omega
        · exact hy.1 z hz

theorem rising_del {α : Type} (m : List (Nat × α)) (k : Nat) (h : rising m = true) : rising (del m k) = true := by
  induction m with
  | nil => rfl
  | cons y t ih =>
    have hy := (rising_cons _ _).1 h
    simp only [del]
    split
    · exact ih hy.2
    · exact (rising_cons _ _).2 ⟨fun z hz => hy.1 z (mem_del hz).1, ih hy.2⟩

/-! ## Byte memory -/

@[simp] theorem rdByte_wrByte_same (m : Memory) (a : Nat) (b : Byte) : rdByte (wrByte m a b) a = b := by
  simp [rdByte, wrByte]
theorem rdByte_wrByte_ne (m : Memory) {a c : Nat} (b : Byte) (h : c ≠ a) : rdByte (wrByte m a b) c = rdByte m c := by
  simp [rdByte, wrByte, lookD_putOr_ne, h]

/-- Bytes outside those written are unchanged. -/
theorem rdByte_wrBytes_out (m : Memory) (a c : Nat) (bs : List Byte) (h : c < a ∨ a + bs.length ≤ c) :
    rdByte (wrBytes m a bs) c = rdByte m c := by
  induction bs generalizing m a with
  | nil => rfl
  | cons b t ih =>
    simp only [List.length_cons] at h
    rw [wrBytes, ih _ _ (by omega), rdByte_wrByte_ne _ _ (by omega)]

/-- Bytes written read back. -/
theorem rdByte_wrBytes_in (m : Memory) (a i : Nat) (bs : List Byte) (h : i < bs.length) :
    rdByte (wrBytes m a bs) (a + i) = bs[i] := by
  induction bs generalizing m a i with
  | nil => simp at h
  | cons b t ih =>
    rw [wrBytes]
    cases i with
    | zero => rw [rdByte_wrBytes_out _ _ _ _ (by omega)]; simp
    | succ j =>
      have := ih (wrByte m a b) (a + 1) j (by simpa using h)
      rw [show a + (j + 1) = a + 1 + j by omega, this]
      rfl

theorem rdBytes_length (m : Memory) (a n : Nat) : (rdBytes m a n).length = n := by
  induction n generalizing a with
  | zero => rfl
  | succ n ih => simp [rdBytes, ih]

theorem leBytes_length (n v : Nat) : (leBytes n v).length = n := by
  induction n generalizing v with
  | zero => rfl
  | succ n ih => simp [leBytes, ih]

theorem leVal_lt (bs : List Byte) : leVal bs < 256 ^ bs.length := by
  induction bs with
  | nil => simp [leVal]
  | cons b t ih =>
    have := b.isLt
    simp only [leVal, List.length_cons, Nat.pow_succ]
    omega

/-- The bytes of a value give its remainder modulo their range. -/
theorem leVal_leBytes (n v : Nat) : leVal (leBytes n v) = v % 256 ^ n := by
  induction n generalizing v with
  | zero => simp [leBytes, leVal, Nat.mod_one]
  | succ n ih =>
    rw [leBytes, leVal, ih, Nat.pow_succ, Nat.mul_comm (256 ^ n) 256, Nat.mod_mul]
    simp

/-! ## The canonical form of memory -/

theorem wf_iff (m : Memory) : Memory.wf m = true ↔ rising m = true ∧ ∀ x ∈ m, x.2 ≠ Memory.blank := by
  simp [Memory.wf]

theorem wf_nil : Memory.wf [] = true := rfl

theorem wf_wrByte {m : Memory} (a : Nat) (b : Byte) (h : Memory.wf m = true) : Memory.wf (wrByte m a b) = true := by
  rw [wf_iff] at *
  unfold wrByte putOr
  split
  · exact ⟨rising_del _ _ h.1, fun x hx => h.2 x (mem_del hx).1⟩
  · refine ⟨rising_put _ _ _ h.1, fun x hx => ?_⟩
    rcases mem_put hx with rfl | hx
    · assumption
    · exact h.2 x hx

theorem wf_wrBytes {m : Memory} (a : Nat) (bs : List Byte) (h : Memory.wf m = true) :
    Memory.wf (wrBytes m a bs) = true := by
  induction bs generalizing m a with
  | nil => exact h
  | cons b t ih => exact ih _ (wf_wrByte a b h)

theorem wf_wrVal {m : Memory} (a n v : Nat) (h : Memory.wf m = true) : Memory.wf (wrVal m a n v) = true :=
  wf_wrBytes _ _ h

/-! ## Registers held in vectors -/

theorem vget_eq {α : Type} {n : Nat} (v : Vector α n) (i : Fin n) : v.get i = v[i.val] := rfl
@[simp] theorem vget_set_same {α : Type} {n : Nat} (v : Vector α n) (i : Fin n) (x : α) :
    (v.set i.val x i.isLt).get i = x := by rw [vget_eq]; simp
theorem vget_set_ne {α : Type} {n : Nat} (v : Vector α n) {i j : Fin n} (x : α) (h : j ≠ i) :
    (v.set i.val x i.isLt).get j = v.get j := by
  have : i.val ≠ j.val := fun e => h (Fin.ext e.symm)
  rw [vget_eq, vget_eq]; simp [this]
@[simp] theorem vget_replicate {α : Type} {n : Nat} (x : α) (i : Fin n) : (Vector.replicate n x).get i = x := by
  rw [vget_eq]; simp

/-! ## Sets of numbers -/

@[simp] theorem mem_setAdd (l : List Nat) (k x : Nat) : x ∈ setAdd l k ↔ x = k ∨ x ∈ l := by
  induction l with
  | nil => simp [setAdd]
  | cons a t ih =>
    simp only [setAdd]
    split
    · simp
    · split
      · subst_vars; simp
      · simp only [List.mem_cons, ih]
        constructor <;> rintro (h | h | h) <;> simp [h]

@[simp] theorem mem_setDel (l : List Nat) (k x : Nat) : x ∈ setDel l k ↔ x ∈ l ∧ x ≠ k := by simp [setDel]

end Sys2Proof.Machine
end

