-- ==== Sys2Proof/Laws/Exec.lean ====
section
/-! SUPPORT. What the shared operations of execution answer: the executing context after an update, the guard, the
checks that let an instruction go on, and the outcome of a body that goes on, traps or waits. -/

namespace Sys2Proof.Machine

/-! ## The executing context after an update -/

@[simp] theorem State.ctxAt_setCtxAt_same (s : State) (k : Nat) (c : Ctx) : (s.setCtxAt k c).ctxAt k = c := by
  simp [State.setCtxAt, State.ctxAt]
theorem State.ctxAt_setCtxAt_ne (s : State) {k j : Nat} (c : Ctx) (h : j ≠ k) :
    (s.setCtxAt k c).ctxAt j = s.ctxAt j := by simp [State.setCtxAt, State.ctxAt, lookD_put_ne _ _ _ h]
@[simp] theorem State.ctxAt_modCtxAt_same (s : State) (k : Nat) (f : Ctx → Ctx) :
    (s.modCtxAt k f).ctxAt k = f (s.ctxAt k) := by simp [State.modCtxAt]
theorem State.ctxAt_modCtxAt_ne (s : State) {k j : Nat} (f : Ctx → Ctx) (h : j ≠ k) :
    (s.modCtxAt k f).ctxAt j = s.ctxAt j := by simp [State.modCtxAt, State.ctxAt_setCtxAt_ne _ _ h]

@[simp] theorem State.key_modCtxAt (s : State) (k : Nat) (f : Ctx → Ctx) : (s.modCtxAt k f).key = s.key := rfl
@[simp] theorem State.key_modCtx (s : State) (f : Ctx → Ctx) : (s.modCtx f).key = s.key := rfl
@[simp] theorem State.ctx_modCtx (s : State) (f : Ctx → Ctx) : (s.modCtx f).ctx = f s.ctx := by
  simp [State.modCtx, State.ctx]
@[simp] theorem State.ctx_modRegs (s : State) (f : Regs → Regs) : (s.modRegs f).ctx = s.ctx := rfl
@[simp] theorem State.ctx_modQuarter (s : State) (q : Fin 4) (f : Quarter → Quarter) : (s.modQuarter q f).ctx = s.ctx := rfl
@[simp] theorem State.ctx_modCoreAt (s : State) (n : Nat) (f : Core → Core) : (s.modCoreAt n f).ctx = s.ctx := rfl
@[simp] theorem State.ctx_modCore (s : State) (f : Core → Core) : (s.modCore f).ctx = s.ctx := rfl

@[simp] theorem State.coreAt_setCoreAt_same (s : State) (n : Nat) (c : Core) : (s.setCoreAt n c).coreAt n = c := by
  simp [State.setCoreAt, State.coreAt]
theorem State.coreAt_setCoreAt_ne (s : State) {n j : Nat} (c : Core) (h : j ≠ n) :
    (s.setCoreAt n c).coreAt j = s.coreAt j := by simp [State.setCoreAt, State.coreAt, lookD_put_ne _ _ _ h]
@[simp] theorem State.coreAt_modCoreAt_same (s : State) (n : Nat) (f : Core → Core) :
    (s.modCoreAt n f).coreAt n = f (s.coreAt n) := by simp [State.modCoreAt]
theorem State.coreAt_modCoreAt_ne (s : State) {n j : Nat} (f : Core → Core) (h : j ≠ n) :
    (s.modCoreAt n f).coreAt j = s.coreAt j := by simp [State.modCoreAt, State.coreAt_setCoreAt_ne _ _ h]
@[simp] theorem State.core_modCore (s : State) (f : Core → Core) : (s.modCore f).core = f s.core := by
  simp [State.modCore, State.core]
@[simp] theorem State.core_modCtx (s : State) (f : Ctx → Ctx) : (s.modCtx f).core = s.core := rfl
@[simp] theorem State.core_modCtxAt (s : State) (k : Nat) (f : Ctx → Ctx) : (s.modCtxAt k f).core = s.core := rfl

@[simp] theorem State.quarter_modQuarter_same (s : State) (q : Fin 4) (f : Quarter → Quarter) :
    (s.modQuarter q f).quarter q = f (s.quarter q) := by
  simp [State.modQuarter, State.quarter]
theorem State.quarter_modQuarter_ne (s : State) {q r : Fin 4} (f : Quarter → Quarter) (h : r ≠ q) :
    (s.modQuarter q f).quarter r = s.quarter r := by
  simp [State.modQuarter, State.quarter, vget_set_ne _ _ h]
@[simp] theorem State.quarter_modCtx (s : State) (q : Fin 4) (f : Ctx → Ctx) : (s.modCtx f).quarter q = s.quarter q := rfl
@[simp] theorem State.quarter_modCtxAt (s : State) (q : Fin 4) (k : Nat) (f : Ctx → Ctx) :
    (s.modCtxAt k f).quarter q = s.quarter q := rfl

/-! ## Registers -/

@[simp] theorem State.readS_zero (s : State) : s.readS 0 = 0 := by simp [State.readS]
@[simp] theorem State.readP_zero (s : State) : s.readP 0 = true := by simp [State.readP]
@[simp] theorem State.writeS_zero (s : State) (v : Word) : s.writeS 0 v = s := by simp [State.writeS]
@[simp] theorem State.writeP_zero (s : State) (v : Bool) : s.writeP 0 v = s := by simp [State.writeP]

/-- Outside a body, a scalar register other than s0 is written in the context. -/
theorem State.writeS_out (s : State) (n : Fin 64) (v : Word) (h : s.inBody = false) (hn : n ≠ 0) :
    s.writeS n v = s.modCtx fun c => { c with s := c.s.set n v n.isLt } := by simp [State.writeS, h, hn]
theorem State.writeP_out (s : State) (n : Fin 8) (v : Bool) (h : s.inBody = false) (hn : n ≠ 0) :
    s.writeP n v = s.modCtx fun c => { c with p := c.p.set n v n.isLt } := by simp [State.writeP, h, hn]

/-- A guard on p0 that is not negated holds. -/
theorem State.guard_always (s : State) (c : Ctl) (hp : c.gp = 0) (hn : c.gn = false) : s.guard c = true := by
  simp [State.guard, hp, hn]

/-! ## Outcomes -/

@[simp] theorem settle_ok (s : State) : settle (.ok s) = .next s := rfl
@[simp] theorem settle_trap (t : Trap) (s : State) : settle (.error (.trap t s)) = .next (s.takeTrap t) := rfl
@[simp] theorem settle_wait (s : State) : settle (.error (.wait s)) = .next s := rfl

/-- A settled result is always a next state. -/
theorem settle_next (r : Act State) : ∃ t, settle r = .next t := by
  match r with
  | .ok s => exact ⟨s, rfl⟩
  | .error (.trap t s) => exact ⟨s.takeTrap t, rfl⟩
  | .error (.wait s) => exact ⟨s, rfl⟩

theorem run_true {c : Ctl} {s : State} (body : State → Act State) (h : s.guard c = true) :
    run c s body = settle (body s) := by simp [run, h]
theorem run_false {c : Ctl} {s : State} (body : State → Act State) (h : s.guard c = false) :
    run c s body = .next s.advance := by simp [run, h]
/-- An instruction that runs a body answers a next state. -/
theorem run_next (c : Ctl) (s : State) (body : State → Act State) : ∃ t, run c s body = .next t := by
  unfold run
  split
  · exact settle_next _
  · exact ⟨_, rfl⟩

@[simp] theorem act_ok_bind {α β : Type} (a : α) (f : α → Act β) : ((Except.ok a : Act α) >>= f) = f a := rfl
@[simp] theorem act_error_bind {α β : Type} (e : Stop) (f : α → Act β) : ((Except.error e : Act α) >>= f) = .error e := rfl

/-- From a bind that goes on, the first action went on. -/
theorem act_bind_ok {α β : Type} {x : Act α} {f : α → Act β} {b : β} (h : (x >>= f) = .ok b) :
    ∃ a, x = .ok a ∧ f a = .ok b := by
  cases x with
  | ok a => exact ⟨a, rfl, h⟩
  | error e => exact absurd h (by simp)

/-! ## Checks -/

/-- The destination check of R87 lets an instruction go on. -/
theorem checkDest_ok {s : State} {d : Operand} (h : s.inBody = true → isShared d = false) : s.checkDest d = .ok () := by
  unfold State.checkDest
  split
  · simp_all
  · rfl
theorem checkDest_body {s : State} {d : Operand} (h : s.inBody = true) (hd : isShared d = true) :
    s.checkDest d = trapField s .operandClass d := by simp [State.checkDest, h, hd]
theorem outsideBody_ok {s : State} {d : Operand} (h : s.inBody = false) : s.outsideBody d = .ok () := by
  simp [State.outsideBody, h]
theorem target_ok {s : State} {t : Word} (h : targetCause t = none) : s.target t = .ok t := by simp [State.target, h]
theorem target_trap {s : State} {t : Word} {e : Cause} (h : targetCause t = some e) : s.target t = raise s e t := by
  simp [State.target, h]

end Sys2Proof.Machine
end

