-- ==== Sys2Proof/Laws/Vector.lean ====
section
/-! SUPPORT. What the shared operations of vector forms answer once their checks pass, and what writing lanes and tags
leaves of a row. -/

namespace Sys2Proof.Machine

/-! ## Pops and checks -/

/-- Sources that are not in stream mode are read without a pop (R239, R240). -/
theorem popAll_plain {s : State} {ops : List Operand} (hp : (s.strip?.map Strip.popped).getD false = false)
    (h : ∀ r ∈ streamRegs ops, s.ctx.streams.get r = none) : s.popAll ops = .ok s := by
  have hf : ∀ l : List (Fin 4), (∀ r ∈ l, s.ctx.streams.get r = none) → l.foldlM State.pop s = (.ok s : Act State) := by
    intro l hl
    induction l with
    | nil => rfl
    | cons r t ih =>
      have h1 : s.pop r = .ok s := by simp [State.pop, hl r (by simp)]
      rw [List.foldlM_cons, h1]
      exact ih fun x hx => hl x (by simp [hx])
  unfold State.popAll
  rw [hf _ h]
  simp [hp, undo]

theorem scrubStart_ok {s : State} (hs : s.ctx.scrub = none) : s.scrubStart = .ok () := by
  simp [State.scrubStart, hs]
theorem vecStart_ok {s : State} {i : Instr} (hs : s.ctx.scrub = none) (hw : s.ctx.win.cn ≠ 0) : s.vecStart i = .ok () := by
  simp [State.vecStart, scrubStart_ok hs, hw]
theorem checkStream_ok {s : State} {o : Operand} {i : Instr}
    (h : 28 ≤ (vreg o).val → s.ctx.streams.get (Fin.ofNat 4 ((vreg o).val - 28)) = none) : s.checkStream o i = .ok () := by
  unfold State.checkStream
  dsimp only
  split
  · rename_i hc
    simp only [Bool.and_eq_true, decide_eq_true_eq] at hc
    rw [h hc.1] at hc
    simp at hc
  · rfl
theorem checkRmSat_ok {s : State} {i : Instr} {rmUsed satOk sat : Bool} {rm : RMode} (hr : rm = .rne ∨ rmUsed = true)
    (hs : sat = true → satOk = true) : s.checkRmSat i rmUsed satOk rm sat = .ok () := by
  unfold State.checkRmSat
  rw [if_neg]
  rcases hr with rfl | rfl <;> cases sat <;> simp_all

/-! ## Lanewise forms -/

section
variable {s u : State} {i : Instr} {f : FR} {d a b : Fld}

theorem lanewise_ok {o : Operand} {m : Fin 6} {srcs : List (Operand × Fld)} (op : Nat → BitVec 512 → BitVec 32 → Rounded)
    (h1 : s.checkOverlap o d (srcs.map Prod.snd) = .ok ()) (h2 : s.checkStream o i = .ok ())
    (h3 : s.popAll (srcs.map Prod.fst) = .ok u) : s.lanewise i o m d srcs op = .ok (u.mapLanes m d op).advance := by
  simp [State.lanewise, h1, h2, h3]
theorem tagwise_ok {o : Operand} {m : Fin 6} {srcs : List Operand} (op : Nat → BitVec 512 → Bool)
    (h : s.popAll srcs = .ok u) : s.tagwise o m srcs op = .ok (u.mapTags m (mreg o) op).advance := by
  simp [State.tagwise, h]

theorem int1_ok (op : Fld → Fld → BitVec 512 → Int) (h0 : s.vecStart i = .ok ())
    (hd : s.field f.opd f.ta f.wid.toNat .int = .ok d) (ha : s.field f.opa f.ta f.wid.toNat .int = .ok a)
    (h1 : s.checkOverlap f.opd d [a] = .ok ()) (h2 : s.checkStream f.opd i = .ok ()) (h3 : s.popAll [f.opa] = .ok u) :
    int1 i f op s = .ok (u.mapLanes f.msk d fun _ r st => fitTo d.ty f.sat (op d a r) st).advance := by
  simp only [int1, h0, hd, ha, act_ok_bind]
  exact lanewise_ok _ h1 h2 h3

theorem int2_ok (op : Fld → Fld → Fld → Nat → BitVec 512 → Int) (h0 : s.vecStart i = .ok ())
    (hd : s.field f.opd f.ta f.wid.toNat .int = .ok d) (ha : s.field f.opa f.ta f.wid.toNat .int = .ok a)
    (hb : s.field f.opb f.tb 0 .int = .ok b) (h1 : s.checkOverlap f.opd d [a, b] = .ok ())
    (h2 : s.checkStream f.opd i = .ok ()) (h3 : s.popAll [f.opa, f.opb] = .ok u) :
    int2 i f op s = .ok (u.mapLanes f.msk d fun p r st => fitTo d.ty f.sat (op d a b p r) st).advance := by
  simp only [int2, h0, hd, ha, hb, act_ok_bind]
  exact lanewise_ok _ h1 h2 h3

theorem bitwise_ok (op : Nat → Nat → Nat) (h0 : s.vecStart i = .ok ())
    (hd : s.field f.opd f.ta f.wid.toNat .int = .ok d) (ha : s.field f.opa f.ta f.wid.toNat .int = .ok a)
    (hb : s.field f.opb f.tb 0 .int = .ok b) (h1 : s.checkOverlap f.opd d [a, b] = .ok ())
    (h2 : s.checkStream f.opd i = .ok ()) (h3 : s.popAll [f.opa, f.opb] = .ok u) :
    bitwise i f op s = .ok (u.mapLanes f.msk d fun _ r st =>
      pattern d.width (op (a.extended d.width r) (b.extended d.width r)) st).advance := by
  simp only [bitwise, h0, hd, ha, hb, act_ok_bind]
  exact lanewise_ok _ h1 h2 h3

theorem flt1_ok (op : Num → Num) (h0 : s.vecStart i = .ok ()) (hd : s.field f.opd f.ta 0 .flt = .ok d)
    (ha : s.field f.opa f.ta 0 .flt = .ok a) (hs : f.sat = true → satType d.ty = true)
    (h1 : s.checkOverlap f.opd d [a] = .ok ()) (h2 : s.checkStream f.opd i = .ok ()) (h3 : s.popAll [f.opa] = .ok u) :
    flt1 i f op s =
      .ok (u.mapLanes f.msk d fun _ r st => roundTo d.ty (s.rm f.rm) f.sat (op (a.num r)) st).advance := by
  simp only [flt1, h0, hd, ha, checkRmSat_ok (.inr rfl) hs, act_ok_bind]
  exact lanewise_ok _ h1 h2 h3

theorem flt2_ok (op : Bool → Num → Num → Num → Num) (h0 : s.vecStart i = .ok ())
    (hd : s.field f.opd f.ta 0 .flt = .ok d) (ha : s.field f.opa f.ta 0 .flt = .ok a)
    (hb : s.field f.opb f.tb 0 .flt = .ok b) (hs : f.sat = true → satType d.ty = true)
    (h1 : s.checkOverlap f.opd d [a, b] = .ok ()) (h2 : s.checkStream f.opd i = .ok ())
    (h3 : s.popAll [f.opa, f.opb] = .ok u) :
    flt2 i f op s = .ok (u.mapLanes f.msk d fun _ r st =>
      roundTo d.ty (s.rm f.rm) f.sat (op (s.rm f.rm == .rdn) (d.num r) (a.num r) (b.num r)) st).advance := by
  simp only [flt2, h0, hd, ha, hb, checkRmSat_ok (.inr rfl) hs, act_ok_bind]
  exact lanewise_ok _ h1 h2 h3

end

/-! ## Rows -/

@[simp] theorem row_setRow_same (c : Core) (l : Nat) (r : BitVec 512) : (c.setRow l r).row l = r := by
  simp [Core.setRow, Core.row]
theorem row_setRow_ne (c : Core) {l j : Nat} (r : BitVec 512) (h : j ≠ l) : (c.setRow l r).row j = c.row j := by
  simp [Core.setRow, Core.row, lookD_putOr_ne _ _ _ h]

/-- Lanes of a lane group are numbered apart. -/
theorem lane_inj {s : State} {i j : Nat} (h : s.lane i = s.lane j) : i = j := by
  simp only [State.lane] at h; omega

/-- Bits of a row after a field was written. -/
theorem getLsbD_setRowBits (r : BitVec 512) (col w v b : Nat) (h : b < 512) :
    (setRowBits r col w v).getLsbD b =
      if col ≤ b ∧ b < col + w then v.testBit (b - col) else r.getLsbD b := by
  simp only [setRowBits, BitVec.getLsbD_or, BitVec.getLsbD_and, BitVec.getLsbD_not, BitVec.getLsbD_ofNat, h,
    decide_true, Bool.true_and, Nat.testBit_mul_two_pow, Nat.testBit_two_pow_sub_one, Nat.testBit_mod_two_pow]
  by_cases h1 : col ≤ b <;> by_cases h2 : b - col < w <;> simp [h1, h2] <;> (try omega)

/-- What writing lanes leaves of a core: rows alone, the field of each position as given, and every other row as it was. -/
theorem putLanes_spec (s : State) (f : Fld) (vs : List (Nat × Nat)) (h : vs.Pairwise fun x y => x.1 ≠ y.1) :
    ∃ rows, s.putLanes f vs = s.modCore (fun k => { k with rows := rows }) ∧
      (∀ x ∈ vs, lookD rows (s.lane x.1) 0 = setRowBits (s.core.row (s.lane x.1)) f.col f.width x.2) ∧
      ∀ l, (∀ x ∈ vs, s.lane x.1 ≠ l) → lookD rows l 0 = s.core.row l := by
  have key : ∀ (vs : List (Nat × Nat)) (c : Core), vs.Pairwise (fun x y => x.1 ≠ y.1) →
      ∃ rows, vs.foldl (fun c x => c.setRow (s.lane x.1) (setRowBits (c.row (s.lane x.1)) f.col f.width x.2)) c =
        { c with rows := rows } ∧
      (∀ x ∈ vs, lookD rows (s.lane x.1) 0 = setRowBits (c.row (s.lane x.1)) f.col f.width x.2) ∧
      ∀ l, (∀ x ∈ vs, s.lane x.1 ≠ l) → lookD rows l 0 = c.row l := by
    intro vs
    induction vs with
    | nil => intro c _; exact ⟨c.rows, rfl, by simp, fun l _ => rfl⟩
    | cons a t ih =>
      intro c hp
      obtain ⟨h1, h2⟩ := List.pairwise_cons.1 hp
      obtain ⟨rows, e, hin, hout⟩ := ih (c.setRow (s.lane a.1) (setRowBits (c.row (s.lane a.1)) f.col f.width a.2)) h2
      refine ⟨rows, e, ?_, ?_⟩
      · intro x hx
        rcases List.mem_cons.1 hx with rfl | hx
        · rw [hout _ fun y hy he => h1 y hy (lane_inj he).symm, row_setRow_same]
        · rw [hin x hx, row_setRow_ne _ _ fun he => h1 x hx (lane_inj he).symm]
      · intro l hl
        rw [hout l fun x hx => hl x (List.mem_cons_of_mem _ hx), row_setRow_ne _ _ (Ne.symm (hl a (by simp)))]
  obtain ⟨rows, e, h2⟩ := key vs s.core h
  refine ⟨rows, ?_, h2⟩
  simp only [State.putLanes, State.modCore, State.modCoreAt, State.core] at e ⊢
  rw [e]

theorem mem_active (s : State) (m : Fin 6) (i : Nat) :
    i ∈ s.active m ↔ i < s.slen ∧ tagOf s.cur.lc s.slen m i (s.core.row (s.lane i)) = true := by
  simp [State.active]

end Sys2Proof.Machine
end

