-- ==== Sys2Proof/Tests/Slice0.lean ====
section
/-! SUPPORT. The model's own tests: words of every form decoded, ill-formed instructions refused, and for every
statement of the obligations states and operands that meet its hypotheses. -/

namespace Sys2Proof.Tests

set_option Elab.async false

open Sys2Proof Sys2Proof.Machine Sys2Proof.Claims

/-! ## Words (Tables 2-2 to 2-7 and 3-2 to 3-5) -/

/-- Guard and hints: none, those of Table 2-12, and others. -/
def k : Ctl := { gn := false, gp := 0, stall := 0, hyield := false, chain := false, lasta := false, lastb := false }
def g : Ctl := { gn := true, gp := 3, stall := 1, hyield := false, chain := true, lasta := false, lastb := false }
def q : Ctl := { gn := false, gp := 5, stall := 9, hyield := true, chain := false, lasta := true, lastb := true }

/-- Fields of a format. -/
def rr (d a b : Operand) (ta tb : Ty := .fm) (wid : BitVec 6 := 0) (rm : RMode := .rne) (sat : Bool := false)
    (msk : Fin 6 := 0) (sub : BitVec 5 := 0) : FR :=
  { opd := d, opa := a, opb := b, ta := ta, tb := tb, wid := wid, rm := rm, sat := sat, msk := msk, sub := sub }
def ri (d : Operand) (imm : BitVec 40) : FI := { opd := d, opa := .s 0, imm := imm }
def rb (d a : Operand) (pd : BitVec 36) (ts : Fin 10) : FB := { opd := d, opa := a, pdisp := pd, tslot := ts }
def rm (d a b : Operand) (ta : Ty := .fm) (ff ph nt : Bool := false) (disp : BitVec 12 := 0) (msk : Fin 6 := 0)
    (scope : Scope := .none) : FM :=
  { opd := d, opa := a, opb := b, ta := ta, ff := ff, ph := ph, nt := nt, disp := disp, msk := msk, scope := scope }
def re (d a b : Operand) (nreg : BitVec 4) (scope : Scope) (parm : BitVec 19) : FE :=
  { opd := d, opa := a, opb := b, nreg := nreg, scope := scope, parm := parm }
def rx (d a b : Operand) (x y : BitVec 10) (msk : Fin 6) (sub : BitVec 5) : FX :=
  { opd := d, opa := a, opb := b, xf := x, yf := y, msk := msk, sub := sub }

/-- Every word decodes to the instruction beside it, which is well-formed and encodes to the word. -/
def wordsMean (l : List (BitVec 96 × Instr)) : Bool :=
  l.all fun x => wf x.2 && encode x.2 == .core x.1 &&
    match decode x.1 with
    | .ok i => i == x.2
    | .error _ => false

theorem test_decode_control : wordsMean [
    (0x000166C00000000000000000, .nop q (rr (.s 0) (.s 0) (.s 0))),
    (0x01000000000000FFFFFFFFD9, .br k (rb (.s 0) (.s 0) 0xFFFFFFFFD 9)),
    (0x0200000001F0000000000051, .call k (rb (.s 31) (.s 0) 0x5 1)),
    (0x030000000000070000000000, .brr k (rr (.s 0) (.s 7) (.s 0))),
    (0x0304000001F0070000000000, .callr k (rr (.s 31) (.s 7) (.s 0))),
    (0x0308000000001F0000000000, .ret k (rr (.s 0) (.s 31) (.s 0))),
    (0x040000000000090000000023, .vloop k (rb (.s 0) (.s 9) 0x2 3)),
    (0x05000000000000FFFFFFFFF4, .vend k (rb (.s 0) (.s 0) 0xFFFFFFFFF 4)),
    (0x0602C5000000000000000000, .vbreak g (rr (.s 0) (.s 0) (.s 0))),
    (0x070000000000000000000000, .exit k (rr (.s 0) (.s 0) (.s 0))),
    (0x070400000000000000000000, .yield k (rr (.s 0) (.s 0) (.s 0))),
    (0x08000000000000123456789A, .trap k (ri (.s 0) 0x123456789A)),
    (0x080400000000000000000007, .brk k (ri (.s 0) 0x7)),
    (0x090000000000000000000000, .rfe k (rr (.s 0) (.s 0) (.s 0)))] = true := by decide +kernel

theorem test_decode_scalar : wordsMean [
    (0x10000000003004BFB0808100, .add k (rr (.s 3) (.s 4) (.imm 251) (ta := .i) (wid := 8) (sat := true))),
    (0x10040000003004BFB1000000, .sub k (rr (.s 3) (.s 4) (.imm 251) (ta := .n))),
    (0x1008000003F001002083F000, .mul k (rr (.s 63) (.s 1) (.s 2) (ta := .i) (wid := 63))),
    (0x100C0000003004BFB0000000, .mulh k (rr (.s 3) (.s 4) (.imm 251))),
    (0x10100000003004BFB0000000, .mulhn k (rr (.s 3) (.s 4) (.imm 251))),
    (0x10140000003004BFB0000000, .div k (rr (.s 3) (.s 4) (.imm 251))),
    (0x10180000003004BFB0000000, .divn k (rr (.s 3) (.s 4) (.imm 251))),
    (0x101C0000003004BFB0000000, .rem k (rr (.s 3) (.s 4) (.imm 251))),
    (0x10200000003004BFB0000000, .remn k (rr (.s 3) (.s 4) (.imm 251))),
    (0x11000000003004BFB0000000, .and k (rr (.s 3) (.s 4) (.imm 251))),
    (0x11040000003004BFB0000000, .or k (rr (.s 3) (.s 4) (.imm 251))),
    (0x11080000003004BFB0000000, .xor k (rr (.s 3) (.s 4) (.imm 251))),
    (0x110C0000003004BFB0000000, .andn k (rr (.s 3) (.s 4) (.imm 251))),
    (0x12000000003004BFB0000000, .shl k (rr (.s 3) (.s 4) (.imm 251))),
    (0x12040000003004BFB0000000, .shr k (rr (.s 3) (.s 4) (.imm 251))),
    (0x12080000003004BFB0000000, .sar k (rr (.s 3) (.s 4) (.imm 251))),
    (0x120C0000003004BFB0000000, .rot k (rr (.s 3) (.s 4) (.imm 251))),
    (0x13000000003004BFB0000000, .min k (rr (.s 3) (.s 4) (.imm 251))),
    (0x13040000003004BFB0000000, .max k (rr (.s 3) (.s 4) (.imm 251))),
    (0x13080000003004BFB0000000, .minn k (rr (.s 3) (.s 4) (.imm 251))),
    (0x130C0000003004BFB0000000, .maxn k (rr (.s 3) (.s 4) (.imm 251))),
    (0x140000000030040000000000, .clz k (rr (.s 3) (.s 4) (.s 0))),
    (0x140400000030040000000000, .ctz k (rr (.s 3) (.s 4) (.s 0))),
    (0x140800000030040000000000, .popc k (rr (.s 3) (.s 4) (.s 0))),
    (0x140C0000003004BFB0000000, .sext k (rr (.s 3) (.s 4) (.imm 251))),
    (0x150000000030040000F00401, .bext k (rx (.s 3) (.s 4) (.s 0) 60 4 0 1)),
    (0x150400000030040000004000, .bins k (rx (.s 3) (.s 4) (.s 0) 0 64 0 0)),
    (0x16000000005000FFFFFFFFFF, .li k (ri (.s 5) 0xFFFFFFFFFF)),
    (0x170000000050000000ABCDEF, .lih k (ri (.s 5) 0xABCDEF)),
    (0x18000000001B800000000000, .mov k (rr (.s 1) (.imm 128) (.s 0))),
    (0x180400000010020030000007, .sel k (rr (.s 1) (.s 2) (.s 3) (sub := 7))),
    (0x19000000003004BFB0000000, .hmix k (rr (.s 3) (.s 4) (.imm 251)))] = true := by decide +kernel

theorem test_decode_scalar_float : wordsMean [
    (0x2000000000300400541C0A00, .sfadd k (rr (.s 3) (.s 4) (.s 5) (ta := .f32) (tb := .bf16) (rm := .rsto))),
    (0x200400000030040051980100, .sfmul k (rr (.s 3) (.s 4) (.s 5) (ta := .e4m3) (tb := .f16) (sat := true))),
    (0x200800000030040054200C00, .sffma k (rr (.s 3) (.s 4) (.s 5) (ta := .f32) (tb := .f32) (rm := .dyn))),
    (0x200C00003030040053180007, .sfcmp k (rr (.p 3) (.s 4) (.s 5) (ta := .f16) (tb := .f16) (sub := 7))),
    (0x201000000030040000A00300, .sfcvt k (rr (.s 3) (.s 4) (.s 0) (ta := .i) (tb := .f32) (rm := .rtz) (sat := true))),
    (0x2014000000300400539C0001, .sfmm k (rr (.s 3) (.s 4) (.s 5) (ta := .bf16) (tb := .bf16) (sub := 1)))] = true := by decide +kernel

theorem test_decode_predicate_pointer : wordsMean [
    (0x300000003030080090800002, .cmp k (rr (.p 3) (.s 8) (.s 9) (ta := .i) (sub := 2))),
    (0x310000003013023030000000, .pand k (rr (.p 1) (.p 2) (.p 3))),
    (0x310400003013023030000000, .por k (rr (.p 1) (.p 2) (.p 3))),
    (0x310800003013023030000000, .pxor k (rr (.p 1) (.p 2) (.p 3))),
    (0x310C00003013020000000000, .pnot k (rr (.p 1) (.p 2) (.s 0))),
    (0x311000003012050000000000, .pany k (rr (.p 1) (.m 5) (.s 0))),
    (0x36000000001A3F0000000000, .mfc k (rr (.s 1) (.cr 63) (.s 0))),
    (0x36040000A0B0010000000000, .mtc k (rr (.cr 11) (.s 1) (.s 0))),
    (0x380000003010020000000005, .spt k (rr (.p 1) (.s 2) (.s 0) (sub := 5))),
    (0x380400000010020000000004, .spc k (rr (.s 1) (.s 2) (.s 0) (sub := 4))),
    (0x380800000010020000000000, .spid k (rr (.s 1) (.s 2) (.s 0))),
    (0x39000000001002B7F0000000, .spmk k (rr (.s 1) (.s 2) (.imm 127)))] = true := by decide +kernel

theorem test_decode_vector_setup : wordsMean [
    (0x4000000011F0020000000000, .vfmap k (rr (.v 31) (.s 2) (.s 0))),
    (0x410000004020020030000000, .vdim k (rr (.d 2) (.s 2) (.s 3))),
    (0x4200000010400000010201A0, .vsid k (rr (.v 4) (.s 0) (.s 0) (ta := .n) (wid := 32) (sat := true) (msk := 5))),
    (0x43000000104B030040800000, .vidx k (rr (.v 4) (.imm 3) (.s 4) (ta := .i))),
    (0x440000001040060004040620, .vbcast k (rr (.v 4) (.s 6) (.s 0) (ta := .f32) (tb := .i) (rm := .rup) (msk := 1)))] = true := by decide +kernel

theorem test_decode_vector_integer : wordsMean [
    (0x4802C5001051021070848040, .vadd g (rr (.v 5) (.v 2) (.v 7) (ta := .i) (tb := .i) (wid := 8) (msk := 2))),
    (0x480400001051021070000000, .vsub k (rr (.v 5) (.v 2) (.v 7))),
    (0x48080000105102BFF0000000, .vadds k (rr (.v 5) (.v 2) (.imm 255))),
    (0x480C00001051020090000000, .vsubs k (rr (.v 5) (.v 2) (.s 9))),
    (0x481000001051020000000000, .vneg k (rr (.v 5) (.v 2) (.s 0))),
    (0x481400001051020000000100, .vabs k (rr (.v 5) (.v 2) (.s 0) (sat := true))),
    (0x49000000105102107104C100, .vmul k (rr (.v 5) (.v 2) (.v 7) (ta := .n) (tb := .i) (wid := 12) (sat := true))),
    (0x490400001051021070000000, .vmulh k (rr (.v 5) (.v 2) (.v 7))),
    (0x490800001051021070000000, .vmac k (rr (.v 5) (.v 2) (.v 7))),
    (0x4A0000001051021070000000, .vmin k (rr (.v 5) (.v 2) (.v 7))),
    (0x4A0400001051021070000000, .vmax k (rr (.v 5) (.v 2) (.v 7))),
    (0x4B0000001051021070000000, .vand k (rr (.v 5) (.v 2) (.v 7))),
    (0x4B0400001051021070000000, .vor k (rr (.v 5) (.v 2) (.v 7))),
    (0x4B0800001051021070000000, .vxor k (rr (.v 5) (.v 2) (.v 7))),
    (0x4B0C00001051020000000000, .vnot k (rr (.v 5) (.v 2) (.s 0))),
    (0x4C0000001051021070000000, .vshl k (rr (.v 5) (.v 2) (.v 7))),
    (0x4C0400001051020010000000, .vshr k (rr (.v 5) (.v 2) (.s 1))),
    (0x4C080000105102B030000000, .vsar k (rr (.v 5) (.v 2) (.imm 3))),
    (0x4D000000201102B001000004, .vcmp k (rr (.m 1) (.v 2) (.imm 0) (ta := .n) (sub := 4))),
    (0x4E0000001051021070000003, .vsel k (rr (.v 5) (.v 2) (.v 7) (sub := 3))),
    (0x4E0400001051020000000080, .vmov k (rr (.v 5) (.v 2) (.s 0) (msk := 4))),
    (0x4F0000001051020000890100, .vcvt k (rr (.v 5) (.v 2) (.s 0) (ta := .i) (tb := .n) (wid := 16) (sat := true))),
    (0x500000001051020000000000, .vpopc k (rr (.v 5) (.v 2) (.s 0))),
    (0x500400001051020000000000, .vclz k (rr (.v 5) (.v 2) (.s 0))),
    (0x51000000105102000FFC4061, .vbext k (rx (.v 5) (.v 2) (.s 0) 1023 64 3 1))] = true := by decide +kernel

theorem test_decode_vector_float : wordsMean [
    (0x700000001051021074180200, .vfadd k (rr (.v 5) (.v 2) (.v 7) (ta := .f32) (tb := .f16) (rm := .rtz))),
    (0x700400001051021074180000, .vfsub k (rr (.v 5) (.v 2) (.v 7) (ta := .f32) (tb := .f16))),
    (0x700800001051021074180000, .vfmul k (rr (.v 5) (.v 2) (.v 7) (ta := .f32) (tb := .f16))),
    (0x700C00001051021074180000, .vffma k (rr (.v 5) (.v 2) (.v 7) (ta := .f32) (tb := .f16))),
    (0x701000001051021074180001, .vfmm k (rr (.v 5) (.v 2) (.v 7) (ta := .f32) (tb := .f16) (sub := 1))),
    (0x710000002021021073900006, .vfcmp k (rr (.m 2) (.v 2) (.v 7) (ta := .bf16) (tb := .e5m2) (sub := 6))),
    (0x720000001051020002080900, .vfcvt k (rr (.v 5) (.v 2) (.s 0) (ta := .e5m2) (tb := .n) (rm := .rna) (sat := true))),
    (0x730000001051021074180002, .vfsgn k (rr (.v 5) (.v 2) (.v 7) (ta := .f32) (tb := .f16) (sub := 2))),
    (0x740000001051020004000000, .vfexp2 k (rr (.v 5) (.v 2) (.s 0) (ta := .f32))),
    (0x740400001051020003000C00, .vfrcp k (rr (.v 5) (.v 2) (.s 0) (ta := .f16) (rm := .dyn))),
    (0x750000001051021074080001, .vfscl k (rr (.v 5) (.v 2) (.v 7) (ta := .f32) (tb := .n) (sub := 1))),
    (0x7600000010510210751C0A00, .vfnb8 k (rr (.v 5) (.v 2) (.v 7) (ta := .nb8e2) (tb := .bf16) (rm := .rsto)))] = true := by decide +kernel

theorem test_decode_associative : wordsMean [
    (0x800000002011020030004004, .asrch k (rx (.m 1) (.v 2) (.s 3) 0 64 0 4)),
    (0x8004000020110203E0FC0100, .asrchr k (rx (.m 1) (.v 2) (.s 62) 63 1 0 0)),
    (0x81000000102000BFF0100400, .awr k (rx (.v 2) (.s 0) (.imm 255) 4 4 0 0)),
    (0x8200000010110203C0940000, .apass k (rx (.v 1) (.v 2) (.s 60) 37 0 0 0)),
    (0x830000000012010000000040, .acnt k (rr (.s 1) (.m 1) (.s 0) (msk := 2))),
    (0x830400000012010000000001, .afirst k (rr (.s 1) (.m 1) (.s 0) (sub := 1))),
    (0x84000000201102B100000001, .atopk k (rx (.m 1) (.v 2) (.imm 16) 0 0 0 1)),
    (0x850000000011020030000001, .aext k (rx (.s 1) (.v 2) (.s 3) 0 0 0 1)),
    (0x860000001011020031006000, .ahamm k (rr (.v 1) (.v 2) (.s 3) (ta := .n) (wid := 6))),
    (0x87000000101102B0C4000200, .asred k (rr (.v 1) (.v 2) (.imm 12) (ta := .f32) (rm := .rtz))),
    (0x870400000011020000A00001, .ared k (rr (.s 1) (.v 2) (.s 0) (ta := .i) (tb := .f32) (sub := 1))),
    (0x88000000101102B070000000, .vhash k (rr (.v 1) (.v 2) (.imm 7))),
    (0x890000002012022000000000, .mand k (rr (.m 1) (.m 2) (.m 0))),
    (0x890400002012022030000000, .mor k (rr (.m 1) (.m 2) (.m 3))),
    (0x890800002012022030000000, .mxor k (rr (.m 1) (.m 2) (.m 3))),
    (0x890C00002052040000000000, .mnot k (rr (.m 5) (.m 4) (.s 0)))] = true := by decide +kernel

theorem test_decode_matrix : wordsMean [
    (0x900000000000000000000003, .msetmvl k (rr (.s 0) (.s 0) (.s 0) (sub := 3))),
    (0x9100000050F10261F03C0005, .mrow k (rx (.acc 15) (.v 2) (.b 31) 15 0 0 5)),
    (0x9104000050110280700C1F00, .mrowh k (rx (.acc 1) (.v 2) (.h 7) 3 31 0 0)),
    (0x92000000501502003000041F, .msacc k (rr (.acc 1) (.acc 2) (.s 3) (rm := .rdn) (sub := 31))),
    (0x930000001015020000A09300, .mext k (rr (.v 1) (.acc 2) (.s 0) (ta := .i) (tb := .f32) (wid := 9) (rm := .rtz) (sat := true))),
    (0x940000005030000000000020, .mclrAcc k (rr (.acc 3) (.s 0) (.s 0) (msk := 1))),
    (0x940000006030000000000000, .mclrB k (rr (.b 3) (.s 0) (.s 0))),
    (0x9700000061E0000000000000, .mzfScan k (rr (.b 30) (.s 0) (.s 0))),
    (0x9700000000361E0000000001, .mzfGet k (rr (.s 3) (.b 30) (.s 0) (sub := 1))),
    (0x9500000000070F0000000000, .mwait k (rr (.s 0) (.tk 15) (.s 0))),
    (0x950400003017020000000000, .mtok k (rr (.p 1) (.tk 2) (.s 0))),
    (0x960000000000000000000000, .mdrain k (rr (.s 0) (.s 0) (.s 0)))] = true := by decide +kernel

theorem test_decode_memory : wordsMean [
    (0xA00000000010020034180000, .ld k (rm (.s 1) (.s 2) (.s 3) (ta := .f32) (nt := true) (disp := 0x800))),
    (0xA0040000001002003187FF00, .st k (rm (.s 1) (.s 2) (.s 3) (ta := .e4m3) (disp := 0x7FF))),
    (0xA10000001010020000400820, .vld k (rm (.v 1) (.s 2) (.s 0) (ff := true) (disp := 0x8) (msk := 1))),
    (0xA1040000101002BFC3000000, .vlds k (rm (.v 1) (.s 2) (.imm 252) (ta := .f16))),
    (0xA10800001010021030000000, .vldx k (rm (.v 1) (.s 2) (.v 3))),
    (0xA10C00001010024020000000, .vldd k (rm (.v 1) (.s 2) (.d 2))),
    (0xA20000001010020000000000, .vst k (rm (.v 1) (.s 2) (.s 0))),
    (0xA20400001010020090000000, .vsts k (rm (.v 1) (.s 2) (.s 9))),
    (0xA20800001010021030000000, .vstx k (rm (.v 1) (.s 2) (.v 3))),
    (0xA20C00001010024000000000, .vstd k (rm (.v 1) (.s 2) (.d 0))),
    (0xA30000001010028010000000, .vldh k (rm (.v 1) (.s 2) (.h 1))),
    (0xA30400001010028010000000, .vsth k (rm (.v 1) (.s 2) (.h 1))),
    (0xA40000000000010020000001, .prf k (rm (.s 0) (.s 1) (.s 2) (scope := .core))),
    (0xA4040000000001B000000006, .cmoWb k (rm (.s 0) (.s 1) (.imm 0) (scope := .system))),
    (0xA4040000009001B010000000, .cmoBind k (rm (.s 9) (.s 1) (.imm 1))),
    (0xA4040000000001B020000000, .cmoInv k (rm (.s 0) (.s 1) (.imm 2))),
    (0xA50000003020010020000000, .stfl k (rm (.p 2) (.s 1) (.s 2)))] = true := by decide +kernel

theorem test_decode_atomic : wordsMean [
    (0xC00000000010020031200004, .amo k .add (rm (.s 1) (.s 2) (.s 3) (ta := .n) (ph := true) (scope := .device))),
    (0xC00400000010020031200004, .amo k .and (rm (.s 1) (.s 2) (.s 3) (ta := .n) (ph := true) (scope := .device))),
    (0xC00800000010020031200004, .amo k .or (rm (.s 1) (.s 2) (.s 3) (ta := .n) (ph := true) (scope := .device))),
    (0xC00C00000010020031200004, .amo k .xor (rm (.s 1) (.s 2) (.s 3) (ta := .n) (ph := true) (scope := .device))),
    (0xC01000000010020031200004, .amo k .min (rm (.s 1) (.s 2) (.s 3) (ta := .n) (ph := true) (scope := .device))),
    (0xC01400000010020031200004, .amo k .max (rm (.s 1) (.s 2) (.s 3) (ta := .n) (ph := true) (scope := .device))),
    (0xC01800000010020031200004, .amo k .minn (rm (.s 1) (.s 2) (.s 3) (ta := .n) (ph := true) (scope := .device))),
    (0xC01C00000010020031200004, .amo k .maxn (rm (.s 1) (.s 2) (.s 3) (ta := .n) (ph := true) (scope := .device))),
    (0xC02000000010020031200004, .amo k .swap (rm (.s 1) (.s 2) (.s 3) (ta := .n) (ph := true) (scope := .device))),
    (0xC100000000100200308FF817, .cas k (rm (.s 1) (.s 2) (.s 3) (ta := .i) (disp := 0xFF8) (scope := (.lv 7)))),
    (0xC20000001010021030400045, .vamo k .add (rm (.v 1) (.s 2) (.v 3) (ff := true) (msk := 2) (scope := .domain))),
    (0xC20400001010021030400045, .vamo k .and (rm (.v 1) (.s 2) (.v 3) (ff := true) (msk := 2) (scope := .domain))),
    (0xC20800001010021030400045, .vamo k .or (rm (.v 1) (.s 2) (.v 3) (ff := true) (msk := 2) (scope := .domain))),
    (0xC20C00001010021030400045, .vamo k .xor (rm (.v 1) (.s 2) (.v 3) (ff := true) (msk := 2) (scope := .domain))),
    (0xC21000001010021030400045, .vamo k .min (rm (.v 1) (.s 2) (.v 3) (ff := true) (msk := 2) (scope := .domain))),
    (0xC21400001010021030400045, .vamo k .max (rm (.v 1) (.s 2) (.v 3) (ff := true) (msk := 2) (scope := .domain))),
    (0xC21800001010021030400045, .vamo k .minn (rm (.v 1) (.s 2) (.v 3) (ff := true) (msk := 2) (scope := .domain))),
    (0xC21C00001010021030400045, .vamo k .maxn (rm (.v 1) (.s 2) (.v 3) (ff := true) (msk := 2) (scope := .domain))),
    (0xC22000001010021030400045, .vamo k .swap (rm (.v 1) (.s 2) (.v 3) (ff := true) (msk := 2) (scope := .domain))),
    (0xC300000000003E0001000000, .scred k (re (.s 0) (.s 62) (.s 0) 1 .none 0)),
    (0xC40000000000010020000000, .binap k (re (.s 0) (.s 1) (.s 2) 0 .none 0)),
    (0xC40400000000010020200000, .binpl k (re (.s 0) (.s 1) (.s 2) 0 .device 0)),
    (0xC8000000000C120000000000, .phase k (rr (.s 0) (.sc (.lv 2)) (.s 0))),
    (0xC9000000000001B030000000, .barinit k (rr (.s 0) (.s 1) (.imm 3))),
    (0xC90400000010020030000004, .bararr k (rr (.s 1) (.s 2) (.s 3) (sub := 4))),
    (0xC90800000000020030000010, .barwait k (rr (.s 0) (.s 2) (.s 3) (sub := 16))),
    (0xC90C00003010020030000006, .bartest k (rr (.p 1) (.s 2) (.s 3) (sub := 6)))] = true := by decide +kernel

theorem test_decode_engine : wordsMean [
    (0xD00000000000380007200001, .card k .copy (re (.s 0) (.s 56) (.s 0) 7 .device 1)),
    (0xD00400000000380007200001, .card k .rcopy (re (.s 0) (.s 56) (.s 0) 7 .device 1)),
    (0xD00800000000380007200001, .card k .tile (re (.s 0) (.s 56) (.s 0) 7 .device 1)),
    (0xD00C00000000380007200001, .card k .nb8p (re (.s 0) (.s 56) (.s 0) 7 .device 1)),
    (0xD01000000000380007200001, .card k .nb8u (re (.s 0) (.s 56) (.s 0) 7 .device 1)),
    (0xD01400000000380007200001, .card k .rerot (re (.s 0) (.s 56) (.s 0) 7 .device 1)),
    (0xD01800000000380007200001, .card k .kvpatch (re (.s 0) (.s 56) (.s 0) 7 .device 1)),
    (0xD01C00000000380007200001, .card k .kvcompact (re (.s 0) (.s 56) (.s 0) 7 .device 1)),
    (0xD02000000000380007200001, .card k .fill (re (.s 0) (.s 56) (.s 0) 7 .device 1)),
    (0xD10000000010000000000002, .cardq k (rr (.s 1) (.s 0) (.s 0) (sub := 2))),
    (0xD200000011F0024010000000, .strm k (rx (.v 31) (.s 2) (.d 1) 0 0 0 0)),
    (0xD204000011C002000FFC0000, .strmkv k (rx (.v 28) (.s 2) (.s 0) 1023 0 0 0)),
    (0xD208000000011D0000000000, .strmxStop k (rr (.s 0) (.v 29) (.s 0))),
    (0xD208000000111E0000000001, .strmxStat k (rr (.s 1) (.v 30) (.s 0) (sub := 1))),
    (0xD300000030103A0035080000, .seep k (re (.p 1) (.s 58) (.s 3) 5 .core 0)),
    (0xD400000000003C0033080000, .gath k (re (.s 0) (.s 60) (.s 3) 3 .core 0))] = true := by decide +kernel

theorem test_decode_handle_tap : wordsMean [
    (0xE00000008070020000004000, .hld k (rm (.h 7) (.s 2) (.s 0) (disp := 0x40))),
    (0xE00400008070020000000000, .hst k (rm (.h 7) (.s 2) (.s 0))),
    (0xE1000000001802B070000000, .hqWord k (rr (.s 1) (.h 2) (.imm 7))),
    (0xE10000000018020000000001, .hqInv k (rr (.s 1) (.h 2) (.s 0) (sub := 1))),
    (0xE10400002018020000000060, .hmaskLin k (rr (.m 1) (.h 2) (.s 0) (msk := 3))),
    (0xE10400002018020030000001, .hmaskTr k (rr (.m 1) (.h 2) (.s 3) (sub := 1))),
    (0xE20000009038020030000000, .gstart k (rr (.g 3) (.h 2) (.s 3))),
    (0xE20800009038020030000000, .ginv k (rr (.g 3) (.h 2) (.s 3))),
    (0xE20400000019000000000000, .gnextScalar k (rr (.s 1) (.g 0) (.s 0))),
    (0xE20400001019002011020000, .gnextVector k (rr (.v 1) (.g 0) (.m 1) (ta := .n) (wid := 32))),
    (0xE8000000101002003FFC0001, .tap k (rx (.v 1) (.s 2) (.s 3) 1023 0 0 1)),
    (0xE90000000000000000000000, .tapfin k (rr (.s 0) (.s 0) (.s 0))),
    (0xE90400000010020000000004, .tapq k (rr (.s 1) (.s 2) (.s 0) (sub := 4)))] = true := by decide +kernel

theorem test_decode_system : wordsMean [
    (0xEC0000000010020000200004, .launch k (re (.s 1) (.s 2) (.s 0) 0 .device 4)),
    (0xEC0400000010020000000000, .withdraw k (re (.s 1) (.s 2) (.s 0) 0 .none 0)),
    (0xED0000000000010020000000, .pgreq k (rm (.s 0) (.s 1) (.s 2))),
    (0xED0400003010010020000000, .pgpin k (rm (.p 1) (.s 1) (.s 2))),
    (0xED08000000000100200FFF00, .pgunpin k (rm (.s 0) (.s 1) (.s 2) (disp := 0xFFF))),
    (0xEE0000000000010020000001, .tlbi k (rr (.s 0) (.s 1) (.s 2) (sub := 1))),
    (0xEF0000000010020000000005, .hot k (rr (.s 1) (.s 2) (.s 0) (sub := 5))),
    (0xF00000000010020030000000, .pfxlFind k (rr (.s 1) (.s 2) (.s 3))),
    (0xF00000000010020030000001, .pfxlPin k (rr (.s 1) (.s 2) (.s 3) (sub := 1))),
    (0xF00000000010020000000002, .pfxlPage k (rr (.s 1) (.s 2) (.s 0) (sub := 2))),
    (0xF00400000010020000000000, .pfxiIns k (rr (.s 1) (.s 2) (.s 0))),
    (0xF00400000010020000000001, .pfxiUnpin k (rr (.s 1) (.s 2) (.s 0) (sub := 1)))] = true := by decide +kernel

/-- A seep word decodes to the operations beside it. -/
def seepMeans (l : List (BitVec 64 × List Instr)) : Bool := l.all fun x => decodeSeep x.1 == some x.2

/-- Words of Table 17-2: control in bits [63:60], fetch in [59:44], arithmetic in [43:16], write-back in [15:0]. -/
theorem test_decode_seep : seepMeans [
    (0x1000000000000000, [.seepLoop]), (0x2000000000000000, [.seepHalt]), (0x3000000000000000, [.seepSync]),
    (0x01F3000000000000, [.fld 15 3]), (0x0252000000000000, [.fldx 5 2]),
    (0x0000012348000000, [.seepAdd { wd := 2, wa := 3, wb := 4, ty := 8, imm := 0 }]),
    (0x0000022346000000, [.seepMul { wd := 2, wa := 3, wb := 4, ty := 6, imm := 0 }]),
    (0x0000032347000000, [.fma { wd := 2, wa := 3, wb := 4, ty := 7, imm := 0 }]),
    (0x0000042345070000, [.deq { wd := 2, wa := 3, wb := 4, ty := 5, imm := 7 }]),
    (0x0000052341000000, [.seepMax { wd := 2, wa := 3, wb := 4, ty := 1, imm := 0 }]),
    (0x0000062302000000, [.rsum { wd := 2, wa := 3, wb := 0, ty := 2, imm := 0 }]),
    (0x00000000000015A0, [.seepSt 5 10]), (0x0000000000002500, [.stc 5]), (0x00000000000035A2, [.red 5 10 2]),
    (0, [.idle]),
    (0x1111012348001230, [.fld 1 1, .seepAdd { wd := 2, wa := 3, wb := 4, ty := 8, imm := 0 }, .seepSt 2 3, .seepLoop])] =
    true := by decide +kernel

/-- Words that are no instructions, with their fates (Table 2-9, Table 3-8). -/
theorem test_decode_fates : ([
    (0x481800000000000000000000, .illegal), (0xD02400000000000000000000, .illegal), (0x0A0000000000000000000000, .illegal),
    (0xFC0000000000000000000000, .illegal), (0x4802C505105102107084_8040, .reservedField),
    (0x4802C5001051021070848046, .illegal), (0x4802C50010510210708480C0, .operandClass),
    (0x4802C500205102107084_8040, .operandClass)] : List (BitVec 96 × Fate)).all (fun x => match decode x.1 with
      | .ok _ => false
      | .error f => f == x.2) = true := by decide +kernel

/-! ## States for the witnesses -/

/-- From an action that answers a given value. -/
def goes {α : Type} [DecidableEq α] (x : Act α) (a : α) : Bool :=
  match x with
  | .ok b => b == a
  | .error _ => false
theorem of_goes {α : Type} [DecidableEq α] {x : Act α} {a : α} (h : goes x a = true) : x = .ok a := by
  unfold goes at h
  split at h <;> simp_all
/-- An action goes on, with a value of which `f` holds. -/
def thenOk {α : Type} (x : Act α) (f : α → Bool) : Bool :=
  match x with
  | .ok a => f a
  | .error _ => false
def isOk {α : Type} (x : Act α) : Bool := thenOk x fun _ => true

/-- A field-map entry (Table 7-1): width, type code, column. -/
def ent (w ty col : Nat) : BitVec 32 := BitVec.ofNat 32 (2 ^ 31 + (w - 1) * 2 ^ 25 + ty * 2 ^ 20 + col * 2 ^ 11)

/-- Registers written. -/
def withS (l : List (Fin 64 × Word)) (s : State) : State := l.foldl (fun s x => s.writeS x.1 x.2) s
def withP (l : List (Fin 8)) (s : State) : State := l.foldl (fun s n => s.writeP n true) s

/-- Context 0 of core 0 runs, outside a body, at slot 3 of a packet, with a handler, a private region, columns 32 to
511, accumulators 0 to 3 and a field map: v1 to v3 are i8, v4 to v6 f32, v7 bf16, v8 n16, v9 i32, v10 i64, v11 e4m3,
v12 f32, v13 i16; v0 has no entry. -/
def ctxA : Ctx :=
  { Ctx.reset with
    status := .running, thread := { pc := 0x1003, packet := none }
    win := { cb := 32, cn := 480, ab := 0, an := 4, pbase := 0x4000, psize := 0x1000, handler := 0x2000 }
    ten := { Tenancy.reset with launch := 1, gang := 0, asid := 0, levels := [(1, 5), (320, 2)] }
    p := (Vector.replicate 8 false).set 3 true
    fmap := ((((((((((((((Vector.replicate 32 0).set 1 (ent 8 1 32)).set 2 (ent 8 1 40)).set 3 (ent 8 1 48)).set 4
      (ent 32 8 64)).set 5 (ent 32 8 96)).set 6 (ent 32 8 128)).set 7 (ent 16 7 160)).set 8 (ent 16 2 176)).set 9
      (ent 32 1 192)).set 10 (ent 64 1 224)).set 11 (ent 8 3 288)).set 12 (ent 32 8 320)).set 13 (ent 16 1 352)) }
def stA : State := { State.reset with ctxs := [(0, ctxA)] }

/-- The same context in a loop of 3 elements, whose one strip runs on lane group 0. -/
def loopB : Loop := { n := 3, start := 0x1004, exit := 0x3000, next := 1, stopped := false, final := none, sums := [] }
def stripB : Strip :=
  { thread := { pc := 0x1005, packet := none }, sidx := 0, slen := 3, s := .replicate 32 7, p := .replicate 4 true
    pops := .replicate 4 0, popped := false, held := none }
def ctxB : Ctx := { ctxA with loop := some loopB, strips := (Vector.replicate 4 none).set 0 (some stripB) }
def stB : State := { State.reset with ctxs := [(0, ctxB)], cur := { core := 0, lc := 0, lg := some 0 } }

/-- The context in its handler, with TRAPPC. -/
def stH (pc : Word) : State :=
  { stA with ctxs := [(0, { ctxA with status := .handler, trap := { TrapRegs.reset with pc := pc } })] }

def regD (d : Operand) : FR := rr d (.s 1) (.s 2)

/-! ## Witnesses: scalar forms, control and traps -/

theorem witness_WordResults :
    (stA.guard g = false ∧ stA.guard k = true ∧ destOk stA (.s 31)) ∧ (stB.guard k = true ∧ destOk stB (.s 32)) := by
  unfold destOk; decide +kernel

theorem witness_ArithmeticAndFieldResults :
    (stB.guard k = true ∧ destOk stB (regD (.s 0)).opd) ∧ destOk stA (ri (.s 1) 0).opd ∧
    (rx (.s 3) (.s 1) (.s 0) 60 4 0 0).xf.toNat + (rx (.s 3) (.s 1) (.s 0) 60 4 0 0).yf.toNat ≤ 64 := by
  unfold destOk; decide +kernel

theorem witness_DivisionResults :
    let s := withS [(1, 0x8000000000000000), (2, BitVec.ofInt 64 (-1))] stA
    s.guard k = true ∧ destOk s (regD (.s 3)).opd ∧ s.val (regD (.s 3)).opa = BitVec.ofInt 64 (-(2 ^ 63)) ∧
    s.val (regD (.s 3)).opb = BitVec.ofInt 64 (-1) := by
  unfold destOk; decide +kernel

theorem witness_TransferResults :
    (stA.guard k = true ∧ targetCause (fbTarget stA.pc (rb (.s 31) (.s 0) 5 9)) = none ∧ destOk stA (.s 31)) ∧
    targetCause ((withS [(1, 0x01FFFFFFFFFFFF89)] stA).val (regD (.s 4)).opa) = none ∧
    targetCause ((withS [(1, 0x020000000000000A)] stA).val (regD (.s 4)).opa) = some .noncanon ∧
    targetCause ((withS [(1, 0x8000000000000000)] stA).val (regD (.s 4)).opa) = some .window ∧
    targetCause ((withS [(1, 0x100A)] stA).val (regD (.s 4)).opa) = some .align ∧
    targetCause (fbTarget stA.pc (rb (.s 31) (.s 0) 0x800000000 0)) ≠ none := by
  unfold destOk; decide +kernel

theorem witness_LoopsAndEnds :
    (stA.guard k = true ∧ stA.inBody = false ∧ targetCause (fbTarget stA.pc (rb (.s 0) (.s 9) 2 3)) = none ∧
      stA.val (.s 9) = 0 ∧ (withS [(9, 1)] stA).val (.s 9) ≠ 0) ∧
    (stB.guard k = true ∧ stB.inBody = true ∧ stB.ctx.loop = some loopB ∧
      targetCause (fbTarget stB.pc (rb (.s 0) (.s 0) 0 4)) = none ∧
      fbTarget stB.pc (rb (.s 0) (.s 0) 0 4) = loopB.start ∧ fbTarget stB.pc (rb (.s 0) (.s 0) 0 9) ≠ loopB.start) ∧
    (let l := { loopB with n := 4097 }
     let s := { stB with ctxs := [(0, { ctxB with loop := some l })] }
     let c := s.ctxAt (ctxNum 0 0)
     c.loop = some l ∧ c.strips.get 1 = none ∧ (∀ h : Fin 4, h < 1 → c.strips.get h ≠ none) ∧ c.status = .running ∧
       l.stopped = false ∧ l.next < (l.n.toNat + (s.coreAt 0).vl - 1) / (s.coreAt 0).vl ∧
       c.record = none ∧ c.pending = false ∧ s.frozen (ctxNum 0 0) = false) ∧
    (stB.cur.lg = some 0 ∧ stB.ctx.strips.get 0 = some stripB ∧
      (let s := { stB with ctxs := [(0, { ctxB with strips := ctxB.strips.set 1 (some stripB) })] }
       ((List.finRange 4).any fun h => h != 0 && (s.ctx.strips.get h).isSome) = true) ∧
      ((List.finRange 4).any fun h => h != 0 && (stB.ctx.strips.get h).isSome) = false ∧
      (!(loopB.stopped || false) && decide (loopB.next < loopB.count stB.core.vl)) = false ∧
      (keepFinal loopB.final { sidx := stripB.sidx, broke := false, s := stripB.s, p := stripB.p }).isSome = true ∧
      rising [(3, (5 : Word)), (40, 6)] = true ∧ ∀ x ∈ [(3, (5 : Word)), (40, 6)], x.1 < 64) ∧ stA.ctx.ahead = [] ∧
    thenOk (stA.publish stA.key (doneScopeOf stA.ctx.ten.doneScope)) (fun s1 => isOk (s1.flushStash s1.cur.core true)) =
      true := by
  decide +kernel

/-- Two strips have ended, the second at `vbreak`; and one at `vend`. -/
theorem witness_KeptStrip :
    let e : Final := { sidx := 4096, broke := false, s := stripB.s, p := stripB.p }
    let f : Final := { e with sidx := 8192, broke := true }
    [e, f] ≠ [] ∧ [e, f].foldl keepFinal none = some f ∧ f.broke = true ∧ [e].foldl keepFinal none = some e ∧ e.broke = false := by
  decide +kernel

theorem witness_TrapDelivery :
    (stA.guard k = true ∧ (stH 0x1000).guard k = true ∧ (stH 0x1000).ctx.status = .handler ∧
      targetCause (stH 0x1000).ctx.trap.pc = none ∧ targetCause (stH 0x100A).ctx.trap.pc = some .align ∧
      stA.ctx.status ≠ .handler) ∧
    (Cause.fatal .align = false ∧ Cause.replayable .align = false ∧ stA.ctx.status = .running ∧ stA.ctx.win.handler ≠ 0) ∧
    (Cause.replayable .protect = true ∧ (stA.quarter (quarterOf (coreOfCtx stA.key))).occupancy < 248 ∧
      stA.holdsTrap = false ∧ stA.ctx.ahead = [] ∧ stA.core.lines = []) ∧
    (let s := { stA with quarters := .replicate 4 { Quarter.reset with tqprod := 0xF7 } }
     (s.quarter (quarterOf (coreOfCtx s.key))).occupancy = 247) ∧
    (stB.guard k = true ∧ stB.inBody = true ∧ isShared (regD (.s 31)).opd = true ∧ isShared (regD (.p 3)).opd = true) := by
  decide +kernel

theorem witness_ScalarFloatResults :
    (stA.guard k = true ∧ destOk stA (.s 3) ∧ fltOfTy .f16 ≠ none) ∧
    (0x7F < 2 ^ Flt.width .e4m3 ∧ Flt.val .e4m3 0x7E ≠ .nan) := by
  unfold destOk; decide +kernel

/-- Values, a third and its negative among them, that no format holds; a value that rounds within E4M3, and one beyond it. -/
theorem witness_Rounding :
    let x : Sys2Proof.Machine.Num := .fin true 1 3 0
    properNum x ∧ properNum (.inf true) ∧ properNum .nan ∧ x.nonFinite = false ∧ ratOf x ≠ 0 ∧ RMode.rsto ≠ .dyn ∧
    ratOf (.zero true) = 0 ∧ (Sys2Proof.Machine.Num.zero true).nonFinite = false ∧ ratOf (x.add true (.fin false 1 3 0)) = 0 ∧
    Sys2Proof.Machine.Num.inf true ≠ .inf (!true) ∧ (1 : Nat) ≤ 8 ∧
    (2 : Rat) ^ (-2 : Int) ≤ -ratOf x ∧ -ratOf x < (2 : Rat) ^ (-1 : Int) ∧
    (multipleOf (-ratOf x / (2 : Rat) ^ (-5 : Int)) true .rdn 0).1 * (2 : Rat) ^ (-5 : Int) ≤ greatestFlt .e4m3 ∧
    greatestFlt .e4m3 < (multipleOf (1000 / (2 : Rat) ^ (6 : Int)) false .rne 0).1 * (2 : Rat) ^ (6 : Int) := by
  unfold properNum; decide +kernel

theorem witness_PredicateResults : stB.guard k = true ∧ destOk stB (.p 4) ∧ destOk stA (.p 3) := by
  unfold destOk; decide +kernel

theorem witness_PointerCasts :
    stA.guard k = true ∧ destOk stA (.s 3) ∧
    malformed ((withS [(1, 0x0200000000000000)] stA).val (.s 1)) = some .noncanon ∧
    malformed ((withS [(1, 0xFFFFFFFF)] stA).val (.s 1)) = none ∧
    ((withS [(1, 0xFFFFFFFF)] stA).val (.s 1)).toNat < 2 ^ 32 ∧
    ¬ ((withS [(1, 0x100000000)] stA).val (.s 1)).toNat < 2 ^ 32 ∧
    ((withS [(1, 0xFFFFF)] stA).val (.s 1)).toNat < 2 ^ 20 ∧ ((withS [(1, 0x7FFFFF)] stA).val (.s 1)).toNat < 2 ^ 23 ∧
    ¬ ((withS [(1, 0x0200000000000000)] stA).val (.s 1)).toNat < 2 ^ 57 := by
  unfold destOk; decide +kernel

theorem witness_StashPointerForms :
    stB.guard k = true ∧ destOk stB (.s 32) ∧
    (let s := withS [(1, 319), (2, 0xFFFFF)] stA
     (s.val (.s 1)).toNat ≤ 319 ∧ (s.val (.s 2)).toNat < 2 ^ 20) ∧
    319 < ((withS [(1, 320)] stA).val (.s 1)).toNat ∧ 2 ^ 20 ≤ ((withS [(2, 0x100000)] stA).val (.s 2)).toNat ∧
    (0x80#8).msb = true := by
  unfold destOk; decide +kernel

theorem witness_ControlRegisterMoves :
    stA.ctx.win.cb < 512 ∧ (stA.guard k = true ∧ destOk stA (.s 3) ∧ stA.inBody = false ∧ stA.ctx.ahead = [] ∧ stB.ctx.ahead = []) ∧
    (stA.modCtx fun x => { x with ahead := [{ slot := 0, thread := stA.thread, instr := .idle }] }).ctx.ahead ≠ [] ∧
    ((stH 0).inBody = false ∧ stB.inBody = true ∧ stB.ctx.status ≠ .handler ∧
      ({ stB with ctxs := [(0, { ctxB with status := .handler })] }).ctx.status = .handler) ∧
    (let s := withS [(1, 0xFFFFFFFF), (2, 0x100000000), (3, (ent 8 1 32).setWidth 64), (4, (ent 8 1 31).setWidth 64)] stA
     (s.val (.s 1)).toNat < 2 ^ 32 ∧ 2 ^ 32 ≤ (s.val (.s 2)).toNat ∧
     entryOk s.ctx.win ((s.val (.s 3)).setWidth 32) = true ∧ entryOk s.ctx.win ((s.val (.s 4)).setWidth 32) = false) := by
  unfold destOk; decide +kernel

/-! ## Witnesses: vector forms -/

/-- Fields of the map of `ctxA`. -/
def fld (n : Fin 32) (ty : NTy) (col : Nat) : Fld := { reg := n, ty := ty, col := col, width := ty.width }
def i8 (n : Fin 32) : Fld := fld n (.int true 8) (24 + 8 * n.val)
def f32 (n : Fin 32) : Fld := fld n (.flt .f32) (32 * n.val - 64)
def vvv (d a b : Fin 32) : FR := rr (.v d) (.v a) (.v b)

/-- A strip of core 1, whose rows hold something: lanes 0 to 2 in the columns of v1 to v3 and the tags m1 and m2. -/
def rowsC : Table (BitVec 512) :=
  [(0, BitVec.ofNat 512 (0x7F * 2 ^ 32 + 0x80 * 2 ^ 40 + 6)), (1, BitVec.ofNat 512 (0xFF * 2 ^ 32 + 2)),
   (2, BitVec.ofNat 512 (5 * 2 ^ 40 + 4))]
def stC : State := { stB with cores := [(0, { Core.reset with rows := rowsC })] }

theorem witness_FieldResolution :
    let e := fun n => stA.ctx.fmap.get n
    bitAt (e 0) 31 = false ∧ bitAt (e 1) 31 = true ∧
    (stA.ctx.win.cb ≤ bitsAt (e 1) 11 9 ∧ bitsAt (e 1) 11 9 + 64 ≤ stA.ctx.win.cb + stA.ctx.win.cn) ∧
    stA.ctx.win.cb + stA.ctx.win.cn < bitsAt (ent 8 1 511) 11 9 + (bitsAt (ent 8 1 511) 25 6 + 1) ∧
    (fltOfTy .f32 = some .f32 ∧ Flt.width .f32 = bitsAt (e 4) 25 6 + 1 ∧ Flt.width .f32 ≠ bitsAt (e 7) 25 6 + 1 ∧
      stA.ctx.win.cb ≤ bitsAt (e 4) 11 9 ∧
      bitsAt (e 4) 11 9 + Flt.width .f32 ≤ stA.ctx.win.cb + stA.ctx.win.cn) ∧
    (1 ≤ bitsAt (e 1) 20 5 ∧ bitsAt (e 1) 20 5 ≤ 2 ∧ 3 ≤ bitsAt (e 4) 20 5 ∧ bitsAt (e 4) 20 5 ≤ 8 ∧
      fltOfTy (.ofCode (bitsAt (e 4) 20 5)) = some .f32) ∧
    bitsAt (ent 8 1 31) 11 9 < stA.ctx.win.cb ∧
    stA.ctx.win.cb + stA.ctx.win.cn < bitsAt (ent 32 8 496) 11 9 + Flt.width .f32 := by
  decide +kernel

theorem witness_LaneResultsFrame : (511 < 512 ∧ (1 : Nat) ≤ 1 ∧ leastInt true 8 ≤ -128 ∧ -128 ≤ greatestInt true 8) ∧
    stC.active 1 = [0, 1] ∧ (0 : Nat) ≠ stC.cur.core.val + 1 := by
  decide +kernel


theorem witness_VectorIntegerResults :
    stC.guard k = true ∧
    (∀ i ∈ [Instr.vadd k (vvv 3 1 2), .vmulh k (vvv 3 1 2), .vsel k (vvv 3 1 2), .vand k (vvv 3 1 2), .vshl k (vvv 3 1 2)],
      int2Ready i (vvv 3 1 2) stC (i8 3) (i8 1) (i8 2) stC) ∧
    (∀ i ∈ [Instr.vneg k (rr (.v 1) (.v 1) (.s 2)), .vpopc k (rr (.v 1) (.v 1) (.s 2)), .vclz k (rr (.v 1) (.v 1) (.s 2)),
        .vnot k (rr (.v 1) (.v 1) (.s 2)), .vshr k (rr (.v 1) (.v 1) (.s 2))],
      int1Ready i (rr (.v 1) (.v 1) (.s 2)) stC (i8 1) (i8 1) stC) ∧
    (stC.vecStart (.vcmp k (rr (.m 1) (.v 1) (.v 2))) = .ok () ∧ stC.popAll [.v 1, .v 2] = .ok stC ∧
      stC.popAll [.v 1] = .ok stC ∧ ∀ n, Operand.imm 0x80 ≠ .v n) ∧
    (stC.field (.v 9) .fm 0 .int = .ok (fld 9 (.int true 32) 192) ∧
      laneReady (.vcvt k (vvv 9 1 0)) stC (.v 9) (fld 9 (.int true 32) 192) [(.v 1, i8 1)] stC) ∧
    (stC.field (.v 4) .fm 0 .any = .ok (f32 4) ∧ laneReady (.vmov k (vvv 5 4 0)) stC (.v 5) (f32 5) [(.v 4, f32 4)] stC) ∧
    (laneReady (.vbext k (rx (.v 3) (.v 1) (.s 0) 3 5 0 1)) stC (.v 3) (i8 3) [(.v 1, i8 1)] stC ∧
      (3#10).toNat + (5#10).toNat ≤ (i8 1).width ∧ (i8 1).width < (4#10).toNat + (5#10).toNat) := by
  unfold int1Ready int2Ready laneReady
  simp only [List.forall_mem_cons, List.not_mem_nil, false_imp_iff, implies_true, and_true, List.map]
  refine ⟨?_, ⟨?_, ?_, ?_, ?_, ?_⟩, ⟨?_, ?_, ?_, ?_, ?_⟩, ?_, ?_, ?_, ?_⟩
  all_goals repeat' apply And.intro
  all_goals first | decide +kernel | (with_reducible apply popAll_plain <;> decide +kernel) | exact of_goes (by decide +kernel)

theorem witness_VectorSetupResults :
    stA.guard k = true ∧ stA.inBody = false ∧ stC.inBody = true ∧
    stA.checkStream (.v 31) (.vfmap k (rr (.v 31) (.s 2) (.s 0))) = .ok () ∧
    (let s := withS [(2, (ent 8 1 504).setWidth 64), (3, (ent 8 1 505).setWidth 64), (4, 0x100000000)] stA
     (s.val (.s 2)).toNat < 2 ^ 32 ∧ entryOk s.ctx.win ((s.val (.s 2)).setWidth 32) = true ∧
     entryOk s.ctx.win ((s.val (.s 3)).setWidth 32) = false ∧ 2 ^ 32 ≤ (s.val (.s 4)).toNat) ∧
    (let s := withS [(2, 0xFFFFFFFF), (3, 0x7FFFFFFF), (4, BitVec.ofInt 64 (-(2 ^ 31))), (5, 0x80000000),
       (6, BitVec.ofInt 64 (-(2 ^ 31) - 1))] stA
     (s.val (.s 2)).toNat < 2 ^ 32 ∧ -(2 ^ 31) ≤ (s.val (.s 4)).toInt ∧ (s.val (.s 3)).toInt < 2 ^ 31 ∧
     2 ^ 31 ≤ (s.val (.s 5)).toInt ∧ (s.val (.s 6)).toInt < -(2 ^ 31)) ∧
    (stC.field (.v 1) .fm 0 .int = .ok (i8 1) ∧ stC.vecStart (.vsid k (vvv 1 0 0)) = .ok () ∧
      laneReady (.vsid k (vvv 1 0 0)) stC (.v 1) (i8 1) [] stC) ∧
    (stC.field (.v 4) .fm 0 .any = .ok (f32 4) ∧ laneReady (.vbcast k (vvv 4 0 0)) stC (.v 4) (f32 4) [] stC ∧
      fltOfTy .bf16 = some .bf16 ∧ (f32 4).ty.isFlt = true ∧ satType (i8 1).ty = true) := by
  unfold laneReady
  repeat' apply And.intro
  all_goals first | decide +kernel | (with_reducible apply popAll_plain <;> decide +kernel) | exact of_goes (by decide +kernel)

/-- Columns of the block-scale forms: an element of 8 bits, a scale of 12, and 9 registers of f32. -/
def stD : State :=
  { stC with ctxs := [(0, { ctxB with fmap := (ctxB.fmap.set 14 (ent 12 2 368)).set 15 (ent 8 2 384) })] }

theorem witness_VectorFloatResults :
    stC.guard k = true ∧
    (∀ i ∈ [Instr.vfadd k (vvv 6 4 5), .vffma k (vvv 6 4 5)], flt2Ready i (vvv 6 4 5) stC (f32 6) (f32 4) (f32 5) stC) ∧
    (∀ i ∈ [Instr.vfexp2 k (vvv 6 4 0), .vfrcp k (vvv 6 4 0)], flt1Ready i (vvv 6 4 0) stC (f32 6) (f32 4) stC) ∧
    (stC.vecStart (.vfcmp k (rr (.m 1) (.v 4) (.v 5))) = .ok () ∧ stC.field (.v 5) .fm 0 .flt = .ok (f32 5) ∧
      stC.popAll [.v 4, .v 5] = .ok stC) ∧
    (laneReady (.vfcvt k (vvv 1 4 0)) stC (.v 1) (i8 1) [(.v 4, f32 4)] stC ∧ (f32 4).ty.isFlt = true ∧
      satType (i8 1).ty = true ∧ satType (f32 4).ty = false) ∧
    (laneReady (.vfsgn k (vvv 6 4 5)) stC (.v 6) (f32 6) [(.v 4, f32 4), (.v 5, f32 5)] stC ∧
      (f32 6).ty = .flt .f32 ∧ (2#5).toNat < 3) ∧
    (stD.field (.v 14) .fm 0 .int = .ok (fld 14 (.int false 12) 368) ∧
      laneReady (.vfscl k (vvv 6 4 14)) stD (.v 6) (f32 6) [(.v 4, f32 4), (.v 14, fld 14 (.int false 12) 368)] stD ∧
      (fld 14 (.int false 12) 368).width = 12 ∧ (i8 1).width ≠ 12) ∧
    (stD.rawField (.v 15) (nb8Elem .nb8e4).width = .ok (fld 15 (.int false 8) 384) ∧
      stD.rawField (.v 14) 12 = .ok (fld 14 (.int false 12) 368) ∧
      ((fld 15 (.int false 8) 384).disjoint (fld 14 (.int false 12) 368) &&
        (fld 15 (.int false 8) 384).disjoint (f32 4) && (fld 14 (.int false 12) 368).disjoint (f32 4)) = true ∧
      stD.checkStream (.v 15) (.vfnb8 k (rr (.v 15) (.v 4) (.v 14) (ta := .nb8e4))) = .ok () ∧
      stD.popAll [.v 4] = .ok stD) ∧
    laneReady (.vfnb8 k (rr (.v 4) (.v 15) (.v 14) (ta := .nb8e4) (sub := 1))) stD (.v 4) (f32 4)
      [(.v 15, fld 15 (.int false 8) 384), (.v 14, fld 14 (.int false 12) 368)] stD := by
  unfold flt1Ready flt2Ready laneReady
  simp only [List.forall_mem_cons, List.not_mem_nil, false_imp_iff, implies_true, and_true, List.map]
  repeat' apply And.intro
  all_goals first | decide +kernel | (with_reducible apply popAll_plain <;> decide +kernel) | exact of_goes (by decide +kernel)

theorem witness_SearchAndWriteResults :
    stC.guard k = true ∧ stC.vecStart (.asrch k (rx (.m 1) (.v 1) (.s 2) 3 5 0 0)) = .ok () ∧
    stC.vecStart (.awr k (rx (.v 1) (.s 0) (.s 2) 3 5 1 0)) = .ok () ∧
    stC.vecStart (.apass k (rx (.v 2) (.v 1) (.s 2) 1 0 0 0)) = .ok () ∧
    stC.field (.v 1) .fm 0 .any = .ok (i8 1) ∧ stC.field (.v 2) .fm 0 .any = .ok (i8 2) ∧
    3 + 5 ≤ (i8 1).width ∧ (i8 1).width < 4 + 5 ∧ stC.popAll [.v 1] = .ok stC ∧
    stC.checkStream (.v 1) (.awr k (rx (.v 1) (.s 0) (.s 2) 3 5 1 0)) = .ok () ∧ stC.active 1 = [0, 1] := by
  repeat' apply And.intro
  all_goals first | decide +kernel | (with_reducible apply popAll_plain <;> decide +kernel) | exact of_goes (by decide +kernel)

theorem witness_CountExtractAndSelect :
    (stC.guard k = true ∧ destOk stC (.s 32) ∧ stC.vecStart (.acnt k (rr (.s 32) (.m 1) (.s 0))) = .ok () ∧
      stC.vecStart (.afirst k (rr (.s 32) (.m 1) (.s 0))) = .ok () ∧
      ((stC.active 0).filter fun i => tagOf stC.cur.lc stC.slen (mreg (.m 2)) i (stC.core.row (stC.lane i))) = [0, 2]) ∧
    (stC.vecStart (.aext k (rx (.s 32) (.v 1) (.s 2) 0 0 1 0)) = .ok () ∧ stC.field (.v 1) .fm 0 .any = .ok (i8 1) ∧
      stC.popAll [.v 1] = .ok stC ∧ stC.active 1 = [0, 1] ∧ (stC.val (.imm 1)).toNat ∈ stC.active 1 ∧
      (stC.val (.imm 2)).toNat ∉ stC.active 1) ∧
    (stC.vecStart (.atopk k (rx (.m 3) (.v 1) (.s 2) 0 0 0 0)) = .ok () ∧
      [(0, 0), (1, 255), (4, 255)].Pairwise (fun x y : Nat × Nat => x.1 < y.1) ∧
      ∀ x ∈ [(0, 0), (1, 255), (4, 255)], x.2 < 2 ^ 8) ∧
    ((1 : Nat) ≤ 8 ∧ 0x7F < 2 ^ 8 ∧ Flt.width .e4m3 = 8 ∧ Flt.val .e4m3 0x7F = .nan ∧ Flt.val .e4m3 0x80 ≠ .nan) := by
  unfold destOk
  repeat' apply And.intro
  all_goals first | decide +kernel | (with_reducible apply popAll_plain <;> decide +kernel) | exact of_goes (by decide +kernel)

theorem witness_SumResults :
    (stC.guard k = true ∧ stC.vecStart (.asred k (rr (.v 2) (.v 1) (.imm 1))) = .ok () ∧
      stC.field (.v 2) .fm 0 .any = .ok (i8 2) ∧ stC.field (.v 1) .fm 0 .any = .ok (i8 1) ∧
      laneReady (.asred k (rr (.v 2) (.v 1) (.imm 1))) stC (.v 2) (i8 2) [(.v 1, i8 1)] stC ∧ 2 < stC.slen ∧
      (i8 2).col + 7 < 512) ∧
    (stC.vecStart (.ared k (rr (.s 32) (.v 1) (.s 0))) = .ok () ∧ stC.popAll [.v 1] = .ok stC ∧ stC.inBody = true ∧
      aredType .i (i8 1).ty = some (.int true 64) ∧ aredType .f32 (f32 4).ty = some (.flt .f32) ∧ destOk stC (.s 32) ∧
      isShared (.s 31) = true ∧ isShared (.s 32) = false) ∧
    (stA.vecStart (.ared k (rr (.s 3) (.v 1) (.s 0))) = .ok () ∧ stA.field (.v 1) .fm 0 .any = .ok (i8 1) ∧
      stA.popAll [.v 1] = .ok stA ∧ stA.inBody = false ∧ destOk stA (.s 3)) := by
  unfold destOk laneReady
  repeat' apply And.intro
  all_goals first | decide +kernel | (with_reducible apply popAll_plain <;> decide +kernel) | exact of_goes (by decide +kernel)

theorem witness_MaskLogicResults :
    (stC.guard k = true ∧ stC.vecStart (.mand k (rr (.m 3) (.m 1) (.m 2))) = .ok () ∧ stC.popAll [] = .ok stC) ∧
    (laneReady (.ahamm k (rr (.v 2) (.v 1) (.s 2))) stC (.v 2) (i8 2) [(.v 1, i8 1)] stC ∧ (i8 2).width ≠ 64 ∧
      stC.field (.v 10) .fm 0 .int = .ok (fld 10 (.int true 64) 224) ∧
      laneReady (.vhash k (rr (.v 10) (.v 1) (.imm 0))) stC (.v 10) (fld 10 (.int true 64) 224) [(.v 1, i8 1)] stC) := by
  unfold laneReady
  repeat' apply And.intro
  all_goals first | decide +kernel | (with_reducible apply popAll_plain <;> decide +kernel) | exact of_goes (by decide +kernel)

/-! ## Witnesses: the matrix engine and memory -/

/-- Core 0 with 256 KiB of stash, a first gibibyte mapped for address space 0, a dense handle of 16 bytes in h0 and a
token that counts and one that has failed. -/
def ctxE : Ctx :=
  { ctxB with mvl := 32, handles := ctxB.handles.set 0 (BitVec.ofNat 512 (0x101 + 16 * 2 ^ 64))
              toks := ((ctxB.toks.set 1 { count := 1, fail := none }).set 2 { count := 0, fail := some 5 }) }
def coreE : Core := { Core.reset with k := 1, rows := rowsC }
def stE : State := State.pokeTables { stB with ctxs := [(0, ctxE)], cores := [(0, coreE)] }
/-- The same outside a body. -/
def stF : State := { stE with ctxs := [(0, { ctxE with loop := none, strips := .replicate 4 none })], cur := { core := 0, lc := 0, lg := none } }

theorem witness_MatrixControlResults :
    (stE.guard k = true ∧ stF.guard k = true ∧ stF.inBody = false ∧ stE.inBody = true) ∧
    ((stE.ctx.toks.get 0).count = 0 ∧ (stE.ctx.toks.get 0).fail = none ∧ (stE.ctx.toks.get 1).count ≠ 0 ∧
      (stE.ctx.toks.get 2).count = 0 ∧ (stE.ctx.toks.get 2).fail = some 5 ∧ destOk stE (.p 4)) ∧
    ((∀ n : Fin 16, (stA.ctx.toks.get n).count = 0) ∧ ∃ n : Fin 16, (stE.ctx.toks.get n).count ≠ 0) ∧
    (stE.vecStart (.mclrAcc k (rr (.acc 3) (.s 0) (.s 0))) = .ok () ∧
      stE.accCell (.acc 3) (.mclrAcc k (rr (.acc 3) (.s 0) (.s 0))) = .ok 3 ∧
      stE.rowsOwe 3 (stE.active 0) = false) ∧
    (stE.core.slotFree 31 = true ∧ (stE.core.slotAt 31).busy = false ∧ destOk stE (.s 32)) := by
  unfold destOk
  repeat' apply And.intro
  all_goals first | decide +kernel | exact of_goes (by decide +kernel)

/-- A row that waits, and one in flight. -/
def rowW : MRow :=
  { lc := 0, lg := 0, block := 0, tok := 3, cell := 1, fmt := 0, k := 32, slot := 2, data := 0, present := 1 }
def stG : State :=
  { stE with cores := [(0, { coreE with waiting := [rowW], flight := [{ row := { rowW with cell := 2 }, cells := 5, nxskip := false,
                                                                        stalez := true, failed := none }] })] }

theorem witness_RowResults :
    (let f := rx (.acc 3) (.v 11) (.b 2) 15 0 1 0
     stE.guard k = true ∧ stE.vecStart (.mrow k f) = .ok () ∧ f.opd.idx < stE.ctx.win.an ∧
     stE.field f.opa .fm 0 .any = .ok (fld 11 (.flt .e4m3) 288) ∧ (fld 11 (.flt .e4m3) 288).width = rowWidth f.sub.toNat ∧
     stE.checkTile f.sub.toNat f.opb.idx = .ok () ∧ stE.popAll [f.opa] = .ok stE ∧
     stE.checkParity (fld 11 (.flt .e4m3) 288) (List.range stE.slen) = .ok () ∧
     ((stE.active f.msk).filter fun p => decide (p % 128 < rowLanes f.sub.toNat stE.ctx.mvl)) = [0, 1] ∧
     stE.rowsOwe (stE.ctx.win.ab + f.opd.idx) (List.range 128) = false) ∧
    (let f := rx (.acc 3) (.v 11) (.h 0) 15 2 1 0
     stE.checkTile f.sub.toNat f.yf.toNat = .ok () ∧ stE.rowHandle (some f.opb) = .ok () ∧
     isOk ((((stE.active f.msk).filter fun p => decide (p % 128 < rowLanes f.sub.toNat stE.ctx.mvl)).filterM fun p => do
         let r ← lookup (stE.handle f.opb) (stE.sidx + w64 p) (stE.sidx + w64 p).toNat
         pure r.isSome : Rd (List Nat)) stE) = true) ∧
    ((stG.coreAt 0).flight.length < 32 ∧ (stG.quarter (quarterOf 0)).hold = false ∧
      stG.acceptable 0 (stG.coreAt 0).waiting [] = some rowW ∧ (stG.coreAt 0).rowBad rowW = none ∧
      (((stG.coreAt 0).flight)[0]?).isSome = true ∧
      ((stG.coreAt 0).flight.take 0).any (fun x => x.row.sameCells rowW) = false) ∧
    (let s := stG.modCoreAt 0 fun c => { c with flight := (c.flight.map fun m => { m with failed := some 40000 }) }
     ((s.coreAt 0).flight.map fun m => m.failed) = [some 40000]) ∧
    (let s := stG.modCoreAt 0 fun c => { c with flight := (c.flight ++ c.flight).flatMap fun m => .replicate 16 m }
     (s.coreAt 0).flight.length = 32) ∧
    (rowTy 3 = .int true 8 ∧ rowTy 0 = .flt .e4m3 ∧ (0 : Nat) < 128) := by
  repeat' apply And.intro
  all_goals first | decide +kernel | (with_reducible apply popAll_plain <;> decide +kernel) | exact of_goes (by decide +kernel)

/-- A row in flight writes accumulator 2 and reads slot 2; slot 4 is BUSY; weight rows of slot 31 lie in it. -/
theorem witness_MatrixControlWaits :
    let i : Instr := .mclrAcc k (rr (.acc 2) (.s 0) (.s 0))
    stG.guard k = true ∧ stG.vecStart i = .ok () ∧ stG.accCell (.acc 2) i = .ok 2 ∧ stG.rowsOwe 2 (stG.active 0) = true ∧
    stG.core.slotFree 2 = false ∧ ((stG.modCore fun c => c.setSlot 4 { Slot.reset with busy := true }).core.slotAt 4).busy = true ∧
    ∀ col, col < 128 → (31 : Fin 32).val * 16384 ≤ { rowW with slot := 31 }.slot * 16384 + (weightByte rowW.fmt 31 col).1 ∧
      { rowW with slot := 31 }.slot * 16384 + (weightByte rowW.fmt 31 col).1 + (if rowW.fmt < 4 then 1 else 2) ≤
        ((31 : Fin 32).val + 1) * 16384 := by
  repeat' apply And.intro
  all_goals first | decide +kernel | exact of_goes (by decide +kernel)

theorem witness_AccumulatorResults :
    (let i : Instr := .msacc k (rr (.acc 3) (.acc 0) (.s 0) (sub := 4))
     stE.guard k = true ∧ stE.vecStart i = .ok () ∧ stE.accCell (.acc 3) i = .ok 3 ∧ stE.accCell (.acc 0) i = .ok 0 ∧
     stE.field (.v (4#5).toFin) .fm 0 .any = .ok (f32 4) ∧ (f32 4).ty = .flt .f32 ∧ stE.popAll [.v (4#5).toFin] = .ok stE ∧
     stE.rowsOwe 3 (stE.active 0) = false ∧ stE.rowsOwe 0 (stE.active 0) = false ∧
     stE.checkCells (.acc 0) 0 (stE.active 0) = .ok () ∧ stE.checkCells (.acc 0) 3 (stE.active 0) = .ok () ∧
     stE.checkParity (f32 4) (List.range stE.slen) = .ok () ∧
     (∀ i ∈ stE.active 0, stE.cellKey 3 i ≠ 0) ∧ ∀ i ∈ stE.active 0, stE.lane i ≠ 4095) ∧
    (let i : Instr := .mext k (rr (.v 1) (.acc 3) (.s 0) (tb := .f32) (rm := .rtz) (sat := true))
     stE.vecStart i = .ok () ∧ stE.accCell (.acc 3) i = .ok 3 ∧ stE.field (.v 1) .fm 0 .any = .ok (i8 1) ∧
     satType (i8 1).ty = true ∧ stE.checkStream (.v 1) i = .ok () ∧ stE.checkCells (.acc 3) 3 (stE.active 0) = .ok ()) := by
  repeat' apply And.intro
  all_goals first | decide +kernel | (with_reducible apply popAll_plain <;> decide +kernel) | exact of_goes (by decide +kernel)

/-- A context pointer into memory, its stash and its cluster's SRAM, in s1 to s3, and malformed and refused ones. -/
def stP : State :=
  withS [(1, 0x8000000000000FF8), (2, 0x900000000003FFF8), (3, 0xA000000000000008), (4, 0x40000)] stF

theorem witness_ScalarAccesses :
    (stP.guard k = true ∧ destOk stP (.s 5)) ∧
    ([0x8000000000000FF8, 0x900000000003FFF8, 0xA0000000007FFFF8, 0x8000000000000000].all fun p =>
      thenOk (stP.scalarLoc p 8 8 false) fun x => thenOk (x.2.readLoc stP.key x.1 8 false) fun y => !y.2.1) = true ∧
    thenOk (stP.scalarLoc 0x8000000000000FF8 8 8 true) (fun x => x.1 == .hbm 0 0x4FF8 0x4FF8) = true ∧
    thenOk (stP.scalarLoc 0xA0000000007FFFF8 8 8 true) (fun x => x.1 == .cluster 0x7FFFF8) = true ∧
    thenOk (stP.scalarLoc 0x900000000003FFF8 8 8 true)
      (fun x => x.1 == .stash 0x3FFF8 && isOk (x.2.readyStash (coreOfCtx stP.key) 0x3FFF8 8 true)) = true ∧
    ((stP.find (stP.agentOf stP.key) 0x8000000000001000 8 8 false).1 = .fail .range ∧
      (stP.find (stP.agentOf stP.key) 0x4001 8 8 true).1 = .fail .align) ∧
    (malformed 0x0200000000000000 = some .noncanon ∧ malformed 0x4001 = none ∧ bitsAt (0x4001 : Word) 60 4 = 0 ∧
      (0x4001 : Word).toNat % 8 ≠ 0 ∧
      malformed 0x8000000000000FF9 = none ∧ stP.ctx.win.psize.toNat < bitsAt (0x8000000000000FF9 : Word) 0 32 + 8 ∧
      bitsAt (0x8000000000000FF1 : Word) 0 32 + 8 ≤ stP.ctx.win.psize.toNat ∧ bitsAt (0x8000000000000FF1 : Word) 0 32 % 8 ≠ 0) ∧
    (malformed 0x9001000000000000 = none ∧ bitsAt (0x9001000000000000 : Word) 48 9 ≠ stP.cur.core.val ∧
      4 * stP.core.k.val * 65536 < bitsAt (0x900000000003FFF9 : Word) 0 20 + 8 ∧
      bitsAt (0x900000000003FFF1 : Word) 0 20 + 8 ≤ 4 * stP.core.k.val * 65536 ∧
      malformed 0xA000000000000001 = none ∧ bitsAt (0xA000000000000001 : Word) 0 23 % 8 ≠ 0) ∧
    (0x3FFF8 + 8 ≤ 4 * stP.core.k.val * 65536 ∧ look stP.core.lines (0x3FFF8 / 512) = none ∧ stP.core.scores = [] ∧
      stP.pinsHeld stP.cur.core ≤ 4096 ∧ marked 3 stP.core.stashPoison 0x3FFF8 8 = false ∧
      malformed 0x900000000003FFF8 = none ∧ bitsAt (0x900000000003FFF8 : Word) 48 9 = stP.cur.core.val) ∧
    (let p : Pending := { ctx := 0, acc := 1, pages := [], home := .hbm, addr := 0x100, bytes := [1, 2], hot := none, nt := false }
     let s := { stA with pend := [{ p with ctx := 1 }, p, { p with addr := 0x101 }] }
     s.pend[1]? = some p ∧ s.storeReady p = true ∧ (s.quarter (quarterOf (coreOfCtx p.ctx))).stopped = false ∧
     ((s.modQuarter 0 fun x => { x with stopped := true }).quarter (quarterOf (coreOfCtx p.ctx))).stopped = true ∧ p.addr + p.bytes.length ≤ hbmBytes ∧
     (s.pend.take 1).all (fun q => q.ctx != p.ctx || !q.overlap p.home p.addr p.bytes.length) = true ∧
     (s.pend.take 1).any (fun q => q.overlap p.home p.addr p.bytes.length) = true ∧
     s.pend[2]? = some { p with addr := 0x101 } ∧
     ∃ q ∈ s.pend.take 2, q.ctx = 0 ∧ q.home = .hbm ∧ q.addr < 0x101 + 2 ∧ 0x101 < q.addr + q.bytes.length) := by
  unfold destOk; decide +kernel

/-- A plan of a vector access is checked as a whole and its elements move. -/
def loads (d : Fld) (ff : Bool) (plan : Act (List VElem × State)) : Bool :=
  thenOk plan fun x => thenOk (x.2.vecCheck (d.width / 8) false false ff x.1) fun y =>
    isOk (y.2.loadElems stE (d.width / 8) false (some 0) y.1)
def stores (d : Fld) (ff : Bool) (plan : Act (List VElem × State)) : Bool :=
  thenOk plan fun x => thenOk (x.2.vecCheck (d.width / 8) true false ff x.1) fun y =>
    isOk (y.2.storeElems (d.width / 8) (some 0) y.2.newAcc (y.2.pinsOf y.2.cur.core (locsOf y.1)) false (fun i => d.get (y.2.core.row (y.2.lane i))) y.1)

/-- A base pointer in s32, whose last lane reaches the end of the private region. -/
def stV : State := withS [(32, 0x8000000000000FFD), (33, 1)] stE
def fmV_ : FM := rm (.v 1) (.s 32) (.s 33) (msk := 0)

/-- Elements of each kind on a state whose L1 holds nothing: in memory, in the cluster's SRAM, in the stash, and one that
does not perform. -/
def elemsE : List (VElem × Ready) :=
  [(.at_ 0 0 0, .at_ (.hbm 0 0x4000 0x4000)), (.at_ 1 0 0, .at_ (.cluster 8)), (.at_ 2 0 0, .at_ (.stash 0x1000)),
   (.at_ 3 0 0, .unstored)]
theorem witness_sectorsAgree : sectorsAgree stE 1 elemsE := by
  refine ⟨by decide +kernel, fun x hx asid va pa h => ?_⟩
  simp only [elemsE, List.mem_cons, List.not_mem_nil, or_false] at hx
  rcases hx with rfl | rfl | rfl | rfl <;> simp only [Ready.at_.injEq, Loc.hbm.injEq, reduceCtorEq, and_false] at h
  obtain ⟨rfl, rfl, rfl⟩ := h
  refine ⟨rfl, by decide, by decide +kernel, fun y hy va' pa' h' _ => ?_⟩
  simp only [elemsE, List.mem_cons, List.not_mem_nil, or_false] at hy
  rcases hy with rfl | rfl | rfl | rfl <;> simp only [Ready.at_.injEq, Loc.hbm.injEq, reduceCtorEq, and_false] at h'
  obtain ⟨-, rfl, rfl⟩ := h'
  rfl

theorem witness_VectorLoadResults :
    isOk (stE.loadElems stE 1 false none elemsE) = true ∧ (elemsE.map fun x => stE.lane x.1.pos).Nodup ∧
    look stE.core.lines (0x1000 / 512) = none ∧ 0x1000 % 512 + 1 ≤ 512 ∧
    stV.guard k = true ∧ stV.vecData (.vld k fmV_) fmV_ false = .ok (i8 1) ∧
    (let f := { fmV_ with opb := .v 2 }
     stV.vecData (.vldx k f) f false = .ok (i8 1) ∧ stV.field f.opb .fm 0 .int = .ok (i8 2) ∧
     loads (i8 1) true (.ok (stV.planIndex { f with msk := 1 } 1 (i8 2), stV)) = true) ∧
    (let f := { fmV_ with opb := .h 0 }
     stV.vecData (.vldh k f) f false = .ok (i8 1) ∧ stV.typedCheck f.opb 8 = .ok () ∧
     loads (i8 1) false (stV.planHandle f 1) = true) ∧
    (laneReady (.vld k fmV_) stV (.v 1) (i8 1) [] stV ∧ stV.checkParity (i8 2) (List.range stV.slen) = .ok ()) ∧
    loads (i8 1) false (.ok ((stV.active 0).map fun i =>
      .at_ i (stV.fmBase fmV_ + (stV.sidx + BitVec.ofNat 64 i) * BitVec.ofNat 64 1) (stV.sidx + BitVec.ofNat 64 i), stV)) =
      true ∧
    loads (i8 1) false (.ok (stV.planDims { fmV_ with opb := .d 0 } 1, stV)) = true := by
  unfold laneReady
  repeat' apply And.intro
  all_goals first | decide +kernel | (with_reducible apply popAll_plain <;> decide +kernel) | exact of_goes (by decide +kernel)

theorem witness_VectorStoreResults :
    isOk (stE.storeElems 1 (some 0) 0 [] false (fun i => i) (elemsE.filter fun x => x.1.pos != 2)) = true ∧
    isOk (stE.storeElems 1 (some 0) 0 [] false (fun i => i) [(.at_ 2 0 0, .at_ (.stash 0x1000)), (.at_ 1 0 0, .at_ (.stash 0x1001))]) =
      true ∧
    stV.guard k = true ∧ stV.vecData (.vst k fmV_) fmV_ false = .ok (i8 1) ∧ stV.popAll [.v 1, .v 2] = .ok stV ∧
    stV.checkParity (i8 1) (List.range stV.slen) = .ok () ∧ stV.checkParity (i8 2) (List.range stV.slen) = .ok () ∧
    stores (i8 1) false (.ok ((stV.active 0).map fun i =>
      .at_ i (stV.fmBase fmV_ + (stV.sidx + BitVec.ofNat 64 i) * stV.val fmV_.opb) (stV.sidx + BitVec.ofNat 64 i), stV)) =
      true ∧
    stores (i8 1) true (.ok (stV.planIndex { fmV_ with opb := .v 2, msk := 1 } 1 (i8 2), stV)) = true ∧
    stores (i8 1) false (.ok (stV.planDims { fmV_ with opb := .d 0 } 1, stV)) = true ∧
    stV.typedCheck (.h 0) 8 = .ok () ∧ stores (i8 1) false (stV.planHandle { fmV_ with opb := .h 0 } 1) = true := by
  repeat' apply And.intro
  all_goals first | decide +kernel | (with_reducible apply popAll_plain <;> decide +kernel) | exact of_goes (by decide +kernel)

/-! ## Witnesses: stash, atomics, barriers -/

/-- Bytes of memory and of cluster SRAM laid down: (address, bytes, value). -/
def withMem (l : List (Nat × Nat × Nat)) (s : State) : State := l.foldl (fun s x => s.poke x.1 x.2.1 x.2.2) s
def withCls (l : List (Nat × Nat × Nat)) (s : State) : State := l.foldl (fun s x => s.writeCls x.1 (leBytes x.2.1 x.2.2)) s

/-- Line 1 of the stash is bound, one sector clean, one DIRTY, two INVALID. -/
def stL : State :=
  withS [(1, 0x9000000000000200), (2, 0x4400), (3, 0x8000000000000000), (4, 0x10)]
    (stF.modCoreAt 0 fun k =>
      { k with due := [6]
               lines := [(1, { va := 0x4200, asid := 0, frame := some { pa := 0x4200, new := none, w := true }
                               secs := ((Vector.replicate 4 SectorState.invalid).set 1 .clean).set 2 (.dirty 3) })] })

theorem witness_StashMaintenanceResults :
    (let f := rm (.s 0) (.s 1) (.s 4)
     stL.guard k = true ∧ stL.scope f.scope (.prf k f) = .ok .none ∧ stL.ownStash (stL.fmBase f) 1 = .ok 0x200 ∧
     stL.core.stalled (512 * (0x200 / 512)) 512 true = false ∧
     thenOk (stL.dropLine stL.cur.core (0x200 / 512)) (fun u => (look u.core.lines (0x200 / 512)).isSome) = true ∧
     thenOk (stF.dropLine stF.cur.core 0) (fun u => look u.core.lines 0 == none) = true) ∧
    (stL.val (.s 0) = 0 ∧ bindable (stL.val (.s 2)) = true ∧ stL.val (.s 2) ≠ 0) ∧
    (let f := rm (.s 0) (.s 3) (.s 0) (scope := .core)
     stL.scope f.scope (.cmoInv k f) = .ok .core ∧ malformed (stL.fmBase f) = none ∧ windowOf (stL.fmBase f) = 8 ∧
     thenOk (stL.scalarLoc (stL.fmBase f) 1 1 false) (fun x => x.1 == .hbm 0 0x4000 0x4000) = true) ∧
    (let f := rm (.p 3) (.s 1) (.s 4)
     destOk stL f.opd ∧ stL.ownStash (stL.fmBase f) (stL.val f.opb).toNat = .ok 0x200 ∧
     stL.core.stalled 0x200 (stL.val f.opb).toNat false = false ∧
     isOk (stL.fillRange (stL.fmBase f) (granules 7 0x200 (stL.val f.opb).toNat)) = true) ∧
    (let l : Line := { va := 0x4200, asid := 0, frame := some { pa := 0x4200, new := none, w := true }
                       secs := ((Vector.replicate 4 SectorState.invalid).set 1 .clean).set 2 (.dirty 3) }
     look (stL.coreAt 0).lines 1 = some l ∧ l.secs.get 0 = .invalid ∧ l.secs.get 1 ≠ .invalid ∧ l.secs.get 2 = .dirty 3 ∧
     stL.lineFrame l 0 false = .at_ 0x4200 { pa := 0x4200, new := none, w := true } ∧
     stL.lineFrame l 2 true = .at_ 0x4300 { pa := 0x4200, new := none, w := true } ∧
     stL.claimed 0x4200 128 = false ∧ stL.claimed 0x4300 128 = false ∧
     4 * 1 + 2 ∈ (stL.coreAt 0).due ∧ 4 * 1 + 1 ∉ (stL.coreAt 0).due ∧ 0x4200 + 128 * 2 = 134 * 128 ∧
     (stL.quarter (quarterOf 0)).stopped = false ∧ stL.pinsHeld 0 < 4096 ∧
     rising stL.cores = true ∧ (∀ x ∈ stL.cores, rising x.2.lines = true) ∧
     (stL.cores.all fun x => x.2.lines.all fun y => (List.finRange 4).all fun k =>
       (match y.2.secs.get k with
        | .dirty _ => false
        | _ => true) || (x.1 == 0 && y.1 == 1 && k == 2)) = true ∧
     (let u := stL.modCoreAt 1 fun c => { c with lines := [(7, { l with frame := some { pa := 0x8000, new := none, w := true } })] }
      u.cores.length = 2 ∧ ∀ x ∈ u.cores, ∀ y ∈ x.2.lines, ∀ k : Fin 4, (x.1 ≠ 0 ∨ y.1 ≠ 1 ∨ k ≠ 2) →
        y.2.frame ≠ none ∧ u.secIs y.2 k (134 * 128) none = false)) ∧
    (look stL.cores 0).isSome = true := by
  unfold destOk
  repeat' apply And.intro
  all_goals first | decide +kernel | exact of_goes (by decide +kernel)

/-- An atomic goes through: publication, the operation at the home, refresh. -/
def atomicGoes (s : State) (p : Word) (sc : Scope) (g : Nat → Option Nat) : Bool :=
  thenOk (s.scalarLoc p 8 8 true) fun x => thenOk (x.2.publish x.2.key (atomicScope x.1 sc)) fun s2 =>
    thenOk (s2.ctxAtomic s2.key x.1 8 g) fun y => !y.2.1 && isOk (y.2.2.refresh y.2.2.key (atomicScope x.1 sc))

theorem witness_AtomicResults :
    (stP.guard k = true ∧ destOk stP (.s 5) ∧ stP.scope .device (.amo k .add (rm (.s 5) (.s 1) (.s 2) (scope := .device))) = .ok .device) ∧
    atomicGoes stP 0x8000000000000FF8 .device (fun o => some (amoVal .add 64 o 1)) = true ∧
    atomicGoes stP 0x900000000003FFF8 .device (fun o => if o = 0 then some 5 else none) = true ∧
    atomicGoes stP 0xA000000000000008 .device (fun o => if o = 1 then some 5 else none) = true ∧
    thenOk (stP.scalarLoc 0x8000000000000FF8 8 8 true) (fun x => x.1 == .hbm 0 0x4FF8 0x4FF8) = true ∧ (1 : Nat) ≤ 1 := by
  unfold destOk
  repeat' apply And.intro
  all_goals first | decide +kernel | exact of_goes (by decide +kernel)

/-- A list of one update entry at 0x40000, a bin set in the cluster's SRAM, its counts and its list. -/
def binSetBits : Nat :=
  0x60000 + 512 * 2 ^ 64 + 1 * 2 ^ 96 + 0x70000 * 2 ^ 128 + 4 * 2 ^ 192 + 2 * 2 ^ 232 + 0xA000000000000400 * 2 ^ 256 +
  0xA000000000000200 * 2 ^ 320
def stS : State :=
  withS [(1, 0x40000), (2, 0x20000000001), (3, 0xA000000000000000), (4, 0x50000), (5, 0xA000000000000800), (7, 0x20000000000)]
    (withMem [(0x40000, 8, 5), (0x40008, 8, 0x60004), (0x50000, 8, 1), (0x50008, 8, 5), (0x50010, 8, 0x60004)]
      (withCls [(0, 64, binSetBits), (0x800, 4, 2)] stF))

theorem witness_VectorAtomicsAndReductions :
    (let f := rm (.v 9) (.s 32) (.v 3) (ph := true) (scope := .device)
     let s := withS [(32, 0x8000000000000000)] stE
     let i := Instr.vamo k .add f
     s.guard k = true ∧ s.vecData i f true = .ok (fld 9 (.int true 32) 192) ∧ s.field (.v 3) .fm 0 .int = .ok (i8 3) ∧
     s.scope .device i = .ok .device ∧ s.popAll [.v 9, .v 3] = .ok s ∧
     s.checkParity (fld 9 (.int true 32) 192) (List.range s.slen) = .ok () ∧ s.checkParity (i8 3) (List.range s.slen) = .ok () ∧
     thenOk (s.vecCheck 4 true true false ((s.planIndex f 4 (i8 3)).map fun e => { e with i1 := 0 })) (fun x =>
       x.2.inBody && thenOk (x.2.publish x.2.key (elemsScope x.1 .device)) fun s3 =>
       thenOk (s3.atomicElems s 4 (amoVal .add 32) (fun j => (fld 9 (.int true 32) 192).get (s3.core.row (s3.lane j))) x.1) fun s4 =>
         isOk (s4.refresh s4.key (elemsScope x.1 .device))) = true) ∧
    ((stF.modCtx fun x => { x with sends := [0] }).ctx.sends.contains 0 = true ∧ stF.issuerSlot = 0 ∧ stF.sentBy stF.key 0 = [] ∧
      stF.replayOf stF.key 0 = false) ∧
    (let rs := stS.feRegs (re (.s 0) (.s 1) (.s 0) 1 .none 0)
     stS.ctx.sends.contains stS.issuerSlot = false ∧ rs.getD 1 0 >>> 45 = 0 ∧
     applyOk (scredOp (rs.getD 1 0)) (scredZ (rs.getD 1 0)) = true ∧
     thenOk (stS.readEntries (rs.getD 0 0) (bitsAt (rs.getD 1 0) 42 3) (bitsAt (rs.getD 1 0) 0 32) 0) (fun x =>
       x.1 != [] && isOk (stS.checkEntries (scredZ (rs.getD 1 0)) x.1 none) &&
         ((trainsOf (scredZ (rs.getD 1 0)) x.1).foldl (fun (r : Option State) t =>
           r.bind fun s' => s'.send s'.ctx.ten s'.cur.core t.1 s'.asid false (scredOp (rs.getD 1 0)) (scredZ (rs.getD 1 0)) t.2
             (.issuer s'.key stS.issuerSlot)) (some x.2)).isSome) = true ∧
     thenOk (stS.readEntries (rs.getD 0 0) 0 (bitsAt (0x20000000000 : Word) 0 32) 0) (fun x => x.1 == []) = true ∧
     stF.ctx.sends.contains stF.issuerSlot = false ∧ (0x200000000000 : Word) >>> 45 ≠ 0 ∧
     applyOk (scredOp 0xFF00000000) (scredZ 0xFF00000000) = false) ∧
    stS.replaying 0xA000000000000000 = false ∧
    (thenOk (stS.binSet 0xA000000000000000 (.binap k (re (.s 0) (.s 3) (.s 4) 0 .none 0))) (fun x =>
       isOk (stS.needWindow (stS.val (.s 4)) [0, 10]) && thenOk (x.2.scalarVal (stS.val (.s 4)) 8) fun y =>
         thenOk (y.2.readEntries (stS.val (.s 4) + 8) (bitsAt (BinSet.ofBits x.1).rbase 54 3) y.1 0) fun z =>
           isOk (stS.checkEntries (BinSet.ofBits x.1).zlog z.1 none) &&
             isOk (z.2.engDo (z.1.forM fun e => binPlace (z.2.agentOf z.2.key) (BinSet.ofBits x.1) e.2.1 e.1 (e.2.1 % 2 ^ 54)))) = true) ∧
    (isOk (stS.scope .none (.binpl k (re (.s 0) (.s 3) (.s 5) 0 .none 0))) = true ∧ stS.checkBarrier (stS.val (.s 5)) = .ok () ∧
     isOk (stS.binSet 0xA000000000000000 (.binpl k (re (.s 0) (.s 3) (.s 5) 0 .none 0))) = true ∧
     stS.ctx.sends.contains stS.issuerSlot = false) := by
  repeat' apply And.intro
  all_goals first | decide +kernel | (with_reducible apply popAll_plain <;> decide +kernel) | exact of_goes (by decide +kernel)

theorem witness_BarrierResults :
    (stS.guard k = true ∧ thenOk (stS.scopeOperand (.sc .device) (.phase k (rr (.s 0) (.sc .device) (.s 0)))) (fun sc =>
      sc == .device && isOk (stS.boundary stS.key sc)) = true) ∧
    ((stS.val (.s 0)).toNat = 0 ∧ 1 ≤ (0xFFFFFFFF : Word).toNat ∧ (0xFFFFFFFF : Word).toNat < 2 ^ 32 ∧
      2 ^ 32 ≤ (stS.val (.s 3)).toNat ∧
      thenOk (stS.barLoc (stS.val (.s 5))) (fun x => thenOk (x.2.drainLoc x.2.key x.1 16) fun s2 =>
        isOk (s2.homeWrite s2.cur.core x.1 (leBytes 16 0xFFFFFFFF) false)) = true) ∧
    (destOk stS (.s 6) ∧ stS.subScope 4 (.bararr k (rr (.s 6) (.s 5) (.s 0) (sub := 4))) = .ok .device ∧
      thenOk (stS.barLoc (stS.val (.s 5))) (fun x => thenOk (x.2.publish x.2.key .device) fun s2 =>
        thenOk (s2.ctxAtomic s2.key x.1 16 fun o => some (arrive o 1)) fun y => !y.2.1) = true) ∧
    (stS.subScope 4 (.barwait k (rr (.s 0) (.s 5) (.s 0) (sub := 4))) = .ok .device ∧
      thenOk (stS.barRead (stS.val (.s 5))) (fun x => x.1 == (stS.val (.s 0)).toNat % 2 ^ 32 &&
        x.1 != (stS.val (.imm 1)).toNat % 2 ^ 32 && isOk (x.2.passBarrier .device)) = true) ∧
    ((2 ^ 128 - 1 < 2 ^ 128 ∧ 2 ^ 32 - 1 < 2 ^ 32) ∧ barCur 2 + 1 < barExp 2 ∧ barExp 2 ≤ barCur 2 + 2) := by
  unfold destOk
  repeat' apply And.intro
  all_goals first | decide +kernel | exact of_goes (by decide +kernel)

/-! ## Witnesses: cards, gathers, streams -/

/-- The eight data registers of a card laid into s8 to s15, each barrier at cluster address 0x100. -/
def cardRegs (l : List Word) (s : State) : State :=
  (l.zipIdx.foldl (fun s x => s.writeS (Fin.ofNat 64 (8 + x.2)) x.1) s)
def bar0 : Word := 0xA000000000000100
def cardF : FE := re (.s 0) (.s 8) (.s 0) 7 .cluster 0

/-- One card of each kind, with the least LEN and ROWS the kind allows, and a remote one. -/
def cardsW : List (CardKind × List Word) :=
  [ (.copy, [0x8000000000000000, 0x9000000000000200, 0x100000001, 0x700000009, 0, 0, bar0, bar0]),
    (.copy, [0x8000000000000000, 0x40000, 0x100000001, 0, 0, 0x401, 0, bar0]),
    (.rcopy, [0x8000000000000008, 0x8000000000000800, 0x100000000, 0, 0x200 + 4, 0, 0, 0]),
    (.tile, [0x100000, 0, 0x100008000, 0, 0x3E, 0, 0, bar0]),
    (.nb8p, [0x8000000000000000, 0x9000000000000200, 0x100000001, 0, 8 + 9 * 32 + 6 * 1024, 0, 0, bar0]),
    (.nb8u, [0x8000000000000000, 0x9000000000000200, 0x100000001, 0, 6 + 10 * 32 + 8192, 0, 0, bar0]),
    (.rerot, [0x8000000000000000, 0x8000000000000400, 0x100000008, 0, 0x3F8000000000 * 2 ^ 16 + 0x20000 + 8, 3, 0, 0]),
    (.kvpatch, [0x8000000000000000, 0x8000000000000400, 0x100000001, 0, 0x8000000000000200, 1, 0, 0]),
    (.kvcompact, [0x8000000000000000, 0x8000000000000400, 0x100000001, 0, 0x8000000000000200, 1, 0, 0]),
    (.fill, [0, 0x9000000000000200, 0x100000001, 0, 0xAB, 0, 0, 0]) ]

def cardIssues (k' : CardKind) (l : List Word) : Bool :=
  let s := cardRegs l stF
  let r := s.feRegs cardF
  let a := s.agentOf s.key
  let live := fun (x : List Range) => (x.filter fun y => y.len != 0).map fun y => y.region a
  let es := scoresOf a.core s.nextId (live (cReads k' r))
    (live (cWrites k' r) ++ (cSlots k' r).map fun b => { space := .tile a.core, lo := b, hi := b + 1 : Region })
  s.guard k && goes (s.scope cardF.scope (.card k k' cardF)) .cluster && isOk (s.checkBarrier (r.getD 6 0)) &&
  isOk (s.checkBarrier (r.getD 7 0)) && ((List.range 6).all fun n => regOk k' r n) &&
  isOk (s.checkRanges (cReads k' r ++ cWrites k' r)) && decide (es.length ≤ 32) &&
  decide ((s.cardsOf (quarterOf a.core)).length < 1024) && decide (s.core.scores.length + es.length ≤ 32)

theorem witness_CardIssue :
    (cardsW.all fun x => cardIssues x.1 x.2) = true ∧
    (let s := cardRegs [0x9000000000000000, 0x9000000000000200, 0x100000001, 0, 0, 0, 0, 0] stF
     (scoresOf 0 s.nextId ((cReads .copy (s.feRegs cardF)).map fun y => y.region (s.agentOf s.key)) []).length = 1) ∧
    (stF.guard k = true ∧ destOk stF (.s 5)) := by
  unfold destOk
  repeat' apply And.intro
  all_goals decide +kernel

/-- A queued COPY card of one byte and a second one that follows it. -/
def cardW (id : Nat) (ph : CardPhase) (row : Nat) (after : List Nat) : Card :=
  { id := id, ctx := 0, kind := .copy, rm := .rne, scope := .cluster, agent := stF.agentOf stF.key, ten := ctxA.ten
    regs := Vector.ofFn fun i => ((cardsW.map Prod.snd).headD []).getD i 0, pc := 0x1003, st := 1, after := after, reads := [], writes := []
    n := 1, row := row, kept := 0, phase := ph, wait := none, record := none, suspended := false, err := false, engine := none
    loaded := none, dest := [], pinned := [] }
def withCards (l : List Card) (s : State) : State := { s with cards := l }
def stJ : State := withCards [cardW 0 .queued 0 [], cardW 1 .queued 0 [0]] stF

def gathF : FE := re (.s 0) (.s 8) (.s 3) 3 .cluster 0
/-- One i32 index, with rows of one byte, into the stash; and no index at all. -/
def stGa (n : Nat) : State :=
  withS [(3, bar0), (8, 0x8000000000000000), (9, BitVec.ofNat 64 (n + 2 ^ 40)), (10, 0x40000), (11, 0x9000000000000200)] stF
def gatherW (n : Nat) : Gather :=
  { id := 0, ctx := 0, regs := Vector.ofFn fun i => ((stGa n).feRegs gathF).getD i 0, vis := bar0, agent := stF.agentOf stF.key
    ten := ctxA.ten, pc := 0x1003, bins := none, engine := some 0, next := 0, atEnd := false, record := none, slot := 0
    faulted := false }
/-- An engine's action goes on, with a value of which `f` holds. -/
def engOk {α : Type} (x : Except Snag (α × State)) (f : α × State → Bool) : Bool :=
  match x with
  | .ok a => f a
  | .error _ => false

/-- A `binpl` whose replay has not ended waits. -/
theorem witness_BinplWaits :
    (let s := { stF.modCtx fun x => { x with sends := [0] } with gathers := [{ gatherW 1 with bins := some (bar0, 0) }] }
     s.ctx.sends.contains s.issuerSlot = true ∧ s.replayOf s.key s.issuerSlot = true ∧ s.guard k = true) := by
  decide +kernel

theorem witness_CardAndGatherLife :
    ((stJ.quarter 0).stopped = false ∧ stJ.freeEngine 0 = some 0 ∧
      (stJ.cardsOf 0).find? stJ.cardReady = some (cardW 0 .queued 0 []) ∧
      (let s := withCards [cardW 1 .queued 0 [0]] stF
       (s.cardsOf 0).find? s.cardReady = some (cardW 1 .queued 0 [0]))) ∧
    (let c := { cardW 0 .running 0 [] with engine := some 0 }
     let s := withCards [c] stF
     s.cards.find? (fun x => x.id == c.id) = some c ∧ s.cardGoes c = true ∧ c.loaded = none ∧ c.kind = .copy ∧
     engOk (cardStep c s) (fun x => cRows x.1.regs.toList == x.1.row + 1 && x.1.loaded.isSome &&
       (let t := withCards [x.1] x.2
        t.cards.find? (fun y => y.id == x.1.id) == some x.1 && t.cardGoes x.1) &&
       engOk (cardStep x.1 x.2) fun y => decide (cRows y.1.regs.toList ≤ y.1.row)) = true) ∧
    ([cardW 0 .moved 1 [], { cardW 0 .running 0 [] with loaded := some (0, []) }, { cardW 0 .running 0 [] with kind := .fill }].all
      fun c =>
      let s := withCards [c] stF
      s.cards.find? (fun x => x.id == c.id) == some c && !(s.quarter (cardQuarter c)).stopped &&
      (c.phase == .moved || c.phase == .running && (c.kind == .fill || c.loaded.isSome && c.row + 1 == cRows c.regs.toList)) &&
      engOk (engArrive c.agent (c.regs.get 6) c.n s) fun _ => true) = true ∧
    (let c := cardW 0 .released 1 []
     let s := withCards [c] stF
     s.cards.find? (fun x => x.id == c.id) = some c ∧ cardFree c = true ∧ (s.quarter (cardQuarter c)).stopped = false ∧
     (s.sent.any fun x => x.owner == .card c.id) = false ∧ c.kind = .copy ∧
     engOk (engArrive c.agent (c.regs.get 7) c.n s) (fun _ => true) = true) ∧
    ([0, 1].all fun n =>
      let s := stGa n
      let r := s.feRegs gathF
      s.guard k && goes (s.scope .cluster (.gath k gathF)) .cluster && isOk (s.checkBarrier (s.val gathF.opb)) &&
      ((List.range 4).all fun n => gathOk r n) && isOk (s.checkDestWindow (r.getD 3 0)) &&
      isOk (s.checkRanges (gReads r ++ gWrites r))) = true ∧
    (let g := gatherW 1
     let s := { stF with gathers := [g] }
     s.gathers.find? (fun x => x.id == g.id) = some g ∧ s.gatherGoes g = true ∧ g.atEnd = false ∧ g.engine = some 0 ∧
     g.total = g.next + 1 ∧ engOk (g.act s) (fun _ => true) = true) ∧
    (let g := { gatherW 1 with next := 1, atEnd := true, engine := none }
     let s := { stF with gathers := [g] }
     s.gathers.find? (fun x => x.id == g.id) = some g ∧ s.gatherGoes g = true ∧
     engOk (engArrive g.agent g.vis g.arrives s) (fun _ => true) = true) := by
  repeat' apply And.intro
  all_goals decide +kernel

/-- v28 and v31 name 32-bit columns; s1 points to a walk record: a table of one block of 16 tokens. -/
def stW : State :=
  withS [(1, 0x8000000000000040)] (withMem [(0x4040, 8, 0x8000000000000100), (0x4048, 8, 16), (0x4050, 8, 0x40000), (0x4058, 8, 0)]
    (stF.modCtx fun x => { x with fmap := (x.fmap.set 28 (ent 32 8 384)).set 31 (ent 8 1 448) }))
def rxW : FX := rx (.v 28) (.s 1) (.s 0) 0 0 0 0

theorem witness_StreamResults :
    (stW.guard k = true ∧ stW.streamReg (.v 28) (.strm k rxW) = .ok (0, 4) ∧
      stW.streamReg (.v 31) (.strm k { rxW with opd := .v 31 }) = .ok (3, 1)) ∧
    (stW.streamReg (.v 28) (.strmkv k rxW) = .ok (0, 4) ∧ 16 * (rxW.xf.toNat + 1) ≤ stW.core.vl ∧
      thenOk (stW.walkRecord (stW.val rxW.opa)) (fun w =>
        w.1 == [0x8000000000000100, 16, 0x40000, 0]) = true ∧ 16 < 2 ^ 32) ∧
    stW.streamReg (.v 28) (.strmxStop k (rr (.s 0) (.v 28) (.s 0))) = .ok (0, 4) ∧
    (destOk stW (.s 5) ∧ stW.strip? = none ∧ stW.streamReg (.v 28) (.strmxStat k (rr (.s 5) (.v 28) (.s 0))) = .ok (0, 4)) ∧
    (let s := stB.modCtx fun x => { x with fmap := x.fmap.set 28 (ent 32 8 384) }
     destOk s (.s 32) ∧ s.guard k = true ∧ s.strip? = some stripB ∧ s.pend = [] ∧
     (s.ctxAt (ctxNum 0 0)).streams.get 3 = none ∧
     (let x : Stream := { kv := false, base := 0x40000, dims := [], z := 4, unit := true, table := 0, len := 0, row := 0, next := 0
                          pops := 0, ahead := [], delivered := [], chosen := none, deferred := [] }
      ((s.modCtx fun y => { y with streams := y.streams.set 3 (some x) }).ctxAt (ctxNum 0 0)).streams.get 3 = some x) ∧
     s.streamReg (.v 28) (.strmxStat k (rr (.s 32) (.v 28) (.s 0))) = .ok (0, 4)) := by
  unfold destOk
  repeat' apply And.intro
  all_goals first | decide +kernel | exact of_goes (by decide +kernel)

/-! ## Witnesses: seep kernels -/

/-- A program of two words at 0x40000 and its parameter block: region 0x20000, one line, STAT at 0x30000. -/
def seepF : FE := re (.p 3) (.s 8) (.s 3) 5 .cluster 0
def stK (place : Nat) (stat : Word) : State :=
  withS [(3, bar0), (8, 0x40000), (9, 0x20000), (10, 1), (11, 0), (12, BitVec.ofNat 64 (2 + place * 2 ^ 16)), (13, stat)]
    (withMem [(0x40000, 8, 0x0000012348000000), (0x40008, 8, 0x2000000000000000)] stF)
def progK : List (BitVec 64) := [0x0000012348000000, 0x2000000000000000]
def unitW : SeepUnit := { SeepUnit.start 0 [0] with ops := [.idle], run := 1 }
def kernelW : Kernel :=
  { id := 0, ctx := 0, lg := none, pd := 3, prog := progK, xbase := 0x8000, rbase := 0x20000
    progAt := 0x40000, rlines := 1, frames := [0x20000, 0x20080, 0x20100, 0x20180], pinned := [], stat := 0, statAt := [], vis := bar0
    agent := stF.agentOf stF.key, ten := ctxA.ten, pc := 0x1003, stage := .running, fail := none, units := [unitW] }
def stU (k : Kernel) : State := { stF with kernels := [k], unit := some (0, 0) }

theorem witness_SeepKernelLife :
    ([(0, 0), (0, 0x30000), (1, 0)].all fun (x : Nat × Word) =>
      let s := stK x.1 x.2
      let r := s.feRegs seepF
      s.guard k && !s.awaitsClaim s.cur && goes (s.scope seepF.scope (.seep k seepF)) .cluster && kNw r == 2 &&
      thenOk (s.readSeep (r.getD 0 0) (kNw r) 0) (fun y => y.1 == progK) && isOk (s.checkKernelPointers r) &&
      isOk (s.checkBarrier (s.val seepF.opb)) && ((List.range 6).all fun n => kOk r n) && kPlace r == x.1 &&
      decide (bitsAt s.regs.aithresh 0 32 ≤ kIntens r)) = true ∧ destOk (stK 0 0) (.p 3) ∧
    ([0, 0x30000].all fun (stat : Word) =>
      let s := stK 0 stat
      let r := s.feRegs seepF
      thenOk (s.readSeep (r.getD 0 0) (kNw r) 0) fun y =>
        let k := y.2.newKernel (.p 3) r bar0 progK
        (y.2.kernels.all fun x => x.id != k.id) &&
        thenOk ((y.2.withKernel k).pinSectors (r.getD 1 0).toNat true (4 * kLines r) []) fun z =>
          thenOk (z.2.pinSectors (k.progAt / 128 * 128) false ((k.progAt % 128 + 8 * progK.length + 127) / 128) []) fun w =>
          let goesOn := fun (s4 : State) =>
            let k1 := { k with frames := z.1.reverse, pinned := s4.kernelPages k, statAt := s4.statFrames k.stat
                               units := unitsOf z.1.reverse, stage := .publish }
            isOk (State.seepPublish { s4 with kernels := y.2.kernels ++ [k1] } k1)
          if stat = 0 then goesOn w.2
          else thenOk (w.2.pinSectors stat.toNat true 24 []) fun v =>
            thenOk (v.2.pinSectors (stat.toNat + 3071) true 1 []) fun x => goesOn x.2) = true ∧
    (let k' := { kernelW with stage := .queued }
     let s := { stF with kernels := [k'] }
     s.kernels.find? (fun x => x.id == k'.id) = some k' ∧ s.live k'.issuer = true ∧ grantable [] k' = true ∧
     s.kernels.takeWhile (fun x => x.id != k'.id) = [] ∧ programRoom (s.modKernel 0 fun x => { x with stage := .claimed }).kernels k' = true ∧
     grantable [kernelW] k' = false ∧ programRoom (.replicate 4 kernelW) k' = false) ∧
    (let u := { unitW with failing := some (0, false) }
     let k' := { kernelW with units := [u] }
     (stU k').kernels.find? (fun x => x.id == k'.id) = some k' ∧ k'.units.find? (fun x => x.id == u.id) = some u ∧
     k'.fail = none) ∧
    (let k' := { kernelW with units := [{ unitW with halted := true }] }
     (stU k').kernels.find? (fun x => x.id == k'.id) = some k' ∧ k'.stage = .running ∧
     (k'.units.all fun u => u.halted && u.failing.isNone) = true ∧ k'.fail = none ∧ ((stU k').writeStat k').2 = true ∧
     ((stU k').quarter (quarterOf k'.agent.core)).stopped = false ∧
     (((stU k').releaseKernel k').quarter (quarterOf k'.agent.core)).stopped = false ∧
     engOk (engArrive k'.agent k'.vis k'.rlines ((stU k').releaseKernel k')) (fun _ => true) = true) ∧
    (let k' := { kernelW with stage := .failed, fail := some (0, 0, false) }
     ((stU k').putRecord (quarterOf k'.agent.core) (kernelRecord k' (0, 0, false))).isSome = true) := by
  unfold destOk
  repeat' apply And.intro
  all_goals decide +kernel

/-- The unit with registers, past its last line's columns, and with two lines. -/
def unitR : SeepUnit := { unitW with snap := unitW.snap.set 2 1, lines := [0, 0], cursor := 31 }

theorem witness_SeepUnitResults :
    (stU kernelW).unitAt = some (kernelW, unitW) ∧ (0 : Nat) < seepLanes 8 ∧ seepLanes 6 = 16 ∧
    (unitR.at_ + 1 < unitR.lines.length ∧ unitW.lines.length ≤ unitW.at_ + 1) ∧
    (kernelW.units.all fun v => v.id == unitW.id || v.halted || v.failing.isSome || unitW.syncs ≤ v.syncs) = true ∧
    (let va := kernelW.xbase.toNat + 32 * bitsAt (unitR.reg 2) 0 32
     let w := ((stU kernelW).tlbWalk (576 + unitR.id / 32) kernelW.agent.asid va).1
     kernelW.xbase ≠ 0 ∧ va < 2 ^ 57 ∧ (∀ log, w ≠ .absent log) ∧ (∀ a, w ≠ .poisoned a) ∧ w.physical va = some 0x8020) ∧
    (let b := (stU kernelW).backInvalidate (kernelW.column 0 0)
       (some (kernelW.agent.asid, kernelW.columnVa 0 0 / 128 * 128))
     b.trap = none ∧ b.waits = false ∧ kernelW.column 0 0 + 32 ≤ hbmBytes) ∧
    (unitR.isBad 2 = false ∧ { unitR with snapBad := [2] }.isBad 2 = true) ∧
    (unitR.reg 1 = 0 ∧ unitR.reg 2 ≠ 0 ∧ unitR.lines[unitR.cursor / 16]? = some 0 ∧
      ({ unitR with cursor := 32 }).lines[32 / 16]? = none) ∧
    stF.unit = none := by
  have h : ∃ n, ((stU kernelW).tlbWalk (576 + unitR.id / 32) kernelW.agent.asid
      (kernelW.xbase.toNat + 32 * bitsAt (unitR.reg 2) 0 32)).1 = n ∧
      (match n with
       | .absent _ => false
       | .poisoned _ => false
       | _ => true) = true := ⟨_, rfl, by decide +kernel⟩
  obtain ⟨n, hn, hm⟩ := h
  repeat' apply And.intro
  all_goals first | decide +kernel | (intro _ e; rw [hn] at e; rw [e] at hm; cases hm)

/-! ## Witnesses: handles, patterns, taps -/

/-- A handle of 4 × 16 elements whose second level is a pattern of the given KIND and NW at 0x40000. -/
def patH (kind nw : Nat) : Handle :=
  BitVec.ofNat 512 (0x201 + 4 * 2 ^ 19 + 4 * 2 ^ 64 + 16 * 2 ^ 96 + 0x40000 * 2 ^ 256 + (kind * 2 ^ 28 + 4 * 2 ^ 16 + nw) * 2 ^ 416)
/-- A dense handle of 4 × 16 elements, as it stands in memory at 0x50000 for the sub-handles of KIND 4. -/
def denseH : Handle := BitVec.ofNat 512 (0x201 + 2 * 2 ^ 64 + 2 * 2 ^ 96)
def stHd (h : Handle) (body : Bool) : State :=
  withS [(1, 0x60000), (2, 1), (33, 1)]
    (withMem [(0x50000, 64, denseH.toNat), (0x60000, 64, (patH 1 0).toNat), (0x60040, 64, 0x1F)]
      ((if body then stE else stF).modCtx fun x => { x with handles := x.handles.set 0 h }))
/-- Parameters: two words for KIND 1 to 3 and 5; the pointers of two sub-handles and the sides for KIND 4; a program that
emits its argument, forward and inverse, for KIND 0. -/
def parm3 (a b c : Nat) (s : State) : State := withMem [(0x40000, 4, a), (0x40004, 4, b), (0x40008, 4, c)] s
def parmKron (s : State) : State :=
  withMem [(0x40000, 4, 0x50000), (0x40004, 4, 0), (0x40008, 4, 0x50000), (0x4000C, 4, 0), (0x40010, 4, 2), (0x40014, 4, 2)] s
def parmProg (inv : Nat) (s : State) : State :=
  withMem [(0x40000, 4, 0xD0000000), (0x40004, 4, inv), (0x40008, 4, 0xD0000000), (0x4000C, 4, 0)] s
/-- A reading of a handle goes on. -/
def rdOk {α : Type} (x : Except Stop (α × State)) (f : α × State → Bool) : Bool :=
  match x with
  | .ok a => f a
  | .error _ => false

theorem witness_HandleForms :
    (let s := stHd (patH 1 0) false
     s.guard k = true ∧ s.inBody = false ∧
     thenOk (s.scalarRead (s.fmBase (rm (.h 0) (.s 1) (.s 0))) 64 64) (fun x => handleOk (BitVec.ofNat 512 (leVal x.1))) = true ∧
     thenOk (s.scalarLoc (s.fmBase (rm (.h 0) (.s 1) (.s 0))) 64 64 true) (fun x =>
       x.1 == .hbm 0 0x60000 0x60000 && isOk ((List.range 8).foldlM (fun w j => State.storeLoc w w.key (x.1.shift (8 * j))
         (leBytes 8 (hWord (x.2.handle (.h 0)) j).toNat) x.2.newAcc (x.2.pinsOf x.2.cur.core [x.1])) x.2)) = true ∧ destOk s (.s 5)) ∧
    (let s := withS [(1, 0x60040)] (stHd (patH 1 0) false)
     thenOk (s.scalarRead (s.fmBase (rm (.h 0) (.s 1) (.s 0))) 64 64) (fun x =>
       !handleOk (BitVec.ofNat 512 (leVal x.1))) = true) ∧
    (stE.guard k = true ∧ stE.inBody = true) ∧
    hPattern (ctxE.handles.get 0) = none ∧
    ([1, 2, 3, 5].all fun n => hPattern (patH n 0) == some 1 && hKind (patH n 0) 1 == n) = true ∧
    (hPattern (patH 0 4) = some 1 ∧ hKind (patH 0 4) 1 = 0 ∧
      rdOk (readWords (hPtr (patH 0 4) 1) 0 (hNw (patH 0 4) 1) 0 (parmProg 0xE0000000 (stHd (patH 0 4) false))) (fun x =>
        x.1.any fun w => w / 2 ^ 28 == 14) = true) ∧
    (hPattern (patH 4 0) = some 1 ∧ hKind (patH 4 0) 1 = 4 ∧
      rdOk (invertible (patH 4 0) 1 0 (parmKron (stHd (patH 4 0) false))) (fun x => x.1) = true) := by
  unfold destOk
  repeat' apply And.intro
  all_goals first | decide +kernel | exact of_goes (by decide +kernel)

/-- A handle of 4 × 16 elements whose second level has the given format, with its arrays at 0x40000, and those arrays: bounds
and coordinates 3 and 9, and the same bytes as a bitmap. -/
def lvlH (fmt : Nat) : Handle := BitVec.ofNat 512 (0x201 + fmt * 2 ^ 19 + 4 * 2 ^ 64 + 16 * 2 ^ 96 + 0x40000 * 2 ^ 256 + 16 * 2 ^ 416)
def stLv : State := withMem [(0x40000, 4, 0), (0x40004, 4, 2), (0x40010, 4, 3), (0x40014, 4, 9)] stF

theorem witness_PatternSets :
    (let s := parmKron (stHd (patH 4 0) false)
     let h := patH 4 0
     hKind h 1 = 4 ∧ rdOk (kronPtrs h 0 1 s) (fun p => rdOk (param h 1 4 0 p.2) fun r => rdOk (param h 1 5 0 r.2) fun c =>
       r.1 != 0 && c.1 != 0 && rdOk (subHandle p.1.1 0 2 c.2) fun a => rdOk (subHandle p.1.2 0 2 a.2) fun b =>
       [false, true].all fun inv =>
         rdOk (if inv then subParents a.1 0 (2 / c.1) b.2 else subSet a.1 0 (2 / r.1) b.2) fun sa =>
         rdOk (if inv then subParents b.1 0 (2 % c.1) sa.2 else subSet b.1 0 (2 % r.1) sa.2) fun _ =>
         rdOk (runPattern h 0 inv 1 2 s) fun z => decide (z.1.length ≤ hNpp h 1)) = true) ∧
    (let s := parmProg 0xE0000000 (stHd (patH 0 4) false)
     let h := patH 0 4
     hKind h 1 = 0 ∧ rdOk (readWords (hPtr h 1) 0 (hNw h 1) 0 s) (fun w => [false, true].all fun inv =>
       let start := if inv then (w.1.findIdx fun w => w / 2 ^ 28 == 0xE) + 1 else 0
       rdOk (runWords h 0 1 w.1 2 (subElement h 0 1 2) 65536 start (start - 1)
         (Run.start 2 (BitVec.ofNat 64 (if inv then hProd h 1 else hDim h 1))) w.2) fun e => e.1.1 == [2]) = true) ∧
    (let s := withMem [(0x40030, 8, 0x50000)] (parmProg 0xE0000000 (stHd (patH 0 4) false))
     let h := patH 0 4
     rdOk (param h 1 8 0 s) (fun lo => rdOk (param h 1 9 0 lo.2) fun hi =>
       rdOk (subHandle (BitVec.ofNat 64 (lo.1 + 2 ^ 32 * hi.1)) 0 2 hi.2) fun sh => rdOk (subSet sh.1 0 1 sh.2) fun set =>
       set.1 == [0, 1]) = true ∧
     [(0, 0), (1, 1), (2, 2 ^ 64 - 1)].all (fun (x : Nat × Nat) =>
       rdOk (subElement h 0 1 2 false 1 (BitVec.ofNat 64 x.1) s) fun v => v.1.toNat == x.2) = true) ∧
    ([(0x4A000005, 12), (0x7A000001, 3), (0x8A080000, 1), (0x9A080000, 7), (0xAA080000, 9)].all fun (x : Nat × Nat) =>
      rdOk (runWords denseH 0 1 [x.1, 0xD1400000, 0] 0 (fun _ _ _ => pure 0) 3 0 0 (Run.start 7 9) stF) fun e =>
        e.1.1 == [(x.2 : Int)]) = true ∧
    (let r := Run.start 5 9
     (0xC0080000 + 0x7FFFF) / 2 ^ 28 = 0xC ∧ (r.get (0xC0080000 / 2 ^ 22)).toInt < (r.get (0xC0080000 / 2 ^ 19)).toInt ∧
     (0 : Int) ≤ 1 + (BitVec.ofNat 19 (0xC0080000 + 0x7FFFF)).toInt ∧
     (r.get (0xC0400000 / 2 ^ 19)).toInt ≤ (r.get (0xC0400000 / 2 ^ 22)).toInt ∧ r.out.length < 8192) ∧
    (let run := fun h => runPattern h 0 false
     hFmt (lvlH 1) 1 = 1 ∧ hFmt (lvlH 2) 1 = 2 ∧ hFmt (lvlH 3) 1 = 3 ∧ hFmt (patH 1 0) 1 = 4 ∧
     rdOk (level (lvlH 1) 0 (run (lvlH 1)) 1 0 9 stLv) (fun x => x.1 == some 1) = true ∧
     rdOk (level (lvlH 1) 0 (run (lvlH 1)) 1 0 5 stLv) (fun x => x.1 == none) = true ∧
     rdOk (level (lvlH 2) 0 (run (lvlH 2)) 1 1 2 stLv) (fun x => x.1 == some 1) = true ∧
     rdOk (level (lvlH 3) 0 (run (lvlH 3)) 1 2 1 stLv) (fun x => x.1 == some 0) = true ∧
     rdOk (level (lvlH 3) 0 (run (lvlH 3)) 1 2 2 stLv) (fun x => x.1 == none) = true ∧
     rdOk (run (patH 1 0) 1 0 (parm3 1 2 0 (stHd (patH 1 0) false))) (fun x => x.1 == [0, 1, 2]) = true) ∧
    (canonSet 1 4 16 false 3 1 2 0 = some [2, 3, 4, 5] ∧ canonSet 1 4 4 true 0 1 2 0 = some [0, 1] ∧
      canonSet 2 4 16 false 3 2 5 0xFFFFFFFF = some [2, 7] ∧ canonSet 2 4 16 true 15 2 5 0 = some [10, 15] ∧
      canonSet 3 4 16 false 3 2 4 0 = some [4, 5, 6, 7] ∧ canonSet 3 4 16 true 3 2 4 0 = some [0, 1] ∧
      (canonSet 5 4 16 false 3 1 9 7).isSome = true ∧ (canonSet 5 4 16 true 3 4095 9 7).isSome = true) ∧
    (let h := ctxE.handles.get 0
     1 ≤ hNlev h ∧ (∀ l, l < hNlev h → hFmt h l = 0) ∧ 15 < hProd h (hNlev h) ∧ hProd h (hNlev h) ≤ 16) := by
  decide +kernel

/-- Element tests of a mask go on over the active lanes. -/
def stPr (h : Handle) (body : Bool) : State := parm3 1 2 0 (stHd h body)

theorem witness_PresenceAndGenerators :
    (let s := stPr (patH 1 0) true
     s.guard k = true ∧ s.vecStart (.hmaskLin k (rr (.m 2) (.h 0) (.s 0))) = .ok () ∧ hNlev (s.handle (.h 0)) ≠ 0 ∧
     rdOk (precheck (patH 1 0) s) (fun u => rdOk (presentLanes (fun i => do
       let r ← lookup (patH 1 0) (w64 (u.2.sidx.toNat + i)) (u.2.sidx.toNat + i)
       pure r.isSome) (u.2.active 0) u.2) fun v => v.1 == [(0, true), (1, true), (2, true)]) = true) ∧
    (let s := stPr denseH true
     let h := denseH
     s.vecStart (.hmaskTr k (rr (.m 2) (.h 0) (.s 33))) = .ok () ∧ hNlev h = 2 ∧ (s.val (.s 33)).toNat < hDim h 1 ∧
     hFmt h 1 ≠ 4 ∧
     rdOk (precheck h s) (fun u => rdOk (presentLanes (fun i => do
       let r ← lookup h (w64 (u.2.sidx.toNat + i)) ((u.2.sidx.toNat + i) * hDim h 1 + (u.2.val (.s 33)).toNat)
       pure r.isSome) (u.2.active 0) u.2) fun v => v.1 == [(0, true), (1, true), (2, false)]) = true) ∧
    (let s := stPr (patH 1 0) true
     hFmt (patH 1 0) 1 = 4 ∧ s.inBody = true ∧ (s.val (.s 33)).toNat < hDim (patH 1 0) 1 ∧
     rdOk (precheck (patH 1 0) s) (fun u => rdOk (checkLevel (patH 1 0) 1 (s.val (.s 33)).toNat u.2) fun u =>
       rdOk (invertible (patH 1 0) 1 0 u.2) fun v => v.1 &&
       rdOk (runPattern (patH 1 0) 0 true 1 (s.val (.s 33)).toNat v.2) fun w => w.1 == [0, 1, 2]) = true ∧
     rdOk (precheck (patH 5 0) s) (fun u => rdOk (checkLevel (patH 5 0) 1 (s.val (.s 33)).toNat u.2) fun u =>
       rdOk (invertible (patH 5 0) 1 0 u.2) fun v => !v.1) = true) ∧
    (let s := stPr (patH 1 0) false
     let h := patH 1 0
     s.guard k = true ∧ s.inBody = false ∧ hPattern h = some 1 ∧ 3 < hProd h 1 ∧ 15 < hDim h 1 ∧
     rdOk (checkLevel h 1 3 s) (fun u => rdOk (runPattern h 0 false 1 3 u.2) fun v => v.1 == [2, 3, 4, 5]) = true ∧
     rdOk (checkLevel h 1 15 s) (fun u => rdOk (invertible h 1 0 u.2) fun v => v.1 &&
       rdOk (runPattern h 0 true 1 15 v.2) fun w => w.1 == []) = true) ∧
    (let s := parmProg 0xE0000000 (stHd (patH 0 4) false)
     rdOk (checkLevel (patH 0 4) 1 2 s) (fun u => rdOk (runPattern (patH 0 4) 0 false 1 2 u.2) fun v => v.1 == [2]) = true ∧
     rdOk (invertible (patH 0 4) 1 0 s) (fun v => v.1 && rdOk (runPattern (patH 0 4) 0 true 1 2 v.2) fun w => w.1 == [2]) = true) ∧
    (let s := parmKron (stHd (patH 4 0) false)
     rdOk (checkLevel (patH 4 0) 1 2 s) (fun u => rdOk (runPattern (patH 4 0) 0 false 1 2 u.2) fun v => v.1 == [0, 1, 2, 3]) =
       true) ∧
    (stF.ctx.gens.get 0).left = [] ∧
    (let s := stE.modCtx fun x => x.setGen 1 { state := .ready, list := [5, 300], cursor := 0 }
     destOk s (.s 32) ∧ (s.ctx.gens.get 1).left = [5, 300] ∧ s.guard k = true ∧
     s.vecStart (.gnextVector k (rr (.v 1) (.g 1) (.m 2))) = .ok () ∧ s.field (.v 1) .fm 0 .int = .ok (i8 1) ∧
     s.checkStream (.v 1) (.gnextVector k (rr (.v 1) (.g 1) (.m 2))) = .ok ()) := by
  unfold destOk
  repeat' apply And.intro
  all_goals first | decide +kernel | exact of_goes (by decide +kernel)

/-- A tap of layer 5 over 2 dimensions, opened or not, with one way whose weights are 1.0; steering entries at 0x40000. -/
def wayW : Way := { entry := 9, wptr := 0x30000, bias := 0, thr := 0x40000000, sense := false }
def tapW (o : Bool) (cross : Bool) : Tap :=
  { isOpen := o, layer := 5, point := 1, d := 2, ways := [wayW], acc := if cross then [(0, 0x40400000)] else [], eval := 1, cross := 0 }
def stT (o cross body : Bool) (base : Word) : State :=
  withS [(32, 2 + 62 * 2 ^ 16), (33, base), (1, 0x300)]
    (withMem [(0x30000, 4, 0x3F800000), (0x30004, 4, 0x3F800000), (0x403E0, 8, 0x8000000000000100), (0x403E8, 8, 0x3F800000)]
      ((if body then stE else stF).modCtx fun x => { x with tap := tapW o cross }))
def rxT : FX := rx (.v 4) (.s 32) (.s 33) 5 0 0 1

def tapGoes (o : Bool) (base : Word) : Bool :=
  let s := stT o false true base
  let elem := fun (p : Nat) => (s.sidx + BitVec.ofNat 64 p).toNat
  let slotOf := fun p => bitsAt (s.val rxT.opa) 16 6 + elem p / 2
  let on := s.active rxT.msk
  thenOk (if base = 0 then .ok ([], s) else do s.needGlobal base 16; s.readSteer base (on.map slotOf).eraseDups) fun x =>
    thenOk (x.2.readVectors x.1 slotOf (fun p => elem p % 2) on) fun y =>
      isOk (y.2.checkParity (f32 4) (List.range y.2.slen)) &&
      y.2.tapPins (tapReads base (on.map slotOf).eraseDups x.1 slotOf (fun p => elem p % 2) on) &&
      let u := if s.ctx.tap.isOpen then y.2 else y.2.openTap rxT.xf.toNat rxT.sub.toNat 2
      decide (y.2.ctx.tap = s.ctx.tap) && u.badWeight u.ctx.tap.ways (on.map fun p => elem p % 2) == none &&
      decide (u.ctx.tap.ways.length ≤ 16) && (y.1.isEmpty == (base == 0))

theorem witness_TapResults :
    stF.inBody = false ∧
    (let s := stT true false true 0x40000
     s.guard k = true ∧ s.inBody = true ∧ s.vecStart (.tap k rxT) = .ok () ∧ s.field rxT.opd .fm 0 .any = .ok (f32 4) ∧
     s.checkStream rxT.opd (.tap k rxT) = .ok () ∧ bitsAt (s.val rxT.opa) 0 16 = 2 ∧ (s.val rxT.opa) >>> 22 = 0 ∧
     s.active rxT.msk = [0, 1, 2] ∧ (∀ p ∈ s.active rxT.msk, 62 + (s.sidx + BitVec.ofNat 64 p).toNat / 2 < 64) ∧
     (s.ctx.tap.isOpen = true → s.ctx.tap.layer = rxT.xf.toNat ∧ s.ctx.tap.point = rxT.sub.toNat ∧ s.ctx.tap.d = 2)) ∧
    (tapGoes true 0 = true ∧ tapGoes false 0 = true ∧ tapGoes true 0x40000 = true) ∧
    ((stT false false false 0).ctx.tap.isOpen = false ∧ (stT true false false 0).ctx.tap.isOpen = true ∧
      (tapW true true).crosses 0 0 wayW = true ∧ (tapW true false).crosses 0 0 wayW = false ∧
      (tapW true true).eval.getLsbD 0 = true) ∧
    ((stT true true false 0).guard k = true ∧ (stT true true false 0).inBody = false ∧ destOk (stT true true false 0) (.s 5) ∧
      (stT true true false 0).val (.s 2) &&& ~~~(0xF3F : Word) = 0) := by
  unfold destOk
  repeat' apply And.intro
  all_goals first | decide +kernel | exact of_goes (by decide +kernel)

/-! ## Witnesses: launches, gangs and pre-emption -/

/-- A record of one gang on loop context 0 of one core, entry 0x1000, with its PRIO, tag, DONEBAR and ARGPTR. -/
def recW (prio tag ngang : Nat) (done arg : Word) : Rec :=
  BitVec.ofNat 2048 (1 + 2 ^ 6 + 2 ^ 10 + 2 ^ 14 + 2 ^ 16 + prio * 2 ^ 20 + 4 * 2 ^ 24 + tag * 2 ^ 32 + ngang * 2 ^ 96 +
    0x1000 * 2 ^ 128 + 0x60000 * 2 ^ 448 + arg.toNat * 2 ^ 512 + 2 * 2 ^ 768 + 30 * 2 ^ 776 + 4 * 2 ^ 836 + 2 ^ 896 +
    done.toNat * 2 ^ 1664)
def launchW (id prio : Nat) (ready : Bool) (gangs : List Gang) : Launch :=
  { id := id, quarter := 0, record := recW prio 7 gangs.length bar0 0, asid := 0, ready := ready, withdrawn := false, lost := false
    journal := none
    gangs := gangs }
def gangW (num : Nat) (fate : GangFate) : Gang := { Gang.fresh num 0 0 [] with fate := fate, cores := if fate = GangFate.waiting then [] else [0] }
/-- No context runs; core 0 is the one of quarter 0 that is not disabled. -/
def stN (ls : List Launch) : State :=
  State.pokeTables { State.reset with
    launches := ls, nextId := 5, cores := (0, coreE) :: (List.range 79).map fun i => (i + 1, { Core.reset with dis := true }) }
/-- A record lies at 0x70000. -/
def stLa (r : Rec) : State := withS [(1, 0x70000)] (withMem [(0x70000, 256, r.toNat)] stF)
def launchF : FE := re (.s 5) (.s 1) (.s 0) 0 .device 4
def withJournal (size : Word) (prod : BitVec 32) (s : State) : State :=
  s.modQuarter 0 fun x => { x with jbase := 0x100, jsize := size, jprod := prod }

theorem witness_LaunchResults :
    ([recW 3 7 1 bar0 0, 0].all fun r =>
      let s := stLa r
      s.guard k && goes (s.scope .device (.launch k launchF)) .device &&
      thenOk (s.publish s.key .device) fun s1 => isOk (s1.place 0x70000 256 256) &&
        thenOk (s1.readRecord 0x70000) fun y =>
          (y.2.offer (BitVec.ofNat 2048 (leVal y.1)) (y.2.storeOf launchF.parm) y.2.asid (originLaunch y.2.key)).1 ==
            (if r = 0 then 2 else 0)) = true ∧
    destOk (stLa 0) (.s 5) ∧ wellFormedRecord 0 = false ∧ wellFormedRecord (recW 3 7 1 bar0 0) = true ∧
    ((withJournal 0x80000001 1 stF).quarter 0).journalFull = true ∧
    (let x := (withJournal 0x80000002 1 stF).quarter (Fin.ofNat 4 0)
     ¬(4096 ≤ (stF.launches.filter fun l => l.quarter == 0).length ∨ x.journalFull = true) ∧ x.journalSize ≠ 0) ∧
    (¬(4096 ≤ (stF.launches.filter fun l => l.quarter == 0).length ∨ (stF.quarter (Fin.ofNat 4 0)).journalFull = true) ∧
      (stF.quarter (Fin.ofNat 4 0)).journalSize = 0) := by
  unfold destOk
  repeat' apply And.intro
  all_goals decide +kernel

theorem witness_WithdrawalAndWindows :
    (stF.guard k = true ∧ destOk stF (.s 5) ∧ stF.owner.own ≠ 0 ∧ { stF.owner with own := 0 }.own = 0) ∧
    (let l := launchW 2 3 false [gangW 0 .waiting, gangW 1 .waiting]
     rTag l.record = 7 ∧ (7 : Nat) ≠ 0 ∧ l ∈ (stN [l]).launches) ∧
    ((248 + 7 < 256) ∧ ([0, 0, 0, 0, 0, 0, 0, 0] : List Byte) ≠ [] ∧
      248 + ([0, 0, 0, 0, 0, 0, 0, 0] : List Byte).length = 256) ∧
    ({ stF.regs with mgmtOnly := false }.mgmtOnly = false ∧ { stF.regs with mgmtOnly := true }.mgmtOnly = true) ∧
    ([false, true].all fun wd =>
      let l := { launchW 2 3 true [gangW 0 (if wd then .removed else .ended)] with withdrawn := wd }
      let u := (stN [l]).settleLaunches
      u.launch? 2 == some l && u.launchOver l && (u.finishLaunch l (if l.withdrawn then 3 else 1)).isSome) = true ∧
    (let l := { launchW 2 3 true [gangW 0 .ended] with lost := true }
     let u := (stN [l]).settleLaunches
     u.launch? 2 = some l ∧ u.launchOver l = true ∧ (u.finishLaunch l 2).isSome = true) := by
  unfold destOk
  repeat' apply And.intro
  all_goals decide +kernel

/-- A save record of a gang of launch 2. -/
def savedW : Saved := { launch := 2, gang := 0, units := 1, ctxs := [(0, ctxA)], lanes := [], cores := [] }

theorem witness_GangStarts :
    ([false, true].all fun saved =>
      let l := launchW 2 3 true [gangW 0 (if saved then GangFate.saved else .waiting)]
      let s := (stN [l]).modQuarter 0 fun x => { x with saves := if saved then [savedW] else [] }
      let u := s.schedule
      u.launch? 2 == some l &&
      (match l.gangs.find? fun x => x.num == 0 with
       | some g => u.placeable l g [0] && u.isNext l g
       | none => false) && !u.reserved 0 && !(u.quarter 0).stopped) = true ∧
    ([0, 0x61000].all fun (arg : Word) =>
      let r := recW 3 7 1 bar0 arg
      thenOk (stF.refresh stF.key .device) fun u => thenOk (u.scalarRead (rFmapPtr r) 128 128) fun v =>
        ((List.range 32).all fun n => entryOk u.ctx.win (BitVec.ofNat 32 (wordsOf 4 v.1 n))) &&
        (rArgPtr r == arg) && isOk (v.2.scalarRead (rArgPtr r + BitVec.ofNat 64 (64 * u.ctx.ten.index)) 64 64)) = true := by
  repeat' apply And.intro
  all_goals decide +kernel

/-- A gang of launch 2 runs on core 0, and one of higher PRIO in launch 3 waits. -/
def outW : Launch := launchW 2 3 true [gangW 0 .running]
def inW (fate : GangFate) : Launch := launchW 3 9 true [gangW 0 fate]
def stSw (step : Nat) (fate : GangFate) : State :=
  ({ stN [outW, inW fate] with
      ctxs := [(0, { ctxA with win := { ctxA.win with cn := 480 }, ten := { ctxA.ten with launch := 2, gang := 0 } })] }).modQuarter 0 fun x =>
    { x with savebase := 0x1000000, savelim := 0x1000, saves := if fate = GangFate.saved then [{ savedW with launch := 3 }] else []
             swap := if step = 0 then none
               else some { outLaunch := 2, outGang := 0, inLaunch := 3, inGang := 0, step := step, noted := false } }

theorem witness_SwapSteps :
    (let s := (stSw 0 .waiting).schedule
     s.gang? 2 0 = some (outW, gangW 0 .running) ∧ s.gang? 3 0 = some (inW .waiting, gangW 0 .waiting) ∧
     s.swapFree 0 = true ∧ (inW .waiting).ready = true ∧ (inW .waiting).nextGang = some (gangW 0 .waiting) ∧
     s.swapVictim 0 (outW, gangW 0 .running) (inW .waiting, gangW 0 .waiting) = true ∧
     ((s.runningGangs 0).all fun o => !s.swapVictim 0 o (inW .waiting, gangW 0 .waiting) ||
       victimBefore (outW, gangW 0 .running) o) = true ∧
     s.swapNext 0 (inW .waiting, gangW 0 .waiting) = true ∧
     s.waiterFor (outW, gangW 0 .running) = some (inW .waiting, gangW 0 .waiting)) ∧
    (let u := (stSw 0 .waiting).schedule.setGang 2 0 fun x => { x with expired := true }
     u.swapFree (gangW 0 .running).quarter = true ∧
     u.bestVictim (gangW 0 .running).quarter (outW, { gangW 0 .running with expired := true }) (inW .waiting, gangW 0 .waiting) = true ∧
     (stSw 1 .waiting).schedule.swapFree (gangW 0 .running).quarter = false) ∧
    (stSw 0 .ended).schedule.waiterFor (outW, gangW 0 .running) = none ∧
    (let x := fun (p n : Nat) (e : Bool) => (launchW 2 p true [], { gangW n .running with expired := e })
     rPrio (x 2 0 true).1.record < rPrio (x 3 0 true).1.record ∧ rPrio (x 2 0 true).1.record = rPrio (x 2 1 false).1.record ∧
     (x 2 0 true).2.expired = true ∧ (x 2 1 false).2.expired = false) ∧
    (let s := stSw 1 .waiting
     s.outgoing { outLaunch := 2, outGang := 0, inLaunch := 3, inGang := 0, step := 1, noted := false } = some (outW, gangW 0 .running) ∧
     (gangW 0 .running).fate = .running ∧
     { s with launches := [inW .waiting] }.outgoing { outLaunch := 2, outGang := 0, inLaunch := 3, inGang := 0, step := 1, noted := false } = none ∧
     (s.gangCtxs 2 0).any s.busyAt = false ∧ (s.aloneCores outW (gangW 0 .running)).any (s.stashWork outW (gangW 0 .running)) = false) ∧
    (let s := stSw 2 .waiting
     s.gangCtxs 2 0 = [0] ∧ (s.quarter 0).stopped = false ∧ s.saveFits 0 outW (gangW 0 .running) = true ∧
     (s.modQuarter 0 fun x => { x with savelim := 0 }).saveFits 0 outW (gangW 0 .running) = false ∧
     (match s.drainAll (s.gangCtxs 2 0) with
      | some u => (match u.emptyStashes (u.gangCtxs 2 0) (u.aloneCores outW (gangW 0 .running)) with
        | .ok _ => true
        | .error _ => false)
      | none => false) = true ∧
     (s.aloneCores outW (gangW 0 .running)).any (s.stashWork outW (gangW 0 .running)) = false) ∧
    ([GangFate.waiting, GangFate.saved].all fun fate =>
      let s := { stSw 4 fate with ctxs := [] }
      s.gang? 3 0 == some (inW fate, gangW 0 fate) && s.placeable (inW fate) (gangW 0 fate) [0] && !(s.quarter 0).stopped &&
        !(s.quarter (Fin.ofNat 4 (inW fate).quarter)).stopped) =
      true := by
  repeat' apply And.intro
  all_goals decide +kernel

/-- A record of a fault of context 0 that stands at sequence number 4 of the ring. -/
def recT (cls : Nat) (card : Option Nat) : TrapRec :=
  { seq := 4, gen := 0, team := 0, trap := { cause := .range, val := 0 }, pc := 0x1003, core := 0, ctx := 0, cls := cls, card := card }
def stQ (prod : BitVec 32) : State :=
  ({ stF with ctxs := [(0, { ctxA with status := .stalled, stall := some 4 })], owner := { stF.owner with own := 2 } }).modQuarter 0
    fun x => { x with tqprod := prod, tqcons := 4, ring := [(4, (recT 1 none, false))] }

theorem witness_TrapQueueResults :
    (let s := { stQ 251 with ctxs := [(0, { ctxA with record := some (recT 1 none) })] }
     (s.quarter 0).occupancy = 247 ∧ (s.quarter 0).stopped = false ∧
     s.ctxs.find? (fun c => quarterOf (coreOfCtx c.1) == 0 && c.2.heldRecord.isSome) =
       some (0, { ctxA with record := some (recT 1 none) })) ∧
    (let c := { cardW 0 .running 0 [] with record := some (recT 3 (some 0)) }
     let s := { stQ 5 with ctxs := [], cards := [c] }
     (s.quarter 0).occupancy < 248 ∧ (s.quarter 0).stopped = false ∧ s.ctxs = [] ∧
     (s.cardsOf 0).find? (fun c => c.record.isSome) = some c) ∧
    (let x := { savedW with ctxs := [(0, { ctxA with record := some (recT 1 none) })] }
     let s := { (stQ 5).modQuarter 0 fun y => { y with saves := [x] } with ctxs := [] }
     ((s.quarter 0).saves.flatMap fun y => y.ctxs.map fun c => (y, c)).find? (fun c => c.2.2.record.isSome) =
       some (x, (0, { ctxA with record := some (recT 1 none) }))) ∧
    (let g := { gatherW 1 with record := some (recT 3 none) }
     let s := { stQ 5 with ctxs := [], gathers := [g] }
     s.gathers.find? (fun y => quarterOf y.agent.core == 0 && y.record.isSome) = some g ∧ (s.cardsOf 0) = [] ∧
     (s.quarter 0).saves = []) ∧
    (let s := stQ 260
     s.owner.own = (2 : Fin 4).val ∧ ((s.quarter 0).tqprod - (4 : Word).setWidth 32).toNat = 256 ∧
     256 < ((s.quarter 0).tqprod - (3 : Word).setWidth 32).toNat ∧
     1 ≤ ((s.quarter 0).tqprod - (4 : Word).setWidth 32).toNat ∧ (recT 1 none).card = none ∧
     (s.quarter 0).actable ((4 : Word).setWidth 32) = some (recT 1 none) ∧ bitsAt (0x100000004 : Word) 33 31 = 0 ∧
     (s.ctxAt (ctxNum 0 0)).stalledFor ((4 : Word).setWidth 32) = true) := by
  repeat' apply And.intro
  all_goals decide +kernel

/-! ## Witnesses: pages, migration, prefixes -/

/-- The second gibibyte of address space 0 is ABSENT; the page at 2^31 is a level-3 leaf on frame 0x300000. -/
def stX : State :=
  withS [(1, 0x80000000), (2, 1), (4, 0x40000000), (5, 0x40000), (6, 2)]
    (withMem [(pokeTable + 8, 8, 2 ^ 63 + 2 ^ 61), (pokeTable + 16, 8, 2 ^ 62 + 0x2100), (0x210000, 8, 2 ^ 62 + 0x2200),
      (0x220000, 8, 2 ^ 62 + 2 ^ 60 + 0x30), (0x300000, 8, 0x1122)] stF)
def owned (m : Fin 4) (s : State) : State := { s with owner := { s.owner with own := m.val } }

theorem witness_PageForms :
    (let f := rm (.p 3) (.s 1) (.s 2)
     stX.guard k = true ∧ stX.pagePtr (stX.fmBase f) = .ok 0x80000000 ∧ (stX.val f.opb).toNat = 1 ∧
     stX.pagePtr (stX.fmBase { f with opa := .s 4 }) = .ok 0x40000000 ∧ (stX.val (.s 4)).toNat ≤ 2 ^ 30 ∧
     stX.pagesOf stX.asid 0x80000000 (0x80000000 + 1) 17 =
       [{ base := 0x80000000, log := 16, walk := .valid 16 0x300000 true false }] ∧
     destOk stX f.opd ∧ (addPin stX.xlat.pins stX.asid { base := 0x80000000, log := 16, walk := .invalid }).length = 1 ∧
     (let s := stX.setPins ((List.range 1024).map fun n => { asid := 1, base := 65536 * n, log := 16, count := 1 })
      1024 < (addPin s.xlat.pins s.asid { base := 0x80000000, log := 16, walk := .invalid }).length)) ∧
    ([(0, 0x80000000, 0x80000001), (1, 0x80000000, 0x80000001), (2, 0, 2 ^ 58)].all fun (x : BitVec 5 × Nat × Nat) =>
      let f := rr (.s 0) (.s 1) (.s 2) (sub := x.1)
      (decide (x.1 = 2) || goes (stX.pagePtr (stX.val f.opa)) x.2.1) && (stX.val f.opb).toNat == 1 &&
      thenOk (stX.drainAct stX.key) fun u => !u.unacked stX.key .core && isOk (u.invalidate { asid := stX.asid, lo := x.2.1, hi := x.2.2 } false (some stX.key))) = true ∧
    (bitAt stX.xlat.hotbase 0 = false ∧ stX.hotFrame (stX.val (.s 4)) = .ok none ∧
     (let s := { stX with xlat := { stX.xlat with hotbase := 0x1000001 } }
      let a := s.hotEntry 0x300000 + 4 * ((5 : BitVec 5).toNat % 3)
      bitAt s.xlat.hotbase 0 = true ∧ s.hotFrame (s.val (.s 1)) = .ok (some 0x300000) ∧ ((5 : BitVec 5).toNat < 6) ∧
      s.poisoned a 4 = false ∧ a + 4 ≤ hbmBytes ∧ { s with memPoison := [a / 64] }.poisoned a 4 = true ∧ destOk s (.s 7))) := by
  unfold destOk
  repeat' apply And.intro
  all_goals first | decide +kernel | exact of_goes (by decide +kernel)

/-- The page of stX is followed by INVALID ones, of which 16 are too many; the second gibibyte is ABSENT. -/
theorem witness_PinRanges :
    (let ps := stX.pagesOf stX.asid 0x80000000 (0x80000000 + 0x10001) 17
     ps.length = 2 ∧ ps = [{ base := 0x80000000, log := 16, walk := .valid 16 0x300000 true false }] ++
       [{ base := 0x80010000, log := 16, walk := .invalid }]) ∧
    16 < (stX.pagesOf stX.asid 0x80000000 (0x80000000 + 17 * 65536) 17).length ∧
    (let ps := stX.pagesOf stX.asid 0x40000000 (0x40000000 + 1) 17
     ps.length = 1 ∧ (∀ x ∈ ps, x.walk ≠ .invalid) ∧ ∃ x ∈ ps, x.walk.isAbsent = true) := by
  decide +kernel

theorem witness_RewalksAndCounts :
    ([(0x80000000, false), (0x40000000, true)].all fun (x : Nat × Bool) =>
      let s := stX.modCtx fun c => { c with waits := [(0, (0, x.1, 0))] }
      decide ((s.ctxAt 0).waits = [(0, (0, x.1, 0))]) && (s.walk 0 x.1).isAbsent == x.2) = true ∧
    ([(0x80000000, false), (0x40000000, true)].all fun (x : Nat × Bool) =>
      let c := { cardW 0 .running 0 [] with wait := some (0, x.1) }
      let s := withCards [c] stX
      s.cards.find? (fun y => y.id == c.id) == some c && (s.walk 0 x.1).isAbsent == x.2) = true ∧
    (let s := { stX with xlat := { stX.xlat with owed := [{ addr := 0x60000, kind := 2, n := 2 ^ 32 }] } }
     s.xlat.owed[0]? = some { addr := 0x60000, kind := 2, n := 2 ^ 32 } ∧ 0x60000 + 4 * 2 + 4 ≤ hbmBytes ∧
     s.hotBad 0x60000 2 = false) ∧
    ((stX.xlat.rqprod - stX.xlat.rqcons).toNat = 0 ∧
     256 ≤ ({ stX.xlat with rqprod := 256 }.rqprod - stX.xlat.rqcons).toNat) := by
  decide +kernel

/-- A kernel's region lies on an ABSENT page, where a DIRTY sector of a line that records no frame stands for it. -/
theorem witness_SeepWriteWaits :
    let k' := { kernelW with rbase := 0x40000000 }
    let s := ({ stX with kernels := [k'], unit := some (0, 0) } : State).modCoreAt 0 fun c =>
      { c with lines := [(1, { va := 0x40000000, asid := 0, frame := none, secs := (Vector.replicate 4 SectorState.invalid).set 0 (.dirty 3) })] }
    s.unitAt = some (k', unitW) ∧
    (s.backInvalidate (k'.column 0 0) (some (k'.agent.asid, k'.columnVa 0 0 / 128 * 128))).waits = true := by
  decide +kernel

/-- A migration of the page, at a point of its course. -/
def migG (done : Nat) : Migration := { va := 0x80000000, asid := 0, old := 0x300000, new := 0x400000, done := done }
def stMg (done : Nat) : State := stX.modQuarter 1 fun x => { x with migst := 1, migration := some (migG done) }

theorem witness_MigrationSteps :
    (let s := (owned 2 stX).modQuarter 1 fun x => { x with migva := 0x80000000 }
     s.owner.own = (2 : Fin 4).val ∧ (s.quarter 1).migst ≠ 1 ∧ bitsAt (0x80000000 : Word) 57 7 = 0 ∧
     bitsAt (0x80000000 : Word) 4 12 = 0 ∧ bitsAt (0x40 : Word) 24 40 = 0 ∧
     s.migratable (migAsid 0x40000000) (migPage 0x40000000) = none ∧
     s.migratable (migAsid (s.quarter 1).migva) (migPage (s.quarter 1).migva) = some 0x300000 ∧
     s.frameBad (0x40 * 65536) 65536 = false ∧ s.frameBad (0xFFFFFF * 65536) 65536 = true) ∧
    ([0, 1, 512, 513, 514, 515].all fun n =>
      let s := stMg n
      decide ((s.quarter 1).migration = some (migG n)) && !(s.quarter 1).stopped && isOk (s.invalidate (migG n).cover true) &&
      !s.pinnedIn (s.widen (migG n).cover) && !(s.xlat.owed.any fun o => o.addr == s.hotEntry (migG n).old)) = true ∧
    ((migG 1).old + 128 * 511 + 128 ≤ (migG 1).new + 128 * 511 ∧ (migG 1).new + 128 * 511 + 128 ≤ hbmBytes) ∧
    (0x300000 % 65536 = 0 ∧ (2 ^ 40 - 65536) % 65536 = 0 ∧ 2 ^ 40 - 65536 < 2 ^ 40 ∧ 512 ≤ 512) := by
  decide +kernel

/-- Entry 5 holds the prefix of hash 0xAB at depth 1 of address space 0, with its pins; its page word lies at 0x40000. -/
def stPx (pin : Nat) : State :=
  (withMem [(0x40000, 8, 0xAB), (0x40008, 8, 7 + 2 ^ 48)] stX).setPentry 5 (PEntry.make 0xAB 7 0 1 pin 0)
def rrPx : FR := rr (.s 7) (.s 5) (.s 2)

theorem witness_PrefixTableResults :
    ((stPx 0).guard k = true ∧ destOk (stPx 0) (.s 7) ∧ ((stPx 0).val (.s 2)).toNat = 1 ∧ ((stPx 0).val (.s 0)).toNat = 0 ∧
      thenOk ((stPx 0).readHashes ((stPx 0).val (.s 5)) 1 0) (fun x => x.2.bestPrefix x.1 == some 5) = true ∧
      thenOk (stX.readHashes (stX.val (.s 5)) 1 0) (fun x => x.2.bestPrefix x.1 == none) = true) ∧
    ([0, 1, 65535].all fun n =>
      let s := withS [(5, 5)] (stPx n)
      goes (s.pindex (s.val (.s 5))) 5 && s.pmatch 5 && pePin (s.pentry 5) == n && goes (s.pindex 63) 63 && !s.pmatch 63) = true ∧
    (thenOk ((stPx 0).scalarVal ((stPx 0).val (.s 5)) 8) (fun x => thenOk (x.2.scalarVal ((stPx 0).val (.s 5) + 8) 8) fun y =>
      x.1 == 0xAB && y.1 / 2 ^ 41 % 128 == 0 && y.1 / 2 ^ 48 == 1 && decide (y.1 < 2 ^ 64) &&
      ((List.range 64).find? fun e =>
        y.2.pmatch e && peHash (y.2.pentry e) == BitVec.ofNat 64 x.1 && peDepth (y.2.pentry e) == y.1 / 2 ^ 48) == some 5) = true ∧
      thenOk (stX.scalarVal (stX.val (.s 5)) 8) (fun x => ((List.range 64).find? fun e => x.2.pmatch e) == none && x.2.victim == some 0) =
        true ∧
      ((List.range 64).foldl (fun (s : State) e => s.setPentry e (PEntry.make 0xCD 7 0 1 1 0)) stX).victim = none) ∧
    (4096 < ((stPx 0).val (.s 4)).toNat ∧ 64 ≤ ((stPx 0).val (.s 4)).toNat ∧
      (let s := withMem [(0x40008, 8, 7)] (stPx 0)
       thenOk (s.scalarVal (s.val (.s 5)) 8) (fun x => thenOk (x.2.scalarVal (s.val (.s 5) + 8) 8) fun y => y.1 / 2 ^ 48 == 0 &&
         decide (y.1 < 2 ^ 64)) = true)) ∧
    (owned 2 stX).owner.own = (2 : Fin 4).val := by
  unfold destOk
  repeat' apply And.intro
  all_goals first | decide +kernel | exact of_goes (by decide +kernel)

/-! ## Witnesses: trains, links, the management window, events -/

def trainW (seq : BitVec 32) : Train :=
  { srcDev := 0, src := 3, seq := seq, asid := 0, write := false, op := 4, zlog := 2, elems := [{ va := 0x60000, val := 5, bad := false }] }
/-- A flit of a number, null or not, from a source device. -/
def flitW (seq : Nat) (null : Bool) (src : Nat) : Flit :=
  sealFlit (BitVec.ofNat 2048 (seq + (if null then 2 ^ 15 else 0) + src * 2 ^ 64))

set_option maxRecDepth 20000 in
theorem witness_TrainsAndLinks :
    (stX.parked = [] ∧ stX.trainHeld (trainW 1) = false ∧ bitAt stX.regs.domctl ((trainW 1).srcDev / 16) = true ∧
      (lookD stX.windows (trainPair (trainW 1)) { h := 0, marks := 0 }).take 0 ≠ .drop ∧
      (lookD (stX.ackTrain (trainW 1)).windows (trainPair (trainW 1)) { h := 0, marks := 0 }).take 1 = .drop ∧
      ((trainW 1).elems.all fun e => stX.destOf (trainW 1) e == .at_ 0x60000) = true ∧
      (stX.parked.any fun p => trainPair p.train == trainPair (trainW 1) && p.train.seq == 1) = false ∧
      ({ trainW 1 with elems := [{ va := 0xC0000000, val := 5, bad := false }] }).elems.head? =
        some { va := 0xC0000000, val := 5, bad := false } ∧
      stX.destOf (trainW 1) { va := 0xC0000000, val := 5, bad := false } = .fault .invalidPage 0 ∧
      ({ trainW 1 with srcDev := 9 }).srcDev ≠ bitsAt stX.regs.devnum 0 10 ∧ stX.planeOf 1 = some 1) ∧
    (fCrcOk (flitW 0 false 0) = true ∧ fCrcOk (flitW 0 false 0 ^^^ 1) = false ∧ fNull (flitW 0 false 0) = false ∧
      (stX.port 7).down = false ∧ fSeq (flitW 0 false 0) = (stX.port 7).rxseq ∧ fSeq (flitW 1 false 0) ≠ (stX.port 7).rxseq ∧
      stX.admits (flitW 0 false 0) = true ∧
      ({ stX with regs := { stX.regs with domctl := 0 } }).admits (flitW 0 false 0) = false) ∧
    ((stX.port 7).unacked = [] ∧
     ([0, 63, 64].all fun n =>
       let s := stX.setPort 7 { Port.reset with unacked := [flitW 0 false 0], resends := n }
       !(s.port 7).down && !(s.port 7).unacked.isEmpty && (s.port 7).resends == n) = true ∧
     ((stX.setPort 7 { Port.reset with down := true }).port 7).down = true) ∧
    ((owned 2 stX).owner.own = (2 : Fin 4).val ∧ (owned 2 stX).sent = []) := by
  repeat' apply And.intro
  all_goals decide +kernel

theorem witness_RefusedRegisterWrites : (owned 2 stX).owner.own ≠ (1 : Fin 4).val ∧ stX.owner.own = 7 ∧ 65535 < 2 ^ 16 := by
  decide +kernel

theorem witness_OwnerRegisterWrites :
    (let s := owned 2 stX
     s.owner.own = (2 : Fin 4).val ∧ (s.quarter 1).saves = [] ∧ (s.quarter 1).jprod = (s.quarter 1).jcons ∧
     (s.xlat.rqprod - (0 : Word).setWidth 32).toNat ≤ 256 ∧ s.coreEmpty 300 = true ∧ s.coreEmpty 0 = false ∧
     tspareOk (bitsAt (0x8000000000008421 : Word) 0 16) = true ∧ bitAt (0x8000000000008421 : Word) 63 = true ∧
     (∀ j, j < 4 → rowEntryOk ((List.range 4).foldl (fun (t : Table (BitVec 16)) j =>
       putOr 0 t (4 * (31 : Fin 32).val + j) ((0 : Word).extractLsb' (16 * j) 16)) (s.coreAt 300).rowSpare) (124 + j) = true) ∧
     (let u := s.modQuarter 1 fun x => { x with saves := [savedW] }
      (u.quarter 1).saves ≠ []) ∧
     s.xlat.tlbia = [] ∧
     (let x := { s with xlat := { s.xlat with tlbia := [(2, 0x10)] }
                        owner := { s.owner with replies := s.owner.replies.set 2 none } }
      isOk (x.invalidate { asid := 0, lo := 0, hi := 2 ^ 58 } true) = true) ∧
     s.probeOk 255 (setProbeWord (lookD s.serving.staging 255 0) 0 0) = true ∧
     s.probeOk 0 (setProbeWord (lookD s.serving.staging 0 0) 0 8) = false ∧ journalSizeOk (bitsAt (0x10000 : Word) 0 17) = true) ∧
    (100 ≤ bitsAt (100 : Word) 0 32 ∧ bitsAt (100000 : Word) 0 32 ≤ 100000 ∧ bitsAt (99 : Word) 0 32 < 100 ∧
      100000 < bitsAt (100001 : Word) 0 32) := by
  repeat' apply And.intro
  all_goals decide +kernel

theorem witness_OwnershipCommands :
    (let o := stX.owner
     let term : Word := 100 * 2 ^ 16
     o.cmdOk ((term &&& ~~~(7 : Word)) ||| BitVec.ofNat 64 1) = true ∧ o.own = 7 ∧ 100 ≤ bitsAt term 16 16 ∧
     ¬(100 ≤ bitsAt (99 * 2 ^ 16 : Word) 16 16)) ∧
    (let o := (owned 2 stX).owner
     let v : Word := 1 * 2 ^ 8 + 100 * 2 ^ 16
     ([2, 3, 5].all fun act => o.cmdOk ((v &&& ~~~(7 : Word)) ||| BitVec.ofNat 64 act)) = true ∧ o.own = (2 : Fin 4).val ∧
     bitsAt v 8 3 ≤ 3 ∧ bitsAt v 8 3 ≠ (2 : Fin 4).val ∧ bitsAt v 16 16 = 100 ∧
     ({ o with cand := 1 }.cmdOk ((v &&& ~~~(7 : Word)) ||| BitVec.ofNat 64 4) = true) ∧ { o with cand := 1 }.cand = (1 : Fin 4).val ∧
     o.own ≠ 7 ∧ { o with lease := 5 }.lease ≤ 5 ∧ 4 < { o with lease := 5 }.lease) ∧
    (let o := stX.owner.refuse 0 0 0 1
     o.mlogcons ≠ o.mlogprod) ∧ stX.owner.mlogcons = stX.owner.mlogprod := by
  decide +kernel

/-- The header of an image at 0x200000 that a program pointer names. -/
def stIm : State := { owned 2 stX with regs := { stX.regs with fwaddr := 0x200000, attaddr := BitVec.ofNat 64 (12 * 2 ^ 36 - 512) } }

theorem witness_ManagementWindow :
    (([1, 0, 0, 0, 0, 0, 0, 0] : List Byte).length = 8 ∧ (1 : Word) = BitVec.ofNat 64 (leVal [1, 0, 0, 0, 0, 0, 0, 0]) ∧
      (owned 2 stX).owner.own = (2 : Fin 4).val ∧ (owned 2 stX).noMigration = true ∧
      ([1, 2, 3, 4, 5].all fun n => bitsAt (BitVec.ofNat 64 n) 0 3 == n) = true) ∧
    (0x11 % 8 ≠ 0 ∧ ([1] : List Byte).length ≠ 8) ∧
    (let s := (owned 2 stX).modQuarter 3 fun x => { x with stopped := true }
     (8 : Word) = BitVec.ofNat 64 (2 ^ (3 : Fin 4).val) ∧ (s.quarter 3).stopped = true ∧ bitAt (8 : Word) (0 : Nat) = false ∧
     bitAt (1 : Word) (0 : Fin 4).val = true ∧ (s.quarter 0).stopped = false) ∧
    (bitsAt (1 : Word) 0 3 = 1 ∧ stIm.checkImage (BitVec.ofNat 1536 (rdVal stIm.mem stIm.regs.fwaddr.toNat 192))
        stIm.regs.fwaddr.toNat ≠ 0) ∧
    (stIm.regs.fwrun = none ∧ ({ stIm.regs with fwrun := some 0x200000 }).fwrun = some 0x200000) ∧
    (stIm.regs.attrun = none ∧ stIm.regs.attaddr.toNat + 512 ≤ 12 * 2 ^ 36 ∧ bitAt (1 : Word) 0 = true ∧
      ({ stIm.regs with attrun := some 0x200000 }).attrun = some 0x200000 ∧
      12 * 2 ^ 36 < ({ stIm.regs with attaddr := BitVec.ofNat 64 (12 * 2 ^ 36 - 448) }).attaddr.toNat + 512) := by
  repeat' apply And.intro
  all_goals decide +kernel

/-- Lane 9 of core 2 holds a tag error while its four contexts run. -/
def stSc : State :=
  { stX with ctxs := (List.range 4).map fun i => (ctxNum 2 i, ctxA), cores := [(2, { coreE with tagErr := [9] })] }

theorem witness_DeviceEvents :
    (stX.quarter 3).stopped = false ∧
    ((∀ lc : Fin 4, (stSc.ctxAt (ctxNum (2 : Fin 320) lc)).status = .running) ∧
      (stSc.coreAt (2 : Fin 320)).tagErr.contains (9 : BitVec 14).toNat = true ∧
      (∀ lc : Fin 4, (stSc.ctxAt (ctxNum (2 : Fin 320) lc)).scrub = none)) ∧
    (105 * 16 < (1681 : BitVec 16).toNat ∧ (1599 : BitVec 16).toNat < 100 * 16 ∧ 115 * 16 ≤ (1840 : BitVec 16).toNat ∧
      (1759 : BitVec 16).toNat < 110 * 16 ∧ 125 * 16 ≤ (2000 : BitVec 16).toNat ∧ (1999 : BitVec 16).toNat < 125 * 16) ∧
    (let h := { stX.host with pending := [2047] }
     (2047 : BitVec 11).toNat ∈ h.pending ∧ (0 : BitVec 11).toNat ∉ h.pending) ∧
    (319 < 320 ∧ 127 < 128) := by
  repeat' apply And.intro
  all_goals decide +kernel

/-! ## Witnesses: the whole machine -/

theorem witness_FalseGuardAdvances :
    (ctlOf (.add { k with gn := true } (rr (.s 5) (.s 1) (.s 2)))).isSome = true ∧ stF.guard { k with gn := true, gp := 3 } = false := by
  decide +kernel

theorem witness_DecodeOfEncode :
    (wf (.add k (rr (.s 5) (.s 1) (.s 2))) = true ∧ (match encode (.add k (rr (.s 5) (.s 1) (.s 2))) with
      | .core _ => true
      | _ => false) = true) ∧
    (wf (.seepSt 5 10) = true ∧ encode (.seepSt 5 10) = .seep 0x15A0) := by decide +kernel

/-- The executing context at a packet of three `add` slots and an empty word, at slot 3 or past its count. -/
def packetW (cnt : Nat) : BitVec 1024 :=
  BitVec.ofNat 1024 (2 ^ 60 + cnt * 2 ^ 56 + 0x10000000003004BFB0808100 * 2 ^ 352 + 0x0A0000000000000000000000 * 2 ^ 448)
def stI (slot : Nat) (held : Option (BitVec 1024)) : State :=
  let s := withMem [(0x1000, 128, (packetW 5).toNat)] stF
  { s.modCtx fun c => { c with thread := { pc := BitVec.ofNat 64 (0x1000 + slot), packet := held } } with
    turns := [.issue { core := 0, lc := 0, lg := none }] }

/-- Outside a body, at a `vadd` in slot 3, with one `vadd` ahead and the write of s5 that followed it. -/
def packetV : BitVec 1024 := BitVec.ofNat 1024 (2 ^ 60 + 5 * 2 ^ 56 + 0x4802C5001051021070848040 * 2 ^ 352)
def vaddW : Instr :=
  .vadd { k with gn := true, gp := 3, stall := 1, chain := true } (rr (.v 5) (.v 2) (.v 7) (ta := .i) (tb := .i) (wid := 8) (msk := 2))
def stAh (i : Instr) (es : Bool) : State :=
  let s := stI 3 (some packetV)
  (s.modCtx fun c => { c with ahead := if es then [{ slot := 0, thread := { pc := 0x1002, packet := some packetV }, instr := i }] else [] }).modCore
    fun c => { c with hist := if es then [{ lc := 0, slot := 0, reg := .s 5, old := 9, before := 1 }] else [] }

theorem witness_StepRunsTheInstruction :
    (let s := stAh vaddW false
     s.ctx.runs none = true ∧ s.frozen s.key = false ∧ s.atInstr { core := 0, lc := 0, lg := none } = true ∧ s.ctx.starting = 0 ∧
     s.thread.packet = some packetV ∧ slotOf s.pc < s.thread.cnt ∧ s.aheadFull vaddW = false ∧
     (s.modCtx fun c => { c with ahead := .replicate 32 { slot := 0, thread := s.thread, instr := vaddW } }).aheadFull vaddW = true ∧
     (match decode (packetV.extractLsb' (64 + 96 * slotOf s.pc) 96) with
      | .ok x => x == vaddW
      | .error _ => false) = true ∧ ((coreWord vaddW).map leavesBehind) = some true ∧
     s.ctx.streams.all Option.isNone = true ∧ s.ctx.ahead.length < 32) ∧
    ([(vaddW, false), (.trap k (ri (.s 0) 7), true)].all fun (x : Instr × Bool) =>
      let s := stAh x.1 true
      let e : Unretired := { slot := 0, thread := { pc := 0x1002, packet := some packetV }, instr := x.1 }
      s.ctx.ahead.find? (fun y => y.slot == ({ core := 0, lc := 0, lg := none } : Issuer).slot) == some e &&
      s.ctx.status == .running && match exec x.1 (s.rollBack e) with
        | .next t => (s.rollBack e).trapped t == x.2 && t.thread != (s.rollBack e).thread &&
          t.cur == { core := 0, lc := 0, lg := none }
        | _ => false) = true ∧
    (let s := stAh vaddW true
     s.cur.lg = none ∧ s.core.hist = [{ lc := 0, slot := 0, reg := .s 5, old := 9, before := 1 }] ∧
     s.ownsHist { lc := 0, slot := 0, reg := .s 5, old := 9, before := 1 } = true ∧ (5 : Fin 64) ≠ 0) ∧
    (let c := { ctxB with strips := ctxB.strips.set 2 (some { stripB with held := some { cause := .range, val := 1 } }) }
     let s := { stB with ctxs := [(0, c)] }
     (s.ctxAt 0).status = .running ∧ (s.ctxAt 0).record = none ∧ (s.ctxAt 0).ahead = [] ∧ s.frozen 0 = false ∧
     (s.ctxAt 0).nextPending = some (some 2, { cause := .range, val := 1 })) ∧
    ([stI 3 (some (packetW 5)), stI 4 (some (packetW 5)), stI 3 (some (packetW 3)), stI 3 none].all fun s =>
      let i : Issuer := { core := 0, lc := 0, lg := none }
      let u := { s with turns := [], cur := i, order := (State.readyOrder { s with turns := [] }).filter fun x => x != i }
      u.mayIssue i && !u.frozen u.key && u.ctx.starting == 0) = true ∧
    ((stI 3 (some (packetW 5))).thread.packet = some (packetW 5) ∧
      slotOf (stI 3 (some (packetW 5))).pc < (stI 3 (some (packetW 5))).thread.cnt ∧
      (stI 3 (some (packetW 3))).thread.cnt ≤ slotOf (stI 3 (some (packetW 3))).pc) ∧
    (thenOk ((stI 3 none).readPacket (packetOf (stI 3 none).pc)) fun x =>
      x.1 == packetW 5 && !bitAt x.2.1 0 && !bitAt x.2.1 1 && (headerCause (x.1.extractLsb' 0 64)).isNone) = true ∧
    8 + 12 * bitsAt ((packetW 3).extractLsb' 0 64) 56 4 ≤ 64 ∧
    ((match decode ((packetW 5).extractLsb' (64 + 96 * 3) 96) with
      | .ok x => (match exec x (stI 3 (some (packetW 5))) with
        | .next _ => true
        | _ => false)
      | .error _ => false) = true ∧
     (match decode ((packetW 5).extractLsb' (64 + 96 * 4) 96) with
      | .ok _ => false
      | .error e => e == .illegal) = true) ∧
    ((stU kernelW).kernels.find? (fun x => x.id == kernelW.id) = some kernelW ∧
     kernelW.units.find? (fun x => x.id == unitW.id) = some unitW ∧ kernelW.stoppedUnit unitW = false ∧ unitW.ops = [.idle] ∧
     kernelW.stage = .running ∧ ((stU kernelW).quarter (quarterOf kernelW.agent.core)).stopped = false) ∧
    (encode (.wdraw 7) = .event ∧ wf (.wdraw 7) = true) := by
  repeat' apply And.intro
  all_goals decide +kernel

theorem witness_StepKeepsMemoryForm :
    State.memOk { stL with turns := [.event (.wdraw 7)] } = true ∧
    (match step { stL with turns := [.event (.wdraw 7)] } with
     | .next _ => true
     | _ => false) = true := by
  repeat' apply And.intro
  all_goals decide +kernel

/-! ## Ill-formed terms -/

/-- Each check of well-formedness refuses a term: a nonzero field that the row does not use, an operand of a class the row does not
take, a destination of a register class that chooses another row, a SUB that chooses another row, a seep TY that Table
17-3 reserves, and events whose parameters do not fit. -/
theorem test_ill_formed :
    ([ .br k (rb (.s 1) (.s 0) 0 0), .vadd k (rr (.s 1) (.v 2) (.v 3)),
       .mclrB k (rr (.acc 1) (.s 0) (.s 0)), .mzfGet k (rr (.s 1) (.b 0) (.s 0)),
       .strmxStat k (rr (.s 1) (.v 28) (.s 0)), .gnextVector k (rr (.s 1) (.g 0) (.m 1)),
       .seepAdd { wd := 0, wa := 0, wb := 0, ty := 15, imm := 0 }, .seepAdd { wd := 0, wa := 0, wb := 0, ty := 8, imm := 1 },
       .stashFill 0 1536 0, .backInvalidate (12 * 2 ^ 29), .trainAck 0 1024 0,
       .hostWindowWrite 0 255 [0, 0] false, .hostWindowWrite 0 0 [] false, .gangStart 0 0 [320], .hostBar4Read 0 0,
       .mgmtRegisterWrite 0 (2 ^ 22) [0] false ] : List Instr).all (fun i => !wf i) = true ∧
    ([ .br k (rb (.s 0) (.s 0) 0xFFFFFFFFF 9), .vadd k (rr (.v 1) (.v 2) (.v 3)),
       .gangStart 0 0 [319], .hostWindowWrite 0 254 [0, 0] false ] : List Instr).all wf = true := by
  decide +kernel

/-! ## Single steps: the manual's worked examples -/

/-- A condition on the state after an instruction. -/
def after (o : Out) (f : State → Bool) : Bool :=
  match o with
  | .next s => f s
  | _ => false
/-- Values of a field in the lanes of a strip of 8. -/
def fill (d : Fld) (vs : List Nat) (s : State) : State := s.putLanes d (vs.zipIdx.map fun x => (x.2, x.1))
def gets (s : State) (d : Fld) : List Nat := (List.range 8).map fun i => d.get (s.core.row (s.lane i))
def tags (s : State) (m : Fin 6) : List Nat := (List.range 8).filter fun i => (s.core.row (s.lane i)).getLsbD (tagCol s.cur.lc m)
/-- A body of one strip of 8 elements, with v1 of type n4 in columns 32 to 35. -/
def stY : State :=
  (stE.modCtx fun x => { x with fmap := x.fmap.set 1 (ent 4 2 32) }).modStrip fun t => { t with slen := 8 }
def n4 : Fld := fld 1 (.int false 4) 32

/-- Table 4-4: the block is packed on scale 0x800 to the bytes 0xB1, 0x01, 0x84, 0x73; 13.0 takes scale 0x802; and a NaN packs
as 0xFFF. -/
theorem test_pack_block :
    (let xs := [0x3F333333, 0xC039999A, 0x3F99999A, 0, 0x40A00000, 0xBDCCCCCD, 0x40533333, 0x41400000]
     let pack := fun (l : List Nat) => packBlock (l.map fun x => (Flt.f32.val x, 0)) .e2m1 .rne
     (pack xs).1 == 0x800 && (pack xs).2.1.map Prod.fst == [1, 0xB, 1, 0, 4, 8, 3, 7] && !(pack xs).2.2 &&
     (pack (xs.set 7 0x41500000)).1 == 0x802 && (pack (xs.set 0 0x7FC00000)).1 == 0xFFF) = true := by decide +kernel

/-- Table 8-4: `atopk.max` of 4 in 9, 3, 12, 9, 5, 12, 9, 1 selects lanes 0, 2, 3 and 5. -/
theorem test_atopk :
    after (exec (.atopk k (rx (.m 3) (.v 1) (.imm 4) 0 0 0 0)) (fill n4 [9, 3, 12, 9, 5, 12, 9, 1] stY))
      (fun s => tags s 3 == [0, 2, 3, 5]) = true := by decide +kernel

/-- Table 5-4: segments of four lanes of 3, 5, 0, 7, 1, 1, 6, 2 without lane 3 sum to 8 and 10. -/
theorem test_asred :
    after (exec (.asred k { rr (.v 9) (.v 1) (.imm 2) with msk := 2 })
      ((fill n4 [3, 5, 0, 7, 1, 1, 6, 2] stY).putTags 2 ((List.range 8).map fun i => (i, i != 3))))
      (fun s => (gets s (fld 9 (.int true 32) 192)).getD 0 0 == 8 && (gets s (fld 9 (.int true 32) 192)).getD 4 0 == 10) = true := by
  decide +kernel

/-- The banded pattern of chapter 15 at 0x40000, with its handle in h2. -/
def bandWords : List Nat :=
  [0x24000000, 0x26000001, 0x58100000, 0x3A180000, 0x4B400001, 0xD1000000, 0x49000001, 0xC12FFFFE, 0xE0000000, 0x24000000,
   0x26000001, 0x58180000, 0x3A100000, 0x4B400001, 0xD1000000, 0x49000001, 0xC12FFFFE, 0, 1, 1]
def bandH : Handle :=
  BitVec.ofNat 512 (0x200208 + 0x600000006 * 2 ^ 64 + 0x40000 * 2 ^ 256 + 0x3001200000000 * 2 ^ 384)
def stBand : State :=
  withS [(40, 2)] (withMem (bandWords.zipIdx.map fun w => (0x40000 + 4 * w.2, 4, w.1))
    (stF.modCtx fun x => { x with handles := x.handles.set 2 bandH }))

/-- `gstart` with r = 2 lists 1, 2 and 3; `ginv` with c = 0 lists 0 and 1. -/
theorem test_band_gstart :
    after (exec (.gstart k (rr (.g 1) (.h 2) (.s 40))) stBand) (fun s => (s.ctx.gens.get 1).left == [1, 2, 3]) = true := by decide +kernel
theorem test_band_ginv :
    after (exec (.ginv k (rr (.g 1) (.h 2) (.s 0))) stBand) (fun s => (s.ctx.gens.get 1).left == [0, 1]) = true := by decide +kernel
/-- Table 15-6. -/
theorem test_band_lookup :
    ([(1, some 1), (15, some 8), (16, none), (35, some 16), (36, none)].all fun (x : Nat × Option Nat) =>
      rdOk (lookup bandH 0 x.1 stBand) fun y => y.1 == x.2) = true := by decide +kernel

/-- The tap of chapter 16: probe entry 9 matches, lane 7 is steered to 4.0 and `tapfin` reports slot 0. -/
def f32e : Fld := f32 12
def stTap : State :=
  let s := withS [(32, 4), (33, 0x42000)] (withMem
    [(0x42010, 8, 0x43000), (0x42018, 4, 0x3F000000), (0x4300C, 4, 0x40800000),
     (0x44000, 4, 0x3F800000), (0x44008, 4, 0xBF800000), (0x4400C, 4, 0x3F000000)]
    (fill f32e [0x40400000, 0x3F800000, 0, 0x40000000, 0x3F800000, 0x40A00000, 0x40000000, 0x40000000] stY))
  let entry := fun (point dim wptr thr : Nat) =>
    BitVec.ofNat 256 (1 + point * 2 + 17 * 2 ^ 16 + dim * 2 ^ 32 + wptr * 2 ^ 64 + thr * 2 ^ 160)
  { s with serving := { s.serving with probes := [(9, entry 0 4 0x44000 0x3F000000), (30, entry 1 8 0x44000 0)] } }

theorem test_tap :
    after (exec (.tap k (rx (.v 12) (.s 32) (.s 33) 17 0 0 0)) stTap) (fun s =>
      gets s f32e == [0x40400000, 0x3F800000, 0, 0x40000000, 0x3F800000, 0x40A00000, 0x40000000, 0x40800000] &&
      s.ctx.tap.eval == 3 && s.ctx.tap.ways.map Way.entry == [9] && lookD s.ctx.tap.acc 0 0 == 0x40800000 &&
      lookD s.ctx.tap.acc 16 0 == 0) = true := by decide +kernel
theorem test_tapfin :
    after (exec (.tap k (rx (.v 12) (.s 32) (.s 33) 17 0 0 0)) stTap) (fun s =>
      after (exec (.tapfin k (rr (.s 0) (.s 0) (.s 0)))
        { s.modCtx fun x => { x with loop := none, strips := .replicate 4 none } with cur := { core := 0, lc := 0, lg := none } }) fun t =>
        t.ctx.trap.val == 1 && t.ctx.trap.idx0 == 3 && t.ctx.trap.idx1 == 1 && t.ctx.trap.idx2 == 0x11) = true := by decide +kernel

/-- Worked encodings of chapters 14, 19 and 20. -/
theorem test_decode_worked : wordsMean [
    (0xD00000000000280007100000, .card k .copy (re (.s 0) (.s 40) (.s 0) 7 .cluster 0)),
    (0x80040000203102 * 2 ^ 40 + 0x02C0001022, .asrchr k (rx (.m 3) (.v 2) (.s 44) 0 16 1 2)),
    (0xEC00C0000280290000200004, .launch { k with gp := 3 } (re (.s 40) (.s 41) (.s 0) 0 .device 4)),
    (0xE20000009018020280000000, .gstart k (rr (.g 1) (.h 2) (.s 40)))] = true := by decide +kernel

/-- R94 and Table 6-3 at their edges: the least number divided by −1, a divisor of 0, and a shift by 64. -/
theorem test_divide_edges :
    (after (exec (.div k (rr (.s 5) (.s 1) (.s 2))) (withS [(1, 0x8000000000000000), (2, BitVec.allOnes 64)] stF))
      (fun s => s.readS 5 == 0x8000000000000000) &&
     after (exec (.rem k (rr (.s 5) (.s 1) (.s 0))) (withS [(1, 77)] stF)) (fun s => s.readS 5 == 77) &&
     after (exec (.shl k (rr (.s 5) (.s 1) (.imm 64))) (withS [(1, 77)] stF)) (fun s => s.readS 5 == 77)) = true := by decide +kernel
/-- R33: a write of s0 is discarded, and the PC moves on. -/
theorem test_s0_discards :
    after (exec (.add k (rr (.s 0) (.s 1) (.imm 1) (ta := .i))) (withS [(1, 77)] stF)) (fun s =>
      s.readS 0 == 0 && s.pc == stF.pc + 1) = true := by decide +kernel

end Sys2Proof.Tests
end

section
/-! SUPPORT. Memory errors, scrubbing, heat, the host's accesses and device reset: what each of the operations behind these
events gives and what it keeps, and the statement about them (R2, R86, R350, R351, R365 to R369, R377, R378). -/

namespace Sys2Proof.Machine

/-! ## What a run of updates keeps -/

/-- What each update of a list keeps, the whole run keeps. -/
theorem foldl_keeps {σ β α : Type} (p : σ → α) {f : σ → β → σ} (h : ∀ s b, p (f s b) = p s) (l : List β) (s : σ) :
    p (l.foldl f s) = p s :=
  List.foldlRecOn (motive := fun t => p t = p s) l f rfl fun t ht b _ => (h t b).trans ht

/-- Noting the waits that have ended touches contexts, quarters and the order of gangs only (R314). -/
theorem State.noteWakes_keeps {α : Type} (p : State → α) (hc : ∀ s k f, p (State.modCtxAt s k f) = p s)
    (hq : ∀ (s : State) v, p { s with quarters := v } = p s) (hg : ∀ s l g f, p (State.setGang s l g f) = p s) (s : State) :
    p s.noteWakes = p s := by
  have probe : ∀ (t : State) i, p (t.probeWait i) = p t := by
    intro t i
    unfold State.probeWait
    dsimp only
    split
    · split <;> exact hc _ _ _
    · rfl
  have woken : ∀ (t : State) q l g k, p (t.wakeSaved q l g k) = p t := by
    intro t q l g k
    unfold State.wakeSaved
    dsimp only
    split
    · exact hq _ _
    · exact (hg _ _ _ _).trans (hq _ _)
  have saved : ∀ (t : State) q x k c i, p (t.probeSaved q x k c i) = p t := by
    intro t q x k c i
    unfold State.probeSaved
    dsimp only
    split
    · exact woken _ _ _ _ _
    · rfl
  unfold State.noteWakes
  split
  · rfl
  · dsimp only
    refine (foldl_keeps p (fun t q => ?_) _ _).trans ((hq _ _).trans (foldl_keeps p probe _ _))
    refine foldl_keeps p (fun t x => foldl_keeps p (fun t c => foldl_keeps p (fun t n => ?_) _ t) _ t) _ t
    exact saved t q x c.1 c.2 _

@[simp] theorem State.noteWakes_mem (s : State) : s.noteWakes.mem = s.mem :=
  s.noteWakes_keeps State.mem (fun _ _ _ => rfl) (fun _ _ => rfl) fun _ _ _ _ => rfl
@[simp] theorem State.noteWakes_host (s : State) : s.noteWakes.host = s.host :=
  s.noteWakes_keeps State.host (fun _ _ _ => rfl) (fun _ _ => rfl) fun _ _ _ _ => rfl

/-! ## Bytes written -/

theorem rdByte_wrBytes (m : Memory) (a c : Nat) (bs : List Byte) :
    rdByte (wrBytes m a bs) c = if a ≤ c ∧ c < a + bs.length then bs.getD (c - a) 0 else rdByte m c := by
  split
  next h =>
    have hi : c - a < bs.length := by omega
    have := rdByte_wrBytes_in m a (c - a) bs hi
    rw [show a + (c - a) = c by omega] at this
    rw [this, List.getD_eq_getElem?_getD, List.getElem?_eq_getElem hi, Option.getD_some]
  next h => exact rdByte_wrBytes_out _ _ _ _ (by omega)

/-- What lies beyond the stacks is cut off by the write itself (R20). -/
theorem State.writeHbm_take (s : State) (pa : Nat) (bs : List Byte) (bad : Bool) :
    s.writeHbm pa (bs.take (hbmBytes - pa)) bad = s.writeHbm pa bs bad := by
  simp only [State.writeHbm, List.take_take, Nat.min_self]

theorem State.rdByte_writeHbm (s : State) (pa a : Nat) (bs : List Byte) (bad : Bool) :
    rdByte (s.writeHbm pa bs bad).mem a =
      if pa ≤ a ∧ a < pa + bs.length ∧ a < hbmBytes then bs.getD (a - pa) 0 else rdByte s.mem a := by
  have inside : (pa ≤ a ∧ a < pa + (bs.take (hbmBytes - pa)).length) ↔ (pa ≤ a ∧ a < pa + bs.length ∧ a < hbmBytes) := by
    rw [List.length_take]; omega
  simp only [State.writeHbm, rdByte_wrBytes, inside]
  split
  next h =>
    rw [List.getD_eq_getElem?_getD, List.getD_eq_getElem?_getD, List.getElem?_take_of_lt (by omega)]
  next => rfl

@[simp] theorem State.noteChange_mem (s : State) (pa : Nat) (x : Change) : (s.noteChange pa x).mem = s.mem := rfl
@[simp] theorem State.noteTorn_mem (s : State) (w : Writer) (pa : Nat) (bs : List Byte) (bad : Bool) :
    (s.noteTorn w pa bs bad).mem = s.mem := by
  unfold State.noteTorn
  refine foldl_keeps State.mem ?_ _ s
  intro t x
  exact State.noteChange_mem ..

/-! ## Errors and contained stops (R318, R366, R368, R369) -/

@[simp] theorem State.logSite_errprod (s : State) (x : ErrSite) (o : Nat) :
    (s.logSite x o).regs.errprod = s.regs.errprod + 1 := rfl
@[simp] theorem State.quarter_logSite (s : State) (x : ErrSite) (o : Nat) (q : Fin 4) :
    (s.logSite x o).quarter q = s.quarter q := rfl

/-- A contained stop sets the stop of its quarter and leaves all else of the quarters. -/
theorem State.containedStop_quarter_same (s : State) (q : Fin 4) (cause seq : Nat) :
    (s.containedStop q cause seq).quarter q = { s.quarter q with stopped := true } := by
  unfold State.containedStop
  split
  next h => rw [← h]
  next => exact s.quarter_modQuarter_same q fun x => { x with stopped := true }
theorem State.containedStop_quarter_ne (s : State) {q p : Fin 4} (cause seq : Nat) (h : p ≠ q) :
    (s.containedStop q cause seq).quarter p = s.quarter p := by
  unfold State.containedStop
  split
  · rfl
  · exact s.quarter_modQuarter_ne (fun x => { x with stopped := true }) h
@[simp] theorem State.containedStop_mem (s : State) (q : Fin 4) (cause seq : Nat) :
    (s.containedStop q cause seq).mem = s.mem := by
  unfold State.containedStop
  split <;> rfl

/-- A corrected error is counted and logged and changes nothing else (R365, R369). -/
theorem memoryError_corrected (s : State) (x : ErrSite) :
    ∃ t, exec (.memoryError x false) s = .next t ∧ t.mem = s.mem ∧ t.memPoison = s.memPoison ∧ t.cores = s.cores ∧
      t.ctxs = s.ctxs ∧ t.serving = s.serving ∧ t.regs.errprod = s.regs.errprod + 1 :=
  ⟨s.corrected x, rfl, rfl, rfl, rfl, rfl, rfl, rfl⟩

/-- An uncorrectable error of HBM4 poisons its granule of 64 bytes (R366). -/
theorem memoryError_hbm (s : State) (pa : Nat) :
    ∃ t, exec (.memoryError (.hbm pa) true) s = .next t ∧ t.mem = s.mem ∧
      (∀ g, g ∈ t.memPoison ↔ g ∈ s.memPoison ∨ g = pa / 64) ∧ t.regs.errprod = s.regs.errprod + 1 := by
  refine ⟨s.struck (.hbm pa), rfl, rfl, fun g => ?_, rfl⟩
  change g ∈ setAdd s.memPoison (pa / 64) ↔ _
  rw [mem_setAdd, or_comm]

/-- An uncorrectable error of a control memory stops its quarter (R368). -/
theorem memoryError_control (s : State) (q : Fin 4) :
    ∃ t, exec (.memoryError (.control q) true) s = .next t ∧ (t.quarter q).stopped = true ∧
      ∀ p, p ≠ q → t.quarter p = s.quarter p := by
  refine ⟨s.struck (.control q), rfl, ?_, fun p hp => ?_⟩
  · simp only [State.struck, State.quarter_logSite, State.containedStop_quarter_same]
  · simp only [State.struck, State.quarter_logSite, s.containedStop_quarter_ne _ _ hp]

/-! ## Scrubbing (R86) -/

/-- What the scrub of a row does in one loop context. -/
def State.scrubCtx (core : Fin 320) (lane : Nat) (c : Core) (s : State) (lc : Nat) : State :=
  let k := ctxNum core lc
  let x := s.ctxAt k
  if x.status == .idle || x.status == .ended || x.scrub.isSome then s
  else
    match if c.tagErr.contains lane then some (31, 2) else (c.badField x lane lc).map fun n => (n, 1) with
    | some (n, code) => s.modCtxAt k fun y => { y with scrub := some (tarnVal lane n lc, code) }
    | none => s

theorem execTarnScrub_eq (core : Fin 320) (lane : BitVec 14) (s : State) :
    exec (.tarnScrub core lane) s =
      .next ((List.range 4).foldl (State.scrubCtx core lane.toNat (s.coreAt core)) s) := rfl

theorem State.scrubCtx_other (core : Fin 320) (lane : Nat) (c : Core) (s : State) {lc k : Nat} (h : k ≠ ctxNum core lc) :
    (s.scrubCtx core lane c lc).ctxAt k = s.ctxAt k := by
  unfold State.scrubCtx
  dsimp only
  split
  · rfl
  · split
    · exact s.ctxAt_modCtxAt_ne _ h
    · rfl

/-- A running context without an error to raise learns of the error in the tag columns. -/
theorem State.scrubCtx_tag (core : Fin 320) (lane : Nat) (c : Core) (s : State) (lc : Nat)
    (ht : c.tagErr.contains lane = true) (hr : (s.ctxAt (ctxNum core lc)).status = .running)
    (hs : (s.ctxAt (ctxNum core lc)).scrub = none) :
    ((s.scrubCtx core lane c lc).ctxAt (ctxNum core lc)).scrub = some (tarnVal lane 31 lc, 2) := by
  have live : (Status.running == .idle || Status.running == .ended || (none : Option (Word × Nat)).isSome) = false := rfl
  simp only [State.scrubCtx, hr, hs, live, Bool.false_eq_true, if_false, if_pos ht, State.ctxAt_modCtxAt_same]

theorem ctxNum_ne (core : Nat) {a b : Nat} (h : a ≠ b) : ctxNum core a ≠ ctxNum core b := by
  unfold ctxNum; omega

/-- A run over other loop contexts leaves a context as it is. -/
theorem State.foldl_scrubCtx_other (core : Fin 320) (lane : Nat) (c : Core) (lc : Nat) (l : List Nat) (h : lc ∉ l) (s : State) :
    (l.foldl (State.scrubCtx core lane c) s).ctxAt (ctxNum core lc) = s.ctxAt (ctxNum core lc) :=
  List.foldlRecOn (motive := fun t : State => t.ctxAt (ctxNum core lc) = s.ctxAt (ctxNum core lc)) l _ rfl fun t ht b hb =>
    (State.scrubCtx_other core lane c t (ctxNum_ne core fun e => h (by rwa [e]))).trans ht

/-- The turn of a loop context in the scrub lies between those of contexts that do not touch it. -/
theorem tarnScrub_tag (s : State) (core : Fin 320) (lane : BitVec 14)
    (hr : ∀ lc : Fin 4, (s.ctxAt (ctxNum core lc)).status = .running)
    (ht : (s.coreAt core).tagErr.contains lane.toNat = true) :
    ∃ t, exec (.tarnScrub core lane) s = .next t ∧
      ∀ lc : Fin 4, (s.ctxAt (ctxNum core lc)).scrub = none →
        (t.ctxAt (ctxNum core lc)).scrub = some (tarnVal lane.toNat 31 lc, 2) := by
  refine ⟨_, execTarnScrub_eq core lane s, fun lc hs => ?_⟩
  obtain ⟨before, after, hl, hb, ha⟩ : ∃ before after, List.range 4 = before ++ lc.val :: after ∧
      lc.val ∉ before ∧ lc.val ∉ after :=
    ⟨List.range lc, (List.range (3 - lc)).map (· + (lc + 1)), by clear hs; revert lc; decide, by simp, by simp; omega⟩
  have kept := s.foldl_scrubCtx_other core lane.toNat (s.coreAt core) lc before hb
  rw [hl, List.foldl_append, List.foldl_cons, State.foldl_scrubCtx_other core _ _ _ _ ha]
  exact State.scrubCtx_tag core _ _ _ lc ht (by rw [kept]; exact hr lc) (by rw [kept]; exact hs)

/-! ## Temperature (R378) -/

/-- A quarter whose sensor reports a temperature, before any stop. -/
def Quarter.heated (x : Quarter) (temp : BitVec 16) : Quarter :=
  { x with
    temp := temp
    slow := decide (105 * 16 < temp.toNat) || (x.slow && decide (100 * 16 ≤ temp.toNat))
    hold := decide (115 * 16 ≤ temp.toNat) || (x.hold && decide (110 * 16 ≤ temp.toNat)) }

theorem execThermalBandChange_eq (q : Fin 4) (temp : BitVec 16) (s : State) :
    exec (.thermalBandChange q temp) s = .next
      (if 125 * 16 ≤ temp.toNat then (s.modQuarter q (·.heated temp)).containedStop q (Cause.code .contained) 0
       else s.modQuarter q (·.heated temp)) := rfl

theorem Quarter.heated_slow_of_lt (x : Quarter) {temp : BitVec 16} (h : 105 * 16 < temp.toNat) :
    (x.heated temp).slow = true := by simp [Quarter.heated, h]
theorem Quarter.heated_slow_of_cool (x : Quarter) {temp : BitVec 16} (h : temp.toNat < 100 * 16) :
    (x.heated temp).slow = false := by
  have hot : ¬ 105 * 16 < temp.toNat := by omega
  have warm : ¬ 100 * 16 ≤ temp.toNat := by omega
  simp only [Quarter.heated, hot, warm, decide_false, Bool.and_false, Bool.or_self]
theorem Quarter.heated_hold_of_le (x : Quarter) {temp : BitVec 16} (h : 115 * 16 ≤ temp.toNat) :
    (x.heated temp).hold = true := by simp [Quarter.heated, h]
theorem Quarter.heated_hold_of_cool (x : Quarter) {temp : BitVec 16} (h : temp.toNat < 110 * 16) :
    (x.heated temp).hold = false := by
  have hot : ¬ 115 * 16 ≤ temp.toNat := by omega
  have warm : ¬ 110 * 16 ≤ temp.toNat := by omega
  simp only [Quarter.heated, hot, warm, decide_false, Bool.and_false, Bool.or_self]

/-- The quarter takes the flags of its temperature, and stops from 125 °C on. -/
theorem thermalBandChange_next (s : State) (q : Fin 4) (temp : BitVec 16) :
    ∃ t, exec (.thermalBandChange q temp) s = .next t ∧ t.mem = s.mem ∧
      t.quarter q = { (s.quarter q).heated temp with
        stopped := decide (125 * 16 ≤ temp.toNat) || (s.quarter q).stopped } := by
  refine ⟨_, execThermalBandChange_eq q temp s, ?_⟩
  split
  next h =>
    refine ⟨State.containedStop_mem .., ?_⟩
    rw [State.containedStop_quarter_same, State.quarter_modQuarter_same, decide_eq_true h, Bool.true_or]
  next h =>
    refine ⟨rfl, ?_⟩
    rw [State.quarter_modQuarter_same, decide_eq_false h, Bool.false_or]
    rfl

theorem thermalBandChange_bands (s : State) (q : Fin 4) (x : BitVec 16) :
    ∃ t, exec (.thermalBandChange q x) s = .next t ∧ t.mem = s.mem ∧
      (t.quarter q).temp = x ∧
      (105 * 16 < x.toNat → (t.quarter q).slow = true) ∧ (x.toNat < 100 * 16 → (t.quarter q).slow = false) ∧
      (115 * 16 ≤ x.toNat → (t.quarter q).hold = true) ∧ (x.toNat < 110 * 16 → (t.quarter q).hold = false) ∧
      (125 * 16 ≤ x.toNat → (t.quarter q).stopped = true) ∧
      (x.toNat < 125 * 16 → (t.quarter q).stopped = (s.quarter q).stopped) := by
  obtain ⟨t, he, hm, hq⟩ := thermalBandChange_next s q x
  refine ⟨t, he, hm, ?_⟩
  rw [hq]
  refine ⟨rfl, (s.quarter q).heated_slow_of_lt, (s.quarter q).heated_slow_of_cool, (s.quarter q).heated_hold_of_le,
    (s.quarter q).heated_hold_of_cool, fun h => ?_, fun h => ?_⟩
  · simp only [decide_eq_true h, Bool.true_or]
  · simp only [decide_eq_false (Nat.not_le.2 h), Bool.false_or]

/-! ## The host through BAR4 (R350, R366) -/

theorem hostBar4Read_bytes (s : State) (pa n : Nat) :
    ∃ t, exec (.hostBar4Read pa n) s = .next t ∧ t.mem = s.mem ∧ t.host.read.length = n ∧
      (∀ i, i < n → t.host.read.getD i 0 = if pa + i < 12 * 2 ^ 36 then rdByte s.mem (pa + i) else 0xFF) ∧
      (0 < n → t.host.ep = s.poisoned pa n) := by
  refine ⟨_, rfl, rfl, ?_, fun i hi => ?_, fun hn => ?_⟩
  · simp only [List.length_map, List.length_range]
  · simp only [List.getD_eq_getElem?_getD, List.getElem?_map, List.getElem?_range hi, Option.map_some, Option.getD_some]
    rfl
  · have : (n != 0) = true := by simpa using Nat.ne_of_gt hn
    simp only [this, Bool.true_and]

theorem hostBar4Write_bytes (s : State) (pa : Nat) (bytes : List Byte) (d : Bool) :
    ∃ t, exec (.hostBar4Write pa bytes d) s = .next t ∧
      (∀ a, rdByte t.mem a = if pa ≤ a ∧ a < pa + bytes.length ∧ a < 12 * 2 ^ 36 then bytes.getD (a - pa) 0
        else rdByte s.mem a) ∧
      (d = true → t.host.aborted = decide (12 * 2 ^ 36 < pa + bytes.length)) := by
  have written : ∀ a, rdByte ((s.noteTorn .host pa bytes).writeHbm pa (bytes.take (hbmBytes - pa))).mem a =
      if pa ≤ a ∧ a < pa + bytes.length ∧ a < hbmBytes then bytes.getD (a - pa) 0 else rdByte s.mem a := fun a => by
    rw [State.writeHbm_take, State.rdByte_writeHbm, State.noteTorn_mem]
  cases d with
  | false => exact ⟨_, rfl, written, fun h => nomatch h⟩
  | true => exact ⟨_, rfl, written, fun _ => rfl⟩

/-! ## MSI-X (R351) -/

/-- A vector whose message waits is sent once it is masked no more. -/
theorem HostLink.signal_unmasked {h : HostLink} {v : Nat} (hv : h.masked v = false) :
    h.signal v = { h with pending := setDel h.pending v, sent := h.sent ++ [(v, (h.entry v).extractLsb' 0 96)] } := by
  simp [HostLink.signal, hv]

/-- The entry of a vector whose mask is cleared. -/
def clearMask (e : BitVec 128) : BitVec 128 := e &&& ~~~(BitVec.ofNat 128 (2 ^ 96))

theorem clearMask_mask (e : BitVec 128) : bitAt (clearMask e) 96 = false := by
  rw [bitAt, clearMask, BitVec.getLsbD_and, BitVec.getLsbD_not,
    show (BitVec.ofNat 128 (2 ^ 96)).getLsbD 96 = true by decide]
  simp

theorem clearMask_message (e : BitVec 128) : (clearMask e).extractLsb' 0 96 = e.extractLsb' 0 96 := by
  have low : (~~~(BitVec.ofNat 128 (2 ^ 96))).extractLsb' 0 96 = BitVec.allOnes 96 := by decide
  rw [clearMask, BitVec.extractLsb'_and, low, BitVec.and_allOnes]

/-- The link with the mask of a vector cleared. -/
def HostLink.unmask (h : HostLink) (v : Nat) : HostLink := { h with msix := put h.msix v (clearMask (h.entry v)) }

@[simp] theorem HostLink.entry_unmask_same (h : HostLink) (v : Nat) : (h.unmask v).entry v = clearMask (h.entry v) :=
  lookD_put_same ..
theorem HostLink.entry_unmask_ne (h : HostLink) {v w : Nat} (hw : w ≠ v) : (h.unmask v).entry w = h.entry w :=
  lookD_put_ne _ _ _ hw
@[simp] theorem HostLink.masked_unmask (h : HostLink) (v : Nat) : (h.unmask v).masked v = false := by
  rw [HostLink.masked, HostLink.entry_unmask_same, clearMask_mask]

theorem execMsixUnmask_eq (v : BitVec 11) (s : State) :
    exec (.msixUnmask v) s = .next { s with
      host := if (s.host.unmask v.toNat).pending.contains v.toNat then (s.host.unmask v.toNat).signal v.toNat
        else s.host.unmask v.toNat } := rfl

theorem msixUnmask_sends (s : State) (v : BitVec 11) :
    ∃ t, exec (.msixUnmask v) s = .next t ∧ t.mem = s.mem ∧ t.host.masked v.toNat = false ∧
      (∀ w, w ≠ v.toNat → t.host.entry w = s.host.entry w) ∧
      (v.toNat ∈ s.host.pending →
        t.host.sent = s.host.sent ++ [(v.toNat, (s.host.entry v.toNat).extractLsb' 0 96)] ∧ v.toNat ∉ t.host.pending) ∧
      (v.toNat ∉ s.host.pending → t.host.sent = s.host.sent ∧ t.host.pending = s.host.pending) := by
  refine ⟨_, execMsixUnmask_eq v s, rfl, ?_⟩
  have waits : (s.host.unmask v.toNat).pending.contains v.toNat = true ↔ v.toNat ∈ s.host.pending := List.contains_iff_mem
  by_cases hp : v.toNat ∈ s.host.pending
  · rw [if_pos (waits.2 hp), HostLink.signal_unmasked (s.host.masked_unmask _)]
    refine ⟨s.host.masked_unmask _, fun w hw => s.host.entry_unmask_ne hw, fun _ => ⟨?_, ?_⟩, fun h => absurd hp h⟩
    · rw [HostLink.entry_unmask_same, clearMask_message]; rfl
    · simp
  · rw [if_neg (mt waits.1 hp)]
    exact ⟨s.host.masked_unmask _, fun w hw => s.host.entry_unmask_ne hw, fun h => absurd h hp, fun _ => ⟨rfl, rfl⟩⟩

/-! ## The host reads BAR0 (Table 24-1) -/

theorem step_bar0Read {s : State} {off n : Nat} {ts : List Turn} (h : s.turns = .bar0Read off n :: ts) :
    step s = .next (State.bar0Read { s with turns := ts } off n).noteWakes := by
  simp only [step, State.stepTurn, h, State.fullTurn, State.runTurn]

theorem leBytes_eq_map (n v : Nat) : leBytes n v = (List.range n).map fun k => BitVec.ofNat 8 (v / 2 ^ (8 * k)) := by
  induction n generalizing v with
  | zero => rfl
  | succ n ih =>
    rw [leBytes, ih, List.range_succ_eq_map, List.map_cons, List.map_map]
    congr 1
    · simp
    · refine List.map_congr_left fun k _ => ?_
      rw [Nat.div_div_eq_div_mul, Function.comp, Nat.mul_succ, Nat.pow_add, Nat.mul_comm]

/-- Eight bytes of BAR0 that are those of a register read as it. -/
theorem HostLink.bar0_word {h : HostLink} {off : Nat} {v : Word}
    (hb : ∀ i, i < 8 → h.bar0 (off + i) = BitVec.ofNat 8 (v.toNat / 2 ^ (8 * i))) :
    leVal ((List.range 8).map fun i => h.bar0 (off + i)) = v.toNat := by
  rw [List.map_congr_left fun i hi => hb i (List.mem_range.1 hi), ← leBytes_eq_map, leVal_leBytes]
  exact Nat.mod_eq_of_lt v.isLt

theorem HostLink.bar0_windows (h : HostLink) {off : Nat} (ho : off < 0x4000) : h.bar0 off = rdByte h.windows off := by
  simp [HostLink.bar0, ho]

theorem HostLink.bar0_wstat (h : HostLink) (w : Fin 64) {i : Nat} (hi : i < 8) :
    h.bar0 (0x4000 + 8 * w.val + i) = BitVec.ofNat 8 ((h.wstat.get w).toNat / 2 ^ (8 * i)) := by
  have hw := w.isLt
  have win : ¬ 0x4000 + 8 * w.val + i < 0x4000 := by omega
  have stat : 0x4000 + 8 * w.val + i < 0x4200 := by omega
  have reg : Fin.ofNat 64 ((0x4000 + 8 * w.val + i - 0x4000) / 8) = w := Fin.ext (by simp only [Fin.ofNat]; omega)
  have byte : (0x4000 + 8 * w.val + i) % 8 = i := by omega
  simp only [HostLink.bar0, if_neg win, if_pos stat, reg, byte]

theorem HostLink.bar0_wdres (h : HostLink) {i : Nat} (hi : i < 8) :
    h.bar0 (0x4208 + i) = BitVec.ofNat 8 (h.wdres.toNat / 2 ^ (8 * i)) := by
  have win : ¬ 0x4208 + i < 0x4000 := by omega
  have stat : ¬ 0x4208 + i < 0x4200 := by omega
  have res : 0x4208 ≤ 0x4208 + i ∧ 0x4208 + i < 0x4210 := by omega
  have byte : (0x4208 + i) % 8 = i := by omega
  simp only [HostLink.bar0, if_neg win, if_neg stat, if_pos res, byte]

/-! ## Device reset (R2, R377) -/

/-- A core after reset with its maps at their fused values. -/
def fusedCore (r : Regs) (c : Nat) : Core := fuseCore .reset (lookD r.fusedSpare c 0) (fusedRowsOf r.fusedRows c)

/-- What `State.fuseAll` does for one core. -/
def State.fuseOne (s : State) (c : Nat) : State :=
  let spare := lookD s.regs.fusedSpare c 0
  let rows := fusedRowsOf s.regs.fusedRows c
  if spare = 0 ∧ rows = [] then s else s.modCoreAt c fun k => fuseCore k spare rows

theorem State.fuseAll_eq (s : State) : s.fuseAll = (List.range 320).foldl State.fuseOne s := rfl

theorem State.fuseOne_keeps {α : Type} (p : State → α) (hc : ∀ (s : State) cs, p { s with cores := cs } = p s)
    (s : State) (c : Nat) : p (s.fuseOne c) = p s := by
  unfold State.fuseOne
  dsimp only
  split
  · rfl
  · exact hc _ _

theorem State.fuseOne_coreAt_ne (s : State) {c j : Nat} (h : j ≠ c) : (s.fuseOne c).coreAt j = s.coreAt j := by
  unfold State.fuseOne
  dsimp only
  split
  · rfl
  · exact s.coreAt_modCoreAt_ne _ h

/-- A core without an entry of its own in the fused tables stays as reset leaves it, which is what its fused values are. -/
theorem State.fuseOne_coreAt_same (s : State) {c : Nat} (h : s.coreAt c = .reset) :
    (s.fuseOne c).coreAt c = fusedCore s.regs c := by
  unfold State.fuseOne fusedCore
  dsimp only
  split
  next hz => rw [hz.1, hz.2, h]; decide
  next => rw [State.coreAt_modCoreAt_same, h]

/-- After the first n cores, those take their fused values and the others are as before. -/
theorem State.foldl_fuseOne_coreAt (s : State) (hr : ∀ c, s.coreAt c = .reset) (n : Nat) :
    ∀ c, ((List.range n).foldl State.fuseOne s).coreAt c = if c < n then fusedCore s.regs c else .reset := by
  induction n with
  | zero => exact hr
  | succ n ih =>
    intro c
    rw [List.range_succ, List.foldl_append, List.foldl_cons, List.foldl_nil]
    have regs : ((List.range n).foldl State.fuseOne s).regs = s.regs :=
      foldl_keeps State.regs (State.fuseOne_keeps State.regs fun _ _ => rfl) _ _
    by_cases hc : c = n
    · subst hc
      rw [State.fuseOne_coreAt_same _ (by rw [ih, if_neg (Nat.lt_irrefl c)]), regs, if_pos (Nat.lt_succ_self c)]
    · rw [State.fuseOne_coreAt_ne _ hc, ih]
      have : c < n ↔ c < n + 1 := by omega
      simp only [this]

theorem State.fuseAll_coreAt (s : State) (hr : ∀ c, s.coreAt c = .reset) {c : Nat} (hc : c < 320) :
    s.fuseAll.coreAt c = fusedCore s.regs c := by
  rw [State.fuseAll_eq, State.foldl_fuseOne_coreAt s hr, if_pos hc]

/-- A state that differs from another in its cores only. -/
theorem State.eq_of_rest {s t : State} (h : { t with cores := s.cores } = s) : t = { s with cores := t.cores } :=
  congrArg (fun u : State => { u with cores := t.cores }) h

/-- Fusing writes cores and nothing else. -/
theorem State.fuseAll_cores (s : State) : s.fuseAll = { s with cores := s.fuseAll.cores } := by
  let p := fun t : State => { t with cores := s.cores }
  refine State.eq_of_rest (?_ : p s.fuseAll = s)
  rw [State.fuseAll_eq]
  exact foldl_keeps p (State.fuseOne_keeps p fun _ _ => rfl) (List.range 320) s

/-- The fused row entries of a core are those of the device's table at its own 128 places. -/
theorem look_fusedRowsOf (t : Table (BitVec 16)) (c : Nat) {e : Nat} (he : e < 128) :
    look (fusedRowsOf t c) e = look t (128 * c + e) := by
  unfold fusedRowsOf
  induction t with
  | nil => rfl
  | cons x t ih =>
    obtain ⟨a, v⟩ := x
    by_cases ha : a / 128 = c
    · have key : a % 128 = e ↔ a = 128 * c + e := by omega
      simp only [List.filterMap_cons, if_pos ha, look, key, ih]
    · have key : a ≠ 128 * c + e := by omega
      simp only [List.filterMap_cons, if_neg ha, look, if_neg key, ih]

/-- The state that a device reset fuses. -/
def State.unfused (s : State) (fitted : Bool) (bd : BitVec 12) : State := { State.reset with
  turns := s.turns
  ticks := s.ticks
  regs := { State.reset.regs with
    fatalsum := BitVec.ofNat 64 (bd.toNat * 2 ^ 4)
    mgmtOnly := !fitted || bd != 0
    fwver := s.regs.fwver
    fwdigest := s.regs.fwdigest
    fusedSpare := s.regs.fusedSpare
    fusedRows := s.regs.fusedRows } }

theorem execDeviceReset_eq (fitted : Bool) (bd : BitVec 12) (s : State) :
    exec (.deviceReset fitted bd) s = .next (s.unfused fitted bd).fuseAll := rfl

theorem deviceReset_state (s : State) (fitted : Bool) (bd : BitVec 12) : ∃ cores,
    exec (.deviceReset fitted bd) s = .next { s.unfused fitted bd with cores := cores } ∧
    ∀ c, c < 320 → let spare := lookD s.regs.fusedSpare c 0
      ∃ rows, lookD cores c Core.reset =
          { Core.reset with dis := spare.getLsbD 63, tspare := bitsAt spare 0 16, rowSpare := rows } ∧
        ∀ e, e < 128 → lookD rows e 0 = lookD s.regs.fusedRows (128 * c + e) 0 := by
  refine ⟨(s.unfused fitted bd).fuseAll.cores, ?_, fun c hc => ?_⟩
  · rw [execDeviceReset_eq, ← State.fuseAll_cores]
  · refine ⟨fusedRowsOf s.regs.fusedRows c, (s.unfused fitted bd).fuseAll_coreAt (fun _ => rfl) hc, fun e he => ?_⟩
    rw [lookD, look_fusedRowsOf _ _ he, lookD]

end Sys2Proof.Machine

namespace Sys2Proof.Proofs
open Sys2Proof Sys2Proof.Machine Sys2Proof.Claims

/-- Settles O54: each event by the lemma on what it gives. -/
theorem deviceEvents : Obligations.DeviceEvents := by
  unfold Obligations.DeviceEvents
  refine ⟨memoryError_corrected, memoryError_hbm, fun s q _ => memoryError_control s q, tarnScrub_tag,
    thermalBandChange_bands, hostBar4Read_bytes, hostBar4Write_bytes, msixUnmask_sends, ?bar0Read, ?bar0, deviceReset_state⟩
  case bar0Read =>
    intro s off n ts h
    exact ⟨_, step_bar0Read h, State.noteWakes_mem _, by rw [State.noteWakes_host]; rfl⟩
  case bar0 =>
    intro h w
    exact ⟨HostLink.bar0_word fun i hi => h.bar0_wstat w hi, HostLink.bar0_word fun i hi => h.bar0_wdres hi,
      fun off ho => h.bar0_windows ho⟩

end Sys2Proof.Proofs
end

section
/-! SUPPORT. The thread that executes, and the executing issuer outside a body (R26, R33). -/

namespace Sys2Proof.Machine

theorem State.strip_of_lg_none {s : State} (h : s.cur.lg = none) : s.strip? = none := by simp only [State.strip?, h]
theorem State.inBody_of_lg_none {s : State} (h : s.cur.lg = none) : s.inBody = false := by
  simp only [State.inBody, State.strip_of_lg_none h, Option.isSome_none]

/-- A thread that is set is the thread that executes, in a body or outside. -/
@[simp] theorem State.thread_setThread (s : State) (t : Thread) : (s.setThread t).thread = t := by
  cases hl : s.cur.lg with
  | none =>
    have after : (s.modCtx fun c => { c with thread := t }).strip? = none := State.strip_of_lg_none hl
    simp only [State.setThread, State.inBody_of_lg_none hl, State.thread, after, State.ctx_modCtx, Bool.false_eq_true, if_false]
  | some g =>
    cases hx : s.ctx.strips.get g with
    | none => simp [State.setThread, State.inBody, State.thread, State.strip?, hl, hx]
    | some x => simp [State.setThread, State.inBody, State.thread, State.strip?, State.modStrip, Ctx.setStrip, hl, hx]

theorem State.thread_advance (s : State) : s.advance.thread =
    { pc := nextPc s.pc s.thread.cnt, packet := if slotOf s.pc + 1 < s.thread.cnt then s.thread.packet else none } :=
  State.thread_setThread ..

@[simp] theorem State.core_setThread (s : State) (t : Thread) : (s.setThread t).core = s.core := by
  simp only [State.core, State.coreAt, State.setThread_cur, State.setThread_cores]
@[simp] theorem State.core_advance (s : State) : s.advance.core = s.core := State.core_setThread ..

theorem State.readS_outside {s : State} {n : Fin 64} (h : s.cur.lg = none) (hn : n ≠ 0) : s.readS n = s.ctx.s.get n := by
  simp only [State.readS, if_neg hn, State.strip_of_lg_none h]

theorem State.setThread_outside {s : State} (h : s.cur.lg = none) (t : Thread) :
    s.setThread t = s.modCtx fun c => { c with thread := t } := by
  simp only [State.setThread, State.inBody_of_lg_none h, Bool.false_eq_true, if_false]

end Sys2Proof.Machine
end

section
/-! SUPPORT. The life of a card and of a gather: what each of the turns and events behind it gives, and the statement about them
(R14, R22, R233, R238, R243). -/

namespace Sys2Proof.Machine

/-! ## What an engine's action gives -/

/-- Whenever an engine's action performs, its result is as the predicate says. -/
def EngGives {α : Type} (P : α → Prop) (x : Eng α) : Prop := ∀ s a t, x s = .ok (a, t) → P a

theorem EngGives.pure {α : Type} {P : α → Prop} {a : α} (h : P a) : EngGives P (pure a) := by
  intro s b t e
  injection e with e
  injection e with e _
  exact e ▸ h

/-- Of a sequence, the last action gives the result. -/
theorem EngGives.bind {α β : Type} {P : β → Prop} {x : Eng α} {f : α → Eng β} (h : ∀ a, EngGives P (f a)) :
    EngGives P (x >>= f) := by
  intro s b t e
  change (x s >>= fun r => f r.1 r.2) = .ok (b, t) at e
  cases hx : x s with
  | error _ => rw [hx] at e; exact nomatch e
  | ok r => rw [hx] at e; exact h r.1 r.2 b t e

/-! ## Half a row (R233) -/

/-- The card has its row, read whole, and has not gone on to the next. -/
def RowRead (c c1 : Card) : Prop := c1.row = c.row ∧ c1.loaded.isSome = true

theorem cardLoaded_rowRead {c x : Card} {src : Word} {n : Nat} {p : Word} {d : Data} (h : x.row = c.row) :
    EngGives (RowRead c) (cardLoaded x src n p d) :=
  .bind fun _ => .bind fun _ => .pure ⟨h, rfl⟩

/-- Every kind but KVCOMPACT, which passes over rows, has its row once its read has performed. -/
theorem cardRead_rowRead {c : Card} (h : c.kind ≠ .kvcompact) : EngGives (RowRead c) (cardRead c) := by
  unfold cardRead
  cases hk : c.kind with
  | copy => exact .bind fun _ => cardLoaded_rowRead rfl
  | rcopy => exact .bind fun _ => cardLoaded_rowRead rfl
  | fill => exact cardLoaded_rowRead rfl
  | tile => exact .bind fun _ => cardLoaded_rowRead rfl
  | nb8p => exact .bind fun _ => .bind fun _ => cardLoaded_rowRead rfl
  | nb8u => exact .bind fun _ => cardLoaded_rowRead rfl
  | rerot => exact .bind fun _ => .bind fun _ => .bind fun _ => cardLoaded_rowRead rfl
  | kvpatch => exact .bind fun _ => .bind fun _ => cardLoaded_rowRead rfl
  | kvcompact => exact absurd hk h

/-- Every kind but RCOPY, which combines element by element, has written its row once its write has performed. -/
theorem cardWrite_rowDone {c : Card} (h : c.kind ≠ .rcopy) (p : Word) (d : Data) :
    EngGives (· = c.rowDone) (cardWrite c p d) := by
  unfold cardWrite
  dsimp only
  split
  case h_1 => exact .bind fun _ => .pure rfl
  case h_2 hk _ => exact absurd hk h
  case h_3 hk _ => exact absurd hk h
  case h_4 => exact .bind fun _ => .pure rfl
  case h_5 => exact .bind fun _ => .pure rfl

theorem cardStep_reads {c c1 : Card} {s t : State} (hl : c.loaded = none) (hk : c.kind ≠ .kvcompact)
    (h : cardStep c s = .ok (c1, t)) : RowRead c c1 := by
  simp only [cardStep, hl] at h
  exact cardRead_rowRead hk s c1 t h

theorem cardStep_writes {c c1 : Card} {s t : State} (hl : c.loaded.isSome = true) (hk : c.kind ≠ .rcopy)
    (h : cardStep c s = .ok (c1, t)) : c1 = c.rowDone := by
  obtain ⟨⟨p, d⟩, hl⟩ := Option.isSome_iff_exists.1 hl
  simp only [cardStep, hl] at h
  exact cardWrite_rowDone hk p d s c1 t h

theorem State.rowTurn_goes {s t : State} {c c1 : Card} (hc : s.cards.find? (fun x => x.id == c.id) = some c)
    (hg : s.cardGoes c = true) (h : cardStep c s = .ok (c1, t)) :
    s.rowTurn c.id = t.modCard c.id fun _ => cardNext c1 := by
  simp only [State.rowTurn, hc, if_pos hg, State.runCard, h]

/-! ## Dispatch (R14, R233) -/

theorem State.freeEngine_spec {s : State} {q : Fin 4} {e : Nat} (h : s.freeEngine q = some e) :
    e < 64 ∧ ∀ x ∈ s.cardsOf q, x.engine ≠ some e := by
  have free := List.find?_some h
  refine ⟨List.mem_range.1 (List.mem_of_find?_eq_some h), fun x hx he => ?_⟩
  have busy : (s.cardsOf q).any (fun c => c.engine == some e) = true := List.any_eq_true.2 ⟨x, hx, by simp [he]⟩
  simp [busy] at free

/-- A card is ready only once every card that it follows is gone. -/
theorem State.cardReady_after {s : State} {c : Card} (h : s.cardReady c = true) :
    ∀ p ∈ c.after, ∀ x ∈ s.cards, x.id ≠ p := by
  intro p hp x hx he
  simp only [State.cardReady, Bool.and_eq_true, List.all_eq_true] at h
  have gone := h.2 p hp
  have stands : s.cards.any (fun y => y.id == p) = true := List.any_eq_true.2 ⟨x, hx, by simp [he]⟩
  simp [stands] at gone

theorem exec_cardDispatch {q : Fin 4} {s : State} {c : Card} {e : Nat} (hs : (s.quarter q).stopped = false)
    (he : s.freeEngine q = some e) (hc : (s.cardsOf q).find? s.cardReady = some c) :
    exec (.cardDispatch q) s = .next (s.modCard c.id fun c => cardNext
      { c with phase := .running, engine := some e, agent := { c.agent with tlb := engineOf q e } }) := by
  change execCardDispatch q s = _
  simp [execCardDispatch, hs, he, hc]

/-! ## Arrivals of a card (R238) -/

theorem cardAllRead_iff (c : Card) : cardAllRead c = true ↔
    (c.phase = .moved ∨ c.phase = .running ∧
      (c.kind = .fill ∨ c.loaded.isSome = true ∧ c.row + 1 = cRows c.regs.toList)) := by
  simp [cardAllRead]

theorem exec_cardReleasedArrival {s t : State} {c : Card} (hc : s.cards.find? (fun x => x.id == c.id) = some c)
    (hr : cardAllRead c = true) (hs : (s.quarter (cardQuarter c)).stopped = false)
    (ha : engArrive c.agent (c.regs.get 6) c.n s = .ok ((), t)) :
    exec (.cardReleasedArrival c.id) s =
      .next ((t.modCard c.id fun x => { x with phase := if x.phase = .moved then .released else .draining }).freeScores
        c.agent.core c.id false) := by
  change execCardReleasedArrival c.id s = _
  simp [execCardReleasedArrival, hc, hr, hs, ha]

theorem exec_cardVisibleArrival {s t : State} {c : Card} (hc : s.cards.find? (fun x => x.id == c.id) = some c)
    (hp : c.phase = .released) (hf : cardFree c = true) (hs : (s.quarter (cardQuarter c)).stopped = false)
    (hq : (s.sent.any fun x => x.owner == .card c.id) = false)
    (ha : engArrive c.agent (c.regs.get 7) c.n s = .ok ((), t)) :
    exec (.cardVisibleArrival c.id) s = .next
      { (t.freeScores c.agent.core c.id true).dropTorn (.card c.id) with cards := t.cards.filter fun x => x.id != c.id } := by
  change execCardVisibleArrival c.id s = _
  simp [execCardVisibleArrival, hc, hp, hf, hs, hq, ha]

/-! ## Gathers (R243) -/

/-- The regions of the ranges that hold any byte, as an agent sees them. -/
def regionsOf (a : Agent) (l : List Range) : List Region := (l.filter fun y => y.len != 0).map fun y => y.region a

/-- The scoreboard entries of the footprint of a `gath`. -/
def State.gathScores (s : State) (f : FE) : List Score :=
  scoresOf (s.agentOf s.key).core s.nextId (regionsOf (s.agentOf s.key) (gReads (s.feRegs f)))
    (regionsOf (s.agentOf s.key) (gWrites (s.feRegs f)))

/-- The gather that a `gath` issues. -/
def State.gathOf (s : State) (f : FE) : Gather :=
  { id := s.nextId, ctx := s.key, slot := s.issuerSlot, bins := none, regs := Vector.ofFn fun i => (s.feRegs f).getD i 0
    vis := s.val f.opb, agent := { s.agentOf s.key with who := .gather s.nextId }, ten := s.ctx.ten, pc := s.pc, engine := none
    next := 0, atEnd := false, record := none, faulted := false }

/-- The gather joins those in flight, and its entries the scoreboard. -/
def State.withGather (s : State) (g : Gather) (es : List Score) : State :=
  { s with gathers := s.gathers ++ [g], nextId := s.nextId + 1 }.modCore fun x => { x with scores := x.scores ++ es }

theorem exec_gath {c : Ctl} {f : FE} {s : State} {sc : Scope} (hg : s.guard c = true)
    (hsc : s.scope f.scope (.gath c f) = .ok sc) (hb : s.checkBarrier (s.val f.opb) = .ok ())
    (hok : ∀ n, n < 4 → gathOk (s.feRegs f) n = true) (hd : s.checkDestWindow ((s.feRegs f).getD 3 0) = .ok ())
    (hr : s.checkRanges (gReads (s.feRegs f) ++ gWrites (s.feRegs f)) = .ok ())
    (room : s.core.scores.length + (s.gathScores f).length ≤ 32) :
    exec (.gath c f) s = .next (s.withGather (s.gathOf f) (s.gathScores f)).advance := by
  have regs : (List.range 4).find? (fun n => !gathOk (s.feRegs f) n) = none :=
    List.find?_eq_none.2 fun n hn => by simp [hok n (List.mem_range.1 hn)]
  have room : ¬ 32 < s.core.scores.length + (s.gathScores f).length := Nat.not_lt.2 room
  unfold State.gathScores regionsOf at room
  change execGath c f s = _
  unfold execGath
  rw [run_true _ hg]
  simp only [hsc, hb, act_ok_bind, regs, hd, hr, if_neg room]
  rfl

theorem State.gatherTurn_goes {s t : State} {g : Gather} {e : Nat} (hg : s.gathers.find? (fun x => x.id == g.id) = some g)
    (hd : g.atEnd = false) (hs : s.gatherGoes g = true) (he : g.engine = some e) (hn : g.next < g.total)
    (h : g.act s = .ok ((), t)) :
    s.elemTurn g.id = t.modGather g.id fun _ =>
      if g.next + 1 < g.total then { g with next := g.next + 1 }
      else { g with next := g.next + 1, atEnd := true, engine := none } := by
  have more : ¬ g.total ≤ g.next := Nat.not_le.2 hn
  simp only [State.elemTurn, hg, State.gatherTurn, hd, hs, he, State.gatherRun, if_neg more, h]
  rfl

theorem exec_gatherVisibleArrival {s t : State} {g : Gather} (hg : s.gathers.find? (fun x => x.id == g.id) = some g)
    (hd : g.atEnd = true) (hs : s.gatherGoes g = true) (ha : engArrive g.agent g.vis g.arrives s = .ok ((), t)) :
    exec (.gatherVisibleArrival g.id) s = .next
      { ((t.freeScores g.agent.core g.id false).freeScores g.agent.core g.id true).dropTorn (.gather g.id) with
        gathers := t.gathers.filter fun x => x.id != g.id } := by
  change execGatherVisibleArrival g.id s = _
  simp [execGatherVisibleArrival, hg, hd, hs, State.endGather, ha]

end Sys2Proof.Machine

namespace Sys2Proof.Proofs
open Sys2Proof Sys2Proof.Machine Sys2Proof.Claims

/-- Settles O32: each turn and event by the lemma on what it gives. -/
theorem cardAndGatherLife : Obligations.CardAndGatherLife := by
  unfold Obligations.CardAndGatherLife
  refine ⟨⟨?dispatch, ?row, ?released, ?visible⟩, ?issue, ?element, ?done⟩
  case dispatch =>
    intro q s c e hs he hc
    obtain ⟨bound, free⟩ := State.freeEngine_spec he
    exact ⟨exec_cardDispatch hs he hc, free, bound, State.cardReady_after (List.find?_some hc)⟩
  case row =>
    intro s t c c1 hc hg h
    refine ⟨State.rowTurn_goes hc hg h, fun hl hk => cardStep_reads hl hk h, fun hl hk => ?_⟩
    rw [cardStep_writes hl hk h]
    exact ⟨rfl, rfl, rfl⟩
  case released =>
    intro s t c hc hr hs ha
    exact exec_cardReleasedArrival hc ((cardAllRead_iff c).2 hr) hs ha
  case visible =>
    intro s t c hc hp hf hs hq ha
    refine ⟨_, exec_cardVisibleArrival hc hp hf hs hq ha, rfl, fun x hx => ?_⟩
    simpa using (List.mem_filter.1 hx).2
  case issue =>
    intro c f s sc hg r a live es hsc hb hok hd hr room
    refine ⟨_, s.gathOf f, exec_gath hg hsc hb hok hd hr room, ?_, rfl, rfl, rfl, ?_, ?_, ?_⟩
    · rw [State.advance_gathers]; rfl
    · rw [State.core_advance, State.withGather, State.core_modCore]; rfl
    · rw [State.thread_advance, State.thread_advance]; rfl
    · rw [State.advance_mem]; rfl
  case element =>
    intro s t g e hg hd hs he hn h
    exact State.gatherTurn_goes hg hd hs he hn h
  case done =>
    intro s t g hg hd hs ha
    refine ⟨_, exec_gatherVisibleArrival hg hd hs ha, rfl, fun x hx => ?_⟩
    simpa using (List.mem_filter.1 hx).2

end Sys2Proof.Proofs
end

section
/-! SUPPORT. One turn of the machine: what a fetch answers, and what the turns of issuers, of seep units, of events, of
run-ahead, of retirement and of pending traps give, and the statement about them (R24, R26, R27, R42, R163 to R168, R277, R314). -/

namespace Sys2Proof.Machine

/-! ## A step is the turn that comes first -/

theorem step_turn {s : State} {x : Turn} {ts : List Turn} (h : s.turns = x :: ts) :
    step s = Claims.noted (State.runTurn { s with turns := ts } x) := by
  simp only [step, State.stepTurn, h, State.fullTurn]
  cases State.runTurn { s with turns := ts } x <;> rfl

/-! ## Fetch (R24, R26, R27, R42) -/

theorem State.enterPacket_held {s : State} {p : BitVec 1024} (h : s.thread.packet = some p) : s.enterPacket = .ok (p, s) := by
  simp only [State.enterPacket, h]

/-- A packet that is read at its entry slot passes when its header does and no poison lies in what counts of it. -/
theorem State.enterPacket_read {s t : State} {p : BitVec 1024} {bad : BitVec 2} (h : s.thread.packet = none)
    (hr : s.readPacket (packetOf s.pc) = .ok (p, bad, t)) (h0 : bitAt bad 0 = false)
    (hh : headerCause (p.extractLsb' 0 64) = none)
    (h1 : bitAt bad 1 = false ∨ 8 + 12 * bitsAt (p.extractLsb' 0 64) 56 4 ≤ 64) :
    s.enterPacket = .ok (p, t.setThread { pc := t.pc, packet := some p }) := by
  have clean : (bitAt bad 1 && decide (64 < 8 + 12 * bitsAt (p.extractLsb' 0 64) 56 4)) = false := by
    rcases h1 with h1 | h1
    · rw [h1, Bool.false_and]
    · rw [decide_eq_false (Nat.not_lt.2 h1), Bool.and_false]
  simp only [State.enterPacket, h, hr, undo, act_ok_bind, h0, hh, clean, Bool.false_eq_true, if_false]

section
variable {s v : State} {p : BitVec 1024} (he : s.enterPacket = .ok (p, v))
include he

theorem State.fetch_beyond (hc : v.thread.cnt ≤ slotOf v.pc) : s.fetch = .ok (none, v.goto (packetOf v.pc + 128)) := by
  simp only [State.fetch, he, act_ok_bind, if_pos hc]

theorem State.fetch_decoded {x : Instr} (hc : slotOf v.pc < v.thread.cnt)
    (hd : decode (p.extractLsb' (64 + 96 * slotOf v.pc) 96) = .ok x) : s.fetch = .ok (some x, v) := by
  simp only [State.fetch, he, act_ok_bind, if_neg (Nat.not_le.2 hc), slotWord, hd]

theorem State.fetch_refused {e : Fate} (hc : slotOf v.pc < v.thread.cnt)
    (hd : decode (p.extractLsb' (64 + 96 * slotOf v.pc) 96) = .error e) :
    s.fetch = raise v (fateCause e) ((p.extractLsb' (64 + 96 * slotOf v.pc) 96).extractLsb' 32 64) := by
  simp only [State.fetch, he, act_ok_bind, if_neg (Nat.not_le.2 hc), slotWord, hd]

end

/-! ## Issue (R163, R164) -/

theorem State.issueTurn_goes {s u : State} {i : Issuer} (hm : s.mayIssue i = true) (hf : s.frozen (ctxNum i.core i.lc) = false)
    (hu : u = { s with cur := i, order := s.readyOrder.filter fun x => x != i }) (hs : u.ctx.starting = 0) :
    s.issueTurn i = u.issueNow := by
  subst hu
  simp only [State.issueTurn, hf, hm, hs, Bool.not_true, Bool.or_self, Bool.false_eq_true, if_false, bne_self_eq_false]

theorem State.issueNow_decoded {s v : State} {x : Instr} (hf : s.fetch = .ok (some x, v)) : s.issueNow = v.runInstr x := by
  simp only [State.issueNow, hf]

theorem State.runInstr_full {s : State} {x : Instr} (h : s.aheadFull x = true) : s.runInstr x = .next s.waitBegins := by
  simp only [State.runInstr, if_pos h]

theorem State.runInstr_next {s t : State} {x : Instr} (h : s.aheadFull x = false) (hx : exec x s = .next t) :
    s.runInstr x = .next { s.noteWait t with
      order := if (yields x || s.stayed t) = true then t.order else t.order ++ [s.cur] } := by
  simp only [State.runInstr, h, Bool.false_eq_true, if_false, hx]

/-! ## Turns of seep units and events (R277) -/

theorem State.unitTurn_op {s : State} {k : Kernel} {u : SeepUnit} {op : Instr} {ops : List Instr}
    (hk : s.kernels.find? (fun x => x.id == k.id) = some k) (hu : k.units.find? (fun x => x.id == u.id) = some u)
    (hr : k.stage = .running) (hw : k.stoppedUnit u = false) (hs : (s.quarter (quarterOf k.agent.core)).stopped = false)
    (ho : u.ops = op :: ops) :
    s.unitTurn k.id u.id =
      exec op { (s.modKernel k.id fun x => x.setUnit u) with unit := some (k.id, u.id) } := by
  simp only [State.unitTurn, hk, hu, hr, hw, hs, ho, bne_self_eq_false, Bool.or_self, Bool.false_eq_true, if_false,
    List.isEmpty_cons]

theorem State.eventTurn_wf {s : State} {e : Instr} (he : encode e = .event) (hw : wf e = true) : s.eventTurn e = exec e s := by
  have ok : eventOk e = true := by simpa only [wf, he] using hw
  simp only [State.eventTurn, he, if_pos ok]

/-! ## Issue ahead (R164) -/

theorem State.aheadTurn_goes {s u : State} {i : Issuer} (hu : u = { s with cur := i }) (hr : u.ctx.runs i.lg = true)
    (hf : u.frozen u.key = false) (ha : u.atInstr i = true) (hs : u.ctx.starting = 0) : s.aheadTurn i = u.aheadNow := by
  subst hu
  have runs : (s.ctxAt (ctxNum i.core i.lc)).runs i.lg = true := hr
  have frozen : s.frozen (ctxNum i.core i.lc) = false := hf
  have stands : s.atInstr i = true := ha
  have started : (s.ctxAt (ctxNum i.core i.lc)).starting = 0 := hs
  simp only [State.aheadTurn, runs, frozen, stands, started, Bool.not_false, Bool.and_self, beq_self_eq_true, if_true]

/-- A vector instruction that finds room joins those of its context that have not retired. -/
theorem State.aheadNow_joins {s v : State} {x : Instr} {w : BitVec 96} (hf : s.fetch = .ok (some x, v))
    (hx : coreWord x = some w) (hw : leavesBehind w = true) (hs : v.ctx.streams.all Option.isNone = true)
    (room : v.ctx.ahead.length < 32) :
    s.aheadNow = .next (v.advance.waitEnds.modCtx fun c => { c with
      ahead := c.ahead ++ [{ slot := v.issuerSlot, thread := v.thread, instr := x }] }) := by
  have room : ¬ aheadMax ≤ v.ctx.ahead.length := Nat.not_le.2 room
  simp only [State.aheadNow, hf, hx, if_pos hw, hs, Bool.not_true, Bool.false_eq_true, if_false, if_neg room]

/-! ## The state in which an unretired instruction was issued (R165, R167) -/

/-- Putting back a scalar or predicate register keeps what writes of those keep. -/
theorem State.putBack_keeps {α : Type} (p : State → α) (hs : ∀ s n v, p (State.writeS s n v) = p s)
    (hp : ∀ s n v, p (State.writeP s n v) = p s) (s : State) (h : Hist) : p (s.putBack h) = p s := by
  unfold State.putBack
  split
  · exact hs _ _ _
  · exact hp _ _ _
  · rfl

/-- What is left of the machine when the history entries of the executing issuer are undone. -/
def State.undone (s : State) : State := (s.core.hist.filter s.ownsHist).reverse.foldl State.putBack s

theorem State.undone_keeps {α : Type} (p : State → α) (hs : ∀ s n v, p (State.writeS s n v) = p s)
    (hp : ∀ s n v, p (State.writeP s n v) = p s) (s : State) : p s.undone = p s :=
  foldl_keeps p (State.putBack_keeps p hs hp) _ s

@[simp] theorem State.undone_cur (s : State) : s.undone.cur = s.cur :=
  s.undone_keeps State.cur State.writeS_cur State.writeP_cur
@[simp] theorem State.undone_mem (s : State) : s.undone.mem = s.mem :=
  s.undone_keeps State.mem State.writeS_mem State.writeP_mem
@[simp] theorem State.undone_cores (s : State) : s.undone.cores = s.cores :=
  s.undone_keeps State.cores State.writeS_cores State.writeP_cores
@[simp] theorem State.undone_core (s : State) : s.undone.core = s.core := by
  simp only [State.core, State.coreAt, State.undone_cur, State.undone_cores]

theorem State.rollBack_eq (s : State) (e : Unretired) : s.rollBack e =
    ((s.undone.modCore fun c => { c with hist := c.hist.filter fun h => !s.ownsHist h }).modCtx fun c =>
      { c with ahead := c.ahead.filter fun x => x.slot != e.slot }).setThread e.thread := rfl

@[simp] theorem State.rollBack_thread (s : State) (e : Unretired) : (s.rollBack e).thread = e.thread :=
  State.thread_setThread ..
@[simp] theorem State.rollBack_mem (s : State) (e : Unretired) : (s.rollBack e).mem = s.mem := by
  rw [State.rollBack_eq, State.setThread_mem, State.modCtx_mem, State.modCore_mem, State.undone_mem]
@[simp] theorem State.rollBack_rows (s : State) (e : Unretired) : (s.rollBack e).core.rows = s.core.rows := by
  rw [State.rollBack_eq, State.core_setThread, State.core_modCtx, State.core_modCore, State.undone_core]

/-- Outside a body the scalar registers are what undoing leaves of them. -/
theorem State.rollBack_s {s : State} (h : s.cur.lg = none) (e : Unretired) : (s.rollBack e).ctx.s = s.undone.ctx.s := by
  rw [State.rollBack_eq, State.setThread_outside, State.ctx_modCtx, State.ctx_modCtx, State.ctx_modCore]
  rw [State.modCtx_cur, State.modCore_cur, State.undone_cur, h]

/-- Outside a body the one register that has been written since has its old value again. -/
theorem State.rollBack_readS {s : State} {e : Unretired} {h : Hist} {n : Fin 64} (hl : s.cur.lg = none)
    (hh : s.core.hist = [h]) (ho : s.ownsHist h = true) (hr : h.reg = .s n) (hn : n ≠ 0) :
    (s.rollBack e).readS n = h.old := by
  have mine : (s.core.hist.filter s.ownsHist).reverse = [h] := by simp [hh, ho]
  have undone : s.undone = s.writeS n h.old := by
    simp only [State.undone, mine, List.foldl_cons, List.foldl_nil, State.putBack, hr]
  have outside : (s.rollBack e).cur.lg = none := by
    rw [State.rollBack_eq, State.setThread_cur, State.modCtx_cur, State.modCore_cur, State.undone_cur, hl]
  rw [State.readS_outside outside hn, State.rollBack_s hl, undone, State.writeS_out _ _ _ (State.inBody_of_lg_none hl) hn,
    State.ctx_modCtx, vget_set_same]

/-! ## Retirement (R164, R165, R167) -/

/-- The state that retirement leaves of the outcome of an instruction: the registers as run-ahead has left them, and the
instruction gone. -/
def State.retired (s t : State) (e : Unretired) : State :=
  ((t.withRegsOf s).modCtx fun c => { c with ahead := dropOldest e.slot s.ctx.ahead }).modCore fun c =>
    { c with hist := s.core.hist.filterMap fun h =>
        if !s.ownsHist h then some h
        else if h.before ≤ 1 then none else some { h with before := h.before - 1 } }

theorem State.retireTurn_goes {s u : State} {i : Issuer} {e : Unretired} (hu : u = { s with cur := i })
    (he : u.ctx.ahead.find? (fun x => x.slot == i.slot) = some e) (hr : u.ctx.status = .running) :
    s.retireTurn i = u.retireNow e := by
  subst hu
  have oldest : (s.ctxAt (ctxNum i.core i.lc)).ahead.find? (fun x => x.slot == i.slot) = some e := he
  have runs : (s.ctxAt (ctxNum i.core i.lc)).status = .running := hr
  simp only [State.retireTurn, oldest, runs, true_or, if_true]

theorem State.retireNow_traps {s t : State} {e : Unretired} (hx : exec e.instr (s.rollBack e) = .next t)
    (ht : (s.rollBack e).trapped t = true) : s.retireNow e = .next t := by
  simp only [State.retireNow, hx, if_pos ht]

theorem State.retireNow_retires {s t : State} {e : Unretired} (hx : exec e.instr (s.rollBack e) = .next t)
    (ht : (s.rollBack e).trapped t = false) (hm : t.thread ≠ (s.rollBack e).thread) : s.retireNow e = .next (s.retired t e) := by
  simp only [State.retireNow, hx, ht, Bool.false_eq_true, if_false, if_neg hm]
  rfl

theorem State.withRegsOf_outside {s t : State} (h : t.cur.lg = none) :
    t.withRegsOf s = t.modCtx fun c => { c with thread := s.ctx.thread, s := s.ctx.s, p := s.ctx.p } := by
  simp only [State.withRegsOf, h]

section
variable {s t : State} (h : t.cur.lg = none) (e : Unretired)
include h

theorem State.retired_ctx : (s.retired t e).ctx =
    { t.ctx with thread := s.ctx.thread, s := s.ctx.s, p := s.ctx.p, ahead := dropOldest e.slot s.ctx.ahead } := by
  rw [State.retired, State.ctx_modCore, State.ctx_modCtx, State.withRegsOf_outside h, State.ctx_modCtx]

theorem State.retired_rows : (s.retired t e).core.rows = t.core.rows := by
  rw [State.retired, State.core_modCore, State.core_modCtx, State.withRegsOf_outside h, State.core_modCtx]

theorem State.retired_mem : (s.retired t e).mem = t.mem := by
  rw [State.retired, State.modCore_mem, State.modCtx_mem, State.withRegsOf_outside h, State.modCtx_mem]

end

/-! ## Waits that have ended (R314) -/

@[simp] theorem State.noteWakes_cur (s : State) : s.noteWakes.cur = s.cur :=
  s.noteWakes_keeps State.cur (fun _ _ _ => rfl) (fun _ _ => rfl) fun _ _ _ _ => rfl
@[simp] theorem State.noteWakes_core (s : State) : s.noteWakes.core = s.core :=
  s.noteWakes_keeps State.core (fun _ _ _ => rfl) (fun _ _ => rfl) fun _ _ _ _ => rfl

/-- A saved gang's wake touches no context. -/
theorem State.probeSaved_ctxAt (s : State) (q : Fin 4) (x : Saved) (k : Nat) (c : Ctx) (i : Issuer) (j : Nat) :
    (s.probeSaved q x k c i).ctxAt j = s.ctxAt j := by
  unfold State.probeSaved
  dsimp only
  split
  · unfold State.wakeSaved
    dsimp only
    split <;> rfl
  · rfl

/-- Of a context, noting the waits that have ended writes its waits and its WAKE alone. -/
theorem State.noteWakes_ctxAt {α : Type} (p : Ctx → α) (hw : ∀ c l, p { c with inWait := l } = p c)
    (hk : ∀ c b, p { c with wake := b } = p c) (s : State) (j : Nat) : p (s.noteWakes.ctxAt j) = p (s.ctxAt j) := by
  have write : ∀ (t : State) k f, (∀ c, p (f c) = p c) → p ((t.modCtxAt k f).ctxAt j) = p (t.ctxAt j) := by
    intro t k f hf
    by_cases h : j = k
    · rw [h, State.ctxAt_modCtxAt_same, hf]
    · rw [State.ctxAt_modCtxAt_ne _ _ h]
  have probe : ∀ (t : State) i, p ((t.probeWait i).ctxAt j) = p (t.ctxAt j) := by
    intro t i
    unfold State.probeWait
    dsimp only
    split
    · split
      · exact write _ _ _ fun c => hw c _
      · exact write _ _ _ fun c => hk c _
    · rfl
  let q := fun t : State => p (t.ctxAt j)
  unfold State.noteWakes
  split
  · rfl
  · refine (foldl_keeps q (fun t r => ?_) _ _).trans (foldl_keeps q probe _ s)
    refine foldl_keeps q (fun t x => foldl_keeps q (fun t c => foldl_keeps q (fun t n => ?_) _ t) _ t) _ t
    exact congrArg p (t.probeSaved_ctxAt r x c.1 c.2 _ j)

theorem State.noteWakes_ctx (s : State) :
    s.noteWakes.ctx = { s.ctx with inWait := s.noteWakes.ctx.inWait, wake := s.noteWakes.ctx.wake } := by
  have same : s.noteWakes.ctx = s.noteWakes.ctxAt s.key := by rw [State.ctx, State.key, State.noteWakes_cur]; rfl
  have rest := s.noteWakes_ctxAt (fun c => { c with inWait := [], wake := false }) (fun _ _ => rfl) (fun _ _ => rfl) s.key
  rw [same]
  exact congrArg (fun c : Ctx =>
    { c with inWait := (s.noteWakes.ctxAt s.key).inWait, wake := (s.noteWakes.ctxAt s.key).wake }) rest

/-! ## Pending traps (R168) -/

theorem State.deliverTurn_delivers {s : State} {k : Nat} {lg : Option (Fin 4)} {t : Trap} (hr : (s.ctxAt k).status = .running)
    (hn : (s.ctxAt k).record = none) (ha : (s.ctxAt k).ahead = []) (hf : s.frozen k = false)
    (ht : (s.ctxAt k).nextPending = some (lg, t)) :
    s.deliverTurn k = s.asIssuer { ctxIssuer k with lg := lg } fun u =>
      (if u.inBody then u.modStrip fun x => { x with held := none } else u.modCtx fun c => { c with held := none }).takeTrap t := by
  simp only [State.deliverTurn, hr, hn, ha, hf, ht, bne_self_eq_false, Bool.false_and, Option.isSome_none, List.isEmpty_nil,
    Bool.not_true, Bool.or_self, Bool.false_eq_true, if_false]

end Sys2Proof.Machine

namespace Sys2Proof.Proofs
open Sys2Proof Sys2Proof.Machine Sys2Proof.Claims

/-- Settles O57: each turn by the lemma on what it gives. -/
theorem stepRunsTheInstruction : Obligations.StepRunsTheInstruction := by
  unfold Obligations.StepRunsTheInstruction
  refine ⟨?issue, ?unit, ?event, ?evict, ?ahead, ?retire, ?rollBack, ?deliver⟩
  case issue =>
    intro s u v i ts p h hu hm hf hs hp
    have entered : u.enterPacket = .ok (p, v) := by
      rcases hp with ⟨held, rfl⟩ | ⟨empty, bad, w, hr, h0, hh, h1, rfl⟩
      · exact State.enterPacket_held held
      · exact State.enterPacket_read empty hr h0 hh h1
    have turn : step s = noted u.issueNow := by
      rw [step_turn h]
      exact congrArg noted (State.issueTurn_goes (s := { s with turns := ts }) hm hf hu hs)
    refine ⟨fun hc => ?_, fun hc => ⟨fun x t hd => ?_, fun e hd => ?_⟩⟩
    · rw [turn, State.issueNow, State.fetch_beyond entered hc]
    · rw [turn, State.issueNow_decoded (State.fetch_decoded entered hc hd)]
      exact ⟨fun full => by rw [State.runInstr_full full], fun room hx => by rw [State.runInstr_next room hx]⟩
    · rw [turn, State.issueNow, State.fetch_refused entered hc hd]
      rfl
  case unit =>
    intro s k u op ops ts h hk hu hr hw hs ho
    rw [step_turn h]
    exact congrArg noted (State.unitTurn_op (s := { s with turns := ts }) hk hu hr hw hs ho)
  case event =>
    intro s e ts h he hw
    rw [step_turn h]
    exact congrArg noted (State.eventTurn_wf he hw)
  case evict =>
    intro s core k ts h
    exact step_turn h
  case ahead =>
    intro s u i ts p x w h hu hr hf ha hs hp hc hd hx hw hstr room
    rw [step_turn h]
    have fetched := State.fetch_decoded (State.enterPacket_held hp) hc hd
    exact congrArg noted ((State.aheadTurn_goes (s := { s with turns := ts }) hu hr hf ha hs).trans
      (State.aheadNow_joins fetched hx hw hstr room))
  case retire =>
    intro s u t i ts e h hu he hr hx
    have turn : step s = noted (u.retireNow e) := by
      rw [step_turn h]
      exact congrArg noted (State.retireTurn_goes (s := { s with turns := ts }) hu he hr)
    refine ⟨fun ht => by rw [turn, State.retireNow_traps hx ht], fun ht hm hl hcur => ?_⟩
    have outside : t.cur.lg = none := by rw [hcur, hl]
    rw [turn, State.retireNow_retires hx ht hm]
    have ctx := (u.retired t e).noteWakes_ctx
    rw [State.retired_ctx outside] at ctx
    exact ⟨_, rfl, by rw [State.noteWakes_mem, State.retired_mem outside],
      by rw [State.noteWakes_core, State.retired_rows outside], by rw [ctx], by rw [ctx], by rw [ctx], by rw [ctx], by rw [ctx]⟩
  case rollBack =>
    intro s e h hl
    exact ⟨s.rollBack_thread e, s.rollBack_mem e, s.rollBack_rows e, fun n hh ho hr hn => State.rollBack_readS hl hh ho hr hn⟩
  case deliver =>
    intro s k ts lg t h hr hn ha hf ht
    rw [step_turn h]
    exact congrArg (fun u => noted (.next u)) (State.deliverTurn_delivers (s := { s with turns := ts }) hr hn ha hf ht)

end Sys2Proof.Proofs
end

section
/-! SUPPORT. `mfc`, `mtc` and the control registers: the waits, refusals and writes behind the two forms, what a write of STATUS
leaves, and what each register reads as (R75, R78, R104 to R106, Table 6-6), with the statement about them. -/

namespace Sys2Proof.Machine

/-! ## Bits and halves of a word -/

theorem bitsAt_congr {m : Nat} {x y : BitVec m} {lo n : Nat} (h : ∀ i, i < n → x.getLsbD (lo + i) = y.getLsbD (lo + i)) :
    bitsAt x lo n = bitsAt y lo n :=
  congrArg BitVec.toNat (BitVec.eq_of_getLsbD_eq fun i hi => by simp only [BitVec.getLsbD_extractLsb', h i hi])

theorem bitsAt_eq_zero {m : Nat} {x : BitVec m} {lo n : Nat} (h : ∀ i, i < n → x.getLsbD (lo + i) = false) :
    bitsAt x lo n = 0 := by
  have zero : bitsAt (0 : BitVec m) lo n = 0 := by simp [bitsAt]
  rw [← zero]
  exact bitsAt_congr fun i hi => by simp [h i hi]

/-- The upper half of a word holds a bit when the word is at least 2^32. -/
theorem upperHalf_ne_zero (v : Word) : (v >>> 32 != 0) = decide (2 ^ 32 ≤ v.toNat) := by
  have value : (v >>> 32 = 0) ↔ v.toNat / 2 ^ 32 = 0 := by
    rw [← BitVec.toNat_inj, BitVec.toNat_ushiftRight, Nat.shiftRight_eq_div_pow, show (0 : Word).toNat = 0 from rfl]
  rw [Bool.eq_iff_iff, bne_iff_ne, decide_eq_true_iff, ne_eq, value]
  omega

theorem word_of_lowHalf {v : Word} (h : v.toNat < 2 ^ 32) : (v.setWidth 32).setWidth 64 = v :=
  BitVec.eq_of_toNat_eq (by simp only [BitVec.toNat_setWidth]; omega)

/-! ## Waiting and permission (R87, R106, R172) -/

theorem State.afterVector_ok {s : State} (h : s.ctx.ahead = []) : s.afterVector = .ok () := by
  simp [State.afterVector, h]
theorem State.afterVector_waits {s : State} (h : s.ctx.ahead ≠ []) : s.afterVector = hold s := by
  simp [State.afterVector, h]

theorem State.mtcAllowed_outside {s : State} (h : s.inBody = false) (n : Nat) : s.mtcAllowed n = true := by
  simp [State.mtcAllowed, h]
theorem State.mtcAllowed_handler {s : State} {n : Nat} (h : s.inBody = true → s.ctx.status = .handler)
    (hn : n = 0x00 ∨ n = 0x02) : s.mtcAllowed n = true := by
  cases hb : s.inBody with
  | false => exact s.mtcAllowed_outside hb n
  | true => simpa [State.mtcAllowed, hb, h hb] using hn
theorem State.mtcAllowed_body {s : State} {n : Nat} (h : s.inBody = true)
    (hn : s.ctx.status = .handler → n ≠ 0x00 ∧ n ≠ 0x02) : s.mtcAllowed n = false := by
  simpa [State.mtcAllowed, h] using hn

/-! ## Writing a register (R104) -/

theorem State.writeCr_status (s : State) (v : Word) :
    s.writeCr 0x00 v = .ok (s.modCtx fun x => { x with streg := writeStatus x.streg v }) := rfl
theorem State.writeCr_trappc (s : State) (v : Word) :
    s.writeCr 0x02 v = .ok (s.modCtx fun x => { x with trap := { x.trap with pc := v } }) := rfl
theorem State.writeCr_upper {s : State} {n : Nat} {v : Word} (h0 : n ≠ 0x00) (h2 : n ≠ 0x02) (hv : 2 ^ 32 ≤ v.toNat) :
    s.writeCr n v = raise s .range v := by
  simp only [State.writeCr, if_neg h0, if_neg h2, upperHalf_ne_zero, decide_eq_true hv, if_true]
theorem State.writeCr_srseed {s : State} {v : Word} (hv : v.toNat < 2 ^ 32) :
    s.writeCr 0x0B v = .ok (s.modCtx fun x => { x with srseed := v.setWidth 32, stoch := [] }) := by
  simp only [State.writeCr, upperHalf_ne_zero, decide_eq_false (Nat.not_le.2 hv)]
  rfl
theorem State.writeCr_fmap {s : State} {v : Word} (k : Fin 32) (hv : v.toNat < 2 ^ 32) :
    s.writeCr (0x20 + k.val) v = s.writeFmap k (v.setWidth 32) := by
  have entry : Fin.ofNat 32 (0x20 + k.val) = k := Fin.ext (by simp)
  have status : 0x20 + k.val ≠ 0x00 := by omega
  have trappc : 0x20 + k.val ≠ 0x02 := by omega
  have srseed : 0x20 + k.val ≠ 0x0B := by omega
  simp only [State.writeCr, if_neg status, if_neg trappc, if_neg srseed, upperHalf_ne_zero,
    decide_eq_false (Nat.not_le.2 hv), Bool.false_eq_true, if_false, entry]

theorem State.writeFmap_ok {s : State} {n : Fin 32} {e : BitVec 32} (h : entryOk s.ctx.win e = true) :
    s.writeFmap n e = .ok (s.setEntry n e) := by simp [State.writeFmap, h]
theorem State.writeFmap_bad {s : State} {n : Fin 32} {e : BitVec 32} (h : entryOk s.ctx.win e = false) :
    s.writeFmap n e = raise s .range (e.setWidth 64) (w64 n) := by simp [State.writeFmap, h]

/-! ## The two forms -/

section
variable {c : Ctl} {f : FR} {s : State}

theorem exec_mfc_run (hg : s.guard c = true) : exec (.mfc c f) s = settle (do
    s.afterVector
    s.checkDest f.opd
    .ok (s.putS f.opd (s.readCr (crOf f.opa))).advance) :=
  show execMfc c f s = _ from run_true _ hg
theorem exec_mtc_run (hg : s.guard c = true) : exec (.mtc c f) s = settle (do
    s.afterVector
    if s.mtcAllowed (crOf f.opd) then
      let t ← s.writeCr (crOf f.opd) (s.val f.opa)
      .ok t.advance
    else trapField s .operandClass f.opd) :=
  show execMtc c f s = _ from run_true _ hg

theorem exec_mfc_waits (hg : s.guard c = true) (h : s.ctx.ahead ≠ []) : exec (.mfc c f) s = .next s := by
  rw [exec_mfc_run hg, State.afterVector_waits h]; rfl
theorem exec_mtc_waits (hg : s.guard c = true) (h : s.ctx.ahead ≠ []) : exec (.mtc c f) s = .next s := by
  rw [exec_mtc_run hg, State.afterVector_waits h]; rfl

theorem exec_mfc_reads {n : BitVec 8} (hg : s.guard c = true) (h : s.ctx.ahead = []) (hd : Claims.destOk s f.opd)
    (ha : f.opa = .cr n) : exec (.mfc c f) s = .next (s.putS f.opd (s.readCr n.toNat)).advance := by
  rw [exec_mfc_run hg, State.afterVector_ok h, checkDest_ok hd, ha]; rfl

/-- An `mtc` that may execute does what the write of the register answers. -/
theorem exec_mtc_allowed (hg : s.guard c = true) (h : s.ctx.ahead = []) (ha : s.mtcAllowed (crOf f.opd) = true) :
    exec (.mtc c f) s = settle (s.writeCr (crOf f.opd) (s.val f.opa) >>= fun t => .ok t.advance) := by
  rw [exec_mtc_run hg, State.afterVector_ok h, ha]; rfl
theorem exec_mtc_refused (hg : s.guard c = true) (h : s.ctx.ahead = []) (ha : s.mtcAllowed (crOf f.opd) = false) :
    exec (.mtc c f) s = .next (s.takeTrap { cause := .operandClass, val := f.opd.code.setWidth 64 }) := by
  rw [exec_mtc_run hg, State.afterVector_ok h, ha]; rfl

end

/-! ## STATUS (Table 6-7) -/

theorem statusMasks : ∀ i, i < 64 →
    (0xFFFF0000 : Word).getLsbD i = decide (16 ≤ i ∧ i < 32) ∧ (0x70 : Word).getLsbD i = decide (4 ≤ i ∧ i < 7) ∧
    (0xF : Word).getLsbD i = decide (i < 4) := by decide

/-- Each bit of STATUS after a write: TMCNT and a mode below 6 from the value, sticky bits cleared by its ones, all others 0. -/
theorem getLsbD_writeStatus (old v : Word) {i : Nat} (hi : i < 64) : (writeStatus old v).getLsbD i =
    if 16 ≤ i ∧ i < 32 then v.getLsbD i
    else if 4 ≤ i ∧ i < 7 then (if bitsAt v 4 3 < 6 then v else old).getLsbD i
    else if i < 4 then old.getLsbD i && !v.getLsbD i
    else false := by
  obtain ⟨tmcnt, rmode, sticky⟩ := statusMasks i hi
  have mode : (if bitsAt v 4 3 < 6 then v &&& 0x70 else old &&& 0x70) = (if bitsAt v 4 3 < 6 then v else old) &&& 0x70 := by
    split <;> rfl
  simp only [writeStatus, mode, BitVec.getLsbD_or, BitVec.getLsbD_and, BitVec.getLsbD_not, tmcnt, rmode, sticky,
    decide_eq_true hi, Bool.true_and]
  by_cases h16 : 16 ≤ i ∧ i < 32
  · simp [h16, show ¬(4 ≤ i ∧ i < 7) by omega, show ¬ i < 4 by omega]
  · by_cases h4 : 4 ≤ i ∧ i < 7
    · simp [h16, h4, show ¬ i < 4 by omega]
    · by_cases hs : i < 4 <;> simp [h16, h4, hs]

theorem writeStatus_fields (old v : Word) :
    bitsAt (writeStatus old v) 7 9 = 0 ∧ bitsAt (writeStatus old v) 32 32 = 0 ∧
    bitsAt (writeStatus old v) 16 16 = bitsAt v 16 16 ∧
    bitsAt (writeStatus old v) 4 3 = (if bitsAt v 4 3 < 6 then bitsAt v 4 3 else bitsAt old 4 3) ∧
    ∀ i, i < 4 → (writeStatus old v).getLsbD i = (old.getLsbD i && !v.getLsbD i) := by
  refine ⟨bitsAt_eq_zero fun i hi => ?_, bitsAt_eq_zero fun i hi => ?_, bitsAt_congr fun i hi => ?_, ?_, fun i hi => ?_⟩
  · rw [getLsbD_writeStatus old v (by omega), if_neg (by omega), if_neg (by omega), if_neg (by omega)]
  · rw [getLsbD_writeStatus old v (by omega), if_neg (by omega), if_neg (by omega), if_neg (by omega)]
  · rw [getLsbD_writeStatus old v (by omega), if_pos (by omega)]
  · rw [← apply_ite (fun x : Word => bitsAt x 4 3)]
    refine bitsAt_congr fun i hi => ?_
    rw [getLsbD_writeStatus old v (by omega), if_neg (by omega), if_pos (by omega)]
  · rw [getLsbD_writeStatus old v (by omega), if_neg (by omega), if_neg (by omega), if_pos hi]

/-! ## Reading a register (Table 6-6) -/

theorem State.slen_outside {s : State} (h : s.inBody = false) : s.slen = 0 := by
  have none : s.strip? = none := by simpa [State.inBody] using h
  simp [State.slen, none]
theorem State.sidx_outside {s : State} (h : s.inBody = false) : s.sidx = 0 := by
  have none : s.strip? = none := by simpa [State.inBody] using h
  simp [State.sidx, none]

theorem Window.word_eq {w : Window} (h : w.cb < 512) : w.word = BitVec.ofNat 64 (w.cb * 2 ^ 16 + w.cn) := by
  rw [Window.word, Nat.mod_eq_of_lt h]; rfl

theorem State.readCr_fmap (s : State) (k : Fin 32) : s.readCr (0x20 + k.val) = (s.ctx.fmap.get k).setWidth 64 := by
  have entry : Fin.ofNat 32 (0x20 + k.val) = k := Fin.ext (by simp)
  have range : 0x20 ≤ 0x20 + k.val ∧ 0x20 + k.val < 0x40 := by omega
  unfold State.readCr
  split
  case h_17 => rw [if_pos range, entry]
  all_goals omega

end Sys2Proof.Machine

namespace Sys2Proof.Proofs
open Sys2Proof Sys2Proof.Machine Sys2Proof.Claims

/-- Settles O11: the waits and refusals of the two forms, each write by the register it names, and each read. -/
theorem controlRegisterMoves : Obligations.ControlRegisterMoves := by
  unfold Obligations.ControlRegisterMoves
  refine ⟨fun c f s hg h => ⟨exec_mfc_waits hg h, exec_mtc_waits hg h⟩,
    fun c f s hg h => ⟨fun n => exec_mfc_reads hg h, ?handler, ?outside, ?body⟩, writeStatus_fields, ?reads⟩
  case handler =>
    intro hh
    refine ⟨fun hd => ?_, fun hd => ?_⟩
    · rw [exec_mtc_allowed hg h (State.mtcAllowed_handler hh (by rw [hd]; exact .inl rfl)), hd]
      rfl
    · rw [exec_mtc_allowed hg h (State.mtcAllowed_handler hh (by rw [hd]; exact .inr rfl)), hd]
      rfl
  case outside =>
    intro n hd hb
    have writes : exec (.mtc c f) s = settle (s.writeCr n.toNat (s.val f.opa) >>= fun t => .ok t.advance) := by
      rw [exec_mtc_allowed hg h (s.mtcAllowed_outside hb _), hd]
      rfl
    rw [writes]
    refine ⟨fun hn hv => ?_, fun k hn hv => ?_, fun h0 h2 hv => ?_⟩
    · rw [hn, show (0x0B : BitVec 8).toNat = 0x0B from rfl, State.writeCr_srseed hv]
      rfl
    · have reg : n.toNat = 0x20 + k.val := by rw [hn, BitVec.toNat_ofNat]; omega
      rw [reg, State.writeCr_fmap k hv]
      refine ⟨fun he => ?_, fun he => ?_⟩
      · rw [State.writeFmap_ok he]
        rfl
      · rw [State.writeFmap_bad he, word_of_lowHalf hv]
        rfl
    · rw [State.writeCr_upper (fun e => h0 (BitVec.eq_of_toNat_eq e)) (fun e => h2 (BitVec.eq_of_toNat_eq e)) hv]
      rfl
  case body =>
    intro n hd hb hn
    refine exec_mtc_refused hg h (State.mtcAllowed_body hb fun hh => ?_)
    obtain ⟨h0, h2⟩ := hn hh
    rw [hd]
    exact ⟨fun e => h0 (BitVec.eq_of_toNat_eq e), fun e => h2 (BitVec.eq_of_toNat_eq e)⟩
  case reads =>
    intro s
    exact ⟨rfl, rfl, rfl, rfl, rfl, rfl, rfl, rfl, rfl,
      fun hb => ⟨congrArg w64 (s.slen_outside hb), s.sidx_outside hb⟩, rfl, rfl, Window.word_eq,
      rfl, rfl, rfl, rfl, s.readCr_fmap⟩

end Sys2Proof.Proofs
end

section
/-! SUPPORT. Vector integer forms: patterns as bit vectors, the counts of ones and of leading zeros, and what each shape of form
answers once its checks pass (R113 to R116), with the statement about them. -/

namespace Sys2Proof.Machine

/-! ## Patterns (R53, R116) -/

theorem intBits_eq_toNat_ofInt (w : Nat) (x : Int) : intBits w x = (BitVec.ofInt w x).toNat := (BitVec.toNat_ofInt x).symm

/-- A pattern that a bit vector of its width holds is cut no further. -/
theorem pattern_toNat {w : Nat} (x : BitVec w) (st : BitVec 32) : pattern w x.toNat st = ⟨x.toNat, false, st⟩ := by
  rw [pattern, Nat.mod_eq_of_lt x.isLt]

theorem Fld.extended_eq (f : Fld) (w : Nat) (r : BitVec 512) : f.extended w r = (BitVec.ofInt w (f.int r)).toNat :=
  intBits_eq_toNat_ofInt w _

theorem intVal_unsigned (w n : Nat) : intVal false w n = ((BitVec.ofNat w n).toNat : Int) := by simp [intVal]
theorem intVal_signed (w n : Nat) : intVal true w n = (BitVec.ofNat w n).toInt := by
  rw [BitVec.toInt_eq_toNat_cond, BitVec.toNat_ofNat, intVal, Bool.true_and]
  by_cases h : 2 ^ w ≤ 2 * (n % 2 ^ w)
  · rw [if_pos (decide_eq_true h), if_neg (Nat.not_lt.2 h)]
  · rw [if_neg (by simpa using h), if_pos (Nat.not_le.1 h)]

/-- A field of w bits widened to m: by zeros, or by its sign. -/
theorem intBits_intVal (signed : Bool) (m w n : Nat) : intBits m (intVal signed w n) =
    (if signed = false then (BitVec.ofNat w n).setWidth m else (BitVec.ofNat w n).signExtend m).toNat := by
  rw [intBits_eq_toNat_ofInt]
  cases signed with
  | false => rw [intVal_unsigned, BitVec.ofInt_natCast, BitVec.ofNat_toNat, if_pos rfl]
  | true => rw [intVal_signed, if_neg Bool.noConfusion, BitVec.signExtend]

theorem natCast_two_pow (k : Nat) : ((2 ^ k : Nat) : Int) = 2 ^ k := by simp

/-! ## Counts (R113) -/

theorem onesOf_eq_countP (n w : Nat) : onesOf n w = (List.range w).countP fun i => n.testBit i := by
  induction w generalizing n with
  | zero => rfl
  | succ w ih =>
    have low : n % 2 = if n.testBit 0 then 1 else 0 := by
      rcases Nat.mod_two_eq_zero_or_one n with h | h <;> simp [h]
    rw [onesOf, ih, List.range_succ_eq_map, List.countP_cons, List.countP_map, low, Nat.add_comm]
    simp only [Function.comp_def, Nat.testBit_succ]

/-- The leading zeros of a pattern of w bits: above the rest, and followed by a one. -/
theorem leadingZeros_bounds {w n : Nat} (h : n < 2 ^ w) :
    n < 2 ^ (w - leadingZeros w n) ∧ leadingZeros w n ≤ w ∧
    (leadingZeros w n < w → 2 ^ (w - leadingZeros w n - 1) ≤ n) := by
  by_cases hn : n = 0
  · simp [leadingZeros, hn]
  · have top : n.log2 < w := (Nat.log2_lt hn).2 h
    have lead : leadingZeros w n = w - 1 - n.log2 := if_neg hn
    have rest : w - leadingZeros w n = n.log2 + 1 := by omega
    rw [rest]
    exact ⟨Nat.lt_log2_self, by omega, fun _ => Nat.log2_self_le hn⟩

theorem Fld.get_lt (f : Fld) (r : BitVec 512) : f.get r < 2 ^ f.width := BitVec.isLt _

/-! ## What each shape of form answers -/

section
variable {c : Ctl} {f : FR} {i : Instr} {s u : State} {d a b : Fld}

theorem run_int1 {o : Out} {op : Fld → Fld → BitVec 512 → Int} (ho : o = settle (int1 i f op s))
    (h : Claims.int1Ready i f s d a u) :
    o = .next (u.mapLanes f.msk d fun _ r st => fitTo d.ty f.sat (op d a r) st).advance := by
  obtain ⟨start, fd, fa, overlap, stream, pops⟩ := h
  rw [ho, int1_ok op start fd fa overlap stream pops]
  rfl

theorem run_int2 {o : Out} {op : Fld → Fld → Fld → Nat → BitVec 512 → Int} (ho : o = settle (int2 i f op s))
    (h : Claims.int2Ready i f s d a b u) :
    o = .next (u.mapLanes f.msk d fun p r st => fitTo d.ty f.sat (op d a b p r) st).advance := by
  obtain ⟨start, fd, fa, fb, overlap, stream, pops⟩ := h
  rw [ho, int2_ok op start fd fa fb overlap stream pops]
  rfl

/-- A bitwise form whose operation on numbers is one on bit vectors. -/
theorem run_bitwise {o : Out} {op : Nat → Nat → Nat} {bop : BitVec d.width → BitVec d.width → BitVec d.width}
    (hop : ∀ x y, op x.toNat y.toNat = (bop x y).toNat) (ho : o = settle (bitwise i f op s))
    (h : Claims.int2Ready i f s d a b u) :
    o = .next (u.mapLanes f.msk d fun _ r st =>
      ⟨(bop (BitVec.ofInt d.width (a.int r)) (BitVec.ofInt d.width (b.int r))).toNat, false, st⟩).advance := by
  obtain ⟨start, fd, fa, fb, overlap, stream, pops⟩ := h
  rw [ho, bitwise_ok op start fd fa fb overlap stream pops]
  simp only [Fld.extended_eq, hop, pattern_toNat]
  rfl

/-- A shift by the elements of a field. -/
theorem run_shift_vector {o : Out} {op : Fld → BitVec 512 → Nat → Int} {n : Fin 32} (ho : o = settle (shiftForm i f op s))
    (hn : f.opb = .v n) (h : Claims.int2Ready i f s d a b u) :
    o = .next (u.mapLanes f.msk d fun _ r st => fitTo d.ty f.sat (op a r (b.int r % 64).toNat) st).advance := by
  obtain ⟨start, fd, fa, fb, overlap, stream, pops⟩ := h
  rw [hn] at fb overlap pops
  rw [ho, shiftForm, start, fd, fa, act_ok_bind, act_ok_bind, act_ok_bind, hn]
  dsimp only
  rw [fb, act_ok_bind, lanewise_ok _ overlap stream pops]
  rfl

/-- A shift by a scalar operand. -/
theorem run_shift_scalar {o : Out} {op : Fld → BitVec 512 → Nat → Int} (ho : o = settle (shiftForm i f op s))
    (hn : ∀ n, f.opb ≠ .v n) (h : Claims.int1Ready i f s d a u) :
    o = .next (u.mapLanes f.msk d fun _ r st => fitTo d.ty f.sat (op a r ((s.val f.opb).toNat % 64)) st).advance := by
  obtain ⟨start, fd, fa, overlap, stream, pops⟩ := h
  rw [ho, shiftForm, start, fd, fa, act_ok_bind, act_ok_bind, act_ok_bind]
  split
  next n e => exact absurd e (hn n)
  next => rw [lanewise_ok _ overlap stream pops]; rfl

/-! ## Comparison, conversion, move and extraction (R114, R116) -/

theorem exec_vcmp_vector {n : Fin 32} (hg : s.guard c = true) (hn : f.opb = .v n) (start : s.vecStart (.vcmp c f) = .ok ())
    (fa : s.field f.opa f.ta f.wid.toNat .int = .ok a) (fb : s.field f.opb f.tb 0 .int = .ok b)
    (pops : s.popAll [f.opa, f.opb] = .ok u) :
    exec (.vcmp c f) s = .next (u.mapTags f.msk (mreg f.opd) fun _ r =>
      condOf f.sub.toNat (some (compare (a.int r) (b.int r)))).advance := by
  rw [hn] at fb pops
  change execVcmp c f s = _
  rw [execVcmp, run_true _ hg, start, fa, act_ok_bind, act_ok_bind, hn]
  dsimp only
  rw [fb, act_ok_bind, tagwise_ok _ pops]
  rfl

theorem exec_vcmp_scalar (hg : s.guard c = true) (hn : ∀ n, f.opb ≠ .v n) (start : s.vecStart (.vcmp c f) = .ok ())
    (fa : s.field f.opa f.ta f.wid.toNat .int = .ok a) (pops : s.popAll [f.opa] = .ok u) :
    exec (.vcmp c f) s = .next (u.mapTags f.msk (mreg f.opd) fun _ r =>
      condOf f.sub.toNat (some (compare (a.int r) (s.val f.opb).toInt))).advance := by
  change execVcmp c f s = _
  rw [execVcmp, run_true _ hg, start, fa, act_ok_bind, act_ok_bind]
  split
  next n e => exact absurd e (hn n)
  next => rw [tagwise_ok _ pops]; rfl

/-- A lanewise form of one source under its checks. -/
theorem run_unary {o : Out} {od oa : Operand} {t t' : Ty} {w w' : Nat} {k k' : Want} {m : Fin 6}
    {op : Fld → Fld → Nat → BitVec 512 → BitVec 32 → Rounded}
    (ho : o = settle (do
      s.vecStart i
      let d ← s.field od t w k
      let a ← s.field oa t' w' k'
      s.lanewise i od m d [(oa, a)] (op d a)))
    (start : s.vecStart i = .ok ()) (fd : s.field od t w k = .ok d) (fa : s.field oa t' w' k' = .ok a)
    (h : Claims.laneReady i s od d [(oa, a)] u) : o = .next (u.mapLanes m d (op d a)).advance := by
  obtain ⟨overlap, stream, pops⟩ := h
  rw [ho, start, fd, fa, act_ok_bind, act_ok_bind, act_ok_bind, lanewise_ok _ overlap stream pops]
  rfl

theorem exec_vnot (hg : s.guard c = true) (h : Claims.int1Ready (.vnot c f) f s d a u) :
    exec (.vnot c f) s = .next (u.mapLanes f.msk d fun _ r st =>
      ⟨(~~~BitVec.ofInt d.width (a.int r)).toNat, false, st⟩).advance := by
  obtain ⟨start, fd, fa, ready⟩ := h
  have runs := run_unary (show execVnot c f s = _ from run_true _ hg) start fd fa ready
  simp only [Fld.extended_eq, ← BitVec.toNat_not, pattern_toNat] at runs
  exact runs

theorem exec_vbext_run {g : FX} (hg : s.guard c = true) (start : s.vecStart (.vbext c g) = .ok ())
    (fd : s.field g.opd .fm 0 .int = .ok d) (fa : s.field g.opa .fm 0 .int = .ok a) :
    exec (.vbext c g) s = settle (if a.width < g.xf.toNat + g.yf.toNat then trapOp s .range (.vbext c g)
      else s.lanewise (.vbext c g) g.opd g.msk d [(g.opa, a)] fun _ r st =>
        pattern d.width (intBits d.width (intVal (g.sub != 0) g.yf.toNat (a.get r / 2 ^ g.xf.toNat))) st) := by
  change execVbext c g s = _
  rw [execVbext, run_true _ hg, start, fd, fa, act_ok_bind, act_ok_bind, act_ok_bind]

theorem exec_vbext_range {g : FX} (hg : s.guard c = true) (start : s.vecStart (.vbext c g) = .ok ())
    (fd : s.field g.opd .fm 0 .int = .ok d) (fa : s.field g.opa .fm 0 .int = .ok a)
    (beyond : a.width < g.xf.toNat + g.yf.toNat) :
    exec (.vbext c g) s = .next (s.takeTrap { cause := .range, val := Instr.upper (.vbext c g) }) := by
  rw [exec_vbext_run hg start fd fa, if_pos beyond]
  rfl

theorem exec_vbext {g : FX} (hg : s.guard c = true) (start : s.vecStart (.vbext c g) = .ok ())
    (fd : s.field g.opd .fm 0 .int = .ok d) (fa : s.field g.opa .fm 0 .int = .ok a)
    (h : Claims.laneReady (.vbext c g) s g.opd d [(g.opa, a)] u) (within : g.xf.toNat + g.yf.toNat ≤ a.width) :
    exec (.vbext c g) s = .next (u.mapLanes g.msk d fun _ r st =>
      let x : BitVec g.yf.toNat := BitVec.ofNat _ (a.get r / 2 ^ g.xf.toNat)
      ⟨(if g.sub = 0 then x.setWidth d.width else x.signExtend d.width).toNat, false, st⟩).advance := by
  obtain ⟨overlap, stream, pops⟩ := h
  have unsigned : (g.sub != 0) = false ↔ g.sub = 0 := bne_eq_false_iff_eq
  rw [exec_vbext_run hg start fd fa, if_neg (Nat.not_lt.2 within), lanewise_ok _ overlap stream pops]
  simp only [intBits_intVal, pattern_toNat, unsigned]
  rfl

end

end Sys2Proof.Machine

namespace Sys2Proof.Proofs
open Sys2Proof Sys2Proof.Machine Sys2Proof.Claims

/-- Settles O14: each form by the lemma on its shape. -/
theorem vectorIntegerResults : Obligations.VectorIntegerResults := by
  unfold Obligations.VectorIntegerResults
  refine ⟨fun c f s hg => ⟨?two, fun d a b u => ⟨?mulh, ?sel, ?and, ?or, ?xor⟩, ?one,
      fun d a u => ⟨?popc, ?clz, exec_vnot hg⟩⟩,
    fun c f s hg => ⟨?shifts, fun a b u n hn => exec_vcmp_vector hg hn, fun a u => exec_vcmp_scalar hg,
      ?vcvt, ?vmov, fun g d a u start fd fa h => ⟨exec_vbext hg start fd fa h, exec_vbext_range hg start fd fa⟩⟩⟩
  case two =>
    simp only [List.forall_mem_cons, List.not_mem_nil, false_imp_iff, implies_true, and_true]
    exact ⟨fun d a b u h => (run_int2 (show execVadd c f s = _ from run_true _ hg) h :),
      fun d a b u h => (run_int2 (show execVsub c f s = _ from run_true _ hg) h :),
      fun d a b u h => (run_int2 (show execVmul c f s = _ from run_true _ hg) h :),
      fun d a b u h => (run_int2 (show execVmac c f s = _ from run_true _ hg) h :),
      fun d a b u h => (run_int2 (show execVmin c f s = _ from run_true _ hg) h :),
      fun d a b u h => (run_int2 (show execVmax c f s = _ from run_true _ hg) h :)⟩
  case mulh =>
    intro h
    have runs := run_int2 (show execVmulh c f s = _ from run_true _ hg) h
    simp only [natCast_two_pow] at runs
    exact runs
  case sel => exact fun h => (run_int2 (show execVsel c f s = _ from run_true _ hg) h :)
  case and => exact fun h => (run_bitwise (fun x y => (BitVec.toNat_and x y).symm) (show execVand c f s = _ from run_true _ hg) h :)
  case or => exact fun h => (run_bitwise (fun x y => (BitVec.toNat_or x y).symm) (show execVor c f s = _ from run_true _ hg) h :)
  case xor => exact fun h => (run_bitwise (fun x y => (BitVec.toNat_xor x y).symm) (show execVxor c f s = _ from run_true _ hg) h :)
  case one =>
    simp only [List.forall_mem_cons, List.not_mem_nil, false_imp_iff, implies_true, and_true]
    exact ⟨fun d a u h => (run_int1 (show execVneg c f s = _ from run_true _ hg) h :),
      fun d a u h => (run_int1 (show execVabs c f s = _ from run_true _ hg) h :),
      fun d a u h => (run_int1 (show execVadds c f s = _ from run_true _ hg) h :),
      fun d a u h => (run_int1 (show execVsubs c f s = _ from run_true _ hg) h :)⟩
  case popc =>
    exact fun h => ⟨fun r => onesOf (a.get r) a.width, (run_int1 (show execVpopc c f s = _ from run_true _ hg) h :),
      fun r => onesOf_eq_countP _ _⟩
  case clz =>
    exact fun h => ⟨fun r => leadingZeros a.width (a.get r), (run_int1 (show execVclz c f s = _ from run_true _ hg) h :),
      fun r => leadingZeros_bounds (a.get_lt r)⟩
  case shifts =>
    simp only [List.forall_mem_cons, List.not_mem_nil, false_imp_iff, implies_true, and_true, ← natCast_two_pow]
    exact ⟨⟨fun d a b u n hn h => (run_shift_vector (show execVshl c f s = _ from run_true _ hg) hn h :),
        fun d a u hn h => (run_shift_scalar (show execVshl c f s = _ from run_true _ hg) hn h :)⟩,
      ⟨fun d a b u n hn h => (run_shift_vector (show execVshr c f s = _ from run_true _ hg) hn h :),
        fun d a u hn h => (run_shift_scalar (show execVshr c f s = _ from run_true _ hg) hn h :)⟩,
      fun d a b u n hn h => (run_shift_vector (show execVsar c f s = _ from run_true _ hg) hn h :),
      fun d a u hn h => (run_shift_scalar (show execVsar c f s = _ from run_true _ hg) hn h :)⟩
  case vcvt => exact fun d a u start fd fa h => (run_unary (show execVcvt c f s = _ from run_true _ hg) start fd fa h :)
  case vmov => exact fun d a u start fd fa h => (run_unary (show execVmov c f s = _ from run_true _ hg) start fd fa h :)

end Sys2Proof.Proofs
end

section
/-! SUPPORT. `vfmap`, `vdim`, `vsid`, `vidx` and `vbcast`: their refusals in a body and after a scrub, and what each answers once
its checks pass (R86, R111, R112), with the statement about them. -/

namespace Sys2Proof.Machine

/-! ## Bodies and scrub errors (R86, R112) -/

theorem outsideBody_body {s : State} {d : Operand} (h : s.inBody = true) : s.outsideBody d = trapField s .operandClass d := by
  simp [State.outsideBody, h]

theorem scrubStart_bad {s : State} {v : Word} {n : Nat} (h : s.ctx.scrub = some (v, n)) :
    s.scrubStart = raiseBad s v 0 n (bitsAt v 0 14) := by simp [State.scrubStart, h]
theorem vecStart_bad {s : State} {i : Instr} {v : Word} {n : Nat} (h : s.ctx.scrub = some (v, n)) :
    s.vecStart i = raiseBad s v 0 n (bitsAt v 0 14) := by
  rw [State.vecStart, scrubStart_bad h]
  rfl

/-- The trap that an error found by a scrub raises. -/
def scrubTrap (v : Word) (n : Nat) : Trap := { cause := .uncorrected, val := v, mem := n, addr := bitsAt v 0 14 }

section
variable {c : Ctl} {f : FR} {s u : State} {d : Fld}

/-- A form that may not execute in a body, in one. -/
theorem run_outside_body {o : Out} {d : Operand} {rest : Act State} (ho : o = settle (do s.outsideBody d; rest))
    (hb : s.inBody = true) : o = .next (s.takeTrap { cause := .operandClass, val := d.code.setWidth 64 }) := by
  rw [ho, outsideBody_body hb]
  rfl

/-- Such a form outside a body, after a scrub found an error. -/
theorem run_outside_scrub {o : Out} {d : Operand} {rest : Act State} {v : Word} {n : Nat}
    (ho : o = settle (do s.outsideBody d; s.scrubStart; rest)) (hb : s.inBody = false) (hs : s.ctx.scrub = some (v, n)) :
    o = .next (s.takeTrap (scrubTrap v n)) := by
  rw [ho, outsideBody_ok hb, act_ok_bind, scrubStart_bad hs]
  rfl

theorem exec_vadd_scrub {v : Word} {n : Nat} (hg : s.guard c = true) (hs : s.ctx.scrub = some (v, n)) :
    exec (.vadd c f) s = .next (s.takeTrap (scrubTrap v n)) := by
  change execVadd c f s = _
  rw [execVadd, run_true _ hg, int2, vecStart_bad hs]
  rfl

/-! ## `vfmap` (R111) -/

/-- What `vfmap` does outside a body, with no scrub error and no stream on its register. -/
theorem exec_vfmap_run (hg : s.guard c = true) (hb : s.inBody = false) (hs : s.ctx.scrub = none)
    (stream : s.checkStream f.opd (.vfmap c f) = .ok ()) :
    exec (.vfmap c f) s = settle (if s.val f.opa >>> 32 != 0 then trapOp s .range (.vfmap c f)
      else if entryOk s.ctx.win ((s.val f.opa).setWidth 32) then
        .ok (s.setEntry (vreg f.opd) ((s.val f.opa).setWidth 32)).advance
      else raise s .range (((s.val f.opa).setWidth 32).setWidth 64) (w64 (vreg f.opd))) := by
  change execVfmap c f s = _
  rw [execVfmap, run_true _ hg, outsideBody_ok hb, scrubStart_ok hs, stream]
  rfl

theorem exec_vfmap_upper (hg : s.guard c = true) (hb : s.inBody = false) (hs : s.ctx.scrub = none)
    (stream : s.checkStream f.opd (.vfmap c f) = .ok ()) (ha : 2 ^ 32 ≤ (s.val f.opa).toNat) :
    exec (.vfmap c f) s = .next (s.takeTrap { cause := .range, val := Instr.upper (.vfmap c f) }) := by
  rw [exec_vfmap_run hg hb hs stream, upperHalf_ne_zero, if_pos (decide_eq_true ha)]
  rfl

theorem exec_vfmap_entry {n : Fin 32} (hg : s.guard c = true) (hd : f.opd = .v n) (hb : s.inBody = false)
    (hs : s.ctx.scrub = none) (stream : s.checkStream f.opd (.vfmap c f) = .ok ()) (ha : (s.val f.opa).toNat < 2 ^ 32) :
    (entryOk s.ctx.win ((s.val f.opa).setWidth 32) = true →
      exec (.vfmap c f) s = .next (s.setEntry n ((s.val f.opa).setWidth 32)).advance) ∧
    (entryOk s.ctx.win ((s.val f.opa).setWidth 32) = false →
      exec (.vfmap c f) s = .next (s.takeTrap { cause := .range, val := s.val f.opa, idx0 := BitVec.ofNat 64 n.val })) := by
  rw [exec_vfmap_run hg hb hs stream, upperHalf_ne_zero, decide_eq_false (Nat.not_le.2 ha), word_of_lowHalf ha, hd]
  refine ⟨fun ok => ?_, fun bad => ?_⟩
  · rw [ok]
    rfl
  · rw [bad]
    rfl

/-! ## `vdim` (R111) -/

/-- The state with a dimension register written. -/
def State.setDim (s : State) (n : Fin 3) (d : Dim) : State :=
  s.modCtx fun x => { x with dims := (x.dims.set n.val d n.isLt) }

/-- What `vdim` does outside a body with no scrub error. -/
theorem exec_vdim_run (hg : s.guard c = true) (hb : s.inBody = false) (hs : s.ctx.scrub = none) :
    exec (.vdim c f) s = settle (if 2 ^ 32 ≤ (s.val f.opa).toNat then raise s .range (s.val f.opa)
      else if (s.val f.opb).toInt < -(2 ^ 31) || 2 ^ 31 ≤ (s.val f.opb).toInt then raise s .range (s.val f.opb)
      else .ok (s.setDim (dreg f.opd)
        { len := (s.val f.opa).setWidth 32, stride := (s.val f.opb).setWidth 32 }).advance) := by
  change execVdim c f s = _
  rw [execVdim, run_true _ hg, outsideBody_ok hb, scrubStart_ok hs]
  rfl

theorem exec_vdim {n : Fin 3} (hg : s.guard c = true) (hd : f.opd = .d n) (hb : s.inBody = false)
    (hs : s.ctx.scrub = none) (ha : (s.val f.opa).toNat < 2 ^ 32) (lo : -(2 ^ 31) ≤ (s.val f.opb).toInt)
    (hi : (s.val f.opb).toInt < 2 ^ 31) :
    exec (.vdim c f) s =
      .next (s.setDim n { len := (s.val f.opa).setWidth 32, stride := (s.val f.opb).setWidth 32 }).advance := by
  rw [exec_vdim_run hg hb hs, if_neg (Nat.not_le.2 ha), decide_eq_false (Int.not_lt.2 lo),
    decide_eq_false (Int.not_le.2 hi), hd]
  rfl

theorem exec_vdim_range (hg : s.guard c = true) (hb : s.inBody = false) (hs : s.ctx.scrub = none) :
    (2 ^ 32 ≤ (s.val f.opa).toNat → exec (.vdim c f) s = .next (s.takeTrap { cause := .range, val := s.val f.opa })) ∧
    ((s.val f.opa).toNat < 2 ^ 32 → (s.val f.opb).toInt < -(2 ^ 31) ∨ 2 ^ 31 ≤ (s.val f.opb).toInt →
      exec (.vdim c f) s = .next (s.takeTrap { cause := .range, val := s.val f.opb })) := by
  rw [exec_vdim_run hg hb hs]
  refine ⟨fun ha => ?_, fun ha hb => ?_⟩
  · rw [if_pos ha]
    rfl
  · rw [if_neg (Nat.not_le.2 ha), if_pos (by simpa using hb)]
    rfl

/-! ## Values of the lane position and of a scalar (R112) -/

theorem run_laneNumber {o : Out} {i : Instr} {v : State → Nat → Int} (ho : o = settle (laneNumber i f v s))
    (fd : s.field f.opd f.ta f.wid.toNat .int = .ok d) (start : s.vecStart i = .ok ())
    (h : Claims.laneReady i s f.opd d [] u) :
    o = .next (u.mapLanes f.msk d fun p _ st => fitTo d.ty f.sat (v s p) st).advance := by
  obtain ⟨overlap, stream, pops⟩ := h
  rw [ho, laneNumber, start, fd, act_ok_bind, act_ok_bind, lanewise_ok _ overlap stream pops]
  rfl

/-- Whether `vbcast` rounds: it converts, and from or to a floating format (R383). -/
def bcastRounds (t : Ty) (d : Fld) : Bool := t != .fm && (d.ty.isFlt || (t != .i && t != .n))

/-- `vbcast` once its checks pass: a pattern, or the converted value. -/
theorem exec_vbcast (hg : s.guard c = true) (start : s.vecStart (.vbcast c f) = .ok ())
    (fd : s.field f.opd f.ta f.wid.toNat .any = .ok d) (h : Claims.laneReady (.vbcast c f) s f.opd d [] u)
    (mode : f.rm = .rne ∨ bcastRounds f.tb d = true) (sat : f.sat = true → satType d.ty = true) :
    exec (.vbcast c f) s = .next (u.mapLanes f.msk d fun _ _ st =>
      if f.tb = .fm then pattern d.width (s.val f.opa).toNat st
      else d.ty.convert (bcastVal f.tb (s.val f.opa)) (s.rm f.rm) f.sat st).advance := by
  obtain ⟨overlap, stream, pops⟩ := h
  have rmSat : s.checkRmSat (.vbcast c f) (bcastRounds f.tb d) (satType d.ty) f.rm f.sat = .ok () := checkRmSat_ok mode sat
  rw [bcastRounds] at rmSat
  change execVbcast c f s = _
  rw [execVbcast, run_true _ hg, start, fd, act_ok_bind, act_ok_bind]
  dsimp only
  rw [rmSat, act_ok_bind, lanewise_ok _ overlap stream pops]
  rfl

theorem bcastRounds_flt {t : Ty} {x : Flt} (h : fltOfTy t = some x) (d : Fld) : bcastRounds t d = true := by
  cases t <;> simp [fltOfTy] at h <;> simp [bcastRounds]
theorem bcastRounds_int {t : Ty} {d : Fld} (h : t = .i ∨ t = .n) (hd : d.ty.isFlt = true) : bcastRounds t d = true := by
  rcases h with rfl | rfl <;> simp [bcastRounds, hd]

theorem bcastVal_flt {t : Ty} {x : Flt} (h : fltOfTy t = some x) (a : Word) : bcastVal t a = .f (x.val a.toNat) := by
  cases t <;> simp [fltOfTy] at h <;> simp [bcastVal, bcastVal.floatIn', fltOfTy, h]
theorem bcastVal_int {t : Ty} (h : t = .i ∨ t = .n) (a : Word) :
    bcastVal t a = .i (if t = .n then (a.toNat : Int) else a.toInt) := by
  rcases h with rfl | rfl <;> rfl

end

end Sys2Proof.Machine

namespace Sys2Proof.Proofs
open Sys2Proof Sys2Proof.Machine Sys2Proof.Claims

/-- Settles O15: each form by the lemma on what it answers. -/
theorem vectorSetupResults : Obligations.VectorSetupResults := by
  unfold Obligations.VectorSetupResults
  intro c f s hg
  refine ⟨fun n => exec_vfmap_entry hg, exec_vfmap_upper hg, fun n => exec_vdim hg, fun n _ => exec_vdim_range hg,
    fun v n hb hs => ⟨?vfmapScrub, ?vdimScrub, exec_vadd_scrub hg hs⟩, fun hb => ⟨?vfmapBody, ?vdimBody⟩,
    fun d u fd => ⟨fun start h => ?sid, fun start h => ?idx⟩,
    fun d u start fd h => ⟨fun ht hr hs => ?pattern, fun x ht hs => ?flt, fun ht hr hs => ?int⟩⟩
  case vfmapScrub => exact (run_outside_scrub (show execVfmap c f s = _ from run_true _ hg) hb hs :)
  case vdimScrub => exact (run_outside_scrub (show execVdim c f s = _ from run_true _ hg) hb hs :)
  case vfmapBody => exact (run_outside_body (show execVfmap c f s = _ from run_true _ hg) hb :)
  case vdimBody => exact (run_outside_body (show execVdim c f s = _ from run_true _ hg) hb :)
  case sid => exact (run_laneNumber (show execVsid c f s = _ from run_true _ hg) fd start h :)
  case idx => exact (run_laneNumber (show execVidx c f s = _ from run_true _ hg) fd start h :)
  case pattern =>
    rw [exec_vbcast hg start fd h (.inl hr) hs]
    simp only [if_pos ht]
    rfl
  case flt =>
    have fm : f.tb ≠ .fm := fun e => by rw [e] at ht; exact nomatch ht
    rw [exec_vbcast hg start fd h (.inr (bcastRounds_flt ht d)) hs]
    simp only [if_neg fm, bcastVal_flt ht]
  case int =>
    have fm : f.tb ≠ .fm := fun e => by rw [e] at ht; exact nomatch ht
    rw [exec_vbcast hg start fd h (hr.imp_right (bcastRounds_int ht)) hs]
    simp only [if_neg fm, bcastVal_int ht]

end Sys2Proof.Proofs
end

section
/-! SUPPORT. `asrch`, `asrchr`, `awr` and `apass`: a compare pass and a write pass bit by bit, the value of a write pass under an
enable mask, and what each form answers (R80, R126 to R128), with the statement about them. -/

namespace Sys2Proof.Machine

/-! ## The compare pass (R80) -/

/-- A masked comparison of w bits finds no difference when every bit under the care mask agrees. -/
theorem masked_eq_zero_iff (x key care w : Nat) :
    (x ^^^ key) &&& care &&& (2 ^ w - 1) = 0 ↔ ∀ j, j < w → care.testBit j = true → x.testBit j = key.testBit j := by
  have bit : ∀ j, ((x ^^^ key) &&& care &&& (2 ^ w - 1)).testBit j =
      ((x.testBit j ^^ key.testBit j) && care.testBit j && decide (j < w)) := fun j => by
    simp only [Nat.testBit_and, Nat.testBit_xor, Nat.testBit_two_pow_sub_one]
  constructor
  · intro h j hj hc
    have differs := bit j
    rw [h, Nat.zero_testBit, hc, decide_eq_true hj, Bool.and_true, Bool.and_true] at differs
    simpa using differs.symm
  · intro h
    refine Nat.eq_of_testBit_eq fun j => ?_
    rw [bit, Nat.zero_testBit]
    by_cases hj : j < w
    · cases hc : care.testBit j with
      | false => simp
      | true => simp [h j hj hc]
    · simp [hj]

/-- The tags of a compare pass: at every row below SLEN, the tag combined with whether the bits under the care mask agree. -/
theorem State.compareTags_eq (s : State) (f : Fld) (lsb w : Nat) (key care : Word) (src dst : Fin 6) (op : Nat) :
    s.compareTags f lsb w key.toNat care.toNat src dst op = (List.range s.slen).map fun i =>
      let r := s.core.row (s.lane i)
      let hit := decide (∀ j < w, care.getLsbD j = true → (f.get r).testBit (lsb + j) = key.getLsbD j) &&
        tagOf s.cur.lc s.slen src i r
      (i, combine op (tagOf s.cur.lc s.slen dst i r) hit) := by
  have agree : ∀ r, ((f.get r / 2 ^ lsb ^^^ key.toNat) &&& care.toNat &&& (2 ^ w - 1) == 0) =
      decide (∀ j < w, care.getLsbD j = true → (f.get r).testBit (lsb + j) = key.getLsbD j) := fun r => by
    rw [Bool.eq_iff_iff, beq_iff_eq, decide_eq_true_iff, masked_eq_zero_iff]
    simp only [Nat.testBit_div_two_pow, BitVec.testBit_toNat, Nat.add_comm]
  simp only [State.compareTags, agree]

theorem combine_table (old hit : Bool) : combine 0 old hit = hit ∧ combine 1 old hit = (old && hit) ∧
    combine 2 old hit = (old || hit) ∧ combine 3 old hit = (old && !hit) ∧ combine 4 old hit = xor old hit := by
  cases old <;> cases hit <;> decide

/-! ## The write pass (R80) -/

theorem Fld.testBit_get (f : Fld) (r : BitVec 512) {j : Nat} (h : j < f.width) :
    (f.get r).testBit j = r.getLsbD (f.col + j) := by
  rw [Fld.get, rowBits, bitsAt, BitVec.testBit_toNat, BitVec.getLsbD_extractLsb', decide_eq_true h, Bool.true_and]

/-- A field of a row with the enabled bits of a value in it. -/
def Fld.replaced (f : Fld) (value enable : Nat) (r : BitVec 512) : Nat :=
  (f.get r ^^^ (f.get r &&& enable)) ||| (value &&& enable)

theorem Fld.testBit_replaced (f : Fld) (value enable : Nat) (r : BitVec 512) {j : Nat} (h : j < f.width) :
    (f.replaced value enable r).testBit j = if enable.testBit j then value.testBit j else r.getLsbD (f.col + j) := by
  simp only [Fld.replaced, Nat.testBit_or, Nat.testBit_xor, Nat.testBit_and, f.testBit_get r h]
  cases enable.testBit j <;> simp

theorem State.writePass_eq (s : State) (f : Fld) (value enable : Nat) (m : Fin 6) : s.writePass f value enable m =
    s.putLanes f ((s.active m).map fun i => (i, f.replaced value enable (s.core.row (s.lane i)))) := rfl

theorem State.active_distinct (s : State) (m : Fin 6) : (s.active m).Pairwise (· ≠ ·) :=
  List.nodup_range.filter _

/-- A write pass writes rows alone: in the rows tagged in the mask the enabled bits of the field, and no other bit. -/
theorem State.writePass_rows (s : State) (f : Fld) (value enable : Nat) (m : Fin 6) :
    ∃ rows, s.writePass f value enable m = s.modCore (fun k => { k with rows := rows }) ∧ ∀ l b, b < 512 →
      (lookD rows l 0).getLsbD b =
        if (∃ i ∈ s.active m, s.lane i = l) ∧ f.col ≤ b ∧ b < f.col + f.width ∧ enable.testBit (b - f.col) = true
        then value.testBit (b - f.col) else (s.core.row l).getLsbD b := by
  obtain ⟨rows, written, tagged, others⟩ := putLanes_spec s f _
    (List.pairwise_map.2 (s.active_distinct m) :
      ((s.active m).map fun i => (i, f.replaced value enable (s.core.row (s.lane i)))).Pairwise fun x y => x.1 ≠ y.1)
  refine ⟨rows, written, fun l b hb => ?_⟩
  by_cases hl : ∃ i ∈ s.active m, s.lane i = l
  · obtain ⟨i, hi, rfl⟩ := hl
    have here : ∃ k ∈ s.active m, s.lane k = s.lane i := ⟨i, hi, rfl⟩
    rw [tagged _ (List.mem_map_of_mem hi), getLsbD_setRowBits _ _ _ _ _ hb]
    by_cases hc : f.col ≤ b ∧ b < f.col + f.width
    · obtain ⟨lo, hi'⟩ := hc
      rw [if_pos ⟨lo, hi'⟩, f.testBit_replaced _ _ _ (by omega), Nat.add_sub_cancel' lo]
      simp only [here, lo, hi', true_and]
    · rw [if_neg hc, if_neg fun ⟨_, lo, hi', _⟩ => hc ⟨lo, hi'⟩]
  · rw [if_neg fun h => hl h.1]
    refine congrArg (BitVec.getLsbD · b) (others l fun x hx e => hl ?_)
    obtain ⟨i, hi, rfl⟩ := List.mem_map.1 hx
    exact ⟨i, hi, e⟩

/-- A write pass of w bits at lsb inside a field. -/
theorem State.writePass_run (s : State) {f : Fld} {lsb w : Nat} (v : Word) (m : Fin 6) (fits : lsb + w ≤ f.width) :
    ∃ rows, s.writePass f (v.toNat % 2 ^ w * 2 ^ lsb) ((2 ^ w - 1) * 2 ^ lsb) m = s.modCore (fun k => { k with rows := rows }) ∧
      ∀ l b, b < 512 → (lookD rows l 0).getLsbD b =
        if (∃ i ∈ s.active m, s.lane i = l) ∧ f.col + lsb ≤ b ∧ b < f.col + lsb + w
        then v.getLsbD (b - f.col - lsb) else (s.core.row l).getLsbD b := by
  obtain ⟨rows, written, bits⟩ := s.writePass_rows f (v.toNat % 2 ^ w * 2 ^ lsb) ((2 ^ w - 1) * 2 ^ lsb) m
  refine ⟨rows, written, fun l b hb => ?_⟩
  have enabled : (f.col ≤ b ∧ b < f.col + f.width ∧ ((2 ^ w - 1) * 2 ^ lsb).testBit (b - f.col) = true) ↔
      f.col + lsb ≤ b ∧ b < f.col + lsb + w := by
    simp only [Nat.testBit_mul_two_pow, Nat.testBit_two_pow_sub_one, Bool.and_eq_true, decide_eq_true_eq]
    omega
  rw [bits l b hb]
  simp only [enabled]
  by_cases hc : (∃ i ∈ s.active m, s.lane i = l) ∧ f.col + lsb ≤ b ∧ b < f.col + lsb + w
  · have ⟨_, lo, hi⟩ := hc
    rw [if_pos hc, if_pos hc, Nat.testBit_mul_two_pow, Nat.testBit_mod_two_pow, decide_eq_true (by omega),
      decide_eq_true (by omega), Bool.true_and, Bool.true_and, BitVec.testBit_toNat]
  · rw [if_neg hc, if_neg hc]

/-! ## The value of `apass` (R128) -/

/-- One column of `enabledBits`: the enabled columns met so far, and the value. -/
def enableStep (value enable : Nat) (a : Nat × Nat) (j : Nat) : Nat × Nat :=
  if enable.testBit j then (a.1 + 1, if value.testBit a.1 then a.2 + 2 ^ j else a.2) else a

theorem enabledBits_eq (value enable w : Nat) :
    enabledBits value enable w = ((List.range w).foldl (enableStep value enable) (0, 0)).2 := rfl

theorem enableStep_fold (value enable n : Nat) :
    let a := (List.range n).foldl (enableStep value enable) (0, 0)
    a.1 = ((List.range n).filter enable.testBit).length ∧ a.2 < 2 ^ n ∧
    ∀ j, j < n → enable.testBit j = true →
      a.2.testBit j = value.testBit ((List.range j).filter enable.testBit).length := by
  induction n with
  | zero => exact ⟨rfl, Nat.one_pos, fun j hj => absurd hj (Nat.not_lt_zero j)⟩
  | succ n ih =>
    simp only [List.range_succ, List.foldl_append, List.foldl_cons, List.foldl_nil, List.filter_append,
      List.length_append] at ih ⊢
    generalize (List.range n).foldl (enableStep value enable) (0, 0) = a at ih
    obtain ⟨count, bound, bits⟩ := ih
    have wider : 2 ^ (n + 1) = 2 ^ n + 2 ^ n := by omega
    have fresh : a.2.testBit n = false := Nat.testBit_lt_two_pow bound
    cases he : enable.testBit n with
    | false =>
      have step : enableStep value enable a n = a := by simp [enableStep, he]
      rw [step]
      refine ⟨by simp [count, he], by omega, fun j hj hej => bits j ?_ hej⟩
      have : j ≠ n := fun e => by rw [e, he] at hej; exact Bool.noConfusion hej
      omega
    | true =>
      have step : enableStep value enable a n =
          (a.1 + 1, if value.testBit a.1 then 2 ^ n + a.2 else a.2) := by simp [enableStep, he, Nat.add_comm]
      rw [step]
      refine ⟨by simp [count, he], by dsimp only; split <;> omega, fun j hj hej => ?_⟩
      rcases Nat.lt_succ_iff_lt_or_eq.1 hj with lower | rfl
      · rw [← bits j lower hej]
        dsimp only
        split
        · exact Nat.testBit_two_pow_add_gt lower _
        · rfl
      · rw [← count]
        dsimp only
        split
        next hv => rw [Nat.testBit_two_pow_add_eq, fresh, hv]; rfl
        next hv => rw [fresh, Bool.eq_false_iff.2 hv]

/-- The k-th enabled column takes bit k of the value. -/
theorem testBit_enabledBits (value enable : Nat) {j w : Nat} (hj : j < w) (he : enable.testBit j = true) :
    (enabledBits value enable w).testBit j = value.testBit ((List.range j).filter enable.testBit).length := by
  obtain ⟨_, _, bits⟩ := enableStep_fold value enable w
  exact bits j hj he

/-! ## What each form answers (R126 to R128) -/

section
variable {c : Ctl} {f : FX} {i : Instr} {s u : State} {d a : Fld} {o : Out} {care : State → Nat}

theorem run_search (ho : o = settle (searchForm i f care s)) (start : s.vecStart i = .ok ())
    (fa : s.field f.opa .fm 0 .any = .ok a) (fits : f.xf.toNat + f.yf.toNat ≤ a.width) (pops : s.popAll [f.opa] = .ok u) :
    o = .next (u.putTags (mreg f.opd) (u.compareTags a f.xf.toNat f.yf.toNat (u.val f.opb).toNat (care u) f.msk
      (mreg f.opd) f.sub.toNat)).advance := by
  rw [ho, searchForm, start, fa, act_ok_bind, act_ok_bind]
  dsimp only
  rw [if_neg (Nat.not_lt.2 fits), pops]
  rfl

theorem run_search_range (ho : o = settle (searchForm i f care s)) (start : s.vecStart i = .ok ())
    (fa : s.field f.opa .fm 0 .any = .ok a) (beyond : a.width < f.xf.toNat + f.yf.toNat) :
    o = .next (s.takeTrap { cause := .range, val := f.opa.code.setWidth 64 }) := by
  rw [ho, searchForm, start, fa, act_ok_bind, act_ok_bind]
  dsimp only
  rw [if_pos beyond]
  rfl

theorem exec_awr (hg : s.guard c = true) (start : s.vecStart (.awr c f) = .ok ())
    (fd : s.field f.opd .fm 0 .any = .ok d) (fits : f.xf.toNat + f.yf.toNat ≤ d.width)
    (stream : s.checkStream f.opd (.awr c f) = .ok ()) :
    exec (.awr c f) s = .next (s.writePass d ((s.val f.opb).toNat % 2 ^ f.yf.toNat * 2 ^ f.xf.toNat)
      ((2 ^ f.yf.toNat - 1) * 2 ^ f.xf.toNat) f.msk).advance := by
  change execAwr c f s = _
  rw [execAwr, run_true _ hg, start, fd, act_ok_bind, act_ok_bind]
  dsimp only
  rw [if_neg (Nat.not_lt.2 fits), stream]
  rfl

theorem exec_awr_range (hg : s.guard c = true) (start : s.vecStart (.awr c f) = .ok ())
    (fd : s.field f.opd .fm 0 .any = .ok d) (beyond : d.width < f.xf.toNat + f.yf.toNat) :
    exec (.awr c f) s = .next (s.takeTrap { cause := .range, val := Instr.upper (.awr c f) }) := by
  change execAwr c f s = _
  rw [execAwr, run_true _ hg, start, fd, act_ok_bind, act_ok_bind]
  dsimp only
  rw [if_pos beyond]
  rfl

theorem exec_apass (hg : s.guard c = true) (start : s.vecStart (.apass c f) = .ok ())
    (fd : s.field f.opd .fm 0 .any = .ok d) (fa : s.field f.opa .fm 0 .any = .ok a)
    (stream : s.checkStream f.opd (.apass c f) = .ok ()) (pops : s.popAll [f.opa] = .ok u) :
    let t : Fin 6 := Fin.ofNat 6 (f.xf.toNat % 8)
    let v := u.putTags t (u.compareTags a 0 a.width (u.nextS f.opb 0).toNat (u.nextS f.opb 1).toNat f.msk t
      (f.xf.toNat / 8 % 8))
    let enable := (u.nextS f.opb 3).toNat % 2 ^ d.width
    exec (.apass c f) s =
      .next (v.writePass d (enabledBits (u.nextS f.opb 2).toNat enable d.width) enable t).advance := by
  change execApass c f s = _
  rw [execApass, run_true _ hg, start, fd, fa, stream, act_ok_bind, act_ok_bind, act_ok_bind, act_ok_bind, pops]
  rfl

end

end Sys2Proof.Machine

namespace Sys2Proof.Proofs
open Sys2Proof Sys2Proof.Machine Sys2Proof.Claims

/-- Settles O17: the searches by the compare pass, the writes by the write pass. -/
theorem searchAndWriteResults : Obligations.SearchAndWriteResults := by
  unfold Obligations.SearchAndWriteResults
  refine ⟨fun c f s hg => ⟨?search, ?searchRange,
    fun d start fd => ⟨fun fits stream => ?awr, exec_awr_range hg start fd⟩, ?apass⟩, combine_table⟩
  case search =>
    simp only [List.forall_mem_cons, List.not_mem_nil, false_imp_iff, implies_true, and_true]
    refine ⟨fun a u start fa fits _ pops => ?_, fun a u start fa fits _ pops => ?_⟩
    · have runs := run_search (show execAsrch c f s = _ from run_true _ hg) start fa fits pops
      rw [show 2 ^ 64 - 1 = (BitVec.allOnes 64).toNat from rfl, State.compareTags_eq] at runs
      exact runs
    · have runs := run_search (show execAsrchr c f s = _ from run_true _ hg) start fa fits pops
      rw [State.compareTags_eq] at runs
      exact runs
  case searchRange =>
    simp only [List.forall_mem_cons, List.not_mem_nil, false_imp_iff, implies_true, and_true]
    exact ⟨fun a start fa beyond => (run_search_range (show execAsrch c f s = _ from run_true _ hg) start fa beyond :),
      fun a start fa beyond => (run_search_range (show execAsrchr c f s = _ from run_true _ hg) start fa beyond :)⟩
  case awr =>
    obtain ⟨rows, written, bits⟩ := s.writePass_run (s.val f.opb) f.msk fits
    exact ⟨rows, by rw [exec_awr hg start fd fits stream, written], bits⟩
  case apass =>
    intro d a u start fd fa stream pops _ _
    have runs := exec_apass hg start fd fa stream pops
    simp only [State.compareTags_eq, Nat.zero_add] at runs
    exact ⟨_, runs, fun j hj he => by rw [testBit_enabledBits _ _ hj he, BitVec.testBit_toNat]⟩

end Sys2Proof.Proofs
end

section
/-! SUPPORT. The state after reset, piece by piece, and the statement about it (R2, R105, R344, R347, R373, R384). -/

namespace Sys2Proof.Machine

theorem State.reset_ctxAt (n : Nat) : State.reset.ctxAt n = .reset := rfl
theorem State.reset_coreAt (n : Nat) : State.reset.coreAt n = .reset := rfl
theorem State.reset_quarter (q : Fin 4) : State.reset.quarter q = .reset := vget_replicate ..
theorem State.reset_pentry (n : Nat) : State.reset.pentry n = 0 := rfl
theorem State.reset_probe (n : Nat) : State.reset.probe n = 0 := rfl

/-- With no memory written, no core in use and no gang saved, every byte memory is in its canonical form. -/
theorem State.reset_memOk : State.reset.memOk = true := by
  have saves : State.reset.quarters.all (fun q => q.saves.all Saved.memOk) = true := by
    simp [State.reset, Quarter.reset]
  rw [State.memOk, saves]
  rfl

theorem Ctx.reset_clear (h : Fin 8) : Ctx.reset.handles.get h = 0 := vget_replicate ..

/-- A tile slot at reset (Table 9-2). -/
theorem Core.reset_slot (b : Fin 32) : Core.reset.slots.get b = .reset := vget_replicate ..
theorem Slot.reset_flags (f : Fin 8) : Slot.reset.z.get f = false ∧ Slot.reset.stamp.get f = Slot.reset.gen :=
  ⟨vget_replicate .., vget_replicate ..⟩

end Sys2Proof.Machine

namespace Sys2Proof.Proofs
open Sys2Proof Sys2Proof.Machine Sys2Proof.Claims

/-- Settles O60: each piece of the state by what reset leaves of it. -/
theorem resetState : Obligations.ResetState := by
  unfold Obligations.ResetState
  simp only [State.reset_ctxAt, State.reset_coreAt, State.reset_quarter, State.reset_pentry, State.reset_probe, Core.reset_slot]
  refine ⟨State.reset_memOk, fun _ => ⟨rfl, rfl, Ctx.reset_clear⟩, fun _ _ => ⟨rfl, rfl, Slot.reset_flags⟩,
    fun _ => ⟨rfl, rfl, rfl, rfl, rfl, rfl, rfl⟩, fun _ => vget_replicate .., fun _ => vget_replicate .., rfl, rfl, rfl,
    fun _ => by decide, rfl, fun _ => by decide, rfl, rfl, rfl, rfl, rfl, rfl, rfl, fun _ => rfl,
    fun _ => vget_replicate .., rfl, by decide⟩

end Sys2Proof.Proofs
end

section
/-! SUPPORT. Scalar integer forms by operand values: what a form that writes D from the values of A and B answers, the values of
Table 6-3 as bit vectors, the counts, and the statements about word forms and division (R87, R88, R93, R94, R96). -/

namespace Sys2Proof.Machine

/-! ## What a scalar form answers -/

/-- With its guard true and its destination allowed, an instruction puts a function of the values of A and B in D. -/
def Computes (mk : Ctl → FR → Instr) (op : Word → Word → Word) : Prop :=
  ∀ (c : Ctl) (f : FR) (s : State), s.guard c = true → Claims.destOk s f.opd →
    exec (mk c f) s = .next (s.putS f.opd (op (s.val f.opa) (s.val f.opb))).advance

/-- The body of a scalar form past its destination check. -/
theorem run_scalarOp {c : Ctl} {f : FR} {s : State} (op : Word → Word → Word) (hg : s.guard c = true)
    (hd : Claims.destOk s f.opd) :
    run c s (scalarOp f op) = .next (s.putS f.opd (op (s.val f.opa) (s.val f.opb))).advance := by
  rw [run_true _ hg, scalarOp, checkDest_ok hd]
  rfl

/-- A form that runs `scalarOp` computes its operation, and every function that agrees with it. -/
theorem Computes.of_run_self {mk : Ctl → FR → Instr} {op : Word → Word → Word}
    (runs : ∀ c f s, exec (mk c f) s = run c s (scalarOp f op)) : Computes mk op := by
  intro c f s hg hd
  rw [runs, run_scalarOp op hg hd]
theorem Computes.of_run {mk : Ctl → FR → Instr} {op spec : Word → Word → Word}
    (runs : ∀ c f s, exec (mk c f) s = run c s (scalarOp f op)) (same : ∀ a b, op a b = spec a b) : Computes mk spec := by
  obtain rfl : op = spec := funext fun a => funext (same a)
  exact .of_run_self runs

/-! ## Products (Table 6-3) -/

/-- Bits 64 to 127 of a number in 128 bits. -/
theorem highHalf_ofInt (x : Int) : ((BitVec.ofInt 128 x) >>> 64).setWidth 64 = BitVec.ofInt 64 (x / 2 ^ 64) := by
  apply BitVec.eq_of_toNat_eq
  rw [BitVec.toNat_setWidth, BitVec.toNat_ushiftRight, BitVec.toNat_ofInt, BitVec.toNat_ofInt, Nat.shiftRight_eq_div_pow]
  omega

theorem mulHigh_eq (a b : Word) : mulHigh a b = ((a.signExtend 128 * b.signExtend 128) >>> 64).setWidth 64 := by
  rw [BitVec.signExtend, BitVec.signExtend, ← BitVec.ofInt_mul, highHalf_ofInt, mulHigh]

theorem mulHighN_eq (a b : Word) : mulHighN a b = ((a.setWidth 128 * b.setWidth 128) >>> 64).setWidth 64 := by
  have product : a.setWidth 128 * b.setWidth 128 = BitVec.ofInt 128 ((a.toNat * b.toNat : Nat) : Int) := by
    rw [BitVec.ofInt_natCast, BitVec.ofNat_mul, BitVec.ofNat_toNat, BitVec.ofNat_toNat]
  have quotient : ((a.toNat * b.toNat : Nat) : Int) / 2 ^ 64 = ((a.toNat * b.toNat / 2 ^ 64 : Nat) : Int) := by simp
  rw [product, highHalf_ofInt, quotient, BitVec.ofInt_natCast, mulHighN]

/-! ## Shifts (Table 6-3) -/

theorem shl_eq_mul (a : Word) (n : Nat) : a <<< n = a * BitVec.ofNat 64 (2 ^ n) := by
  apply BitVec.eq_of_toNat_eq
  rw [BitVec.toNat_shiftLeft, BitVec.toNat_mul, BitVec.toNat_ofNat, Nat.shiftLeft_eq, Nat.mul_mod_mod]

theorem shr_eq_div (a : Word) (n : Nat) : a >>> n = BitVec.ofNat 64 (a.toNat / 2 ^ n) := by
  rw [← Nat.shiftRight_eq_div_pow, ← BitVec.toNat_ushiftRight, BitVec.ofNat_toNat, BitVec.setWidth_eq]

theorem sar_eq_div (a : Word) (n : Nat) : a.sshiftRight n = BitVec.ofInt 64 (a.toInt / 2 ^ n) := by
  rw [← natCast_two_pow, ← Int.shiftRight_eq_div_pow, ← BitVec.toInt_sshiftRight, BitVec.ofInt_toInt]

theorem rotateLeft_eq (a : Word) (n : Nat) : a.rotateLeft (n % 64) = (a <<< (n % 64)) ||| (a >>> (64 - n % 64)) := by
  rw [BitVec.rotateLeft_def, Nat.mod_mod]

/-! ## Minimum and maximum (Table 6-3) -/

theorem slt_eq_not_le (a b : Word) : a.slt b = !decide (b.toInt ≤ a.toInt) := by
  rw [BitVec.slt_eq_decide, ← decide_not]
  exact decide_eq_decide.2 Int.not_le.symm
theorem ult_eq_not_le (a b : Word) : a.ult b = !decide (b.toNat ≤ a.toNat) := by
  rw [BitVec.ult_eq_decide, ← decide_not]
  exact decide_eq_decide.2 Nat.not_le.symm

/-- A choice by a comparison is the opposite choice by its negation. -/
theorem ite_of_eq_not {p : Prop} [Decidable p] {lt : Bool} (h : lt = !decide p) (a b : Word) :
    (if lt then a else b) = if p then b else a := by
  subst h
  by_cases hp : p <;> simp only [hp, decide_true, decide_false, Bool.not_true, Bool.not_false, Bool.false_eq_true, if_true, if_false]

/-! ## Counts (Table 6-3) -/

/-- How many numbers from 0 on, below n, pass a test before the first that does not. -/
theorem length_takeWhile_range {p : Nat → Bool} {k n : Nat} (hk : k ≤ n) (below : ∀ i < k, p i = true)
    (stop : k < n → p k = false) : ((List.range n).takeWhile p).length = k := by
  obtain ⟨m, rfl⟩ := Nat.exists_eq_add_of_le hk
  rw [List.range_add, List.takeWhile_append_of_pos fun i hi => below i (List.mem_range.1 hi)]
  cases m with
  | zero => simp
  | succ m => simp [List.range_succ_eq_map, stop (by omega)]

theorem clzNat_eq (a : Word) : clzNat 64 a.toNat = ((List.range 64).takeWhile fun i => !a.getMsbD i).length := by
  obtain ⟨above, within, top⟩ := leadingZeros_bounds a.isLt
  change leadingZeros 64 a.toNat = _
  generalize leadingZeros 64 a.toNat = z at above within top
  refine (length_takeWhile_range within (fun i hi => ?_) fun hz => ?_).symm
  · have clear : a.toNat.testBit (63 - i) = false :=
      Nat.testBit_lt_two_pow (Nat.lt_of_lt_of_le above (Nat.pow_le_pow_right Nat.two_pos (by omega)))
    rw [BitVec.getMsbD_eq_getLsbD, ← BitVec.testBit_toNat, clear, Bool.and_false, Bool.not_false]
  · have set : a.toNat.testBit (63 - z) = true :=
      Nat.testBit_of_two_pow_le_and_two_pow_add_one_gt (by rw [show 63 - z = 64 - z - 1 by omega]; exact top hz)
        (by rw [show 63 - z + 1 = 64 - z by omega]; exact above)
    rw [BitVec.getMsbD_eq_getLsbD, ← BitVec.testBit_toNat, set, decide_eq_true hz]
    rfl

theorem ctzBits_eq (n w : Nat) : ctzBits n w = ((List.range w).takeWhile fun i => !n.testBit i).length := by
  induction w generalizing n with
  | zero => rfl
  | succ w ih =>
    rw [ctzBits, ih, List.range_succ_eq_map, List.takeWhile_cons, List.takeWhile_map, Nat.testBit_zero]
    rcases Nat.mod_two_eq_zero_or_one n with h | h
    · simp [h, Function.comp_def, Nat.testBit_succ, Nat.add_comm]
    · simp [h]

theorem popCount_eq_onesOf (n w : Nat) : popCount n w = onesOf n w := by
  induction w generalizing n with
  | zero => rfl
  | succ w ih => rw [popCount, ih, onesOf]

theorem sextW_eq (a b : Word) : sextW a b =
    (a.setWidth (if b.toNat % 64 = 0 then 64 else b.toNat % 64)).signExtend 64 := by
  rw [sextW, intVal_signed, BitVec.ofNat_toNat, BitVec.signExtend]

/-! ## STATUS under register writes (R94) -/

/-- What a write of the strips keeps of a context, a change of the executing strip keeps. -/
theorem State.ctx_modStrip_keeps {α : Type} (p : Ctx → α) (h : ∀ c v, p { c with strips := v } = p c) (s : State)
    (f : Strip → Strip) : p (s.modStrip f).ctx = p s.ctx := by
  unfold State.modStrip
  split
  · rfl
  · rw [State.ctx_modCtx]
    exact h _ _

@[simp] theorem State.streg_setThread (s : State) (t : Thread) : (s.setThread t).ctx.streg = s.ctx.streg := by
  unfold State.setThread
  split
  · exact State.ctx_modStrip_keeps Ctx.streg (fun _ _ => rfl) _ _
  · rw [State.ctx_modCtx]
@[simp] theorem State.streg_advance (s : State) : s.advance.ctx.streg = s.ctx.streg := State.streg_setThread ..
@[simp] theorem State.streg_writeS (s : State) (n : Fin 64) (v : Word) : (s.writeS n v).ctx.streg = s.ctx.streg := by
  unfold State.writeS
  split
  · rfl
  · split
    · exact State.ctx_modStrip_keeps Ctx.streg (fun _ _ => rfl) _ _
    · rw [State.ctx_modCtx]
@[simp] theorem State.streg_putS (s : State) (o : Operand) (v : Word) : (s.putS o v).ctx.streg = s.ctx.streg := by
  unfold State.putS
  split
  · exact State.streg_writeS ..
  · rfl

/-! ## Division (R94) -/

theorem Computes.div : Computes .div divS := .of_run_self fun _ _ _ => rfl
theorem Computes.rem : Computes .rem remS := .of_run_self fun _ _ _ => rfl

theorem divS_overflow : divS (BitVec.ofInt 64 (-(2 ^ 63))) (BitVec.ofInt 64 (-1)) = BitVec.ofInt 64 (-(2 ^ 63)) := by decide
theorem remS_overflow : remS (BitVec.ofInt 64 (-(2 ^ 63))) (BitVec.ofInt 64 (-1)) = 0 := by decide

end Sys2Proof.Machine

namespace Sys2Proof.Proofs
open Sys2Proof Sys2Proof.Machine Sys2Proof.Claims

/-- Settles O1: each form runs `scalarOp` with an operation that agrees with Table 6-3. -/
theorem wordResults : Obligations.WordResults := by
  unfold Obligations.WordResults
  have words : ∀ e ∈ wordForms, Computes e.1 e.2 := by
    simp only [wordForms, List.forall_mem_cons, List.not_mem_nil, false_imp_iff, implies_true, and_true]
    exact ⟨.of_run (fun _ _ _ => rfl) mulHigh_eq, .of_run (fun _ _ _ => rfl) mulHighN_eq, .of_run_self fun _ _ _ => rfl,
      .of_run_self fun _ _ _ => rfl, .of_run_self fun _ _ _ => rfl, .of_run_self fun _ _ _ => rfl,
      .of_run (fun _ _ _ => rfl) fun a b => shl_eq_mul a _, .of_run (fun _ _ _ => rfl) fun a b => shr_eq_div a _,
      .of_run (fun _ _ _ => rfl) fun a b => sar_eq_div a _, .of_run (fun _ _ _ => rfl) fun a b => rotateLeft_eq a _,
      .of_run (fun _ _ _ => rfl) fun a b => ite_of_eq_not (slt_eq_not_le _ _) b a,
      .of_run (fun _ _ _ => rfl) fun a b => ite_of_eq_not (slt_eq_not_le _ _) b a,
      .of_run (fun _ _ _ => rfl) fun a b => ite_of_eq_not (ult_eq_not_le _ _) b a,
      .of_run (fun _ _ _ => rfl) fun a b => ite_of_eq_not (ult_eq_not_le _ _) b a,
      .of_run_self fun _ _ _ => rfl⟩
  have counts : ∀ e ∈ countForms, Computes e.1 e.2 := by
    simp only [countForms, List.forall_mem_cons, List.not_mem_nil, false_imp_iff, implies_true, and_true]
    exact ⟨.of_run (fun _ _ _ => rfl) fun a _ => congrArg w64 (clzNat_eq a),
      .of_run (fun _ _ _ => rfl) fun a _ => congrArg w64 (ctzBits_eq _ _),
      .of_run (fun _ _ _ => rfl) fun a _ => congrArg w64 ((popCount_eq_onesOf _ _).trans (onesOf_eq_countP _ _)),
      .of_run (fun _ _ _ => rfl) sextW_eq⟩
  exact ⟨words, counts⟩

/-- Settles O3: the four forms run `scalarOp`, which writes no STATUS. -/
theorem divisionResults : Obligations.DivisionResults := by
  unfold Obligations.DivisionResults
  have forms : ∀ e ∈ divForms, Computes e.1 e.2 := by
    simp only [divForms, List.forall_mem_cons, List.not_mem_nil, false_imp_iff, implies_true, and_true]
    exact ⟨Computes.div, .of_run_self fun _ _ _ => rfl, Computes.rem,
      .of_run_self fun _ _ _ => rfl⟩
  refine ⟨fun e he c f s hg hd => ⟨_, forms e he c f s hg hd, rfl, by simp⟩, fun c f s hg hd ha hb => ⟨?div, ?rem⟩⟩
  case div => rw [Computes.div c f s hg hd, ha, hb, divS_overflow]
  case rem => rw [Computes.rem c f s hg hd, ha, hb, remS_overflow]

end Sys2Proof.Proofs
end

section
/-! SUPPORT. `spc`, `spid` and `spmk`: when a pointer is well-formed, the casts and the pointers made, and what the three forms
answer, with the statements about them (R87, R100, R102, R103, Table 6-5). -/

namespace Sys2Proof.Machine

/-! ## Well-formed pointers (Table 6-5) -/

theorem windowOf_eq (p : Word) : windowOf p = bitsAt p 60 4 := rfl

/-- The causes of a pointer with two fields that are to be 0 and a number that has a greatest value. -/
theorem cause_of_fields (a b n most : Nat) :
    (if a != 0 || b != 0 then some Cause.noncanon else if most < n then some .window else none) =
      if a = 0 ∧ b = 0 then (if n ≤ most then none else some .window) else some .noncanon := by
  by_cases zero : a = 0 ∧ b = 0
  · obtain ⟨rfl, rfl⟩ := zero
    by_cases fits : n ≤ most
    · simp [fits]
    · simp [fits, Nat.not_le.1 fits]
  · rw [if_neg zero, if_pos]
    simpa using Decidable.not_and_iff_not_or_not.1 zero

theorem malformed_virtual {p : Word} (h : bitsAt p 60 4 = 0) :
    malformed p = if bitsAt p 57 3 = 0 then none else some .noncanon := by
  simp [malformed, windowOf_eq, h]
theorem malformed_region {p : Word} (h : bitsAt p 60 4 = 8) :
    malformed p = if bitsAt p 32 28 = 0 then none else some .noncanon := by
  simp [malformed, windowOf_eq, h]
theorem malformed_stash {p : Word} (h : bitsAt p 60 4 = 9) :
    malformed p = if bitsAt p 57 3 = 0 ∧ bitsAt p 20 28 = 0 then (if bitsAt p 48 9 ≤ 319 then none else some .window)
      else some .noncanon := by
  rw [malformed, windowOf_eq, h]
  exact cause_of_fields ..
theorem malformed_cluster {p : Word} (h : bitsAt p 60 4 = 10) :
    malformed p = if bitsAt p 54 6 = 0 ∧ bitsAt p 23 25 = 0 then (if bitsAt p 48 6 ≤ 39 then none else some .window)
      else some .noncanon := by
  rw [malformed, windowOf_eq, h]
  exact cause_of_fields ..
theorem malformed_other {p : Word} (h0 : bitsAt p 60 4 ≠ 0) (h8 : bitsAt p 60 4 ≠ 8) (h9 : bitsAt p 60 4 ≠ 9)
    (h10 : bitsAt p 60 4 ≠ 10) : malformed p = some .window := by
  unfold malformed
  split
  case h_1 h => exact absurd h h0
  case h_2 h => exact absurd h h8
  case h_3 h => exact absurd h h9
  case h_4 h => exact absurd h h10
  case h_5 => rfl

/-- RANGE is no cause of Table 6-5. -/
theorem malformed_ne_range (p : Word) : malformed p ≠ some .range := by
  unfold malformed
  (repeat' split) <;> exact fun h => nomatch h

theorem isWindow_iff (p : Word) (w : Nat) : isWindow p w = true ↔ malformed p = none ∧ bitsAt p 60 4 = w := by
  simp [isWindow, windowOf_eq]

/-! ## Fields of a pointer (R102, R103) -/

theorem bitsAt_zero_eq_and (p : Word) {n : Nat} (hn : n ≤ 64) : w64 (bitsAt p 0 n) = p &&& w64 (2 ^ n - 1) := by
  have low : bitsAt p 0 n = p.toNat % 2 ^ n := by rw [bitsAt, BitVec.extractLsb'_toNat, Nat.shiftRight_zero]
  have mask : (w64 (2 ^ n - 1)).toNat = 2 ^ n - 1 := by
    have fits : 2 ^ n ≤ 2 ^ 64 := Nat.pow_le_pow_right Nat.two_pos hn
    have pos : 0 < 2 ^ n := Nat.two_pow_pos n
    rw [w64, BitVec.toNat_ofNat, Nat.mod_eq_of_lt (by omega)]
  apply BitVec.eq_of_toNat_eq
  rw [BitVec.toNat_and, mask, Nat.and_two_pow_sub_one_eq_mod, low, w64, BitVec.toNat_ofNat, Nat.mod_eq_of_lt]
  exact Nat.lt_of_le_of_lt (Nat.mod_le _ _) p.isLt

/-- A stash pointer as its three fields side by side. -/
theorem stashPtr_eq_or {a b : Word} (ha : a.toNat ≤ 319) (hb : b.toNat < 2 ^ 20) :
    stashPtr a.toNat b.toNat = (9#64 <<< 60) ||| (a <<< 48) ||| b := by
  have inner : 2 ^ 48 * a.toNat + b.toNat = 2 ^ 48 * a.toNat ||| b.toNat := Nat.two_pow_add_eq_or_of_lt (by omega) _
  have outer : 2 ^ 60 * 9 + (2 ^ 48 * a.toNat + b.toNat) = 2 ^ 60 * 9 ||| (2 ^ 48 * a.toNat + b.toNat) :=
    Nat.two_pow_add_eq_or_of_lt (by omega) _
  have window : (9#64 <<< 60).toNat = 2 ^ 60 * 9 := by decide
  have core : (a <<< 48).toNat = 2 ^ 48 * a.toNat := by rw [BitVec.toNat_shiftLeft, Nat.shiftLeft_eq]; omega
  apply BitVec.eq_of_toNat_eq
  rw [BitVec.toNat_or, BitVec.toNat_or, window, core, Nat.or_assoc, ← inner, ← outer, stashPtr, w64, BitVec.toNat_ofNat]
  omega

/-! ## `spc` (R102) -/

theorem ptrCast_malformed (core : Nat) {a : Word} {e : Cause} (h : malformed a = some e) : ptrCast core 0 a = .error e := by
  rw [ptrCast, h]
theorem ptrCast_offset (core : Nat) {a : Word} (h : malformed a = none) : ptrCast core 0 a = .ok (ptrOffset a) := by
  rw [ptrCast, h]

section
variable {c : Ctl} {f : FR} {s : State} (hg : s.guard c = true) (hd : Claims.destOk s f.opd)
include hg hd

theorem exec_spc_casts {v : Word} (h : ptrCast s.cur.core f.sub.toNat (s.val f.opa) = .ok v) :
    exec (.spc c f) s = .next (s.putS f.opd v).advance := by
  change execSpc c f s = _
  rw [execSpc, run_true _ hg, checkDest_ok hd, act_ok_bind]
  dsimp only
  rw [h]
  rfl
theorem exec_spc_range (h : ptrCast s.cur.core f.sub.toNat (s.val f.opa) = .error .range) :
    exec (.spc c f) s = .next (s.takeTrap { cause := .range, val := s.val f.opa }) := by
  change execSpc c f s = _
  rw [execSpc, run_true _ hg, checkDest_ok hd, act_ok_bind]
  dsimp only
  rw [h]
  rfl
theorem exec_spc_malformed {e : Cause} (he : e ≠ .range) (h : ptrCast s.cur.core f.sub.toNat (s.val f.opa) = .error e) :
    exec (.spc c f) s = .next (s.takeTrap { cause := e, val := Instr.upper (.spc c f) }) := by
  change execSpc c f s = _
  rw [execSpc, run_true _ hg, checkDest_ok hd, act_ok_bind]
  dsimp only
  rw [h]
  cases e
  case range => exact absurd rfl he
  all_goals rfl

/-- A cast of a value that is to have so many bits. -/
theorem exec_spc_within {bits : Nat} {v : Word}
    (h : ptrCast s.cur.core f.sub.toNat (s.val f.opa) = if (s.val f.opa).toNat < 2 ^ bits then .ok v else .error .range) :
    if (s.val f.opa).toNat < 2 ^ bits then exec (.spc c f) s = .next (s.putS f.opd v).advance
    else exec (.spc c f) s = .next (s.takeTrap { cause := .range, val := s.val f.opa }) := by
  split
  next fits => exact exec_spc_casts hg hd (by rw [h, if_pos fits])
  next wide => exact exec_spc_range hg hd (by rw [h, if_neg wide])

/-! ## `spid` and `spmk` (R103) -/

/-- What `spmk` does past its destination check. -/
theorem exec_spmk_run : exec (.spmk c f) s = settle (
    if 319 < (s.val f.opa).toNat then raise s .range (s.val f.opa)
    else if 2 ^ 20 ≤ (s.val f.opb).toNat then raise s .range (s.val f.opb)
    else .ok (s.putS f.opd (stashPtr (s.val f.opa).toNat (s.val f.opb).toNat)).advance) := by
  change execSpmk c f s = _
  rw [execSpmk, run_true _ hg, checkDest_ok hd]
  rfl

theorem exec_spmk_makes (ha : (s.val f.opa).toNat ≤ 319) (hb : (s.val f.opb).toNat < 2 ^ 20) :
    exec (.spmk c f) s = .next (s.putS f.opd ((9#64 <<< 60) ||| (s.val f.opa <<< 48) ||| s.val f.opb)).advance := by
  rw [exec_spmk_run hg hd, if_neg (Nat.not_lt.2 ha), if_neg (Nat.not_le.2 hb), stashPtr_eq_or ha hb]
  rfl
theorem exec_spmk_core (ha : 319 < (s.val f.opa).toNat) :
    exec (.spmk c f) s = .next (s.takeTrap { cause := .range, val := s.val f.opa }) := by
  rw [exec_spmk_run hg hd, if_pos ha]
  rfl
theorem exec_spmk_offset (ha : (s.val f.opa).toNat ≤ 319) (hb : 2 ^ 20 ≤ (s.val f.opb).toNat) :
    exec (.spmk c f) s = .next (s.takeTrap { cause := .range, val := s.val f.opb }) := by
  rw [exec_spmk_run hg hd, if_neg (Nat.not_lt.2 ha), if_pos hb]
  rfl

end

/-- A negative immediate is no offset. -/
theorem signExtend_negative {n : BitVec 8} (h : n.msb = true) : 2 ^ 20 ≤ (n.signExtend 64).toNat := by
  rw [BitVec.toNat_signExtend, if_pos h]
  omega

theorem Computes.spid : Computes .spid fun a _ =>
    if malformed a = none ∧ bitsAt a 60 4 = 9 then BitVec.ofNat 64 (bitsAt a 48 9) else BitVec.allOnes 64 :=
  .of_run (fun _ _ _ => rfl) fun a _ => by simp only [isWindow_iff, w64, ptrCore]

end Sys2Proof.Machine

namespace Sys2Proof.Proofs
open Sys2Proof Sys2Proof.Machine Sys2Proof.Claims

/-- Settles O9: each cast by what `ptrCast` answers, well-formedness window by window. -/
theorem pointerCasts : Obligations.PointerCasts := by
  unfold Obligations.PointerCasts
  refine ⟨fun c f s hg hd => ⟨fun h0 e he => ?malformed, fun h0 he => ?offset, fun h1 => ?region, fun h2 => ?stash,
    fun h3 => ?cluster, fun h4 => ?virtual⟩, fun p => ?wellFormed⟩
  case malformed =>
    refine exec_spc_malformed hg hd (fun range => malformed_ne_range _ (range ▸ he)) ?_
    rw [h0]
    exact ptrCast_malformed _ he
  case offset =>
    refine exec_spc_casts hg hd ?_
    rw [h0]
    refine (ptrCast_offset _ he).trans (congrArg Except.ok ?_)
    simp only [ptrOffset, windowOf_eq, bitsAt_zero_eq_and, Nat.reduceLeDiff]
    rfl
  case region => exact exec_spc_within hg hd (by rw [h1]; rfl)
  case stash => exact exec_spc_within hg hd (by rw [h2]; rfl)
  case cluster => exact exec_spc_within hg hd (by rw [h3]; rfl)
  case virtual => exact exec_spc_within hg hd (by rw [h4]; rfl)
  case wellFormed =>
    split
    case h_1 h => exact malformed_virtual h
    case h_2 h => exact malformed_region h
    case h_3 h => exact malformed_stash h
    case h_4 h => exact malformed_cluster h
    case h_5 h0 h8 h9 h10 => exact malformed_other h0 h8 h9 h10

/-- Settles O10: `spid` runs `scalarOp`, `spmk` by its two bounds. -/
theorem stashPointerForms : Obligations.StashPointerForms := by
  unfold Obligations.StashPointerForms
  refine fun c f s => ⟨rfl, rfl, fun hg hd => ⟨Computes.spid c f s hg hd, exec_spmk_makes hg hd, exec_spmk_core hg hd,
    exec_spmk_offset hg hd, fun n hn negative => ?_⟩⟩
  have offset : 2 ^ 20 ≤ (s.val f.opb).toNat := by rw [hn]; exact signExtend_negative negative
  rcases Nat.lt_or_ge 319 (s.val f.opa).toNat with core | core
  · exact ⟨_, exec_spmk_core hg hd core⟩
  · exact ⟨_, exec_spmk_offset hg hd core offset⟩

end Sys2Proof.Proofs
end

section
/-! SUPPORT. The strip that a loop keeps of those that have ended, and what leaving the loop makes of the context's registers
(R90, R136). -/

namespace Sys2Proof.Machine

/-! ## The kept strip (R90) -/

/-- Of the strips in a list, one that prevails: the one of lowest SIDX that broke, and with none such the one of highest
SIDX. -/
def Final.Prevails (k : Final) (l : List Final) : Prop :=
  k ∈ l ∧ (k.broke = true → ∀ e ∈ l, e.broke = true → k.sidx.toNat ≤ e.sidx.toNat) ∧
  (k.broke = false → ∀ e ∈ l, e.broke = false ∧ e.sidx.toNat ≤ k.sidx.toNat)

theorem Final.prevails_alone (k : Final) : k.Prevails [k] := by
  simp [Final.Prevails]

/-- The strip kept stays when it prevails over the new one. -/
theorem Final.Prevails.stays {k new : Final} {l : List Final} (h : k.Prevails l)
    (broken : k.broke = true → new.broke = true → k.sidx.toNat ≤ new.sidx.toNat)
    (whole : k.broke = false → new.broke = false ∧ new.sidx.toNat ≤ k.sidx.toNat) : k.Prevails (l ++ [new]) := by
  obtain ⟨mem, low, high⟩ := h
  simp only [Final.Prevails, List.forall_mem_append, List.forall_mem_singleton]
  exact ⟨List.mem_append_left _ mem, fun hk => ⟨low hk, broken hk⟩, fun hk => ⟨high hk, whole hk⟩⟩

/-- A new strip that broke prevails over kept ones that did not, or over one of higher SIDX. -/
theorem Final.Prevails.yields_broken {k new : Final} {l : List Final} (h : k.Prevails l) (hn : new.broke = true)
    (higher : k.broke = true → new.sidx.toNat ≤ k.sidx.toNat) : new.Prevails (l ++ [new]) := by
  obtain ⟨_, low, high⟩ := h
  simp only [Final.Prevails, List.forall_mem_append, List.forall_mem_singleton]
  refine ⟨by simp, fun _ => ⟨fun e he eb => ?_, fun _ => Nat.le_refl _⟩, fun hf => by simp [hn] at hf⟩
  cases hk : k.broke with
  | true => exact Nat.le_trans (higher hk) (low hk e he eb)
  | false => simp [(high hk e he).1] at eb

/-- A new strip of higher SIDX prevails where none broke. -/
theorem Final.Prevails.yields_whole {k new : Final} {l : List Final} (h : k.Prevails l) (hk : k.broke = false)
    (hn : new.broke = false) (higher : k.sidx.toNat ≤ new.sidx.toNat) : new.Prevails (l ++ [new]) := by
  obtain ⟨_, _, high⟩ := h
  simp only [Final.Prevails, List.forall_mem_append, List.forall_mem_singleton]
  refine ⟨by simp, fun hb => by simp [hn] at hb, fun _ => ⟨fun e he => ?_, hn, Nat.le_refl _⟩⟩
  obtain ⟨whole, below⟩ := high hk e he
  exact ⟨whole, Nat.le_trans below higher⟩

/-- What one more ended strip leaves kept. -/
theorem keepFinal_prevails {k : Final} {l : List Final} (h : k.Prevails l) (new : Final) :
    ∃ x, keepFinal (some k) new = some x ∧ x.Prevails (l ++ [new]) := by
  cases hn : new.broke <;> cases hk : k.broke
  case false.false =>
    by_cases lt : k.sidx.toNat < new.sidx.toNat
    · exact ⟨new, by simp [keepFinal, hn, hk, lt], h.yields_whole hk hn (Nat.le_of_lt lt)⟩
    · exact ⟨k, by simp [keepFinal, hn, hk, lt], h.stays (by simp [hk]) fun _ => ⟨hn, Nat.not_lt.1 lt⟩⟩
  case false.true => exact ⟨k, by simp [keepFinal, hn, hk], h.stays (by simp [hn]) (by simp [hk])⟩
  case true.false => exact ⟨new, by simp [keepFinal, hn, hk], h.yields_broken hn (by simp [hk])⟩
  case true.true =>
    by_cases lt : new.sidx.toNat < k.sidx.toNat
    · exact ⟨new, by simp [keepFinal, hn, hk, lt], h.yields_broken hn fun _ => Nat.le_of_lt lt⟩
    · exact ⟨k, by simp [keepFinal, hn, hk, lt], h.stays (fun _ _ => Nat.not_lt.1 lt) (by simp [hk])⟩

/-- The strip kept after more strips have ended prevails over all of them. -/
theorem foldl_keepFinal_prevails (ends : List Final) {k : Final} {l : List Final} (h : k.Prevails l) :
    ∃ x, ends.foldl keepFinal (some k) = some x ∧ x.Prevails (l ++ ends) := by
  induction ends generalizing k l with
  | nil => exact ⟨k, rfl, by rwa [List.append_nil]⟩
  | cons e ends ih =>
    obtain ⟨y, kept, prevails⟩ := keepFinal_prevails h e
    obtain ⟨x, folded, final⟩ := ih prevails
    exact ⟨x, by rw [List.foldl_cons, kept, folded], by rwa [List.append_assoc] at final⟩

/-! ## The sums of a loop (R136) -/

theorem look_of_above {α : Type} {n : Nat} {m : List (Nat × α)} (h : above n m) : look m n = none := by
  induction m with
  | nil => rfl
  | cons x t ih =>
    have other : x.1 ≠ n := Nat.ne_of_gt (h x List.mem_cons_self)
    rw [look, if_neg other, ih fun y hy => h y (List.mem_cons_of_mem _ hy)]

/-- The registers with the sums of a loop in those that it names. -/
def withSums (sums : Table Word) (v : Vector Word 64) : Vector Word 64 :=
  sums.foldl (fun s x => s.set (x.1 % 64) x.2 (Nat.mod_lt _ (by decide))) v

theorem withSums_get {sums : Table Word} (hr : rising sums = true) (hb : ∀ x ∈ sums, x.1 < 64) (v : Vector Word 64)
    (i : Fin 64) : (withSums sums v).get i = (look sums i.val).getD (v.get i) := by
  induction sums generalizing v with
  | nil => rfl
  | cons x t ih =>
    obtain ⟨a, w⟩ := x
    obtain ⟨least, rest⟩ := (rising_cons _ _).1 hr
    have bound : a < 64 := hb (a, w) List.mem_cons_self
    have written := ih rest (fun y hy => hb y (List.mem_cons_of_mem _ hy))
      (v.set (a % 64) w (Nat.mod_lt _ (by decide)))
    rw [withSums, List.foldl_cons, ← withSums, written, look, vget_eq, vget_eq, Vector.getElem_set]
    simp only [Nat.mod_eq_of_lt bound]
    by_cases ha : a = i.val
    · have none_later : look t i.val = none := by rw [← ha]; exact look_of_above least
      simp only [if_pos ha, none_later, Option.getD_none, Option.getD_some]
    · simp only [if_neg ha]

/-! ## Leaving a loop (R90) -/

theorem vget_ofFn {α : Type} {n : Nat} (f : Fin n → α) (i : Fin n) : (Vector.ofFn f).get i = f i := by
  rw [vget_eq, Vector.getElem_ofFn]

section
variable {c : Ctx} {l : Loop} {k : Final}

theorem Ctx.leaveLoop_p (h : l.final = some k) (i : Fin 8) :
    (c.leaveLoop l).p.get i = if 4 ≤ i.val then k.p.get (Fin.ofNat 4 (i.val - 4)) else c.p.get i := by
  simp only [Ctx.leaveLoop, h, vget_ofFn]

theorem Ctx.leaveLoop_s (h : l.final = some k) (hr : rising l.sums = true) (hb : ∀ x ∈ l.sums, x.1 < 64) (i : Fin 64) :
    (c.leaveLoop l).s.get i = (look l.sums i.val).getD
      (if 32 ≤ i.val then k.s.get (Fin.ofNat 32 (i.val - 32)) else c.s.get i) := by
  have sums : (c.leaveLoop l).s = withSums l.sums (Vector.ofFn fun i =>
      if 32 ≤ i.val then k.s.get (Fin.ofNat 32 (i.val - 32)) else c.s.get i) := by
    simp only [Ctx.leaveLoop, h, withSums]
  rw [sums, withSums_get hr hb, vget_ofFn]

/-- A context whose loop has a strip in flight or to start stays in it; with none it leaves. -/
theorem Ctx.loopDone_eq (h : c.loop = some l) (vl : Nat) : c.loopDone vl =
    if (c.strips.all Option.isNone && (l.stopped || decide (l.count vl ≤ l.next))) = true then c.leaveLoop l else c := by
  simp only [Ctx.loopDone, h]

end

end Sys2Proof.Machine
end

section
/-! SUPPORT. Strips: the lane group and the registers with which the next one starts, and the end of one (R90, R160 to R162). -/

namespace Sys2Proof.Machine

@[simp] theorem State.ctxAt_modCoreAt (s : State) (n : Nat) (f : Core → Core) (k : Nat) :
    (s.modCoreAt n f).ctxAt k = s.ctxAt k := rfl

/-! ## The start of a strip (R160 to R162) -/

theorem Ctx.freeGroup_lowest {c : Ctx} {g : Fin 4} (free : c.strips.get g = none)
    (lower : ∀ h : Fin 4, h < g → c.strips.get h ≠ none) : c.freeGroup = some g := by
  refine List.find?_eq_some_iff_getElem.2 ⟨by simp [free], g.val, by simp, by simp, fun j hj => ?_⟩
  have taken : c.strips.get ⟨j, by omega⟩ ≠ none := lower _ hj
  simpa [Option.isSome_iff_ne_none] using taken

theorem Ctx.startsStrips_of {c : Ctx} (hs : c.status = .running ∨ c.status = .handler ∧ c.hstrip = none)
    (hr : c.record = none) (hp : c.pending = false) : c.startsStrips = true := by
  rcases hs with hs | ⟨hs, hh⟩
  · simp [Ctx.startsStrips, hs, hr, hp]
  · simp [Ctx.startsStrips, hs, hh, hr, hp]

/-- The strip that a loop of a context starts next. -/
def Ctx.nextStrip (c : Ctx) (l : Loop) (vl : Nat) : Strip :=
  { thread := { pc := l.start, packet := none }, sidx := w64 (l.next * vl), slen := min vl (l.n.toNat - l.next * vl)
    s := Vector.ofFn fun i => c.s.get (Fin.ofNat 64 (i + 32)), p := Vector.ofFn fun i => c.p.get (Fin.ofNat 8 (i + 4))
    pops := .replicate 4 0, popped := false, held := none }

/-- A context with the next strip of its loop in a lane group. -/
def Ctx.withNextStrip (c : Ctx) (l : Loop) (vl : Nat) (g : Fin 4) : Ctx :=
  { c with loop := some { l with next := l.next + 1 } }.setStrip g (some (c.nextStrip l vl))

theorem exec_stripStart {core : Fin 320} {lc : Fin 4} {s : State} {c : Ctx} {l : Loop} {g : Fin 4} {vl : Nat}
    (hc : c = s.ctxAt (ctxNum core lc)) (hv : vl = (s.coreAt core).vl) (hl : c.loop = some l) (hg : c.freeGroup = some g)
    (hs : c.startsStrips = true) (go : l.stopped = false) (left : l.next < l.count vl)
    (free : s.frozen (ctxNum core lc) = false) :
    exec (.stripStart core lc) s = .next ((s.setCtxAt (ctxNum core lc) (c.withNextStrip l vl g)).modCoreAt core fun x =>
      x.clearTags lc g 0) := by
  subst hc hv
  change execStripStart core lc s = _
  have goes : ((s.ctxAt (ctxNum core lc)).startsStrips && !l.stopped && decide (l.next < l.count (s.coreAt core).vl) &&
      !s.frozen (ctxNum core lc)) = true := by
    rw [hs, go, decide_eq_true left, free]
    rfl
  unfold execStripStart
  dsimp only
  rw [hl, hg]
  dsimp only
  rw [if_pos goes]
  rfl

/-! ## The end of a strip (R90) -/

theorem State.strip_of_lg {s : State} {g : Fin 4} {t : Strip} (hg : s.cur.lg = some g)
    (ht : s.ctx.strips.get g = some t) : s.strip? = some t := by
  simp only [State.strip?, hg, ht]

/-- A loop one of whose strips has ended and left a copy of its registers. -/
def Loop.ended (l : Loop) (new : Final) : Loop :=
  { l with final := keepFinal l.final new, stopped := l.stopped || new.broke }

/-- A context one strip of which has ended, before it may leave the loop. -/
def Ctx.stripEnded (c : Ctx) (g : Fin 4) (l : Loop) (new : Final) : Ctx := { c.setStrip g none with loop := some (l.ended new) }

theorem State.ctx_endStrip {s : State} {g : Fin 4} {t : Strip} {l : Loop} (broke : Bool) (hg : s.cur.lg = some g)
    (ht : s.ctx.strips.get g = some t) (hl : s.ctx.loop = some l) : (s.endStrip broke).ctx =
      (s.ctx.stripEnded g l { sidx := t.sidx, broke := broke, s := t.s, p := t.p }).loopDone s.core.vl := by
  simp only [State.endStrip, hg, State.strip_of_lg hg ht, State.ctx_modCtx, hl, Option.map_some]
  rfl

/-- Whether a strip other than the one of a lane group is in flight. -/
def Ctx.othersRun (c : Ctx) (g : Fin 4) : Bool := (List.finRange 4).any fun h => h != g && (c.strips.get h).isSome

theorem Ctx.setStrip_all_none (c : Ctx) (g : Fin 4) : (c.setStrip g none).strips.all Option.isNone = !c.othersRun g := by
  have strip : ∀ h : Fin 4, (c.setStrip g none).strips[h.val] = if g = h then none else c.strips.get h := fun h => by
    rw [Ctx.setStrip, Vector.getElem_set, vget_eq]
    simp only [Fin.ext_iff]
  rw [Bool.eq_iff_iff, Vector.all_eq_true, Bool.not_eq_true', Ctx.othersRun, List.any_eq_false]
  refine ⟨fun all h _ => ?_, fun none i hi => ?_⟩
  · have empty := all h.val h.isLt
    rw [strip] at empty
    by_cases hh : g = h
    · simp [hh]
    · rw [if_neg hh] at empty
      simp [Option.isNone_iff_eq_none.1 empty]
  · rw [strip ⟨i, hi⟩]
    by_cases hh : g = ⟨i, hi⟩
    · rw [if_pos hh]
      rfl
    · have empty := none ⟨i, hi⟩ (List.mem_finRange _)
      rw [if_neg hh]
      simpa [Ne.symm hh] using empty

section
variable {c : Ctx} {g : Fin 4} {l : Loop} {new : Final} {vl : Nat}

/-- The loop ends when no other strip runs and none is to start. -/
theorem Ctx.stripEnded_loopDone : (c.stripEnded g l new).loopDone vl =
    if (c.othersRun g || (!(l.stopped || new.broke) && decide (l.next < l.count vl))) = true then c.stripEnded g l new
    else (c.stripEnded g l new).leaveLoop (l.ended new) := by
  have strips : (c.stripEnded g l new).strips.all Option.isNone = !c.othersRun g := c.setStrip_all_none g
  have last : decide (l.count vl ≤ l.next) = !decide (l.next < l.count vl) := by
    rw [← decide_not]
    exact decide_eq_decide.2 Nat.not_lt.symm
  have ends : (!c.othersRun g && (l.stopped || new.broke || decide (l.count vl ≤ l.next))) =
      !(c.othersRun g || (!(l.stopped || new.broke) && decide (l.next < l.count vl))) := by
    rw [last, Bool.not_or, Bool.not_and, Bool.not_not]
  rw [Ctx.loopDone_eq (c := c.stripEnded g l new) rfl, strips]
  change (if (!c.othersRun g && (l.stopped || new.broke || decide (l.count vl ≤ l.next))) = true then _ else _) = _
  rw [ends]
  cases c.othersRun g || (!(l.stopped || new.broke) && decide (l.next < l.count vl)) <;> rfl

end

end Sys2Proof.Machine
end

section
/-! SUPPORT. The loop brackets, `exit`, and what the end of a context leaves of it, with the statement about loops and ends
(R90, R91, R297). -/

namespace Sys2Proof.Machine

/-! ## Loop brackets (R90) -/

section
variable {c : Ctl} {f : FB} {s : State} (hg : s.guard c = true)
include hg

theorem exec_vloop_empty (hb : s.inBody = false) (ht : targetCause (fbTarget s.pc f) = none) (hn : s.val f.opa = 0) :
    exec (.vloop c f) s = .next (s.goto (fbTarget s.pc f)) := by
  change execVloop c f s = _
  rw [execVloop, run_true _ hg, hb, target_ok ht]
  simp only [Bool.false_eq_true, if_false, act_ok_bind, if_pos hn, settle_ok]

theorem exec_vloop_enters (hb : s.inBody = false) (ht : targetCause (fbTarget s.pc f) = none) (hn : s.val f.opa ≠ 0) :
    exec (.vloop c f) s = .next (s.modCtx fun x =>
      { x with loop := some { n := s.val f.opa, start := s.nextPC, exit := fbTarget s.pc f, next := 0
                              stopped := false, final := none, sums := [] } }) := by
  change execVloop c f s = _
  rw [execVloop, run_true _ hg, hb, target_ok ht]
  simp only [Bool.false_eq_true, if_false, act_ok_bind, if_neg hn, settle_ok]

theorem exec_vloop_body (hb : s.inBody = true) :
    exec (.vloop c f) s = .next (s.takeTrap { cause := .range, val := Instr.upper (.vloop c f) }) := by
  change execVloop c f s = _
  rw [execVloop, run_true _ hg, if_pos hb]
  rfl

theorem exec_vend_ends {l : Loop} (hb : s.inBody = true) (hl : s.ctx.loop = some l)
    (ht : targetCause (fbTarget s.pc f) = none) (hs : fbTarget s.pc f = l.start) :
    exec (.vend c f) s = .next (s.endStrip false) := by
  change execVend c f s = _
  rw [execVend, run_true _ hg, hb, target_ok ht]
  simp only [Bool.not_true, Bool.false_eq_true, if_false, act_ok_bind, hl, hs, bne_self_eq_false, settle_ok]

theorem exec_vend_elsewhere {l : Loop} (hb : s.inBody = true) (hl : s.ctx.loop = some l)
    (ht : targetCause (fbTarget s.pc f) = none) (hs : fbTarget s.pc f ≠ l.start) :
    exec (.vend c f) s = .next (s.takeTrap { cause := .range, val := fbTarget s.pc f }) := by
  change execVend c f s = _
  rw [execVend, run_true _ hg, hb, target_ok ht]
  simp only [Bool.not_true, Bool.false_eq_true, if_false, act_ok_bind, hl, bne_iff_ne.2 hs, if_true]
  rfl

theorem exec_vend_outside (hb : s.inBody = false) :
    exec (.vend c f) s = .next (s.takeTrap { cause := .range, val := Instr.upper (.vend c f) }) := by
  change execVend c f s = _
  rw [execVend, run_true _ hg, hb]
  rfl

theorem exec_vbreak_ends {f : FR} (hb : s.inBody = true) : exec (.vbreak c f) s = .next (s.endStrip true) := by
  change execVbreak c f s = _
  rw [execVbreak, run_true _ hg, hb]
  rfl

theorem exec_vbreak_outside {f : FR} (hb : s.inBody = false) :
    exec (.vbreak c f) s = .next (s.takeTrap { cause := .range, val := Instr.upper (.vbreak c f) }) := by
  change execVbreak c f s = _
  rw [execVbreak, run_true _ hg, hb]
  rfl

end

/-! ## Memory operations keep the contexts -/

@[simp] theorem State.touchL2_ctxs (s : State) (pa : Nat) : (s.touchL2 pa).ctxs = s.ctxs := rfl
@[simp] theorem State.noteChange_ctxs (s : State) (pa : Nat) (x : Change) : (s.noteChange pa x).ctxs = s.ctxs := rfl
@[simp] theorem State.publishMask_ctxs (s : State) (pa : Nat) (m : BitVec 128) : (s.publishMask pa m).ctxs = s.ctxs := rfl
@[simp] theorem State.noteTorn_ctxs (s : State) (w : Writer) (pa : Nat) (bs : List Byte) (bad : Bool) :
    (s.noteTorn w pa bs bad).ctxs = s.ctxs :=
  foldl_keeps State.ctxs (fun _ _ => State.noteChange_ctxs ..) _ s
@[simp] theorem State.noteStale_ctxs (s : State) (k a : Nat) (bs : List Byte) : (s.noteStale k a bs).ctxs = s.ctxs := by
  unfold State.noteStale
  refine foldl_keeps State.ctxs (fun t x => ?_) _ s
  rfl
@[simp] theorem State.owe_ctxs (s : State) (pa kind : Nat) : (s.owe pa kind).ctxs = s.ctxs := by
  unfold State.owe
  split <;> rfl
@[simp] theorem State.dropOwnL1_ctxs (s : State) (who : Option Writer) (pa : Nat) : (s.dropOwnL1 who pa).ctxs = s.ctxs := by
  unfold State.dropOwnL1
  split <;> rfl

theorem State.performStore_ctxs (s : State) (p : Pending) : (s.performStore p).ctxs = s.ctxs := by
  have written : (((s.noteTorn (.ctx p.ctx) p.addr p.bytes).writeThrough (coreOfCtx p.ctx) p.addr p.bytes)).ctxs = s.ctxs :=
    State.noteTorn_ctxs ..
  unfold State.performStore
  dsimp only
  split
  · split <;> split <;> simp [written]
  · exact State.noteStale_ctxs ..

theorem State.drain_ctxs (s : State) (k : Nat) : (s.drain k).ctxs = s.ctxs :=
  foldl_keeps State.ctxs State.performStore_ctxs _ _

theorem State.publishCls_ctxs (s : State) (k : Nat) (sc : Scope) : (s.publishCls k sc).ctxs = s.ctxs := by
  unfold State.publishCls
  (repeat' split) <;> rfl

theorem State.publishHistory_ctxs (s : State) (k : Nat) (sc : Scope) : (s.publishHistory k sc).ctxs = s.ctxs := by
  unfold State.publishHistory
  dsimp only
  rw [State.publishCls_ctxs]
  split <;> rfl

/-- A run of writes to memory keeps the contexts. -/
theorem State.foldl_mem_ctxs (is : List Nat) (h : State → Nat → Memory) (s : State) :
    (is.foldl (fun s b => { s with mem := h s b }) s).ctxs = s.ctxs := by
  refine foldl_keeps State.ctxs (fun t b => ?_) is s
  rfl

theorem State.writeMasked_ctxs (s : State) (core pa : Nat) (mask : BitVec 128) (off : Nat) (who : Option Writer) :
    (s.writeMasked core pa mask off who).ctxs = s.ctxs := by
  unfold State.writeMasked
  cases who <;>
    simp only [Option.isNone_none, Option.isNone_some, Bool.false_eq_true, if_true, if_false, State.publishMask_ctxs,
      State.touchL2_ctxs, State.dropOwnL1_ctxs, State.modCoreAt_ctxs, State.foldl_mem_ctxs, State.noteChange_ctxs]

/-! ## Actions that keep the contexts -/

/-- When an action goes on, the contexts are as they were. -/
def KeepsCtxs (s : State) (r : Act State) : Prop := ∀ t, r = .ok t → t.ctxs = s.ctxs

theorem KeepsCtxs.ok {s t : State} (h : t.ctxs = s.ctxs) : KeepsCtxs s (.ok t) := by
  intro u hu
  injection hu with hu
  rw [← hu, h]
theorem KeepsCtxs.error {s : State} {e : Stop} : KeepsCtxs s (.error e) := fun _ h => nomatch h

theorem KeepsCtxs.bind {s : State} {r : Act State} {f : State → Act State} (h : KeepsCtxs s r)
    (hf : ∀ t, KeepsCtxs t (f t)) : KeepsCtxs s (r >>= f) := by
  intro u hu
  obtain ⟨t, ht, hfu⟩ := act_bind_ok hu
  rw [hf t u hfu, h t ht]

theorem KeepsCtxs.foldlM {α : Type} {f : State → α → Act State} (hf : ∀ s a, KeepsCtxs s (f s a)) (l : List α) (s : State) :
    KeepsCtxs s (l.foldlM f s) := by
  induction l generalizing s with
  | nil => exact .ok rfl
  | cons a l ih =>
    rw [List.foldlM_cons]
    exact (hf s a).bind ih

theorem KeepsCtxs.keepDue {s : State} {r : Act State} (core : Nat) (h : KeepsCtxs s r) : KeepsCtxs s (keepDue core r) := by
  unfold Machine.keepDue
  split
  · exact .error
  · exact h

theorem State.drainAct_keepsCtxs (s : State) (k : Nat) : KeepsCtxs s (s.drainAct k) := by
  unfold State.drainAct
  split
  · exact .ok (s.drain_ctxs k)
  · exact .error

theorem State.writeBack_keepsCtxs (s : State) (core line : Nat) (j : Fin 4) (drop force : Bool) (who : Option Writer) :
    KeepsCtxs s (s.writeBack core line j drop force who) := by
  unfold State.writeBack
  dsimp only
  split
  · exact .ok rfl
  · split
    · exact .ok rfl
    · split <;> exact .ok rfl
    · split
      case h_5 =>
        split
        · exact .error
        · exact .ok (State.writeMasked_ctxs ..)
      all_goals exact .error

theorem State.containedStop_ctxs (s : State) (q : Fin 4) (cause seq : Nat) : (s.containedStop q cause seq).ctxs = s.ctxs := by
  unfold State.containedStop
  split <;> rfl

theorem State.putRecord_ctxs {s t : State} {q : Fin 4} {r : TrapRec} (h : s.putRecord q r = some t) : t.ctxs = s.ctxs := by
  unfold State.putRecord at h
  dsimp only at h
  split at h
  · exact nomatch h
  · split at h <;> split at h
    · exact Option.some.inj h ▸ rfl
    · exact Option.some.inj h ▸ State.containedStop_ctxs ..
    · exact Option.some.inj h ▸ rfl
    · exact nomatch h

theorem State.leaveDirty_keepsCtxs (k : Nat) (t : Trap) (s : State) : KeepsCtxs s (State.leaveDirty k t s) := by
  unfold State.leaveDirty
  dsimp only
  split
  next u h =>
    have put := State.putRecord_ctxs h
    split
    · exact .ok ((State.logError_ctxs ..).trans put)
    · exact .ok put
  next => exact .error

theorem State.flushEnd_keepsCtxs (s : State) (core : Nat) (who : Writer) {leave : Trap → State → Act State}
    (h : ∀ t s, KeepsCtxs s (leave t s)) : KeepsCtxs s (s.flushEnd core who leave) := by
  refine .keepDue core (.foldlM (fun s l => .foldlM (fun s j => ?_) _ s) _ s)
  split
  · exact h _ s
  · exact s.writeBack_keepsCtxs _ _ _ _ _ _

/-! ## The end of a context (R297) -/

theorem State.settleGang_ctxs (s : State) (launch gang : Nat) : (s.settleGang launch gang).ctxs = s.ctxs := by
  unfold State.settleGang
  split <;> rfl

/-- The team-end boundary of an ended context writes of the contexts no more than that it is made. -/
theorem State.tryEnd_ctxAt {α : Type} (p : Ctx → α) (h : ∀ c b, p { c with ending := b } = p c) (s : State) (k : Nat) :
    p ((s.tryEnd k).ctxAt k) = p (s.ctxAt k) := by
  unfold State.tryEnd
  split
  · rfl
  · dsimp only
    split
    next t made =>
      have kept : t.ctxs = s.ctxs := by
        refine KeepsCtxs.bind (s.drainAct_keepsCtxs k) (fun u => ?_) t made
        split
        · exact .error
        · exact u.flushEnd_keepsCtxs _ _ (State.leaveDirty_keepsCtxs k)
      have history : (t.publishHistory k (doneScopeOf (t.ctxAt k).ten.doneScope)).ctxAt k = s.ctxAt k := by
        rw [State.ctxAt, State.publishHistory_ctxs, kept, State.ctxAt]
      rw [State.ctxAt, State.settleGang_ctxs, ← State.ctxAt, State.ctxAt_modCtxAt_same, history]
      exact h _ _
    next => rfl
    next => rfl

/-- An ended context is finished: ENDED, without a loop or a strip. -/
theorem State.endCtx_ctxAt {α : Type} (p : Ctx → α) (h : ∀ c b, p { c with ending := b } = p c) (s : State) (k : Nat) :
    p ((s.endCtx k).ctxAt k) = p (s.ctxAt k).finish := by
  rw [← s.ctxAt_modCtxAt_same k Ctx.finish]
  exact State.tryEnd_ctxAt p h _ k

/-! ## `exit` (R91, R297) -/

theorem exec_exit {c : Ctl} {f : FR} {s t u : State} (hg : s.guard c = true) (ha : s.ctx.ahead = [])
    (published : s.publish s.key (doneScopeOf s.ctx.ten.doneScope) = .ok t) (flushed : t.flushStash t.cur.core true = .ok u) :
    exec (.exit c f) s = .next (u.endCtx u.key) := by
  change execExit c f s = _
  rw [execExit, run_true _ hg, ha, published, act_ok_bind, flushed]
  rfl

end Sys2Proof.Machine

namespace Sys2Proof.Proofs
open Sys2Proof Sys2Proof.Machine Sys2Proof.Claims

/-- Settles O5: the brackets by what each answers, the start of a strip, its end by whether the loop goes on, the kept strip by
what prevails, and `exit` by what the end of a context leaves. -/
theorem loopsAndEnds : Obligations.LoopsAndEnds := by
  unfold Obligations.LoopsAndEnds
  refine ⟨?brackets, ?starts, ?ends, ?keeps, ?exits⟩
  case brackets =>
    intro c s hg
    exact ⟨fun f hb ht => ⟨exec_vloop_empty hg hb ht, exec_vloop_enters hg hb ht⟩,
      fun f l hb hl ht => ⟨exec_vend_ends hg hb hl ht, exec_vend_elsewhere hg hb hl ht⟩,
      fun f hb => exec_vbreak_ends hg hb, fun f hb => exec_vloop_body hg hb,
      fun f g hb => ⟨exec_vend_outside hg hb, exec_vbreak_outside hg hb⟩⟩
  case starts =>
    intro core lc s l g k c vl hl free lower status go left record pending frozen
    refine ⟨_, c.nextStrip l vl, exec_stripStart rfl rfl hl (Ctx.freeGroup_lowest free lower)
      (Ctx.startsStrips_of status record pending) go left frozen, ?_⟩
    rw [State.ctxAt_modCoreAt, State.ctxAt_setCtxAt_same]
    exact ⟨vget_set_same .., rfl, rfl, rfl, fun i => vget_ofFn .., fun i => vget_ofFn .., vget_replicate _, rfl,
      fun h hh => vget_set_ne _ _ hh, rfl⟩
  case ends =>
    intro s g t l broke hg ht hl new others more u
    have ctx : u.ctx = if (others || more) = true then s.ctx.stripEnded g l new
        else (s.ctx.stripEnded g l new).leaveLoop (l.ended new) :=
      (State.ctx_endStrip broke hg ht hl).trans Ctx.stripEnded_loopDone
    refine ⟨fun goesOn => ?_, fun last => ?_⟩
    · rw [ctx, if_pos goesOn]
      exact ⟨vget_set_same .., rfl, rfl, rfl, rfl⟩
    · rw [ctx, if_neg (by rw [last]; exact Bool.false_ne_true)]
      refine ⟨rfl, rfl, fun k kept => ⟨Ctx.leaveLoop_p kept, fun hr hb i => ?_⟩⟩
      refine (Ctx.leaveLoop_s (l := l.ended new) kept hr hb i).trans ?_
      change (look l.sums i.val).getD _ = _
      cases look l.sums i.val <;> rfl
  case keeps =>
    intro ends nonempty
    cases ends with
    | nil => exact absurd rfl nonempty
    | cons e ends =>
      obtain ⟨k, folded, mem, low, high⟩ := foldl_keepFinal_prevails ends e.prevails_alone
      exact ⟨k, mem, folded, low, high⟩
  case exits =>
    intro c f s s1 s2 hg ha published flushed
    refine ⟨_, exec_exit hg ha published flushed, ?_, ?_, fun g => ?_⟩
    · exact State.endCtx_ctxAt Ctx.status (fun _ _ => rfl) s2 s2.key
    · exact State.endCtx_ctxAt Ctx.loop (fun _ _ => rfl) s2 s2.key
    · rw [State.endCtx_ctxAt Ctx.strips (fun _ _ => rfl) s2 s2.key]
      exact vget_replicate ..

end Sys2Proof.Proofs
end

section
/-! SUPPORT. Resolving a vector operand: its type and columns, judged by class and by the window (R107, R108), with the statement
about them. -/

namespace Sys2Proof.Machine

/-! ## Class of type and window (R108) -/

/-- Whether a form that wants a class of type takes a type. -/
def Want.takes : Want → NTy → Bool
  | .int, .flt _ => false
  | .flt, .int _ _ => false
  | _, _ => true

theorem Want.any_takes (t : NTy) : Want.any.takes t = true := rfl
theorem Want.takes_int (want : Want) (signed : Bool) (w : Nat) : want.takes (.int signed w) = true ↔ want ≠ .flt := by
  cases want <;> simp [Want.takes]
theorem Want.takes_flt (want : Want) (x : Flt) : want.takes (.flt x) = true ↔ want ≠ .int := by
  cases want <;> simp [Want.takes]

/-- What resolving an operand answers for a type and columns: the class of type is checked first, then the window. -/
def State.judged (s : State) (o : Operand) (want : Want) (f : Fld) : Act Fld :=
  match want, f.ty with
  | .int, .flt _ => trapField s .operandClass o (vreg o)
  | .flt, .int _ _ => trapField s .operandClass o (vreg o)
  | _, _ => if s.ctx.win.holds f.col f.width then .ok f else trapField s .range o (vreg o)

section
variable {s : State} {o : Operand} {want : Want} {f g : Fld}

theorem judged_eq : s.judged o want f =
    if want.takes f.ty then
      if s.ctx.win.holds f.col f.width then .ok f else trapField s .range o (vreg o)
    else trapField s .operandClass o (vreg o) := by
  rcases f with ⟨_, _ | _, _, _⟩ <;> cases want <;> rfl

theorem judged_refused (h : ¬want.takes f.ty = true) : s.judged o want f = trapField s .operandClass o (vreg o) := by
  rw [judged_eq, if_neg h]

theorem judged_inside (h : want.takes f.ty = true)
    (inside : s.ctx.win.cb ≤ f.col ∧ f.col + f.width ≤ s.ctx.win.cb + s.ctx.win.cn) : s.judged o want f = .ok f := by
  rw [judged_eq, if_pos h, Window.holds, decide_eq_true inside, if_pos rfl]

theorem judged_outside (h : want.takes f.ty = true)
    (outside : ¬(s.ctx.win.cb ≤ f.col ∧ f.col + f.width ≤ s.ctx.win.cb + s.ctx.win.cn)) :
    s.judged o want f = trapField s .range o (vreg o) := by
  rw [judged_eq, if_pos h, Window.holds, decide_eq_false outside, if_neg Bool.false_ne_true]

/-- A field that passes both checks is the one that was judged. -/
theorem judged_ok (h : s.judged o want f = .ok g) : g = f := by
  rw [judged_eq] at h
  split at h
  · split at h
    · exact (Except.ok.inj h).symm
    · exact nomatch h
  · exact nomatch h

end

/-! ## Type and columns (R107) -/

section
variable (s : State) (o : Operand) {t : Ty} (wid : Nat) (want : Want)

theorem field_invalid (t : Ty) (h : fmV (s.ctx.fmap.get (vreg o)) = false) :
    s.field o t wid want = trapField s .operandClass o (vreg o) := by
  rw [State.field, h]
  rfl

/-- An integer code takes the width of WID, or of the entry where WID is 0. -/
theorem field_int (valid : fmV (s.ctx.fmap.get (vreg o)) = true) (ht : t = .i ∨ t = .n) :
    s.field o t wid want =
      let e := s.ctx.fmap.get (vreg o)
      let w := if wid = 0 then fmWidth e else wid
      s.judged o want { reg := vreg o, ty := .int (t == .i) w, col := fmCol e, width := w } := by
  rw [State.field, valid]
  rcases ht with rfl | rfl <;> rfl

/-- A floating code fixes the width, which must be the entry's. -/
theorem field_flt {x : Flt} (valid : fmV (s.ctx.fmap.get (vreg o)) = true) (ht : fltOfTy t = some x) :
    s.field o t wid want =
      let e := s.ctx.fmap.get (vreg o)
      if x.width = fmWidth e then s.judged o want { reg := vreg o, ty := .flt x, col := fmCol e, width := x.width }
      else trapField s .operandClass o (vreg o) := by
  rw [State.field, valid, if_neg (by decide : ¬(!true) = true)]
  by_cases width : x.width = fmWidth (s.ctx.fmap.get (vreg o))
  · cases t <;> cases ht <;> simp only [fltOfTy, if_pos width] <;> rfl
  · cases t <;> cases ht <;> simp only [fltOfTy, if_neg width] <;> rfl

/-- Every other code leaves type and width to the entry. -/
theorem field_entry (valid : fmV (s.ctx.fmap.get (vreg o)) = true) (hi : t ≠ .i) (hn : t ≠ .n) (ht : fltOfTy t = none) :
    s.field o t wid want =
      let e := s.ctx.fmap.get (vreg o)
      s.judged o want { reg := vreg o, ty := entryTy e, col := fmCol e, width := fmWidth e } := by
  rw [State.field, valid]
  cases t with
  | fm | nb8e4 | nb8e2 => rfl
  | i => exact absurd rfl hi
  | n => exact absurd rfl hn
  | e4m3 | e5m2 | e2m1 | f16 | bf16 | f32 => exact nomatch ht

end

/-- A resolved operand names its register. -/
theorem field_reg {s : State} {o : Operand} {t : Ty} {wid : Nat} {want : Want} {f : Fld} (h : s.field o t wid want = .ok f) :
    f.reg = vreg o := by
  cases valid : fmV (s.ctx.fmap.get (vreg o)) with
  | false => rw [field_invalid s o wid want t valid] at h; exact nomatch h
  | true =>
    by_cases int : t = .i ∨ t = .n
    · rw [field_int s o wid want valid int] at h
      rw [judged_ok h]
    · cases flt : fltOfTy t with
      | none =>
        rw [field_entry s o wid want valid (fun e => int (.inl e)) (fun e => int (.inr e)) flt] at h
        rw [judged_ok h]
      | some x =>
        rw [field_flt s o wid want valid flt] at h
        dsimp only at h
        split at h
        · rw [judged_ok h]
        · exact nomatch h

/-! ## The TYPE of an entry (Table 2-6) -/

theorem entryTy_int {e : BitVec 32} (lo : 1 ≤ fmType e) (hi : fmType e ≤ 2) :
    entryTy e = .int (fmType e == 1) (fmWidth e) := by
  rcases (by omega : fmType e = 1 ∨ fmType e = 2) with h | h <;> simp [entryTy, h, Ty.ofCode, fltOfTy]

theorem entryTy_flt {e : BitVec 32} {x : Flt} (h : fltOfTy (.ofCode (fmType e)) = some x) : entryTy e = .flt x := by
  rw [entryTy, h]

theorem fltOfTy_ofCode {k : Nat} (lo : 3 ≤ k) (hi : k ≤ 8) : ∃ x, fltOfTy (.ofCode k) = some x := by
  have codes : k = 3 ∨ k = 4 ∨ k = 5 ∨ k = 6 ∨ k = 7 ∨ k = 8 := by omega
  rcases codes with rfl | rfl | rfl | rfl | rfl | rfl <;> exact ⟨_, rfl⟩

end Sys2Proof.Machine

namespace Sys2Proof.Proofs
open Sys2Proof Sys2Proof.Machine Sys2Proof.Claims

/-- Settles O12: each code by what `field` judges for it, class before window. -/
theorem fieldResolution : Obligations.FieldResolution := by
  unfold Obligations.FieldResolution
  intro s n ty wid want e r operandClass range inside
  refine ⟨field_invalid s (.v n) wid want ty, fun valid int => ?int, fun valid fm lo hi => ?entry,
    fun valid fm any within => ?any, fun x valid flt => ?flt⟩
  case int =>
    have takes := want.takes_int (ty == .i) (if wid = 0 then bitsAt e 25 6 + 1 else wid)
    have resolves := field_int s (.v n) wid want valid int
    exact ⟨fun h => resolves.trans (judged_refused (fun k => takes.1 k h)),
      fun h within => resolves.trans (judged_inside (takes.2 h) within),
      fun h beyond => resolves.trans (judged_outside (takes.2 h) beyond)⟩
  case entry =>
    subst fm
    have resolves := field_entry s (.v n) wid want valid (t := .fm) (by decide) (by decide) rfl
    have refused : ¬want.takes (entryTy e) = true → r = operandClass := fun k => resolves.trans (judged_refused k)
    have intTy : bitsAt e 20 5 ≤ 2 → entryTy e = _ := entryTy_int lo
    refine ⟨fun low => ⟨intTy low, fun h => refused ?_⟩, fun x hx => ⟨entryTy_flt hx, fun h => refused ?_⟩, fun fits => ?_⟩
    · rw [intTy low, want.takes_int]
      exact fun k => k h
    · rw [entryTy_flt hx, want.takes_flt]
      exact fun k => k h
    · have takes : want.takes (entryTy e) = true := by
        rcases fits with rfl | ⟨rfl, low⟩ | ⟨rfl, high⟩
        · exact Want.any_takes _
        · rw [intTy low]; rfl
        · obtain ⟨x, hx⟩ := fltOfTy_ofCode high hi
          rw [entryTy_flt hx]; rfl
      exact ⟨fun within => resolves.trans (judged_inside takes within),
        fun beyond => resolves.trans (judged_outside takes beyond)⟩
  case any =>
    subst fm
    subst any
    exact (field_entry s (.v n) wid .any valid (t := .fm) (by decide) (by decide) rfl).trans
      (judged_inside (Want.any_takes _) within)
  case flt =>
    have takes := want.takes_flt x
    have resolves := field_flt s (.v n) wid want valid flt
    refine ⟨fun other => resolves.trans (if_neg other), fun same h => ?_, fun same h => ?_⟩
    · exact resolves.trans ((if_pos same).trans (judged_refused fun k => takes.1 k h))
    · exact ⟨fun within => resolves.trans ((if_pos same).trans (judged_inside (takes.2 h) within)),
        fun beyond => resolves.trans ((if_pos same).trans (judged_outside (takes.2 h) beyond))⟩

end Sys2Proof.Proofs
end

section
/-! SUPPORT. Vector floating and block-scale forms: what each shape of form answers once its checks pass, and the patterns of the
sign forms (R117 to R122), with the statement about them. -/

namespace Sys2Proof.Machine

/-! ## Sign forms (R118) -/

/-- A pattern of a floating format with another sign, or the canonical NaN. -/
theorem signPattern_flt (x : Flt) (bits : Nat) (sign : Bool) : signPattern (.flt x) bits sign =
    if x.val bits = .nan then x.nanBits.getD 0 else x.signed sign (bits % 2 ^ (x.width - 1)) := by
  cases h : x.val bits <;> simp [signPattern, h]

/-- The operations that take B's sign: copy, negated copy, and product. -/
theorem signOf_two {sub : BitVec 5} (h : sub.toNat < 3) (a b : Bool) :
    signOf sub.toNat a b = if sub = 0 then b else if sub = 1 then !b else a != b := by
  have code : sub = 0 ∨ sub = 1 ∨ sub = 2 := by bv_omega
  rcases code with rfl | rfl | rfl <;> rfl

/-- The operations of A alone: the absolute value, and the negation. -/
theorem signOf_one {sub : BitVec 5} (h : sub = 3 ∨ sub = 4) (a b : Bool) :
    signOf sub.toNat a b = (sub == 4 && !a) := by
  rcases h with rfl | rfl <;> rfl

/-! ## What each shape of form answers -/

section
variable {c : Ctl} {f : FR} {i : Instr} {s u : State} {d a b e sc : Fld}

theorem run_flt1 {o : Out} {op : Num → Num} (ho : o = settle (flt1 i f op s)) (h : Claims.flt1Ready i f s d a u) :
    o = .next (u.mapLanes f.msk d fun _ r st => d.ty.convert (.f (op (a.num r))) (s.rm f.rm) f.sat st).advance := by
  obtain ⟨start, fd, fa, sat, overlap, stream, pops⟩ := h
  rw [ho, flt1_ok op start fd fa sat overlap stream pops]
  rfl

theorem run_flt2 {o : Out} {op : Bool → Num → Num → Num → Num} (ho : o = settle (flt2 i f op s))
    (h : Claims.flt2Ready i f s d a b u) :
    o = .next (u.mapLanes f.msk d fun _ r st =>
      d.ty.convert (.f (op (s.rm f.rm == .rdn) (d.num r) (a.num r) (b.num r))) (s.rm f.rm) f.sat st).advance := by
  obtain ⟨start, fd, fa, fb, sat, overlap, stream, pops⟩ := h
  rw [ho, flt2_ok op start fd fa fb sat overlap stream pops]
  rfl

/-- A lanewise form whose checks pass, settled. -/
theorem settle_lanewise {o : Operand} {m : Fin 6} {srcs : List (Operand × Fld)}
    (op : Nat → BitVec 512 → BitVec 32 → Rounded) (h : Claims.laneReady i s o d srcs u) :
    settle (s.lanewise i o m d srcs op) = .next (u.mapLanes m d op).advance := by
  obtain ⟨overlap, stream, pops⟩ := h
  rw [lanewise_ok op overlap stream pops]
  rfl

/-! ## Comparison and conversion (R117) -/

theorem exec_vfcmp (hg : s.guard c = true) (start : s.vecStart (.vfcmp c f) = .ok ())
    (fa : s.field f.opa f.ta 0 .flt = .ok a) (fb : s.field f.opb f.tb 0 .flt = .ok b)
    (pops : s.popAll [f.opa, f.opb] = .ok u) :
    exec (.vfcmp c f) s = .next (u.mapTags f.msk (mreg f.opd) fun _ r =>
      condOf f.sub.toNat ((a.num r).cmp (b.num r))).advance := by
  change execVfcmp c f s = _
  rw [execVfcmp, run_true _ hg, start, fa, fb, act_ok_bind, act_ok_bind, act_ok_bind, tagwise_ok _ pops]
  rfl

theorem exec_vfcvt (hg : s.guard c = true) (start : s.vecStart (.vfcvt c f) = .ok ())
    (fd : s.field f.opd f.ta f.wid.toNat .any = .ok d) (fa : s.field f.opa f.tb 0 .any = .ok a)
    (mode : f.rm = .rne ∨ d.ty.isFlt = true ∨ a.ty.isFlt = true) (sat : f.sat = true → satType d.ty = true)
    (h : Claims.laneReady (.vfcvt c f) s f.opd d [(f.opa, a)] u) :
    exec (.vfcvt c f) s =
      .next (u.mapLanes f.msk d fun _ r st => d.ty.convert (a.val r) (s.rm f.rm) f.sat st).advance := by
  have rounds : f.rm = .rne ∨ (d.ty.isFlt || a.ty.isFlt) = true := mode.imp_right Bool.or_eq_true_iff.2
  change execVfcvt c f s = _
  rw [execVfcvt, run_true _ hg, start, fd, fa, act_ok_bind, act_ok_bind, act_ok_bind, checkRmSat_ok rounds sat, act_ok_bind]
  exact settle_lanewise _ h

/-! ## Sign forms (R118) -/

/-- `vfsgn` once D and A are found to have the same format. -/
theorem exec_vfsgn_run {x : Flt} (hg : s.guard c = true) (start : s.vecStart (.vfsgn c f) = .ok ())
    (fd : s.field f.opd f.ta 0 .flt = .ok d) (fa : s.field f.opa f.ta 0 .flt = .ok a) (hd : d.ty = .flt x)
    (ha : a.ty = .flt x) :
    exec (.vfsgn c f) s = settle (
      if f.sub = 3 || f.sub = 4 then
        s.lanewise (.vfsgn c f) f.opd f.msk d [(f.opa, a)] fun _ r st =>
          pattern d.width (signPattern (.flt x) (a.get r) (signOf f.sub.toNat (a.signBit r) false)) st
      else do
        let b ← s.field f.opb f.tb 0 .flt
        s.lanewise (.vfsgn c f) f.opd f.msk d [(f.opa, a), (f.opb, b)] fun _ r st =>
          pattern d.width (signPattern (.flt x) (a.get r) (signOf f.sub.toNat (a.signBit r) (b.signBit r))) st) := by
  have same : ¬(d.ty != a.ty) = true := by simp [hd, ha]
  change execVfsgn c f s = _
  rw [execVfsgn, run_true _ hg, start, fd, fa, act_ok_bind, act_ok_bind, act_ok_bind, if_neg same, hd]

theorem exec_vfsgn_two {x : Flt} (hg : s.guard c = true) (start : s.vecStart (.vfsgn c f) = .ok ())
    (fd : s.field f.opd f.ta 0 .flt = .ok d) (fa : s.field f.opa f.ta 0 .flt = .ok a) (hd : d.ty = .flt x)
    (ha : a.ty = .flt x) (sub : f.sub.toNat < 3) (fb : s.field f.opb f.tb 0 .flt = .ok b)
    (h : Claims.laneReady (.vfsgn c f) s f.opd d [(f.opa, a), (f.opb, b)] u) :
    exec (.vfsgn c f) s = .next (u.mapLanes f.msk d fun _ r st =>
      ⟨(if x.val (a.get r) = .nan then x.nanBits.getD 0
        else x.signed (if f.sub = 0 then b.signBit r else if f.sub = 1 then !b.signBit r else a.signBit r != b.signBit r)
          (a.get r % 2 ^ (x.width - 1))) % 2 ^ d.width, false, st⟩).advance := by
  have takesB : ¬(decide (f.sub = 3) || decide (f.sub = 4)) = true := by
    rw [Bool.or_eq_true, decide_eq_true_iff, decide_eq_true_iff]
    rintro (e | e) <;> exact absurd sub (by rw [e]; decide)
  rw [exec_vfsgn_run hg start fd fa hd ha, if_neg takesB, fb, act_ok_bind]
  simp only [signPattern_flt, signOf_two sub]
  exact settle_lanewise _ h

theorem exec_vfsgn_one {x : Flt} (hg : s.guard c = true) (start : s.vecStart (.vfsgn c f) = .ok ())
    (fd : s.field f.opd f.ta 0 .flt = .ok d) (fa : s.field f.opa f.ta 0 .flt = .ok a) (hd : d.ty = .flt x)
    (ha : a.ty = .flt x) (sub : f.sub = 3 ∨ f.sub = 4) (h : Claims.laneReady (.vfsgn c f) s f.opd d [(f.opa, a)] u) :
    exec (.vfsgn c f) s = .next (u.mapLanes f.msk d fun _ r st =>
      ⟨(if x.val (a.get r) = .nan then x.nanBits.getD 0
        else x.signed (f.sub == 4 && !a.signBit r) (a.get r % 2 ^ (x.width - 1))) % 2 ^ d.width, false, st⟩).advance := by
  have alone : (decide (f.sub = 3) || decide (f.sub = 4)) = true := by
    rw [Bool.or_eq_true, decide_eq_true_iff, decide_eq_true_iff]
    exact sub
  rw [exec_vfsgn_run hg start fd fa hd ha, if_pos alone]
  simp only [signPattern_flt, signOf_one sub]
  exact settle_lanewise _ h

/-! ## Block scales (R120 to R122) -/

theorem scaleField_ok {o : Operand} {t : Ty} (fb : s.field o t 0 .int = .ok b) (width : b.width = 12) :
    s.scaleField o t = .ok b := by
  rw [State.scaleField, fb, act_ok_bind, if_pos width]

theorem scaleField_refused {o : Operand} {t : Ty} (fb : s.field o t 0 .int = .ok b) (width : b.width ≠ 12) :
    s.scaleField o t = trapField s .operandClass o (vreg o) := by
  rw [State.scaleField, fb, act_ok_bind, if_neg width, field_reg fb]

theorem exec_vfscl (hg : s.guard c = true) (start : s.vecStart (.vfscl c f) = .ok ())
    (fd : s.field f.opd f.ta 0 .flt = .ok d) (fa : s.field f.opa f.ta 0 .flt = .ok a)
    (fb : s.field f.opb f.tb 0 .int = .ok b) (sat : f.sat = true → satType d.ty = true) (width : b.width = 12)
    (h : Claims.laneReady (.vfscl c f) s f.opd d [(f.opa, a), (f.opb, b)] u) :
    exec (.vfscl c f) s = .next (u.mapLanes f.msk d fun _ r st =>
      d.ty.convert (.f (if f.sub = 0 then scaleMul (a.num r) (b.get r) else scaleDiv (a.num r) (b.get r)))
        (s.rm f.rm) f.sat st).advance := by
  change execVfscl c f s = _
  rw [execVfscl, run_true _ hg, start, fd, fa, scaleField_ok fb width, act_ok_bind, act_ok_bind, act_ok_bind, act_ok_bind,
    checkRmSat_ok (.inr rfl) sat, act_ok_bind]
  exact settle_lanewise _ h

theorem exec_vfscl_refused (hg : s.guard c = true) (start : s.vecStart (.vfscl c f) = .ok ())
    (fd : s.field f.opd f.ta 0 .flt = .ok d) (fa : s.field f.opa f.ta 0 .flt = .ok a)
    (fb : s.field f.opb f.tb 0 .int = .ok b) (width : b.width ≠ 12) :
    exec (.vfscl c f) s = .next (s.takeTrap
      { cause := .operandClass, val := f.opb.code.setWidth 64, idx0 := BitVec.ofNat 64 (vreg f.opb).val }) := by
  change execVfscl c f s = _
  rw [execVfscl, run_true _ hg, start, fd, fa, scaleField_refused fb width]
  rfl

theorem exec_vfnb8_pack (hg : s.guard c = true) (start : s.vecStart (.vfnb8 c f) = .ok ()) (pack : f.sub = 0)
    (fe : s.rawField f.opd (nb8Elem f.ta).width = .ok e) (fa : s.field f.opa f.tb 0 .any = .ok a)
    (fs : s.rawField f.opb 12 = .ok sc) (apart : (e.disjoint sc && e.disjoint a && sc.disjoint a) = true)
    (streamD : s.checkStream f.opd (.vfnb8 c f) = .ok ()) (streamB : s.checkStream f.opb (.vfnb8 c f) = .ok ())
    (pops : s.popAll [f.opa] = .ok u) :
    exec (.vfnb8 c f) s = .next (u.packAll f.msk e a sc (nb8Elem f.ta) (u.rm f.rm)).advance := by
  change execVfnb8 c f s = _
  rw [execVfnb8, run_true _ hg]
  dsimp only
  rw [start, act_ok_bind, if_pos pack, fe, fa, fs, act_ok_bind, act_ok_bind, act_ok_bind, apart,
    if_neg (by decide : ¬(!true) = true), streamD, streamB, pops]
  rfl

theorem exec_vfnb8_unpack (hg : s.guard c = true) (start : s.vecStart (.vfnb8 c f) = .ok ()) (unpack : f.sub ≠ 0)
    (fd : s.field f.opd f.tb 0 .any = .ok d) (fe : s.rawField f.opa (nb8Elem f.ta).width = .ok e)
    (fs : s.rawField f.opb 12 = .ok sc) (sat : f.sat = true → satType d.ty = true)
    (apart : (d.disjoint e && d.disjoint sc) = true)
    (h : Claims.laneReady (.vfnb8 c f) s f.opd d [(f.opa, e), (f.opb, sc)] u) :
    exec (.vfnb8 c f) s = .next (u.mapLanes f.msk d fun _ r st =>
      d.ty.convert (.f (unpackVal (nb8Elem f.ta) (e.get r) (sc.get r))) (s.rm f.rm) f.sat st).advance := by
  change execVfnb8 c f s = _
  rw [execVfnb8, run_true _ hg]
  dsimp only
  rw [start, act_ok_bind, if_neg unpack, fd, fe, fs, act_ok_bind, act_ok_bind, act_ok_bind,
    checkRmSat_ok (.inr rfl) sat, act_ok_bind, apart, if_neg (by decide : ¬(!true) = true)]
  exact settle_lanewise _ h

end

end Sys2Proof.Machine

namespace Sys2Proof.Proofs
open Sys2Proof Sys2Proof.Machine Sys2Proof.Claims

/-- Settles O16: the rounded forms by the lemma on their shape, each other form by its own. -/
theorem vectorFloatResults : Obligations.VectorFloatResults := by
  unfold Obligations.VectorFloatResults
  refine ⟨fun c f s hg => ⟨?two, ?one, fun a b u => exec_vfcmp hg, fun d a u => exec_vfcvt hg⟩,
    fun c f s hg => ⟨fun d a b x u => exec_vfsgn_two hg, fun d a x u => exec_vfsgn_one hg,
      fun d a b u start fd fa fb sat => ⟨exec_vfscl hg start fd fa fb sat, exec_vfscl_refused hg start fd fa fb⟩,
      fun e a sc u => exec_vfnb8_pack hg, fun d e sc u => exec_vfnb8_unpack hg⟩⟩
  case two =>
    simp only [List.forall_mem_cons, List.not_mem_nil, false_imp_iff, implies_true, and_true]
    exact ⟨fun d a b u h => (run_flt2 (show execVfadd c f s = _ from run_true _ hg) h :),
      fun d a b u h => (run_flt2 (show execVfsub c f s = _ from run_true _ hg) h :),
      fun d a b u h => (run_flt2 (show execVfmul c f s = _ from run_true _ hg) h :),
      fun d a b u h => (run_flt2 (show execVffma c f s = _ from run_true _ hg) h :),
      fun d a b u h => (run_flt2 (show execVfmm c f s = _ from run_true _ hg) h :)⟩
  case one =>
    simp only [List.forall_mem_cons, List.not_mem_nil, false_imp_iff, implies_true, and_true]
    exact ⟨fun d a u h => (run_flt1 (show execVfexp2 c f s = _ from run_true _ hg) h :),
      fun d a u h => (run_flt1 (show execVfrcp c f s = _ from run_true _ hg) h :)⟩

end Sys2Proof.Proofs
end

section
/-! SUPPORT. `acnt`, `afirst`, `aext` and `atopk`: the first and the last of the lanes, the ordering keys as bit vectors, what the
selection bit by bit takes and leaves, and what each form answers (R129 to R131), with the statement about them. -/

namespace Sys2Proof.Machine

/-! ## Positions (R129, R130) -/

/-- A member of a sorted list before which no member stands is its head. -/
theorem head?_eq_some_of_first {l : List Nat} {R : Nat → Nat → Prop} {i : Nat} (sorted : l.Pairwise R) (hi : i ∈ l)
    (first : ∀ j ∈ l, ¬ R j i) : l.head? = some i := by
  cases l with
  | nil => exact absurd hi List.not_mem_nil
  | cons a t =>
    rcases List.mem_cons.1 hi with rfl | later
    · rfl
    · exact absurd (List.rel_of_pairwise_cons sorted later) (first a List.mem_cons_self)

theorem head?_eq_some_of_least {l : List Nat} {i : Nat} (sorted : l.Pairwise (· < ·)) (hi : i ∈ l) (least : ∀ j ∈ l, i ≤ j) :
    l.head? = some i :=
  head?_eq_some_of_first sorted hi fun j hj => Nat.not_lt.2 (least j hj)

theorem getLast?_eq_some_of_greatest {l : List Nat} {i : Nat} (sorted : l.Pairwise (· < ·)) (hi : i ∈ l)
    (greatest : ∀ j ∈ l, j ≤ i) : l.getLast? = some i := by
  rw [← List.head?_reverse]
  exact head?_eq_some_of_first (List.pairwise_reverse.2 sorted) (List.mem_reverse.2 hi)
    fun j hj => Nat.not_lt.2 (greatest j (List.mem_reverse.1 hj))

theorem find?_beq_of_mem {l : List Nat} {n : Nat} (h : n ∈ l) : l.find? (· == n) = some n := by
  cases found : l.find? (· == n) with
  | none => exact absurd (beq_self_eq_true n) (List.find?_eq_none.1 found n h)
  | some m => rw [beq_iff_eq.1 (List.find?_some (p := (· == n)) found)]

theorem find?_beq_of_not_mem {l : List Nat} {n : Nat} (h : n ∉ l) : l.find? (· == n) = none :=
  List.find?_eq_none.2 fun _ hm e => h (beq_iff_eq.1 e ▸ hm)

theorem State.active_sorted (s : State) (m : Fin 6) : (s.active m).Pairwise (· < ·) :=
  List.pairwise_lt_range.filter _

theorem State.tagged_sorted (s : State) (m j : Fin 6) : (s.tagged m j).Pairwise (· < ·) :=
  (s.active_sorted m).filter _

/-! ## Ordering keys (Table 8-3) -/

theorem Num.isNaN_iff (x : Num) : x.isNaN = true ↔ x = .nan := by
  cases x <;> simp [Num.isNaN]

/-- A pattern with its top bit inverted. -/
theorem toNat_flipTop {w b : Nat} (hw : 1 ≤ w) (hb : b < 2 ^ w) :
    (BitVec.ofNat w b ^^^ BitVec.twoPow w (w - 1)).toNat = b ^^^ 2 ^ (w - 1) := by
  rw [BitVec.toNat_xor, BitVec.toNat_ofNat, Nat.mod_eq_of_lt hb, BitVec.toNat_twoPow_of_lt (by omega)]

/-- Under `.min` the bits of a key are inverted. -/
theorem invertedKey_eq {w : Nat} (smallest : Bool) (n : BitVec w) :
    (if smallest then (some n.toNat).map fun k => 2 ^ w - 1 - k else some n.toNat) =
      some (if smallest then ~~~n else n).toNat := by
  cases smallest with
  | false => rfl
  | true => exact congrArg some BitVec.toNat_not.symm

section
variable (smallest : Bool)

theorem orderKey_unsigned (w b : Nat) : orderKey (.int false w) smallest b =
    some (if smallest then ~~~BitVec.ofNat w b else BitVec.ofNat w b).toNat := by
  rw [← invertedKey_eq, BitVec.toNat_ofNat]
  rfl

theorem orderKey_signed {w b : Nat} (hw : 1 ≤ w) (hb : b < 2 ^ w) :
    let flipped := BitVec.ofNat w b ^^^ BitVec.twoPow w (w - 1)
    orderKey (.int true w) smallest b = some (if smallest then ~~~flipped else flipped).toNat := by
  dsimp only
  rw [← invertedKey_eq, toNat_flipTop hw hb]
  simp only [orderKey, NTy.width, Nat.mod_eq_of_lt hb]

/-- The key of a floating pattern: the sign bit inverted when it is 0, all bits when it is 1, and none of a NaN. -/
theorem orderKey_flt {w b : Nat} {x : Flt} (hw : 1 ≤ w) (hb : b < 2 ^ w) (hx : x.width = w) :
    let p := BitVec.ofNat w b
    let key := if p.msb then ~~~p else p ^^^ BitVec.twoPow w (w - 1)
    orderKey (.flt x) smallest b = if x.val b = .nan then none else some (if smallest then ~~~key else key).toNat := by
  subst hx
  intro p key
  have toNat_p : p.toNat = b := by rw [BitVec.toNat_ofNat, Nat.mod_eq_of_lt hb]
  have toNat_key : key.toNat = if b < 2 ^ (x.width - 1) then b ^^^ 2 ^ (x.width - 1) else 2 ^ x.width - 1 - b := by
    have sign : p.msb = true ↔ ¬ b < 2 ^ (x.width - 1) := by
      rw [BitVec.msb_eq_decide, toNat_p, decide_eq_true_iff, Nat.not_lt]
    by_cases low : b < 2 ^ (x.width - 1)
    · rw [if_pos low, ← toNat_flipTop hw hb]
      exact congrArg BitVec.toNat (if_neg fun h => sign.1 h low)
    · rw [if_neg low, ← toNat_p, ← BitVec.toNat_not]
      exact congrArg BitVec.toNat (if_pos (sign.2 low))
  rw [← invertedKey_eq, toNat_key]
  simp only [orderKey, NTy.width, Nat.mod_eq_of_lt hb, Num.isNaN_iff]
  by_cases nan : x.val b = .nan
  · simp [nan]
  · simp [nan]

end

/-! ## Selection (R131) -/

/-- The first of two candidates ranks above the second by the low b bits of their keys, or by position when these are
equal. -/
def ranksAbove (b : Nat) (x y : Nat × Nat) : Prop :=
  y.2 % 2 ^ b < x.2 % 2 ^ b ∨ (y.2 % 2 ^ b = x.2 % 2 ^ b ∧ x.1 < y.1)

theorem mod_two_pow_succ (n b : Nat) : n % 2 ^ (b + 1) = n % 2 ^ b + 2 ^ b * (n.testBit b).toNat := by
  rw [Nat.mod_pow_succ, Nat.toNat_testBit]

theorem ranksAbove_of_bit {b : Nat} {x y : Nat × Nat} (hx : x.2.testBit b = true) (hy : y.2.testBit b = false) :
    ranksAbove (b + 1) x y := by
  have bound : y.2 % 2 ^ b < 2 ^ b := Nat.mod_lt _ (Nat.two_pow_pos b)
  refine .inl ?_
  rw [mod_two_pow_succ, mod_two_pow_succ, hx, hy, Bool.toNat_true, Bool.toNat_false]
  omega

theorem ranksAbove_of_same_bit {b : Nat} {x y : Nat × Nat} (same : y.2.testBit b = x.2.testBit b) (h : ranksAbove b x y) :
    ranksAbove (b + 1) x y := by
  rw [ranksAbove, mod_two_pow_succ, mod_two_pow_succ, same, Nat.add_lt_add_iff_right, Nat.add_left_inj]
  exact h

/-- What is taken and what is left of candidates, for a selection of so many by the low b bits of the keys. -/
structure Splits (b : Nat) (cand : List (Nat × Nat)) (need : Nat) (taken left : List (Nat × Nat)) : Prop where
  all : (taken ++ left).Perm cand
  size : taken.length = min need cand.length
  ranked : ∀ x ∈ taken, ∀ y ∈ left, ranksAbove b x y

section
variable {b need : Nat} {cand taken left : List (Nat × Nat)}

/-- With no bit left to compare, the lower positions are taken. -/
theorem Splits.take_drop (positions : cand.Pairwise fun x y => x.1 < y.1) :
    Splits 0 cand need (cand.take need) (cand.drop need) where
  all := .of_eq (List.take_append_drop need cand)
  size := List.length_take
  ranked x hx y hy := by
    rw [← List.take_append_drop need cand] at positions
    exact .inr ⟨by rw [Nat.pow_zero, Nat.mod_one, Nat.mod_one], (List.pairwise_append.1 positions).2.2 x hx y hy⟩

/-- The candidates whose bit b is 1 are all taken, and the rest of the selection is made among the others. -/
theorem Splits.of_take (few : (cand.filter fun x => x.2.testBit b).length ≤ need)
    (h : Splits b (cand.filter fun x => !x.2.testBit b) (need - (cand.filter fun x => x.2.testBit b).length) taken left) :
    Splits (b + 1) cand need ((cand.filter fun x => x.2.testBit b) ++ taken) left where
  all := by
    rw [List.append_assoc]
    exact (h.all.append_left _).trans (List.filter_append_perm _ cand)
  size := by
    have total := (List.filter_append_perm (fun x => x.2.testBit b) cand).length_eq
    rw [List.length_append] at total ⊢
    rw [h.size]
    omega
  ranked x hx y hy := by
    have low : ∀ z ∈ taken ++ left, z.2.testBit b = false := fun z hz => by
      simpa using (List.mem_filter.1 (h.all.subset hz)).2
    have lowY := low y (List.mem_append_right _ hy)
    rcases List.mem_append.1 hx with high | later
    · exact ranksAbove_of_bit (List.mem_filter.1 high).2 lowY
    · exact ranksAbove_of_same_bit (lowY.trans (low x (List.mem_append_left _ later)).symm) (h.ranked x later y hy)

/-- The selection is made among the candidates whose bit b is 1, and the others are left. -/
theorem Splits.of_narrow (many : need < (cand.filter fun x => x.2.testBit b).length)
    (h : Splits b (cand.filter fun x => x.2.testBit b) need taken left) :
    Splits (b + 1) cand need taken (left ++ cand.filter fun x => !x.2.testBit b) where
  all := by
    rw [← List.append_assoc]
    exact (h.all.append_right _).trans (List.filter_append_perm _ cand)
  size := by
    have within := List.length_filter_le (fun x => x.2.testBit b) cand
    rw [h.size]
    omega
  ranked x hx y hy := by
    have high : ∀ z ∈ taken ++ left, z.2.testBit b = true := fun z hz => (List.mem_filter.1 (h.all.subset hz)).2
    have highX := high x (List.mem_append_left _ hx)
    rcases List.mem_append.1 hy with kept | low
    · exact ranksAbove_of_same_bit ((high y (List.mem_append_right _ kept)).trans highX.symm) (h.ranked x hx y kept)
    · exact ranksAbove_of_bit highX (by simpa using (List.mem_filter.1 low).2)

end

/-- The selection takes as many candidates as it needs or finds, and ranks each above those that it leaves. -/
theorem selectTop_splits (b : Nat) (cand : List (Nat × Nat)) (need : Nat) (positions : cand.Pairwise fun x y => x.1 < y.1) :
    ∃ taken left, selectTop b cand need = taken.map Prod.fst ∧ Splits b cand need taken left := by
  induction b generalizing cand need with
  | zero => exact ⟨_, _, rfl, .take_drop positions⟩
  | succ b ih =>
    by_cases few : (cand.filter fun x => x.2.testBit b).length ≤ need
    · obtain ⟨taken, left, sel, h⟩ := ih _ (need - (cand.filter fun x => x.2.testBit b).length)
        (positions.filter fun x => !x.2.testBit b)
      refine ⟨_, _, ?_, h.of_take few⟩
      rw [selectTop, if_pos few, sel, List.map_append]
    · obtain ⟨taken, left, sel, h⟩ := ih _ need (positions.filter fun x => x.2.testBit b)
      refine ⟨_, _, ?_, h.of_narrow (Nat.not_le.1 few)⟩
      rw [selectTop, if_neg few, sel]

/-- Candidates at the same position are one. -/
theorem eq_of_same_position {cand : List (Nat × Nat)} (positions : cand.Pairwise fun x y => x.1 < y.1) {x y : Nat × Nat}
    (hx : x ∈ cand) (hy : y ∈ cand) (same : x.1 = y.1) : x = y := by
  obtain ⟨i, hi, rfl⟩ := List.getElem_of_mem hx
  obtain ⟨j, hj, rfl⟩ := List.getElem_of_mem hy
  have ordered := List.pairwise_iff_getElem.1 positions
  rcases Nat.lt_trichotomy i j with lower | rfl | higher
  · exact absurd same (Nat.ne_of_lt (ordered i j hi hj lower))
  · rfl
  · exact absurd same.symm (Nat.ne_of_lt (ordered j i hj hi higher))

theorem selectTop_spec (b : Nat) (cand : List (Nat × Nat)) (k : Nat) (positions : cand.Pairwise fun x y => x.1 < y.1)
    (keys : ∀ x ∈ cand, x.2 < 2 ^ b) :
    let sel := selectTop b cand k
    sel.length = min k cand.length ∧ (∀ i ∈ sel, ∃ key, (i, key) ∈ cand) ∧
    ∀ x ∈ cand, x.1 ∈ sel → ∀ y ∈ cand, y.1 ∉ sel → y.2 < x.2 ∨ (y.2 = x.2 ∧ x.1 < y.1) := by
  obtain ⟨taken, left, sel, h⟩ := selectTop_splits b cand k positions
  have isCand : ∀ z ∈ taken, z ∈ cand := fun z hz => h.all.subset (List.mem_append_left _ hz)
  rw [sel]
  refine ⟨by rw [List.length_map, h.size], fun i hi => ?_, fun x hx takenX y hy leftY => ?_⟩
  · obtain ⟨z, hz, rfl⟩ := List.mem_map.1 hi
    exact ⟨z.2, isCand z hz⟩
  · obtain ⟨z, hz, same⟩ := List.mem_map.1 takenX
    obtain rfl : z = x := eq_of_same_position positions (isCand z hz) hx same
    have hy' : y ∈ left := (List.mem_append.1 (h.all.mem_iff.2 hy)).resolve_left fun t => leftY (List.mem_map_of_mem t)
    have ranked := h.ranked z hz y hy'
    rw [ranksAbove, Nat.mod_eq_of_lt (keys z hx), Nat.mod_eq_of_lt (keys y hy)] at ranked
    exact ranked

/-! ## What each form answers (R129 to R131) -/

/-- The lane from which `aext` reads: the lowest active one, or the one of a position. -/
def State.extractLane (s : State) (f : FX) : Option Nat :=
  if f.sub = 0 then (s.active f.msk).head? else (s.active f.msk).find? fun i => i == (s.val f.opb).toNat

/-- What `aext` reads of a lane: an integer by its value, a floating pattern as it stands. -/
def State.elementWord (s : State) (a : Fld) (i : Nat) : Word :=
  match a.ty with
  | .int _ _ => BitVec.ofInt 64 (a.int (s.core.row (s.lane i)))
  | .flt _ => BitVec.ofNat 64 (a.get (s.core.row (s.lane i)))

theorem State.extractLane_of_empty {s : State} {f : FX} (h : s.active f.msk = []) : s.extractLane f = none := by
  rw [State.extractLane, h]
  exact ite_self none

theorem State.extractLane_of_inactive {s : State} {f : FX} (hs : f.sub ≠ 0) (h : (s.val f.opb).toNat ∉ s.active f.msk) :
    s.extractLane f = none := by
  rw [State.extractLane, if_neg hs, find?_beq_of_not_mem h]

theorem State.extractLane_of_active {s : State} {f : FX} {i : Nat} (hi : i ∈ s.active f.msk)
    (first : f.sub = 0 → ∀ j ∈ s.active f.msk, i ≤ j) (idx : f.sub ≠ 0 → i = (s.val f.opb).toNat) :
    s.extractLane f = some i := by
  by_cases hs : f.sub = 0
  · rw [State.extractLane, if_pos hs, head?_eq_some_of_least (s.active_sorted _) hi (first hs)]
  · rw [State.extractLane, if_neg hs, ← idx hs, find?_beq_of_mem hi]

section
variable {c : Ctl} {s u : State}

theorem exec_acnt {f : FR} (hg : s.guard c = true) (hd : Claims.destOk s f.opd) (start : s.vecStart (.acnt c f) = .ok ()) :
    exec (.acnt c f) s =
      .next (s.putS f.opd (BitVec.ofNat 64 (s.tagged f.msk (mreg f.opa)).length)).advance := by
  change execAcnt c f s = _
  rw [execAcnt, run_true _ hg, checkDest_ok hd, start]
  rfl

theorem exec_afirst {f : FR} (hg : s.guard c = true) (hd : Claims.destOk s f.opd)
    (start : s.vecStart (.afirst c f) = .ok ()) :
    let l := s.tagged f.msk (mreg f.opa)
    exec (.afirst c f) s = .next (s.putS f.opd
      (((if f.sub = 0 then l.head? else l.getLast?).map (BitVec.ofNat 64)).getD (BitVec.allOnes 64))).advance := by
  change execAfirst c f s = _
  rw [execAfirst, run_true _ hg, checkDest_ok hd, start]
  rfl

theorem exec_aext {f : FX} {a : Fld} (hg : s.guard c = true) (hd : Claims.destOk s f.opd)
    (start : s.vecStart (.aext c f) = .ok ()) (fa : s.field f.opa .fm 0 .any = .ok a) (pops : s.popAll [f.opa] = .ok u) :
    exec (.aext c f) s = .next (u.putS f.opd (((u.extractLane f).map (u.elementWord a)).getD 0)).advance := by
  change execAext c f s = _
  rw [execAext, run_true _ hg, checkDest_ok hd, start, fa, act_ok_bind, act_ok_bind, act_ok_bind, pops, act_ok_bind]
  change (.next (u.putS f.opd (match u.extractLane f with | none => 0 | some i => u.elementWord a i)).advance : Out) = _
  cases u.extractLane f <;> rfl

theorem exec_atopk {f : FX} {a : Fld} (hg : s.guard c = true) (start : s.vecStart (.atopk c f) = .ok ())
    (fa : s.field f.opa .fm 0 .any = .ok a) (pops : s.popAll [f.opa] = .ok u) :
    let cand := (u.active f.msk).filterMap fun i =>
      (orderKey a.ty (f.sub == 1) (a.get (u.core.row (u.lane i)))).map fun key => (i, key)
    exec (.atopk c f) s = .next (u.putTags (mreg f.opd) ((List.range u.slen).map fun i =>
      (i, (selectTop a.width cand (u.val f.opb).toNat).contains i))).advance := by
  change execAtopk c f s = _
  rw [execAtopk, run_true _ hg, start, fa, act_ok_bind, act_ok_bind, pops]
  rfl

end

end Sys2Proof.Machine

namespace Sys2Proof.Proofs
open Sys2Proof Sys2Proof.Machine Sys2Proof.Claims

/-- Settles O18: each form by the lemma on what it answers, the keys by type, and the selection by what it takes and leaves. -/
theorem countExtractAndSelect : Obligations.CountExtractAndSelect := by
  unfold Obligations.CountExtractAndSelect
  refine ⟨fun c s hg => ⟨fun f hd => ⟨exec_acnt hg hd, fun start => ⟨_, exec_afirst hg hd start, ?none, ?position⟩⟩,
      fun f a u hd start fa pops => ⟨_, exec_aext hg hd start fa pops, ?empty, ?inactive, ?element⟩⟩,
    fun c f s u a hg => exec_atopk hg, ?keys, selectTop_spec⟩
  case none =>
    intro empty
    change s.tagged f.msk (mreg f.opa) = [] at empty
    rw [empty]
    exact congrArg (fun x => (x.map (BitVec.ofNat 64)).getD (BitVec.allOnes 64)) (ite_self Option.none)
  case position =>
    intro i hi
    have sorted := s.tagged_sorted f.msk (mreg f.opa)
    refine ⟨fun low least => ?_, fun high greatest => ?_⟩
    · rw [if_pos low, head?_eq_some_of_least sorted hi least]
      rfl
    · rw [if_neg high, getLast?_eq_some_of_greatest sorted hi greatest]
      rfl
  case empty =>
    intro empty
    rw [State.extractLane_of_empty empty]
    rfl
  case inactive =>
    intro idx absent
    rw [State.extractLane_of_inactive idx absent]
    rfl
  case element =>
    intro i hi first idx
    rw [State.extractLane_of_active hi first idx]
    rfl
  case keys =>
    intro smallest w b hw hb
    exact ⟨orderKey_unsigned smallest w b, orderKey_signed smallest hw hb, fun x => orderKey_flt smallest hw hb⟩

end Sys2Proof.Proofs
end

section
/-! SUPPORT. `mand`, `mor`, `mxor`, `mnot`, `ahamm` and `vhash`: what each answers once its checks pass (R132, R133, R137), with the
statement about them. -/

namespace Sys2Proof.Machine

section
variable {c : Ctl} {f : FR} {i : Instr} {s u : State} {d a : Fld}

theorem run_maskOp {o : Out} {op : Bool → Bool → Bool} (ho : o = settle (maskOp i f op s)) (start : s.vecStart i = .ok ())
    (pops : s.popAll [] = .ok u) :
    o = .next (u.mapTags f.msk (mreg f.opd) fun p r =>
      op (tagOf s.cur.lc s.slen (mreg f.opa) p r) (tagOf s.cur.lc s.slen (mreg f.opb) p r)).advance := by
  rw [ho, maskOp, start, act_ok_bind, tagwise_ok _ pops]
  rfl

/-- The bits in which a number and a word differ. -/
theorem onesOf_xor_word (n : Nat) (b : Word) (w : Nat) :
    onesOf (n ^^^ b.toNat) w = (List.range w).countP fun j => xor (n.testBit j) (b.getLsbD j) := by
  simp only [onesOf_eq_countP, Nat.testBit_xor, BitVec.testBit_toNat]

theorem exec_ahamm (hg : s.guard c = true) (start : s.vecStart (.ahamm c f) = .ok ())
    (fd : s.field f.opd f.ta f.wid.toNat .int = .ok d) (fa : s.field f.opa .fm 0 .any = .ok a)
    (h : Claims.laneReady (.ahamm c f) s f.opd d [(f.opa, a)] u) :
    exec (.ahamm c f) s = .next (u.mapLanes f.msk d fun _ r st =>
      fitTo d.ty f.sat (onesOf (a.get r ^^^ (s.val f.opb).toNat) a.width : Nat) st).advance := by
  change execAhamm c f s = _
  rw [execAhamm, run_true _ hg, start, fd, fa, act_ok_bind, act_ok_bind, act_ok_bind]
  exact settle_lanewise _ h

theorem exec_vhash_refused (hg : s.guard c = true) (start : s.vecStart (.vhash c f) = .ok ())
    (fd : s.field f.opd .fm 0 .int = .ok d) (fa : s.field f.opa .fm 0 .int = .ok a) (width : d.width ≠ 64) :
    exec (.vhash c f) s = .next (s.takeTrap
      { cause := .operandClass, val := f.opd.code.setWidth 64, idx0 := BitVec.ofNat 64 d.reg.val }) := by
  change execVhash c f s = _
  rw [execVhash, run_true _ hg, start, fd, fa, act_ok_bind, act_ok_bind, act_ok_bind, if_pos (bne_iff_ne.2 width)]
  rfl

theorem exec_vhash (hg : s.guard c = true) (start : s.vecStart (.vhash c f) = .ok ())
    (fd : s.field f.opd .fm 0 .int = .ok d) (fa : s.field f.opa .fm 0 .int = .ok a) (width : d.width = 64)
    (h : Claims.laneReady (.vhash c f) s f.opd d [(f.opa, a)] u) :
    exec (.vhash c f) s = .next (u.putLanes d ((leaders u.slen (segOrder f.opb)).map fun l =>
      (l, (((u.active f.msk).filter fun i => decide (l ≤ i ∧ i < l + 2 ^ segOrder f.opb)).foldl
        (fun h i => hMix h (BitVec.ofNat 64 (a.get (u.core.row (u.lane i)))))
        (BitVec.ofNat 64 (d.get (u.core.row (u.lane l))))).toNat))).advance := by
  obtain ⟨overlap, stream, pops⟩ := h
  rw [List.map_cons, List.map_nil] at overlap pops
  change execVhash c f s = _
  rw [execVhash, run_true _ hg, start, fd, fa, act_ok_bind, act_ok_bind, act_ok_bind,
    if_neg (fun differs => bne_iff_ne.1 differs width), overlap, stream, act_ok_bind, act_ok_bind, pops]
  rfl

end

end Sys2Proof.Machine

namespace Sys2Proof.Proofs
open Sys2Proof Sys2Proof.Machine Sys2Proof.Claims

/-- Settles O20: mask logic by the lemma on its shape, `ahamm` and `vhash` each by its own. -/
theorem maskLogicResults : Obligations.MaskLogicResults := by
  unfold Obligations.MaskLogicResults
  refine ⟨?mask, fun c f s hg => ⟨fun d a u start fd fa h => ⟨_, exec_ahamm hg start fd fa h, fun r => onesOf_xor_word _ _ _⟩,
    fun d a u start fd fa => ⟨exec_vhash_refused hg start fd fa, exec_vhash hg start fd fa⟩⟩⟩
  case mask =>
    simp only [List.forall_mem_cons, List.not_mem_nil, false_imp_iff, implies_true, and_true]
    exact ⟨fun c f s u hg start pops => (run_maskOp (show execMand c f s = _ from run_true _ hg) start pops :),
      fun c f s u hg start pops => (run_maskOp (show execMor c f s = _ from run_true _ hg) start pops :),
      fun c f s u hg start pops => (run_maskOp (show execMxor c f s = _ from run_true _ hg) start pops :),
      fun c f s u hg start pops => (run_maskOp (show execMnot c f s = _ from run_true _ hg) start pops :)⟩

end Sys2Proof.Proofs
end

section
/-! SUPPORT. `msetmvl`, the token forms, and the clearing and zero-flag forms: what a token's consumption answers, what clearing
leaves of cells, tile bytes and weight rows, with the statement about them (R139 to R144, R151 to R154, R157). -/

namespace Sys2Proof.Machine

/-! ## Tables and bytes with keys removed -/

theorem look_filter_key {α : Type} (p : Nat → Bool) (m : List (Nat × α)) (k : Nat) :
    look (m.filter fun x => p x.1) k = if p k then look m k else none := by
  induction m with
  | nil => simp
  | cons x t ih =>
    obtain ⟨a, v⟩ := x
    by_cases ha : a = k
    · subst ha
      cases hp : p a <;> simp [look, hp, ih]
    · cases hp : p a <;> simp [look, hp, ih, ha]

theorem rdByte_filter_key (p : Nat → Bool) (m : Memory) (a : Nat) :
    rdByte (m.filter fun x => p x.1) a = if p a then rdByte m a else 0 := by
  rw [rdByte, lookD, look_filter_key]
  split <;> rfl

theorem rdVal_of_zeros (m : Memory) (a n : Nat) (h : ∀ b, a ≤ b → b < a + n → rdByte m b = 0) : rdVal m a n = 0 := by
  rw [rdVal]
  induction n generalizing a with
  | zero => rfl
  | succ n ih =>
    rw [rdBytes, leVal, h a (by omega) (by omega), ih (a + 1) fun b lo hi => h b (by omega) (by omega)]
    rfl

/-! ## Weight rows of zero bytes (R140) -/

theorem Flt.val_zero (x : Flt) : x.val 0 = .zero (decide (2 ^ (x.width - 1) ≤ 0)) := by simp [Flt.val]

theorem valNonFinite_val_zero (t : NTy) : valNonFinite (t.val 0) = false := by
  cases t with
  | int signed w => rfl
  | flt x => rw [NTy.val, Flt.val_zero]; rfl

/-- A weight row whose bytes are all zero holds no non-finite value. -/
theorem Core.nonFiniteRow_of_zeros {c : Core} {r : MRow} {n : Nat}
    (h : ∀ col, col < 128 → ∀ b, r.slot * slotBytes + (weightByte r.fmt n col).1 ≤ b →
      b < r.slot * slotBytes + (weightByte r.fmt n col).1 + (if r.fmt < 4 then 1 else 2) → rdByte c.tiles b = 0) :
    c.nonFiniteRow r n = false := by
  refine List.any_eq_false.2 fun col hcol => ?_
  have zero : c.weight r n col = 0 := by
    rw [Core.weight, rdVal_of_zeros _ _ _ (h col (List.mem_range.1 hcol)), Nat.zero_div, Nat.zero_mod]
  rw [zero, valNonFinite_val_zero]
  exact Bool.false_ne_true

/-! ## Clearing cells (R142, R154) -/

@[simp] theorem Core.cell_setCell_same (c : Core) (x : Nat) (v : BitVec 32) : (c.setCell x v).cell x = v :=
  lookD_putOr_same ..
theorem Core.cell_setCell_ne (c : Core) {x y : Nat} (v : BitVec 32) (h : y ≠ x) : (c.setCell x v).cell y = c.cell y :=
  lookD_putOr_ne _ _ _ h

/-- What clearing cells leaves of a core: cells and their poison alone. -/
theorem Core.clearCells_frame (keys : List Nat) (c : Core) : ∃ cells poison,
    keys.foldl (fun k x => k.setCell x 0) c = { c with cells := cells, cellPoison := poison } := by
  induction keys generalizing c with
  | nil => exact ⟨c.cells, c.cellPoison, rfl⟩
  | cons a t ih =>
    obtain ⟨cells, poison, kept⟩ := ih (c.setCell a 0)
    exact ⟨cells, poison, kept⟩

theorem Core.cell_clearCells (keys : List Nat) (c : Core) (x : Nat) :
    (keys.foldl (fun k x => k.setCell x 0) c).cell x = if x ∈ keys then 0 else c.cell x := by
  induction keys generalizing c with
  | nil => rfl
  | cons a t ih =>
    rw [List.foldl_cons, ih]
    by_cases ha : x = a
    · subst ha; simp
    · simp [ha, cell_setCell_ne]

theorem Core.cellPoison_clearCells (keys : List Nat) (c : Core) (x : Nat) :
    x ∈ (keys.foldl (fun k x => k.setCell x 0) c).cellPoison ↔ x ∈ c.cellPoison ∧ x ∉ keys := by
  induction keys generalizing c with
  | nil => simp
  | cons a t ih =>
    rw [List.foldl_cons, ih, setCell, mem_setDel, List.mem_cons, not_or, and_assoc]

/-! ## Clearing a slot (R141, R154) -/

/-- What clearing a slot leaves of a core: its bytes zero, no granule of it poisoned, its flags set and stamped
with the new GEN. -/
theorem Core.clearSlot_spec (c : Core) (b : Nat) : ∃ tiles poison,
    c.clearSlot b = Core.setSlot { c with tiles := tiles, tilePoison := poison } b
      { c.slotAt b with gen := (c.slotAt b).gen + 1
                        z := .replicate 8 true
                        stamp := .replicate 8 ((c.slotAt b).gen + 1) } ∧
    (∀ a, rdByte tiles a = if b * slotBytes ≤ a ∧ a < (b + 1) * slotBytes then 0 else rdByte c.tiles a) ∧
    ∀ g, g ∈ poison ↔ g ∈ c.tilePoison ∧ ¬(b * slotBytes ≤ 16 * g ∧ 16 * g < (b + 1) * slotBytes) := by
  refine ⟨_, _, rfl, fun a => ?_, fun g => ?_⟩
  · rw [rdByte_filter_key fun a => !decide (b * slotBytes ≤ a ∧ a < (b + 1) * slotBytes)]
    by_cases inside : b * slotBytes ≤ a ∧ a < (b + 1) * slotBytes
    · rw [decide_eq_true inside, if_pos inside]
      rfl
    · rw [decide_eq_false inside, if_neg inside]
      rfl
  · rw [List.mem_filter, Bool.not_eq_true', decide_eq_false_iff_not]

/-! ## The update that a cleared core makes of the state -/

theorem State.modCore_eq_setCoreAt (s : State) (f : Core → Core) : s.modCore f = s.setCoreAt s.cur.core (f s.core) := rfl

/-! ## Tokens (R143, R157) -/

/-- The trap that consuming a failed token raises, with FAIL cleared. -/
def State.tokenTrap (s : State) (n : Fin 16) (w : Word) : State :=
  (s.modCtx fun x => x.modTok n fun k => { k with fail := none }).takeTrap
    { cause := .token, val := w, idx0 := BitVec.ofNat 64 n.val }

theorem State.consume_ok {s : State} {n : Fin 16} (h : (s.ctx.toks.get n).fail = none) : s.consume n = .ok () := by
  rw [State.consume, h]

theorem State.settle_consume_failed {s : State} {n : Fin 16} {w : Word} (h : (s.ctx.toks.get n).fail = some w)
    (rest : Unit → Act State) : settle (s.consume n >>= rest) = .next (s.tokenTrap n w) := by
  rw [State.consume, h]
  rfl

theorem Ctx.tokensIdle_iff (x : Ctx) :
    (x.toks.all fun t => t.count == 0) = true ↔ ∀ n : Fin 16, (x.toks.get n).count = 0 := by
  rw [Vector.all_eq_true]
  exact ⟨fun h n => beq_iff_eq.1 (h n n.isLt), fun h i hi => beq_iff_eq.2 (h ⟨i, hi⟩)⟩

/-! ## What each form answers (R144, R152 to R154, R157) -/

section
variable {c : Ctl} {f : FR} {s : State}

theorem exec_msetmvl (hg : s.guard c = true) (hb : s.inBody = false) :
    exec (.msetmvl c f) s = .next (s.modCtx fun x => { x with mvl := 32 * 2 ^ f.sub.toNat }).advance := by
  change execMsetmvl c f s = _
  rw [execMsetmvl, run_true _ hg, hb]
  rfl

theorem exec_msetmvl_body (hg : s.guard c = true) (hb : s.inBody = true) :
    exec (.msetmvl c f) s = .next (s.takeTrap { cause := .operandClass, val := Instr.upper (.msetmvl c f) }) := by
  change execMsetmvl c f s = _
  rw [execMsetmvl, run_true _ hg, hb]
  rfl

theorem exec_mdrain (hg : s.guard c = true) (idle : ∀ n : Fin 16, (s.ctx.toks.get n).count = 0) :
    exec (.mdrain c f) s = .next s.advance := by
  change execMdrain c f s = _
  rw [execMdrain, run_true _ hg, if_pos ((Ctx.tokensIdle_iff _).2 idle)]
  rfl

theorem exec_mdrain_waits (hg : s.guard c = true) (busy : ∃ n : Fin 16, (s.ctx.toks.get n).count ≠ 0) :
    exec (.mdrain c f) s = .next s := by
  obtain ⟨n, hn⟩ := busy
  change execMdrain c f s = _
  rw [execMdrain, run_true _ hg, if_neg fun idle => hn ((Ctx.tokensIdle_iff _).1 idle n)]
  rfl

theorem exec_mzfGet {b : Fin 32} (hg : s.guard c = true) (ha : f.opa = .b b) (hd : Claims.destOk s f.opd) :
    exec (.mzfGet c f) s = .next (s.putS f.opd (s.core.slotAt b).word).advance := by
  change execMzfGet c f s = _
  rw [execMzfGet, run_true _ hg, checkDest_ok hd, ha]
  rfl

section
variable {n : Fin 16} (hg : s.guard c = true) (ha : f.opa = .tk n)
include hg ha

/-- `mwait` once its token counts nothing. -/
theorem exec_mwait_run (done : (s.ctx.toks.get n).count = 0) :
    exec (.mwait c f) s = settle (s.consume n >>= fun _ => .ok s.advance) := by
  change execMwait c f s = _
  rw [execMwait, run_true _ hg, ha]
  dsimp only [tokReg]
  rw [if_neg (not_not_intro done)]

theorem exec_mwait_waits (owed : (s.ctx.toks.get n).count ≠ 0) : exec (.mwait c f) s = .next s := by
  change execMwait c f s = _
  rw [execMwait, run_true _ hg, ha]
  dsimp only [tokReg]
  rw [if_pos owed]
  rfl

/-- `mtok` once its token counts nothing. -/
theorem exec_mtok_run (hd : Claims.destOk s f.opd) (done : (s.ctx.toks.get n).count = 0) :
    exec (.mtok c f) s = settle (s.consume n >>= fun _ => .ok (s.putP f.opd true).advance) := by
  change execMtok c f s = _
  rw [execMtok, run_true _ hg, checkDest_ok hd, ha, act_ok_bind]
  dsimp only [tokReg]
  rw [if_neg (not_not_intro done)]

theorem exec_mtok_owed (hd : Claims.destOk s f.opd) (owed : (s.ctx.toks.get n).count ≠ 0) :
    exec (.mtok c f) s = .next (s.putP f.opd false).advance := by
  change execMtok c f s = _
  rw [execMtok, run_true _ hg, checkDest_ok hd, ha, act_ok_bind]
  dsimp only [tokReg]
  rw [if_pos owed]
  rfl

end

section
variable {cell : Nat} (hg : s.guard c = true) (start : s.vecStart (.mclrAcc c f) = .ok ())
  (hc : s.accCell f.opd (.mclrAcc c f) = .ok cell)
include hg start hc

theorem exec_mclrAcc_waits (owe : s.rowsOwe cell (s.active f.msk) = true) : exec (.mclrAcc c f) s = .next s := by
  change execMclrAcc c f s = _
  rw [execMclrAcc, run_true _ hg, start, hc, act_ok_bind, act_ok_bind]
  dsimp only
  rw [if_pos owe]
  rfl

theorem exec_mclrAcc (free : s.rowsOwe cell (s.active f.msk) = false) : exec (.mclrAcc c f) s =
    .next (s.modCore (((s.active f.msk).map (s.cellKey cell)).foldl fun k x => k.setCell x 0)).advance := by
  change execMclrAcc c f s = _
  rw [execMclrAcc, run_true _ hg, start, hc, act_ok_bind, act_ok_bind]
  dsimp only
  rw [free, if_neg Bool.false_ne_true]
  simp only [List.foldl_map]
  rfl

end

section
variable {b : Fin 32} (hg : s.guard c = true) (hd : f.opd = .b b)
include hg hd

theorem exec_mclrB_waits (held : s.core.slotFree b = false) : exec (.mclrB c f) s = .next s := by
  change execMclrB c f s = _
  rw [execMclrB, run_true _ hg, hd, Operand.idx]
  dsimp only
  rw [held]
  rfl

theorem exec_mclrB (free : s.core.slotFree b = true) :
    exec (.mclrB c f) s = .next (s.modCore fun k => k.clearSlot b).advance := by
  change execMclrB c f s = _
  rw [execMclrB, run_true _ hg, hd, Operand.idx]
  dsimp only
  rw [free]
  rfl

theorem exec_mzfScan_waits (busy : (s.core.slotAt b).busy = true) : exec (.mzfScan c f) s = .next s := by
  change execMzfScan c f s = _
  rw [execMzfScan, run_true _ hg, hd, Operand.idx]
  dsimp only
  rw [busy]
  rfl

theorem exec_mzfScan (free : (s.core.slotAt b).busy = false) :
    exec (.mzfScan c f) s = .next (s.modCore fun k => k.setSlot b
      { s.core.slotAt b with z := Vector.ofFn fun n => k.flagZero b n
                             stamp := .replicate 8 (s.core.slotAt b).gen }).advance := by
  change execMzfScan c f s = _
  rw [execMzfScan, run_true _ hg, hd, Operand.idx]
  dsimp only
  rw [if_neg (ne_true_of_eq_false free)]
  rfl

end

end

end Sys2Proof.Machine

namespace Sys2Proof.Proofs
open Sys2Proof Sys2Proof.Machine Sys2Proof.Claims

/-- Settles O21: the token forms by what consuming a token answers, the clearing forms by what clearing leaves of the core. -/
theorem matrixControlResults : Obligations.MatrixControlResults := by
  unfold Obligations.MatrixControlResults
  intro c f s hg
  refine ⟨exec_msetmvl hg, exec_msetmvl_body hg,
    fun n ha => ⟨fun done whole => ?complete, fun owed => ?owed, fun w done failed => ?failed⟩,
    exec_mdrain hg, exec_mdrain_waits hg, fun cell start hc => ⟨exec_mclrAcc_waits hg start hc, fun free => ?cells⟩,
    fun b hd => ⟨exec_mclrB_waits hg hd, fun free => ?slot⟩, fun b hd => ⟨exec_mzfScan_waits hg hd, exec_mzfScan hg hd⟩,
    fun b => exec_mzfGet hg⟩
  case complete =>
    exact ⟨by rw [exec_mwait_run hg ha done, State.consume_ok whole]; rfl,
      fun hd => by rw [exec_mtok_run hg ha hd done, State.consume_ok whole]; rfl⟩
  case owed => exact ⟨exec_mwait_waits hg ha owed, fun hd => exec_mtok_owed hg ha hd owed⟩
  case failed =>
    exact ⟨(exec_mwait_run hg ha done).trans (State.settle_consume_failed failed _),
      fun hd => (exec_mtok_run hg ha hd done).trans (State.settle_consume_failed failed _)⟩
  case cells =>
    have value := Core.cell_clearCells ((s.active f.msk).map (s.cellKey cell)) s.core
    have poisoned := Core.cellPoison_clearCells ((s.active f.msk).map (s.cellKey cell)) s.core
    obtain ⟨cells, poison, cleared⟩ := Core.clearCells_frame ((s.active f.msk).map (s.cellKey cell)) s.core
    rw [cleared] at value poisoned
    simp only [List.mem_map] at value poisoned
    exact ⟨cells, poison, by simp only [exec_mclrAcc hg start hc free, State.modCore_eq_setCoreAt, cleared],
      fun x => ⟨value x, poisoned x⟩⟩
  case slot =>
    obtain ⟨tiles, poison, cleared, bytes, granules⟩ := s.core.clearSlot_spec b
    refine ⟨tiles, poison, by simp only [exec_mclrB hg hd free, State.modCore_eq_setCoreAt, cleared],
      bytes, granules, fun r n inside => Core.nonFiniteRow_of_zeros fun col hcol a lo hi => ?_⟩
    obtain ⟨first, last⟩ := inside col hcol
    exact (bytes a).trans (if_pos ⟨Nat.le_trans first lo, Nat.lt_of_lt_of_le hi last⟩)

end Sys2Proof.Proofs
end

section
/-! SUPPORT. The start of a gang: when the scheduler brings it in (R295), the state in which each context is placed (R159,
R291), and the reads that precede its first instruction (R296). -/

namespace Sys2Proof.Machine

/-! ## The choice of the gang (R295) -/

/-- A placeable gang that goes before every other, on cores that no swap keeps, in a store that dispatches, comes in. -/
theorem exec_gangStart {s : State} {l : Launch} {g : Gang} {n : Nat} {cores : List Nat}
    (hl : s.schedule.launch? l.id = some l) (hg : l.gangs.find? (fun x => x.num == n) = some g)
    (fits : s.schedule.placeable l g cores = true) (next : s.schedule.isNext l g = true)
    (free : ∀ k ∈ cores, s.schedule.reserved k = false) (runs : s.schedule.dispatches l.quarter = true) :
    exec (.gangStart l.id n cores) s = .next (s.schedule.bringIn l g cores) := by
  change execGangStart l.id n cores s = _
  have unreserved : cores.any s.schedule.reserved = false := by simpa using free
  simp [execGangStart, hl, hg, fits, next, unreserved, runs]

theorem State.bringIn_saved (s : State) (l : Launch) {g : Gang} (cores : List Nat) (h : g.fate = .saved) :
    s.bringIn l g cores = s.restoreGang l g := if_pos h
theorem State.bringIn_waiting (s : State) (l : Launch) {g : Gang} (cores : List Nat) (h : g.fate = .waiting) :
    s.bringIn l g cores = s.startGang l g cores := if_neg (by simp [h])

/-! ## The placed context (R159, R291) -/

/-- A placed context is the launch's start state, with the steps of R296 still to be made (and R180's, on a core's first). -/
theorem State.ctxAt_putStart (s : State) (l : Launch) (g : Gang) (alone : List Nat) (k rank : Nat) :
    ∃ starting, starting ≠ 0 ∧ (s.putStart l g alone k rank).ctxAt k =
      startCtxOf l g (lcOfCtx k) (g.num * rGangSize l.record + rank) starting := by
  refine ⟨if alone.contains (coreOfCtx k) && (rLcs l.record).head? == some (lcOfCtx k) then 2 else 1, ?_, ?_⟩
  · split <;> decide
  · simp [State.putStart]

/-! ## The registers and the field map of a starting context (R296) -/

theorem startRegs_get (args : List Byte) (n gang : Nat) (grp : List Word) (i : Fin 64) : (startRegs args n gang grp).get i =
    if 1 ≤ i.val ∧ i.val ≤ 8 then w64 (wordsOf 8 args (i.val - 1))
    else if i.val = 9 then w64 n
    else if i.val = 10 then w64 gang
    else if 11 ≤ i.val ∧ i.val ≤ 14 then grp.getD (i.val - 11) 0
    else 0 := vget_ofFn _ i

theorem badEntry_eq_none {w : Window} {image : List Byte}
    (ok : ∀ n, n < 32 → entryOk w (BitVec.ofNat 32 (wordsOf 4 image n)) = true) : badEntry w image = none := by
  simpa [badEntry] using ok

theorem startMap_get {w : Window} {image : List Byte} (good : badEntry w image = none) (n : Fin 32) :
    (startMap w image).get n = entryStored (BitVec.ofNat 32 (wordsOf 4 image n.val)) := by
  have within : n.val < (badEntry w image).getD 32 := by
    rw [good]
    exact n.isLt
  exact (vget_ofFn _ n).trans (if_pos within)

/-- The refresh, the image and the argument block read, and no entry that R78 refuses: the start is complete. -/
theorem State.loadStart_ok {s u v w : State} {r : Rec} {image args : List Byte} (grp : List Word)
    (refreshed : s.refresh s.key .device = .ok u) (imageRead : u.scalarRead (rFmapPtr r) 128 128 = .ok (image, v))
    (argsRead : rArgPtr r = 0 ∧ args = [] ∧ w = v ∨ rArgPtr r ≠ 0 ∧
      v.scalarRead (rArgPtr r + w64 (64 * u.ctx.ten.index)) 64 64 = .ok (args, w))
    (good : badEntry u.ctx.win image = none) :
    s.loadStart r grp = .ok (w.modCtx fun c => { c with starting := 0, fmap := startMap u.ctx.win image
                                                        s := startRegs args u.ctx.ten.index c.ten.gang grp }) := by
  rcases argsRead with ⟨absent, rfl, rfl⟩ | ⟨given, read⟩
  · simp only [State.loadStart, refreshed, imageRead, act_ok_bind, if_pos absent, good]
  · simp only [State.loadStart, refreshed, imageRead, act_ok_bind, if_neg given, read, good]

end Sys2Proof.Machine

namespace Sys2Proof.Proofs
open Sys2Proof Sys2Proof.Machine

/-- Settles O42: the gang by what the scheduler brings in, each context by the state in which it is placed, and the steps
before its first instruction by what their reads give. -/
theorem gangStarts : Obligations.GangStarts := by
  unfold Obligations.GangStarts
  refine ⟨fun s l g n cores => ?chosen, fun s l g alone k rank => ?placed,
    fun s u v w r grp image args refreshed imageRead argsRead entries => ?begun⟩
  case chosen =>
    intro _ hl hg fits next free running
    have comesIn := exec_gangStart hl hg fits next free (by rw [State.dispatches, running]; rfl)
    exact ⟨fun waiting => by rw [comesIn, State.bringIn_waiting _ l cores waiting],
      fun saved => by rw [comesIn, State.bringIn_saved _ l cores saved]⟩
  case placed =>
    obtain ⟨starting, owed, placed⟩ := s.ctxAt_putStart l g alone k rank
    simp only [placed]
    exact ⟨rfl, owed, rfl, rfl, rfl, rfl, rfl, rfl, rfl, rfl, rfl, rfl, rfl, rfl, rfl, rfl, rfl, rfl, rfl, rfl⟩
  case begun =>
    have good := badEntry_eq_none entries
    refine ⟨_, State.loadStart_ok grp refreshed imageRead argsRead good, ?_⟩
    rw [State.ctx_modCtx, State.modCtx_mem]
    refine ⟨rfl, rfl, startRegs_get .., fun n low high => (startRegs_get ..).trans (if_pos ⟨low, high⟩), startRegs_get ..,
      startRegs_get .., fun n low high => (startRegs_get ..).trans ?group, fun n high => (startRegs_get ..).trans ?rest,
      startMap_get good⟩
    case group => rw [if_neg (by omega), if_neg (by omega), if_neg (by omega), if_pos ⟨low, high⟩]
    case rest => rw [if_neg (by omega), if_neg (by omega), if_neg (by omega), if_neg (by omega)]

end Sys2Proof.Proofs
end

section
/-! SUPPORT. Migration: writes of the window by the owner, the copy of a sector byte by byte, and the fields of the entries that a
migration writes, with the statement about them (R188, R327 to R329). -/

namespace Sys2Proof.Machine

/-! ## Bytes read -/

theorem rdBytes_getD (m : Memory) (a : Nat) {n i : Nat} (h : i < n) : (rdBytes m a n).getD i 0 = rdByte m (a + i) := by
  induction n generalizing a i with
  | zero => omega
  | succ n ih =>
    cases i with
    | zero => rfl
    | succ i => rw [rdBytes, List.getD_cons_succ, ih (a + 1) (by omega), show a + 1 + i = a + (i + 1) by omega]

/-! ## Writes of the owner (R356) -/

/-- The response to a write that was made. -/
def State.accept (s : State) (m : Fin 4) : State := { s with owner := s.owner.setStatus m 0 0 }

@[simp] theorem State.accept_mem (s : State) (m : Fin 4) : (s.accept m).mem = s.mem := rfl
@[simp] theorem State.accept_quarter (s : State) (m q : Fin 4) : (s.accept m).quarter q = s.quarter q := rfl

section
variable {s : State} {m : Fin 4} {off : Nat} {v : Word} {f : State → Option State}

theorem State.ownerWrite_done {t : State} (own : s.owner.own = m.val) (h : f s = some t) :
    s.ownerWrite m off v f = t.accept m := by
  simp only [State.ownerWrite, own, State.anyWrite, h, if_true]
  rfl

theorem State.ownerWrite_refused (own : s.owner.own = m.val) (h : f s = none) : s.ownerWrite m off v f = s.refuse m off v 2 := by
  simp only [State.ownerWrite, own, State.anyWrite, h, if_true]

end

/-! ## MIGVA and MIGFR (R328) -/

section
variable {s : State} {m q : Fin 4} {v : Word} (own : s.owner.own = m.val)
include own

theorem exec_migvaWrite_takes (idle : (s.quarter q).migst ≠ 1) : exec (.migvaWrite m q v) s =
    .next ((s.modQuarter q fun x => { x with migva := w64 (bitsAt v 16 41 * 2 ^ 16 + bitsAt v 0 4) }).accept m) :=
  congrArg Host.Outcome.next (State.ownerWrite_done own (if_neg idle))

theorem exec_migvaWrite_refused (busy : (s.quarter q).migst = 1) :
    exec (.migvaWrite m q v) s = .next (s.refuse m (0x10030 + 0x1000 * q.val) v 2) := by
  have offset : quarterOff q 6 = 0x10030 + 0x1000 * q.val := by unfold quarterOff; omega
  rw [← offset]
  exact congrArg Host.Outcome.next (State.ownerWrite_refused own (if_pos busy))

theorem exec_migrationStart_refused (busy : (s.quarter q).migst = 1) :
    exec (.migrationStart m q v) s = .next (s.refuse m (0x10038 + 0x1000 * q.val) v 2) := by
  have offset : quarterOff q 7 = 0x10038 + 0x1000 * q.val := by unfold quarterOff; omega
  rw [← offset]
  exact congrArg Host.Outcome.next (State.ownerWrite_refused own (if_pos busy))

variable (idle : (s.quarter q).migst ≠ 1)
include idle

theorem exec_migrationStart_unfit
    (unfit : s.migratable (migAsid (s.quarter q).migva) (migPage (s.quarter q).migva) = none) :
    exec (.migrationStart m q v) s = .next ((s.modQuarter q fun x => { x with migst := 2 }).accept m) := by
  refine congrArg Host.Outcome.next (State.ownerWrite_done own ((if_neg idle).trans ?_))
  simp only [unfit]

variable {old : Nat} (fit : s.migratable (migAsid (s.quarter q).migva) (migPage (s.quarter q).migva) = some old)
include fit

theorem exec_migrationStart_badFrame (bad : s.frameBad (bitsAt v 0 24 * 65536) 65536 = true) :
    exec (.migrationStart m q v) s = .next ((s.modQuarter q fun x => { x with migst := 3 }).accept m) := by
  refine congrArg Host.Outcome.next (State.ownerWrite_done own ((if_neg idle).trans ?_))
  simp only [fit, bad, if_true]

/-- The migration that a write of MIGFR begins. -/
def Quarter.begun (x : Quarter) (old new : Nat) : Migration :=
  { va := migPage x.migva, asid := migAsid x.migva, old := old, new := new, done := 0 }

theorem exec_migrationStart_begins (good : s.frameBad (bitsAt v 0 24 * 65536) 65536 = false) :
    exec (.migrationStart m q v) s =
      .next (((s.writePte (migAsid (s.quarter q).migva) (migPage (s.quarter q).migva)
        (pteTransit old (bitsAt v 0 24 * 65536) 0)).modQuarter q fun x =>
          { x with migst := 1, migration := some ((s.quarter q).begun old (bitsAt v 0 24 * 65536)) }).accept m) := by
  refine congrArg Host.Outcome.next (State.ownerWrite_done own ((if_neg idle).trans ?_))
  simp only [fit, good, if_false, Bool.false_eq_true]
  rfl

end

/-! ## The steps of a migration (R328) -/

theorem State.invalidateThen_done {s u : State} {x : Cover} (f : State → State) (h : s.invalidate x true = .ok u) :
    s.invalidateThen x f = f u := by
  simp only [State.invalidateThen, h]

section
variable {s : State} {q : Fin 4} {g : Migration}
variable (hg : (s.quarter q).migration = some g) (goes : (s.quarter q).stopped = false)
include hg goes

theorem exec_migrationSectorCopy_first {u : State} (first : g.done = 0) (h : s.invalidate g.cover true = .ok u) :
    exec (.migrationSectorCopy q) s = .next (u.setMigration q { g with done := 1 }) := by
  change execMigrationSectorCopy q s = _
  simp [execMigrationSectorCopy, hg, goes, first, State.invalidateThen_done _ h]

theorem exec_migrationSectorCopy_copies (begun : 0 < g.done) (more : g.done < 513) (free : s.pinnedIn (s.widen g.cover) = false) :
    exec (.migrationSectorCopy q) s =
      .next (((s.copySector g (g.done - 1)).writePte g.asid g.va (pteTransit g.old g.new g.done)).setMigration q
        { g with done := g.done + 1 }) := by
  change execMigrationSectorCopy q s = _
  have next : g.done - 1 + 1 = g.done := by omega
  simp [execMigrationSectorCopy, hg, goes, Nat.not_le.2 more, Nat.ne_of_gt begun, free, next]

theorem exec_migrationFinish_valid (copied : g.done = 513) :
    exec (.migrationFinish q) s = .next ((s.writePte g.asid g.va (pteValid g.new)).setMigration q { g with done := 514 }) := by
  change execMigrationFinish q s = _
  simp [execMigrationFinish, hg, goes, copied]

theorem exec_migrationFinish_second {u : State} (valid : g.done = 514) (h : s.invalidate g.cover true = .ok u) :
    exec (.migrationFinish q) s = .next (u.setMigration q { g with done := 515 }) := by
  change execMigrationFinish q s = _
  simp [execMigrationFinish, hg, goes, valid, State.invalidateThen_done _ h]

theorem exec_migrationFinish_ends (invalidated : g.done = 515)
    (counted : (s.xlat.owed.any fun o => o.addr == s.hotEntry g.old) = false) :
    exec (.migrationFinish q) s = .next ((s.mergeHot g).modQuarter q fun x => { x with migration := none, migst := 0 }) := by
  change execMigrationFinish q s = _
  simp only [execMigrationFinish, hg, goes, invalidated, counted]
  rfl

end

/-! ## The copy of a sector (R328) -/

/-- Half a sector of a migration goes to the new frame, from an offset on. -/
def State.copyHalf (s : State) (g : Migration) (j o : Nat) : State :=
  s.writeHbm (g.new + 128 * j + o) (rdBytes s.mem (g.old + 128 * j + o) 64) (s.poisoned (g.old + 128 * j + o) 64)

theorem State.copySector_mem (s : State) (g : Migration) (j : Nat) :
    (s.copySector g j).mem = ((s.copyHalf g j 0).copyHalf g j 64).mem := by
  simp only [State.copySector, State.copyHalf, List.foldl_cons, List.foldl_nil]

section
variable (s : State) {g : Migration} {j : Nat} (fits : g.new + 128 * j + 128 ≤ hbmBytes)
include fits

theorem State.rdByte_copyHalf {o : Nat} (ho : o ≤ 64) (a : Nat) : rdByte (s.copyHalf g j o).mem a =
    if g.new + 128 * j + o ≤ a ∧ a < g.new + 128 * j + o + 64 then rdByte s.mem (g.old + (a - g.new))
    else rdByte s.mem a := by
  rw [State.copyHalf, State.rdByte_writeHbm, rdBytes_length]
  split
  next h =>
    rw [if_pos ⟨h.1, h.2.1⟩, rdBytes_getD _ _ (by omega)]
    congr 1
    omega
  next => rw [if_neg (by omega)]

theorem State.rdByte_copySector (a : Nat)
    (apart : g.old + 128 * j + 128 ≤ g.new + 128 * j ∨ g.new + 128 * j + 128 ≤ g.old + 128 * j) :
    rdByte (s.copySector g j).mem a =
      if g.new + 128 * j ≤ a ∧ a < g.new + 128 * j + 128 then rdByte s.mem (g.old + (a - g.new)) else rdByte s.mem a := by
  have upper := (s.copyHalf g j 0).rdByte_copyHalf fits (o := 64) (by omega)
  have lower := s.rdByte_copyHalf fits (o := 0) (by omega)
  rw [State.copySector_mem, upper]
  by_cases second : g.new + 128 * j + 64 ≤ a ∧ a < g.new + 128 * j + 64 + 64
  · rw [if_pos second, lower, if_neg (by omega), if_pos (by omega)]
  · rw [if_neg second, lower]
    by_cases first : g.new + 128 * j + 0 ≤ a ∧ a < g.new + 128 * j + 0 + 64
    · rw [if_pos first, if_pos (by omega)]
    · rw [if_neg first, if_neg (by omega)]

end

/-! ## The entries of a page in migration (R322, R329) -/

/-- An entry with a state, the rights of an entry, and its lower fields. -/
def pteWith (st : Nat) (e : Word) (n : Nat) : Word := w64 (st * 2 ^ 62) ||| (e &&& w64 (7 * 2 ^ 59)) ||| w64 n

theorem pteTransit_eq (old new p : Nat) (e : Word) :
    pteTransit old new p e = pteWith 3 e (p * 2 ^ 48 + new / 65536 * 2 ^ 24 + old / 65536) := rfl
theorem pteValid_eq (new : Nat) (e : Word) : pteValid new e = pteWith 1 e (new / 65536) := rfl

theorem bitsAt_w64 (n : Nat) {lo k : Nat} (h : lo + k ≤ 64) : bitsAt (w64 n) lo k = n / 2 ^ lo % 2 ^ k := by
  rw [bitsAt, w64, BitVec.extractLsb'_toNat, BitVec.toNat_ofNat]
  apply Nat.eq_of_testBit_eq
  intro i
  simp only [Nat.testBit_mod_two_pow, Nat.testBit_shiftRight, Nat.testBit_div_two_pow]
  by_cases hi : i < k
  · simp [hi, show lo + i < 64 by omega, Nat.add_comm]
  · simp [hi]

section
variable (st : Nat) (e : Word) {n : Nat}

theorem getLsbD_pteWith {b : Nat} (hb : b < 64) : (pteWith st e n).getLsbD b =
    ((decide (62 ≤ b) && st.testBit (b - 62)) || (e.getLsbD b && decide (59 ≤ b ∧ b < 62)) || n.testBit b) := by
  have rights : (7 * 2 ^ 59).testBit b = decide (59 ≤ b ∧ b < 62) := by
    rw [Nat.testBit_mul_two_pow, show (7 : Nat) = 2 ^ 3 - 1 by rfl, Nat.testBit_two_pow_sub_one]
    by_cases h : 59 ≤ b <;> simp [h]; omega
  simp only [pteWith, w64, BitVec.getLsbD_or, BitVec.getLsbD_and, BitVec.getLsbD_ofNat, hb, decide_true, Bool.true_and, rights,
    Nat.testBit_mul_two_pow]

theorem bitsAt_pteWith_low {lo k : Nat} (h : lo + k ≤ 59) : bitsAt (pteWith st e n) lo k = n / 2 ^ lo % 2 ^ k := by
  rw [← bitsAt_w64 n (by omega)]
  refine bitsAt_congr fun i hi => ?_
  rw [getLsbD_pteWith st e (by omega), w64, BitVec.getLsbD_ofNat]
  simp [show lo + i < 64 by omega, show ¬ 62 ≤ lo + i by omega, show ¬ 59 ≤ lo + i by omega]

variable (hn : n < 2 ^ 59)
include hn

theorem testBit_above {b : Nat} (hb : 59 ≤ b) : n.testBit b = false :=
  Nat.testBit_lt_two_pow (Nat.lt_of_lt_of_le hn (Nat.pow_le_pow_right (by omega) hb))

theorem bitsAt_pteWith_rights : bitsAt (pteWith st e n) 59 2 = bitsAt e 59 2 := by
  refine bitsAt_congr fun i hi => ?_
  rw [getLsbD_pteWith st e (by omega), testBit_above hn (by omega)]
  simp [show ¬ 62 ≤ 59 + i by omega, show 59 + i < 62 by omega]

theorem bitsAt_pteWith_state (hst : st < 4) : bitsAt (pteWith st e n) 62 2 = st := by
  have same : bitsAt (pteWith st e n) 62 2 = bitsAt (w64 (st * 2 ^ 62)) 62 2 := by
    refine bitsAt_congr fun i hi => ?_
    rw [getLsbD_pteWith st e (by omega), testBit_above hn (by omega), w64, BitVec.getLsbD_ofNat, Nat.testBit_mul_two_pow]
    simp [show 62 + i < 64 by omega]
  rw [same, bitsAt_w64 _ (by omega), Nat.mul_div_cancel _ (by decide), Nat.mod_eq_of_lt (by omega)]

end

/-- A frame is the number of its 64 KiB, of 24 bits (R322). -/
theorem frame_number {pa : Nat} (aligned : pa % 65536 = 0) (low : pa < 2 ^ 40) :
    ∃ n, n < 2 ^ 24 ∧ pa / 65536 = n ∧ n * 65536 = pa :=
  ⟨pa / 65536, by omega, rfl, by omega⟩

theorem pteTransit_fields {old new p : Nat} (e : Word) (ho : old % 65536 = 0) (oldLow : old < 2 ^ 40) (hn : new % 65536 = 0)
    (newLow : new < 2 ^ 40) (hp : p ≤ 512) :
    bitsAt (pteTransit old new p e) 62 2 = 3 ∧ bitsAt (pteTransit old new p e) 0 24 * 65536 = old ∧
    bitsAt (pteTransit old new p e) 24 24 * 65536 = new ∧ bitsAt (pteTransit old new p e) 48 10 = p ∧
    bitsAt (pteTransit old new p e) 59 2 = bitsAt e 59 2 := by
  obtain ⟨o, ho, eo, rfl⟩ := frame_number ho oldLow
  obtain ⟨n, hn, en, rfl⟩ := frame_number hn newLow
  have low : p * 2 ^ 48 + n * 2 ^ 24 + o < 2 ^ 59 := by clear oldLow newLow; omega
  rw [pteTransit_eq, eo, en]
  refine ⟨bitsAt_pteWith_state 3 e low (by omega), ?_, ?_, ?_, bitsAt_pteWith_rights 3 e low⟩
  all_goals rw [bitsAt_pteWith_low 3 e (by omega)]; omega

theorem pteValid_fields {new : Nat} (e : Word) (hn : new % 65536 = 0) (newLow : new < 2 ^ 40) :
    bitsAt (pteValid new e) 62 2 = 1 ∧ bitsAt (pteValid new e) 0 24 * 65536 = new ∧ bitsAt (pteValid new e) 24 35 = 0 ∧
    bitsAt (pteValid new e) 59 2 = bitsAt e 59 2 := by
  obtain ⟨n, hn, en, rfl⟩ := frame_number hn newLow
  have low : n < 2 ^ 59 := by omega
  rw [pteValid_eq, en]
  refine ⟨bitsAt_pteWith_state 1 e low (by omega), ?_, ?_, bitsAt_pteWith_rights 1 e low⟩
  all_goals rw [bitsAt_pteWith_low 1 e (by omega)]; omega

end Sys2Proof.Machine

namespace Sys2Proof.Proofs
open Sys2Proof Sys2Proof.Machine

/-- Settles O47: each write and each step by what it answers, the copy byte by byte, and the entries by their fields. -/
theorem migrationSteps : Obligations.MigrationSteps := by
  unfold Obligations.MigrationSteps
  refine ⟨fun m q v s own => ⟨fun idle => ?takes, fun busy => ?refused, fun idle => ⟨fun unfit => ?unfit, fun old fit =>
      ⟨fun bad => ?badFrame, fun good => ?begins⟩⟩⟩,
    fun q s g hg goes => ⟨fun u => exec_migrationSectorCopy_first hg goes, exec_migrationSectorCopy_copies hg goes,
      exec_migrationFinish_valid hg goes, fun u => exec_migrationFinish_second hg goes, fun last counted => ?ends⟩,
    fun s g j a fits => s.rdByte_copySector fits a, fun old new p e ho oldLow hn newLow hp => ?entries⟩
  case takes => exact ⟨_, exec_migvaWrite_takes own idle, by simp [w64], rfl⟩
  case refused => exact ⟨exec_migvaWrite_refused own busy, exec_migrationStart_refused own busy⟩
  case unfit => exact ⟨_, exec_migrationStart_unfit own idle unfit, by simp, rfl⟩
  case badFrame => exact ⟨_, exec_migrationStart_badFrame own idle fit bad, by simp, rfl⟩
  case begins => exact ⟨_, exec_migrationStart_begins own idle fit good, by simp, by simp [Quarter.begun], rfl⟩
  case ends => exact ⟨_, exec_migrationFinish_ends hg goes last counted, by simp, by simp⟩
  case entries =>
    obtain ⟨transit, frame, newFrame, progress, rights⟩ := pteTransit_fields e ho oldLow hn newLow hp
    exact ⟨transit, frame, newFrame, progress, rights, pteValid_fields e hn newLow⟩

end Sys2Proof.Proofs
end

section
/-! SUPPORT. Elements of accesses: the checks of a pointer, where an element performs, stash sectors that are ready, and what a
read answers and keeps (R175, R181, R191, R196, R325). -/

namespace Sys2Proof.Machine

@[simp] theorem coreOfCtx_key (s : State) : coreOfCtx s.key = s.cur.core := by
  have := s.cur.lc.isLt
  simp only [coreOfCtx, State.key, ctxNum]
  omega

/-! ## Checks of a pointer (Table 11-2) -/

section
variable {s : State} {q : Word} {z al : Nat}

theorem State.checkPtr_malformed {e : Cause} (h : malformed q = some e) : s.checkPtr q z al = .error e := by
  simp only [State.checkPtr, Machine.checkPtr, h]

variable (formed : malformed q = none)
include formed

theorem State.checkPtr_virtual (w : bitsAt q 60 4 = 0) :
    s.checkPtr q z al = if q.toNat % al ≠ 0 then .error .align else .ok (.virt q.toNat) := by
  simp only [State.checkPtr, Machine.checkPtr, formed, windowOf_eq, w, bne_iff_ne]

theorem State.checkPtr_region (w : bitsAt q 60 4 = 8) : s.checkPtr q z al =
    if s.ctx.win.psize.toNat < bitsAt q 0 32 + z then .error .range
    else if bitsAt q 0 32 % al ≠ 0 then .error .align
    else .ok (.virt ((s.ctx.win.pbase.toNat + bitsAt q 0 32) % 2 ^ 57)) := by
  simp only [State.checkPtr, Machine.checkPtr, formed, windowOf_eq, w, bne_iff_ne]

theorem State.checkPtr_stash (w : bitsAt q 60 4 = 9) : s.checkPtr q z al =
    if bitsAt q 48 9 ≠ s.cur.core.val then .error .foreignStash
    else if 4 * s.core.k.val * 65536 < bitsAt q 0 20 + z then .error .range
    else if bitsAt q 0 20 % al ≠ 0 then .error .align
    else .ok (.stash (bitsAt q 0 20)) := by
  simp only [State.checkPtr, Machine.checkPtr, formed, windowOf_eq, w, bne_iff_ne]
  rfl

theorem State.checkPtr_cluster (w : bitsAt q 60 4 = 10) : s.checkPtr q z al =
    if bitsAt q 0 23 % al ≠ 0 then .error .align else .ok (.cluster (ptrCluster q) (bitsAt q 0 23)) := by
  simp only [State.checkPtr, Machine.checkPtr, formed, windowOf_eq, w, bne_iff_ne]

end

/-! ## Where an element of the executing context performs -/

section
variable {s : State} {q : Word} {z al : Nat} {write : Bool}

/-- The checks of Table 11-2 are made with the core and the region of the executing context. -/
theorem State.agentOf_checkPtr (s : State) (q : Word) (z al : Nat) : Machine.checkPtr (s.agentOf s.key).core
    (s.coreAt (s.agentOf s.key).core).stashBytes (s.agentOf s.key).pbase (s.agentOf s.key).psize q z al = s.checkPtr q z al := by
  simp only [State.agentOf, coreOfCtx_key]
  rfl

theorem State.find_refused {e : Cause} (h : s.checkPtr q z al = .error e) :
    s.find (s.agentOf s.key) q z al write = (.fail e, s) := by
  simp only [State.find, State.agentOf_checkPtr, h]

theorem State.find_fails {e : Cause} (h : s.checkPtr q z al = .error e) :
    (s.find (s.agentOf s.key) q z al write).1 = .fail e := by rw [State.find_refused h]

theorem State.find_stash {off : Nat} (h : s.checkPtr q z al = .ok (.stash off)) :
    s.find (s.agentOf s.key) q z al write = (s.findStash s.cur.core off z write, s) := by
  simp only [State.find, State.agentOf_checkPtr, h]
  simp only [State.agentOf, coreOfCtx_key]

/-- A translation keeps everything but the TLBs. -/
theorem State.tlbWalk_keeps {α : Type} (p : State → α) (h : ∀ (s : State) v, p { s with tlbs := v } = p s) (s : State)
    (unit : Nat) (asid : Fin 16) (va : Nat) : p (s.tlbWalk unit asid va).2 = p s := by
  unfold State.tlbWalk
  dsimp only
  split
  · rfl
  · split
    · rfl
    · split
      · rfl
      · exact h _ _

/-- The checks of an element keep everything but the TLBs. -/
theorem State.find_keeps {α : Type} (p : State → α) (h : ∀ (s : State) v, p { s with tlbs := v } = p s) (s : State) (a : Agent)
    (q : Word) (z al : Nat) (write : Bool) : p (s.find a q z al write).2 = p s := by
  unfold State.find
  split
  case h_2 va _ =>
    have walked := s.tlbWalk_keeps p h a.tlb a.asid va
    unfold State.findVirt
    dsimp only
    (repeat' split) <;> exact walked
  all_goals rfl

end

/-! ## The location of a scalar access (R187, R191, R325) -/

section
variable {s t : State} {q i0 : Word} {z al : Nat} {write : Bool} {l : Loc}

theorem State.scalarLoc_found (h : s.scalarLoc q z al write i0 = .ok (l, t)) :
    s.find (s.agentOf s.key) q z al write = (.at_ l, t) := by
  unfold State.scalarLoc at h
  split at h
  case h_1 => exact nomatch h
  case h_2 => exact nomatch h
  case h_3 => exact nomatch h
  case h_4 m u found =>
    split at h
    · exact nomatch h
    · obtain ⟨rfl, rfl⟩ := Prod.mk.inj (Except.ok.inj h)
      exact found

theorem State.scalarLoc_keeps {α : Type} (p : State → α) (h : ∀ (s : State) v, p { s with tlbs := v } = p s)
    (ok : s.scalarLoc q z al write i0 = .ok (l, t)) : p t = p s := by
  have kept := s.find_keeps p h (s.agentOf s.key) q z al write
  rwa [State.scalarLoc_found ok] at kept

theorem State.scalarLoc_refused {e : Cause} (h : (s.find (s.agentOf s.key) q z al write).1 = .fail e) :
    s.scalarLoc q z al write i0 = raise s e q i0 := by
  unfold State.scalarLoc
  generalize s.find (s.agentOf s.key) q z al write = r at h
  obtain ⟨_, u⟩ := r
  subst h
  rfl

end

/-! ## Stash sectors that need no fill (R181) -/

section
variable {s : State} {core off n : Nat} {write : Bool}

theorem State.fillSector_unbound {line : Nat} {j : Fin 4} (h : look (s.coreAt core).lines line = none) :
    s.fillSector core line j = .done s := by
  simp only [State.fillSector, h]

variable (unbound : look (s.coreAt core).lines (off / 512) = none)
include unbound

theorem State.readyStash_unbound : s.readyStash core off n write = .ok s := by
  unfold State.readyStash State.stashReady
  split_ifs
  · rfl
  · rw [State.fillSector_unbound unbound]

theorem State.stashPut_unbound (bytes : List Byte) (bad : Bool) : s.stashPut core off bytes bad = s.modCoreAt core fun c =>
    { c with stash := wrBytes c.stash off bytes, stashPoison := remark 3 c.stashPoison off bytes.length bad } := by
  simp only [State.stashPut, State.modCoreAt]
  congr 1
  split
  next => rfl
  next bound => rw [unbound] at bound; exact nomatch bound

end

/-- A fill touches the stash and the home L2 alone. -/
theorem State.fillSector_keeps {α : Type} (p : State → α) (cores : ∀ (s : State) v, p { s with cores := v } = p s)
    (quarters : ∀ (s : State) v, p { s with quarters := v } = p s) {s t : State} {core line : Nat} {j : Fin 4}
    (h : s.fillSector core line j = .done t) : p t = p s := by
  unfold State.fillSector at h
  split at h
  · obtain rfl := Filled.done.inj h
    rfl
  · split at h
    · split at h
      case h_5 =>
        split at h
        · exact nomatch h
        · obtain rfl := Filled.done.inj h
          exact (quarters _ _).trans (cores _ _)
      all_goals exact nomatch h
    · obtain rfl := Filled.done.inj h
      rfl

theorem State.readyStash_keeps {α : Type} (p : State → α) (cores : ∀ (s : State) v, p { s with cores := v } = p s)
    (quarters : ∀ (s : State) v, p { s with quarters := v } = p s) {s t : State} {core off n : Nat} {write : Bool}
    (h : s.readyStash core off n write = .ok t) : p t = p s := by
  unfold State.readyStash at h
  split at h
  case h_2 => exact nomatch h
  case h_1 u done =>
    obtain rfl := Except.ok.inj h
    unfold State.stashReady at done
    split at done
    · obtain rfl := Filled.done.inj done
      rfl
    · exact State.fillSector_keeps p cores quarters done

theorem State.stashPut_stash (s : State) (core off : Nat) (bytes : List Byte) (bad : Bool) :
    ((s.stashPut core off bytes bad).coreAt core).stash = wrBytes (s.coreAt core).stash off bytes := by
  rw [State.stashPut, State.coreAt_modCoreAt_same]
  dsimp only
  split <;> rfl

theorem State.core_stashPut (s : State) (off : Nat) (bytes : List Byte) (bad : Bool) :
    (s.stashPut s.cur.core off bytes bad).core.stash = wrBytes s.core.stash off bytes := s.stashPut_stash ..

/-- An element on an unbound line of the own stash is found there, and nothing holds it (R175, R180). -/
theorem State.scalarLoc_unbound {s : State} {q i0 : Word} {z : Nat} {write : Bool} (formed : malformed q = none)
    (window : bitsAt q 60 4 = 9) (own : bitsAt q 48 9 = s.cur.core.val)
    (fits : bitsAt q 0 20 + z ≤ 4 * s.core.k.val * 65536) (aligned : bitsAt q 0 20 % z = 0)
    (unbound : look s.core.lines (bitsAt q 0 20 / 512) = none) (idle : s.core.scores = [])
    (pins : s.pinsHeld s.cur.core ≤ 4096) : s.scalarLoc q z z write i0 = .ok (.stash (bitsAt q 0 20), s) := by
  have placed : s.checkPtr q z z = .ok (.stash (bitsAt q 0 20)) := by
    rw [State.checkPtr_stash formed window, if_neg (not_not.2 own), if_neg (Nat.not_lt.2 fits), if_neg (not_not.2 aligned)]
  have found : s.findStash s.cur.core (bitsAt q 0 20) z write = .at_ (.stash (bitsAt q 0 20)) := by
    unfold State.findStash
    rw [show look (s.coreAt s.cur.core).lines _ = none from unbound]
  have calm : s.locStalled s.cur.core (.stash (bitsAt q 0 20)) z write = false := by
    simp only [State.locStalled, Core.stalled, show (s.coreAt s.cur.core).scores = [] from idle, List.any_nil, Bool.and_false]
  have room : s.pinRoom s.cur.core [.stash (bitsAt q 0 20)] = true := by
    have none : s.pinsOf s.cur.core [.stash (bitsAt q 0 20)] = [] := rfl
    simpa [State.pinRoom, none, State.pinsFree, pinSlots] using pins
  simp only [State.scalarLoc, State.find_stash placed, found, calm, room]
  rfl

/-! ## What a read answers (R196) -/

section
variable {s u : State} {k n : Nat} {nt bad : Bool} {bs : List Byte}

theorem State.readLoc_stash {off : Nat} (ok : s.readLoc k (.stash off) n nt = .ok (bs, bad, u)) :
    s.readyStash (coreOfCtx k) off n false = .ok u ∧ bs = rdBytes (u.coreAt (coreOfCtx k)).stash off n := by
  obtain ⟨v, ready, h⟩ := act_bind_ok ok
  simp only [Except.ok.injEq, Prod.mk.injEq] at h
  obtain ⟨rfl, _, rfl⟩ := h
  exact ⟨ready, rfl⟩

theorem State.readLoc_unbound {off : Nat} (unbound : look s.core.lines (off / 512) = none)
    (sound : marked 3 s.core.stashPoison off n = false) :
    s.readLoc s.key (.stash off) n nt = .ok (rdBytes s.core.stash off n, false, s) := by
  simp only [State.readLoc, coreOfCtx_key, State.readyStash_unbound (core := s.cur.core) unbound, act_ok_bind]
  rw [← sound]
  rfl

theorem State.readLoc_cluster {a : Nat} (ok : s.readLoc k (.cluster a) n nt = .ok (bs, bad, u)) :
    bs = overlay s.pend k .cluster a (s.clsRead k a n).1 :=
  (Prod.mk.inj (Except.ok.inj ok)).1.symm

variable {asid : Fin 16} {va pa : Nat} (ok : s.readLoc k (.hbm asid va pa) n nt = .ok (bs, bad, u))
include ok

theorem State.readLoc_hbm : s.readSector k asid va pa n nt = (bs, bad, u) := by
  simp only [State.readLoc] at ok
  split at ok
  · exact nomatch ok
  · exact Except.ok.inj ok

theorem State.readLoc_hit {e : L1Sec} (hit : (s.coreAt (coreOfCtx k)).l1Find asid va = some e) :
    bs = overlay s.pend k .hbm pa (leBytes n (bitsAt e.data (8 * (va % 128)) (8 * n))) := by
  have read := State.readLoc_hbm ok
  simp only [State.readSector, hit] at read
  exact (Prod.mk.inj read).1.symm

theorem State.readLoc_miss (miss : (s.coreAt (coreOfCtx k)).l1Find asid va = none) :
    bs = overlay s.pend k .hbm pa (rdBytes s.mem pa n) := by
  have read := State.readLoc_hbm ok
  simp only [State.readSector, miss] at read
  exact (Prod.mk.inj read).1.symm

/-- A read of memory touches the caches and the record of what the context has read alone (R178, R198). -/
theorem State.readLoc_keeps {α : Type} (p : State → α) (cores : ∀ (s : State) v, p { s with cores := v } = p s)
    (quarters : ∀ (s : State) v, p { s with quarters := v } = p s) (torn : ∀ (s : State) v, p { s with torn := v } = p s) :
    p u = p s := by
  have read := congrArg (fun r => p r.2.2) (State.readLoc_hbm ok)
  refine read.symm.trans ?_
  unfold State.readSector
  dsimp only
  split
  · exact torn _ _
  · refine (torn _ _).trans ?_
    split
    · exact cores _ _
    · exact (quarters _ _).trans (cores _ _)

end

/-! ## Cluster-shared memory as it may be read (R196) -/

/-- The parts of a range in its sectors cover it. -/
theorem sectorParts_total (a n : Nat) : ((sectorParts a n).map fun x => x.2.2).sum = n := by
  have upTo (k : Nat) : ((List.range k).map fun i =>
      min (a + n) (a / 128 * 128 + 128 * i + 128) - max a (a / 128 * 128 + 128 * i)).sum =
      min (a + n) (max a (a / 128 * 128 + 128 * k)) - a := by
    induction k with
    | zero => simp; omega
    | succ k ih => rw [List.range_succ, List.map_append, List.sum_append, ih]; simp; omega
  simp only [sectorParts, List.map_map, Function.comp_def]
  rw [upTo]
  omega

theorem State.clsBefore_length (s : State) (k a n : Nat) : (s.clsBefore k a n).length = n := by
  refine Eq.trans ?_ (sectorParts_total a n)
  rw [State.clsBefore, List.length_flatMap]
  congr 1
  refine List.map_congr_left fun x _ => ?_
  split
  · exact leBytes_length ..
  · exact rdBytes_length ..

theorem State.clsRead_mayRead (s : State) (k a n : Nat) : Claims.mayRead s k a n (s.clsRead k a n).1 := by
  have now : Claims.mayRead s k a n (rdBytes s.cls a n) := ⟨rdBytes_length .., fun i hi => .inl (rdBytes_getD _ _ hi)⟩
  have before : Claims.mayRead s k a n (s.clsBefore k a n) := ⟨s.clsBefore_length k a n, fun i _ => .inr rfl⟩
  unfold State.clsRead
  dsimp only
  split_ifs <;> assumption

end Sys2Proof.Machine
end

section
/-! SUPPORT. Loads and stores by the location found, their refusals, and the performance of a pending store, with the statement
about scalar accesses (R175, R195, R197, R212, R214, R217). -/

namespace Sys2Proof.Machine

/-! ## Loads and stores (R212, R214, R217) -/

section
variable {c : Ctl} {f : FM} {s t u : State} {l : Loc} (hg : s.guard c = true)
include hg

theorem exec_ld (hd : Claims.destOk s f.opd) {bs : List Byte}
    (loc : s.scalarLoc (s.fmBase f + s.val f.opb) (scalarSize f.ta) (scalarSize f.ta) false = .ok (l, t))
    (read : t.readLoc s.key l (scalarSize f.ta) f.nt = .ok (bs, false, u)) :
    exec (.ld c f) s = .next (u.putS f.opd (BitVec.ofNat 64 (leVal bs))).advance := by
  change execLd c f s = _
  rw [execLd, run_true _ hg]
  simp only [checkDest_ok hd, State.scalarRead, loc, read, act_ok_bind]
  rfl

theorem exec_st (loc : s.scalarLoc (s.fmBase f + s.val f.opb) (scalarSize f.ta) (scalarSize f.ta) true = .ok (l, t))
    (store : t.storeLoc s.key l (leBytes (scalarSize f.ta) (s.val f.opd).toNat) t.newAcc (t.pinsOf s.cur.core [l]) none f.nt
      = .ok u) : exec (.st c f) s = .next u.advance := by
  change execSt c f s = _
  rw [execSt, run_true _ hg]
  simp only [State.scalarWrite, loc, store, act_ok_bind, settle_ok]

theorem exec_ld_refused {e : Cause} (hd : Claims.destOk s f.opd)
    (h : (s.find (s.agentOf s.key) (s.fmBase f + s.val f.opb) (scalarSize f.ta) (scalarSize f.ta) false).1 = .fail e) :
    exec (.ld c f) s = .next (s.takeTrap { cause := e, val := s.fmBase f + s.val f.opb }) := by
  change execLd c f s = _
  rw [execLd, run_true _ hg]
  simp only [checkDest_ok hd, State.scalarRead, State.scalarLoc_refused h, act_ok_bind]
  rfl

theorem exec_st_refused {e : Cause}
    (h : (s.find (s.agentOf s.key) (s.fmBase f + s.val f.opb) (scalarSize f.ta) (scalarSize f.ta) true).1 = .fail e) :
    exec (.st c f) s = .next (s.takeTrap { cause := e, val := s.fmBase f + s.val f.opb }) := by
  change execSt c f s = _
  rw [execSt, run_true _ hg]
  simp only [State.scalarWrite, State.scalarLoc_refused h]
  rfl

end

theorem State.storeLoc_stash {s u : State} {k off acc : Nat} {bytes : List Byte} {pages : List Pinned} {hot : Option Nat}
    {nt : Bool} (ready : s.readyStash (coreOfCtx k) off bytes.length true = .ok u) :
    s.storeLoc k (.stash off) bytes acc pages hot nt = .ok (u.stashPut (coreOfCtx k) off bytes) := by
  simp only [State.storeLoc, ready, act_ok_bind]

/-! ## The performance of a pending store (R195, R197) -/

/-- Noting a change that is not published touches the record of such changes alone (R29, R196). -/
theorem State.noteTorn_keeps {α : Type} (p : State → α) (h : ∀ (s : State) v, p { s with torn := v } = p s) (s : State)
    (w : Writer) (pa : Nat) (bs : List Byte) (bad : Bool) : p (s.noteTorn w pa bs bad) = p s := by
  unfold State.noteTorn
  exact foldl_keeps p (fun t _ => h t _) _ s
theorem State.noteStale_keeps {α : Type} (p : State → α) (h : ∀ (s : State) v, p { s with stale := v } = p s) (s : State)
    (k a : Nat) (bs : List Byte) : p (s.noteStale k a bs) = p s := by
  unfold State.noteStale
  exact foldl_keeps p (fun t _ => h t _) _ s

section
variable (s : State) {p : Pending}

/-- Beside the bytes that it writes, a store performed in memory touches the caches and the counts owed. -/
theorem State.performStore_hbm_keeps {α : Type} (g : State → α) (cores : ∀ (s : State) v, g { s with cores := v } = g s)
    (quarters : ∀ (s : State) v, g { s with quarters := v } = g s) (xlat : ∀ (s : State) v, g { s with xlat := v } = g s)
    (h : p.home = .hbm) :
    g (s.performStore p) = g ((s.noteTorn (.ctx p.ctx) p.addr p.bytes).writeHbm p.addr p.bytes) := by
  have owed (t : State) (pa kind : Nat) : g (t.owe pa kind) = g t := by
    unfold State.owe
    split
    · exact xlat _ _
    · rfl
  unfold State.performStore
  rw [h]
  dsimp only
  split
  · refine (owed _ _ _).trans ?_
    split
    · exact cores _ _
    · exact (quarters _ _).trans (cores _ _)
  · split
    · exact cores _ _
    · exact (quarters _ _).trans (cores _ _)

theorem State.performStore_cluster (h : p.home = .cluster) :
    s.performStore p = (s.noteStale p.ctx p.addr p.bytes).writeCls p.addr p.bytes := by
  simp only [State.performStore, h]

theorem State.performStore_pend : (s.performStore p).pend = s.pend := by
  cases h : p.home with
  | hbm =>
    rw [s.performStore_hbm_keeps State.pend (fun _ _ => rfl) (fun _ _ => rfl) (fun _ _ => rfl) h]
    exact State.noteTorn_keeps State.pend (fun _ _ => rfl) ..
  | cluster =>
    rw [s.performStore_cluster h]
    exact State.noteStale_keeps State.pend (fun _ _ => rfl) ..

end

/-- The bytes of a range of memory after a write of it, and every other byte. -/
theorem rdByte_frame {m m' : Memory} {a : Nat} {bs : List Byte}
    (h : ∀ b, rdByte m' b = if a ≤ b ∧ b < a + bs.length then bs.getD (b - a) 0 else rdByte m b) :
    (∀ i, i < bs.length → rdByte m' (a + i) = bs.getD i 0) ∧
    ∀ b, b < a ∨ a + bs.length ≤ b → rdByte m' b = rdByte m b := by
  refine ⟨fun i hi => ?_, fun b hb => ?_⟩
  · rw [h, if_pos (by omega), Nat.add_sub_cancel_left]
  · rw [h, if_neg (by omega)]

theorem State.performStore_mem (s : State) {p : Pending} (h : p.home = .hbm) (fits : p.addr + p.bytes.length ≤ hbmBytes)
    (b : Nat) :
    rdByte (s.performStore p).mem b =
      if p.addr ≤ b ∧ b < p.addr + p.bytes.length then p.bytes.getD (b - p.addr) 0 else rdByte s.mem b := by
  rw [s.performStore_hbm_keeps State.mem (fun _ _ => rfl) (fun _ _ => rfl) (fun _ _ => rfl) h, State.rdByte_writeHbm,
    State.noteTorn_mem]
  exact if_congr (by omega) rfl rfl

theorem State.performStore_hbm_cls (s : State) {p : Pending} (h : p.home = .hbm) : (s.performStore p).cls = s.cls := by
  rw [s.performStore_hbm_keeps State.cls (fun _ _ => rfl) (fun _ _ => rfl) (fun _ _ => rfl) h]
  exact State.noteTorn_keeps State.cls (fun _ _ => rfl) ..

theorem State.performStore_cls (s : State) {p : Pending} (h : p.home = .cluster) (b : Nat) :
    rdByte (s.performStore p).cls b =
      if p.addr ≤ b ∧ b < p.addr + p.bytes.length then p.bytes.getD (b - p.addr) 0 else rdByte s.cls b := by
  rw [s.performStore_cluster h, State.writeCls, rdByte_wrBytes, State.noteStale_keeps State.cls fun _ _ => rfl]

theorem State.performStore_cluster_mem (s : State) {p : Pending} (h : p.home = .cluster) : (s.performStore p).mem = s.mem := by
  rw [s.performStore_cluster h]
  exact State.noteStale_keeps State.mem (fun _ _ => rfl) ..

/-- The state in which the k-th pending store has performed. -/
def State.performed (s : State) (k : Nat) (p : Pending) : State := { s with pend := s.pend.eraseIdx k }.performStore p

/-- A store performs where its line is not claimed and no earlier one of the context to the same bytes is pending (R197, R281). -/
def State.mayPerform (s : State) (k : Nat) (p : Pending) : Bool :=
  s.storeReady p && (s.pend.take k).all fun q => q.ctx != p.ctx || !q.overlap p.home p.addr p.bytes.length

theorem Pending.overlap_eq_false (q : Pending) (h : Home) (a n : Nat) :
    q.overlap h a n = false ↔ (q.home = h → a + n ≤ q.addr ∨ q.addr + q.bytes.length ≤ a) := by
  simp only [Pending.overlap, overlaps, Bool.and_eq_false_imp, beq_iff_eq, decide_eq_false_iff_not]
  exact imp_congr_right fun _ => by omega

theorem State.mayPerform_iff (s : State) (k : Nat) (p : Pending) : s.mayPerform k p = true ↔
    s.storeReady p = true ∧ ∀ q ∈ s.pend.take k, q.ctx = p.ctx → q.home = p.home →
      p.addr + p.bytes.length ≤ q.addr ∨ q.addr + q.bytes.length ≤ p.addr := by
  simp only [State.mayPerform, Bool.and_eq_true, List.all_eq_true, Bool.or_eq_true, bne_iff_ne, Bool.not_eq_true',
    Pending.overlap_eq_false, ne_eq, or_iff_not_imp_left, not_not]

section
variable {s : State} {k : Nat} {p : Pending} (h : s.pend[k]? = some p)
include h

theorem exec_storePerform_run : exec (.storePerform k) s = .next (if s.mayPerform k p then s.performed k p else s) := by
  change execStorePerform k s = _
  simp only [execStorePerform, h]
  exact (apply_ite Host.Outcome.next _ _ _).symm

theorem exec_storePerform_performs (may : s.mayPerform k p = true) : exec (.storePerform k) s = .next (s.performed k p) := by
  rw [exec_storePerform_run h, if_pos may]

theorem exec_storePerform_waits (may : ¬s.mayPerform k p = true) : exec (.storePerform k) s = .next s := by
  rw [exec_storePerform_run h, if_neg may]

end

end Sys2Proof.Machine

namespace Sys2Proof.Proofs
open Sys2Proof Sys2Proof.Machine Sys2Proof.Claims

/-- Settles O24: loads and stores by the location found and what the read or the store there answers, refusals by the checks of
the pointer, and the performance of a store by the bytes of its home. -/
theorem scalarAccesses : Obligations.ScalarAccesses := by
  unfold Obligations.ScalarAccesses
  refine ⟨fun c f s t l hg => ⟨fun hd loc bs u read => ⟨exec_ld hg hd loc read, ?stash, ?cluster, ?hbm⟩,
    fun loc => ⟨?storeHbm, ?storeCluster, ?storeStash⟩,
    fun formed window own fits aligned unbound idle pins => ⟨?load, ?store⟩⟩,
    fun c f s e hg => ⟨exec_ld_refused hg, exec_st_refused hg, fun q n write =>
      ⟨?malformed, ?virtual, ?region, ?ownStash, ?shared⟩⟩,
    fun k p s h => ⟨fun waits => ?waits, fun ready fits apart => ?performs⟩⟩
  case stash =>
    rintro off rfl
    obtain ⟨ready, bytes⟩ := State.readLoc_stash read
    have cur : u.cur = s.cur := (State.readyStash_keeps State.cur (fun _ _ => rfl) (fun _ _ => rfl) ready).trans
      (State.scalarLoc_keeps State.cur (fun _ _ => rfl) loc)
    rw [bytes, coreOfCtx_key, ← cur]
    rfl
  case cluster =>
    rintro a rfl
    exact ⟨_, State.clsRead_mayRead .., State.readLoc_cluster read⟩
  case hbm =>
    rintro asid va pa rfl
    have mem : t.mem = s.mem := State.scalarLoc_keeps State.mem (fun _ _ => rfl) loc
    have cls : t.cls = s.cls := State.scalarLoc_keeps State.cls (fun _ _ => rfl) loc
    have cur : t.cur = s.cur := State.scalarLoc_keeps State.cur (fun _ _ => rfl) loc
    have core : t.coreAt (coreOfCtx s.key) = t.core := by rw [coreOfCtx_key, ← cur]; rfl
    refine ⟨(State.readLoc_keeps read State.mem (fun _ _ => rfl) (fun _ _ => rfl) fun _ _ => rfl).trans mem,
      (State.readLoc_keeps read State.cls (fun _ _ => rfl) (fun _ _ => rfl) fun _ _ => rfl).trans cls, ?_⟩
    intro e found
    cases e with
    | some x => exact State.readLoc_hit read (core ▸ found)
    | none => exact mem ▸ State.readLoc_miss read (core ▸ found)
  case storeHbm =>
    rintro asid va pa rfl
    exact exec_st hg loc rfl
  case storeCluster =>
    rintro a rfl
    exact exec_st hg loc rfl
  case storeStash =>
    rintro off u rfl ready
    have cur : u.cur = s.cur := (State.readyStash_keeps State.cur (fun _ _ => rfl) (fun _ _ => rfl) ready).trans
      (State.scalarLoc_keeps State.cur (fun _ _ => rfl) loc)
    have core : coreOfCtx s.key = u.cur.core := by rw [coreOfCtx_key, cur]
    rw [← leBytes_length (scalarSize f.ta) (s.val f.opd).toNat] at ready
    have frame := rdByte_frame fun b =>
      rdByte_wrBytes u.core.stash off b (leBytes (scalarSize f.ta) (s.val f.opd).toNat)
    rw [leBytes_length] at frame
    refine ⟨_, exec_st hg loc (State.storeLoc_stash ready), State.advance_mem .., ?_⟩
    rw [core, State.core_advance, State.core_stashPut]
    exact frame
  case load =>
    exact fun hd sound => exec_ld hg hd (State.scalarLoc_unbound formed window own fits aligned unbound idle pins)
      (State.readLoc_unbound unbound sound)
  case store =>
    have loc := State.scalarLoc_unbound (write := true) (i0 := 0) formed window own fits aligned unbound idle pins
    rw [exec_st hg loc (State.storeLoc_stash (State.readyStash_unbound (by rwa [coreOfCtx_key]))), coreOfCtx_key,
      State.stashPut_unbound unbound, leBytes_length]
    rfl
  case malformed => exact fun h => State.find_fails (State.checkPtr_malformed h)
  case virtual => exact fun formed window h => State.find_fails (by rw [State.checkPtr_virtual formed window, if_pos h])
  case region =>
    exact fun formed window => ⟨fun h => State.find_fails (by rw [State.checkPtr_region formed window, if_pos h]),
      fun fits h => State.find_fails (by rw [State.checkPtr_region formed window, if_neg (Nat.not_lt.2 fits), if_pos h])⟩
  case ownStash =>
    exact fun formed window => ⟨fun h => State.find_fails (by rw [State.checkPtr_stash formed window, if_pos h]),
      fun own h => State.find_fails (by rw [State.checkPtr_stash formed window, if_neg (not_not.2 own), if_pos h]),
      fun own fits h => State.find_fails (by
        rw [State.checkPtr_stash formed window, if_neg (not_not.2 own), if_neg (Nat.not_lt.2 fits), if_pos h])⟩
  case shared => exact fun formed window h => State.find_fails (by rw [State.checkPtr_cluster formed window, if_pos h])
  case waits =>
    refine exec_storePerform_waits h fun may => ?_
    obtain ⟨ready, apart⟩ := (s.mayPerform_iff k p).1 may
    rcases waits with claimed | ⟨q, hq, same, home, low, high⟩
    · rw [ready] at claimed
      exact nomatch claimed
    · have := apart q hq same home
      omega
  case performs =>
    have may := (s.mayPerform_iff k p).2 ⟨ready, apart⟩
    refine ⟨_, exec_storePerform_performs h may, State.performStore_pend .., fun home => ?_, fun home => ?_,
      State.performStore_ctxs ..⟩
    · exact ⟨State.performStore_hbm_cls _ home, rdByte_frame (State.performStore_mem _ home (fits home))⟩
    · exact ⟨State.performStore_cluster_mem _ home, rdByte_frame (State.performStore_cls _ home)⟩

end Sys2Proof.Proofs
end

section
/-! SUPPORT. Vector stores: the shape that all of them share, and what storing the elements of an access gives in memory and in the
stash, with the statement about them (R189, R213 to R218). -/

namespace Sys2Proof.Machine

/-! ## A vector store once its checks pass (R217) -/

@[simp] theorem undo_ok {α : Type} (s : State) (a : α) : undo s (.ok a : Act α) = .ok a := rfl

theorem forM_ok {α : Type} {f : α → Act Unit} (l : List α) (h : ∀ x ∈ l, f x = .ok ()) : l.forM f = .ok () := by
  induction l with
  | nil => rfl
  | cons x t ih =>
    change (f x >>= fun _ => t.forM f) = _
    rw [h x (by simp), act_ok_bind]
    exact ih fun y hy => h y (by simp [hy])

section
variable {c : Ctl} {f : FM} {s : State} {d : Fld}

theorem run_vecStore {o : Out} {srcs : List (Operand × Fld)} {hot : Nat} {plan : State → Act (List VElem × State)}
    (ho : o = settle (s.vecStore f d srcs hot plan)) : Claims.vecStores f s d srcs hot plan o := by
  intro u s2 s3 s4 es rs pops data index planned checked stored
  have parity : (srcs.forM fun x => u.checkParity x.2 (List.range u.slen)) = .ok () := forM_ok _ index
  rw [ho]
  simp only [State.vecStore, pops, act_ok_bind, data, parity, planned, checked, stored, undo_ok, settle_ok]

variable (hg : s.guard c = true)
include hg

theorem exec_vst (hd : s.vecData (.vst c f) f false = .ok d) :
    exec (.vst c f) s = settle (s.vecStore f d [] 0 fun s => .ok (s.planUnit f (d.width / 8), s)) := by
  change execVst c f s = _
  rw [execVst, run_true _ hg, hd, act_ok_bind]

theorem exec_vsts (hd : s.vecData (.vsts c f) f false = .ok d) :
    exec (.vsts c f) s = settle (s.vecStore f d [] 1 fun s => .ok (s.planStride f, s)) := by
  change execVsts c f s = _
  rw [execVsts, run_true _ hg, hd, act_ok_bind]

theorem exec_vstx {x : Fld} (hd : s.vecData (.vstx c f) f false = .ok d) (hx : s.field f.opb .fm 0 .int = .ok x) :
    exec (.vstx c f) s = settle (s.vecStore f d [(f.opb, x)] 2 fun s => .ok (s.planIndex f (d.width / 8) x, s)) := by
  change execVstx c f s = _
  rw [execVstx, run_true _ hg, hd, act_ok_bind, hx, act_ok_bind]

theorem exec_vstd (hd : s.vecData (.vstd c f) f false = .ok d) :
    exec (.vstd c f) s = settle (s.vecStore f d [] 1 fun s => .ok (s.planDims f (d.width / 8), s)) := by
  change execVstd c f s = _
  rw [execVstd, run_true _ hg, hd, act_ok_bind]

theorem exec_vsth (hd : s.vecData (.vsth c f) f false = .ok d) (typed : s.typedCheck f.opb d.width = .ok ()) :
    exec (.vsth c f) s = settle (s.vecStore f d [] 2 fun s => s.planHandle f (d.width / 8)) := by
  change execVsth c f s = _
  rw [execVsth, run_true _ hg, hd, act_ok_bind, typed, undo_ok, act_ok_bind]

end

/-! ## Elements stored in memory (R189, R195) -/

theorem leBytes_getD (v : Nat) {n i : Nat} (h : i < n) : (leBytes n v).getD i 0 = BitVec.ofNat 8 (v / 2 ^ (8 * i)) := by
  rw [leBytes_eq_map, List.getD_eq_getElem?_getD, List.getElem?_map, List.getElem?_range h]
  rfl

/-- The pending store that an element of an access becomes; none in the stash or where it does not perform. -/
def pendingOf (k acc : Nat) (pages : List Pinned) (hot : Option Nat) (nt : Bool) (z : Nat) (data : Nat → Nat)
    (x : VElem × Ready) : Option Pending :=
  match x.2 with
  | .at_ (.hbm _ _ pa) =>
    some { ctx := k, acc := acc, pages := pages, home := .hbm, addr := pa, bytes := leBytes z (data x.1.pos), hot := hot
           nt := nt }
  | .at_ (.cluster a) =>
    some { ctx := k, acc := acc, pages := pages, home := .cluster, addr := a, bytes := leBytes z (data x.1.pos), hot := none
           nt := nt }
  | _ => none

section
variable {s t : State} {z acc : Nat} {hot : Option Nat} {pages : List Pinned} {nt : Bool} {data : Nat → Nat} {e : VElem}
  {r : Ready} {es rs : List (VElem × Ready)}

theorem State.storeElems_pass (h : ∀ l, r ≠ .at_ l) :
    s.storeElems z hot acc pages nt data ((e, r) :: es) = s.storeElems z hot acc pages nt data es := by
  cases r with
  | at_ l => exact absurd rfl (h l)
  | absent => rfl
  | unstored => rfl

theorem State.storeElems_pends (memory : ∀ x ∈ rs, ∀ off, x.2 ≠ .at_ (.stash off))
    (ok : s.storeElems z hot acc pages nt data rs = .ok t) :
    t = { s with pend := s.pend ++ rs.filterMap (pendingOf s.key acc pages hot nt z data) } := by
  induction rs generalizing s with
  | nil =>
    obtain rfl := Except.ok.inj ok
    simp
  | cons x es ih =>
    have rest := fun y hy => memory y (List.mem_cons_of_mem _ hy)
    obtain ⟨e, r⟩ := x
    match r with
    | .at_ (.hbm asid va pa) =>
      rw [ih rest ok]
      simp [pendingOf, State.key]
    | .at_ (.cluster a) =>
      rw [ih rest ok]
      simp [pendingOf, State.key]
    | .at_ (.stash off) => exact absurd rfl (memory (e, .at_ (.stash off)) (by simp) off)
    | .absent asid va => exact ih rest ok
    | .unstored => exact ih rest ok

/-! ## Elements stored in the stash (R216) -/

/-- Every element that performs does so within one unbound line of the stash. -/
def onUnbound (c : Core) (z : Nat) (rs : List (VElem × Ready)) : Prop :=
  ∀ x ∈ rs, ∀ l, x.2 = .at_ l → ∃ off, l = .stash off ∧ look c.lines (off / 512) = none ∧ off % 512 + z ≤ 512

/-- No two elements meet in the stash. -/
def apartInStash (z : Nat) (rs : List (VElem × Ready)) : Prop :=
  rs.Pairwise fun x y => ∀ o o', x.2 = .at_ (.stash o) → y.2 = .at_ (.stash o') → o + z ≤ o' ∨ o' + z ≤ o

theorem State.storeElems_stash {off : Nat} (unbound : look s.core.lines (off / 512) = none) :
    s.storeElems z hot acc pages nt data ((e, .at_ (.stash off)) :: es) =
      (s.stashPut s.cur.core off (leBytes z (data e.pos))).storeElems z hot acc pages nt data es := by
  have stored := State.storeLoc_stash (acc := acc) (pages := pages) (hot := hot) (nt := nt)
    (State.readyStash_unbound (s := s) (core := coreOfCtx s.key) (n := (leBytes z (data e.pos)).length) (write := true)
      (by rwa [coreOfCtx_key]))
  rw [State.storeElems, stored, act_ok_bind, coreOfCtx_key]

/-- The state after one element has been stored on an unbound line: other lines stay as they are, and the rest of the access
can go on. -/
theorem State.stashPut_next {off : Nat} {bytes : List Byte} (unbound : look s.core.lines (off / 512) = none) :
    let u := s.stashPut s.cur.core off bytes
    u.mem = s.mem ∧ u.cls = s.cls ∧ u.pend = s.pend ∧ u.core.lines = s.core.lines := by
  intro u
  refine ⟨rfl, rfl, rfl, ?_⟩
  have put : u = s.modCore _ := State.stashPut_unbound unbound bytes false
  rw [put, State.core_modCore]

theorem State.storeElems_onUnbound (unbound : onUnbound s.core z rs) (ok : s.storeElems z hot acc pages nt data rs = .ok t) :
    t.mem = s.mem ∧ t.cls = s.cls ∧ t.pend = s.pend ∧
    (∀ a, (∀ x ∈ rs, ∀ off, x.2 = .at_ (.stash off) → a < off ∨ off + z ≤ a) →
      rdByte t.core.stash a = rdByte s.core.stash a) ∧
    (apartInStash z rs → ∀ x ∈ rs, ∀ off, x.2 = .at_ (.stash off) → ∀ i, i < z →
      rdByte t.core.stash (off + i) = BitVec.ofNat 8 (data x.1.pos / 2 ^ (8 * i))) := by
  induction rs generalizing s with
  | nil =>
    obtain rfl := Except.ok.inj ok
    exact ⟨rfl, rfl, rfl, fun _ _ => rfl, fun _ x hx => absurd hx List.not_mem_nil⟩
  | cons x es ih =>
    obtain ⟨e, r⟩ := x
    have rest : onUnbound s.core z es := fun y hy => unbound y (List.mem_cons_of_mem _ hy)
    by_cases performs : ∃ l, r = .at_ l
    · obtain ⟨l, rfl⟩ := performs
      obtain ⟨off, rfl, free, fits⟩ := unbound (e, .at_ l) (by simp) l rfl
      rw [State.storeElems_stash free] at ok
      obtain ⟨mem, cls, pend, lines⟩ := State.stashPut_next (bytes := leBytes z (data e.pos)) free
      obtain ⟨mem', cls', pend', frame, bytes⟩ := ih (by rwa [onUnbound, lines]) ok
      have put (a : Nat) := (congrArg (rdByte · a) (s.core_stashPut off (leBytes z (data e.pos)) false)).trans (rdByte_wrBytes ..)
      rw [leBytes_length] at put
      refine ⟨mem'.trans mem, cls'.trans cls, pend'.trans pend, fun a out => ?_, fun apart => ?_⟩
      · have here := out (e, .at_ (.stash off)) (by simp) off rfl
        rw [frame a fun y hy => out y (List.mem_cons_of_mem _ hy), put, if_neg (by omega)]
      · obtain ⟨first, later⟩ := List.pairwise_cons.1 apart
        intro y hy o place i hi
        rcases List.mem_cons.1 hy with rfl | hy
        · obtain rfl : off = o := by simpa using place
          have untouched : ∀ y ∈ es, ∀ o, y.2 = .at_ (.stash o) → off + i < o ∨ o + z ≤ off + i := fun y hy o place => by
            have := first y hy off o rfl place
            omega
          rw [frame _ untouched, put, if_pos (by omega), Nat.add_sub_cancel_left, leBytes_getD _ hi]
        · exact bytes later y hy o place i hi
    · have pass : ∀ l, r ≠ .at_ l := fun l h => performs ⟨l, h⟩
      rw [State.storeElems_pass pass] at ok
      obtain ⟨mem, cls, pend, frame, bytes⟩ := ih rest ok
      refine ⟨mem, cls, pend, fun a out => frame a fun y hy => out y (List.mem_cons_of_mem _ hy), fun apart y hy off place => ?_⟩
      rcases List.mem_cons.1 hy with rfl | hy
      · exact absurd place (pass _)
      · exact bytes (List.pairwise_cons.1 apart).2 y hy off place

end

end Sys2Proof.Machine

namespace Sys2Proof.Proofs
open Sys2Proof Sys2Proof.Machine Sys2Proof.Claims

/-- Settles O26: each form by the shape that all share, and the elements by induction over the access, each becoming a pending
store or landing in the stash before the next. -/
theorem vectorStoreResults : Obligations.VectorStoreResults := by
  unfold Obligations.VectorStoreResults
  refine ⟨fun c f s d x hg => ⟨fun hd => run_vecStore (exec_vst hg hd), fun hd => run_vecStore (exec_vsts hg hd),
    fun hd hx => run_vecStore (exec_vstx hg hd hx), fun hd => run_vecStore (exec_vstd hg hd),
    fun hd typed => run_vecStore (exec_vsth hg hd typed)⟩,
    fun s t z acc hot pages nt data rs ok => ⟨fun memory => ?memory, fun unbound => ?stash⟩⟩
  case memory =>
    rw [State.storeElems_pends memory ok]
    exact ⟨rfl, rfl, rfl, rfl⟩
  case stash => exact State.storeElems_onUnbound unbound ok

end Sys2Proof.Proofs
end

section
/-! SUPPORT. Prefetch, stash maintenance and stash fill: what each form answers and keeps (R219 to R221). -/

namespace Sys2Proof.Machine

/-! ## Prefetch (R219) -/

/-- A prefetch touches the TLBs, the L1, the home L2 and the stash alone. -/
theorem State.prefetch_keeps {α : Type} (p : State → α) (tlbs : ∀ (s : State) v, p { s with tlbs := v } = p s)
    (cores : ∀ (s : State) v, p { s with cores := v } = p s) (quarters : ∀ (s : State) v, p { s with quarters := v } = p s)
    (s : State) (l1 nt : Bool) (q : Word) : p (s.prefetch l1 nt q) = p s := by
  unfold State.prefetch
  split
  case h_1 va _ =>
    have walked := s.tlbWalk_keeps p tlbs s.cur.core s.asid va
    split
    next found =>
      rw [found] at walked
      dsimp only
      split
      · exact walked
      · split
        · exact (quarters _ _).trans ((cores _ _).trans walked)
        · exact (quarters _ _).trans walked
    · rfl
  case h_2 off _ =>
    split
    · rfl
    · split
      next filled => exact State.fillSector_keeps p cores quarters filled
      · rfl
  case h_3 => rfl

/-- The state after the prefetches of a `prf`. -/
def State.prefetched (s : State) (f : FM) (sc : Scope) : State :=
  (sectorStarts (s.fmBase f) (min (s.val f.opb).toNat 65536)).foldl (fun s q => s.prefetch (sc == .core) f.nt q) s

theorem State.prefetched_keeps {α : Type} (p : State → α) (tlbs : ∀ (s : State) v, p { s with tlbs := v } = p s)
    (cores : ∀ (s : State) v, p { s with cores := v } = p s) (quarters : ∀ (s : State) v, p { s with quarters := v } = p s)
    (s : State) (f : FM) (sc : Scope) : p (s.prefetched f sc) = p s :=
  foldl_keeps p (fun s q => s.prefetch_keeps p tlbs cores quarters _ _ q) _ s

/-- The scalar registers of a context do not change as its PC advances. -/
theorem State.advance_s (s : State) : s.advance.ctx.s = s.ctx.s := by
  unfold State.advance State.setThread
  dsimp only
  split
  · exact State.ctx_modStrip_keeps Ctx.s (fun _ _ => rfl) _ _
  · rw [State.ctx_modCtx]

/-! ## Lines and L1 sectors dropped (R220) -/

theorem Core.look_bind (k : Core) (n : Nat) (va : Word) (asid : Fin 16) : look (k.bind n va asid).lines n =
    some { va := va, asid := asid, frame := none, secs := .replicate 4 .invalid } := look_put_same ..

theorem Core.look_unbind (k : Core) (n : Nat) : look (k.unbind n).lines n = none := look_del_same ..

theorem Core.rdByte_unbind (k : Core) {n a : Nat} (h : a / 512 = n) : rdByte (k.unbind n).stash a = 0 := by
  rw [Core.unbind, rdByte_filter_key fun x => x / 512 != n]
  simp [h]

/-- The L1 without the sector of a virtual address. -/
def Core.dropVirtual (k : Core) (asid : Fin 16) (va : Nat) : Core :=
  { k with l1 := k.l1.filter fun e => !(e.asid == asid && e.va == va / 128 * 128) }

theorem Core.l1Find_dropVirtual (k : Core) (asid : Fin 16) (va : Nat) : (k.dropVirtual asid va).l1Find asid va = none := by
  refine List.find?_eq_none.2 fun e he => ?_
  simpa only [Bool.not_eq_true, Bool.not_eq_true'] using (List.mem_filter.1 he).2

/-! ## A range filled (R221, R326) -/

/-- Posting a residency request touches the ring alone (R326). -/
theorem State.postResidency_keeps {α : Type} (p : State → α) (xlat : ∀ (s : State) v, p { s with xlat := v } = p s) (s : State)
    (asid : Fin 16) (va : Nat) (core : BitVec 32) : p (s.postResidency asid va core) = p s := by
  unfold State.postResidency
  dsimp only
  split
  · rfl
  · exact xlat _ _

theorem State.fillRange_keeps {α : Type} (p : State → α) (cores : ∀ (s : State) v, p { s with cores := v } = p s)
    (quarters : ∀ (s : State) v, p { s with quarters := v } = p s) (xlat : ∀ (s : State) v, p { s with xlat := v } = p s)
    {s t : State} {q : Word} {l : List Nat} (h : s.fillRange q l = .ok t) : p t = p s := by
  induction l generalizing s with
  | nil =>
    obtain rfl := Except.ok.inj h
    rfl
  | cons b bs ih =>
    unfold State.fillRange at h
    split at h
    next filled => exact (ih h).trans (State.fillSector_keeps p cores quarters filled)
    next => exact (ih h).trans (State.postResidency_keeps p xlat ..)
    all_goals exact nomatch h

/-! ## The forms (R219 to R221) -/

section
variable {c : Ctl} {f : FM} {s u : State} {sc : Scope} (hg : s.guard c = true)
include hg

theorem exec_prf (scope : s.scope f.scope (.prf c f) = .ok sc) : exec (.prf c f) s = .next (s.prefetched f sc).advance := by
  change execPrf c f s = _
  rw [execPrf, run_true _ hg, scope, act_ok_bind]
  rfl

section
variable {off : Nat} (own : s.ownStash (s.fmBase f) 1 = .ok off) (calm : s.core.stalled (512 * (off / 512)) 512 true = false)
  (dropped : s.dropLine s.cur.core (off / 512) = .ok u)
include own calm dropped

theorem exec_cmoWb_unbound (scope : s.scope f.scope (.cmoWb c f) = .ok sc) (unbound : look u.core.lines (off / 512) = none) :
    exec (.cmoWb c f) s = .next u.advance := by
  change execCmoWb c f s = _
  rw [execCmoWb, run_true _ hg]
  simp only [scope, own, calm, dropped, act_ok_bind, undo_ok, unbound, Bool.false_eq_true, if_false, settle_ok]

theorem exec_cmoWb_bound {l : Line} (scope : s.scope f.scope (.cmoWb c f) = .ok sc)
    (bound : look u.core.lines (off / 512) = some l) :
    exec (.cmoWb c f) s = .next (u.modCore fun k => k.bind (off / 512) l.va l.asid).advance := by
  change execCmoWb c f s = _
  rw [execCmoWb, run_true _ hg]
  simp only [scope, own, calm, dropped, act_ok_bind, undo_ok, bound, Bool.false_eq_true, if_false, settle_ok]

theorem exec_cmoBind (scope : s.scope f.scope (.cmoBind c f) = .ok sc) (fit : s.val f.opd = 0 ∨ bindable (s.val f.opd) = true) :
    exec (.cmoBind c f) s = .next (u.modCore fun k =>
      if s.val f.opd = 0 then k.unbind (off / 512) else k.bind (off / 512) (s.val f.opd) u.asid).advance := by
  have good : (s.val f.opd != 0 && !bindable (s.val f.opd)) = false := by
    rcases fit with zero | fit
    · simp [zero]
    · simp [fit]
  change execCmoBind c f s = _
  rw [execCmoBind, run_true _ hg]
  simp only [scope, own, good, calm, dropped, act_ok_bind, undo_ok, Bool.false_eq_true, if_false, settle_ok]

end

theorem exec_cmoInv {asid : Fin 16} {va pa : Nat} (scope : s.scope f.scope (.cmoInv c f) = .ok .core)
    (formed : malformed (s.fmBase f) = none) (window : windowOf (s.fmBase f) = 0 ∨ windowOf (s.fmBase f) = 8)
    (loc : s.scalarLoc (s.fmBase f) 1 1 false = .ok (.hbm asid va pa, u)) :
    exec (.cmoInv c f) s = .next (u.modCore fun k => k.dropVirtual asid va).advance := by
  have near : (windowOf (s.fmBase f) != 0 && windowOf (s.fmBase f) != 8) = false := by
    rcases window with h | h <;> simp [h]
  change execCmoInv c f s = _
  rw [execCmoInv, run_true _ hg]
  simp only [scope, formed, near, loc, act_ok_bind, bne_self_eq_false, Bool.false_eq_true, if_false, settle_ok]
  rfl

theorem exec_stfl {off : Nat} (hd : Claims.destOk s f.opd) (own : s.ownStash (s.fmBase f) (s.val f.opb).toNat = .ok off)
    (calm : s.core.stalled off (s.val f.opb).toNat false = false)
    (filled : s.fillRange (s.fmBase f) (granules 7 off (s.val f.opb).toNat) = .ok u) :
    exec (.stfl c f) s = .next (u.putP f.opd ((granules 7 off (s.val f.opb).toNat).all u.core.sectorReady)).advance := by
  change execStfl c f s = _
  rw [execStfl, run_true _ hg]
  simp only [checkDest_ok hd, own, calm, filled, act_ok_bind, Bool.false_eq_true, if_false, settle_ok]

end

end Sys2Proof.Machine
end

section
/-! SUPPORT. The fill and the write-back of a stash sector: the state that each leaves, and its bytes (R181, R182, R185, R189,
R195). -/

namespace Sys2Proof.Machine

theorem State.coreAt_congr {s t : State} (h : t.cores = s.cores) (n : Nat) : t.coreAt n = s.coreAt n := by
  simp only [State.coreAt, h]

@[simp] theorem State.coreAt_touchL2 (s : State) (pa n : Nat) : (s.touchL2 pa).coreAt n = s.coreAt n := rfl

/-- A core with one page more finds a slot for its pin (R325). -/
theorem State.pinsFree_one {s : State} {core : Nat} (g : Pinned) (h : s.pinsHeld core < 4096) : s.pinsFree core [g] = true :=
  decide_eq_true h

/-! ## A fill (R181) -/

/-- The state after a sector has been filled from a frame. -/
def State.filled (s : State) (core line : Nat) (j : Fin 4) (l : Line) (pa : Nat) (rec : Frame) : State :=
  (s.modCoreAt core fun c =>
    ({ c with stash := wrBytes c.stash (512 * line + 128 * j) (rdBytes s.mem pa 128)
              stashPoison := remark 3 (remark 3 c.stashPoison (512 * line + 128 * j) 64 (s.poisoned pa 64))
                (512 * line + 128 * j + 64) 64 (s.poisoned (pa + 64) 64) }).setLine line
      ({ l with frame := some rec }.setSec j .clean)).touchL2 pa

section
variable {s : State} {core line pa : Nat} {j : Fin 4} {l : Line} {rec : Frame} (bound : look (s.coreAt core).lines line = some l)
include bound

theorem State.fillSector_ready (ready : l.secs.get j ≠ .invalid) : s.fillSector core line j = .done s := by
  unfold State.fillSector
  rw [bound]
  dsimp only
  split
  next empty => exact absurd empty ready
  next => rfl

theorem State.fillSector_fills (empty : l.secs.get j = .invalid) (frame : s.lineFrame l j false = .at_ pa rec)
    (free : s.claimed pa 128 = false) (pins : s.pinsHeld core < 4096) :
    s.fillSector core line j = .done (s.filled core line j l pa rec) := by
  simp only [State.fillSector, bound, empty, frame, free, State.pinsFree_one _ pins]
  rfl

end

section
variable (s : State) (core line : Nat) (j : Fin 4) (l : Line) (pa : Nat) (rec : Frame)

theorem State.coreAt_filled_lines : look ((s.filled core line j l pa rec).coreAt core).lines line =
    some ({ l with frame := some rec }.setSec j .clean) := by
  rw [State.filled, State.coreAt_touchL2, State.coreAt_modCoreAt_same]
  exact look_put_same ..

theorem State.rdByte_filled {i : Nat} (hi : i < 128) :
    rdByte ((s.filled core line j l pa rec).coreAt core).stash (512 * line + 128 * j.val + i) = rdByte s.mem (pa + i) := by
  have put := rdByte_wrBytes (s.coreAt core).stash (512 * line + 128 * j.val) (512 * line + 128 * j.val + i) (rdBytes s.mem pa 128)
  rw [rdBytes_length, if_pos (by omega), Nat.add_sub_cancel_left, rdBytes_getD _ _ hi] at put
  rw [State.filled, State.coreAt_touchL2, State.coreAt_modCoreAt_same]
  exact put

end

theorem exec_stashFill {s t : State} {core : Fin 320} {line : Nat} {j : Fin 4} (h : s.fillSector core line j = .done t) :
    exec (.stashFill core line j) s = .next t := by
  change execStashFill core line j s = _
  simp only [execStashFill, h]

/-! ## The bytes of a dirty mask (R182) -/

theorem rdByte_foldl_wrBytes (g : Nat → Byte) (base : Nat) (is : List Nat) (m : Memory) (a : Nat) :
    rdByte (is.foldl (fun m b => wrBytes m (base + b) [g b]) m) a =
      if base ≤ a ∧ a - base ∈ is then g (a - base) else rdByte m a := by
  induction is generalizing m with
  | nil => simp
  | cons b is ih =>
    rw [List.foldl_cons, ih, rdByte_wrBytes]
    by_cases later : base ≤ a ∧ a - base ∈ is
    · rw [if_pos later, if_pos ⟨later.1, List.mem_cons_of_mem _ later.2⟩]
    · rw [if_neg later]
      by_cases here : a = base + b
      · subst here
        simp
      · have miss : ¬(base + b ≤ a ∧ a < base + b + [g b].length) := by simp; omega
        have none : ¬(base ≤ a ∧ a - base ∈ b :: is) := by
          rintro ⟨low, hit⟩
          rcases List.mem_cons.1 hit with rfl | hit
          · omega
          · exact later ⟨low, hit⟩
        rw [if_neg miss, if_neg none]

/-- The bytes of one half of a sector that a mask names, as a core's stash holds them, put into memory. -/
def putHalf (c : Core) (mask : BitVec 128) (pa off half : Nat) (m : Memory) : Memory :=
  ((List.range 64).filter fun b => mask.getLsbD (64 * half + b)).foldl
    (fun m b => wrBytes m (pa + (64 * half + b)) [rdByte c.stash (off + (64 * half + b))]) m

theorem rdByte_putHalf (c : Core) (mask : BitVec 128) (pa off half : Nat) (m : Memory) (a : Nat) :
    rdByte (putHalf c mask pa off half m) a =
      if pa + 64 * half ≤ a ∧ a < pa + 64 * half + 64 ∧ mask.getLsbD (a - pa) = true then rdByte c.stash (off + (a - pa))
      else rdByte m a := by
  have shifted : (fun (m : Memory) (b : Nat) => wrBytes m (pa + (64 * half + b)) [rdByte c.stash (off + (64 * half + b))]) =
      fun m b => wrBytes m (pa + 64 * half + b) [(fun b => rdByte c.stash (off + (64 * half + b))) b] := by
    funext m b
    rw [Nat.add_assoc]
  rw [putHalf, shifted, rdByte_foldl_wrBytes]
  by_cases low : pa + 64 * half ≤ a
  · have place : 64 * half + (a - (pa + 64 * half)) = a - pa := by omega
    simp only [List.mem_filter, List.mem_range, place, low, true_and]
    exact if_congr (and_congr_left fun _ => by omega) rfl rfl
  · rw [if_neg fun h => low h.1, if_neg fun h => low h.1]

section
variable (s : State) (core pa : Nat) (mask : BitVec 128) (off : Nat)

/-- A write-back touches memory with its marks and changes, the L1s and the home L2 (R182). -/
theorem State.writeMasked_keeps {α : Type} (p : State → α) (mem : ∀ (s : State) v, p { s with mem := v } = p s)
    (memPoison : ∀ (s : State) v, p { s with memPoison := v } = p s) (torn : ∀ (s : State) v, p { s with torn := v } = p s)
    (cores : ∀ (s : State) v, p { s with cores := v } = p s) (quarters : ∀ (s : State) v, p { s with quarters := v } = p s)
    (who : Option Writer) : p (s.writeMasked core pa mask off who) = p s := by
  have bytes (is : List Nat) (h : State → Nat → Memory) (s : State) : p (is.foldl (fun s b => { s with mem := h s b }) s) = p s :=
    foldl_keeps p (fun t b => mem t _) is s
  have own (s : State) : p (s.dropOwnL1 who pa) = p s := by
    unfold State.dropOwnL1
    split
    · exact cores _ _
    · rfl
  unfold State.writeMasked
  cases who with
  | none =>
    refine (torn _ _).trans ((quarters _ _).trans ((own _).trans ((cores _ _).trans ?_)))
    exact (memPoison _ _).trans ((bytes _ _ _).trans ((memPoison _ _).trans (bytes _ _ _)))
  | some w =>
    refine (quarters _ _).trans ((own _).trans ((cores _ _).trans ?_))
    exact (memPoison _ _).trans ((bytes _ _ _).trans ((memPoison _ _).trans ((bytes _ _ _).trans (torn _ _))))

theorem State.dropOwnL1_mem (who : Option Writer) : (s.dropOwnL1 who pa).mem = s.mem := by
  unfold State.dropOwnL1
  split <;> rfl

theorem State.writeMasked_mem (who : Option Writer) : (s.writeMasked core pa mask off who).mem =
    putHalf (s.coreAt core) mask pa off 1 (putHalf (s.coreAt core) mask pa off 0 s.mem) := by
  have half (n : Nat) (s' : State) : (((List.range 64).filter fun b => mask.getLsbD (64 * n + b)).foldl (fun (s' : State) b =>
        { s' with mem := wrBytes s'.mem (pa + (64 * n + b)) [rdByte (s.coreAt core).stash (off + (64 * n + b))] }) s').mem =
      putHalf (s.coreAt core) mask pa off n s'.mem :=
    (List.foldl_hom State.mem fun _ _ => rfl).symm
  unfold State.writeMasked
  cases who with
  | none => exact (State.dropOwnL1_mem ..).trans ((half 1 _).trans (congrArg _ (half 0 _)))
  | some w => exact (State.dropOwnL1_mem ..).trans ((half 1 _).trans (congrArg _ (half 0 _)))

/-- The bytes of memory after a write-back: those that the mask names come from the stash (R182). -/
theorem State.rdByte_writeMasked (who : Option Writer) (a : Nat) : rdByte (s.writeMasked core pa mask off who).mem a =
    if pa ≤ a ∧ a < pa + 128 ∧ mask.getLsbD (a - pa) = true then rdByte (s.coreAt core).stash (off + (a - pa))
    else rdByte s.mem a := by
  rw [State.writeMasked_mem, rdByte_putHalf, rdByte_putHalf]
  by_cases hit : mask.getLsbD (a - pa) = true
  · simp only [hit, and_true]
    by_cases upper : pa + 64 ≤ a ∧ a < pa + 128
    · rw [if_pos (by omega), if_pos (by omega)]
    · rw [if_neg (by omega)]
      exact if_congr (by omega) rfl rfl
  · simp only [hit, Bool.false_eq_true, and_false, if_false]

/-- The L1 of the core loses the sector that it writes back, and no core changes else (R182). -/
theorem State.writeMasked_cores (k : Nat) :
    (s.writeMasked core pa mask off (some (.stash k))).cores = (s.modCoreAt core fun c => c.dropL1 pa).cores := by
  have half (is : List Nat) (h : State → Nat → Memory) (s : State) :
      (is.foldl (fun s b => { s with mem := h s b }) s).cores = s.cores := by
    refine foldl_keeps State.cores (fun t b => ?_) is s
    rfl
  simp only [State.writeMasked, Option.isNone_some, Bool.false_eq_true, if_false, State.dropOwnL1, State.touchL2,
    State.modQuarter_cores, State.modCoreAt, State.setCoreAt, State.coreAt, half, State.noteChange]

end

/-! ## A write-back (Table 11-3) -/

/-- A sector of a line after its write-back: INVALID where it is dropped, else CLEAN, and due no longer. -/
def State.cleaned (s : State) (core line : Nat) (j : Fin 4) (drop : Bool) (l : Line) : State :=
  s.modCoreAt core fun c =>
    { c.setLine line (l.setSec j (if drop then .invalid else .clean)) with due := setDel c.due (4 * line + j) }

/-- The state after a DIRTY sector has been written back to a frame. -/
def State.written (s : State) (core line : Nat) (j : Fin 4) (drop : Bool) (who : Option Writer) (l : Line) (mask : BitVec 128)
    (pa : Nat) (rec : Frame) : State :=
  (s.writeMasked core pa mask (512 * line + 128 * j) who).cleaned core line j drop { l with frame := some rec }

section
variable {s : State} {core line pa : Nat} {j : Fin 4} {drop force : Bool} {who : Option Writer} {l : Line} {mask : BitVec 128}
  {rec : Frame}

theorem State.writeBack_dirty (bound : look (s.coreAt core).lines line = some l) (dirty : l.secs.get j = .dirty mask)
    (frame : s.lineFrame l j true = .at_ pa rec) (free : force = true ∨ s.claimed pa 128 = false)
    (pins : s.pinsHeld core < 4096) :
    s.writeBack core line j drop force who = .ok (s.written core line j drop who l mask pa rec) := by
  have goes : (!force && s.claimed pa 128) = false := by
    rcases free with h | h <;> simp [h]
  simp only [State.writeBack, bound, dirty, frame, goes, State.pinsFree_one _ pins]
  rfl

theorem exec_stashWriteBack {core : Fin 320} {t : State} (due : 4 * line + j.val ∈ (s.coreAt core).due)
    (goes : (s.quarter (quarterOf core)).stopped = false) (h : s.writeBack core line j false = .ok t) :
    exec (.stashWriteBack core line j) s = .next t := by
  change execStashWriteBack core line j s = _
  have listed : (s.coreAt core).due.contains (4 * line + j.val) = true := List.contains_iff_mem.2 due
  simp only [execStashWriteBack, listed, goes, h]
  rfl

theorem exec_stashWriteBack_early {core : Fin 320} (early : 4 * line + j.val ∉ (s.coreAt core).due) :
    exec (.stashWriteBack core line j) s = .next s := by
  change execStashWriteBack core line j s = _
  have unlisted : (s.coreAt core).due.contains (4 * line + j.val) = false := by simpa using early
  simp only [execStashWriteBack, unlisted]
  rfl

end

theorem State.lines_written (s : State) (core line : Nat) (j : Fin 4) (drop : Bool) (who : Option Writer) (l : Line)
    (mask : BitVec 128) (pa : Nat) (rec : Frame) : look ((s.written core line j drop who l mask pa rec).coreAt core).lines line =
      some ({ l with frame := some rec }.setSec j (if drop then .invalid else .clean)) := by
  rw [State.written, State.cleaned, State.coreAt_modCoreAt_same]
  exact look_put_same ..

end Sys2Proof.Machine
end

section
/-! SUPPORT. A back-invalidate: its acts one after another, what each can do to a sector, and what all of them leave in the L1s, in
the stashes and in memory (R185, R385). -/

namespace Sys2Proof.Machine

/-! ## A run that reaches a state and keeps it -/

/-- A run over a list in which one act establishes what every act keeps. -/
theorem foldl_reaches {σ β : Type} {f : σ → β → σ} {l : List β} {I Q : σ → Prop} {x : β} (hx : x ∈ l)
    (keeps : ∀ s, ∀ b ∈ l, I s → I (f s b)) (reaches : ∀ s, I s → Q (f s x))
    (stays : ∀ s, ∀ b ∈ l, I s → Q s → Q (f s b)) {s : σ} (start : I s) : Q (l.foldl f s) := by
  induction l generalizing s with
  | nil => exact absurd hx List.not_mem_nil
  | cons b t ih =>
    have keeps' := fun s c hc => keeps s c (List.mem_cons_of_mem b hc)
    have stays' := fun s c hc => stays s c (List.mem_cons_of_mem b hc)
    rcases List.mem_cons.1 hx with rfl | hx
    · exact (List.foldlRecOn (motive := fun s => I s ∧ Q s) t f ⟨keeps s x (by simp) start, reaches s start⟩
        fun s h c hc => ⟨keeps' s c hc h.1, stays' s c hc h.1 h.2⟩).2
    · exact ih hx keeps' stays' (keeps s b (by simp) start)

/-! ## Entries of tables -/

theorem mem_of_look {α : Type} {m : List (Nat × α)} {k : Nat} {v : α} (h : look m k = some v) : (k, v) ∈ m := by
  induction m with
  | nil => exact nomatch h
  | cons x t ih =>
    obtain ⟨a, w⟩ := x
    unfold look at h
    split at h
    next here =>
      obtain rfl := Option.some.inj h
      simp [here]
    next => exact List.mem_cons_of_mem _ (ih h)

theorem look_of_mem {α : Type} {m : List (Nat × α)} {x : Nat × α} (ordered : rising m = true) (h : x ∈ m) :
    look m x.1 = some x.2 := by
  induction m with
  | nil => exact absurd h List.not_mem_nil
  | cons y t ih =>
    obtain ⟨higher, rest⟩ := (rising_cons y t).1 ordered
    rcases List.mem_cons.1 h with rfl | h
    · simp [look]
    · rw [look, if_neg (Nat.ne_of_lt (higher x h)), ih rest h]

theorem State.coreAt_of_look {s : State} {n : Nat} {c : Core} (h : look s.cores n = some c) : s.coreAt n = c := by
  rw [State.coreAt, lookD, h, Option.getD_some]

/-! ## What fades -/

/-- A line later: it keeps a frame that it has recorded, and each sector stays or becomes INVALID. -/
def Line.fades (l l' : Line) : Prop :=
  (∀ f, l.frame = some f → l'.frame = some f) ∧ ∀ k, l'.secs.get k = l.secs.get k ∨ l'.secs.get k = .invalid

/-- A core later: the same bytes in its stash, no sector new in its L1, and the same lines bound. -/
structure Core.fades (c c' : Core) : Prop where
  stash : c'.stash = c.stash
  l1 : ∀ x ∈ c'.l1, x ∈ c.l1
  lines : ∀ i, Option.Rel Line.fades (look c.lines i) (look c'.lines i)

def State.fades (s t : State) : Prop := ∀ n, (s.coreAt n).fades (t.coreAt n)

theorem Line.fades_refl (l : Line) : l.fades l := ⟨fun _ h => h, fun _ => .inl rfl⟩
theorem Line.fades_trans {l m r : Line} (h : l.fades m) (h' : m.fades r) : l.fades r :=
  ⟨fun f hf => h'.1 f (h.1 f hf), fun k => (h'.2 k).elim (fun e => e ▸ h.2 k) .inr⟩

theorem optionRel_refl {α : Type} {r : α → α → Prop} (h : ∀ a, r a a) (o : Option α) : Option.Rel r o o := by
  cases o with
  | none => exact .none
  | some a => exact .some (h a)

theorem Core.fades_refl (c : Core) : c.fades c := ⟨rfl, fun _ h => h, fun _ => optionRel_refl Line.fades_refl _⟩
theorem optionRel_trans {α : Type} {r : α → α → Prop} (h : ∀ a b c, r a b → r b c → r a c) {o p q : Option α}
    (first : Option.Rel r o p) (second : Option.Rel r p q) : Option.Rel r o q := by
  cases first with
  | none => exact second
  | some a =>
    cases second with
    | some b => exact .some (h _ _ _ a b)

theorem Core.fades_trans {c d e : Core} (h : c.fades d) (h' : d.fades e) : c.fades e :=
  ⟨h'.stash.trans h.stash, fun x hx => h.l1 x (h'.l1 x hx), fun i =>
    optionRel_trans (r := Line.fades) (fun _ _ _ => Line.fades_trans) (h.lines i) (h'.lines i)⟩

theorem State.fades.refl (s : State) : s.fades s := fun _ => Core.fades_refl _
theorem State.fades.trans {s t u : State} (h : s.fades t) (h' : t.fades u) : s.fades u := fun n =>
  Core.fades_trans (h n) (h' n)

theorem State.fades_of_cores {s t : State} (h : t.cores = s.cores) : s.fades t := fun n => by
  rw [State.coreAt_congr h]
  exact Core.fades_refl _

/-- One core fades, and no other changes. -/
theorem State.fades_modCoreAt {s : State} {n : Nat} {g : Core → Core} (h : (s.coreAt n).fades (g (s.coreAt n))) :
    s.fades (s.modCoreAt n g) := fun k => by
  by_cases here : k = n
  · subst here
    rwa [State.coreAt_modCoreAt_same]
  · rw [State.coreAt_modCoreAt_ne s g here]
    exact Core.fades_refl _

theorem Core.fades_dropL1 (c : Core) (pa : Nat) : c.fades (c.dropL1 pa) :=
  ⟨rfl, fun _ h => List.mem_of_mem_filter h, fun _ => optionRel_refl Line.fades_refl _⟩

theorem State.fades_cleaned {s : State} {core line : Nat} {j : Fin 4} {l l' : Line}
    (bound : look (s.coreAt core).lines line = some l) (frame : ∀ f, l.frame = some f → l'.frame = some f)
    (secs : l'.secs = l.secs) : s.fades (s.cleaned core line j true l') := by
  refine State.fades_modCoreAt ⟨rfl, fun _ h => h, fun i => ?_⟩
  change Option.Rel Line.fades _ (look (put (s.coreAt core).lines line (l'.setSec j .invalid)) i)
  by_cases here : i = line
  · subst here
    rw [look_put_same, bound]
    refine .some ⟨frame, fun k => ?_⟩
    rw [Line.setSec, secs]
    by_cases same : j.val = k.val
    · obtain rfl := Fin.ext same
      exact .inr (Vector.getElem_set_self ..)
    · exact .inl (Vector.getElem_set_ne j.isLt k.isLt same)
  · rw [look_put_ne _ _ here]
    exact optionRel_refl Line.fades_refl _

/-! ## The state of one sector -/

/-- The state of a sector of a core's stash line, where the line is bound. -/
def State.secAt (s : State) (n i : Nat) (j : Fin 4) : Option SectorState := (look (s.coreAt n).lines i).map (·.secs.get j)

theorem State.secAt_of_look {s : State} {n i : Nat} {l : Line} (h : look (s.coreAt n).lines i = some l) (j : Fin 4) :
    s.secAt n i j = some (l.secs.get j) := by
  rw [State.secAt, h, Option.map_some]

theorem State.secAt_congr {s t : State} (h : t.cores = s.cores) (n i : Nat) (j : Fin 4) : t.secAt n i j = s.secAt n i j := by
  rw [State.secAt, State.coreAt_congr h, State.secAt]

theorem State.secAt_dropL1 (s : State) (core pa n i : Nat) (j : Fin 4) :
    (s.modCoreAt core fun c => c.dropL1 pa).secAt n i j = s.secAt n i j := by
  unfold State.secAt
  by_cases here : n = core
  · subst here
    rw [State.coreAt_modCoreAt_same]
    rfl
  · rw [State.coreAt_modCoreAt_ne s _ here]

theorem State.secAt_cleaned_same (s : State) (core line : Nat) (j : Fin 4) (l : Line) :
    (s.cleaned core line j true l).secAt core line j = some .invalid := by
  rw [State.cleaned, State.secAt, State.coreAt_modCoreAt_same]
  change Option.map _ (look (put (s.coreAt core).lines line (l.setSec j .invalid)) line) = _
  rw [look_put_same, Option.map_some]
  exact congrArg some (Vector.getElem_set_self ..)

theorem State.secAt_cleaned_ne {s : State} {core line : Nat} {j : Fin 4} {l l' : Line}
    (bound : look (s.coreAt core).lines line = some l) (secs : l'.secs = l.secs) {n i : Nat} {k : Fin 4}
    (elsewhere : n ≠ core ∨ i ≠ line ∨ k ≠ j) : (s.cleaned core line j true l').secAt n i k = s.secAt n i k := by
  unfold State.secAt State.cleaned
  by_cases sameCore : n = core
  · subst sameCore
    rw [State.coreAt_modCoreAt_same]
    change Option.map _ (look (put (s.coreAt n).lines line (l'.setSec j .invalid)) i) = _
    by_cases sameLine : i = line
    · subst sameLine
      have other : j.val ≠ k.val := fun e => by simp [Fin.ext e] at elsewhere
      rw [look_put_same, bound, Option.map_some, Option.map_some, Line.setSec, secs]
      exact congrArg some (Vector.getElem_set_ne j.isLt k.isLt other)
    · rw [look_put_ne _ _ sameLine]
  · rw [State.coreAt_modCoreAt_ne s _ sameCore]

/-- A sector that has faded is as it was or INVALID. -/
theorem State.fades.secAt {s t : State} (h : s.fades t) (n i : Nat) (j : Fin 4) :
    t.secAt n i j = s.secAt n i j ∨ t.secAt n i j = some .invalid := by
  have lines := (h n).lines i
  unfold State.secAt
  generalize look (s.coreAt n).lines i = before, look (t.coreAt n).lines i = after at lines
  cases lines with
  | none => exact .inl rfl
  | some faded => exact (faded.2 j).imp (congrArg some) (congrArg some)

theorem State.fades.secAt_invalid {s t : State} (h : s.fades t) {n i : Nat} {j : Fin 4} (empty : s.secAt n i j = some .invalid) :
    t.secAt n i j = some .invalid := (h.secAt n i j).elim (·.trans empty) id

/-- A bound line that has faded is bound, on the frame that it recorded. -/
theorem State.fades.look {s t : State} (h : s.fades t) {n i : Nat} {l : Line} (bound : look (s.coreAt n).lines i = some l) :
    ∃ l', look (t.coreAt n).lines i = some l' ∧ l.fades l' := by
  have lines := (h n).lines i
  rw [bound] at lines
  generalize Machine.look (t.coreAt n).lines i = after at lines ⊢
  cases lines with
  | some faded => exact ⟨_, rfl, faded⟩

theorem State.lines_writeMasked (s : State) (core pa : Nat) (mask : BitVec 128) (off k n : Nat) :
    ((s.writeMasked core pa mask off (some (.stash k))).coreAt n).lines = (s.coreAt n).lines := by
  rw [State.coreAt_congr (State.writeMasked_cores ..)]
  by_cases here : n = core
  · subst here
    rw [State.coreAt_modCoreAt_same]
    rfl
  · rw [State.coreAt_modCoreAt_ne s _ here]

/-! ## The recorded frame -/

theorem State.lineFrame_record {s : State} {l : Line} {j : Fin 4} {write : Bool} {pa : Nat} {f rec : Frame}
    (recorded : l.frame = some f) (h : s.lineFrame l j write = .at_ pa rec) : rec = f := by
  unfold State.lineFrame at h
  rw [recorded] at h
  dsimp only at h
  split at h
  · exact nomatch h
  · split at h
    · exact (LineFrame.at_.inj h).2.symm
    · exact (LineFrame.at_.inj h).2.symm

theorem State.lineFrame_writable (s : State) {l : Line} (j : Fin 4) (write : Bool) {f : Frame} (recorded : l.frame = some f)
    (writable : f.w = true) (settled : f.new = none) : s.lineFrame l j write = .at_ (f.pa + 128 * j) f := by
  simp [State.lineFrame, recorded, writable, settled]

/-! ## What meeting a back-invalidate can do to a sector -/

/-- What a back-invalidate can do at one sector: nothing, a request for its page, or the sector dropped, CLEAN as it is or
after its write-back. -/
inductive BackStep (s : State) (core line : Nat) (j : Fin 4) : State → Prop
  | stays : BackStep s core line j s
  | asks (asid : Fin 16) (va : Nat) (who : BitVec 32) : BackStep s core line j (s.postResidency asid va who)
  | drops {l : Line} (bound : look (s.coreAt core).lines line = some l) (clean : l.secs.get j = .clean) :
    BackStep s core line j (s.cleaned core line j true l)
  | writes {l : Line} {mask : BitVec 128} {pa : Nat} {rec : Frame} (bound : look (s.coreAt core).lines line = some l)
    (dirty : l.secs.get j = .dirty mask) (frame : s.lineFrame l j true = .at_ pa rec) :
    BackStep s core line j (s.written core line j true (some (.stash core)) l mask pa rec)

/-- What an action leaves, done or not. -/
def leftBy (r : Act State) : State :=
  match r with
  | .ok t => t
  | .error (.wait t) => t
  | .error (.trap _ t) => t

theorem State.writeBack_backStep (s : State) (core line : Nat) (j : Fin 4) :
    BackStep s core line j (leftBy (s.writeBack core line j true true)) := by
  unfold State.writeBack
  split
  next => exact .stays
  next l bound =>
    dsimp only
    split
    next => exact .stays
    next clean => exact .drops bound clean
    next mask dirty =>
      split
      next => exact .asks ..
      next => exact .stays
      next => exact .stays
      next => exact .stays
      next pa rec frame =>
        split
        · exact .stays
        · exact .writes bound dirty frame

theorem Backed.sector_state {b : Backed} {p : Nat} {name : Option (Fin 16 × Nat)} {core line : Nat} {l : Line} {j : Fin 4}
    (stands : b.state.secIs l j p name = true) :
    (b.sector p name core line l j).state = leftBy (b.state.writeBack core line j true true) := by
  rw [Backed.sector, if_pos stands]
  split
  next done => rw [done]; rfl
  next waits => rw [waits]; rfl
  next traps => rw [traps]; rfl

theorem Backed.sector_skips {b : Backed} {p : Nat} {name : Option (Fin 16 × Nat)} {core line : Nat} {l : Line} {j : Fin 4}
    (other : b.state.secIs l j p name = false) : b.sector p name core line l j = b := by
  rw [Backed.sector, other]
  rfl

theorem Backed.sector_backStep (b : Backed) (p : Nat) (name : Option (Fin 16 × Nat)) (core line : Nat) (l : Line) (j : Fin 4) :
    BackStep b.state core line j (b.sector p name core line l j).state := by
  by_cases stands : b.state.secIs l j p name = true
  · rw [Backed.sector_state stands]
    exact State.writeBack_backStep ..
  · rw [Backed.sector_skips (Bool.eq_false_iff.2 stands)]
    exact .stays

section
variable {s t : State} {core line : Nat} {j : Fin 4} (h : BackStep s core line j t)
include h

theorem BackStep.keeps {α : Type} (p : State → α) (mem : ∀ (s : State) v, p { s with mem := v } = p s)
    (memPoison : ∀ (s : State) v, p { s with memPoison := v } = p s) (torn : ∀ (s : State) v, p { s with torn := v } = p s)
    (cores : ∀ (s : State) v, p { s with cores := v } = p s) (quarters : ∀ (s : State) v, p { s with quarters := v } = p s)
    (xlat : ∀ (s : State) v, p { s with xlat := v } = p s) : p t = p s := by
  cases h with
  | stays => rfl
  | asks => exact State.postResidency_keeps p xlat ..
  | drops => exact cores _ _
  | writes => exact (cores _ _).trans (State.writeMasked_keeps _ _ _ _ _ p mem memPoison torn cores quarters _)

theorem BackStep.pend : t.pend = s.pend :=
  h.keeps State.pend (fun _ _ => rfl) (fun _ _ => rfl) (fun _ _ => rfl) (fun _ _ => rfl) (fun _ _ => rfl) fun _ _ => rfl

theorem BackStep.cls : t.cls = s.cls :=
  h.keeps State.cls (fun _ _ => rfl) (fun _ _ => rfl) (fun _ _ => rfl) (fun _ _ => rfl) (fun _ _ => rfl) fun _ _ => rfl

theorem BackStep.fades : s.fades t := by
  cases h with
  | stays => exact (State.fades.refl s)
  | asks => exact State.fades_of_cores (State.postResidency_keeps State.cores (fun _ _ => rfl) ..)
  | drops bound => exact State.fades_cleaned bound (fun _ hf => hf) rfl
  | @writes l _ pa _ bound _ frame =>
    have kept : s.fades (s.modCoreAt core fun c => c.dropL1 pa) := State.fades_modCoreAt (Core.fades_dropL1 ..)
    refine (kept.trans (State.fades_of_cores (State.writeMasked_cores ..))).trans (State.fades_cleaned (l := l) ?_ ?_ rfl)
    · rwa [State.lines_writeMasked]
    · exact fun f hf => congrArg some (State.lineFrame_record hf frame)

theorem BackStep.secAt_elsewhere {n i : Nat} {k : Fin 4} (elsewhere : n ≠ core ∨ i ≠ line ∨ k ≠ j) :
    t.secAt n i k = s.secAt n i k := by
  cases h with
  | stays => rfl
  | asks => exact State.secAt_congr (State.postResidency_keeps State.cores (fun _ _ => rfl) ..) ..
  | drops bound => exact State.secAt_cleaned_ne bound rfl elsewhere
  | @writes l mask pa rec bound =>
    have others := State.secAt_cleaned_ne (s := s.writeMasked core pa mask (512 * line + 128 * j) (some (.stash core))) (l := l)
      (l' := { l with frame := some rec }) (by rwa [State.lines_writeMasked]) rfl elsewhere
    rw [State.written, others, State.secAt_congr (State.writeMasked_cores ..), State.secAt_dropL1]

theorem BackStep.mem_of_not_dirty (clean : ∀ m, s.secAt core line j ≠ some (.dirty m)) : t.mem = s.mem := by
  cases h with
  | stays => rfl
  | asks => exact State.postResidency_keeps State.mem (fun _ _ => rfl) ..
  | drops => rfl
  | writes bound dirty => exact absurd ((State.secAt_of_look bound j).trans (congrArg some dirty)) (clean _)

end


/-! ## The acts of a back-invalidate, one after another -/

/-- One act of a back-invalidate: an L1 drops the sector, or one sector of a stash line meets it. -/
inductive BackAct
  | core (n : Nat)
  | sector (n i : Nat) (l : Line) (j : Fin 4)

/-- The acts of a back-invalidate over the cores, lines and sectors of a state, in their order. -/
def State.backActs (s : State) : List BackAct :=
  s.cores.flatMap fun c => .core c.1 :: c.2.lines.flatMap fun l => (List.finRange 4).map fun j => .sector c.1 l.1 l.2 j

/-- One act of the back-invalidate of a physical sector. -/
def Backed.act (p : Nat) (b : Backed) (x : BackAct) : Backed :=
  match x with
  | .core n => { b with state := b.state.modCoreAt n fun c => c.dropL1 p }
  | .sector n i l j => b.sector p none n i l j

theorem State.backInvalidate_eq (s : State) (pa : Nat) : s.backInvalidate pa =
    s.backActs.foldl (Backed.act (pa / 128 * 128)) { state := s.dropL2 (pa / 128 * 128), trap := none, waits := false } := by
  simp only [State.backInvalidate, State.backActs, List.foldl_flatMap, List.foldl_map, List.foldl_cons, Backed.act]

theorem State.core_mem_backActs {s : State} {n : Nat} {c : Core} (h : (n, c) ∈ s.cores) : .core n ∈ s.backActs :=
  List.mem_flatMap.2 ⟨(n, c), h, List.mem_cons_self ..⟩

theorem State.sector_mem_backActs {s : State} {n i : Nat} {l : Line} {j : Fin 4} :
    .sector n i l j ∈ s.backActs ↔ ∃ c, (n, c) ∈ s.cores ∧ (i, l) ∈ c.lines := by
  simp only [State.backActs, List.mem_flatMap, List.mem_cons, List.mem_map, List.mem_finRange, true_and, reduceCtorEq, false_or,
    BackAct.sector.injEq, Prod.exists]
  constructor
  · rintro ⟨_, c, hc, _, _, hl, _, rfl, rfl, rfl, rfl⟩
    exact ⟨c, hc, hl⟩
  · rintro ⟨c, hc, hl⟩
    exact ⟨n, c, hc, i, l, hl, j, rfl, rfl, rfl, rfl⟩

/-- What every act of a back-invalidate keeps: the stashes, L1s and bound lines fade, and no store or change of the cluster's
SRAM is made. -/
structure Backed.since (s : State) (b : Backed) : Prop where
  fades : s.fades b.state
  pend : b.state.pend = s.pend
  cls : b.state.cls = s.cls

theorem Backed.since_act {s : State} {b : Backed} (p : Nat) (x : BackAct) (h : b.since s) : (b.act p x).since s := by
  cases x with
  | core n => exact ⟨h.fades.trans (State.fades_modCoreAt (Core.fades_dropL1 ..)), h.pend, h.cls⟩
  | sector n i l j =>
    have step := b.sector_backStep p none n i l j
    exact ⟨h.fades.trans step.fades, step.pend.trans h.pend, step.cls.trans h.cls⟩

end Sys2Proof.Machine
end

section
/-! SUPPORT. What a back-invalidate leaves: the L1s without the sector, the stash sectors that stand for it INVALID, and the dirty
bytes of the one that does so in memory (R185). -/

namespace Sys2Proof.Machine

/-! ## A stash sector that stands for a physical one -/

/-- A bound stash sector whose line has recorded a writable frame of a page not in TRANSIT, in which it stands for a physical
sector, with a slot free for its pin. -/
structure Stands (s : State) (n i : Nat) (c : Core) (l : Line) (f : Frame) (j : Fin 4) (p : Nat) : Prop where
  core : look s.cores n = some c
  line : look c.lines i = some l
  recorded : l.frame = some f
  writable : f.w = true
  settled : f.new = none
  pins : s.pinsHeld n < 4096
  place : f.pa + 128 * j.val = p

theorem State.secIs_recorded (s : State) {l : Line} {f : Frame} (recorded : l.frame = some f) (j : Fin 4) (p : Nat)
    (name : Option (Fin 16 × Nat)) : s.secIs l j p name =
      (l.secs.get j != .invalid && (f.pa + 128 * j.val == p || (f.new.map fun n => n + 128 * j.val) == some p)) := by
  rw [State.secIs, recorded]

theorem State.writeBack_clean {s : State} {core line : Nat} {j : Fin 4} {l : Line}
    (bound : look (s.coreAt core).lines line = some l) (clean : l.secs.get j = .clean) :
    s.writeBack core line j true true = .ok (s.cleaned core line j true l) := by
  simp only [State.writeBack, bound, clean]
  rfl

theorem State.secAt_written (s : State) (core line : Nat) (j : Fin 4) (who : Option Writer) (l : Line) (mask : BitVec 128)
    (pa : Nat) (rec : Frame) : (s.written core line j true who l mask pa rec).secAt core line j = some .invalid := by
  rw [State.written, State.secAt_cleaned_same]

section
variable {s : State} {n i : Nat} {c : Core} {l : Line} {f : Frame} {j : Fin 4} {p : Nat} (stands : Stands s n i c l f j p)
include stands

theorem Stands.bound : look (s.coreAt n).lines i = some l := by
  rw [State.coreAt_of_look stands.core]
  exact stands.line

theorem Stands.listed : .sector n i l j ∈ s.backActs :=
  State.sector_mem_backActs.2 ⟨c, mem_of_look stands.core, mem_of_look stands.line⟩

theorem Stands.secIs (t : State) (filled : l.secs.get j ≠ .invalid) : t.secIs l j p none = true := by
  simp [t.secIs_recorded stands.recorded, filled, stands.place]

section
variable {b : Backed} (since : b.since s)
include since

/-- While it is DIRTY it is written back, to its frame. -/
theorem Stands.sector_writes {m : BitVec 128} (dirty : b.state.secAt n i j = some (.dirty m)) :
    ∃ l', (b.sector p none n i l j).state = b.state.written n i j true (some (.stash n)) l' m p f := by
  obtain ⟨l', bound, faded⟩ := since.fades.look stands.bound
  have now : l'.secs.get j = .dirty m := Option.some.inj ((State.secAt_of_look bound j).symm.trans dirty)
  have filled : l.secs.get j ≠ .invalid := fun empty => by
    rcases faded.2 j with same | gone
    · exact nomatch now.symm.trans (same.trans empty)
    · exact nomatch now.symm.trans gone
  have frame := b.state.lineFrame_writable j true (faded.1 f stands.recorded) stands.writable stands.settled
  have pins : b.state.pinsHeld n < 4096 := by
    rw [State.pinsHeld, since.pend]
    exact stands.pins
  refine ⟨l', ?_⟩
  rw [Backed.sector_state (stands.secIs b.state filled), State.writeBack_dirty bound now frame (.inl rfl) pins, stands.place]
  rfl

/-- Once it has met the back-invalidate it is INVALID. -/
theorem Stands.sector_drops : (b.sector p none n i l j).state.secAt n i j = some .invalid := by
  obtain ⟨l', bound, faded⟩ := since.fades.look stands.bound
  have now := State.secAt_of_look bound j
  cases kind : l'.secs.get j with
  | invalid =>
    rw [kind] at now
    exact (b.sector_backStep p none n i l j).fades.secAt_invalid now
  | clean =>
    have filled : l.secs.get j ≠ .invalid := fun empty => by
      rcases faded.2 j with same | gone
      · exact nomatch kind.symm.trans (same.trans empty)
      · exact nomatch kind.symm.trans gone
    rw [Backed.sector_state (stands.secIs b.state filled), State.writeBack_clean bound kind]
    exact State.secAt_cleaned_same ..
  | dirty m =>
    rw [kind] at now
    obtain ⟨l', written⟩ := stands.sector_writes since now
    rw [written, State.secAt_written]

end

end

/-! ## The L1s and the stashes -/

theorem State.backInvalidate_start (s : State) (p : Nat) :
    ({ state := s.dropL2 p, trap := none, waits := false } : Backed).since s := ⟨State.fades_of_cores rfl, rfl, rfl⟩

theorem State.backInvalidate_since (s : State) (pa : Nat) : (s.backInvalidate pa).since s := by
  rw [State.backInvalidate_eq]
  exact List.foldlRecOn _ _ (s.backInvalidate_start _) fun b h x _ => b.since_act _ x h

/-- What one act of a back-invalidate brings about, and fading keeps, stands in the end. -/
theorem State.backInvalidate_reaches {s : State} {pa : Nat} {x : BackAct} {Q : State → Prop} (listed : x ∈ s.backActs)
    (reaches : ∀ b : Backed, b.since s → Q (b.act (pa / 128 * 128) x).state)
    (fades : ∀ t u : State, t.fades u → Q t → Q u) : Q (s.backInvalidate pa).state := by
  rw [State.backInvalidate_eq]
  refine foldl_reaches (I := (Backed.since s ·)) (Q := (Q ·.state)) listed (fun b y _ => Backed.since_act _ y) reaches
    (fun b y _ _ => fades _ _ ?_) (s.backInvalidate_start _)
  exact (Backed.since_act (s := b.state) _ y ⟨State.fades.refl _, rfl, rfl⟩).fades

theorem State.backInvalidate_l1 {s : State} {pa n : Nat} {c : Core} (core : look s.cores n = some c) :
    ∀ x ∈ ((s.backInvalidate pa).state.coreAt n).l1, x.pa ≠ pa / 128 * 128 := by
  refine State.backInvalidate_reaches (Q := fun t => ∀ x ∈ (t.coreAt n).l1, x.pa ≠ pa / 128 * 128)
    (State.core_mem_backActs (mem_of_look core)) (fun b _ x hx => ?_) fun t u h dropped x hx =>
      dropped x ((h n).l1 x hx)
  rw [Backed.act, State.coreAt_modCoreAt_same] at hx
  simpa using (List.mem_filter.1 hx).2

theorem Stands.backInvalidate_secAt {s : State} {n i pa : Nat} {c : Core} {l : Line} {f : Frame} {j : Fin 4}
    (stands : Stands s n i c l f j (pa / 128 * 128)) : (s.backInvalidate pa).state.secAt n i j = some .invalid :=
  State.backInvalidate_reaches (Q := fun t => t.secAt n i j = some .invalid) stands.listed
    (fun _ since => stands.sector_drops since) fun _ _ h => h.secAt_invalid

/-! ## The dirty bytes -/

/-- No other DIRTY sector of a stash stands for a physical one, and all others have their frames recorded. -/
def Alone (s : State) (n i : Nat) (j : Fin 4) (p : Nat) : Prop :=
  ∀ x ∈ s.cores, ∀ y ∈ x.2.lines, ∀ k : Fin 4, (∃ d, y.2.secs.get k = .dirty d) → (x.1 ≠ n ∨ y.1 ≠ i ∨ k ≠ j) →
    y.2.frame ≠ none ∧ s.secIs y.2 k p none = false

/-- A stash sector has been written back: it is INVALID, and the bytes that its mask names are in memory. -/
def Landed (s : State) (n i : Nat) (j : Fin 4) (p : Nat) (m : BitVec 128) (t : State) : Prop :=
  t.secAt n i j = some .invalid ∧ ∀ b, b < 128 → rdByte t.mem (p + b) =
    if m.getLsbD b then rdByte (s.coreAt n).stash (512 * i + 128 * j.val + b) else rdByte s.mem (p + b)

/-- A stash sector still waits for its write-back, in a memory where no byte has changed. -/
def Waits (s : State) (n i : Nat) (j : Fin 4) (m : BitVec 128) (t : State) : Prop :=
  t.secAt n i j = some (.dirty m) ∧ t.mem = s.mem

/-- The write-back of a sector that has waited lands its bytes. -/
theorem Waits.landed {s t : State} {n i : Nat} {j : Fin 4} {m : BitVec 128} (h : Waits s n i j m t) (fades : s.fades t)
    (p : Nat) (who : Option Writer) (l : Line) (f : Frame) : Landed s n i j p m (t.written n i j true who l m p f) := by
  refine ⟨State.secAt_written .., fun b hb => ?_⟩
  refine (State.rdByte_writeMasked t n p m (512 * i + 128 * j) who (p + b)).trans ?_
  rw [Nat.add_sub_cancel_left, (fades n).stash, h.2]
  exact if_congr ⟨fun hit => hit.2.2, fun hit => ⟨Nat.le_add_right .., Nat.add_lt_add_left hb p, hit⟩⟩ rfl rfl

section
variable {s : State} {n i : Nat} {j : Fin 4} {p : Nat} {m : BitVec 128}

/-- An act that keeps memory and the sector leaves it waiting, or landed. -/
theorem waits_or_landed_congr {t u : State} (mem : u.mem = t.mem) (sec : u.secAt n i j = t.secAt n i j)
    (h : Waits s n i j m t ∨ Landed s n i j p m t) : Waits s n i j m u ∨ Landed s n i j p m u := by
  rwa [Waits, Landed, mem, sec]

variable (cores : rising s.cores = true) (lines : ∀ x ∈ s.cores, rising x.2.lines = true)
include cores lines

theorem State.bound_of_listed {k q : Nat} {l : Line} {r : Fin 4} (listed : .sector k q l r ∈ s.backActs) :
    look (s.coreAt k).lines q = some l := by
  obtain ⟨c, hc, hl⟩ := State.sector_mem_backActs.1 listed
  rw [State.coreAt_of_look (look_of_mem cores hc)]
  exact look_of_mem (lines _ hc) hl

/-- No other sector writes memory. -/
theorem Alone.mem_sector (alone : Alone s n i j p) {b : Backed} (since : b.since s) {k q : Nat} {l : Line} {r : Fin 4}
    (listed : .sector k q l r ∈ s.backActs) (elsewhere : n ≠ k ∨ i ≠ q ∨ j ≠ r) :
    (b.sector p none k q l r).state.mem = b.state.mem := by
  by_cases dirty : ∃ d, l.secs.get r = .dirty d
  · obtain ⟨c, hc, hl⟩ := State.sector_mem_backActs.1 listed
    have other := elsewhere.imp Ne.symm (Or.imp Ne.symm Ne.symm)
    obtain ⟨recorded, skipped⟩ := alone _ hc _ hl r dirty other
    obtain ⟨f, recorded⟩ := Option.ne_none_iff_exists'.1 recorded
    rw [s.secIs_recorded recorded, ← b.state.secIs_recorded recorded] at skipped
    rw [Backed.sector_skips skipped]
  · refine (b.sector_backStep p none k q l r).mem_of_not_dirty fun d now => ?_
    rcases since.fades.secAt k q r with same | gone
    · rw [same, State.secAt_of_look (State.bound_of_listed cores lines listed)] at now
      exact dirty ⟨d, Option.some.inj now⟩
    · exact nomatch gone.symm.trans now

variable {c : Core} {l : Line} {f : Frame} (stands : Stands s n i c l f j p) (alone : Alone s n i j p)
include stands alone

theorem Stands.waits_or_landed {b : Backed} {x : BackAct} (listed : x ∈ s.backActs) (since : b.since s)
    (h : Waits s n i j m b.state ∨ Landed s n i j p m b.state) :
    Waits s n i j m (b.act p x).state ∨ Landed s n i j p m (b.act p x).state := by
  cases x with
  | core k => exact waits_or_landed_congr (t := b.state) rfl (State.secAt_dropL1 ..) h
  | sector k q l' r =>
    by_cases elsewhere : n ≠ k ∨ i ≠ q ∨ j ≠ r
    · exact waits_or_landed_congr (alone.mem_sector cores lines since listed elsewhere)
        ((b.sector_backStep p none k q l' r).secAt_elsewhere elsewhere) h
    · obtain ⟨rfl, rfl, rfl⟩ : n = k ∧ i = q ∧ j = r := by tauto
      obtain rfl : l = l' := Option.some.inj (stands.bound.symm.trans (State.bound_of_listed cores lines listed))
      rcases h with waits | landed
      · obtain ⟨l', written⟩ := stands.sector_writes since waits.1
        refine .inr ?_
        rw [Backed.act, written]
        exact waits.landed since.fades ..
      · have step := b.sector_backStep p none n i l j
        have same := step.mem_of_not_dirty fun d dirty => nomatch landed.1.symm.trans dirty
        exact waits_or_landed_congr same ((step.fades.secAt_invalid landed.1).trans landed.1.symm) (.inr landed)

end

theorem Stands.backInvalidate_landed {s : State} {n i pa : Nat} {c : Core} {l : Line} {f : Frame} {j : Fin 4} {m : BitVec 128}
    (cores : rising s.cores = true) (lines : ∀ x ∈ s.cores, rising x.2.lines = true)
    (stands : Stands s n i c l f j (pa / 128 * 128)) (dirty : l.secs.get j = .dirty m)
    (alone : Alone s n i j (pa / 128 * 128)) : Landed s n i j (pa / 128 * 128) m (s.backInvalidate pa).state := by
  have gone := stands.backInvalidate_secAt
  have start : s.secAt n i j = some (.dirty m) := (State.secAt_of_look stands.bound j).trans (congrArg some dirty)
  rw [State.backInvalidate_eq] at gone ⊢
  have run := List.foldlRecOn (motive := fun b : Backed => b.since s ∧
      (Waits s n i j m b.state ∨ Landed s n i j (pa / 128 * 128) m b.state)) s.backActs (Backed.act (pa / 128 * 128))
    ⟨s.backInvalidate_start (pa / 128 * 128), .inl ⟨start, rfl⟩⟩ fun b h x hx =>
      ⟨b.since_act _ x h.1, stands.waits_or_landed cores lines alone hx h.1 h.2⟩
  rcases run.2 with waits | landed
  · exact nomatch waits.1.symm.trans gone
  · exact landed

end Sys2Proof.Machine

namespace Sys2Proof.Proofs
open Sys2Proof.Machine Sys2Proof.Claims

/-! ## The parts of O27 -/

section
variable {c : Ctl} {f : FM} {s : State} (hg : s.guard c = true)
include hg

theorem prf_keeps {sc : Scope} (scope : s.scope f.scope (.prf c f) = .ok sc) :
    ∃ t, exec (.prf c f) s = .next t ∧ t.mem = s.mem ∧ t.cls = s.cls ∧ t.ctx.s = s.ctx.s ∧ t.thread = s.advance.thread := by
  have kept {α : Type} (p : State → α) (tlbs : ∀ (s : State) v, p { s with tlbs := v } = p s)
      (cores : ∀ (s : State) v, p { s with cores := v } = p s) (quarters : ∀ (s : State) v, p { s with quarters := v } = p s) :=
    State.prefetched_keeps p tlbs cores quarters s f sc
  refine ⟨_, exec_prf hg scope, ?_, ?_, ?_, ?_⟩
  · rw [State.advance_mem, kept State.mem (fun _ _ => rfl) (fun _ _ => rfl) fun _ _ => rfl]
  · rw [State.advance_cls, kept State.cls (fun _ _ => rfl) (fun _ _ => rfl) fun _ _ => rfl]
  · rw [State.advance_s, kept (·.ctx.s) (fun _ _ => rfl) (fun _ _ => rfl) fun _ _ => rfl]
  · rw [State.thread_advance, State.thread_advance, kept State.thread (fun _ _ => rfl) (fun _ _ => rfl) fun _ _ => rfl,
      kept State.pc (fun _ _ => rfl) (fun _ _ => rfl) fun _ _ => rfl]

section
variable {off : Nat} {u : State} (own : s.ownStash (s.fmBase f) 1 = .ok off)
  (calm : s.core.stalled (512 * (off / 512)) 512 true = false) (dropped : s.dropLine s.cur.core (off / 512) = .ok u)
include own calm dropped

theorem cmoWb_leaves_invalid {sc : Scope} (scope : s.scope f.scope (.cmoWb c f) = .ok sc) {l : Line}
    (bound : look u.core.lines (off / 512) = some l) : ∃ t, exec (.cmoWb c f) s = .next t ∧ t.mem = u.mem ∧
      look t.core.lines (off / 512) = some { va := l.va, asid := l.asid, frame := none, secs := .replicate 4 .invalid } := by
  refine ⟨_, exec_cmoWb_bound hg own calm dropped scope bound, ?_, ?_⟩
  · rw [State.advance_mem]
    rfl
  · rw [State.core_advance, State.core_modCore, Core.look_bind]

theorem cmoBind_binds {sc : Scope} (scope : s.scope f.scope (.cmoBind c f) = .ok sc)
    (fit : s.val f.opd = 0 ∨ bindable (s.val f.opd) = true) : ∃ t, exec (.cmoBind c f) s = .next t ∧ t.mem = u.mem ∧
      (s.val f.opd = 0 → look t.core.lines (off / 512) = none ∧ ∀ a, a / 512 = off / 512 → rdByte t.core.stash a = 0) ∧
      (s.val f.opd ≠ 0 → look t.core.lines (off / 512) =
        some { va := s.val f.opd, asid := u.asid, frame := none, secs := .replicate 4 .invalid }) := by
  refine ⟨_, exec_cmoBind hg own calm dropped scope fit, ?_, fun zero => ?_, fun address => ?_⟩
  · rw [State.advance_mem]
    rfl
  · rw [State.core_advance, State.core_modCore, if_pos zero]
    exact ⟨Core.look_unbind .., fun _ here => Core.rdByte_unbind _ here⟩
  · rw [State.core_advance, State.core_modCore, if_neg address, Core.look_bind]

end

theorem cmoInv_drops {asid : Fin 16} {va pa : Nat} {u : State} (scope : s.scope f.scope (.cmoInv c f) = .ok .core)
    (formed : malformed (s.fmBase f) = none) (window : windowOf (s.fmBase f) = 0 ∨ windowOf (s.fmBase f) = 8)
    (loc : s.scalarLoc (s.fmBase f) 1 1 false = .ok (.hbm asid va pa, u)) :
    ∃ t, exec (.cmoInv c f) s = .next t ∧ t.mem = s.mem ∧ t.core.l1Find asid va = none := by
  refine ⟨_, exec_cmoInv hg scope formed window loc, ?_, ?_⟩
  · rw [State.advance_mem]
    exact State.scalarLoc_keeps (t := u) State.mem (fun _ _ => rfl) loc
  · rw [State.core_advance, State.core_modCore, Core.l1Find_dropVirtual]

end

section
variable {s : State} {core : Fin 320} {line : Nat} {j : Fin 4} {l : Line} {pa : Nat} {rec : Frame}
  (bound : look (s.coreAt core).lines line = some l)
include bound

theorem stashFill_fills (empty : l.secs.get j = .invalid) (frame : s.lineFrame l j false = .at_ pa rec)
    (free : s.claimed pa 128 = false) (pins : s.pinsHeld core < 4096) :
    ∃ t, exec (.stashFill core line j) s = .next t ∧ t.mem = s.mem ∧ t.cls = s.cls ∧
      (∀ i, i < 128 → rdByte (t.coreAt core).stash (512 * line + 128 * j.val + i) = rdByte s.mem (pa + i)) ∧
      look (t.coreAt core).lines line = some ({ l with frame := some rec }.setSec j .clean) :=
  ⟨_, exec_stashFill (State.fillSector_fills bound empty frame free pins), rfl, rfl,
    fun _ hi => State.rdByte_filled s core line j l pa rec hi, State.coreAt_filled_lines ..⟩

theorem stashWriteBack_writes {mask : BitVec 128} (due : 4 * line + j.val ∈ (s.coreAt core).due)
    (goes : (s.quarter (quarterOf core)).stopped = false) (dirty : l.secs.get j = .dirty mask)
    (frame : s.lineFrame l j true = .at_ pa rec) (free : s.claimed pa 128 = false) (pins : s.pinsHeld core < 4096) :
    ∃ t, exec (.stashWriteBack core line j) s = .next t ∧ t.cls = s.cls ∧
      (∀ i, i < 128 → rdByte t.mem (pa + i) =
        if mask.getLsbD i then rdByte (s.coreAt core).stash (512 * line + 128 * j.val + i) else rdByte s.mem (pa + i)) ∧
      (∀ a, a < pa ∨ pa + 128 ≤ a → rdByte t.mem a = rdByte s.mem a) ∧
      look (t.coreAt core).lines line = some ({ l with frame := some rec }.setSec j .clean) := by
  have bytes (a : Nat) := State.rdByte_writeMasked s core pa mask (512 * line + 128 * j) (some (.stash core)) a
  refine ⟨_, exec_stashWriteBack due goes (State.writeBack_dirty bound dirty frame (.inr free) pins), ?_, fun i hi => ?_,
    fun a beyond => ?_, State.lines_written ..⟩
  · exact State.writeMasked_keeps _ _ _ _ _ State.cls (fun _ _ => rfl) (fun _ _ => rfl) (fun _ _ => rfl) (fun _ _ => rfl)
      (fun _ _ => rfl) _
  · refine (bytes (pa + i)).trans ?_
    rw [Nat.add_sub_cancel_left]
    exact if_congr ⟨fun hit => hit.2.2, fun hit => ⟨Nat.le_add_right .., Nat.add_lt_add_left hi pa, hit⟩⟩ rfl rfl
  · exact (bytes a).trans (if_neg fun hit => by omega)

end

/-- Settles O27: each form by its equation, and a back-invalidate as a run of acts that fade what the cores hold. -/
theorem stashMaintenanceResults : Obligations.StashMaintenanceResults := by
  unfold Obligations.StashMaintenanceResults
  refine ⟨fun c f s hg => ⟨fun sc => prf_keeps hg, ?wb, ?bind, ?inv, ?fill⟩, ?events, ?back⟩
  case wb =>
    intro sc off u scope own calm dropped
    exact ⟨exec_cmoWb_unbound hg own calm dropped scope, fun l => cmoWb_leaves_invalid hg own calm dropped scope⟩
  case bind =>
    intro sc off u scope own fit calm dropped
    exact cmoBind_binds hg own calm dropped scope fit
  case inv =>
    intro asid va pa u scope formed window loc
    exact cmoInv_drops hg scope formed window loc
  case fill =>
    intro off u hd own calm filled
    have kept {α : Type} (p : State → α) (cores : ∀ (s : State) v, p { s with cores := v } = p s)
        (quarters : ∀ (s : State) v, p { s with quarters := v } = p s) (xlat : ∀ (s : State) v, p { s with xlat := v } = p s) :=
      State.fillRange_keeps p cores quarters xlat filled
    exact ⟨exec_stfl hg hd own calm filled, kept State.mem (fun _ _ => rfl) (fun _ _ => rfl) fun _ _ => rfl,
      kept State.cls (fun _ _ => rfl) (fun _ _ => rfl) fun _ _ => rfl,
      kept State.pend (fun _ _ => rfl) (fun _ _ => rfl) fun _ _ => rfl⟩
  case events =>
    intro s core line j l bound
    exact ⟨fun pa rec => stashFill_fills bound, fun ready => exec_stashFill (State.fillSector_ready bound ready),
      exec_stashWriteBack_early, fun mask pa rec => stashWriteBack_writes bound⟩
  case back =>
    intro s sector
    have whole : sector * 128 / 128 * 128 = sector * 128 := by rw [Nat.mul_div_cancel _ (by decide)]
    have since := s.backInvalidate_since (sector * 128)
    refine ⟨_, rfl, since.cls, fun n e core => ?_, ?_, ?_⟩
    · simpa only [whole] using State.backInvalidate_l1 (pa := sector * 128) core
    · intro n c i l f j core line recorded writable settled pins place
      have stands : Stands s n i c l f j (sector * 128 / 128 * 128) := by
        rw [whole]
        exact ⟨core, line, recorded, writable, settled, pins, place⟩
      obtain ⟨l', bound, -⟩ := since.fades.look stands.bound
      have gone := stands.backInvalidate_secAt
      rw [State.secAt_of_look bound] at gone
      exact ⟨l', bound, Option.some.inj gone⟩
    · intro n c i l f m j cores lines core line recorded writable settled pins place dirty alone
      have stands : Stands s n i c l f j (sector * 128 / 128 * 128) := by
        rw [whole]
        exact ⟨core, line, recorded, writable, settled, pins, place⟩
      have landed := stands.backInvalidate_landed cores lines dirty (by rwa [whole])
      rw [whole, Landed, State.coreAt_of_look core] at landed
      exact landed.2

end Sys2Proof.Proofs
end

section
/-! SUPPORT. Vector loads: the shape that all of them share, what the reads of an access leave as they were, what each lane takes, and
the tags of the residency mask (R187, R196, R213 to R218). -/

namespace Sys2Proof.Machine

/-! ## A vector load once its checks pass (R217) -/

section
variable {c : Ctl} {f : FM} {s : State} {d : Fld}

theorem run_vecLoad {i : Instr} {o : Out} {srcs : List (Operand × Fld)} {hot : Nat} {plan : State → Act (List VElem × State)}
    (ho : o = settle (s.vecLoad i f d srcs hot plan)) : Claims.vecLoads i f s d srcs hot plan o := by
  rintro u s2 s3 s4 es rs vs ⟨overlap, stream, pops⟩ index planned checked loaded
  have parity : (srcs.forM fun x => u.checkParity x.2 (List.range u.slen)) = .ok () := forM_ok _ index
  rw [ho]
  simp only [State.vecLoad, overlap, stream, pops, act_ok_bind, parity, planned, checked, loaded, undo_ok, settle_ok]

variable (hg : s.guard c = true)
include hg

theorem exec_vld (hd : s.vecData (.vld c f) f false = .ok d) :
    exec (.vld c f) s = settle (s.vecLoad (.vld c f) f d [] 0 fun s => .ok (s.planUnit f (d.width / 8), s)) := by
  change execVld c f s = _
  rw [execVld, run_true _ hg, hd, act_ok_bind]

theorem exec_vlds (hd : s.vecData (.vlds c f) f false = .ok d) :
    exec (.vlds c f) s = settle (s.vecLoad (.vlds c f) f d [] 1 fun s => .ok (s.planStride f, s)) := by
  change execVlds c f s = _
  rw [execVlds, run_true _ hg, hd, act_ok_bind]

theorem exec_vldx {x : Fld} (hd : s.vecData (.vldx c f) f false = .ok d) (hx : s.field f.opb .fm 0 .int = .ok x) :
    exec (.vldx c f) s =
      settle (s.vecLoad (.vldx c f) f d [(f.opb, x)] 2 fun s => .ok (s.planIndex f (d.width / 8) x, s)) := by
  change execVldx c f s = _
  rw [execVldx, run_true _ hg, hd, act_ok_bind, hx, act_ok_bind]

theorem exec_vldd (hd : s.vecData (.vldd c f) f false = .ok d) :
    exec (.vldd c f) s = settle (s.vecLoad (.vldd c f) f d [] 1 fun s => .ok (s.planDims f (d.width / 8), s)) := by
  change execVldd c f s = _
  rw [execVldd, run_true _ hg, hd, act_ok_bind]

theorem exec_vldh (hd : s.vecData (.vldh c f) f false = .ok d) (typed : s.typedCheck f.opb d.width = .ok ()) :
    exec (.vldh c f) s = settle (s.vecLoad (.vldh c f) f d [] 2 fun s => s.planHandle f (d.width / 8)) := by
  change execVldh c f s = _
  rw [execVldh, run_true _ hg, hd, act_ok_bind, typed, undo_ok, act_ok_bind]

end

/-! ## The tags of the residency mask (R187) -/

theorem State.core_encodeTags_row (s : State) (l : Nat) : s.encodeTags.core.row l = s.core.row l := by
  unfold State.encodeTags
  split
  · rw [State.core_modCore]
    rfl
  · rfl

/-- The column of a mask as a field of one bit. -/
def tagFld (s : State) (j : Fin 6) : Fld := { reg := 0, ty := entryTy 0, col := tagCol s.cur.lc j, width := 1 }

/-- Writing tags leaves every other column and row as they were. -/
theorem State.row_putTags {s : State} (j : Fin 6) {vs : List (Nat × Bool)} (apart : vs.Pairwise fun x y => x.1 ≠ y.1) :
    (∀ x ∈ vs, (s.putTags j vs).core.row (s.lane x.1) =
      setRowBits (s.core.row (s.lane x.1)) (tagCol s.cur.lc j) 1 (if x.2 then 1 else 0)) ∧
    ∀ l, (∀ x ∈ vs, s.lane x.1 ≠ l) → (s.putTags j vs).core.row l = s.core.row l := by
  have written : s.putTags j vs = (s.putLanes (tagFld s j)
      (vs.map fun x => (x.1, if x.2 then 1 else 0))).encodeTags := by
    simp only [State.putTags, State.putLanes, List.foldl_map]
    rfl
  obtain ⟨rows, put, here, elsewhere⟩ := putLanes_spec s (tagFld s j)
    (vs.map fun x => (x.1, if x.2 then 1 else 0)) (List.pairwise_map.2 apart)
  have row (l : Nat) : (s.putTags j vs).core.row l = lookD rows l 0 := by
    rw [written, State.core_encodeTags_row, put, State.core_modCore]
    rfl
  refine ⟨fun x hx => ?_, fun l other => ?_⟩
  · rw [row]
    exact here _ (List.mem_map_of_mem hx)
  · rw [row]
    refine elsewhere l fun y hy => ?_
    obtain ⟨x, hx, rfl⟩ := List.mem_map.1 hy
    exact other x hx

theorem State.residency_eq (s : State) (rs : List (VElem × Ready)) : ∃ u : State,
    s.residency rs = u.putTags 5 (rs.map fun x => (x.1.pos, x.2.isAbsent)) ∧
    ∀ {α : Type} (p : State → α), (∀ (s : State) v, p { s with xlat := v } = p s) → p u = p s := by
  refine ⟨_, rfl, fun p xlat => foldl_keeps p (fun t x => ?_) rs s⟩
  split
  · exact State.postResidency_keeps p xlat ..
  · rfl

theorem State.putTags_keeps {α : Type} (p : State → α) (cores : ∀ (s : State) v, p { s with cores := v } = p s) (s : State)
    (j : Fin 6) (vs : List (Nat × Bool)) : p (s.putTags j vs) = p s := by
  unfold State.putTags State.encodeTags
  split
  · exact (cores _ _).trans (cores _ _)
  · exact cores _ _

/-- m5 of the lane of each element says whether its page is ABSENT; every other tag and row stays (R187, R216). -/
theorem State.residency_tags {s : State} {rs : List (VElem × Ready)} (apart : (rs.map fun x => s.lane x.1.pos).Nodup) :
    (∀ x ∈ rs, ∀ b, b < 512 → ((s.residency rs).core.row (s.lane x.1.pos)).getLsbD b =
      if b = s.cur.lc.val * 6 + 5 then x.2.isAbsent else (s.core.row (s.lane x.1.pos)).getLsbD b) ∧
    (∀ l, (∀ x ∈ rs, s.lane x.1.pos ≠ l) → (s.residency rs).core.row l = s.core.row l) ∧
    (s.residency rs).mem = s.mem ∧ (s.residency rs).pend = s.pend := by
  obtain ⟨u, eq, kept⟩ := s.residency_eq rs
  have core : u.core = s.core := kept State.core fun _ _ => rfl
  have cur : u.cur = s.cur := kept State.cur fun _ _ => rfl
  have lane (i : Nat) : u.lane i = s.lane i := congrFun (kept State.lane fun _ _ => rfl) i
  have positions : (rs.map fun x => (x.1.pos, x.2.isAbsent)).Pairwise fun x y => x.1 ≠ y.1 := by
    rw [List.pairwise_map]
    exact (List.pairwise_map.1 apart).imp fun different same => different (congrArg s.lane same)
  obtain ⟨here, elsewhere⟩ := State.row_putTags (s := u) 5 positions
  rw [eq]
  refine ⟨fun x hx b hb => ?_, fun l other => ?_, ?_, ?_⟩
  · have row := here _ (List.mem_map_of_mem hx)
    dsimp only at row
    rw [lane, core, cur] at row
    rw [row, getLsbD_setRowBits _ _ _ _ _ hb]
    by_cases column : b = s.cur.lc.val * 6 + 5
    · subst column
      rw [if_pos (by simp [tagCol]), if_pos rfl]
      cases x.2.isAbsent <;> simp [tagCol]
    · rw [if_neg (by simp [tagCol]; omega), if_neg column]
  · rw [elsewhere l ?_, core]
    intro y hy
    obtain ⟨x, hx, rfl⟩ := List.mem_map.1 hy
    rw [lane]
    exact other x hx
  · exact (State.putTags_keeps State.mem (fun _ _ => rfl) ..).trans (kept State.mem fun _ _ => rfl)
  · exact (State.putTags_keeps State.pend (fun _ _ => rfl) ..).trans (kept State.pend fun _ _ => rfl)

/-! ## Bytes of an L1 sector (R178) -/

theorem leVal_byte (bs : List Byte) (i : Nat) : BitVec.ofNat 8 (leVal bs / 2 ^ (8 * i)) = bs.getD i 0 := by
  induction bs generalizing i with
  | nil => simp [leVal]
  | cons b bs ih =>
    cases i with
    | zero =>
      refine BitVec.eq_of_toNat_eq ?_
      have := b.isLt
      simp [leVal]
      omega
    | succ i =>
      have shift : leVal (b :: bs) / 2 ^ (8 * (i + 1)) = leVal bs / 2 ^ (8 * i) := by
        have := b.isLt
        rw [Nat.mul_add, Nat.add_comm, pow_add, ← Nat.div_div_eq_div_mul, leVal]
        congr 1
        omega
      rw [shift, ih, List.getD_cons_succ]

/-- What an L1 sector holds of bytes of memory, as long as it holds what memory holds. -/
theorem leBytes_sector (m : Memory) {p o z : Nat} (inside : o + z ≤ 128) :
    leBytes z (bitsAt (BitVec.ofNat 1024 (rdVal m p 128)) (8 * o) (8 * z)) = rdBytes m (p + o) z := by
  refine List.ext_getElem (by simp [leBytes_length, rdBytes_length]) fun i hi _ => ?_
  rw [leBytes_length] at hi
  rw [← List.getD_eq_getElem (d := 0), ← List.getD_eq_getElem (d := 0), leBytes_getD _ hi, rdBytes_getD _ _ hi]
  have byte := leVal_byte (rdBytes m p 128) (o + i)
  rw [rdBytes_getD _ _ (by omega), ← Nat.add_assoc] at byte
  rw [← byte]
  refine BitVec.eq_of_getLsbD_eq fun k hk => ?_
  have inRead : 8 * i + k < 8 * z := by omega
  have inSector : 8 * o + (8 * i + k) < 1024 := by omega
  have place : k + 8 * (o + i) = 8 * o + (8 * i + k) := by omega
  rw [BitVec.getLsbD_ofNat, BitVec.getLsbD_ofNat, Nat.testBit_div_two_pow, Nat.testBit_div_two_pow, bitsAt, Nat.add_comm k,
    BitVec.testBit_toNat, BitVec.getLsbD_extractLsb', BitVec.getLsbD_ofNat, place]
  simp only [inRead, inSector, hk, decide_true, Bool.true_and, rdVal]

end Sys2Proof.Machine
end

section
/-! SUPPORT. The reads of a vector access one after another: what each leaves as it was for the next, and what each lane takes. -/

namespace Sys2Proof.Machine

/-! ## What a read leaves for the next (R178, R181, R196) -/

/-- A state after some reads of an access: memory, the stores pending and the bytes of unbound stash lines are as they were, the L1
agrees with the access as it did, and of cluster-shared memory the context has seen no more, unless a read has been made as it is. -/
structure ReadSince (z : Nat) (rs : List (VElem × Ready)) (s t : State) : Prop where
  cur : t.cur = s.cur
  mem : t.mem = s.mem
  cls : t.cls = s.cls
  pend : t.pend = s.pend
  ticks : s.ticks ≤ t.ticks
  seen : t.stale = s.stale ∨ ∃ n < t.ticks, Config.freePick n % 2 = 0
  lines : ∀ i, look s.core.lines i = none → look t.core.lines i = none ∧
    ∀ a, a / 512 = i → rdByte t.core.stash a = rdByte s.core.stash a
  agrees : Claims.sectorsAgree s z rs → Claims.sectorsAgree t z rs

section
variable {z : Nat} {rs : List (VElem × Ready)} {s t u : State}

theorem ReadSince.refl (s : State) : ReadSince z rs s s :=
  ⟨rfl, rfl, rfl, rfl, Nat.le_refl _, .inl rfl, fun _ h => ⟨h, fun _ _ => rfl⟩, id⟩

theorem ReadSince.trans (h : ReadSince z rs s t) (h' : ReadSince z rs t u) : ReadSince z rs s u := by
  refine ⟨h'.cur.trans h.cur, h'.mem.trans h.mem, h'.cls.trans h.cls, h'.pend.trans h.pend, h.ticks.trans h'.ticks, ?_,
    fun i free => ?_, h'.agrees ∘ h.agrees⟩
  · rcases h'.seen with same | seen
    · rcases h.seen with same' | ⟨n, before, even⟩
      · exact .inl (same.trans same')
      · exact .inr ⟨n, Nat.lt_of_lt_of_le before h'.ticks, even⟩
    · exact .inr seen
  · obtain ⟨free', bytes⟩ := h.lines i free
    obtain ⟨free'', bytes'⟩ := h'.lines i free'
    exact ⟨free'', fun a here => (bytes' a here).trans (bytes a here)⟩

theorem ReadSince.key (h : ReadSince z rs s t) : t.key = s.key := by rw [State.key, h.cur, State.key]

theorem sectorsAgree_congr (core : t.core.l1 = s.core.l1) (mem : t.mem = s.mem) (h : Claims.sectorsAgree s z rs) :
    Claims.sectorsAgree t z rs := by
  rwa [Claims.sectorsAgree, core, mem]

/-- What touches neither the cores nor memory leaves it all for the next read. -/
theorem ReadSince.of_keeps (cur : t.cur = s.cur) (core : t.core = s.core) (mem : t.mem = s.mem) (cls : t.cls = s.cls)
    (pend : t.pend = s.pend) (ticks : s.ticks ≤ t.ticks)
    (seen : t.stale = s.stale ∨ ∃ n < t.ticks, Config.freePick n % 2 = 0) : ReadSince z rs s t :=
  ⟨cur, mem, cls, pend, ticks, seen, fun i free => by rw [core]; exact ⟨free, fun _ _ => rfl⟩,
    sectorsAgree_congr (congrArg Core.l1 core) mem⟩

theorem ReadSince.count (hot : Option Nat) (l : Loc) : ReadSince z rs s (s.count hot l) := by
  have kept {α : Type} (p : State → α) (xlat : ∀ (s : State) v, p { s with xlat := v } = p s) : p (s.count hot l) = p s := by
    unfold State.count State.owe
    split
    · split
      · exact xlat _ _
      · rfl
    · rfl
  exact .of_keeps (kept State.cur fun _ _ => rfl) (kept State.core fun _ _ => rfl) (kept State.mem fun _ _ => rfl)
    (kept State.cls fun _ _ => rfl) (kept State.pend fun _ _ => rfl) (kept State.ticks fun _ _ => rfl).ge
    (.inl (kept State.stale fun _ _ => rfl))

/-- A read of cluster-shared memory adds to what the context has seen only where it reads what is there as it is. -/
theorem ReadSince.clsRead (k a : Nat) : ReadSince z rs s (s.clsRead k a z).2 := by
  unfold State.clsRead
  dsimp only
  generalize (if s.stale.isEmpty then rdBytes s.cls a z else s.clsBefore k a z) = old
  split
  · exact .refl s
  · split
    · exact .of_keeps rfl rfl rfl rfl rfl (Nat.le_succ _) (.inl rfl)
    next even =>
      have seen : ∃ n < s.ticks + 1, Config.freePick n % 2 = 0 := ⟨s.ticks, Nat.lt_succ_self _, by omega⟩
      unfold State.seeCls
      split
      · exact .of_keeps rfl rfl rfl rfl rfl (Nat.le_succ _) (.inr seen)
      · exact .of_keeps rfl rfl rfl rfl rfl (Nat.le_succ _) (.inr seen)

/-! ## A read of the stash (R181) -/

theorem State.fillSector_core {n line : Nat} {j : Fin 4} (h : s.fillSector n line j = .done t) :
    (t.coreAt n).l1 = (s.coreAt n).l1 ∧ ∀ i, look (s.coreAt n).lines i = none → look (t.coreAt n).lines i = none ∧
      ∀ a, a / 512 = i → rdByte (t.coreAt n).stash a = rdByte (s.coreAt n).stash a := by
  unfold State.fillSector at h
  split at h
  next =>
    obtain rfl := Filled.done.inj h
    exact ⟨rfl, fun i free => ⟨free, fun _ _ => rfl⟩⟩
  next l bound =>
    split at h
    next =>
      split at h
      case h_5 pa rec _ =>
        split at h
        · exact nomatch h
        · obtain rfl := Filled.done.inj h
          rw [State.coreAt_touchL2, State.coreAt_modCoreAt_same]
          refine ⟨rfl, fun i free => ?_⟩
          have other : i ≠ line := by
            rintro rfl
            exact nomatch free.symm.trans bound
          refine ⟨(look_put_ne _ _ other).trans free, fun a here => ?_⟩
          have outside : ¬(512 * line + 128 * j.val ≤ a ∧ a < 512 * line + 128 * j.val + (rdBytes s.mem pa 128).length) := by
            rw [rdBytes_length]
            omega
          exact (rdByte_wrBytes ..).trans (if_neg outside)
      all_goals exact nomatch h
    next =>
      obtain rfl := Filled.done.inj h
      exact ⟨rfl, fun i free => ⟨free, fun _ _ => rfl⟩⟩

theorem ReadSince.readyStash {off : Nat} (h : s.readyStash s.cur.core off z false = .ok t) : ReadSince z rs s t := by
  have kept {α : Type} (p : State → α) (cores : ∀ (s : State) v, p { s with cores := v } = p s)
      (quarters : ∀ (s : State) v, p { s with quarters := v } = p s) : p t = p s := State.readyStash_keeps p cores quarters h
  have cur : t.cur = s.cur := kept State.cur (fun _ _ => rfl) fun _ _ => rfl
  have mem : t.mem = s.mem := kept State.mem (fun _ _ => rfl) fun _ _ => rfl
  have filled : s.fillSector s.cur.core (off / 512) (Fin.ofNat 4 (off / 128)) = .done t := by
    unfold State.readyStash State.stashReady at h
    simp only [Bool.false_and, Bool.false_eq_true, if_false] at h
    split at h
    next done =>
      obtain rfl := Except.ok.inj h
      exact done
    next => exact nomatch h
  obtain ⟨l1, lines⟩ := State.fillSector_core filled
  have core : t.core = t.coreAt s.cur.core := by rw [State.core, cur]
  refine ⟨cur, mem, kept State.cls (fun _ _ => rfl) fun _ _ => rfl, kept State.pend (fun _ _ => rfl) fun _ _ => rfl,
    (kept State.ticks (fun _ _ => rfl) fun _ _ => rfl).ge, .inl (kept State.stale (fun _ _ => rfl) fun _ _ => rfl), ?_, ?_⟩
  · rw [core]
    exact lines
  · exact sectorsAgree_congr (core ▸ l1) mem

/-! ## A read of memory (R178) -/

/-- An entry that a fill of an L1 makes. -/
def filledBy (s : State) (asid : Fin 16) (va pa : Nat) (e : L1Sec) : Prop :=
  e.asid = asid ∧ e.va = va / 128 * 128 ∧ e.pa = pa / 128 * 128 ∧ e.data = BitVec.ofNat 1024 (rdVal s.mem (pa / 128 * 128) 128)

variable {asid : Fin 16} {va pa : Nat} {nt bad : Bool} {bs : List Byte}

/-- Of the core a read of memory changes the L1 alone, where only its own sector may be new. -/
theorem State.readSector_core (s : State) (asid : Fin 16) (va pa n : Nat) (nt : Bool) :
    ∃ l1, (s.readSector s.key asid va pa n nt).2.2.core = { s.core with l1 := l1 } ∧
      ∀ e ∈ l1, e ∈ s.core.l1 ∨ filledBy s asid va pa e := by
  unfold State.readSector
  rw [coreOfCtx_key]
  dsimp only
  split
  next => exact ⟨s.core.l1, rfl, fun e he => .inl he⟩
  next =>
    split
    next =>
      refine ⟨(s.core.dropL1 pa).l1, ?_, fun e he => .inl (List.mem_of_mem_filter he)⟩
      change (s.modCoreAt s.cur.core fun c => c.dropL1 pa).coreAt s.cur.core = _
      rw [State.coreAt_modCoreAt_same]
      rfl
    next =>
      refine ⟨((s.l1Fill s.cur.core asid va pa).coreAt s.cur.core).l1, ?_, fun e he => ?_⟩
      · change (s.l1Fill s.cur.core asid va pa).coreAt s.cur.core = _
        rw [State.l1Fill, State.coreAt_touchL2, State.coreAt_modCoreAt_same]
        rfl
      rw [State.l1Fill, State.coreAt_touchL2, State.coreAt_modCoreAt_same] at he
      rcases List.mem_cons.1 (List.mem_of_mem_take he) with rfl | old
      · exact .inr ⟨rfl, rfl, rfl, rfl⟩
      · exact .inl (List.mem_of_mem_filter old)

variable {e : VElem} (listed : (e, .at_ (.hbm asid va pa)) ∈ rs)
include listed

theorem sectorsAgree_filled {l1 : List L1Sec} (core : t.core = { s.core with l1 := l1 }) (mem : t.mem = s.mem)
    (new : ∀ e ∈ l1, e ∈ s.core.l1 ∨ filledBy s asid va pa e) (h : Claims.sectorsAgree s z rs) :
    Claims.sectorsAgree t z rs := by
  obtain ⟨holds, elems⟩ := h
  rw [Claims.sectorsAgree, core, mem]
  refine ⟨fun e he => ?_, fun x hx asid' va' pa' place => ?_⟩
  · rcases new e he with old | ⟨_, _, frame, data⟩
    · exact holds e old
    · rw [data, frame]
  · obtain ⟨aligned, inside, held, together⟩ := elems x hx asid' va' pa' place
    refine ⟨aligned, inside, fun e he space name => ?_, together⟩
    rcases new e he with old | ⟨space', name', frame, _⟩
    · exact held e old space name
    · obtain rfl : asid = asid' := space'.symm.trans space
      rw [frame, together _ listed va pa rfl (by omega)]

theorem ReadSince.readLoc_hbm (ok : s.readLoc s.key (.hbm asid va pa) z nt = .ok (bs, bad, u)) : ReadSince z rs s u := by
  have kept {α : Type} (p : State → α) (cores : ∀ (s : State) v, p { s with cores := v } = p s)
      (quarters : ∀ (s : State) v, p { s with quarters := v } = p s) (torn : ∀ (s : State) v, p { s with torn := v } = p s) :
      p u = p s := State.readLoc_keeps ok p cores quarters torn
  obtain ⟨l1, core, new⟩ := s.readSector_core asid va pa z nt
  rw [State.readLoc_hbm ok] at core
  have mem : u.mem = s.mem := kept State.mem (fun _ _ => rfl) (fun _ _ => rfl) fun _ _ => rfl
  refine ⟨kept State.cur (fun _ _ => rfl) (fun _ _ => rfl) fun _ _ => rfl, mem,
    kept State.cls (fun _ _ => rfl) (fun _ _ => rfl) fun _ _ => rfl,
    kept State.pend (fun _ _ => rfl) (fun _ _ => rfl) fun _ _ => rfl,
    (kept State.ticks (fun _ _ => rfl) (fun _ _ => rfl) fun _ _ => rfl).ge,
    .inl (kept State.stale (fun _ _ => rfl) (fun _ _ => rfl) fun _ _ => rfl), fun i free => ?_,
    sectorsAgree_filled listed core mem new⟩
  rw [show u.core = _ from core]
  exact ⟨free, fun _ _ => rfl⟩

/-- Where the L1 agrees with memory and the access, a read takes the bytes of memory under the context's own stores. -/
theorem State.readLoc_agrees (agrees : Claims.sectorsAgree s z rs)
    (ok : s.readLoc s.key (.hbm asid va pa) z nt = .ok (bs, bad, u)) :
    bs = overlay s.pend s.key .hbm pa (rdBytes s.mem pa z) := by
  obtain ⟨holds, elems⟩ := agrees
  obtain ⟨aligned, inside, held, _⟩ := elems _ listed asid va pa rfl
  cases found : (s.coreAt (coreOfCtx s.key)).l1Find asid va with
  | none => exact State.readLoc_miss ok found
  | some x =>
    rw [State.readLoc_hit ok found]
    rw [coreOfCtx_key] at found
    have entry : x ∈ s.core.l1 := List.mem_of_find?_eq_some found
    have named : x.asid = asid ∧ x.va = va / 128 * 128 := by simpa using List.find?_some found
    have place : pa / 128 * 128 + va % 128 = pa := by omega
    rw [holds x entry, held x entry named.1 named.2, leBytes_sector _ inside, place]

end

end Sys2Proof.Machine
end

section
/-! SUPPORT. What each lane of a vector load takes, where the free values (assumption log 3) settle on reads of cluster-shared memory
as it is (R187, R196, R213 to R218). -/

namespace Sys2Proof.Machine

/-! ## What each lane takes -/

/-- What the lane of an element takes (R187, R196, R216). -/
structure Loads (z : Nat) (rs : List (VElem × Ready)) (s : State) (x : VElem × Ready) (v : Nat × Nat) : Prop where
  pos : v.1 = x.1.pos
  zero : (∀ l, x.2 ≠ .at_ l) → v.2 = 0
  cluster : ∀ a, x.2 = .at_ (.cluster a) →
    ∃ ys, Claims.mayRead s s.key a z ys ∧ v.2 = leVal (overlay s.pend s.key .cluster a ys)
  stash : ∀ off, x.2 = .at_ (.stash off) → look s.core.lines (off / 512) = none → off % 512 + z ≤ 512 →
    v.2 = rdVal s.core.stash off z
  hbm : ∀ asid va pa, x.2 = .at_ (.hbm asid va pa) → Claims.sectorsAgree s z rs →
    v.2 = leVal (overlay s.pend s.key .hbm pa (rdBytes s.mem pa z))

/-- Once a free value has had a read made as memory is, every later one does. -/
def PicksSettle : Prop := ∀ n m, n < m → Config.freePick n % 2 = 0 → Config.freePick m % 2 = 0

section
variable {z : Nat} {rs : List (VElem × Ready)} {s t u : State} {nt bad : Bool} {bs : List Byte} {e : VElem}

theorem Loads.of_unread {r : Ready} (h : ∀ l, r ≠ .at_ l) : Loads z rs s (e, r) (e.pos, 0) :=
  ⟨rfl, fun _ => rfl, fun _ here => absurd here (h _), fun _ here => absurd here (h _), fun _ _ _ here => absurd here (h _)⟩

theorem State.clsRead_even {k a : Nat} (even : Config.freePick s.ticks % 2 = 0) : (s.clsRead k a z).1 = rdBytes s.cls a z := by
  unfold State.clsRead
  dsimp only
  generalize (if s.stale.isEmpty then rdBytes s.cls a z else s.clsBefore k a z) = old
  split
  · rfl
  · rw [if_neg (by omega)]

theorem mayRead_congr {k a : Nat} {ys : List Byte} (cls : t.cls = s.cls) (stale : t.stale = s.stale)
    (h : Claims.mayRead t k a z ys) : Claims.mayRead s k a z ys := by
  have before : t.clsBefore k a z = s.clsBefore k a z := by simp only [State.clsBefore, cls, stale]
  rwa [Claims.mayRead, cls, before] at h

/-- A read within an access reads cluster-shared memory as the state before the access allows, if the free values settle. -/
theorem ReadSince.mayRead (settle : PicksSettle) (since : ReadSince z rs s t) (a : Nat) :
    Claims.mayRead s s.key a z (t.clsRead t.key a z).1 := by
  rw [since.key]
  rcases since.seen with same | ⟨n, before, even⟩
  · exact mayRead_congr since.cls same (t.clsRead_mayRead s.key a z)
  · rw [State.clsRead_even (settle n t.ticks before even), since.cls]
    exact ⟨rdBytes_length .., fun i hi => .inl (rdBytes_getD _ _ hi)⟩

theorem ReadSince.stash_bytes (since : ReadSince z rs s t) {off : Nat} (free : look s.core.lines (off / 512) = none)
    (inside : off % 512 + z ≤ 512) : rdBytes t.core.stash off z = rdBytes s.core.stash off z := by
  refine List.ext_getElem (by simp [rdBytes_length]) fun i hi _ => ?_
  rw [rdBytes_length] at hi
  rw [← List.getD_eq_getElem (d := 0), ← List.getD_eq_getElem (d := 0), rdBytes_getD _ _ hi, rdBytes_getD _ _ hi]
  exact (since.lines _ free).2 _ (by omega)

/-- One read within an access: what its lane takes, and what it leaves for the next. -/
theorem ReadSince.readLoc (settle : PicksSettle) (since : ReadSince z rs s t) {l : Loc} (listed : (e, .at_ l) ∈ rs)
    (ok : t.readLoc t.key l z nt = .ok (bs, bad, u)) : Loads z rs s (e, .at_ l) (e.pos, leVal bs) ∧ ReadSince z rs t u := by
  have performs : (∀ l', Ready.at_ l ≠ .at_ l') → leVal bs = 0 := fun h => absurd rfl (h l)
  cases l with
  | hbm asid va pa =>
    refine ⟨⟨rfl, performs, fun _ here => (nomatch here), fun _ here => (nomatch here), fun asid' va' pa' here agrees => ?_⟩,
      .readLoc_hbm listed ok⟩
    obtain ⟨rfl, rfl, rfl⟩ : asid = asid' ∧ va = va' ∧ pa = pa' := by simpa using here
    rw [State.readLoc_agrees listed (since.agrees agrees) ok, since.pend, since.key, since.mem]
  | stash off =>
    obtain ⟨ready, rfl⟩ := State.readLoc_stash ok
    rw [coreOfCtx_key] at ready performs ⊢
    have next : ReadSince z rs t u := .readyStash ready
    refine ⟨⟨rfl, performs, fun _ here => (nomatch here), fun off' here free inside => ?_, fun _ _ _ here => (nomatch here)⟩, next⟩
    obtain rfl : off = off' := by simpa using here
    have bytes := (since.trans next).stash_bytes free inside
    rw [State.core, next.cur] at bytes
    exact congrArg leVal bytes
  | cluster a =>
    have left : u = (t.clsRead t.key a z).2 := (Prod.mk.inj (Prod.mk.inj (Except.ok.inj ok)).2).2.symm
    refine ⟨⟨rfl, performs, fun a' here => ?_, fun _ here => (nomatch here), fun _ _ _ here => (nomatch here)⟩,
      left ▸ .clsRead ..⟩
    obtain rfl : a = a' := by simpa using here
    refine ⟨_, since.mayRead settle a, ?_⟩
    rw [State.readLoc_cluster ok, since.pend, since.key]

/-- The elements of an access in order: what each lane takes, and what they leave. -/
theorem State.loadElems_loads {s0 w : State} {hot : Option Nat} (settle : PicksSettle) {es : List (VElem × Ready)}
    {vs : List (Nat × Nat)} (listed : ∀ x ∈ es, x ∈ rs) (since : ReadSince z rs s t)
    (ok : t.loadElems s0 z nt hot es = .ok (vs, w)) : List.Forall₂ (Loads z rs s) es vs ∧ ReadSince z rs s w := by
  induction es generalizing t vs with
  | nil =>
    obtain ⟨rfl, rfl⟩ := Prod.mk.inj (Except.ok.inj ok)
    exact ⟨.nil, since⟩
  | cons x es ih =>
    have rest := fun y hy => listed y (List.mem_cons_of_mem _ hy)
    have unread {r : Ready} {e : VElem} (h : ∀ l, r ≠ .at_ l)
        (ok : (t.loadElems s0 z nt hot es >>= fun x => .ok ((e.pos, 0) :: x.1, x.2)) = .ok (vs, w)) :
        List.Forall₂ (Loads z rs s) ((e, r) :: es) vs ∧ ReadSince z rs s w := by
      obtain ⟨⟨vs', w'⟩, ok', h'⟩ := act_bind_ok ok
      obtain ⟨rfl, rfl⟩ := Prod.mk.inj (Except.ok.inj h')
      obtain ⟨values, left⟩ := ih rest since ok'
      exact ⟨.cons (.of_unread h) values, left⟩
    obtain ⟨e, r⟩ := x
    cases r with
    | absent => exact unread (fun _ h => nomatch h) ok
    | unstored => exact unread (fun _ h => nomatch h) ok
    | at_ l =>
      obtain ⟨⟨bs, bad, u⟩, read, ok⟩ := act_bind_ok ok
      cases bad with
      | true => exact nomatch ok
      | false =>
        obtain ⟨⟨vs', w'⟩, ok', h'⟩ := act_bind_ok ok
        obtain ⟨rfl, rfl⟩ := Prod.mk.inj (Except.ok.inj h')
        obtain ⟨value, next⟩ := since.readLoc settle (listed _ (List.mem_cons_self ..)) read
        obtain ⟨values, left⟩ := ih rest ((since.trans next).trans (.count hot l)) ok'
        exact ⟨.cons value values, left⟩

end

end Sys2Proof.Machine

namespace Sys2Proof.Proofs
open Sys2Proof Sys2Proof.Machine Sys2Proof.Claims

/-- The statement about vector loads holds if the free values settle. -/
theorem vectorLoadResults_of_picksSettle (settle : PicksSettle) : Obligations.VectorLoadResults := by
  unfold Obligations.VectorLoadResults
  refine ⟨fun c f s d x hg => ⟨fun hd => run_vecLoad (exec_vld hg hd), fun hd => run_vecLoad (exec_vlds hg hd),
    fun hd hx => run_vecLoad (exec_vldx hg hd hx), fun hd => run_vecLoad (exec_vldd hg hd),
    fun hd typed => run_vecLoad (exec_vldh hg hd typed)⟩, fun s s0 t z nt hot rs vs ok => ?loads,
    fun s rs apart => State.residency_tags apart⟩
  case loads =>
    obtain ⟨values, left⟩ := State.loadElems_loads settle (fun _ h => h) (.refl s) ok
    refine ⟨?_, left.mem, left.cls, left.pend, fun j x v hx hv => ?_⟩
    · rw [← List.forall₂_eq_eq_eq, List.forall₂_map_left_iff, List.forall₂_map_right_iff]
      exact values.flip.imp fun _ _ value => value.pos
    · obtain ⟨hj, rfl⟩ := List.getElem?_eq_some_iff.1 hx
      obtain ⟨hj', rfl⟩ := List.getElem?_eq_some_iff.1 hv
      have value : Loads z rs s rs[j] vs[j] := values.get hj hj'
      exact ⟨value.zero, value.cluster, value.stash, value.hbm⟩

end Sys2Proof.Proofs
end

section
/-! SUPPORT. The converse about vector loads: an access that reads cluster-shared memory as it is and then as it was meets bytes that
the state before the access does not let it read. -/

namespace Sys2Proof.Machine

/-! ## Reads of cluster-shared memory that is not published (R196) -/

section
variable {s : State} {k a z : Nat} (hidden : s.stale.isEmpty = false) (differs : s.clsBefore k a z ≠ rdBytes s.cls a z)
include hidden differs

theorem State.clsRead_now (even : Config.freePick s.ticks % 2 = 0) :
    s.clsRead k a z = (rdBytes s.cls a z, { s with ticks := s.ticks + 1 }.seeCls k a z) := by
  simp only [State.clsRead, hidden, Bool.false_eq_true, if_false]
  rw [if_neg differs, if_neg (by omega)]

theorem State.clsRead_before (odd : Config.freePick s.ticks % 2 = 1) :
    s.clsRead k a z = (s.clsBefore k a z, { s with ticks := s.ticks + 1 }) := by
  simp only [State.clsRead, hidden, Bool.false_eq_true, if_false]
  rw [if_neg differs, if_pos odd]

end

/-- A cluster element of a context with no store pending, on bytes that are sound: its lane takes what the read answers. -/
theorem State.loadElems_cluster {s s0 : State} {z a : Nat} {nt : Bool} {hot : Option Nat} {e : VElem} {es : List (VElem × Ready)}
    (idle : s.pend = []) (sound : s.clsPoison = []) : s.loadElems s0 z nt hot ((e, .at_ (.cluster a)) :: es) =
      (((s.clsRead s.key a z).2.loadElems s0 z nt hot es) >>= fun r =>
        .ok ((e.pos, leVal (s.clsRead s.key a z).1) :: r.1, r.2)) := by
  have clean : marked 3 (ownMarks s.pend s.key .cluster 3 s.clsPoison) a z = false := by
    simp [idle, sound, ownMarks, marked]
  have read : s.readLoc s.key (.cluster a) z nt = .ok ((s.clsRead s.key a z).1, false, (s.clsRead s.key a z).2) := by
    simp only [State.readLoc, clean]
    simp [idle, overlay]
  rw [State.loadElems, read]
  cases hot <;> rfl

/-! ## Two changes to one sector -/

/-- Two changes of other cores to a sector of cluster-shared memory: to its first 16 bytes, and then to the first half of these. -/
def earlierChange : Change :=
  { n := 1, who := .ctx 100, mask := dirtyBits 0 16, data := BitVec.ofNat 1024 (leVal (List.replicate 16 1)), poison := 0 }
def laterChange : Change :=
  { n := 2, who := .ctx 104, mask := dirtyBits 0 8, data := BitVec.ofNat 1024 (leVal (List.replicate 8 2)), poison := 0 }

/-- A state at a tick in which neither change is published, and an access to the second half and then to the first. -/
def twoChanges (n : Nat) : State :=
  { State.reset with
    ticks := n
    cls := wrBytes (wrBytes [] 0 (List.replicate 16 1)) 0 (List.replicate 8 2)
    stale := [{ pa := 0, changes := [earlierChange, laterChange], old := 0, poison := 0, seen := [], had := [], leaks := [] }] }
def bothHalves : List (VElem × Ready) :=
  [({ pos := 0, i0 := 0, i1 := 0, i2 := 0, addr := .ptr 8 }, .at_ (.cluster 8)),
   ({ pos := 1, i0 := 0, i1 := 0, i2 := 0, addr := .ptr 0 }, .at_ (.cluster 0))]

/-- The state after the second half has been read as it is. -/
def halfSeen (n : Nat) : State := { twoChanges n with ticks := n + 1 }.seeCls 0 8 8

theorem twoChanges_second (n : Nat) : (twoChanges n).clsBefore 0 8 8 = List.replicate 8 0 ∧
    rdBytes (twoChanges n).cls 8 8 = List.replicate 8 1 := by
  change (twoChanges 0).clsBefore 0 8 8 = List.replicate 8 0 ∧ rdBytes (twoChanges 0).cls 8 8 = List.replicate 8 1
  decide +kernel

theorem twoChanges_first (n : Nat) : (twoChanges n).clsBefore 0 0 8 = List.replicate 8 0 ∧
    rdByte (twoChanges n).cls 0 = 2 := by
  change (twoChanges 0).clsBefore 0 0 8 = List.replicate 8 0 ∧ rdByte (twoChanges 0).cls 0 = 2
  decide +kernel

theorem halfSeen_first (n : Nat) : (halfSeen n).clsBefore 0 0 8 = List.replicate 8 1 ∧
    rdBytes (halfSeen n).cls 0 8 = List.replicate 8 2 := by
  change (halfSeen 0).clsBefore 0 0 8 = List.replicate 8 1 ∧ rdBytes (halfSeen 0).cls 0 8 = List.replicate 8 2
  decide +kernel

theorem halfSeen_hidden (n : Nat) : (halfSeen n).stale.isEmpty = false ∧ (halfSeen n).ticks = n + 1 := by
  change (halfSeen 0).stale.isEmpty = false ∧ _
  exact ⟨by decide +kernel, rfl⟩

/-- Read as it is and then as it was, the first half answers the earlier change. -/
theorem loadElems_bothHalves {n : Nat} (even : Config.freePick n % 2 = 0) (odd : Config.freePick (n + 1) % 2 = 1) :
    ∃ t, (twoChanges n).loadElems (twoChanges n) 8 false none bothHalves =
      .ok ([(0, leVal (List.replicate 8 1)), (1, leVal (List.replicate 8 1))], t) := by
  obtain ⟨before, now⟩ := twoChanges_second n
  obtain ⟨before', now'⟩ := halfSeen_first n
  have first : (twoChanges n).clsRead (twoChanges n).key 8 8 = (List.replicate 8 1, halfSeen n) := by
    refine (State.clsRead_now rfl ?_ even).trans (by rw [now]; rfl)
    change (twoChanges n).clsBefore 0 8 8 ≠ _
    rw [before, now]
    decide
  have second : ((halfSeen n).clsRead (halfSeen n).key 0 8).1 = List.replicate 8 1 := by
    change ((halfSeen n).clsRead 0 0 8).1 = _
    rw [State.clsRead_before (halfSeen_hidden n).1 (by rw [before', now']; decide) odd, before']
  rw [bothHalves, State.loadElems_cluster rfl rfl, first, State.loadElems_cluster rfl rfl, second]
  exact ⟨_, rfl⟩

theorem not_mayRead_earlier (n : Nat) {ys : List Byte} (may : Claims.mayRead (twoChanges n) (twoChanges n).key 0 8 ys) :
    leVal (List.replicate 8 1) ≠ leVal ys := by
  intro same
  have byte := leVal_byte ys 0
  rw [← same, leVal_byte] at byte
  obtain ⟨before, now⟩ := twoChanges_first n
  rcases may.2 0 (by decide) with asNow | asBefore
  · rw [← byte, now] at asNow
    exact absurd asNow (by decide)
  · change ys.getD 0 0 = ((twoChanges n).clsBefore 0 0 8).getD 0 0 at asBefore
    rw [← byte, before] at asBefore
    exact absurd asBefore (by decide)

theorem picksSettle_of_next (h : ∀ n, Config.freePick n % 2 = 0 → Config.freePick (n + 1) % 2 = 0) : PicksSettle := by
  intro n m later even
  induction m, later using Nat.le_induction with
  | base => exact h n even
  | succ m _ ih => exact h m ih

end Sys2Proof.Machine

namespace Sys2Proof.Proofs
open Sys2Proof Sys2Proof.Machine Sys2Proof.Claims

/-- The statement about vector loads (O25) says of the free values that none has a read made as memory is (even) before another has
one made as it was (odd): its clause on cluster-shared memory compares every element with the state before the access, while an
element's read adds to what the context has seen. `Config.freePick` has no body, so neither side can be proved or refuted. -/
theorem vectorLoadResults_iff : Obligations.VectorLoadResults ↔ PicksSettle := by
  refine ⟨fun h => picksSettle_of_next fun n even => ?_, vectorLoadResults_of_picksSettle⟩
  by_contra notEven
  obtain ⟨t, loaded⟩ := loadElems_bothHalves even (Nat.mod_two_ne_zero.1 notEven)
  unfold Obligations.VectorLoadResults at h
  obtain ⟨-, loads, -⟩ := h
  obtain ⟨-, -, -, -, lanes⟩ := loads _ _ _ _ _ _ _ _ loaded
  obtain ⟨-, cluster, -⟩ := lanes 1 _ _ rfl rfl
  obtain ⟨ys, may, same⟩ := cluster 0 rfl
  exact not_mayRead_earlier n may (same.trans (congrArg leVal rfl))

end Sys2Proof.Proofs
end

section
/-! SUPPORT. Writes of the window that are refused, and what the refusal leaves in the status and in the log, with the statement about
masters that do not own the device (R356, R358). -/

namespace Sys2Proof.Machine

/-! ## Refusal (R356, R358) -/

theorem State.ownerWrite_foreign {s : State} {m : Fin 4} (foreign : s.owner.own ≠ m.val) (off : Nat) (v : Word)
    (f : State → Option State) : s.ownerWrite m off v f = s.refuse m off v 1 := if_neg foreign

theorem ownerWrite_next_foreign {s : State} {m : Fin 4} (foreign : s.owner.own ≠ m.val) {off off' : Nat} {v v' : Word}
    (f : State → Option State) (place : off = off') (value : v = v') :
    (.next (s.ownerWrite m off v f) : Out) = .next { s with owner := s.owner.refuse m off' v' 1 } := by
  subst place value
  rw [State.ownerWrite_foreign foreign]
  rfl

theorem Owner.setStatus_mstat_same (o : Owner) (m : Fin 4) (status refused : Nat) : (o.setStatus m status refused).mstat.get m =
    w64 ((bitsAt (o.mstat.get m) 32 32 + refused) % 2 ^ 32 * 2 ^ 32 + status) := vget_set_same ..

theorem Owner.setStatus_mstat_ne (o : Owner) {m k : Fin 4} (status refused : Nat) (h : k ≠ m) :
    (o.setStatus m status refused).mstat.get k = o.mstat.get k := vget_set_ne _ _ h

theorem Owner.status_setStatus (o : Owner) (m : Fin 4) {status : Nat} (refused : Nat) (small : status < 2 ^ 32) :
    bitsAt ((o.setStatus m status refused).mstat.get m) 0 32 = status := by
  rw [Owner.setStatus_mstat_same, bitsAt_w64 _ (by decide)]
  omega

theorem Owner.refusals_setStatus (o : Owner) (m : Fin 4) {status : Nat} (refused : Nat) (small : status < 2 ^ 32) :
    bitsAt ((o.setStatus m status refused).mstat.get m) 32 32 = (bitsAt (o.mstat.get m) 32 32 + refused) % 2 ^ 32 := by
  rw [Owner.setStatus_mstat_same, bitsAt_w64 _ (by decide)]
  omega

/-! ## The entry of the log (R358) -/

theorem bitsAt_ofNat {w : Nat} (n : Nat) {lo k : Nat} (h : lo + k ≤ w) : bitsAt (BitVec.ofNat w n) lo k = n / 2 ^ lo % 2 ^ k := by
  rw [bitsAt, BitVec.extractLsb'_toNat, BitVec.toNat_ofNat]
  apply Nat.eq_of_testBit_eq
  intro i
  simp only [Nat.testBit_mod_two_pow, Nat.testBit_shiftRight, Nat.testBit_div_two_pow]
  by_cases hi : i < k
  · simp [hi, show lo + i < w by omega, Nat.add_comm]
  · simp [hi]

theorem mlogEntry_fields (o : Owner) (m : Fin 4) (off : Nat) (v : Word) {status : Nat} (small : status < 2 ^ 16) :
    bitsAt (mlogEntry o m off v status) 0 22 = off % 2 ^ 22 ∧ bitsAt (mlogEntry o m off v status) 22 2 = m.val ∧
    bitsAt (mlogEntry o m off v status) 32 16 = o.epoch.toNat ∧ bitsAt (mlogEntry o m off v status) 48 16 = status ∧
    bitsAt (mlogEntry o m off v status) 64 64 = v.toNat := by
  have hm := m.isLt
  have he := o.epoch.isLt
  have hv := v.isLt
  refine ⟨?_, ?_, ?_, ?_, ?_⟩ <;> (rw [mlogEntry, bitsAt_ofNat _ (by decide)]; omega)

end Sys2Proof.Machine

namespace Sys2Proof.Proofs
open Sys2Proof Sys2Proof.Machine Sys2Proof.Claims

/-- Settles O50: each write is one of an owner, which another master makes in vain, and the refusal by the fields it writes. -/
theorem refusedRegisterWrites : Obligations.RefusedRegisterWrites := by
  unfold Obligations.RefusedRegisterWrites
  refine fun m q v c e w n r s foreign => ⟨?writes, fun off st small => ?entry⟩
  case writes =>
    have quarterly (n : Nat) : quarterOff q n = 0x10000 + 8 * n + 0x1000 * q.val := by unfold quarterOff; omega
    have journal (n : Nat) : journalOff q n = 0x200080 + 0x20 * q.val + 8 * n := rfl
    have refuses {off off' : Nat} {v v' : Word} (f : State → Option State) (place : off = off') (value : v = v') :=
      ownerWrite_next_foreign foreign f place value
    simp only [List.forall_mem_cons]
    exact ⟨refuses _ (quarterly 0) rfl, refuses _ (quarterly 1) rfl, refuses _ (quarterly 2) rfl, refuses _ (quarterly 4) rfl,
      refuses _ (quarterly 5) rfl, refuses _ (quarterly 5) rfl, refuses _ (quarterly 6) rfl, refuses _ (quarterly 7) rfl,
      refuses _ rfl rfl, refuses _ rfl rfl, if_neg foreign, refuses _ rfl rfl, refuses _ rfl rfl,
      refuses _ rfl rfl, refuses _ rfl rfl, refuses _ rfl rfl, refuses _ rfl rfl,
      refuses _ (by split <;> rfl) rfl, refuses _ rfl rfl, refuses _ rfl rfl, refuses _ rfl rfl, refuses _ rfl rfl,
      List.forall_mem_nil _⟩
  case entry =>
    obtain ⟨place, master, epoch, status, value⟩ := mlogEntry_fields s.owner m off v small
    have logged : lookD (s.owner.refuse m off v st).mlog (s.owner.mlogprod.toNat % 64) 0 = mlogEntry s.owner m off v st :=
      lookD_put_same ..
    have small' : st < 2 ^ 32 := by omega
    simp only [logged]
    exact ⟨s.owner.status_setStatus m 1 small', s.owner.refusals_setStatus m 1 small', fun k h => s.owner.setStatus_mstat_ne st 1 h,
      rfl, place, master, epoch, status, value, rfl, rfl, rfl, rfl⟩

end Sys2Proof.Proofs
end

section
/-! SUPPORT. What each ownership command answers, with the statement about ownership (R357, R384, Table 24-3). -/

namespace Sys2Proof.Machine

/-! ## Writes that any master may make (R356) -/

section
variable {s t : State} {m : Fin 4} {off : Nat} {v : Word} {f : State → Option State}

theorem State.anyWrite_done (h : f s = some t) : s.anyWrite m off v f = t.accept m := by
  simp only [State.anyWrite, h]
  rfl

theorem State.anyWrite_refused (h : f s = none) : s.anyWrite m off v f = s.refuse m off v 2 := by simp only [State.anyWrite, h]

@[simp] theorem State.status_accept (s : State) (m : Fin 4) : bitsAt ((s.accept m).owner.mstat.get m) 0 32 = 0 :=
  s.owner.status_setStatus m 0 (by decide)

theorem State.status_refuse (s : State) (m : Fin 4) (off : Nat) (v : Word) {status : Nat} (small : status < 2 ^ 32) :
    bitsAt ((s.refuse m off v status).owner.mstat.get m) 0 32 = status := s.owner.status_setStatus m 1 small

end

/-! ## OWNCMD (R357, Table 24-3) -/

/-- The value of a command as its event names it, whatever ACT the written value holds. -/
def withAct (v : Word) (act : Nat) : Word := (v &&& ~~~(7 : Word)) ||| w64 act

theorem bitsAt_withAct (v : Word) {act lo k : Nat} (ha : act < 8) (h : 3 ≤ lo) :
    bitsAt (withAct v act) lo k = bitsAt v lo k := by
  have above {n : Nat} (hn : n < 8) (i : Nat) : (BitVec.ofNat 64 n).getLsbD (lo + i) = false := by
    rw [BitVec.getLsbD_ofNat, Nat.testBit_lt_two_pow (hn.trans_le (Nat.pow_le_pow_right (n := 2) (i := 3) (by decide) (by omega))),
      Bool.and_false]
  refine bitsAt_congr fun i _ => ?_
  rw [withAct, w64, BitVec.getLsbD_or, above ha, BitVec.getLsbD_and, BitVec.getLsbD_not, show (7 : Word) = BitVec.ofNat 64 7 from rfl,
    above (by decide)]
  by_cases hi : lo + i < 64
  · simp [hi]
  · simp [hi, BitVec.getLsbD_of_ge v (lo + i) (by omega)]

section
variable {s : State} {m : Fin 4} {act : Nat} {v : Word}

theorem State.ownCommand_takes {o : Owner} (h : s.owner.command m act (withAct v act) = some o) :
    ∃ t : State, (.next (s.ownCommand m act v) : Out) = .next t ∧ t.owner.own = o.own ∧ t.owner.cand = o.cand ∧
      t.owner.lease = o.lease ∧ t.owner.epoch = o.epoch ∧ bitsAt (t.owner.mstat.get m) 0 32 = 0 ∧ t.mem = s.mem := by
  have done : s.ownCommand m act v = State.accept { s with owner := o } m := by
    unfold State.ownCommand
    exact State.anyWrite_done (congrArg (Option.map fun o => { s with owner := o }) h)
  exact ⟨_, congrArg Host.Outcome.next done, rfl, rfl, rfl, rfl, State.status_accept .., rfl⟩

theorem State.ownCommand_refused (h : s.owner.command m act (withAct v act) = none) :
    ∃ t : State, (.next (s.ownCommand m act v) : Out) = .next t ∧ t.owner.own = s.owner.own ∧ t.owner.cand = s.owner.cand ∧
      t.owner.lease = s.owner.lease ∧ t.owner.epoch = s.owner.epoch ∧ bitsAt (t.owner.mstat.get m) 0 32 = 2 ∧ t.mem = s.mem := by
  have refused : s.ownCommand m act v = s.refuse m ownCmdOff (withAct v act) 2 := by
    unfold State.ownCommand
    exact State.anyWrite_refused (congrArg (Option.map fun o => { s with owner := o }) h)
  exact ⟨_, congrArg Host.Outcome.next refused, rfl, rfl, rfl, rfl, s.status_refuse _ _ _ (by decide), rfl⟩

end

section
variable (o : Owner) (m : Fin 4) (v : Word)

theorem Owner.command_claim : o.command m 1 (withAct v 1) =
    if o.cmdOk (withAct v 1) = true ∧ o.own = 7 ∧ 100 ≤ bitsAt v 16 16 then some (o.change m o.cand (bitsAt v 16 16)) else none := by
  have term : cmdTerm (withAct v 1) = bitsAt v 16 16 := bitsAt_withAct v (by decide) (by decide)
  simp only [Owner.command, term]
  cases o.cmdOk (withAct v 1) <;> simp

theorem Owner.command_renew : o.command m 2 (withAct v 2) =
    if o.cmdOk (withAct v 2) = true ∧ o.own = m.val ∧ 100 ≤ bitsAt v 16 16 then some { o with lease := bitsAt v 16 16 } else none := by
  have term : cmdTerm (withAct v 2) = bitsAt v 16 16 := bitsAt_withAct v (by decide) (by decide)
  simp only [Owner.command, term]
  cases o.cmdOk (withAct v 2) <;> simp

theorem Owner.command_offer : o.command m 3 (withAct v 3) =
    if o.cmdOk (withAct v 3) = true ∧ o.own = m.val ∧ bitsAt v 8 3 ≤ 3 ∧ bitsAt v 8 3 ≠ m.val
    then some { o with cand := bitsAt v 8 3 } else none := by
  have target : cmdTarget (withAct v 3) = bitsAt v 8 3 := bitsAt_withAct v (by decide) (by decide)
  simp only [Owner.command, target]
  cases o.cmdOk (withAct v 3) <;> simp

theorem Owner.command_accept : o.command m 4 (withAct v 4) =
    if o.cmdOk (withAct v 4) = true ∧ o.cand = m.val then some (o.change m 7 o.lease) else none := by
  simp only [Owner.command]
  cases o.cmdOk (withAct v 4) <;> simp

theorem Owner.command_release : o.command m 5 (withAct v 5) =
    if o.cmdOk (withAct v 5) = true ∧ o.own = m.val then some (o.change 7 7 o.lease) else none := by
  simp only [Owner.command]
  cases o.cmdOk (withAct v 5) <;> simp

end

/-! ## The lease (R357) and MLOGCONS (R384) -/

/-- The owner of a device after time has passed on the lease. -/
def Owner.aged (o : Owner) (ms : Nat) : Owner :=
  if o.own ≠ 7 ∧ o.lease - ms = 0 then o.change 7 7 0 else { o with lease := o.lease - ms }

theorem execLeaseExpiry_eq (ms : Nat) (s : State) : exec (.leaseExpiry ms) s = .next { s with owner := s.owner.aged ms } := rfl

theorem Owner.aged_lease (o : Owner) (ms : Nat) : (o.aged ms).lease = o.lease - ms := by
  unfold Owner.aged
  split
  case isTrue h => exact h.2.symm
  case isFalse => rfl

theorem Owner.aged_ends {o : Owner} {ms : Nat} (owned : o.own ≠ 7) (past : o.lease ≤ ms) : o.aged ms = o.change 7 7 0 :=
  if_pos ⟨owned, by omega⟩

theorem Owner.aged_goes_on {o : Owner} {ms : Nat} (h : o.own = 7 ∨ ms < o.lease) : o.aged ms = { o with lease := o.lease - ms } :=
  if_neg fun ⟨owned, past⟩ => h.elim owned fun left => by omega

theorem exec_mlogcons_consumes {m : Fin 4} {v : Word} {s : State} (one : v = 1) (held : s.owner.mlogcons ≠ s.owner.mlogprod) :
    exec (.mlogcons m v) s = .next (State.accept { s with owner := { s.owner with mlogcons := s.owner.oldest + 1 } } m) :=
  congrArg Host.Outcome.next (State.anyWrite_done (if_pos ⟨one, held⟩))

theorem exec_mlogcons_refused {m : Fin 4} {v : Word} {s : State} (h : v ≠ 1 ∨ s.owner.mlogcons = s.owner.mlogprod) :
    exec (.mlogcons m v) s = .next (s.refuse m 0x48 v 2) :=
  congrArg Host.Outcome.next (State.anyWrite_refused (if_neg fun ⟨one, held⟩ => h.elim (· one) held))

end Sys2Proof.Machine

namespace Sys2Proof.Proofs
open Sys2Proof Sys2Proof.Machine Sys2Proof.Claims

/-- Settles O52: each command by when it succeeds, the lease by whether it runs out, and MLOGCONS by whether an entry is held. -/
theorem ownershipCommands : Obligations.OwnershipCommands := by
  unfold Obligations.OwnershipCommands
  intro m v s
  refine ⟨fun h own term => ?_, fun h => ?_, fun h own term => ?_, fun h => ?_, fun h own le ne => ?_, fun h => ?_, fun h cand => ?_,
    fun h => ?_, fun h own => ?_, fun h => ?_, fun ms => ?lease, fun one held => ?consumes, exec_mlogcons_refused⟩
  case lease =>
    exact ⟨_, execLeaseExpiry_eq ms s, rfl, s.owner.aged_lease ms,
      fun owned past => by simp [Owner.aged_ends owned past, Owner.change], fun h => by simp [Owner.aged_goes_on h]⟩
  case consumes => exact ⟨_, exec_mlogcons_consumes one held, rfl, rfl, rfl⟩
  · exact State.ownCommand_takes ((s.owner.command_claim m v).trans (if_pos ⟨h, own, term⟩))
  · exact State.ownCommand_refused ((s.owner.command_claim m v).trans (if_neg h))
  · exact State.ownCommand_takes ((s.owner.command_renew m v).trans (if_pos ⟨h, own, term⟩))
  · exact State.ownCommand_refused ((s.owner.command_renew m v).trans (if_neg h))
  · exact State.ownCommand_takes ((s.owner.command_offer m v).trans (if_pos ⟨h, own, le, ne⟩))
  · exact State.ownCommand_refused ((s.owner.command_offer m v).trans (if_neg h))
  · exact State.ownCommand_takes ((s.owner.command_accept m v).trans (if_pos ⟨h, cand⟩))
  · exact State.ownCommand_refused ((s.owner.command_accept m v).trans (if_neg h))
  · exact State.ownCommand_takes ((s.owner.command_release m v).trans (if_pos ⟨h, own⟩))
  · exact State.ownCommand_refused ((s.owner.command_release m v).trans (if_neg h))

end Sys2Proof.Proofs
end

section
/-! SUPPORT. What each register takes of an owner's write, and the refusals by a register's own rule, with the statement about them
(R306, R313, R326, R332, R334, R348, R372, R374, R376). -/

namespace Sys2Proof.Machine

@[simp] theorem State.accept_ctxs (s : State) (m : Fin 4) : (s.accept m).ctxs = s.ctxs := rfl
@[simp] theorem State.accept_coreAt (s : State) (m : Fin 4) (n : Nat) : (s.accept m).coreAt n = s.coreAt n := rfl
@[simp] theorem State.accept_probe (s : State) (m : Fin 4) (n : Nat) : (s.accept m).probe n = s.probe n := rfl

/-! ## Registers of a quarter (R306, R313, R374) -/

section
variable {s : State} {m q : Fin 4} {v : Word} (own : s.owner.own = m.val)
include own

/-- What an owner's write answers that leaves memory and contexts alone. -/
theorem ownerWrite_takes {off : Nat} {f : State → Option State} {u : State} {p : State → Prop} (h : f s = some u)
    (mem : u.mem = s.mem) (ctxs : u.ctxs = s.ctxs) (holds : p (u.accept m)) :
    ∃ t : State, (.next (s.ownerWrite m off v f) : Out) = .next t ∧
      (t.mem = s.mem ∧ t.ctxs = s.ctxs ∧ bitsAt (t.owner.mstat.get m) 0 32 = 0) ∧ p t :=
  ⟨_, congrArg Host.Outcome.next (State.ownerWrite_done own h), ⟨mem, ctxs, State.status_accept ..⟩, holds⟩

/-- One that changes a quarter. -/
theorem quarterWrite_takes {off : Nat} {f : State → Option State} {g : Quarter → Quarter} {p : Quarter → Prop}
    (h : f s = some (s.modQuarter q g)) (holds : p (g (s.quarter q))) :
    ∃ t : State, (.next (s.ownerWrite m off v f) : Out) = .next t ∧
      (t.mem = s.mem ∧ t.ctxs = s.ctxs ∧ bitsAt (t.owner.mstat.get m) 0 32 = 0) ∧ p (t.quarter q) :=
  ownerWrite_takes own (p := fun t => p (t.quarter q)) h rfl rfl (by
    rwa [State.accept_quarter, State.quarter_modQuarter_same])

theorem ownerWrite_refuses {off off' : Nat} {f : State → Option State} (h : f s = none) (place : off = off') :
    (.next (s.ownerWrite m off v f) : Out) = .next { s with owner := s.owner.refuse m off' v 2 } := by
  subst place
  exact congrArg Host.Outcome.next (State.ownerWrite_refused own h)

theorem exec_quantumWrite_takes (least : 100 ≤ bitsAt v 0 32) (most : bitsAt v 0 32 ≤ 100000) :
    ∃ t, exec (.quantumWrite m q v) s = .next t ∧
      (t.mem = s.mem ∧ t.ctxs = s.ctxs ∧ bitsAt (t.owner.mstat.get m) 0 32 = 0) ∧ (t.quarter q).quantum = w64 (bitsAt v 0 32) :=
  quarterWrite_takes own (p := fun x => x.quantum = _) (if_neg (by simp; omega)) rfl

theorem exec_quantumWrite_refused (h : bitsAt v 0 32 < 100 ∨ 100000 < bitsAt v 0 32) :
    exec (.quantumWrite m q v) s = .next { s with owner := s.owner.refuse m (0x10000 + 0x1000 * q.val) v 2 } :=
  ownerWrite_refuses own (if_pos (by simpa using h)) rfl

theorem exec_savebaseWrite_takes (empty : (s.quarter q).saves = []) :
    ∃ t, exec (.savebaseWrite m q v) s = .next t ∧
      (t.mem = s.mem ∧ t.ctxs = s.ctxs ∧ bitsAt (t.owner.mstat.get m) 0 32 = 0) ∧
      (t.quarter q).savebase = w64 (bitsAt v 16 24 * 2 ^ 16) :=
  quarterWrite_takes own (p := fun x => x.savebase = _) (if_pos (by rw [empty]; rfl)) rfl

theorem exec_savelimWrite_takes (empty : (s.quarter q).saves = []) :
    ∃ t, exec (.savelimWrite m q v) s = .next t ∧
      (t.mem = s.mem ∧ t.ctxs = s.ctxs ∧ bitsAt (t.owner.mstat.get m) 0 32 = 0) ∧ (t.quarter q).savelim = w64 (bitsAt v 0 32) :=
  quarterWrite_takes own (p := fun x => x.savelim = _) (if_pos (by rw [empty]; rfl)) rfl

theorem saves_refused (held : (s.quarter q).saves ≠ []) :
    exec (.savebaseWrite m q v) s = .next { s with owner := s.owner.refuse m (0x10008 + 0x1000 * q.val) v 2 } ∧
    exec (.savelimWrite m q v) s = .next { s with owner := s.owner.refuse m (0x10010 + 0x1000 * q.val) v 2 } := by
  have closed : ¬(s.quarter q).saves.isEmpty = true := fun h => held (List.isEmpty_iff.1 h)
  exact ⟨ownerWrite_refuses own (if_neg closed) (by unfold quarterOff; omega),
    ownerWrite_refuses own (if_neg closed) (by unfold quarterOff; omega)⟩

/-! ## The journal (R374) -/

theorem exec_journalBase_takes (empty : (s.quarter q).jprod = (s.quarter q).jcons) :
    ∃ t, exec (.journalConfigWrite m q 0 v) s = .next t ∧
      (t.mem = s.mem ∧ t.ctxs = s.ctxs ∧ bitsAt (t.owner.mstat.get m) 0 32 = 0) ∧ (t.quarter q).jbase = w64 (bitsAt v 0 24) :=
  quarterWrite_takes own (p := fun x => x.jbase = _)
    ((if_neg (by decide)).trans ((if_neg (by simp [empty])).trans (if_pos rfl))) rfl

theorem exec_journalSize_takes (empty : (s.quarter q).jprod = (s.quarter q).jcons) (size : journalSizeOk (bitsAt v 0 17) = true) :
    ∃ t, exec (.journalConfigWrite m q 1 v) s = .next t ∧
      (t.mem = s.mem ∧ t.ctxs = s.ctxs ∧ bitsAt (t.owner.mstat.get m) 0 32 = 0) ∧
      (t.quarter q).jsize = v &&& w64 0x8001FFFF :=
  quarterWrite_takes own (p := fun x => x.jsize = _)
    ((if_neg (by decide)).trans ((if_neg (by simp [empty])).trans ((if_neg (by decide)).trans (if_pos size)))) rfl

theorem exec_journalConsumed_takes :
    ∃ t, exec (.journalConfigWrite m q 2 v) s = .next t ∧
      (t.mem = s.mem ∧ t.ctxs = s.ctxs ∧ bitsAt (t.owner.mstat.get m) 0 32 = 0) ∧ (t.quarter q).jcons = v.extractLsb' 0 32 :=
  quarterWrite_takes own (p := fun x => x.jcons = _) (if_pos rfl) rfl

/-! ## Translation (R326, R332, R334) -/

theorem exec_rqconsWrite_takes (within : (s.xlat.rqprod - v.setWidth 32).toNat ≤ 256) :
    ∃ t, exec (.rqconsWrite m v) s = .next t ∧
      (t.mem = s.mem ∧ t.ctxs = s.ctxs ∧ bitsAt (t.owner.mstat.get m) 0 32 = 0) ∧
      t.xlat.rqcons = v.setWidth 32 ∧ t.xlat.rqprod = s.xlat.rqprod := by
  have low : v.extractLsb' 0 32 = v.setWidth 32 := BitVec.setWidth_eq_extractLsb' (by decide) |>.symm
  refine ownerWrite_takes own (p := fun t => t.xlat.rqcons = _ ∧ t.xlat.rqprod = _) (if_neg ?_) rfl rfl ⟨low, rfl⟩
  rw [low]
  omega

theorem exec_rpclr_takes : ∃ t, exec (.rpclr m v) s = .next t ∧
    (t.mem = s.mem ∧ t.ctxs = s.ctxs ∧ bitsAt (t.owner.mstat.get m) 0 32 = 0) ∧ t.xlat.pins = [] :=
  ownerWrite_takes own (p := fun t => t.xlat.pins = _) rfl rfl rfl rfl

/-- The state in which a write of TLBIA waits (R334). -/
def State.tlbiaHeld (s : State) (m : Fin 4) (v : Word) : State :=
  { s with xlat := { s.xlat with tlbia := s.xlat.tlbia ++ [(m, v)] }
           owner := if m = 0 then s.owner else { s.owner with replies := s.owner.replies.set m none m.isLt } }

theorem exec_tlbia_completes {u : State} (alone : s.xlat.tlbia = [])
    (done : (s.tlbiaHeld m v).invalidate (tlbiaCover v) true = .ok u) :
    exec (.tlbia m v) s = .next { u with xlat := { u.xlat with tlbia := [] }, owner := u.owner.setStatus m 0 0 } := by
  have waits : (s.tlbiaHeld m v).xlat.tlbia = [(m, v)] := congrArg (· ++ [(m, v)]) alone
  refine (if_pos own).trans (congrArg Host.Outcome.next ?_)
  change (s.tlbiaHeld m v).tlbiaTurn = _
  rw [State.tlbiaTurn, waits]
  exact State.invalidateThen_done _ done

/-! ## The probe table (R348) -/

theorem exec_probeStageWrite_takes (e : Fin 256) {w : Fin 4} (upper : w ≠ 0) :
    ∃ t, exec (.probeStageWrite m e w v) s = .next t ∧
      (t.mem = s.mem ∧ t.ctxs = s.ctxs ∧ bitsAt (t.owner.mstat.get m) 0 32 = 0) ∧ t.serving.probes = s.serving.probes ∧
      lookD t.serving.staging e.val 0 = setProbeWord (lookD s.serving.staging e.val 0) w.val v :=
  ownerWrite_takes own (p := fun t => t.serving.probes = _ ∧ lookD t.serving.staging _ _ = _) (if_neg upper) rfl rfl
    ⟨rfl, lookD_put_same ..⟩

theorem exec_probeCommit_takes (e : Fin 256) (good : s.probeOk e.val (setProbeWord (lookD s.serving.staging e.val 0) 0 v) = true) :
    ∃ t, exec (.probeCommit m e v) s = .next t ∧
      (t.mem = s.mem ∧ t.ctxs = s.ctxs ∧ bitsAt (t.owner.mstat.get m) 0 32 = 0) ∧
      t.probe e.val = setProbeWord (lookD s.serving.staging e.val 0) 0 v ∧ ∀ k, k ≠ e.val → t.probe k = s.probe k :=
  ownerWrite_takes own (p := fun t => t.probe _ = _ ∧ ∀ k, k ≠ e.val → t.probe k = s.probe k) (if_pos good) rfl rfl
    ⟨lookD_put_same .., fun _ h => lookD_put_ne _ _ _ h⟩

theorem exec_probeCommit_refused (e : Fin 256) (bad : s.probeOk e.val (setProbeWord (lookD s.serving.staging e.val 0) 0 v) = false) :
    exec (.probeCommit m e v) s = .next { s with owner := s.owner.refuse m (0x121000 + 32 * e.val) v 2 } :=
  ownerWrite_refuses own (if_neg (ne_true_of_eq_false bad)) rfl

/-! ## Sparing (R372, R376) -/

/-- A core as a write of its SPARE leaves it. -/
def Core.spared (c : Core) (v : Word) : Core := { c with dis := bitAt v 63, tspare := bitsAt v 0 16 }

theorem exec_spareWrite_done {c : Fin 320} (empty : s.coreEmpty c.val = true) (ok : tspareOk (bitsAt v 0 16) = true) :
    exec (.spareWrite m c v) s = .next (State.accept (if bitAt v 63 then (s.modCoreAt c fun x => x.spared v).endAllBound c
      else s.modCoreAt c fun x => x.spared v) m) :=
  congrArg Host.Outcome.next (State.ownerWrite_done own (if_neg (by simp [empty, ok])))

theorem exec_spareWrite_refused {c : Fin 320} (busy : s.coreEmpty c.val = false) :
    exec (.spareWrite m c v) s = .next { s with owner := s.owner.refuse m (0x200400 + 8 * c.val) v 2 } :=
  ownerWrite_refuses own (if_pos (by simp [busy])) rfl

end

theorem State.publishGone_keeps {α : Type} (p : State → α) (torn : ∀ (s : State) v, p { s with torn := v } = p s) (s : State) :
    p s.publishGone = p s := torn ..

/-- Ending the gangs that a disabled core binds changes quarters, launches and what is not published. -/
theorem State.endAllBound_keeps {α : Type} (p : State → α) (quarter : ∀ s q f, p (State.modQuarter s q f) = p s)
    (torn : ∀ (s : State) v, p { s with torn := v } = p s) (launches : ∀ (s : State) v, p { s with launches := v } = p s)
    (s : State) (core : Nat) : p (s.endAllBound core) = p s := by
  have one (s : State) (q : Fin 4) (x : Saved) : p (s.endBound q x core) = p s := by
    refine (launches ..).trans ((launches ..).trans ((torn ..).trans ((quarter ..).trans ?_)))
    exact foldl_keeps p (fun s c => by split; exacts [quarter .., rfl]) _ _
  exact foldl_keeps p (fun s q => foldl_keeps p (fun s x => one s q x) _ _) _ _

/-- A row spare table with the four entries of a written word. -/
def rowSpares (t : Table (BitVec 16)) (n : Fin 32) (v : Word) : Table (BitVec 16) :=
  (List.range 4).foldl (fun (t : Table (BitVec 16)) j => putOr 0 t (4 * n.val + j) (v.extractLsb' (16 * j) 16)) t

section
variable {s : State} {m : Fin 4} {v : Word} (own : s.owner.own = m.val)
include own

theorem exec_rowSpareTableWrite_takes (c : Fin 320) (n : Fin 32) (empty : s.coreEmpty c.val = true)
    (good : ∀ j, j < 4 → rowEntryOk (rowSpares (s.coreAt c.val).rowSpare n v) (4 * n.val + j) = true) :
    ∃ t, exec (.rowSpareTableWrite m c n v) s = .next t ∧
      (t.mem = s.mem ∧ t.ctxs = s.ctxs ∧ bitsAt (t.owner.mstat.get m) 0 32 = 0) ∧
      (t.coreAt c.val).rowSpare = rowSpares (s.coreAt c.val).rowSpare n v :=
  ownerWrite_takes own (p := fun t => (t.coreAt c.val).rowSpare = _)
    (if_pos (Bool.and_eq_true_iff.2 ⟨empty, List.all_eq_true.2 fun j hj => good j (List.mem_range.1 hj)⟩)) rfl rfl (by
      rw [State.accept_coreAt, State.coreAt_modCoreAt_same]
      rfl)

theorem exec_rowSpareTableWrite_refused (c : Fin 320) (n : Fin 32) (busy : s.coreEmpty c.val = false) :
    exec (.rowSpareTableWrite m c n v) s =
      .next { s with owner := s.owner.refuse m (0x210000 + 0x100 * c.val + 8 * n.val) v 2 } :=
  ownerWrite_refuses own (if_neg (by simp [busy])) rfl

end

end Sys2Proof.Machine

namespace Sys2Proof.Proofs
open Sys2Proof Sys2Proof.Machine Sys2Proof.Claims

/-- Settles O51: each register by what an owner's write of it answers. -/
theorem ownerRegisterWrites : Obligations.OwnerRegisterWrites := by
  unfold Obligations.OwnerRegisterWrites
  intro m q v s own
  refine ⟨exec_quantumWrite_takes own, exec_quantumWrite_refused own,
    fun empty => ⟨exec_savebaseWrite_takes own empty, exec_savelimWrite_takes own empty⟩, saves_refused own,
    exec_rqconsWrite_takes own, exec_rpclr_takes own, fun u alone done => ?tlbia, fun e => rfl,
    fun e w => exec_probeStageWrite_takes own e, fun e => ⟨exec_probeCommit_takes own e, exec_probeCommit_refused own e⟩,
    fun empty => ⟨exec_journalBase_takes own empty, fun size => ?size⟩, ?consumed, fun c =>
      ⟨fun empty ok kept => ?kept, fun empty ok disabled => ?disabled, exec_spareWrite_refused own,
      fun n => ⟨exec_rowSpareTableWrite_takes own c n, exec_rowSpareTableWrite_refused own c n⟩⟩⟩
  case tlbia =>
    refine exec_tlbia_completes own alone ?_
    rw [State.tlbiaHeld, alone]
    exact done
  case size =>
    obtain ⟨t, ht, done, size⟩ := exec_journalSize_takes (q := q) own empty size
    refine ⟨t, ht, done, ?_⟩
    rw [size]
    refine ⟨bitsAt_congr fun i hi => ?_, by simp [bitAt, w64]⟩
    have low : (w64 0x8001FFFF).getLsbD (0 + i) = true := by
      interval_cases i <;> rfl
    rw [BitVec.getLsbD_and, low, Bool.and_true]
  case consumed =>
    obtain ⟨t, ht, done, consumed⟩ := exec_journalConsumed_takes (q := q) (v := v) own
    exact ⟨t, ht, done, consumed.trans (BitVec.setWidth_eq_extractLsb' (by decide) |>.symm)⟩
  case kept =>
    refine ⟨_, exec_spareWrite_done own empty ok, ?_⟩
    simp [kept, Core.spared]
  case disabled =>
    refine ⟨_, exec_spareWrite_done own empty ok, ?_⟩
    rw [if_pos disabled, State.accept_mem, State.accept_coreAt,
      State.endAllBound_keeps State.mem (fun _ _ _ => rfl) (fun _ _ => rfl) (fun _ _ => rfl),
      State.endAllBound_keeps (fun s => s.coreAt c) (fun _ _ _ => rfl) (fun _ _ => rfl) (fun _ _ => rfl),
      State.coreAt_modCoreAt_same]
    exact ⟨rfl, disabled, rfl⟩

end Sys2Proof.Proofs
end

section
/-! SUPPORT. What the agents of memory may change: a property of states that survives each of their writes survives reads, stores,
write-backs, boundaries, atomics and the accesses of engines (chapters 11 and 12, R204 to R209). -/

namespace Sys2Proof.Machine

/-! ## What an action leaves -/

/-- An action leaves a state with a property, whether it completes, waits or traps; of what it answers, another holds. -/
def Leaves {α : Type} (I : State → Prop) (Q : α → Prop) : Act α → Prop
  | .ok a => Q a
  | .error (.trap _ s) => I s
  | .error (.wait s) => I s

section
variable {α β : Type} {I : State → Prop} {Q : α → Prop} {P : β → Prop}

theorem Leaves.mono {r : Act α} {Q' : α → Prop} (h : Leaves I Q r) (weaker : ∀ a, Q a → Q' a) : Leaves I Q' r := by
  match r, h with
  | .ok a, h => exact weaker a h
  | .error (.trap _ _), h => exact h
  | .error (.wait _), h => exact h

theorem Leaves.bind {r : Act α} {f : α → Act β} (h : Leaves I Q r) (next : ∀ a, Q a → Leaves I P (f a)) : Leaves I P (r >>= f) := by
  match r, h with
  | .ok a, h => exact next a h
  | .error (.trap _ _), h => exact h
  | .error (.wait _), h => exact h

theorem Leaves.map {r : Act α} {f : α → β} (h : Leaves I Q r) (next : ∀ a, Q a → P (f a)) : Leaves I P (r.map f) := by
  match r, h with
  | .ok a, h => exact next a h
  | .error (.trap _ _), h => exact h
  | .error (.wait _), h => exact h

theorem Leaves.of_ok {r : Act α} {a : α} (h : Leaves I Q r) (ok : r = .ok a) : Q a := by subst ok; exact h

theorem Leaves.foldlM {f : State → α → Act State} (hf : ∀ s a, I s → Leaves I I (f s a)) (l : List α) {s : State} (h : I s) :
    Leaves I I (l.foldlM f s) := by
  induction l generalizing s with
  | nil => exact h
  | cons a l ih => exact (hf s a h).bind fun t ht => ih ht

theorem foldl_closed {σ : Type} {I : σ → Prop} {f : σ → α → σ} (hf : ∀ s a, I s → I (f s a)) (l : List α) {s : σ} (h : I s) :
    I (l.foldl f s) := by
  induction l generalizing s with
  | nil => exact h
  | cons a l ih => exact ih (hf s a h)

end

/-! ## What survives a write of memory -/

/-- What an agent of memory may make of a core: its stash and L1, with the stash in its canonical form. -/
def MemCore (c d : Core) : Prop :=
  d = { c with stash := d.stash, stashPoison := d.stashPoison, lines := d.lines, l1 := d.l1, due := d.due } ∧
  (Memory.wf c.stash = true → Memory.wf d.stash = true)

/-- A property of states that survives each write that an agent of memory makes. -/
structure MemClosed (I : State → Prop) : Prop where
  mem (s : State) (m : Memory) : (Memory.wf s.mem = true → Memory.wf m = true) → I s → I { s with mem := m }
  memPoison (s : State) (v : List Nat) : I s → I { s with memPoison := v }
  cls (s : State) (m : Memory) : (Memory.wf s.cls = true → Memory.wf m = true) → I s → I { s with cls := m }
  clsPoison (s : State) (v : List Nat) : I s → I { s with clsPoison := v }
  pend (s : State) (v : List Pending) : I s → I { s with pend := v }
  torn (s : State) (v : List Hidden) : I s → I { s with torn := v }
  stale (s : State) (v : List Hidden) : I s → I { s with stale := v }
  ticks (s : State) (v : Nat) : I s → I { s with ticks := v }
  tlbs (s : State) (v : Table (List Tlb)) : I s → I { s with tlbs := v }
  ring (s : State) (v : Table (Nat × Fin 16 × BitVec 32)) (n : BitVec 32) : I s → I { s with xlat := { s.xlat with ring := v, rqprod := n } }
  owed (s : State) (v : List Owed) : I s → I { s with xlat := { s.xlat with owed := v } }
  core (s : State) (n : Nat) (f : Core → Core) : (∀ c, MemCore c (f c)) → I s → I (s.modCoreAt n f)
  l2 (s : State) (q : Fin 4) (f : List Nat → List Nat) : I s → I (s.modQuarter q fun x => { x with l2 := f x.l2 })

/-- A property of a part of the state that reads and writes of memory do not touch. -/
theorem MemClosed.of_part {α : Type} (p : State → α) (P : α → Prop)
    (mem : ∀ (s : State) m mp cl cp pe tn st ti tl, p { s with mem := m, memPoison := mp, cls := cl, clsPoison := cp, pend := pe
                                                               torn := tn, stale := st, ticks := ti, tlbs := tl } = p s)
    (xlat : ∀ (s : State) r n o, p { s with xlat := { s.xlat with ring := r, rqprod := n, owed := o } } = p s)
    (core : ∀ (s : State) n f, (∀ c, MemCore c (f c)) → p (s.modCoreAt n f) = p s)
    (l2 : ∀ (s : State) q (f : List Nat → List Nat), p (s.modQuarter q fun x => { x with l2 := f x.l2 }) = p s) :
    MemClosed fun s => P (p s) where
  mem s _ _ h := (congrArg P (mem s ..)).mpr h
  memPoison s _ h := (congrArg P (mem s ..)).mpr h
  cls s _ _ h := (congrArg P (mem s ..)).mpr h
  clsPoison s _ h := (congrArg P (mem s ..)).mpr h
  pend s _ h := (congrArg P (mem s ..)).mpr h
  torn s _ h := (congrArg P (mem s ..)).mpr h
  stale s _ h := (congrArg P (mem s ..)).mpr h
  ticks s _ h := (congrArg P (mem s ..)).mpr h
  tlbs s _ h := (congrArg P (mem s ..)).mpr h
  ring s _ _ h := (congrArg P (xlat s ..)).mpr h
  owed s _ h := (congrArg P (xlat s ..)).mpr h
  core s n f hf h := (congrArg P (core s n f hf)).mpr h
  l2 s q f h := (congrArg P (l2 s q f)).mpr h

section
variable {I : State → Prop} (closed : MemClosed I) {s : State} (h : I s)
include closed h

/-! ## Bytes at their homes, and what is not published (R29, R178, R366) -/

theorem MemClosed.writeHbm (pa : Nat) (bytes : List Byte) (bad : Bool) : I (s.writeHbm pa bytes bad) :=
  closed.memPoison _ _ (closed.mem _ _ (wf_wrBytes _ _) h)
theorem MemClosed.writeCls (a : Nat) (bytes : List Byte) (bad : Bool) : I (s.writeCls a bytes bad) :=
  closed.clsPoison _ _ (closed.cls _ _ (wf_wrBytes _ _) h)
theorem MemClosed.touchL2 (pa : Nat) : I (s.touchL2 pa) := closed.l2 _ _ (fun l => (pa / 128 :: setDel l (pa / 128)).take l2Sectors) h
theorem MemClosed.dropL2 (pa : Nat) : I (s.dropL2 pa) := closed.l2 _ _ (fun l => setDel l (pa / 128)) h
theorem MemClosed.dropL1 (core pa : Nat) : I (s.modCoreAt core fun c => c.dropL1 pa) := closed.core _ _ _ (fun _ => ⟨rfl, id⟩) h
theorem MemClosed.writeThrough (core pa : Nat) (bytes : List Byte) (bad : Bool) : I (s.writeThrough core pa bytes bad) :=
  closed.core _ _ _ (fun _ => ⟨rfl, id⟩) (closed.writeHbm h ..)
theorem MemClosed.noteTorn (w : Writer) (pa : Nat) (bytes : List Byte) (bad : Bool) : I (s.noteTorn w pa bytes bad) :=
  foldl_closed (fun _ _ h => closed.torn _ _ h) _ h
theorem MemClosed.publishBytes (pa n : Nat) : I (s.publishBytes pa n) := foldl_closed (fun _ _ h => closed.torn _ _ h) _ h
theorem MemClosed.noteStale (k a : Nat) (bytes : List Byte) : I (s.noteStale k a bytes) :=
  foldl_closed (fun _ _ h => closed.stale _ _ h) _ h
theorem MemClosed.settleCls (a n : Nat) : I (s.settleCls a n) := by
  unfold State.settleCls
  split
  · exact h
  · exact closed.stale _ _ h
theorem MemClosed.seeCls (k a n : Nat) : I (s.seeCls k a n) := by
  unfold State.seeCls
  split
  · exact h
  · exact closed.stale _ _ h
theorem MemClosed.clsRead (k a n : Nat) : I (s.clsRead k a n).2 := by
  unfold State.clsRead
  dsimp only
  generalize (if s.stale.isEmpty = true then rdBytes s.cls a n else s.clsBefore k a n) = old
  split
  · exact h
  · split
    · exact closed.ticks _ _ h
    · exact closed.seeCls (closed.ticks _ _ h) ..
theorem MemClosed.publishCls (k : Nat) (sc : Scope) : I (s.publishCls k sc) := by
  unfold State.publishCls
  split
  · exact h
  · split <;> exact closed.stale _ _ h
theorem MemClosed.publishHistory (k : Nat) (sc : Scope) : I (s.publishHistory k sc) := by
  unfold State.publishHistory
  refine closed.publishCls ?_ ..
  split
  · exact closed.torn _ _ (closed.torn _ _ (closed.torn _ _ h))
  · exact closed.torn _ _ (closed.torn _ _ h)
theorem MemClosed.postResidency (asid : Fin 16) (va : Nat) (who : BitVec 32) : I (s.postResidency asid va who) := by
  unfold State.postResidency
  dsimp only
  split
  · exact h
  · exact closed.ring _ _ _ h
theorem MemClosed.tlbWalk (unit : Nat) (asid : Fin 16) (va : Nat) : I (s.tlbWalk unit asid va).2 := by
  unfold State.tlbWalk
  dsimp only
  split
  · exact h
  · split
    · exact h
    · split
      · exact h
      · exact closed.tlbs _ _ h
theorem MemClosed.owe (pa kind : Nat) : I (s.owe pa kind) := by
  unfold State.owe
  split
  · exact closed.owed _ _ h
  · exact h

/-! ## Pending stores (R195, R197) -/

theorem MemClosed.performStore (p : Pending) : I (s.performStore p) := by
  unfold State.performStore
  split
  · have written := closed.writeThrough (closed.noteTorn h (.ctx p.ctx) p.addr p.bytes false) (coreOfCtx p.ctx) p.addr p.bytes false
    have kept : I (if p.nt = true then (s.noteTorn (.ctx p.ctx) p.addr p.bytes).writeThrough (coreOfCtx p.ctx) p.addr p.bytes
        else ((s.noteTorn (.ctx p.ctx) p.addr p.bytes).writeThrough (coreOfCtx p.ctx) p.addr p.bytes).touchL2 p.addr) := by
      split
      · exact written
      · exact closed.touchL2 written _
    dsimp only
    split
    · exact closed.owe kept ..
    · exact kept
  · exact closed.writeCls (closed.noteStale h ..) ..
theorem MemClosed.performAll (ps left : List Pending) : I (ps.foldl State.performStore { s with pend := left }) :=
  foldl_closed (I := I) (fun _ p h => closed.performStore h p) ps (closed.pend s left h)
theorem MemClosed.drain (k : Nat) : I (s.drain k) := closed.performAll h ..
theorem MemClosed.drainAct (k : Nat) : Leaves I I (s.drainAct k) := by
  unfold State.drainAct
  split
  · exact closed.drain h k
  · exact h
theorem MemClosed.drainOver (k : Nat) (home : Home) (a n : Nat) : Leaves I I (s.drainOver k home a n) := by
  unfold State.drainOver
  dsimp only
  split
  · exact closed.performAll h ..
  · exact h

/-! ## The L1 and the stash (R178 to R185, R385) -/

theorem MemClosed.l1Fill (core : Nat) (asid : Fin 16) (va pa : Nat) : I (s.l1Fill core asid va pa) := by
  unfold State.l1Fill
  refine closed.touchL2 (closed.core _ _ _ (fun c => ?_) h) _
  exact ⟨rfl, id⟩
theorem MemClosed.readSector (k : Nat) (asid : Fin 16) (va pa n : Nat) (nt : Bool) : I (s.readSector k asid va pa n nt).2.2 := by
  unfold State.readSector
  dsimp only
  split
  · exact closed.torn _ _ h
  · refine closed.torn _ _ ?_
    split
    · exact closed.dropL1 h ..
    · exact closed.l1Fill h ..
theorem MemClosed.dropOwnL1 (who : Option Writer) (pa : Nat) : I (s.dropOwnL1 who pa) := by
  unfold State.dropOwnL1
  split
  · exact closed.dropL1 h ..
  · exact h
theorem MemClosed.writeMasked (core pa : Nat) (mask : BitVec 128) (off : Nat) (who : Option Writer) :
    I (s.writeMasked core pa mask off who) := by
  have half {t : State} (ht : I t) (is : List Nat) (f : State → Nat → State) (v : List Nat)
      (byte : ∀ t b, ∃ a x, f t b = { t with mem := wrBytes t.mem a x }) : I { is.foldl f t with memPoison := v } := by
    refine closed.memPoison _ _ (foldl_closed (fun t b ht => ?_) _ ht)
    obtain ⟨a, x, hf⟩ := byte t b
    exact hf ▸ closed.mem _ _ (wf_wrBytes _ _) ht
  have written {t : State} (ht : I t) (is js : List Nat) (f g : State → Nat → State) (v w : List Nat)
      (low : ∀ t b, ∃ a x, f t b = { t with mem := wrBytes t.mem a x })
      (high : ∀ t b, ∃ a x, g t b = { t with mem := wrBytes t.mem a x }) :
      I ((({ js.foldl g { is.foldl f t with memPoison := v } with memPoison := w }.modCoreAt core fun c => c.dropL1 pa).dropOwnL1
        who pa).touchL2 pa) :=
    closed.touchL2 (closed.dropOwnL1 (closed.dropL1 (half (half ht is f v low) js g w high) core pa) who pa) pa
  unfold State.writeMasked
  cases who with
  | none => exact closed.torn _ _ (written h _ _ _ _ _ _ (fun _ _ => ⟨_, _, rfl⟩) fun _ _ => ⟨_, _, rfl⟩)
  | some w => exact written (closed.torn _ _ h) _ _ _ _ _ _ (fun _ _ => ⟨_, _, rfl⟩) fun _ _ => ⟨_, _, rfl⟩

end

end Sys2Proof.Machine
end

section
/-! SUPPORT. What write-backs, boundaries, accesses at a home and engines' accesses leave of a property that survives the writes of
memory (R181 to R185, R198 to R209, R227, R323). -/

namespace Sys2Proof.Machine

/-- What a fill leaves. -/
def FilledLeaves (I : State → Prop) : Filled → Prop
  | .done s => I s
  | _ => True

section
variable {I : State → Prop} (closed : MemClosed I)
include closed

/-! ## Stash sectors (R181 to R185, R385) -/

theorem MemClosed.writeBack {s : State} (h : I s) (core line : Nat) (j : Fin 4) (drop force : Bool) (who : Option Writer) :
    Leaves I I (s.writeBack core line j drop force who) := by
  have done {t : State} (ht : I t) (l : Line) (x : SectorState) : I (t.modCoreAt core fun c =>
      { c.setLine line (l.setSec j x) with due := setDel c.due (4 * line + j) }) :=
    closed.core _ _ _ (fun _ => ⟨rfl, id⟩) ht
  unfold State.writeBack
  split
  · exact h
  · rename_i l _
    dsimp only
    split
    · exact h
    · split
      · exact done h l .invalid
      · exact h
    · split
      · exact closed.postResidency h ..
      · exact h
      · exact h
      · exact h
      · split
        · exact h
        · exact done (closed.writeMasked h ..) _ _

theorem MemClosed.keepDue {r : Act State} (core : Nat) (h : Leaves I I r) : Leaves I I (keepDue core r) := by
  unfold Machine.keepDue
  split
  · exact closed.core _ _ _ (fun _ => ⟨rfl, id⟩) h
  · exact h

theorem MemClosed.flushStash {s : State} (h : I s) (core : Nat) (drop : Bool) : Leaves I I (s.flushStash core drop) :=
  closed.keepDue core (Leaves.foldlM (fun _ _ h => Leaves.foldlM (fun _ _ h => closed.writeBack h ..) _ h) _ h)

theorem MemClosed.flushEnd {s : State} (h : I s) (core : Nat) (who : Writer) {leave : Trap → State → Act State}
    (left : ∀ t s, I s → Leaves I I (leave t s)) : Leaves I I (s.flushEnd core who leave) := by
  refine closed.keepDue core (Leaves.foldlM (fun _ l h => Leaves.foldlM (fun s j h => ?_) _ h) _ h)
  have back := closed.writeBack h core l.1 j true false (some who)
  split
  · rename_i eq
    exact left _ _ (by rwa [eq] at back)
  · exact back

theorem MemClosed.fillSector {s : State} (h : I s) (core line : Nat) (j : Fin 4) : FilledLeaves I (s.fillSector core line j) := by
  unfold State.fillSector
  split
  · exact h
  · split
    · split
      · trivial
      · trivial
      · trivial
      · trivial
      · split
        · trivial
        · refine closed.touchL2 (closed.core _ _ _ (fun c => ?_) h) _
          exact ⟨rfl, wf_wrBytes _ _⟩
    · exact h

theorem MemClosed.stashPut {s : State} (h : I s) (core off : Nat) (bytes : List Byte) (bad : Bool) :
    I (s.stashPut core off bytes bad) := by
  unfold State.stashPut
  refine closed.core _ _ _ (fun c => ?_) h
  dsimp only
  split
  · exact ⟨rfl, wf_wrBytes _ _⟩
  · exact ⟨rfl, wf_wrBytes _ _⟩

theorem MemClosed.stashReady {s : State} (h : I s) (core off n : Nat) (write : Bool) :
    FilledLeaves I (s.stashReady core off n write) := by
  unfold State.stashReady
  split
  · exact h
  · exact closed.fillSector h ..

theorem MemClosed.backInvalidate {s : State} (h : I s) (pa : Nat) (name : Option (Fin 16 × Nat)) :
    I (s.backInvalidate pa name).state := by
  refine foldl_closed (I := fun b : Backed => I b.state) (fun b c hb => ?_) _ (closed.dropL2 h _)
  refine foldl_closed (I := fun b : Backed => I b.state) (fun b l hb => ?_) _ (closed.dropL1 hb ..)
  refine foldl_closed (I := fun b : Backed => I b.state) (fun b j hb => ?_) _ hb
  have back := closed.writeBack hb c.1 l.1 j true true (some (.stash c.1))
  unfold Backed.sector
  split
  · split <;> (rename_i eq; rw [eq] at back; exact back)
  · exact hb

/-! ## Boundaries (R198 to R201) -/

theorem MemClosed.refresh {s : State} (h : I s) (k : Nat) (sc : Scope) : Leaves I I (s.refresh k sc) := by
  unfold State.refresh
  split
  · exact (closed.flushStash h _ _).bind fun t ht => closed.torn _ _ (closed.core _ _ _ (fun _ => ⟨rfl, id⟩) ht)
  · exact closed.torn _ _ h

theorem MemClosed.publish {s : State} (h : I s) (k : Nat) (sc : Scope) : Leaves I I (s.publish k sc) := by
  refine (closed.drainAct h k).bind fun t ht => ?_
  have last : Leaves I I (if scopeWide sc = true then t.flushStash (coreOfCtx k) false >>= fun u => .ok (u.publishHistory k sc)
      else .ok (t.publishHistory k sc)) := by
    split
    · exact (closed.flushStash ht ..).bind fun _ hu => closed.publishHistory hu ..
    · exact closed.publishHistory ht ..
  dsimp only
  split
  · exact h
  · exact last

theorem MemClosed.boundary {s : State} (h : I s) (k : Nat) (sc : Scope) : Leaves I I (s.boundary k sc) :=
  (closed.publish h k sc).bind fun _ ht => closed.refresh ht k sc

/-! ## Finding and performing an element (R187, R202 to R209) -/

theorem MemClosed.findVirt {s : State} (h : I s) (unit : Nat) (asid : Fin 16) (va : Nat) (write : Bool) :
    I (s.findVirt unit asid va write).2 := by
  have walked := closed.tlbWalk h unit asid va
  unfold State.findVirt
  dsimp only
  split
  · exact walked
  · exact walked
  · exact walked
  · split
    · exact walked
    · split <;> exact walked

theorem MemClosed.find {s : State} (h : I s) (a : Agent) (p : Word) (z al : Nat) (write : Bool) : I (s.find a p z al write).2 := by
  unfold State.find
  split
  · exact h
  · exact closed.findVirt h ..
  · exact h
  · exact h

theorem MemClosed.readyStash {s : State} (h : I s) (core off n : Nat) (write : Bool) : Leaves I I (s.readyStash core off n write) := by
  have filled := closed.stashReady h core off n write
  unfold State.readyStash
  split
  · rename_i eq
    rwa [eq] at filled
  · exact h

theorem MemClosed.readLoc {s : State} (h : I s) (k : Nat) (l : Loc) (n : Nat) (nt : Bool) :
    Leaves I (fun r => I r.2.2) (s.readLoc k l n nt) := by
  unfold State.readLoc
  split
  · split
    · exact h
    · exact closed.readSector h ..
  · exact (closed.readyStash h ..).bind fun t ht => ht
  · exact closed.clsRead h ..

theorem MemClosed.storeLoc {s : State} (h : I s) (k : Nat) (l : Loc) (bytes : List Byte) (acc : Nat) (pages : List Pinned)
    (hot : Option Nat) (nt : Bool) : Leaves I I (s.storeLoc k l bytes acc pages hot nt) := by
  unfold State.storeLoc
  split
  · exact closed.pend _ _ h
  · exact closed.pend _ _ h
  · exact (closed.readyStash h ..).bind fun t ht => closed.stashPut ht ..

theorem MemClosed.drainLoc {s : State} (h : I s) (k : Nat) (l : Loc) (n : Nat) : Leaves I I (s.drainLoc k l n) := by
  unfold State.drainLoc
  split
  · exact closed.drainOver h ..
  · exact closed.drainOver h ..
  · exact h

theorem MemClosed.noteLoc {s : State} (h : I s) (w : Writer) (l : Loc) (bytes : List Byte) (bad : Bool) :
    I (s.noteLoc w l bytes bad) := by
  unfold State.noteLoc
  split
  · exact closed.noteTorn h ..
  · exact h

theorem MemClosed.publishLoc {s : State} (h : I s) (l : Loc) (n : Nat) : I (s.publishLoc l n) := by
  unfold State.publishLoc
  split
  · exact closed.publishBytes h ..
  · exact h

theorem MemClosed.readNote {s : State} (h : I s) (k : Nat) (l : Loc) (bytes : List Byte) : I (s.readNote k l bytes) := by
  unfold State.readNote
  split
  · exact closed.torn _ _ h
  · exact closed.seeCls h ..
  · exact h

theorem MemClosed.homeRead {s : State} (h : I s) (core : Nat) (l : Loc) (n : Nat) :
    Leaves I (fun r => I r.2.2) (s.homeRead core l n) := by
  unfold State.homeRead
  split
  · split <;> exact h
  · exact (closed.readyStash h ..).bind fun t ht => ht
  · exact h

theorem MemClosed.homeWrite {s : State} (h : I s) (core : Nat) (l : Loc) (bytes : List Byte) (bad : Bool) :
    Leaves I I (s.homeWrite core l bytes bad) := by
  unfold State.homeWrite
  split
  · split
    · exact h
    · exact closed.dropL1 (closed.writeHbm h ..) ..
  · exact (closed.readyStash h ..).bind fun t ht => closed.stashPut ht ..
  · exact closed.writeCls (closed.settleCls h ..) ..

theorem MemClosed.homeAtomic {s : State} (h : I s) (core : Nat) (l : Loc) (n : Nat) (f : Nat → Option Nat) :
    Leaves I (fun r => I r.2.2) (s.homeAtomic core l n f) := by
  refine (closed.homeRead h core l n).bind fun ⟨bs, bad, t⟩ ht => ?_
  have dropped : I (match l with
      | .hbm _ _ pa => t.modCoreAt core fun c => c.dropL1 pa
      | _ => t) := by
    split
    · exact closed.dropL1 ht ..
    · exact ht
  dsimp only
  split
  · exact dropped
  · split
    · exact dropped
    · exact (closed.homeWrite dropped ..).bind fun u hu => closed.publishLoc hu ..

theorem MemClosed.ctxAtomic {s : State} (h : I s) (k : Nat) (l : Loc) (n : Nat) (f : Nat → Option Nat) :
    Leaves I (fun r => I r.2.2) (s.ctxAtomic k l n f) :=
  (closed.drainLoc h k l n).bind fun _ ht => (closed.homeAtomic ht ..).bind fun _ hr => closed.readNote hr ..

end

/-! ## Accesses of engines (R204, R207, R209, R227) -/

/-- An engine's action that completes leaves a state with a property. -/
structure EngLeaves {α : Type} (I : State → Prop) (x : Eng α) : Prop where
  of_ok : ∀ s a t, I s → x s = .ok (a, t) → I t

section
variable {α β : Type} {I : State → Prop}

theorem EngLeaves.pure (a : α) : EngLeaves I (pure a : Eng α) := ⟨fun _ _ _ h ok => by cases ok; exact h⟩
theorem EngLeaves.snag (x : Snag) : EngLeaves I (snag x : Eng α) := ⟨fun _ _ _ _ ok => nomatch ok⟩
theorem EngLeaves.get : EngLeaves I (get : Eng State) := ⟨fun _ _ _ h ok => by cases ok; exact h⟩
theorem EngLeaves.modify {f : State → State} (hf : ∀ s, I s → I (f s)) : EngLeaves I (modify f : Eng PUnit) :=
  ⟨fun s _ _ h ok => by cases ok; exact hf s h⟩

theorem EngLeaves.bind {x : Eng α} {f : α → Eng β} (hx : EngLeaves I x) (hf : ∀ a, EngLeaves I (f a)) : EngLeaves I (x >>= f) := by
  refine ⟨fun s b t h ok => ?_⟩
  change (x s).bind (fun r => f r.1 r.2) = .ok (b, t) at ok
  cases hs : x s with
  | error e =>
    rw [hs] at ok
    exact nomatch ok
  | ok r =>
    rw [hs] at ok
    exact (hf r.1).of_ok _ _ _ (hx.of_ok _ _ _ h hs) ok

theorem EngLeaves.mapM {f : α → Eng β} (hf : ∀ a, EngLeaves I (f a)) (l : List α) : EngLeaves I (l.mapM f) := by
  induction l with
  | nil => exact EngLeaves.pure _
  | cons a l ih =>
    rw [List.mapM_cons]
    exact (hf a).bind fun _ => ih.bind fun _ => EngLeaves.pure _

theorem EngLeaves.forM {f : α → Eng PUnit} (hf : ∀ a, EngLeaves I (f a)) (l : List α) : EngLeaves I (l.forM f) := by
  induction l with
  | nil => exact EngLeaves.pure _
  | cons a l ih => exact (hf a).bind fun _ => ih

theorem EngLeaves.engStep {f : State → Act (α × State)} (hf : ∀ s, I s → Leaves I (fun r => I r.2) (f s)) :
    EngLeaves I (engStep f) := by
  refine ⟨fun s a t h ok => ?_⟩
  have left := hf s h
  unfold Machine.engStep at ok
  split at ok
  · rename_i eq
    cases ok
    exact left.of_ok eq
  · exact nomatch ok

variable (closed : MemClosed I)
include closed

theorem MemClosed.engFind (a : Agent) (p : Word) (z al : Nat) (write : Bool) : EngLeaves I (engFind a p z al write) := by
  refine ⟨fun s l t h ok => ?_⟩
  have found := closed.find h a p z al write
  unfold Machine.engFind at ok
  split at ok
  · exact nomatch ok
  · exact nomatch ok
  · exact nomatch ok
  · rename_i eq
    cases ok
    rwa [eq] at found

omit closed in
theorem engFree_leaves (a : Agent) (l : Loc) (z : Nat) (write : Bool) : EngLeaves I (engFree a l z write) := by
  refine ⟨fun s x t h ok => ?_⟩
  have free {b : Bool} (ok : (if b then .error .held else .ok ((), s) : Except Snag (Unit × State)) = .ok (x, t)) : I t := by
    cases b with
    | true => exact nomatch ok
    | false => cases ok; exact h
  exact free ok

theorem MemClosed.engLoc (a : Agent) (p : Word) (z al : Nat) (write : Bool) : EngLeaves I (engLoc a p z al write) :=
  (closed.engFind ..).bind fun _ => (engFree_leaves ..).bind fun _ => .pure _

theorem MemClosed.engParts (a : Agent) (al : Nat) (xs : List (Word × Nat)) : EngLeaves I (engParts a al xs) :=
  .mapM (fun _ => (closed.engFind ..).bind fun _ => .pure _) _

theorem MemClosed.engPinned (a : Agent) (x : Part) : EngLeaves I (engPinned a x) := by
  unfold Machine.engPinned
  split
  · exact (engFree_leaves ..).bind fun _ => .pure _
  · exact closed.engLoc ..

theorem MemClosed.engFollow (a : Agent) (l : Loc) (n : Nat) : EngLeaves I (engFollow a l n) := by
  unfold Machine.engFollow
  split
  · exact .engStep fun s h => (closed.drainLoc h ..).map fun _ ht => ht
  · exact .pure _

theorem MemClosed.engBytes (a : Agent) (l : Loc) (n : Nat) : EngLeaves I (engBytes a l n) :=
  (closed.engFollow ..).bind fun _ => .engStep fun _ h => (closed.homeRead h ..).map fun _ ht => ht

theorem MemClosed.engRead (a : Agent) (p : Word) (n : Nat) : EngLeaves I (engRead a p n) :=
  (EngLeaves.mapM (fun _ => (closed.engLoc ..).bind fun _ => (closed.engBytes ..).bind fun _ => EngLeaves.get.bind fun _ => .pure _)
    _).bind fun _ => .pure _

theorem MemClosed.markByte {s : State} (h : I s) (core : Nat) (l : Loc) (i : Nat) : I (s.markByte core l i) := by
  unfold State.markByte
  split
  · exact closed.memPoison _ _ h
  · exact closed.core _ _ _ (fun _ => ⟨rfl, id⟩) h
  · exact closed.clsPoison _ _ h

theorem MemClosed.engPut (a : Agent) (l : Loc) (part : Data) (pub : Bool) : EngLeaves I (engPut a l part pub) := by
  have marked := EngLeaves.modify (I := I) (f := fun s => (List.range part.length).foldl (fun s i =>
    if (part.getD i (0, false)).2 then s.markByte a.core l i else s) s) fun s h => foldl_closed (fun s i h => by
      split
      · exact closed.markByte h ..
      · exact h) _ h
  have wrote := EngLeaves.engStep (I := I) (f := fun s => (s.homeWrite a.core l (part.map Prod.fst) false).map fun s => ((), s))
    fun s h => (closed.homeWrite h ..).map fun _ ht => ht
  unfold Machine.engPut
  refine (closed.engFollow ..).bind fun _ => ?_
  cases pub with
  | true => exact wrote.bind fun _ => (EngLeaves.modify fun s h => closed.publishLoc h ..).bind fun _ => marked
  | false => exact (EngLeaves.modify fun s h => closed.noteLoc h ..).bind fun _ => wrote.bind fun _ => marked

theorem MemClosed.engPutAll (a : Agent) (pub : Bool) (xs : List (Nat × Loc)) (d : Data) : EngLeaves I (engPutAll a pub xs d) := by
  induction xs generalizing d with
  | nil => exact .pure _
  | cons x xs ih => exact (closed.engPut ..).bind fun _ => ih _

theorem MemClosed.engWriteParts (a : Agent) (ps : List Part) (d : Data) (pub : Bool) : EngLeaves I (engWriteParts a ps d pub) :=
  (EngLeaves.mapM (closed.engPinned a) _).bind fun _ => closed.engPutAll ..

theorem MemClosed.engWrite (a : Agent) (p : Word) (d : Data) (pub : Bool) : EngLeaves I (engWrite a p d pub) :=
  (closed.engParts ..).bind fun _ => closed.engWriteParts ..

theorem MemClosed.engVal (a : Agent) (p : Word) (z : Nat) : EngLeaves I (engVal a p z) := by
  refine (closed.engLoc ..).bind fun _ => (closed.engBytes ..).bind fun _ => EngLeaves.get.bind fun _ => ?_
  split
  · exact .snag _
  · exact .pure _

theorem MemClosed.engApply (a : Agent) (l : Loc) (op zlog v : Nat) (bad : Bool) : EngLeaves I (engApply a l op zlog v bad) := by
  refine (closed.engFollow ..).bind fun _ => EngLeaves.bind (.engStep fun _ h => ?_) fun _ => ?_
  · exact (closed.homeAtomic h ..).map fun _ ht => ht
  cases bad with
  | true => exact .modify fun s h => closed.markByte h ..
  | false => exact .pure _

theorem MemClosed.engArrive (a : Agent) (p : Word) (n : Nat) : EngLeaves I (engArrive a p n) := by
  unfold Machine.engArrive
  split
  · exact .pure _
  · split
    · exact .snag _
    · refine (closed.engLoc ..).bind fun _ => (closed.engFollow ..).bind fun _ => EngLeaves.bind (.engStep fun _ h => ?_) fun _ => .pure _
      exact (closed.homeAtomic h ..).map fun _ ht => ht

end

end Sys2Proof.Machine
end

section
/-! SUPPORT. The management window by offset and the commands behind it, with the statement about them (R356, R364, R370, R371, R380,
R382, Tables 24-4 and 26-1). -/

namespace Sys2Proof.Machine

/-! ## The dispatch of a write by its offset (Tables 24-4 and 26-1) -/

section
variable {s : State} {m : Fin 4} {off : Nat} {v : Word} {bytes : List Byte}

/-- An aligned write of eight bytes is the write of the register that lies there. -/
theorem exec_mgmtRegisterWrite_aligned (aligned : off % 8 = 0) (len : bytes.length = 8) :
    exec (.mgmtRegisterWrite m off bytes false) s = s.mgmtWrite m off (w64 (leVal bytes)) := by
  change execMgmtRegisterWrite m off bytes false s = _
  rw [execMgmtRegisterWrite, if_neg (by omega)]
  cases s.mgmtWrite m off (w64 (leVal bytes)) <;> simp [State.answer]

theorem exec_mgmtRegisterWrite_misplaced (h : off % 8 ≠ 0 ∨ bytes.length ≠ 8) : exec (.mgmtRegisterWrite m off bytes false) s =
    .next (s.refuse m (off / 8 * 8) (placedValue off bytes) (if s.owner.own = m.val ∨ openOff (off / 8 * 8) = true then 2 else 1)) := by
  change execMgmtRegisterWrite m off bytes false s = _
  rw [execMgmtRegisterWrite, if_pos h]
  simp [State.answer]

theorem State.mgmtWrite_quarter (q : Fin 4) {n : Nat} (h : n < 9) :
    s.mgmtWrite m (0x10000 + 8 * n + 0x1000 * q.val) v = quarterWrite m q n v s := by
  have hq : Fin.ofNat 4 ((0x10000 + 8 * n + 0x1000 * q.val - 0x10000) / 0x1000) = q := by
    apply Fin.ext
    simp only [Fin.ofNat]
    omega
  have hn : (0x10000 + 8 * n + 0x1000 * q.val) % 0x1000 / 8 = n := by omega
  simp (disch := omega) only [State.mgmtWrite, ownCmdOff, mlogconsOff, portctlOff, pfxinvOff, if_neg, if_pos, hq, hn]

theorem State.mgmtWrite_spare (c : Fin 320) : s.mgmtWrite m (0x200400 + 8 * c.val) v = execSpareWrite m c v s := by
  have hc : Fin.ofNat 320 ((0x200400 + 8 * c.val - 0x200400) / 8) = c := by
    apply Fin.ext
    simp only [Fin.ofNat]
    omega
  simp (disch := omega) only [State.mgmtWrite, ownCmdOff, mlogconsOff, portctlOff, pfxinvOff, errctlOff, fwcmdOff, attcmdOff, if_neg,
    if_pos, hc]

theorem State.mgmtWrite_rowSpare (c : Fin 320) (n : Fin 32) :
    s.mgmtWrite m (0x210000 + 0x100 * c.val + 8 * n.val) v = execRowSpareTableWrite m c n v s := by
  have hc : Fin.ofNat 320 ((0x210000 + 0x100 * c.val + 8 * n.val - 0x210000) / 0x100) = c := by
    apply Fin.ext
    simp only [Fin.ofNat]
    omega
  have hn : Fin.ofNat 32 ((0x210000 + 0x100 * c.val + 8 * n.val) / 8) = n := by
    apply Fin.ext
    simp only [Fin.ofNat]
    omega
  simp (disch := omega) only [State.mgmtWrite, ownCmdOff, mlogconsOff, portctlOff, pfxinvOff, errctlOff, fwcmdOff, attcmdOff, if_neg,
    if_pos, hc, hn]

theorem State.mgmtWrite_journal (q : Fin 4) {n : Nat} (h : n < 4) (h2 : n ≠ 2) : s.mgmtWrite m (0x200080 + 0x20 * q.val + 8 * n) v =
    execJournalConfigWrite m q (if n = 3 then 2 else Fin.ofNat 3 n) v s := by
  have hq : Fin.ofNat 4 ((0x200080 + 0x20 * q.val + 8 * n - 0x200080) / 0x20) = q := by
    apply Fin.ext
    simp only [Fin.ofNat]
    omega
  have hn : (0x200080 + 0x20 * q.val + 8 * n) % 0x20 / 8 = n := by omega
  simp (disch := omega) only [State.mgmtWrite, ownCmdOff, mlogconsOff, portctlOff, pfxinvOff, errctlOff, if_neg, if_pos, hq, hn]

/-- The offsets of registers that have no row of their own. -/
def plainOff (off : Nat) : Prop :=
  off ∉ [0x10, 0x48, 0x510, 0x1290, 0x12A0, 0x12B0, 0x12B8, 0x200000, 0x200108, 0x200120] ∧
  ¬(0x10000 ≤ off ∧ off < 0x14000 ∧ off % 0x1000 < 72) ∧ ¬(0x121000 ≤ off ∧ off < 0x123000) ∧
  ¬(0x200080 ≤ off ∧ off < 0x200100 ∧ off % 0x20 ≠ 16) ∧ ¬(0x200400 ≤ off ∧ off < 0x200E00) ∧ ¬(0x210000 ≤ off ∧ off < 0x224000)

theorem State.mgmtWrite_plain (h : plainOff off) : s.mgmtWrite m off v = .next (s.ownerWrite m off v (plainWrite off v)) := by
  obtain ⟨named, quarter, probe, journal, spare, rows⟩ := h
  simp only [List.mem_cons, List.not_mem_nil, or_false, not_or] at named
  simp (disch := omega) only [State.mgmtWrite, ownCmdOff, mlogconsOff, portctlOff, pfxinvOff, errctlOff, fwcmdOff, attcmdOff, if_neg]

theorem plainOff_asroot (n : Fin 16) : plainOff (0x1000 + 8 * n.val) := by
  simp only [plainOff, List.mem_cons, List.not_mem_nil, or_false, not_or]
  omega

theorem plainWrite_asroot (still : s.noMigration = true) (n : Fin 16) : plainWrite (0x1000 + 8 * n.val) v s =
    some { s with xlat := { s.xlat with asroot := s.xlat.asroot.set n.val (v &&& w64 0xFFFFFF0001) n.isLt } } := by
  have place : (0x1000 + 8 * n.val - 0x1000) / 8 % 16 = n.val := by omega
  simp (disch := omega) only [plainWrite, if_neg, if_pos, still, place]
  rfl

/-- The offsets of registers that an owner only reads. -/
theorem State.mgmtWrite_readOnly : ∀ off ∈ [0x0, 0x8, 0x20, 0x40, 0x518, 0x1288, 0x10018, 0x10040, 0x110000, 0x120000, 0x200010,
    0x200090, 0x200110, 0x200128], off % 8 = 0 ∧ s.mgmtWrite m off v = .next (s.ownerWrite m off v fun _ => none) := by
  have readOnly {off : Nat} (aligned : off % 8 = 0) (h : s.mgmtWrite m off v = .next (s.ownerWrite m off v fun _ => none)) :=
    And.intro aligned h
  rw [List.forall_mem_cons]
  iterate 13 refine ⟨readOnly rfl rfl, ?_⟩; rw [List.forall_mem_cons]
  exact ⟨readOnly rfl rfl, List.forall_mem_nil _⟩

end

/-! ## A quarter reset and a stop (R370, R371) -/

theorem MemClosed.journalState {I : State → Prop} (closed : MemClosed I) {s : State} (h : I s) (l : Launch) (st : Nat) :
    I (s.journalState l st) := by
  unfold State.journalState
  split
  · exact h
  · dsimp only
    split
    · exact h
    · split
      · exact closed.writeHbm h ..
      · exact h

theorem MemClosed.doneArrival {I : State → Prop} (closed : MemClosed I) {s t : State} {p : Word} (h : I s)
    (done : s.doneArrival p = some t) : I t := by
  unfold State.doneArrival at done
  split at done
  · exact Option.some.inj done ▸ h
  · split at done
    · exact Option.some.inj done ▸ h
    · split at done
      next made => exact Option.some.inj done ▸ (closed.homeAtomic h ..).of_ok made
      next => exact nomatch done

/-- What holds of the launches holds after one of them has completed. -/
theorem State.finishLaunch_launches {P : Launch → Prop} {s t : State} {l : Launch} {st : Nat} (h : ∀ x ∈ s.launches, P x)
    (done : s.finishLaunch l st = some t) : ∀ x ∈ t.launches, P x := by
  have closed : MemClosed fun s => ∀ x ∈ s.launches, P x :=
    .of_part State.launches (fun ls => ∀ x ∈ ls, P x) (fun _ _ _ _ _ _ _ _ _ _ => rfl) (fun _ _ _ _ => rfl) (fun _ _ _ _ => rfl)
      fun _ _ _ => rfl
  obtain ⟨u, arrives, rfl⟩ := Option.map_eq_some_iff.1 done
  intro x hx
  have kept : x ∈ u.launches := by
    split at hx <;> exact (List.mem_filter.1 hx).1
  have recorded := closed.journalState h l st
  exact closed.doneArrival recorded arrives x kept

/-- A launch of the store is lost and its gangs are over. -/
def Launch.dropped (l : Launch) : Prop := l.lost = true ∧ ∀ g ∈ l.gangs, g.fate = .ended

theorem State.dropLaunches_drops (s : State) (q : Fin 4) : ∀ x ∈ (s.dropLaunches q).launches, x.quarter = q.val → x.dropped := by
  unfold State.dropLaunches
  refine foldl_closed (I := fun t : State => ∀ x ∈ t.launches, x.quarter = q.val → x.dropped) (fun t l h => ?_) _ ?_
  · cases done : t.finishLaunch l 2 with
    | none => exact h
    | some u => exact State.finishLaunch_launches h done
  · intro x hx own
    obtain ⟨l, -, rfl⟩ := List.mem_map.1 hx
    have here : l.quarter = q.val := own
    refine ⟨by simp [here], fun g hg => ?_⟩
    obtain ⟨g', -, rfl⟩ := List.mem_map.1 hg
    simp [here]

theorem State.resetQuarter_spec (s : State) (q : Fin 4) : let t := s.resetQuarter q
    (∃ x : Quarter, t.quarter q = x.clear) ∧ (∀ c ∈ t.ctxs, quarterOf (coreOfCtx c.1) ≠ q) ∧
    ∀ x ∈ t.launches, x.quarter = q.val → x.dropped := by
  refine ⟨⟨_, State.quarter_modQuarter_same ..⟩, fun c hc => ?_, fun x hx own => ?_⟩
  · have kept := (List.mem_filter.1 hc).2
    simpa using kept
  · exact State.dropLaunches_drops (s.dropWork q) q x hx own

/-- A value of ERRCTL that names one quarter sets no other bit. -/
theorem errctl_one (q : Fin 4) : ((List.finRange 4).filter fun p => bitAt (BitVec.ofNat 64 (2 ^ q.val)) p.val) = [q] ∧
    bitAt (BitVec.ofNat 64 (2 ^ q.val)) 4 = false ∧ BitVec.ofNat 64 (2 ^ q.val) >>> 5 = 0 := by
  revert q
  decide

section
variable {s : State} {m : Fin 4} (own : s.owner.own = m.val)
include own

theorem exec_qrst_resets (q : Fin 4) (stopped : (s.quarter q).stopped = true) :
    exec (.qrst m (BitVec.ofNat 64 (2 ^ q.val))) s = .next ((s.resetQuarter q).accept m) := by
  refine congrArg Host.Outcome.next (State.ownerWrite_done own ?_)
  obtain ⟨one, stop, rest⟩ := errctl_one q
  simp only [one, stop, rest]
  simp [stopped]

theorem exec_qrst_refused {q : Fin 4} {v : Word} (named : bitAt v q.val = true) (runs : (s.quarter q).stopped = false) :
    exec (.qrst m v) s = .next { s with owner := s.owner.refuse m 0x200000 v 2 } := by
  refine ownerWrite_refuses own (if_pos ?_) rfl
  have some_runs : ((List.finRange 4).filter fun p => bitAt v p.val).all (fun p => (s.quarter p).stopped) = false := by
    rw [List.all_eq_false]
    exact ⟨q, List.mem_filter.2 ⟨List.mem_finRange q, named⟩, by simp [runs]⟩
  rw [some_runs]
  simp

/-- Every quarter stops. -/
def State.stopAll (s : State) : State := (List.finRange 4).foldl (fun s q => s.containedStop q (Cause.code .contained) 0) s

omit own in
theorem State.stopAll_mem (s : State) : s.stopAll.mem = s.mem :=
  foldl_keeps State.mem (fun s q => s.containedStop_mem q _ _) _ s

omit own in
theorem State.stopAll_stopped (s : State) (q : Fin 4) : (s.stopAll.quarter q).stopped = true := by
  have stays {t : State} {p : Fin 4} (h : (t.quarter q).stopped = true) : ((t.containedStop p (Cause.code .contained) 0).quarter q).stopped = true := by
    by_cases hp : q = p
    · rw [hp, State.containedStop_quarter_same]
    · rwa [State.containedStop_quarter_ne _ _ _ hp]
  refine foldl_reaches (I := fun _ => True) (Q := fun t : State => (t.quarter q).stopped = true) (List.mem_finRange q)
    (fun _ _ _ _ => trivial) (fun t _ => ?_) (fun _ _ _ _ h => stays h) trivial
  rw [State.containedStop_quarter_same]

theorem exec_dstop_stops : exec (.dstop m 16) s = .next (s.stopAll.accept m) := by
  refine congrArg Host.Outcome.next (State.ownerWrite_done own ?_)
  have none_named : ((List.finRange 4).filter fun p : Fin 4 => bitAt (16 ||| 16 : Word) p.val) = [] := by decide
  rw [none_named]
  rfl

end

/-! ## Images (R380) -/

@[simp] theorem State.accept_regs (s : State) (m : Fin 4) : (s.accept m).regs = s.regs := rfl
@[simp] theorem State.modRegs_regs (s : State) (f : Regs → Regs) : (s.modRegs f).regs = f s.regs := rfl

theorem bitsAt_lt {w : Nat} (v : BitVec w) (lo k : Nat) : bitsAt v lo k < 2 ^ k := (v.extractLsb' lo k).isLt

theorem bitsAt_fwstat {n k : Nat} (small : k < 2 ^ 32) :
    bitsAt (w64 (n * 2 ^ 32 + k)) 32 32 = n % 2 ^ 32 ∧ bitsAt (w64 (n * 2 ^ 32 + k)) 0 4 = k % 16 := by
  rw [bitsAt_w64 _ (by decide), bitsAt_w64 _ (by decide)]
  omega

section
variable {s : State} {m : Fin 4} {v : Word} (own : s.owner.own = m.val)
include own

theorem exec_fwcmd_starts (start : bitsAt v 0 3 = 1) (idle : s.regs.fwrun = none) :
    exec (.fwcmd m v) s = .next (State.accept (s.modRegs fun r =>
      { r with fwstat := w64 ((bitsAt s.regs.fwstat 32 32 + 1) % 2 ^ 32 * 2 ^ 32 + bitsAt s.regs.fwstat 0 4)
               fwrun := some s.regs.fwaddr }) m) := by
  refine congrArg Host.Outcome.next (State.ownerWrite_done own ?_)
  simp [start, State.modRegs, idle]

theorem exec_fwcmd_busy (start : bitsAt v 0 3 = 1) (busy : s.regs.fwrun ≠ none) :
    exec (.fwcmd m v) s = .next (State.accept (s.modRegs fun r =>
      { r with fwstat := w64 ((bitsAt s.regs.fwstat 32 32 + 1) % 2 ^ 32 * 2 ^ 32 + 1) }) m) := by
  refine congrArg Host.Outcome.next (State.ownerWrite_done own ?_)
  simp [start, State.modRegs, Option.isSome_iff_ne_none.2 busy]

theorem exec_fwcmd_spec (start : bitsAt v 0 3 = 1) : ∃ t, exec (.fwcmd m v) s = .next t ∧ t.mem = s.mem ∧
    t.regs.fwver = s.regs.fwver ∧ bitsAt t.regs.fwstat 32 32 = (bitsAt s.regs.fwstat 32 32 + 1) % 2 ^ 32 ∧
    (s.regs.fwrun = none → t.regs.fwrun = some s.regs.fwaddr) ∧
    (s.regs.fwrun ≠ none → t.regs.fwrun = s.regs.fwrun ∧ bitsAt t.regs.fwstat 0 4 = 1) := by
  by_cases idle : s.regs.fwrun = none
  · have low := bitsAt_lt s.regs.fwstat 0 4
    refine ⟨_, exec_fwcmd_starts own start idle, ?_⟩
    rw [State.accept_mem, State.modRegs_mem, State.accept_regs, State.modRegs_regs]
    exact ⟨rfl, rfl, (bitsAt_fwstat (by omega)).1.trans (Nat.mod_mod ..), fun _ => rfl, fun busy => absurd idle busy⟩
  · refine ⟨_, exec_fwcmd_busy own start idle, ?_⟩
    rw [State.accept_mem, State.modRegs_mem, State.accept_regs, State.modRegs_regs]
    exact ⟨rfl, rfl, (bitsAt_fwstat (by omega)).1.trans (Nat.mod_mod ..), fun none => absurd none idle,
      fun _ => ⟨rfl, (bitsAt_fwstat (by omega)).2⟩⟩

end

theorem State.checkImage_lt (s : State) (h : BitVec 1536) (a : Nat) : s.checkImage h a < 16 := by
  unfold State.checkImage
  dsimp only
  split
  · decide
  · split
    · decide
    · split
      · decide
      · split
        · decide
        · split <;> decide

theorem State.imageDone_some {s : State} {p : Word} (run : s.regs.fwrun = some p) {h : BitVec 1536}
    (header : h = BitVec.ofNat 1536 (rdVal s.mem p.toNat 192)) : s.imageDone =
    (if s.checkImage h p.toNat = 0 then s.install h p.toNat else s).modRegs fun r =>
      { r with fwstat := w64 (bitsAt r.fwstat 32 32 * 2 ^ 32 + s.checkImage h p.toNat), fwrun := none } := by
  subst header
  simp only [State.imageDone, run]

theorem State.install_keeps (s : State) (h : BitVec 1536) (a : Nat) :
    (s.install h a).mem = s.mem ∧ (s.install h a).regs.fwstat = s.regs.fwstat := by
  unfold State.install
  split <;> exact ⟨rfl, rfl⟩

theorem State.install_image {s : State} {h : BitVec 1536} {a : Nat} (image : imgType h ≠ 4) :
    lookD (s.install h a).regs.fwver (imgType h) 0 = w64 (imgVersion h) ∧
    lookD (s.install h a).regs.fwdigest (imgType h) 0 = imgDigest h := by
  rw [State.install, if_neg image]
  exact ⟨lookD_put_same .., lookD_put_same ..⟩

theorem State.imageDone_spec {s : State} {p : Word} (run : s.regs.fwrun = some p) {h : BitVec 1536}
    (header : h = BitVec.ofNat 1536 (rdVal s.mem p.toNat 192)) :
    s.imageDone.mem = s.mem ∧ s.imageDone.regs.fwrun = none ∧ bitsAt s.imageDone.regs.fwstat 0 4 = s.checkImage h p.toNat ∧
    bitsAt s.imageDone.regs.fwstat 32 32 = bitsAt s.regs.fwstat 32 32 ∧
    (s.checkImage h p.toNat ≠ 0 → s.imageDone.regs.fwver = s.regs.fwver ∧ s.imageDone.regs.fwdigest = s.regs.fwdigest ∧
      s.imageDone.regs.fusedSpare = s.regs.fusedSpare ∧ s.imageDone.regs.fusedRows = s.regs.fusedRows) ∧
    (s.checkImage h p.toNat = 0 → imgType h ≠ 4 →
      lookD s.imageDone.regs.fwver (imgType h) 0 = BitVec.ofNat 64 (imgVersion h) ∧
      lookD s.imageDone.regs.fwdigest (imgType h) 0 = imgDigest h) := by
  have small := s.checkImage_lt h p.toNat
  have count := bitsAt_lt s.regs.fwstat 32 32
  obtain ⟨mem, stat⟩ := s.install_keeps h p.toNat
  obtain ⟨high, low⟩ := bitsAt_fwstat (n := bitsAt s.regs.fwstat 32 32) (k := s.checkImage h p.toNat) (by omega)
  rw [Nat.mod_eq_of_lt count] at high
  rw [Nat.mod_eq_of_lt small] at low
  by_cases passed : s.checkImage h p.toNat = 0
  · rw [State.imageDone_some run header, if_pos passed]
    rw [State.modRegs_mem, State.modRegs_regs, stat]
    exact ⟨mem, rfl, low, high, fun failed => absurd passed failed, fun _ image => State.install_image image⟩
  · rw [State.imageDone_some run header, if_neg passed]
    rw [State.modRegs_mem, State.modRegs_regs]
    exact ⟨rfl, rfl, low, high, fun _ => ⟨rfl, rfl, rfl, rfl⟩, fun h => absurd h passed⟩

/-! ## Reports (R382) -/

theorem wrBytes_append (m : Memory) (a : Nat) (xs ys : List Byte) :
    wrBytes m a (xs ++ ys) = wrBytes (wrBytes m a xs) (a + xs.length) ys := by
  induction xs generalizing m a with
  | nil => rfl
  | cons x xs ih => simp only [List.cons_append, wrBytes, ih, List.length_cons, Nat.add_assoc, Nat.add_comm 1]

theorem State.writeHbm_mem_within {s : State} {pa : Nat} {bytes : List Byte} (bad : Bool) (within : pa + bytes.length ≤ hbmBytes) :
    (s.writeHbm pa bytes bad).mem = wrBytes s.mem pa bytes :=
  congrArg (wrBytes s.mem pa) (List.take_of_length_le (by omega))

theorem State.reportDone_eq {s : State} {p : Word} (run : s.regs.attrun = some p) {body : List Byte}
    (hb : body = s.reportBody (rdVal s.mem p.toNat 32)) : s.reportDone =
    ((((s.writeHbm p.toNat (body.take 64) (s.poisoned p.toNat 32)).writeHbm (p.toNat + 64) (body.drop 64)).writeHbm (p.toNat + 384)
      (leBytes 64 (Config.sha512 body).toNat ++ leBytes 64 (Config.sign (Config.sha512 body)).toNat) (s.poisoned p.toNat 32)).modRegs
        fun r => { r with attrun := none }) := by
  simp only [State.reportDone, run, hb]

theorem State.reportDone_mem {s : State} {p : Word} (run : s.regs.attrun = some p) (within : p.toNat + 512 ≤ 12 * 2 ^ 36)
    {body : List Byte} (hb : body = s.reportBody (rdVal s.mem p.toNat 32)) : s.reportDone.mem =
    wrBytes s.mem p.toNat (body ++ leBytes 64 (Config.sha512 body).toNat ++ leBytes 64 (Config.sign (Config.sha512 body)).toNat) := by
  have len : body.length = 384 := hb ▸ leBytes_length ..
  have room : hbmBytes = 12 * 2 ^ 36 := rfl
  have head : (body.take 64).length = 64 := by rw [List.length_take, len]; rfl
  have tail : (body.drop 64).length = 320 := by rw [List.length_drop, len]
  have signed : (leBytes 64 (Config.sha512 body).toNat ++ leBytes 64 (Config.sign (Config.sha512 body)).toNat).length = 128 := by
    rw [List.length_append, leBytes_length, leBytes_length]
  rw [State.reportDone_eq run hb]
  rw [State.modRegs_mem, State.writeHbm_mem_within _ (by omega), State.writeHbm_mem_within _ (by omega), State.writeHbm_mem_within _ (by omega),
    List.append_assoc, wrBytes_append s.mem _ body, len, ← List.take_append_drop 64 body, wrBytes_append s.mem, head,
    List.take_append_drop]

theorem State.reportDone_ends {s : State} {p : Word} (run : s.regs.attrun = some p) : s.reportDone.regs.attrun = none := by
  simp only [State.reportDone, run]
  rfl

/-! ## Registers without a row, and what a master reads (R356) -/

theorem exec_attcmd_starts {s : State} {m : Fin 4} {v : Word} (own : s.owner.own = m.val) (idle : s.regs.attrun = none)
    (within : s.regs.attaddr.toNat + 512 ≤ 12 * 2 ^ 36) (start : bitAt v 0 = true) :
    exec (.attcmd m v) s = .next ((s.modRegs fun r => { r with attrun := some r.attaddr }).accept m) := by
  refine congrArg Host.Outcome.next (State.ownerWrite_done own ((if_neg ?_).trans (if_neg ?_)))
  · rw [idle, Bool.or_eq_true, decide_eq_true_eq, show hbmBytes = 12 * 2 ^ 36 from rfl]
    simpa using within
  · simp [start]

theorem exec_attcmd_refused {s : State} {m : Fin 4} {v : Word} (own : s.owner.own = m.val)
    (h : s.regs.attrun ≠ none ∨ 12 * 2 ^ 36 < s.regs.attaddr.toNat + 512) :
    exec (.attcmd m v) s = .next { s with owner := s.owner.refuse m 0x200120 v 2 } :=
  ownerWrite_refuses own (if_pos (by rwa [Bool.or_eq_true, decide_eq_true_eq, Option.isSome_iff_ne_none])) rfl

/-- The turn of a master's read. -/
theorem step_mgmtRead {s : State} {m : Fin 4} {off : Nat} {ts : List Turn} (h : s.turns = .mgmtRead m off :: ts) :
    ∃ t, step s = .next t ∧ t.owner.replies.get m = some (.read (State.mgmtRead { s with turns := ts } (off / 8 * 8))) ∧
      t.mem = s.mem ∧ t.regs = s.regs := by
  refine ⟨_, step_turn h, ?_, State.noteWakes_mem _, ?_⟩
  · rw [State.noteWakes_keeps State.owner (fun _ _ _ => rfl) (fun _ _ => rfl) fun _ _ _ _ => rfl]
    exact vget_set_same ..
  · exact State.noteWakes_keeps State.regs (fun _ _ _ => rfl) (fun _ _ => rfl) (fun _ _ _ _ => rfl) _

theorem Owner.setStatus_reply (o : Owner) {m : Fin 4} (h : m ≠ 0) (st n : Nat) :
    (o.setStatus m st n).replies.get m = some (.wrote st) := by
  simp only [Owner.setStatus, if_neg h]
  exact vget_set_same ..

end Sys2Proof.Machine

namespace Sys2Proof.Proofs
open Sys2Proof Sys2Proof.Machine Sys2Proof.Claims

/-- Settles O53: a write by what lies at its offset, a read by its turn, and each command by its lemma. -/
theorem managementWindow : Obligations.ManagementWindow := by
  unfold Obligations.ManagementWindow
  refine ⟨fun m q v bytes s len value => ?writes, fun m off bytes s h => ⟨fun own => ?mine, fun foreign => ?foreign⟩,
    fun m off ts s h => step_mgmtRead h, fun o m st n h => o.setStatus_reply h st n, fun m v s own => ?commands⟩
  case writes =>
    have write {off : Nat} (aligned : off % 8 = 0) : exec (.mgmtRegisterWrite m off bytes false) s = s.mgmtWrite m off v :=
      value ▸ exec_mgmtRegisterWrite_aligned aligned len
    have quarterly (n : Nat) (hn : n < 9) : exec (.mgmtRegisterWrite m (0x10000 + 8 * n + 0x1000 * q.val) bytes false) s =
        quarterWrite m q n v s := (write (by omega)).trans (State.mgmtWrite_quarter q hn)
    have journal {off : Nat} (n : Nat) (hn : n < 4) (h2 : n ≠ 2) (place : off = 0x200080 + 0x20 * q.val + 8 * n) :
        exec (.mgmtRegisterWrite m off bytes false) s = execJournalConfigWrite m q (if n = 3 then 2 else Fin.ofNat 3 n) v s :=
      place ▸ (write (by omega)).trans (State.mgmtWrite_journal q hn h2)
    have plain {off : Nat} (aligned : off % 8 = 0) (h : plainOff off) : exec (.mgmtRegisterWrite m off bytes false) s =
        .next (s.ownerWrite m off v (plainWrite off v)) := (write aligned).trans (State.mgmtWrite_plain h)
    refine ⟨?rows, ?command, fun c => (write (by omega)).trans (State.mgmtWrite_spare c),
      fun c n => (write (by omega)).trans (State.mgmtWrite_rowSpare c n), fun own n => ?plain⟩
    case rows =>
      simp only [List.forall_mem_cons]
      exact ⟨write rfl, write rfl, write rfl, write rfl, write rfl, write rfl, quarterly 0 (by decide), quarterly 1 (by decide),
        quarterly 2 (by decide), quarterly 4 (by decide), quarterly 6 (by decide), quarterly 7 (by decide), write rfl, write rfl,
        write rfl, journal 0 (by decide) (by decide) (by omega), journal 1 (by decide) (by decide) (by omega),
        journal 3 (by decide) (by decide) (by omega), List.forall_mem_nil _⟩
    case command =>
      have command {act : Nat} {i : Instr} (runs : ∀ h : bitsAt v 0 3 = act, ownWrite m v s = exec i s) (h : bitsAt v 0 3 = act) :
          exec (.mgmtRegisterWrite m 0x10 bytes false) s = exec i s := (write rfl).trans (runs h)
      simp only [List.forall_mem_cons]
      refine ⟨command fun h => ?_, command fun h => ?_, command fun h => ?_, command fun h => ?_, command fun h => ?_,
        List.forall_mem_nil _⟩ <;> (simp only [ownWrite, h]; rfl)
    case plain =>
      have takes {off : Nat} {u : State} (aligned : off % 8 = 0) (h : plainOff off) (done : plainWrite off v s = some u) :
          exec (.mgmtRegisterWrite m off bytes false) s = .next (u.accept m) :=
        (plain aligned h).trans (congrArg Host.Outcome.next (State.ownerWrite_done own done))
      refine ⟨⟨_, takes rfl (by unfold plainOff; decide) rfl, rfl⟩, ⟨_, takes rfl (by unfold plainOff; decide) rfl, rfl⟩,
        ⟨_, takes rfl (by unfold plainOff; decide) rfl, rfl⟩, ⟨_, takes rfl (by unfold plainOff; decide) rfl, rfl⟩,
        fun still => ?roots, fun off listed => ?refused⟩
      case roots =>
        have done := plainWrite_asroot (v := v) still n
        exact ⟨_, takes (by omega) (plainOff_asroot n) done, vget_set_same .., fun k h => vget_set_ne _ _ h⟩
      case refused =>
        obtain ⟨aligned, none⟩ := State.mgmtWrite_readOnly (s := s) (m := m) (v := v) off listed
        exact ((write aligned).trans none).trans (congrArg Host.Outcome.next (State.ownerWrite_refused own rfl))
  case mine => 
    rw [exec_mgmtRegisterWrite_misplaced h, if_pos (.inl own)]
    rfl
  case foreign =>
    rw [exec_mgmtRegisterWrite_misplaced h]
    simp [foreign, openOff, ownCmdOff, mlogconsOff]
    rfl
  case commands =>
    refine ⟨?reset, fun q named runs => exec_qrst_refused own named runs, ?stop, exec_fwcmd_spec own, fun p run => State.imageDone_spec run rfl,
      fun idle within start => ⟨_, exec_attcmd_starts own idle within start, rfl, rfl⟩, exec_attcmd_refused own,
      fun p run within => ?report⟩
    case reset =>
      rintro q rfl stopped
      obtain ⟨⟨x, hx⟩, ctxs, launches⟩ := s.resetQuarter_spec q
      refine ⟨_, exec_qrst_resets own q stopped, ?_⟩
      rw [State.accept_quarter, hx]
      exact ⟨rfl, rfl, rfl, rfl, rfl, ctxs, launches⟩
    case report =>
      exact ⟨State.reportDone_ends run, State.reportDone_mem run within rfl⟩
    case stop =>
      rintro rfl
      refine ⟨_, exec_dstop_stops own, (State.accept_mem ..).trans s.stopAll_mem, fun q => ?_⟩
      rw [State.accept_quarter]
      exact s.stopAll_stopped q

end Sys2Proof.Proofs
end

section
/-! SUPPORT. What a waiter for a page does at its next walk, what a count owed adds, and what a residency request posts, with the
statement about them (R326, R330). -/

namespace Sys2Proof.Machine

/-! ## Waiters (R326) -/

section
variable {s : State}

theorem exec_residencyRewalk_ctx {k slot va : Nat} {asid : Fin 16} {who : BitVec 32}
    (waits : (s.ctxAt k).waits = [(slot, (asid, va, who))]) : exec (.residencyRewalk (.ctx k)) s = .next
      (if (s.walk asid va).isAbsent then s.postResidency asid va who
       else s.modCtxAt k fun c => { c with waits := del c.waits slot }) := by
  change execResidencyRewalk (.ctx k) s = _
  simp only [execResidencyRewalk, waits, List.foldl_cons, List.foldl_nil]

theorem exec_residencyRewalk_card {x : Card} {va : Nat} {asid : Fin 16} (hx : s.cards.find? (fun c => c.id == x.id) = some x)
    (waits : x.wait = some (asid, va)) : exec (.residencyRewalk (.card x.id)) s = .next
      (if (s.walk asid va).isAbsent then s.postResidency asid va (BitVec.allOnes 32)
       else s.modCard x.id fun c => { c with wait := none }) := by
  change execResidencyRewalk (.card x.id) s = _
  simp only [execResidencyRewalk, hx, waits]
  split <;> rfl

end

/-! ## Requests (R326) -/

section
variable {s : State} {asid : Fin 16} {va : Nat} {core : BitVec 32}

theorem State.postResidency_full (full : 256 ≤ (s.xlat.rqprod - s.xlat.rqcons).toNat) : s.postResidency asid va core = s := by
  rw [State.postResidency]
  exact if_pos (by rw [decide_eq_true full, Bool.or_true])

theorem State.postResidency_empty (empty : (s.xlat.rqprod - s.xlat.rqcons).toNat = 0) : s.postResidency asid va core =
    { s with xlat := { s.xlat with
      ring := put s.xlat.ring (s.xlat.rqprod.toNat % 256) (s.requestPage asid va, asid, core)
      rqprod := s.xlat.rqprod + 1 } } := by
  rw [State.postResidency]
  exact if_neg (by simp [empty])

end

/-! ## Counts (R330) -/

/-- Bytes written are what is read back. -/
theorem rdBytes_wrBytes (m : Memory) (a : Nat) (bs : List Byte) : rdBytes (wrBytes m a bs) a bs.length = bs := by
  refine List.ext_getElem (rdBytes_length ..) fun i hi _ => ?_
  have read := rdBytes_getD (wrBytes m a bs) a (n := bs.length) (i := i) (by simpa [rdBytes_length] using hi)
  rw [List.getD_eq_getElem?_getD, List.getElem?_eq_getElem hi, Option.getD_some] at read
  rw [read, rdByte_wrBytes_in]

theorem rdVal_wrBytes_leBytes (m : Memory) (a n v : Nat) : rdVal (wrBytes m a (leBytes n v)) a n = v % 256 ^ n := by
  have bytes := rdBytes_wrBytes m a (leBytes n v)
  rw [leBytes_length] at bytes
  rw [rdVal, bytes, leVal_leBytes]

theorem State.setHot_mem {s : State} {entry kind : Nat} (v : Nat) (bad : Bool) (within : entry + 4 * kind + 4 ≤ hbmBytes) :
    (s.setHot entry kind v bad).mem = wrBytes s.mem (entry + 4 * kind) (leBytes 4 (min v (2 ^ 32 - 1))) :=
  State.writeHbm_mem_within bad (by rw [leBytes_length]; exact within)

theorem exec_hotnessAdd {s : State} {k : Nat} {o : Owed} (owed : s.xlat.owed[k]? = some o) (clean : s.hotBad o.addr o.kind = false) :
    exec (.hotnessAdd k) s = .next { s.setHot o.addr o.kind (s.hotCount o.addr o.kind + o.n) with
      xlat := { s.xlat with owed := s.xlat.owed.eraseIdx k } } := by
  change execHotnessAdd k s = _
  simp only [execHotnessAdd, owed, clean]
  rfl

end Sys2Proof.Machine

namespace Sys2Proof.Proofs
open Sys2Proof Sys2Proof.Machine Sys2Proof.Claims

/-- Settles O46: a waiter by what its walk finds, a count by what its write leaves, and a request by the room of the ring. -/
theorem rewalksAndCounts : Obligations.RewalksAndCounts := by
  unfold Obligations.RewalksAndCounts
  refine ⟨fun k slot va asid who s waits => ⟨fun present => ?goes, fun absent => ?asks⟩,
    fun x va asid s hx waits => ⟨fun present => ?cardGoes, fun absent => ?cardAsks⟩, fun k o s owed within clean => ?counts,
    fun s asid va core => ⟨State.postResidency_full, fun empty => ?posts⟩⟩
  case goes =>
    refine ⟨_, (exec_residencyRewalk_ctx waits).trans (congrArg _ (if_neg (by simp [present]))), ?_⟩
    rw [State.ctxAt_modCtxAt_same, waits]
    exact ⟨by simp [del], rfl, rfl⟩
  case asks => exact (exec_residencyRewalk_ctx waits).trans (congrArg _ (if_pos absent))
  case cardGoes => exact (exec_residencyRewalk_card hx waits).trans (congrArg _ (if_neg (by simp [present])))
  case cardAsks => exact (exec_residencyRewalk_card hx waits).trans (congrArg _ (if_pos absent))
  case counts =>
    have mem := s.setHot_mem (s.hotCount o.addr o.kind + o.n) false within
    refine ⟨_, exec_hotnessAdd owed clean, ?_, fun a outside => ?_, rfl⟩
    · change rdVal (State.setHot ..).mem _ _ = _
      rw [mem, rdVal_wrBytes_leBytes, State.hotCount]
      omega
    · change rdByte (State.setHot ..).mem _ = _
      rw [mem, rdByte_wrBytes_out _ _ _ _ (by rw [leBytes_length]; exact outside)]
  case posts =>
    refine ⟨_, rfl, ?_⟩
    rw [State.postResidency_empty empty]
    exact ⟨rfl, look_put_same .., rfl⟩

end Sys2Proof.Proofs
end

section
/-! SUPPORT. What each page form answers once its checks pass, with the statement about them (R325, R331 to R335, R368). -/

namespace Sys2Proof.Machine

/-! ## Checks of pages (R332, R368) -/

/-- A page whose entry neither is INVALID nor poisoned. -/
def Page.passes (p : Page) : Prop := p.walk ≠ .invalid ∧ ∀ a, p.walk ≠ .poisoned a

section
variable {s : State}

theorem State.checkPages_cons {p : Page} (passes : p.passes) (ps : List Page) : s.checkPages (p :: ps) = s.checkPages ps := by
  obtain ⟨notInvalid, notPoisoned⟩ := passes
  change (_ >>= fun _ => s.checkPages ps) = _
  dsimp only
  split
  next h => exact absurd h notInvalid
  next h => exact absurd h (notPoisoned _)
  next => rfl

theorem State.checkPages_append {before : List Page} (pass : ∀ p ∈ before, p.passes) (ps : List Page) :
    s.checkPages (before ++ ps) = s.checkPages ps := by
  induction before with
  | nil => rfl
  | cons p before ih =>
    rw [List.cons_append, State.checkPages_cons (pass p List.mem_cons_self)]
    exact ih fun x hx => pass x (List.mem_cons_of_mem p hx)

theorem State.checkPages_ok {ps : List Page} (pass : ∀ p ∈ ps, p.passes) : s.checkPages ps = .ok () := by
  have h := s.checkPages_append pass []
  rwa [List.append_nil] at h

theorem State.checkPages_invalid {p : Page} (invalid : p.walk = .invalid) (ps : List Page) :
    s.checkPages (p :: ps) = raise s .invalidPage (w64 p.base) := by
  change (_ >>= fun _ => s.checkPages ps) = _
  dsimp only
  rw [invalid]
  rfl

@[simp] theorem State.postResidency_pins (s : State) (asid : Fin 16) (va : Nat) (who : BitVec 32) :
    (s.postResidency asid va who).xlat.pins = s.xlat.pins := by
  unfold State.postResidency
  dsimp only
  split <;> rfl

theorem State.thread_advance_setPins (s : State) (pins : List Pin) : (s.setPins pins).advance.thread = s.advance.thread := by
  rw [State.thread_advance, State.thread_advance]
  rfl

theorem settle_waitPage (s : State) (asid : Fin 16) (va : Nat) : settle (s.waitPage asid va) =
    .next ((s.postResidency asid va (BitVec.ofNat 32 s.cur.core)).modCtx fun c =>
      { c with waits := put c.waits s.issuerSlot (asid, va, BitVec.ofNat 32 s.cur.core) }) := rfl

/-- The wait for a page touches no issuer. -/
theorem State.thread_putWait (s : State) (f : Table (Fin 16 × Nat × BitVec 32) → Table (Fin 16 × Nat × BitVec 32)) :
    (s.modCtx fun c => { c with waits := f c.waits }).thread = s.thread := by
  simp only [State.thread, State.strip?, State.ctx_modCtx]
  rfl

end

/-! ## Forms on a range of pages (R331, R332) -/

/-- A page in TRANSIT. -/
def Page.moves (p : Page) : Bool :=
  match p.walk with
  | .transit _ _ _ _ _ => true
  | _ => false

/-- The ABSENT ones of a list of pages are requested. -/
def State.askPages (s : State) (ps : List Page) : State :=
  ps.foldl (fun s p => if p.walk.isAbsent then s.postResidency s.asid p.base (BitVec.ofNat 32 s.cur.core) else s) s

theorem State.askPages_keeps {α : Type} (s : State) (q : State → α)
    (kept : ∀ s asid va who, q (State.postResidency s asid va who) = q s) (ps : List Page) : q (s.askPages ps) = q s :=
  foldl_keeps q (fun s p => by split; exacts [kept .., rfl]) ps s

/-- What `pgpin` does once no page of its range is INVALID or poisoned. -/
def State.pinPages (s : State) (d : Operand) (ps : List Page) : Act State :=
  match ps.find? fun p => p.walk.isAbsent with
  | some p => (s.askPages ps).waitPage s.asid p.base
  | none =>
    if ps.any Page.moves then hold s
    else .ok (if (ps.foldl (fun m p => addPin m s.asid p) s.xlat.pins).length ≤ pinTable
      then ((s.setPins (ps.foldl (fun m p => addPin m s.asid p) s.xlat.pins)).putP d true).advance
      else (s.putP d false).advance)

section
variable {c : Ctl} {s : State} {f : FM} {va : Nat} (hg : s.guard c = true) (hp : s.pagePtr (s.fmBase f) = .ok va)
include hg hp

theorem exec_pgreq (small : (s.val f.opb).toNat ≤ 2 ^ 30) : exec (.pgreq c f) s =
    .next ((s.pagesOf s.asid va (va + (s.val f.opb).toNat) 16386).foldl (fun u p => match p.walk with
      | .absent _ => u.postResidency u.asid p.base (BitVec.ofNat 32 u.cur.core)
      | _ => u) s).advance := by
  change execPgreq c f s = _
  rw [execPgreq, run_true _ hg]
  simp only [hp, act_ok_bind, if_neg (Nat.not_lt.2 small), settle_ok] <;> rfl

theorem exec_pgunpin_many (many : 16 < (s.pagesOf s.asid va (va + (s.val f.opb).toNat) 17).length) :
    exec (.pgunpin c f) s = .next (s.takeTrap { cause := .range, val := s.val f.opb }) := by
  change execPgunpin c f s = _
  rw [execPgunpin, run_true _ hg]
  simp only [hp, act_ok_bind, if_pos many]
  rfl

theorem exec_pgunpin (few : (s.pagesOf s.asid va (va + (s.val f.opb).toNat) 17).length ≤ 16) : exec (.pgunpin c f) s =
    .next (s.setPins ((s.xlat.pins.map fun x => x.drop s.asid va (va + (s.val f.opb).toNat)).filter fun x =>
      x.count != 0)).advance := by
  change execPgunpin c f s = _
  rw [execPgunpin, run_true _ hg]
  simp only [hp, act_ok_bind, if_neg (Nat.not_lt.2 few), settle_ok]

variable {ps : List Page} (hps : ps = s.pagesOf s.asid va (va + (s.val f.opb).toNat) 17) (hd : Claims.destOk s f.opd)
include hps hd

theorem exec_pgpin_many (many : 16 < ps.length) :
    exec (.pgpin c f) s = .next (s.takeTrap { cause := .range, val := s.val f.opb }) := by
  change execPgpin c f s = _
  rw [execPgpin, run_true _ hg]
  simp only [checkDest_ok hd, hp, act_ok_bind, ← hps, if_pos many]
  rfl

variable (few : ps.length ≤ 16)
include few

theorem exec_pgpin_invalid {before after : List Page} {p : Page} (split : ps = before ++ p :: after) (invalid : p.walk = .invalid)
    (pass : ∀ x ∈ before, x.passes) :
    exec (.pgpin c f) s = .next (s.takeTrap { cause := .invalidPage, val := BitVec.ofNat 64 p.base }) := by
  change execPgpin c f s = _
  have checked : s.checkPages ps = raise s .invalidPage (w64 p.base) := by
    rw [split, State.checkPages_append pass, State.checkPages_invalid invalid]
  rw [execPgpin, run_true _ hg]
  simp only [checkDest_ok hd, hp, act_ok_bind, ← hps, if_neg (Nat.not_lt.2 few), checked]
  rfl

theorem exec_pgpin_checked (pass : ∀ x ∈ ps, x.passes) : exec (.pgpin c f) s = settle (s.pinPages f.opd ps) := by
  change execPgpin c f s = _
  rw [execPgpin, run_true _ hg]
  simp only [checkDest_ok hd, hp, act_ok_bind, ← hps, if_neg (Nat.not_lt.2 few), State.checkPages_ok pass]
  rfl

theorem exec_pgpin_pins (valid : ∀ p ∈ ps, ∃ pa w x, p.walk = .valid p.log pa w x) :
    exec (.pgpin c f) s = .next (if (ps.foldl (fun m p => addPin m s.asid p) s.xlat.pins).length ≤ 1024
      then ((s.setPins (ps.foldl (fun m p => addPin m s.asid p) s.xlat.pins)).putP f.opd true).advance
      else (s.putP f.opd false).advance) := by
  have present (p : Page) (hp : p ∈ ps) : p.passes ∧ p.walk.isAbsent = false ∧ p.moves = false := by
    obtain ⟨pa, w, x, h⟩ := valid p hp
    rw [Page.passes, Page.moves, h]
    exact ⟨⟨nofun, nofun⟩, rfl, rfl⟩
  have found : (ps.find? fun p => p.walk.isAbsent) = none := List.find?_eq_none.2 fun p hp => by simp [(present p hp).2.1]
  have still : ps.any Page.moves = false := by simpa using fun p hp => (present p hp).2.2
  rw [exec_pgpin_checked hg hp hps hd few fun p hp => (present p hp).1, State.pinPages, found]
  simp only [still, pinTable]
  rfl

theorem exec_pgpin_waits (pass : ∀ x ∈ ps, x.passes)
    (waits : ∃ x ∈ ps, x.walk.isAbsent = true ∨ ∃ old new p w e, x.walk = .transit old new p w e) :
    ∃ t, exec (.pgpin c f) s = .next t ∧ t.thread = s.thread ∧ t.mem = s.mem ∧ t.xlat.pins = s.xlat.pins := by
  rw [exec_pgpin_checked hg hp hps hd few pass, State.pinPages]
  cases absent : ps.find? fun p => p.walk.isAbsent with
  | some p =>
    refine ⟨_, settle_waitPage .., ?_, ?_, ?_⟩
    · refine (State.thread_putWait _ fun w => put w _ _).trans ?_
      rw [State.postResidency_keeps State.thread fun _ _ => rfl]
      exact s.askPages_keeps State.thread (State.postResidency_keeps State.thread fun _ _ => rfl) ps
    · rw [State.modCtx_mem, State.postResidency_keeps State.mem fun _ _ => rfl]
      exact s.askPages_keeps State.mem (State.postResidency_keeps State.mem fun _ _ => rfl) ps
    · rw [State.modCtx_xlat, State.postResidency_pins]
      exact s.askPages_keeps (fun s => s.xlat.pins) State.postResidency_pins ps
  | none =>
    have transit : ps.any Page.moves = true := by
      obtain ⟨x, hx, h | ⟨old, new, p, w, e, h⟩⟩ := waits
      · exact absurd h (by simpa using List.find?_eq_none.1 absent x hx)
      · exact List.any_eq_true.2 ⟨x, hx, by rw [Page.moves, h]⟩
    simp only [transit, if_true]
    exact ⟨s, rfl, rfl, rfl, rfl⟩

end

/-! ## `tlbi` (R333, R334) -/

section
variable {c : Ctl} {s u v : State} (hg : s.guard c = true)

/-- The addresses that a `tlbi` names. -/
def tlbiNames (s : State) (f : FR) (x : Cover) : Prop :=
  f.sub = 0 ∧ s.pagePtr (s.val f.opa) = .ok x.lo ∧ x.hi = x.lo + 1 ∧ x.asid = s.asid ∨
  f.sub = 1 ∧ s.pagePtr (s.val f.opa) = .ok x.lo ∧ x.hi = x.lo + (s.val f.opb).toNat ∧ x.asid = s.asid ∨
  f.sub = 2 ∧ x = { asid := s.asid, lo := 0, hi := 2 ^ 58 }

include hg in
theorem exec_tlbi {f : FR} {x : Cover} (names : tlbiNames s f x) (drained : s.drainAct s.key = .ok u)
    (acked : u.unacked s.key .core = false) (done : u.invalidate x false (some s.key) = .ok v) :
    exec (.tlbi c f) s = .next v.advance := by
  have key : u.key = s.key := congrArg (fun i : Issuer => ctxNum i.core i.lc) ((MemClosed.of_part State.cur (· = s.cur) (fun _ _ _ _ _ _ _ _ _ _ => rfl)
    (fun _ _ _ _ => rfl) (fun _ _ _ _ => rfl) fun _ _ _ => rfl).drainAct rfl s.key |>.of_ok drained)
  obtain ⟨asid, lo, hi⟩ := x
  change execTlbi c f s = _
  rw [execTlbi, run_true _ hg]
  dsimp only [tlbiNames] at names
  rcases names with ⟨sub, ptr, rfl, rfl⟩ | ⟨sub, ptr, rfl, rfl⟩ | ⟨sub, eq⟩
  · simp [sub, ptr, drained, acked, done, key]
  · simp [sub, ptr, drained, acked, done, key]
  · cases eq
    simp [-Nat.reducePow, sub, drained, acked, done, key]

theorem State.widen_asid (s : State) (x : Cover) : (s.widen x).asid = x.asid := by
  unfold State.widen
  split <;> rfl

theorem State.invalidate_ok {x : Cover} {leave : Bool} {who : Option Nat} (done : u.invalidate x leave who = .ok v) :
    u.pinnedIn (u.widen x) = false ∧ ∃ w : State, v = w.dropMaps (u.widen x) := by
  rw [State.invalidate] at done
  split at done
  next => exact nomatch done
  next free =>
    obtain ⟨w, -, eq⟩ := act_bind_ok done
    exact ⟨eq_false_of_ne_true free, w, (Except.ok.inj eq).symm⟩

theorem State.dropMaps_tlbs (w : State) (x : Cover) : ∀ k ∈ (w.dropMaps x).tlbs, ∀ e ∈ k.2,
    ¬(e.asid = x.asid ∧ x.lo < x.hi ∧ x.holds e.va e.log = true) := by
  intro k hk e he
  obtain ⟨k, -, rfl⟩ := List.mem_map.1 hk
  have kept := (List.mem_filter.1 he).2
  rintro ⟨asid, low, holds⟩
  simp [asid, low, holds] at kept

end

/-! ## `hot` (R335, R368) -/

section
variable {c : Ctl} {s : State} {f : FR} (hg : s.guard c = true) (hd : Claims.destOk s f.opd)
include hg hd

theorem exec_hot_none (h : bitAt s.xlat.hotbase 0 = false ∨ s.hotFrame (s.val f.opa) = .ok none) :
    exec (.hot c f) s = .next (s.putS f.opd (BitVec.allOnes 64)).advance := by
  change execHot c f s = _
  rw [execHot, run_true _ hg]
  have frame : (if bitAt s.xlat.hotbase 0 then s.hotFrame (s.val f.opa) else .ok none) = .ok none := by
    rcases h with off | none
    · rw [off]; rfl
    · split; exacts [none, rfl]
  simp only [checkDest_ok hd, act_ok_bind, frame, settle_ok]

variable {pa : Nat} (on : bitAt s.xlat.hotbase 0 = true) (frame : s.hotFrame (s.val f.opa) = .ok (some pa))
include on frame

theorem exec_hot_poisoned (bad : s.hotBad (s.hotEntry pa) (f.sub.toNat % 3) = true) : exec (.hot c f) s = .next (s.takeTrap
    { cause := .uncorrected, val := s.val f.opa, mem := 9, addr := s.hotEntry pa + 4 * (f.sub.toNat % 3) }) := by
  change execHot c f s = _
  rw [execHot, run_true _ hg]
  simp only [checkDest_ok hd, act_ok_bind, if_pos on, frame, if_pos bad]
  rfl

theorem exec_hot (good : s.hotBad (s.hotEntry pa) (f.sub.toNat % 3) = false) : exec (.hot c f) s =
    .next (if 3 ≤ f.sub.toNat
      then (s.putS f.opd (w64 (s.hotCount (s.hotEntry pa) (f.sub.toNat % 3)))).setHot (s.hotEntry pa) (f.sub.toNat % 3) 0
      else s.putS f.opd (w64 (s.hotCount (s.hotEntry pa) (f.sub.toNat % 3)))).advance := by
  change execHot c f s = _
  rw [execHot, run_true _ hg]
  simp only [checkDest_ok hd, act_ok_bind, if_pos on, frame, good]
  rfl

end

end Sys2Proof.Machine

namespace Sys2Proof.Proofs
open Sys2Proof Sys2Proof.Machine Sys2Proof.Claims

/-- Settles O45: the forms on a range by what their pages are, `tlbi` by its invalidation, and `hot` by its counter. -/
theorem pageForms : Obligations.PageForms := by
  unfold Obligations.PageForms
  refine fun c s hg => ⟨fun f va hp => ?range, fun f x u v names drained acked done => ?tlbi, fun f hd sub => ?hot⟩
  case range =>
    refine ⟨exec_pgreq hg hp, fun few hd valid => ?pins, fun few hd => ⟨fun before after p split invalid pass => ?invalid,
      fun pass waits => exec_pgpin_waits hg hp rfl hd few pass waits⟩,
      fun many => ⟨fun hd => exec_pgpin_many hg hp rfl hd many, exec_pgunpin_many hg hp many⟩, fun few => ?unpins⟩
    case pins =>
      have pinned := exec_pgpin_pins hg hp rfl hd few valid
      exact ⟨fun fits => pinned.trans (congrArg _ (if_pos fits)), fun full => pinned.trans (congrArg _ (if_neg (Nat.not_le.2 full)))⟩
    case invalid => exact exec_pgpin_invalid hg hp rfl hd few split invalid pass
    case unpins =>
      refine ⟨_, exec_pgunpin hg hp few, State.advance_mem _, State.thread_advance_setPins .., fun x => ?_⟩
      rw [State.advance_xlat]
      change x ∈ List.filter _ _ ↔ _
      simp only [List.mem_filter, List.mem_map, bne_iff_ne, ne_eq]
      exact ⟨fun ⟨⟨y, hy, eq⟩, count⟩ => ⟨count, y, hy, eq.symm⟩, fun ⟨count, y, hy, eq⟩ => ⟨⟨y, hy, eq.symm⟩, count⟩⟩
  case tlbi =>
    obtain ⟨free, w, rfl⟩ := State.invalidate_ok done
    refine ⟨exec_tlbi hg names drained acked done, free, ?_⟩
    rw [← u.widen_asid x]
    exact w.dropMaps_tlbs _
  case hot =>
    refine ⟨exec_hot_none hg hd, fun pa on frame => ⟨exec_hot_poisoned hg hd on frame, fun good few => ?reads,
      fun good many within => ?clears⟩⟩
    case reads => exact (exec_hot hg hd on frame good).trans (congrArg (fun t : State => Host.Outcome.next t.advance) (if_neg (Nat.not_le.2 few)))
    case clears =>
      refine ⟨_, (exec_hot hg hd on frame good).trans (congrArg (fun t : State => Host.Outcome.next t.advance) (if_pos many)), ?_, rfl⟩
      rw [State.setHot_mem _ _ within, State.putS_mem]
      rfl

end Sys2Proof.Proofs
end

section
/-! SUPPORT. Entries of the PFX table, the entry that a lookup finds and the victim of an insertion, with the statement about the
PFX table (R344 to R346, R386). -/

namespace Sys2Proof.Machine

/-! ## The first of the greatest -/

/-- The numbers below n that pass a test and whose key is the greatest: the least of them. -/
def firstBest (p : Nat → Bool) (key : Nat → Nat) (l : List Nat) : Option Nat :=
  l.foldl (fun best e => if p e then
      match best with
      | none => some e
      | some b => if key b < key e then some e else some b
    else best) none

section
variable {p : Nat → Bool} {key : Nat → Nat}

theorem firstBest_append (l : List Nat) (e : Nat) : firstBest p key (l ++ [e]) = if p e then
    match firstBest p key l with
    | none => some e
    | some b => if key b < key e then some e else some b
    else firstBest p key l := by
  rw [firstBest, List.foldl_append]
  rfl

theorem firstBest_range (n : Nat) : (firstBest p key (List.range n) = none → ∀ e < n, p e = false) ∧
    ∀ b, firstBest p key (List.range n) = some b →
      b < n ∧ p b = true ∧ ∀ e < n, p e = true → key e < key b ∨ (key e = key b ∧ b ≤ e) := by
  induction n with
  | zero => exact ⟨fun _ _ h => absurd h (Nat.not_lt_zero _), fun b h => nomatch h⟩
  | succ n ih =>
    rw [List.range_succ, firstBest_append]
    cases hp : p n with
    | false =>
      refine ⟨fun h e he => ?_, fun b h => ?_⟩
      · rcases Nat.lt_succ_iff_lt_or_eq.1 he with he | rfl
        · exact ih.1 h e he
        · exact hp
      · obtain ⟨hb, pb, best⟩ := ih.2 b h
        refine ⟨by omega, pb, fun e he pe => ?_⟩
        rcases Nat.lt_succ_iff_lt_or_eq.1 he with he | rfl
        · exact best e he pe
        · exact absurd pe (by simp [hp])
    | true =>
      cases before : firstBest p key (List.range n) with
      | none =>
        refine ⟨nofun, fun b h => ?_⟩
        obtain rfl := Option.some.inj h
        refine ⟨Nat.lt_succ_self _, hp, fun e he pe => ?_⟩
        rcases Nat.lt_succ_iff_lt_or_eq.1 he with he | rfl
        · exact absurd pe (by simp [ih.1 before e he])
        · exact .inr ⟨rfl, Nat.le_refl _⟩
      | some b =>
        obtain ⟨hb, pb, best⟩ := ih.2 b before
        simp only [if_true]
        split
        next greater =>
          refine ⟨nofun, fun b' h => ?_⟩
          obtain rfl := Option.some.inj h
          refine ⟨Nat.lt_succ_self _, hp, fun e he pe => ?_⟩
          rcases Nat.lt_succ_iff_lt_or_eq.1 he with he | rfl
          · rcases best e he pe with less | ⟨same, -⟩ <;> left <;> omega
          · exact .inr ⟨rfl, Nat.le_refl _⟩
        next notGreater =>
          refine ⟨nofun, fun b' h => ?_⟩
          obtain rfl := Option.some.inj h
          refine ⟨by omega, pb, fun e he pe => ?_⟩
          rcases Nat.lt_succ_iff_lt_or_eq.1 he with he | rfl
          · exact best e he pe
          · omega

theorem firstBest_eq_none {n : Nat} : firstBest p key (List.range n) = none ↔ ∀ e < n, p e = false := by
  refine ⟨(firstBest_range n).1, fun h => ?_⟩
  cases found : firstBest p key (List.range n) with
  | none => rfl
  | some b =>
    obtain ⟨hb, pb, -⟩ := (firstBest_range n).2 b found
    exact absurd pb (by simp [h b hb])

end

/-! ## Entries (Table 23-3) -/

theorem extract_ofNat {w k : Nat} (n lo : Nat) (h : lo + k ≤ w) :
    (BitVec.ofNat w n).extractLsb' lo k = BitVec.ofNat k (n / 2 ^ lo) := by
  apply BitVec.eq_of_toNat_eq
  rw [BitVec.toNat_ofNat]
  exact bitsAt_ofNat n h

theorem bitAt_ofNat {w : Nat} (n : Nat) {lo : Nat} (h : lo < w) : bitAt (BitVec.ofNat w n) lo = decide (n / 2 ^ lo % 2 = 1) := by
  rw [bitAt, BitVec.getLsbD_ofNat, decide_eq_true h, Bool.true_and, Nat.testBit_eq_decide_div_mod_eq]

theorem entryIs_make (hash : Word) {page asid depth pin : Nat} (age : BitVec 32) (hpage : page < 2 ^ 41) (hasid : asid < 16)
    (hdepth : depth < 2 ^ 16) (hpin : pin < 2 ^ 16) :
    Claims.entryIs (PEntry.make hash page asid depth pin age.toNat) hash page asid depth pin age := by
  have hh := hash.isLt
  have ha := age.isLt
  unfold Claims.entryIs peV peHash pePage peAs peDepth pePin peAge PEntry.make
  rw [bitAt_ofNat _ (by decide), extract_ofNat _ _ (by decide), extract_ofNat _ _ (by decide), bitsAt_ofNat _ (by decide),
    bitsAt_ofNat _ (by decide), bitsAt_ofNat _ (by decide), bitsAt_ofNat _ (by decide)]
  refine ⟨decide_eq_true ?_, BitVec.eq_of_toNat_eq ?_, ?_, ?_, ?_, ?_, BitVec.eq_of_toNat_eq ?_⟩ <;>
    (try rw [BitVec.toNat_ofNat]) <;> omega

theorem entryIs_withAge (e : PEntry) (age : BitVec 32) :
    Claims.entryIs (PEntry.withAge e age) (peHash e) (pePage e) (peAs e) (peDepth e) (pePin e) age :=
  entryIs_make _ _ (bitsAt_lt ..) (bitsAt_lt e 180 4) (bitsAt_lt ..) (bitsAt_lt ..)

theorem entryIs_withPin (e : PEntry) {n : Nat} (hn : n < 2 ^ 16) :
    Claims.entryIs (PEntry.withPin e n) (peHash e) (pePage e) (peAs e) (peDepth e) n (peAge e) :=
  entryIs_make _ _ (bitsAt_lt ..) (bitsAt_lt e 180 4) (bitsAt_lt ..) hn

/-! ## The entry found and the victim (R345) -/

/-- Whether an entry answers a lookup of hashes. -/
def State.prefixFits (s : State) (hs : List Word) (e : Nat) : Bool :=
  s.pmatch e && decide (1 ≤ peDepth (s.pentry e)) && hs[peDepth (s.pentry e) - 1]? == some (peHash (s.pentry e))

/-- The age that an entry would have when the table is next touched. -/
def State.prefixAge (s : State) (e : Nat) : Nat := (s.serving.aclk + 1 - peAge (s.pentry e)).toNat

section
variable {s : State}

theorem State.pmatch_iff {e : Nat} : s.pmatch e = true ↔ peV (s.pentry e) = true ∧ peAs (s.pentry e) = s.asid.val := by
  simp [State.pmatch]

theorem State.prefixFits_iff {hs : List Word} {e : Nat} : s.prefixFits hs e = true ↔ peV (s.pentry e) = true ∧
    peAs (s.pentry e) = s.asid.val ∧ 1 ≤ peDepth (s.pentry e) ∧ hs[peDepth (s.pentry e) - 1]? = some (peHash (s.pentry e)) := by
  simp [State.prefixFits, State.pmatch_iff, and_assoc]

theorem State.bestPrefix_eq (hs : List Word) :
    s.bestPrefix hs = firstBest (s.prefixFits hs) (fun e => peDepth (s.pentry e)) (List.range 64) := rfl

theorem State.victim_invalid {b : Nat} (h : (List.range 64).find? (fun e => !peV (s.pentry e)) = some b) : s.victim = some b := by
  simp only [State.victim, h]

theorem State.victim_oldest (h : (List.range 64).find? (fun e => !peV (s.pentry e)) = none) :
    s.victim = firstBest (fun e => decide (pePin (s.pentry e) = 0)) s.prefixAge (List.range 64) := by
  simp only [State.victim, h, firstBest, decide_eq_true_eq, ite_not, ne_eq]
  rfl

theorem State.bestPrefix_none {hs : List Word} : s.bestPrefix hs = none ↔ ∀ e < 64, s.prefixFits hs e = false :=
  firstBest_eq_none

theorem State.bestPrefix_some {hs : List Word} {b : Nat} (h : s.bestPrefix hs = some b) :
    b < 64 ∧ s.prefixFits hs b = true ∧ ∀ e < 64, s.prefixFits hs e = true →
      peDepth (s.pentry e) < peDepth (s.pentry b) ∨ (peDepth (s.pentry e) = peDepth (s.pentry b) ∧ b ≤ e) :=
  (firstBest_range 64).2 b h

theorem State.all_valid_iff : (List.range 64).find? (fun e => !peV (s.pentry e)) = none ↔ ∀ e < 64, peV (s.pentry e) = true := by
  simp [List.find?_eq_none]

theorem State.victim_none : s.victim = none ↔ ∀ e < 64, peV (s.pentry e) = true ∧ pePin (s.pentry e) ≠ 0 := by
  cases h : (List.range 64).find? fun e => !peV (s.pentry e) with
  | some b =>
    have invalid := List.find?_some h
    have low := List.mem_range.1 (List.mem_of_find?_eq_some h)
    rw [State.victim_invalid h]
    exact ⟨nofun, fun all => absurd (all b low).1 (by simpa using invalid)⟩
  | none =>
    rw [State.victim_oldest h, firstBest_eq_none]
    have valid := State.all_valid_iff.1 h
    exact ⟨fun pinned e he => ⟨valid e he, of_decide_eq_false (pinned e he)⟩, fun all e he => decide_eq_false (all e he).2⟩

theorem State.victim_some {b : Nat} (found : s.victim = some b) : b < 64 ∧
    (peV (s.pentry b) = false ∧ (∀ e < b, peV (s.pentry e) = true) ∨
      (∀ e < 64, peV (s.pentry e) = true) ∧ pePin (s.pentry b) = 0 ∧
        ∀ e < 64, pePin (s.pentry e) = 0 → s.prefixAge e < s.prefixAge b ∨ (s.prefixAge e = s.prefixAge b ∧ b ≤ e)) := by
  cases h : (List.range 64).find? fun e => !peV (s.pentry e) with
  | some b' =>
    obtain rfl := Option.some.inj ((State.victim_invalid h).symm.trans found)
    obtain ⟨invalid, low, before⟩ := List.find?_range_eq_some.1 h
    exact ⟨List.mem_range.1 low, .inl ⟨by simpa using invalid, fun e he => by simpa using before e he⟩⟩
  | none =>
    rw [State.victim_oldest h] at found
    obtain ⟨low, unpinned, oldest⟩ := (firstBest_range 64).2 b found
    exact ⟨low, .inr ⟨State.all_valid_iff.1 h, of_decide_eq_true unpinned, fun e he pin => oldest e he (decide_eq_true pin)⟩⟩

end

/-! ## The forms (R345) -/

theorem State.readHashes_length {s u : State} {p : Word} {n j : Nat} {hs : List Word} (h : s.readHashes p n j = .ok (hs, u)) :
    hs.length = n := by
  induction n generalizing s j hs with
  | zero =>
    cases h
    rfl
  | succ n ih =>
    obtain ⟨⟨v, t⟩, -, h⟩ := act_bind_ok h
    obtain ⟨⟨vs, w⟩, rest, h⟩ := act_bind_ok h
    cases h
    exact congrArg (· + 1) (ih rest)

section
variable {s u : State} {f : FR} (hd : Claims.destOk s f.opd) (i : Instr) (pin : Bool)
include hd

theorem pfxLookup_none (none : (s.val f.opb).toNat = 0) : settle (pfxLookup i pin f s) = .next (s.putS f.opd 0).advance := by
  rw [pfxLookup]
  simp only [checkDest_ok hd, act_ok_bind, if_pos none, settle_ok]

theorem pfxLookup_many (many : 4096 < (s.val f.opb).toNat) :
    settle (pfxLookup i pin f s) = .next (s.takeTrap { cause := .range, val := i.upper }) := by
  rw [pfxLookup]
  simp only [checkDest_ok hd, act_ok_bind, if_neg (show (s.val f.opb).toNat ≠ 0 by omega), if_pos many]
  rfl

variable {hs : List Word} (more : (s.val f.opb).toNat ≠ 0) (few : (s.val f.opb).toNat ≤ 4096)
  (read : s.readHashes (s.val f.opa) (s.val f.opb).toNat 0 = .ok (hs, u))
include more few read

theorem pfxLookup_misses (miss : u.bestPrefix hs = none) : settle (pfxLookup i pin f s) = .next (u.putS f.opd 0).advance := by
  rw [pfxLookup]
  simp only [checkDest_ok hd, act_ok_bind, if_neg more, if_neg (Nat.not_lt.2 few), read, undo_ok, miss, settle_ok]

theorem pfxLookup_finds {b : Nat} (found : u.bestPrefix hs = some b) {e : PEntry}
    (taken : e = if pin then PEntry.withPin (u.pentry b) (min 65535 (pePin (u.pentry b) + 1)) else u.pentry b)
    {hash : Word} {page asid depth n : Nat} {age : BitVec 32} (is : Claims.entryIs (PEntry.withAge e (u.serving.aclk + 1))
      hash page asid depth n age) (deep : peDepth e = depth) :
    ∃ tab, settle (pfxLookup i pin f s) = .next (State.advance (State.putS { u with serving := { u.serving with
        prefix_ := tab, aclk := u.serving.aclk + 1 } } f.opd (BitVec.ofNat 64 (2 ^ 31 + b * 2 ^ 16 + depth)))) ∧
      Claims.keepsPrefix tab u b ∧ Claims.entryIs (lookD tab b 0) hash page asid depth n age := by
  refine ⟨put u.serving.prefix_ b (PEntry.withAge e (u.serving.aclk + 1)), ?_, fun _ h => lookD_put_ne _ _ _ h, ?_⟩
  · rw [pfxLookup]
    simp only [checkDest_ok hd, act_ok_bind, if_neg more, if_neg (Nat.not_lt.2 few), read, undo_ok, found, ← taken, deep]
    rfl
  · rwa [lookD_put_same]

end

theorem State.pindex_low {s : State} {v : Word} (low : v.toNat < 64) : s.pindex v = .ok v.toNat := by
  have zero : v >>> 6 = 0 := BitVec.eq_of_toNat_eq (by
    rw [BitVec.toNat_ushiftRight, Nat.shiftRight_eq_div_pow]
    exact Nat.div_eq_of_lt low)
  exact if_neg (by simp [zero])

theorem State.pindex_high {s : State} {v : Word} (high : 64 ≤ v.toNat) : s.pindex v = raise s .range v := by
  have more : v >>> 6 ≠ 0 := fun zero => by
    have quotient := congrArg BitVec.toNat zero
    rw [BitVec.toNat_ushiftRight, Nat.shiftRight_eq_div_pow] at quotient
    have small := (Nat.div_eq_zero_iff.1 quotient).resolve_left (by decide)
    omega
  exact if_pos (by simpa using more)

section
variable {c : Ctl} {s : State} {f : FR} (hg : s.guard c = true) (hd : Claims.destOk s f.opd)
include hg hd

theorem exec_pfxlPage_high (high : 64 ≤ (s.val f.opa).toNat) :
    exec (.pfxlPage c f) s = .next (s.takeTrap { cause := .range, val := s.val f.opa }) := by
  change execPfxlPage c f s = _
  rw [execPfxlPage, run_true _ hg]
  simp only [checkDest_ok hd, act_ok_bind, State.pindex_high high]
  rfl

theorem exec_pfxiUnpin_high (high : 64 ≤ (s.val f.opa).toNat) :
    exec (.pfxiUnpin c f) s = .next (s.takeTrap { cause := .range, val := s.val f.opa }) := by
  change execPfxiUnpin c f s = _
  rw [execPfxiUnpin, run_true _ hg]
  simp only [checkDest_ok hd, act_ok_bind, State.pindex_high high]
  rfl

section
variable (low : (s.val f.opa).toNat < 64)
include low

theorem exec_pfxlPage : exec (.pfxlPage c f) s = .next (s.putS f.opd (if s.pmatch (s.val f.opa).toNat = true
    then BitVec.ofNat 64 (pePage (s.pentry (s.val f.opa).toNat) * 65536) else BitVec.allOnes 64)).advance := by
  change execPfxlPage c f s = _
  rw [execPfxlPage, run_true _ hg]
  simp only [checkDest_ok hd, act_ok_bind, State.pindex_low low, settle_ok]
  rfl

theorem exec_pfxiUnpin_none (none : s.pmatch (s.val f.opa).toNat = false ∨ pePin (s.pentry (s.val f.opa).toNat) = 0) :
    exec (.pfxiUnpin c f) s = .next (s.putS f.opd (BitVec.allOnes 64)).advance := by
  change execPfxiUnpin c f s = _
  rw [execPfxiUnpin, run_true _ hg]
  simp only [checkDest_ok hd, act_ok_bind, State.pindex_low low]
  rw [if_pos (by simpa using none), settle_ok]

variable (own : s.pmatch (s.val f.opa).toNat = true)
include own

theorem exec_pfxiUnpin_full (full : pePin (s.pentry (s.val f.opa).toNat) = 65535) :
    exec (.pfxiUnpin c f) s = .next (s.putS f.opd 65535).advance := by
  change execPfxiUnpin c f s = _
  rw [execPfxiUnpin, run_true _ hg]
  simp only [checkDest_ok hd, act_ok_bind, State.pindex_low low]
  rw [if_neg (by simp [own, full]), if_pos full, settle_ok]

theorem exec_pfxiUnpin (held : pePin (s.pentry (s.val f.opa).toNat) ≠ 0) (counted : pePin (s.pentry (s.val f.opa).toNat) ≠ 65535) :
    exec (.pfxiUnpin c f) s = .next (State.advance (State.putS { s with serving := { s.serving with
      prefix_ := put s.serving.prefix_ (s.val f.opa).toNat
        (PEntry.withPin (s.pentry (s.val f.opa).toNat) (pePin (s.pentry (s.val f.opa).toNat) - 1)) } } f.opd
      (BitVec.ofNat 64 (pePin (s.pentry (s.val f.opa).toNat) - 1)))) := by
  change execPfxiUnpin c f s = _
  rw [execPfxiUnpin, run_true _ hg]
  simp only [checkDest_ok hd, act_ok_bind, State.pindex_low low]
  rw [if_neg (by simp [own, held]), if_neg counted, settle_ok]
  rfl

end

section
variable {h w : Nat} {u v : State} (hash : s.scalarVal (s.val f.opa) 8 = .ok (h, u))
  (word : u.scalarVal (s.val f.opa + 8) 8 = .ok (w, v))
include hash word

theorem exec_pfxiIns_refused (bad : w / 2 ^ 41 % 128 ≠ 0 ∨ w / 2 ^ 48 = 0) :
    exec (.pfxiIns c f) s = .next (s.takeTrap { cause := .range, val := Instr.upper (.pfxiIns c f) }) := by
  change execPfxiIns c f s = _
  rw [execPfxiIns, run_true _ hg]
  simp only [checkDest_ok hd, act_ok_bind, hash, word, undo_ok]
  rw [if_pos (by simpa using bad)]
  rfl

theorem exec_pfxiIns (reserved : w / 2 ^ 41 % 128 = 0) (depth : w / 2 ^ 48 ≠ 0) {r : State × Nat}
    (inserted : v.insertPrefix (w64 h) (w % 2 ^ 41) (w / 2 ^ 48) = r) : exec (.pfxiIns c f) s =
    .next (r.1.putS f.opd (w64 r.2)).advance := by
  change execPfxiIns c f s = _
  rw [execPfxiIns, run_true _ hg]
  simp only [checkDest_ok hd, act_ok_bind, hash, word, undo_ok]
  rw [if_neg (by rw [reserved]; simpa using depth), settle_ok, inserted]

end

end

section
variable {v : State} {hash : Word} {page depth e : Nat}

/-- The entries that an insertion refreshes. -/
def State.sameEntry (v : State) (hash : Word) (depth e : Nat) : Bool :=
  v.pmatch e && peHash (v.pentry e) == hash && peDepth (v.pentry e) == depth

theorem State.insertPrefix_found (found : (List.range 64).find? (v.sameEntry hash depth) = some e) :
    v.insertPrefix hash page depth = ({ v with serving := { v.serving with
      prefix_ := put v.serving.prefix_ e (PEntry.withAge (v.pentry e) (v.serving.aclk + 1)), aclk := v.serving.aclk + 1 } },
      256 + e) := by
  change (match (List.range 64).find? (v.sameEntry hash depth) with | some e => _ | none => _) = _
  rw [found]
  rfl

theorem State.insertPrefix_victim (found : (List.range 64).find? (v.sameEntry hash depth) = none) (victim : v.victim = some e) :
    v.insertPrefix hash page depth = ({ v with serving := { v.serving with
      prefix_ := put v.serving.prefix_ e (PEntry.make hash page v.asid depth 0 (v.serving.aclk + 1).toNat)
      aclk := v.serving.aclk + 1 } }, e) := by
  change (match (List.range 64).find? (v.sameEntry hash depth) with | some e => _ | none => _) = _
  rw [found]
  simp only [victim]
  rfl

theorem State.insertPrefix_refused (found : (List.range 64).find? (v.sameEntry hash depth) = none) (victim : v.victim = none) :
    v.insertPrefix hash page depth = (v, 0x200) := by
  change (match (List.range 64).find? (v.sameEntry hash depth) with | some e => _ | none => _) = _
  rw [found]
  simp only [victim]

end

theorem exec_pfxinv {m : Fin 4} {v : Word} {s : State} (own : s.owner.own = m.val) : exec (.pfxinv m v) s =
    .next ((s.setPentry (bitsAt v 0 6) (s.pentry (bitsAt v 0 6) &&& ~~~(BitVec.ofNat 256 (2 ^ 184)))).accept m) :=
  congrArg Host.Outcome.next (State.ownerWrite_done own rfl)

theorem peV_cleared (e : PEntry) : peV (e &&& ~~~(BitVec.ofNat 256 (2 ^ 184))) = false := by
  rw [peV, bitAt, BitVec.getLsbD_and, BitVec.getLsbD_not, BitVec.getLsbD_ofNat, Nat.testBit_two_pow_self]
  simp

end Sys2Proof.Machine

namespace Sys2Proof.Proofs
open Sys2Proof Sys2Proof.Machine Sys2Proof.Claims

/-- Settles O48: each form by the entry that it finds, and the choice among entries as the first of the greatest. -/
theorem prefixTableResults : Obligations.PrefixTableResults := by
  unfold Obligations.PrefixTableResults
  refine ⟨fun c f s hg hd => ⟨fun hs u => ?lookup, fun high => ⟨exec_pfxlPage_high hg hd high, exec_pfxiUnpin_high hg hd high⟩,
    fun low => ?entry, fun h w u v hash word wide => ?insert⟩, fun u hs => ?choice, fun m v s own => ?cleared⟩
  case lookup =>
    have find : exec (.pfxlFind c f) s = settle (pfxLookup (.pfxlFind c f) false f s) := run_true _ hg
    have take : exec (.pfxlPin c f) s = settle (pfxLookup (.pfxlPin c f) true f s) := run_true _ hg
    rw [find, take]
    refine ⟨fun none => ⟨pfxLookup_none hd _ _ none, pfxLookup_none hd _ _ none⟩,
      fun many => ⟨pfxLookup_many hd _ _ many, pfxLookup_many hd _ _ many⟩, fun more few read => ⟨State.readHashes_length read,
        fun miss => ⟨pfxLookup_misses hd _ _ more few read miss, pfxLookup_misses hd _ _ more few read miss⟩, fun b found => ?_⟩⟩
    have pinned := entryIs_withPin (u.pentry b) (n := min 65535 (pePin (u.pentry b) + 1)) (by omega)
    obtain ⟨-, hash, page, asid, depth, pin, -⟩ := pinned
    have aged := entryIs_withAge (PEntry.withPin (u.pentry b) (min 65535 (pePin (u.pentry b) + 1))) (u.serving.aclk + 1)
    rw [hash, page, asid, depth, pin] at aged
    exact ⟨pfxLookup_finds hd _ false more few read found rfl (entryIs_withAge ..) rfl,
      pfxLookup_finds hd _ true more few read found rfl aged depth⟩
  case entry =>
    refine ⟨exec_pfxlPage hg hd low, exec_pfxiUnpin_none hg hd low, exec_pfxiUnpin_full hg hd low, fun own held counted => ?_⟩
    have small : pePin (s.pentry (s.val f.opa).toNat) - 1 < 2 ^ 16 := by
      have := bitsAt_lt (s.pentry (s.val f.opa).toNat) 208 16
      unfold pePin
      omega
    refine ⟨_, exec_pfxiUnpin hg hd low own held counted, fun e h => lookD_put_ne _ _ _ h, ?_⟩
    rw [lookD_put_same]
    exact entryIs_withPin _ small
  case insert =>
    refine ⟨exec_pfxiIns_refused hg hd hash word, fun reserved depth => ?_⟩
    intro found written
    refine ⟨fun e he => ?_, fun e he victim => ?_, fun he victim => ?_⟩
    · refine ⟨_, ⟨exec_pfxiIns hg hd hash word reserved depth (State.insertPrefix_found he), fun _ h => lookD_put_ne _ _ _ h⟩, ?_⟩
      rw [lookD_put_same]
      exact entryIs_withAge ..
    · refine ⟨_, ⟨exec_pfxiIns hg hd hash word reserved depth (State.insertPrefix_victim he victim), fun _ h => lookD_put_ne _ _ _ h⟩, ?_⟩
      rw [lookD_put_same]
      exact entryIs_make _ _ (Nat.mod_lt _ (by decide)) v.asid.isLt (by omega) (by decide)
    · exact exec_pfxiIns hg hd hash word reserved depth (State.insertPrefix_refused he victim)
  case choice =>
    intro depth fits age
    refine ⟨fun e => State.pmatch_iff, ?_, fun b found => ?_, State.victim_none, fun b found => State.victim_some found⟩
    · rw [State.bestPrefix_none]
      exact forall₂_congr fun e _ => Bool.eq_false_iff.trans (not_congr State.prefixFits_iff)
    · obtain ⟨low, fit, best⟩ := State.bestPrefix_some found
      exact ⟨low, State.prefixFits_iff.1 fit, fun e he fit => best e he (State.prefixFits_iff.2 fit)⟩
  case cleared =>
    refine ⟨_, exec_pfxinv own, ?_, fun e h => lookD_put_ne _ _ _ h, rfl⟩
    exact (congrArg peV (lookD_put_same ..)).trans (peV_cleared _)

end Sys2Proof.Proofs
end

section
/-! SUPPORT. What phase boundaries and barrier forms answer once their checks pass, with the statement about them (R225 to R228). -/

namespace Sys2Proof.Machine

/-! ## The thread after a wait -/

theorem State.thread_modCtx {s : State} {f : Ctx → Ctx} (strips : ∀ c, (f c).strips = c.strips) (thread : ∀ c, (f c).thread = c.thread) :
    (s.modCtx f).thread = s.thread := by
  have strip : (s.modCtx f).strip? = s.strip? := by
    simp only [State.strip?, State.ctx_modCtx, strips]
    rfl
  rw [State.thread, State.thread, strip, State.ctx_modCtx, thread]

theorem State.thread_congr {s t : State} (cur : t.cur = s.cur) (ctxs : t.ctxs = s.ctxs) : t.thread = s.thread := by
  have ctx : t.ctx = s.ctx := by rw [State.ctx, State.ctx, State.key, State.key, State.ctxAt, State.ctxAt, cur, ctxs]
  rw [State.thread, State.thread, State.strip?, State.strip?, ctx, cur]

@[simp] theorem State.thread_keepWait (s t : State) : (s.keepWait t).thread = s.thread := by
  unfold State.keepWait
  refine (State.thread_modCtx (fun c => ?_) fun c => ?_).trans ?_
  · rfl
  · rfl
  · exact State.thread_congr rfl rfl

/-! ## The object (R226, R227, Table 13-3) -/

/-- The fields of an object that is put together from them. -/
theorem barrier_fields {k g p c e : Nat} (hk : k < 2 ^ 31) (hg : g < 2 ^ 32) (hp : p < 2) (hc : c < 2 ^ 32) (he : e < 2 ^ 32) :
    barExp (k * 2 ^ 65 + e + g * 2 ^ 96 + p * 2 ^ 64 + c * 2 ^ 32) = e ∧
    barGen (k * 2 ^ 65 + e + g * 2 ^ 96 + p * 2 ^ 64 + c * 2 ^ 32) = g ∧
    barCur (k * 2 ^ 65 + e + g * 2 ^ 96 + p * 2 ^ 64 + c * 2 ^ 32) = c := by
  unfold barExp barGen barCur
  omega

theorem barrier_bounds (o : Nat) : o / 2 ^ 65 % 2 ^ 31 < 2 ^ 31 ∧ barGen o < 2 ^ 32 ∧ barExp o < 2 ^ 32 :=
  ⟨Nat.mod_lt _ (by decide), Nat.mod_lt _ (by decide), Nat.mod_lt _ (by decide)⟩

theorem arrive_early {o n : Nat} (early : barCur o + n < barExp o) :
    barExp (arrive o n) = barExp o ∧ barGen (arrive o n) = barGen o ∧ barCur (arrive o n) = barCur o + n := by
  obtain ⟨kept, gen, expected⟩ := barrier_bounds o
  rw [arrive]
  simp only [if_neg (Nat.not_le.2 early)]
  exact barrier_fields kept gen (Nat.mod_lt _ (by decide)) (by omega) expected

theorem arrive_last {o n : Nat} (last : barExp o ≤ barCur o + n) : barExp (arrive o n) = barExp o ∧
    barGen (arrive o n) = (barGen o + 1) % 2 ^ 32 ∧ barCur (arrive o n) = min (barCur o + n - barExp o) (2 ^ 32 - 1) := by
  obtain ⟨kept, -, expected⟩ := barrier_bounds o
  rw [arrive]
  simp only [if_pos last]
  exact barrier_fields kept (Nat.mod_lt _ (by decide)) (Nat.mod_lt _ (by decide)) (by omega) expected

/-! ## The forms (R225 to R228) -/

section
variable {c : Ctl} {f : FR} {s s1 s2 s3 u : State} {sc : Scope} {l : Loc} (hg : s.guard c = true)
include hg

theorem exec_phase (scope : s.scopeOperand f.opa (.phase c f) = .ok sc) (made : s.boundary s.key sc = .ok u) :
    exec (.phase c f) s = .next u.advance := by
  change execPhase c f s = _
  rw [execPhase, run_true _ hg]
  simp only [scope, made, act_ok_bind, undo_ok, settle_ok]

theorem exec_barinit (least : 1 ≤ (s.val f.opb).toNat) (most : (s.val f.opb).toNat < 2 ^ 32)
    (loc : s.barLoc (s.val f.opa) = .ok (l, s1)) (drained : s1.drainLoc s1.key l 16 = .ok s2)
    (wrote : (s2.noteLoc (.ctx s2.key) l (leBytes 16 (s.val f.opb).toNat)).homeWrite s2.cur.core l
      (leBytes 16 (s.val f.opb).toNat) false = .ok s3) : exec (.barinit c f) s = .next s3.advance := by
  change execBarinit c f s = _
  rw [execBarinit, run_true _ hg]
  dsimp only
  rw [if_neg (by simp; omega)]
  simp only [loc, drained, wrote, act_ok_bind, undo_ok, settle_ok]

theorem exec_barinit_refused (bad : (s.val f.opb).toNat = 0 ∨ 2 ^ 32 ≤ (s.val f.opb).toNat) :
    exec (.barinit c f) s = .next (s.takeTrap { cause := .range, val := Instr.upper (.barinit c f) }) := by
  change execBarinit c f s = _
  rw [execBarinit, run_true _ hg]
  dsimp only
  rw [if_pos (by simp; omega)]
  rfl

theorem exec_bararr {old : Nat} (hd : Claims.destOk s f.opd) (scope : s.subScope f.sub (.bararr c f) = .ok sc)
    (most : (s.val f.opb).toNat < 2 ^ 32) (loc : s.barLoc (s.val f.opa) = .ok (l, s1)) (published : s1.publish s1.key sc = .ok s2)
    (added : s2.ctxAtomic s2.key l 16 (fun o => some (arrive o (s.val f.opb).toNat)) = .ok (old, false, s3)) :
    exec (.bararr c f) s = .next (s3.putS f.opd (BitVec.ofNat 64 (old / 2 ^ 96 % 2 ^ 32))).advance := by
  change execBararr c f s = _
  rw [execBararr, run_true _ hg]
  simp only [checkDest_ok hd, scope, act_ok_bind, if_neg (Nat.not_le.2 most), loc, published, added]
  rfl

section
variable {g : Nat} (scope : s.subScope f.sub (.barwait c f) = .ok sc) (read : s.barRead (s.val f.opa) = .ok (g, s1))
include scope read

theorem exec_barwait_passes (flipped : g ≠ (s.val f.opb).toNat % 2 ^ 32) (passed : s1.passBarrier sc = .ok s2) :
    exec (.barwait c f) s = .next s2.advance := by
  change execBarwait c f s = _
  rw [execBarwait, run_true _ hg]
  simp only [scope, read, act_ok_bind, if_neg flipped, passed, undo_ok, settle_ok]

theorem exec_barwait_waits (same : g = (s.val f.opb).toNat % 2 ^ 32) : exec (.barwait c f) s = .next (s.keepWait s1) := by
  change execBarwait c f s = _
  rw [execBarwait, run_true _ hg]
  simp only [scope, read, act_ok_bind, if_pos same]
  rfl

end

section
variable {g : Nat} (hd : Claims.destOk s f.opd) (scope : s.subScope f.sub (.bartest c f) = .ok sc)
  (read : s.barRead (s.val f.opa) = .ok (g, s1))
include hd scope read

theorem exec_bartest_passes (flipped : g ≠ (s.val f.opb).toNat % 2 ^ 32) (passed : s1.passBarrier sc = .ok s2) :
    exec (.bartest c f) s = .next (s2.putP f.opd true).advance := by
  change execBartest c f s = _
  rw [execBartest, run_true _ hg]
  simp only [checkDest_ok hd, scope, read, act_ok_bind, if_neg flipped, passed, undo_ok, settle_ok]

theorem exec_bartest_same (same : g = (s.val f.opb).toNat % 2 ^ 32) :
    exec (.bartest c f) s = .next (s1.putP f.opd false).advance := by
  change execBartest c f s = _
  rw [execBartest, run_true _ hg]
  simp only [checkDest_ok hd, scope, read, act_ok_bind, if_pos same, undo_ok, settle_ok]

end

end

end Sys2Proof.Machine

namespace Sys2Proof.Proofs
open Sys2Proof Sys2Proof.Machine Sys2Proof.Claims

/-- Settles O30: each form by what its accesses answer, and the object by whether the arrival is the last of its phase. -/
theorem barrierResults : Obligations.BarrierResults := by
  unfold Obligations.BarrierResults
  refine fun c f s hg => ⟨fun sc u => exec_phase hg, fun l s1 s2 s3 => exec_barinit hg, exec_barinit_refused hg,
    fun sc l s1 s2 s3 old => exec_bararr hg, fun sc g s1 scope read => ⟨fun flipped s2 => exec_barwait_passes hg scope read flipped,
      fun same => ⟨_, exec_barwait_waits hg scope read same, State.thread_keepWait ..⟩⟩,
    fun sc g s1 hd scope read => ⟨fun flipped s2 => exec_bartest_passes hg hd scope read flipped, exec_bartest_same hg hd scope read⟩,
    fun o n _ _ => ?object⟩
  case object =>
    rcases Nat.lt_or_ge (barCur o + n) (barExp o) with early | last
    · obtain ⟨expected, gen, cur⟩ := arrive_early early
      exact ⟨expected, fun _ => ⟨gen, cur⟩, fun last => absurd early (Nat.not_lt.2 last)⟩
    · obtain ⟨expected, gen, cur⟩ := arrive_last last
      exact ⟨expected, fun early => absurd early (Nat.not_lt.2 last), fun _ => ⟨gen, cur⟩⟩

end Sys2Proof.Proofs
end

section
/-! SUPPORT. What an atomic reads and writes, and the operations on patterns, with the statement about scalar atomics (R202, R203,
R222, R223). -/

namespace Sys2Proof.Machine

/-! ## The access (R202, R203) -/

section
variable {s s1 s2 s3 s4 : State} {p : Word} {z : Nat} {ph : Bool} {sc : Scope} {g : Nat → Option Nat} {l : Loc} {old : Nat}

theorem State.scalarAmo_ok (loc : s.scalarLoc p z z true = .ok (l, s1))
    (published : (if ph then s1.publish s1.key (atomicScope l sc) else .ok s1) = .ok s2)
    (done : s2.ctxAtomic s2.key l z g = .ok (old, false, s3))
    (refreshed : (if ph then s3.refresh s3.key (atomicScope l sc) else .ok s3) = .ok s4) :
    s.scalarAmo p z ph sc g = .ok (old, s4) := by
  rw [State.scalarAmo]
  cases ph with
  | false =>
    cases published
    cases refreshed
    simp only [loc, act_ok_bind, done]
    rfl
  | true =>
    rw [if_pos rfl] at published refreshed
    simp only [loc, act_ok_bind, published, done, refreshed, if_true]
    rfl

/-- The pending stores that a read or write at a home follows are the context's own. -/
theorem mem_followed {pend : List Pending} {k a n : Nat} {h : Home} {q : Pending} (hq : q ∈ followed pend k h a n) : q.ctx = k := by
  unfold followed at hq
  revert hq
  induction pend with
  | nil => exact fun hq => absurd hq List.not_mem_nil
  | cons p pend ih =>
    rw [List.foldr_cons]
    split
    next own =>
      intro hq
      rcases List.mem_cons.1 hq with rfl | hq
      · simp at own
        exact own.1.1
      · exact ih hq
    next => exact ih

theorem State.drainOver_pend {t : State} {k a n : Nat} {h : Home} (drained : s.drainOver k h a n = .ok t) :
    ∀ q ∈ s.pend, q.ctx ≠ k → q ∈ t.pend := by
  intro q hq other
  rw [State.drainOver] at drained
  split at drained
  next =>
    obtain rfl := Except.ok.inj drained
    rw [foldl_keeps State.pend (fun s p => s.performStore_pend)]
    refine List.mem_filter.2 ⟨hq, ?_⟩
    simpa using fun hf => other (mem_followed hf)
  next => exact nomatch drained

theorem State.homeRead_hbm {core pa n : Nat} {asid : Fin 16} {va : Nat} {r : List Byte × Bool × State}
    (read : s.homeRead core (.hbm asid va pa) n = .ok r) : r = (rdBytes s.mem pa n, s.poisoned pa n, s) := by
  rw [State.homeRead] at read
  split at read
  next => exact nomatch read
  next => exact (Except.ok.inj read).symm

theorem State.homeWrite_hbm {t : State} {core pa : Nat} {asid : Fin 16} {va : Nat} {bytes : List Byte} {bad : Bool}
    (wrote : s.homeWrite core (.hbm asid va pa) bytes bad = .ok t) :
    t = (s.writeHbm pa bytes bad).modCoreAt core fun c => c.dropL1 pa := by
  rw [State.homeWrite] at wrote
  split at wrote
  next => exact nomatch wrote
  next => exact (Except.ok.inj wrote).symm

theorem State.homeAtomic_hbm {t : State} {core pa : Nat} {asid : Fin 16} {va : Nat} {bad : Bool}
    (made : s.homeAtomic core (.hbm asid va pa) z g = .ok (old, bad, t)) (good : bad = false) (within : pa + z ≤ hbmBytes) :
    old = rdVal s.mem pa z ∧ t.mem = (match g old with
        | none => s.mem
        | some v => wrBytes s.mem pa (leBytes z v)) ∧ t.pend = s.pend := by
  obtain ⟨⟨bs, bad', u⟩, read, rest⟩ := act_bind_ok made
  cases State.homeRead_hbm read
  dsimp only at rest
  split at rest
  next => cases rest; exact nomatch good
  next =>
    split at rest
    next none =>
      cases rest
      rw [rdVal, none]
      exact ⟨rfl, rfl, rfl⟩
    next v some =>
      obtain ⟨w, wrote, eq⟩ := act_bind_ok rest
      cases State.homeWrite_hbm wrote
      cases eq
      have kept {α : Type} (q : State → α) (torn : ∀ (s : State) v, q { s with torn := v } = q s) (s : State) (l : Loc) (n : Nat) :
          q (s.publishLoc l n) = q s := by
        unfold State.publishLoc
        split
        · exact foldl_keeps q (fun _ _ => torn ..) _ s
        · rfl
      rw [rdVal, some, kept State.mem fun _ _ => rfl, kept State.pend fun _ _ => rfl]
      exact ⟨rfl, State.writeHbm_mem_within false (by rw [leBytes_length]; exact within), rfl⟩

/-- An atomic on memory: it follows the context's own stores to the location, whose bytes it then reads and writes. -/
theorem State.ctxAtomic_hbm {t : State} {k pa : Nat} {asid : Fin 16} {va : Nat} (within : pa + z ≤ hbmBytes)
    (done : s.ctxAtomic k (.hbm asid va pa) z g = .ok (old, false, t)) :
    ∃ u, s.drainLoc k (.hbm asid va pa) z = .ok u ∧ old = rdVal u.mem pa z ∧
      t.mem = (match g old with
        | none => u.mem
        | some v => wrBytes u.mem pa (leBytes z v)) ∧ t.pend = u.pend := by
  obtain ⟨u, drained, rest⟩ := act_bind_ok done
  refine ⟨u, drained, ?_⟩
  obtain ⟨⟨old', bad, w⟩, made, eq⟩ := act_bind_ok rest
  cases eq
  obtain ⟨value, mem, pend⟩ := State.homeAtomic_hbm made rfl within
  exact ⟨value, mem, pend⟩

end

/-! ## The forms and the operations (R222, R223) -/

section
variable {c : Ctl} {f : FM} {s t : State} {sc : Scope} {old : Nat} (hg : s.guard c = true) (hd : Claims.destOk s f.opd)
include hg hd

theorem exec_amo {op : AmoOp} (scope : s.scope f.scope (.amo c op f) = .ok sc)
    (done : s.scalarAmo (s.fmBase f) (scalarSize f.ta) f.ph sc (fun o => some (amoVal op (8 * scalarSize f.ta) o
      ((s.val f.opb).toNat % 2 ^ (8 * scalarSize f.ta)))) = .ok (old, t)) :
    exec (.amo c op f) s = .next (t.putS f.opd (BitVec.ofNat 64 old)).advance := by
  change execAmo c op f s = _
  rw [execAmo, run_true _ hg]
  simp only [checkDest_ok hd, scope, act_ok_bind, done]
  rfl

theorem exec_cas (scope : s.scope f.scope (.cas c f) = .ok sc)
    (done : s.scalarAmo (s.fmBase f) (scalarSize f.ta) f.ph sc (fun o =>
      if o = (s.val f.opd).toNat % 2 ^ (8 * scalarSize f.ta) then some ((s.val f.opb).toNat % 2 ^ (8 * scalarSize f.ta)) else none) =
        .ok (old, t)) :
    exec (.cas c f) s = .next (t.putS f.opd (BitVec.ofNat 64 old)).advance := by
  change execCas c f s = _
  rw [execCas, run_true _ hg]
  simp only [checkDest_ok hd, scope, act_ok_bind, done]
  rfl

end

theorem amoVal_patterns {w : Nat} (old b : BitVec w) : let r := fun op => BitVec.ofNat w (amoVal op w old.toNat b.toNat)
    r .add = old + b ∧ r .and = old &&& b ∧ r .or = old ||| b ∧ r .xor = old ^^^ b ∧ r .swap = b ∧
    r .min = (if b.slt old then b else old) ∧ r .max = (if old.slt b then b else old) ∧
    r .minn = (if b.ult old then b else old) ∧ r .maxn = (if old.ult b then b else old) := by
  have same (x : BitVec w) : BitVec.ofNat w x.toNat = x := BitVec.ofNat_toNat w x |>.trans (BitVec.setWidth_eq x)
  have signed (x : BitVec w) : intVal true w x.toNat = x.toInt := by rw [intVal_signed, same]
  have pick (p : Prop) [Decidable p] (x y : BitVec w) : BitVec.ofNat w (if p then x.toNat else y.toNat) = if p then x else y := by
    split <;> exact same _
  have least (x y : BitVec w) : min x.toNat y.toNat = if y.ult x then y.toNat else x.toNat := by
    simp only [BitVec.ult, decide_eq_true_eq]
    split <;> omega
  have greatest (x y : BitVec w) : max x.toNat y.toNat = if x.ult y then y.toNat else x.toNat := by
    simp only [BitVec.ult, decide_eq_true_eq]
    split <;> omega
  refine ⟨BitVec.eq_of_toNat_eq ?_, ?_, ?_, ?_, same b, ?_, ?_, ?_, ?_⟩
  · simp [amoVal]
  · exact (congrArg (BitVec.ofNat w) (BitVec.toNat_and ..).symm).trans (same _)
  · exact (congrArg (BitVec.ofNat w) (BitVec.toNat_or ..).symm).trans (same _)
  · exact (congrArg (BitVec.ofNat w) (BitVec.toNat_xor ..).symm).trans (same _)
  · simp only [amoVal, signed, pick, BitVec.slt, decide_eq_true_eq]
  · simp only [amoVal, signed, pick, BitVec.slt, decide_eq_true_eq]
  · simp only [amoVal, least, pick]
  · simp only [amoVal, greatest, pick]

end Sys2Proof.Machine

namespace Sys2Proof.Proofs
open Sys2Proof Sys2Proof.Machine Sys2Proof.Claims

/-- Settles O28: each form by its access, the access on memory by what it reads and writes there, and the operations on patterns. -/
theorem atomicResults : Obligations.AtomicResults := by
  unfold Obligations.AtomicResults
  refine ⟨fun c f s s1 s2 s3 s4 l sc old hg hd => ?_, fun w old b _ => amoVal_patterns old b⟩
  intro z b at_ loc published refreshed
  refine ⟨fun op scope done => exec_amo hg hd scope (State.scalarAmo_ok loc published done refreshed),
    fun scope done => exec_cas hg hd scope (State.scalarAmo_ok loc published done refreshed), fun asid va pa g hl within done => ?_⟩
  subst hl
  obtain ⟨u, drained, value, mem, pend⟩ := State.ctxAtomic_hbm within done
  exact ⟨u, drained, value, mem, fun p hp other => pend ▸ State.drainOver_pend drained p hp other⟩

end Sys2Proof.Proofs
end

section
/-! SUPPORT. What the atomics of a strip and the reductions into bins and remote memory answer under their checks, with the statement
about them (R209, R224, R244, R246, R247). -/

namespace Sys2Proof.Machine

section
variable {c : Ctl} {s : State} (hg : s.guard c = true)
include hg

/-! ## Atomics of a strip (R224) -/

theorem exec_vamo {op : AmoOp} {f : FM} {d x : Fld} {sc : Scope} {s1 s2 s3 s4 s5 : State} {rs : List (VElem × Ready)}
    (data : s.vecData (.vamo c op f) f true = .ok d) (index : s.field f.opb .fm 0 .int = .ok x)
    (scope : s.scope f.scope (.vamo c op f) = .ok sc) (pops : s.popAll [f.opd, f.opb] = .ok s1)
    (dataParity : s1.checkParity d (List.range s1.slen) = .ok ()) (indexParity : s1.checkParity x (List.range s1.slen) = .ok ())
    (checks : s1.vecCheck (d.width / 8) true true f.ff
      ((s1.planIndex f (d.width / 8) x).map fun e => { e with i1 := 0 }) = .ok (rs, s2))
    (published : (if f.ph && s2.inBody then s2.publish s2.key (elemsScope rs sc) else .ok s2) = .ok s3)
    (done : s3.atomicElems s (d.width / 8) (amoVal op d.width) (fun i => d.get (s3.core.row (s3.lane i))) rs = .ok s4)
    (refreshed : (if f.ph && s2.inBody then s4.refresh s4.key (elemsScope rs sc) else .ok s4) = .ok s5) :
    exec (.vamo c op f) s = .next (s5.residency rs).advance := by
  change execVamo c op f s = _
  rw [execVamo, run_true _ hg]
  simp only [data, index, scope, pops, dataParity, indexParity, checks, act_ok_bind]
  cases bounded : f.ph && s2.inBody with
  | false =>
    simp only [bounded, Bool.false_eq_true, if_false, Except.ok.injEq] at published refreshed
    subst published refreshed
    simp [done]
  | true =>
    simp only [bounded, if_true] at published refreshed
    simp [published, done, refreshed]

/-! ## Reductions into remote memory (R244) -/

theorem exec_scred_completes {f : FE} (sent : s.ctx.sends.contains s.issuerSlot = true) (acknowledged : s.sentBy s.key s.issuerSlot = []) :
    exec (.scred c f) s = .next (s.modCtx fun x => { x with sends := setDel x.sends s.issuerSlot }).advance := by
  change execScred c f s = _
  rw [execScred, run_true _ hg]
  simp only [sent, acknowledged, if_true]
  rfl

section
variable {f : FE} (start : s.ctx.sends.contains s.issuerSlot = false)
include start

theorem exec_scred_refused (bad : (s.feRegs f).getD 1 0 >>> 45 ≠ 0 ∨
    applyOk (scredOp ((s.feRegs f).getD 1 0)) (scredZ ((s.feRegs f).getD 1 0)) = false) :
    exec (.scred c f) s = .next (s.takeTrap { cause := .range, val := Instr.upper (.scred c f) }) := by
  change execScred c f s = _
  rw [execScred, run_true _ hg]
  dsimp only
  rw [if_neg (ne_true_of_eq_false start), if_pos (by simpa [or_comm] using bad)]
  rfl

theorem exec_scred_sends {es : List (Nat × Nat × Nat)} {s1 s2 : State} {w : Word} (word : w = (s.feRegs f).getD 1 0)
    (reserved : w >>> 45 = 0) (applies : applyOk (scredOp w) (scredZ w) = true)
    (entries : s.readEntries ((s.feRegs f).getD 0 0) (bitsAt w 42 3) (bitsAt w 0 32) 0 = .ok (es, s1))
    (checked : s.checkEntries (scredZ w) es none = .ok ())
    (sent : (trainsOf (scredZ w) es).foldl (fun (r : Option State) t => r.bind fun s' =>
      s'.send s'.ctx.ten s'.cur.core t.1 s'.asid false (scredOp w) (scredZ w) t.2 (.issuer s'.key s.issuerSlot)) (some s1) = some s2) :
    exec (.scred c f) s = .next (if es.isEmpty then s2.advance
      else s2.modCtx fun x => { x with sends := setAdd x.sends s.issuerSlot }) := by
  change execScred c f s = _
  rw [execScred, run_true _ hg]
  simp only [← word]
  rw [if_neg (ne_true_of_eq_false start), if_neg (by rw [reserved, applies]; decide)]
  simp only [entries, undo_ok, act_ok_bind, checked, sent]
  cases es <;> rfl

end

/-! ## Bins (R246, R247) -/

theorem exec_binap {f : FE} {d : BitVec 512} {n : Nat} {es : List (Nat × Nat × Nat)} {s1 s2 s3 s4 : State}
    (bins : s.binSet ((s.feRegs f).getD 0 0) (.binap c f) = .ok (d, s1)) (idle : s.replaying ((s.feRegs f).getD 0 0) = false)
    (window : s.needWindow (s.val f.opb) [0, 10] = .ok ()) (count : s1.scalarVal (s.val f.opb) 8 = .ok (n, s2))
    (entries : s2.readEntries (s.val f.opb + 8) (bitsAt (BinSet.ofBits d).rbase 54 3) n 0 = .ok (es, s3))
    (checked : s.checkEntries (BinSet.ofBits d).zlog es (some (Instr.upper (.binap c f))) = .ok ())
    (placed : s3.engDo (es.forM fun e => binPlace (s3.agentOf s3.key) (BinSet.ofBits d) e.2.1 e.1 (e.2.1 % 2 ^ 54)) = .ok ((), s4)) :
    exec (.binap c f) s = .next s4.advance := by
  change execBinap c f s = _
  rw [execBinap, run_true _ hg]
  simp only [bins, idle, window, count, entries, checked, placed, act_ok_bind, undo_ok, settle_ok, Bool.false_eq_true, if_false]

theorem exec_binpl_replays {f : FE} (started : s.ctx.sends.contains s.issuerSlot = true) : exec (.binpl c f) s =
    .next (if s.replayOf s.key s.issuerSlot then s.retrySends
      else (s.modCtx fun x => { x with sends := setDel x.sends s.issuerSlot }).advance) := by
  change execBinpl c f s = _
  rw [execBinpl, run_true _ hg]
  simp only [started, if_true]
  split <;> rfl

/-- The replay that a `binpl` starts (R247). -/
def State.replayGather (s : State) (p vis : Word) (d : BitVec 512) : Gather :=
  { id := s.nextId, ctx := s.key, slot := s.issuerSlot, bins := some (p, d), regs := .replicate 4 0, vis := vis
    agent := { s.agentOf s.key with who := .gather s.nextId }, ten := s.ctx.ten, pc := s.pc, engine := none, next := 0
    atEnd := false, record := none, faulted := false }

theorem exec_binpl_starts {f : FE} {sc : Scope} {d : BitVec 512} {s1 : State} (start : s.ctx.sends.contains s.issuerSlot = false)
    (scope : s.scope f.scope (.binpl c f) = .ok sc) (barrier : s.checkBarrier (s.val f.opb) = .ok ())
    (bins : s.binSet ((s.feRegs f).getD 0 0) (.binpl c f) = .ok (d, s1)) (idle : s.replaying ((s.feRegs f).getD 0 0) = false) :
    exec (.binpl c f) s = .next (State.modCtx { s1 with
      gathers := s1.gathers ++ [s1.replayGather ((s.feRegs f).getD 0 0) (s.val f.opb) d], nextId := s1.nextId + 1 } fun x =>
        { x with sends := setAdd x.sends s1.issuerSlot }) := by
  change execBinpl c f s = _
  rw [execBinpl, run_true _ hg]
  simp only [start, scope, barrier, bins, idle, act_ok_bind, undo_ok, Bool.false_eq_true, if_false]
  rfl

end

end Sys2Proof.Machine

namespace Sys2Proof.Proofs
open Sys2Proof Sys2Proof.Machine Sys2Proof.Claims

/-- Settles O29: each form by what its checks and its elements answer. -/
theorem vectorAtomicsAndReductions : Obligations.VectorAtomicsAndReductions := by
  unfold Obligations.VectorAtomicsAndReductions
  refine fun c s hg => ⟨fun op f d x sc s1 s2 s3 s4 s5 rs => exec_vamo hg, fun f => exec_scred_completes hg,
    fun f => exec_scred_refused hg, fun f es s1 s2 => ?sends, fun f d n es s1 s2 s3 s4 => exec_binap hg,
    fun f started => ⟨fun runs => ?runs, fun ended => ?ended⟩, fun f sc d s1 start scope barrier bins idle => ?starts⟩
  case sends =>
    intro rs w start reserved applies entries checked sent
    have done := exec_scred_sends hg start rfl reserved applies entries checked sent
    exact ⟨fun none => done.trans (by rw [none]; rfl), fun some => done.trans (by rw [if_neg (by simpa using some)])⟩
  case runs => exact (exec_binpl_replays hg started).trans (congrArg _ (if_pos runs))
  case ended => exact (exec_binpl_replays hg started).trans (congrArg _ (if_neg (ne_true_of_eq_false ended)))
  case starts =>
    refine ⟨_, s1.replayGather ((s.feRegs f).getD 0 0) (s.val f.opb) d, exec_binpl_starts hg start scope barrier bins idle, rfl, rfl,
      rfl, rfl, rfl, rfl, rfl, rfl, rfl, rfl, rfl, ?_, ?_⟩
    · refine (State.thread_modCtx (fun _ => ?_) fun _ => ?_).trans (State.thread_congr ?_ ?_) <;> rfl
    · rw [State.ctx_modCtx]
      rfl

end Sys2Proof.Proofs
end

section
/-! SUPPORT. What the end of a context and its records leave of a property that survives the writes of memory and of contexts, launches
and registers (R297, R316 to R318). -/

namespace Sys2Proof.Machine

/-- A property of states that survives also the writes of contexts, launches and registers, and of trap records. -/
structure RunClosed (I : State → Prop) : Prop extends MemClosed I where
  ctxs (s : State) (v : Table Ctx) : I s → I { s with ctxs := v }
  launches (s : State) (v : List Launch) : I s → I { s with launches := v }
  regs (s : State) (v : Regs) : I s → I { s with regs := v }
  kernels (s : State) (v : List Kernel) : I s → I { s with kernels := v }
  hist (s : State) (n : Nat) (f : Core → List Hist) : I s → I (s.modCoreAt n fun c => { c with hist := f c })
  stopped (s : State) (q : Fin 4) : I s → I (s.modQuarter q fun x => { x with stopped := true })
  record (s : State) (q : Fin 4) (r : TrapRec) : (s.quarter q).occupancy < 256 → I s → I (s.modQuarter q fun x => x.writeRecord r)

section
variable {I : State → Prop} (closed : RunClosed I)
include closed

theorem RunClosed.modCtxAt {s : State} (h : I s) (k : Nat) (f : Ctx → Ctx) : I (s.modCtxAt k f) := closed.ctxs _ _ h
theorem RunClosed.modCtx {s : State} (h : I s) (f : Ctx → Ctx) : I (s.modCtx f) := closed.ctxs _ _ h
theorem RunClosed.modRegs {s : State} (h : I s) (f : Regs → Regs) : I (s.modRegs f) := closed.regs _ _ h
theorem RunClosed.setGang {s : State} (h : I s) (l g : Nat) (f : Gang → Gang) : I (s.setGang l g f) := closed.launches _ _ h
theorem RunClosed.logError {s : State} (h : I s) (code outcome : Nat) (base : Bool) (unit addr : Nat) :
    I (s.logError code outcome base unit addr) := closed.regs _ _ h

theorem RunClosed.containedStop {s : State} (h : I s) (q : Fin 4) (cause seq : Nat) : I (s.containedStop q cause seq) := by
  unfold State.containedStop
  split
  · exact h
  · exact closed.modRegs (closed.stopped _ _ h) _

theorem RunClosed.putRecord {s t : State} (h : I s) {q : Fin 4} {r : TrapRec} (put : s.putRecord q r = some t) : I t := by
  unfold State.putRecord at put
  dsimp only at put
  have limit : (if r.cls = 2 then 256 else 248) ≤ 256 := by split <;> decide
  generalize (if r.cls = 2 then 256 else 248) = most at put limit
  split at put
  · exact nomatch put
  · split at put
    next room => exact Option.some.inj put ▸ closed.record _ _ _ (by omega) h
    next =>
      split at put
      · exact Option.some.inj put ▸ closed.containedStop h ..
      · exact nomatch put

theorem RunClosed.leaveDirty (k : Nat) (t : Trap) {s : State} (h : I s) : Leaves I I (State.leaveDirty k t s) := by
  unfold State.leaveDirty
  dsimp only
  split
  next put =>
    split
    · exact closed.logError (closed.putRecord h put) ..
    · exact closed.putRecord h put
  next => exact h

theorem RunClosed.settleGang {s : State} (h : I s) (l g : Nat) : I (s.settleGang l g) := by
  unfold State.settleGang
  split
  · exact closed.setGang h ..
  · exact h

omit closed in
theorem MemClosed.withRequests (closed : MemClosed I) {s : State} (h : I s) (core : Nat) (t : State) : I (s.withRequests core t) :=
  closed.core _ _ _ (fun _ => ⟨rfl, id⟩) (closed.ring _ _ _ h)

theorem RunClosed.tryEnd {s : State} (h : I s) (k : Nat) : I (s.tryEnd k) := by
  have mem := closed.toMemClosed
  unfold State.tryEnd
  split
  · exact h
  · have boundary : Leaves I I (s.drainAct k >>= fun s =>
        if s.unacked k (doneScopeOf (s.ctxAt k).ten.doneScope) = true then hold s
        else s.flushEnd (coreOfCtx k) (.stash (coreOfCtx k)) (State.leaveDirty k)) := by
      refine (mem.drainAct h k).bind fun t ht => ?_
      split
      · exact ht
      · exact mem.flushEnd ht _ _ fun t s h => closed.leaveDirty k t h
    dsimp only
    split
    next made => exact closed.settleGang (closed.modCtxAt (mem.publishHistory (boundary.of_ok made) ..) ..) ..
    next => exact mem.withRequests h ..
    next => exact h

theorem RunClosed.endCtx {s : State} (h : I s) (k : Nat) : I (s.endCtx k) :=
  closed.tryEnd (closed.kernels _ _ (closed.hist _ _ (fun c => c.hist.filter fun h => h.lc.val != lcOfCtx k) (closed.modCtxAt h k _))) k

end

end Sys2Proof.Machine
end

section
/-! SUPPORT. The trap queue: what holds a record, what the owner's writes make of the records, and the statement about them (R314,
R316, R317). -/

namespace Sys2Proof.Machine

/-! ## Held records (R317) -/

section
variable {s : State} {q : Fin 4} (room : (s.quarter q).occupancy < 248) (runs : (s.quarter q).stopped = false)
include room runs

/-- While the queue has room, a record can be dealt with. -/
theorem State.postable_room (r : TrapRec) : s.postable q (some r) = true := by
  have limit : (s.quarter q).occupancy < if r.cls = 2 then 256 else 248 := by split <;> omega
  simp [State.postable, State.putRecord, runs, limit]

variable {α : Type} {rec_ : α → Option TrapRec} {xs : List α}

theorem firstHeld_some {x : α} {r : TrapRec} (found : xs.find? (fun x => (rec_ x).isSome) = some x) (held : rec_ x = some r) :
    firstHeld s q rec_ xs = some (x, r) := by
  induction xs with
  | nil => exact nomatch found
  | cons y ys ih =>
    rw [firstHeld, List.findSome?_cons]
    rw [List.find?_cons] at found
    cases hy : rec_ y with
    | none =>
      rw [hy] at found
      exact ih found
    | some r' =>
      rw [hy] at found
      obtain rfl := Option.some.inj found
      obtain rfl := Option.some.inj (hy.symm.trans held)
      simp only [State.postable_room room runs, if_true]

omit room runs in
theorem firstHeld_none (no : xs.find? (fun x => (rec_ x).isSome) = none) : firstHeld s q rec_ xs = none := by
  refine List.findSome?_eq_none_iff.2 fun x hx => ?_
  have free : rec_ x = none := by simpa using List.find?_eq_none.1 no x hx
  simp only [free]

end

/-! ## Records acted on (R316) -/

theorem look_map_entry {α : Type} (m : List (Nat × α)) (k : Nat) (f : α → α) :
    look (m.map fun x => if x.1 = k then (x.1, f x.2) else x) k = (look m k).map f := by
  induction m with
  | nil => rfl
  | cons x m ih =>
    by_cases h : x.1 = k
    · simp [look, h]
    · simp only [List.map_cons, if_neg h, look, ih]

theorem Quarter.actable_markActed (x : Quarter) (seq : BitVec 32) : (x.markActed seq).actable seq = none := by
  have entry : look (x.markActed seq).ring (seq.toNat % 256) = (look x.ring (seq.toNat % 256)).map fun e => (e.1, true) :=
    look_map_entry x.ring (seq.toNat % 256) fun e => (e.1, true)
  unfold Quarter.actable
  rw [entry]
  cases look x.ring (seq.toNat % 256) <;> rfl

/-- A record written for a later number takes no entry that a given number may be acted on with. -/
theorem Quarter.actable_writeRecord {x : Quarter} {seq : BitVec 32} (acted : x.actable seq = none) (later : x.tqprod ≠ seq)
    (r : TrapRec) : (x.writeRecord r).actable seq = none := by
  by_cases same : seq.toNat % 256 = x.tqprod.toNat % 256
  · rw [Quarter.actable, Quarter.writeRecord, same]
    simp [later]
  · have entry : look (x.writeRecord r).ring (seq.toNat % 256) = look x.ring (seq.toNat % 256) := look_put_ne _ _ same
    unfold Quarter.actable at acted ⊢
    rwa [entry]


/-- A quarter apart from what a boundary may change of it besides its records. -/
def Quarter.bare (x : Quarter) : Quarter := { x with l2 := [], stopped := false }

/-- Number seq has been acted on, and the records written since number p do not lap the queue. -/
def Quarter.acted (p c seq : BitVec 32) (x : Quarter) : Prop :=
  x.tqcons = c ∧ (∃ j : Nat, x.tqprod = p + BitVec.ofNat 32 j ∧ (j = 0 ∨ (p - c).toNat + j ≤ 256)) ∧ x.actable seq = none

theorem Quarter.acted_bare {p c seq : BitVec 32} {x : Quarter} : x.bare.acted p c seq ↔ x.acted p c seq := Iff.rfl

/-- One record more, with room for it, does not lap the queue. -/
theorem Quarter.acted_writeRecord {p c seq : BitVec 32} {x : Quarter} (h : x.acted p c seq) (low : 1 ≤ (p - seq).toNat)
    (high : (p - seq).toNat ≤ 256) (room : x.occupancy < 256) (r : TrapRec) : (x.writeRecord r).acted p c seq := by
  obtain ⟨rfl, ⟨j, number, few⟩, acted⟩ := h
  have fits : (p - x.tqcons).toNat + j < 256 := by
    rw [Quarter.occupancy, number] at room
    bv_omega
  refine ⟨rfl, ⟨j + 1, ?_, Or.inr (by omega)⟩, Quarter.actable_writeRecord acted ?_ r⟩
  · change x.tqprod + 1 = _
    rw [number]
    bv_omega
  · rw [number]
    bv_omega

/-- The end of a context leaves a number acted on. -/
theorem Quarter.acted_closed (q : Fin 4) {p c seq : BitVec 32} (low : 1 ≤ (p - seq).toNat) (high : (p - seq).toNat ≤ 256) :
    RunClosed fun s => (s.quarter q).acted p c seq :=
  { MemClosed.of_part (fun s => (s.quarter q).bare) (fun x => x.acted p c seq) (fun _ _ _ _ _ _ _ _ _ _ => rfl)
      (fun _ _ _ _ => rfl) (fun _ _ _ _ => rfl) (fun s r f => by
        by_cases h : q = r
        · subst h
          rw [State.quarter_modQuarter_same]
          rfl
        · rw [State.quarter_modQuarter_ne _ _ h]) with
    ctxs := fun _ _ h => h
    launches := fun _ _ h => h
    regs := fun _ _ h => h
    kernels := fun _ _ h => h
    hist := fun _ _ _ h => h
    stopped := fun s r h => by
      by_cases same : q = r
      · subst same
        rw [State.quarter_modQuarter_same]
        exact h
      · rwa [State.quarter_modQuarter_ne _ _ same]
    record := fun s r x room h => by
      by_cases same : q = r
      · subst same
        rw [State.quarter_modQuarter_same]
        exact Quarter.acted_writeRecord h low high room x
      · rwa [State.quarter_modQuarter_ne _ _ same] }

/-! ## TQCONS and TQACT (R316) -/

theorem tqactSeq (v : Word) : (v &&& ~~~(w64 (2 ^ 32))).extractLsb' 0 32 = v.setWidth 32 ∧
    (v ||| w64 (2 ^ 32)).extractLsb' 0 32 = v.setWidth 32 := by
  have low (i : Nat) (h : i < 32) : (w64 4294967296).getLsbD i = false := by
    rw [w64, show (4294967296 : Nat) = 2 ^ 32 from rfl, BitVec.getLsbD_ofNat, Nat.testBit_two_pow_of_ne (by omega), Bool.and_false]
  constructor <;> (ext i h; simp [low i h, ← BitVec.getLsbD_eq_getElem, show i < 64 by omega])

section
variable {m q : Fin 4} {v : Word} {s : State} (own : s.owner.own = m.val)
include own

theorem exec_tqconsWrite_takes (within : ((s.quarter q).tqprod - v.setWidth 32).toNat ≤ 256) :
    ∃ t, exec (.tqconsWrite m q v) s = .next t ∧
      (t.quarter q).tqcons = v.setWidth 32 ∧ (t.quarter q).tqprod = (s.quarter q).tqprod ∧ t.mem = s.mem := by
  have low : v.extractLsb' 0 32 = v.setWidth 32 := BitVec.setWidth_eq_extractLsb' (by decide) |>.symm
  obtain ⟨t, next, ⟨mem, _, _⟩, cons, prod⟩ := quarterWrite_takes own
    (p := fun x => x.tqcons = v.setWidth 32 ∧ x.tqprod = (s.quarter q).tqprod) (off := quarterOff q 4) (v := v)
    (f := fun s =>
      let c : BitVec 32 := v.extractLsb' 0 32
      if 256 < ((s.quarter q).tqprod - c).toNat then none else some (s.modQuarter q fun x => { x with tqcons := c }))
    (if_neg (by rw [low]; omega)) ⟨low, rfl⟩
  exact ⟨t, next, cons, prod, mem⟩

theorem exec_tqconsWrite_refused (beyond : 256 < ((s.quarter q).tqprod - v.setWidth 32).toNat) :
    exec (.tqconsWrite m q v) s = .next (s.refuse m (quarterOff q 4) v 2) := by
  have low : v.extractLsb' 0 32 = v.setWidth 32 := BitVec.setWidth_eq_extractLsb' (by decide) |>.symm
  exact ownerWrite_refuses own (if_pos (by rwa [low])) rfl

variable {r : TrapRec} (held : (s.quarter q).actable (v.setWidth 32) = some r) (ofCtx : r.card = none)
  (stalled : (s.ctxAt (ctxNum r.core r.ctx)).stalledFor (v.setWidth 32) = true)
include held ofCtx stalled

theorem exec_tqactReplay_stalled : exec (.tqactReplay m q v) s =
    .next (((s.modQuarter q fun x => x.markActed (v.setWidth 32)).modCtxAt (ctxNum r.core r.ctx) Ctx.replay).accept m) := by
  refine congrArg Host.Outcome.next (State.ownerWrite_done own ?_)
  simp only [if_true, (tqactSeq v).1, held, Option.map_some, ofCtx]
  exact congrArg some (if_pos stalled)

theorem exec_tqactTerminate_stalled : exec (.tqactTerminate m q v) s =
    .next (((s.modQuarter q fun x => x.markActed (v.setWidth 32)).endCtx (ctxNum r.core r.ctx)).accept m) := by
  refine congrArg Host.Outcome.next (State.ownerWrite_done own ?_)
  simp only [Bool.false_eq_true, if_false, (tqactSeq v).2, held, Option.map_some, ofCtx]
  exact congrArg some (if_pos stalled)

end

/-! ## Held records by their holder (R317) -/

section
variable {q : Fin 4} {s : State} (room : (s.quarter q).occupancy < 248) (runs : (s.quarter q).stopped = false)
include room runs

/-- The holders of a kind, when none of them holds a record or the first that does holds r. -/
theorem firstHeld_filter {α : Type} {rec_ : α → Option TrapRec} {here : α → Bool} {xs : List α} :
    (∀ x r, xs.find? (fun x => here x && (rec_ x).isSome) = some x → rec_ x = some r →
      firstHeld s q rec_ (xs.filter here) = some (x, r)) ∧
    (xs.find? (fun x => here x && (rec_ x).isSome) = none → firstHeld s q rec_ (xs.filter here) = none) :=
  ⟨fun x r found held => firstHeld_some room runs (by simpa [List.find?_filter] using found) held,
    fun no => firstHeld_none (by simpa [List.find?_filter] using no)⟩

theorem firstHeld_resident {k : Nat} {x : Ctx} {r : TrapRec}
    (found : s.ctxs.find? (fun c => quarterOf (coreOfCtx c.1) == q && c.2.heldRecord.isSome) = some (k, x))
    (held : x.record = some r) :
    firstHeld s q (fun c => c.2.heldRecord) (s.ctxs.filter fun c => quarterOf (coreOfCtx c.1) == q) = some ((k, x), r) := by
  refine (firstHeld_filter room runs).1 (k, x) r found ?_
  have some_held : x.heldRecord.isSome = true := (Bool.and_eq_true _ _ ▸ List.find?_some found).2
  obtain ⟨r', is⟩ := Option.isSome_iff_exists.1 some_held
  rw [is, ← held]
  exact ((Option.filter_eq_some_iff.1 is).1).symm

end

end Sys2Proof.Machine

namespace Sys2Proof.Proofs
open Sys2Proof Sys2Proof.Machine Sys2Proof.Claims

/-- Settles O44: a held record goes out from the first holder there is; the owner's writes change the queue's counts and the context
that a record names, and no record that the context's end writes makes the number one to act on again. -/
theorem trapQueueResults : Obligations.TrapQueueResults := by
  unfold Obligations.TrapQueueResults
  refine ⟨fun q s room runs => ⟨?_, ?_, ?_, ?_⟩, fun m q v s own => ⟨exec_tqconsWrite_takes own, fun beyond => ?_,
    fun r held ofCtx stalled => ⟨?_, ?_⟩⟩⟩
  · intro k x r found held
    change execTrapRecordWrite q s = _
    rw [execTrapRecordWrite, firstHeld_resident room runs found held]
  · intro x k y r resident found held
    change execTrapRecordWrite q s = _
    rw [execTrapRecordWrite, (firstHeld_filter room runs).2 resident, firstHeld_some room runs found held]
  · intro x r resident saved found held
    change execTrapRecordWrite q s = _
    rw [execTrapRecordWrite, (firstHeld_filter room runs).2 resident, firstHeld_none saved, firstHeld_some room runs found held]
  · intro x r resident saved card found held
    change execTrapRecordWrite q s = _
    rw [execTrapRecordWrite, (firstHeld_filter room runs).2 resident, firstHeld_none saved, firstHeld_none card,
      (firstHeld_filter room runs).1 x r found held]
  · exact ⟨_, exec_tqconsWrite_refused own beyond, rfl, State.status_refuse _ _ _ _ (by decide)⟩
  · refine ⟨_, exec_tqactReplay_stalled own held ofCtx stalled, ?_, ?_, ?_, rfl⟩
    · rw [State.ctxAt, State.accept_ctxs, ← State.ctxAt, State.ctxAt_modCtxAt_same]
      rfl
    · rw [State.ctxAt, State.accept_ctxs, ← State.ctxAt, State.ctxAt_modCtxAt_same]
      rfl
    · rw [State.accept_quarter, State.quarter_modCtxAt, State.quarter_modQuarter_same]
      exact Quarter.actable_markActed ..
  · refine ⟨_, exec_tqactTerminate_stalled own held ofCtx stalled, ?_, fun low high => ?_⟩
    · rw [State.ctxAt, State.accept_ctxs, ← State.ctxAt, State.endCtx_ctxAt Ctx.status fun _ _ => rfl]
      rfl
    · have closed := Quarter.acted_closed q (c := (s.quarter q).tqcons) low high
      have marked : ((s.modQuarter q fun x => x.markActed (v.setWidth 32)).quarter q).acted (s.quarter q).tqprod
          (s.quarter q).tqcons (v.setWidth 32) := by
        rw [State.quarter_modQuarter_same]
        exact ⟨rfl, ⟨0, (BitVec.add_zero _).symm, Or.inl rfl⟩, Quarter.actable_markActed ..⟩
      rw [State.accept_quarter]
      exact (closed.endCtx marked (ctxNum r.core r.ctx)).2.2

end Sys2Proof.Proofs
end

section
/-! SUPPORT. A stop of a gang that releases the elements of a train of another gang, and the statement about swaps (R281, R308, R309,
R323). -/

namespace Sys2Proof.Machine

/-- The gang that is being stopped: number 0 of launch 2, on core 0. -/
def stoppedGang : Gang := { Gang.fresh 0 0 0 [] with fate := .running, cores := [0] }
def stoppedLaunch : Launch :=
  { id := 2, quarter := 0, record := 0, asid := 0, ready := true, withdrawn := false, lost := false, journal := none
    gangs := [stoppedGang] }

/-- Context 4, of another gang, waits in its handler for the train of a `scred`. -/
def senderCtx : Ctx := { Ctx.reset with status := .handler, sends := [0], ten := { Tenancy.reset with launch := 3, gang := 0 } }

/-- The train, with an element on an INVALID page. -/
def senderTrain : Train := { srcDev := 0, src := 1, seq := 0, asid := 0, write := false, op := 0, zlog := 2, elems := [{ va := 0, val := 1, bad := false }] }

/-- A kernel of another strip of that context, which waits for its claim. -/
def senderKernel : Kernel :=
  { id := 1, ctx := 4, lg := some 1, pd := 0, prog := [], progAt := 0, xbase := 0, rbase := 0, rlines := 0, frames := [], pinned := []
    statAt := [], stat := 0, vis := 0, agent := { core := 1, who := .host, issuer := none, tlb := 0, asid := 0, pbase := 0, psize := 0 }
    ten := senderCtx.ten, pc := 0, stage := .queued, fail := none, units := [] }

def stopSwap : Swap := { outLaunch := 2, outGang := 0, inLaunch := 5, inGang := 0, step := 1, noted := false }

def stopState : State :=
  { State.reset with
    launches := [stoppedLaunch], kernels := [senderKernel]
    ctxs := [(0, { Ctx.reset with status := .running, ten := { Tenancy.reset with launch := 2, gang := 0 } }), (4, senderCtx)]
    sent := [{ launch := 3, gang := 0, dest := 0, plane := 0, train := senderTrain, owner := .issuer 4 0, faulted := false }]
    parked := [{ train := senderTrain, rest := senderTrain.elems }] }.modQuarter 0 fun x => { x with swap := some stopSwap }

/-- The kernels that a step leaves. -/
def kernelsAfter : Out → List Kernel
  | .next t => t.kernels
  | _ => []

/-- The stop releases the train's element, whose page is INVALID: its sender traps in its handler, which ends it, and its waiting
kernel goes (R173, R281). -/
theorem kernelsAfter_stopState : kernelsAfter (exec (.stopPointReached 0) stopState) = [] := by decide +kernel

theorem stopState_outgoing : stopState.outgoing stopSwap = some (stoppedLaunch, stoppedGang) := by decide +kernel

theorem stopState_quiet : (stopState.gangCtxs 2 0).any stopState.busyAt = false ∧
    (stopState.aloneCores stoppedLaunch stoppedGang).any (stopState.stashWork stoppedLaunch stoppedGang) = false := by
  constructor <;> decide +kernel

theorem stopState_kept : (stopState.kernels.filter fun k => !k.stage.waits || !(stopState.gangCtxs 2 0).contains k.ctx) =
    [senderKernel] := by decide +kernel

end Sys2Proof.Machine

namespace Sys2Proof.Proofs
open Sys2Proof Sys2Proof.Machine Sys2Proof.Claims

/-- Refutes O43: the stop point of a gang applies the elements of trains that its waiting kernels' claims held back, and an element
that faults ends its sender, a context of another gang, whose waiting kernels go as well; the statement keeps them. -/
theorem not_swapSteps : ¬ Obligations.SwapSteps := by
  unfold Obligations.SwapSteps
  rintro ⟨_, _, _, steps⟩
  obtain ⟨_, stop, _⟩ := steps 0 stopState stopSwap (by decide +kernel)
  obtain ⟨t, next, _, _, kept⟩ :=
    stop stoppedLaunch stoppedGang stopState_outgoing rfl rfl stopState_quiet.1 stopState_quiet.2
  have gone := kernelsAfter_stopState
  rw [next, show kernelsAfter (.next t) = t.kernels from rfl, kept] at gone
  exact absurd (stopState_kept.symm.trans gone) (List.cons_ne_nil _ _)

end Sys2Proof.Proofs
end

section
/-! SUPPORT. A journal whose entry lies beyond the stacks, and the statement about `launch` and the acceptance of records (R294, R374). -/

namespace Sys2Proof.Machine

/-- A well-formed record of one gang of one context on loop context 0. -/
def plainRecord : Rec :=
  BitVec.ofNat 2048 (1 + 2 ^ 6 + 2 ^ 10 + 2 ^ 16 + 4 * 2 ^ 24 + 2 ^ 96 + 0x1000 * 2 ^ 128 + 2 * 2 ^ 768 + 2 ^ 896)

theorem plainRecord_wellFormed : wellFormedRecord plainRecord = true := by decide +kernel

/-- A device whose quarter 0 has a journal of 16 entries at the last address that JBASE can hold, beyond the stacks. -/
def highJournal : State := State.reset.modQuarter 0 fun x => { x with jbase := 0xFFFFFF, jsize := 16 }

theorem highJournal_room : ¬(4096 ≤ (highJournal.launches.filter fun l => l.quarter == 0).length ∨
    (highJournal.quarter (Fin.ofNat 4 0)).journalFull = true) := by decide +kernel

/-- The record is accepted, and no byte of memory changes. -/
theorem offer_highJournal : (highJournal.offer plainRecord 0 0 0).2.mem = [] := by decide +kernel

/-- The entry as the statement has it: its first byte is not 0. -/
theorem highJournal_entry : rdByte (wrBytes highJournal.mem
    ((highJournal.quarter (Fin.ofNat 4 0)).journalEntry (highJournal.quarter (Fin.ofNat 4 0)).jprod)
    (journalBytes plainRecord (highJournal.quarter (Fin.ofNat 4 0)).jprod 0))
    ((highJournal.quarter (Fin.ofNat 4 0)).journalEntry (highJournal.quarter (Fin.ofNat 4 0)).jprod) = 0x41 := by decide +kernel

end Sys2Proof.Machine

namespace Sys2Proof.Proofs
open Sys2Proof Sys2Proof.Machine Sys2Proof.Claims

/-- Refutes O40: JBASE can name an address beyond the stacks, where a journal entry is written nowhere, while the statement has its
512 bytes in memory whatever JBASE holds. -/
theorem not_launchResults : ¬ Obligations.LaunchResults := by
  unfold Obligations.LaunchResults
  rintro ⟨_, offers⟩
  obtain ⟨_, _, accepted⟩ := offers highJournal plainRecord 0 0 0
  obtain ⟨t, l, offered, _, _, _, _, _, _, _, _, _, journal⟩ := accepted plainRecord_wellFormed highJournal_room
  obtain ⟨_, written, _⟩ := journal (by decide +kernel)
  have none : t.mem = [] := (congrArg (fun x => x.2.mem) offered).symm.trans offer_highJournal
  have entry := highJournal_entry
  rw [← written, none] at entry
  exact absurd entry (by decide)

end Sys2Proof.Proofs
end

section
/-! SUPPORT. Withdrawal by tag, the host launch windows, and the statement about them (R298, R299, R302, R303, R351). -/

namespace Sys2Proof.Machine

/-! ## Withdrawal (R302, R303) -/

theorem exec_withdraw {c : Ctl} {f : FE} {s : State} (go : s.guard c = true) (dest : Claims.destOk s f.opd) :
    exec (.withdraw c f) s = .next ((s.withdrawTag (bitsAt (s.val f.opa) 0 32)).2.putS f.opd
      (s.withdrawTag (bitsAt (s.val f.opa) 0 32)).1).advance := by
  change execWithdraw c f s = _
  rw [execWithdraw, run_true _ go]
  simp only [checkDest_ok dest]
  rfl

theorem State.withdrawTag_zero (s : State) : s.withdrawTag 0 = (0, s) := by
  have none_hit : (s.launches.filter fun l => (0 : Nat) != 0 && rTag l.record == 0) = [] := by simp
  unfold State.withdrawTag
  rw [none_hit]
  rfl

/-- No gang of a launch waits. -/
def Launch.noneWaits (l : Launch) : Prop := ∀ g ∈ l.gangs, g.fate ≠ .waiting

theorem Launch.withdraw_noneWaits (l : Launch) : l.withdraw.noneWaits := by
  intro g hg
  obtain ⟨g', -, rfl⟩ := List.mem_map.1 hg
  unfold Gang.remove
  split
  · exact fun h => nomatch h
  · assumption

/-- The launches of a store after each of some has been withdrawn: those are withdrawn, and none comes to wait. -/
theorem withdrawn_launches (hit : List Launch) (s : State) (tag : Nat)
    (some_hit : ∀ l ∈ s.launches, rTag l.record = tag → l.noneWaits ∨ ∃ x ∈ hit, x.id = l.id) :
    ∀ l ∈ (hit.foldl (fun s l => s.modLaunch l.id Launch.withdraw) s).launches, rTag l.record = tag → l.noneWaits := by
  induction hit generalizing s with
  | nil => exact fun l hl tagged => (some_hit l hl tagged).resolve_right fun ⟨_, hx, _⟩ => nomatch hx
  | cons x hit ih =>
    refine ih _ fun l hl tagged => ?_
    obtain ⟨l', hl', rfl⟩ := List.mem_map.1 hl
    by_cases own : l'.id = x.id
    · rw [if_pos own]
      exact Or.inl l'.withdraw_noneWaits
    · rw [if_neg own] at tagged ⊢
      exact (some_hit l' hl' tagged).imp_right fun ⟨y, hy, same⟩ =>
        ⟨y, (List.mem_cons.1 hy).resolve_left fun is => own (is ▸ same.symm), same⟩

theorem State.withdrawTag_noneWaits (s : State) {tag : Nat} (named : tag ≠ 0) :
    ∀ l ∈ (s.withdrawTag tag).2.launches, rTag l.record = tag → l.noneWaits := by
  refine foldl_closed (I := fun t : State => ∀ l ∈ t.launches, rTag l.record = tag → l.noneWaits) (fun t l h => ?_) _ ?_
  · split
    · split
      · cases done : t.finishLaunch _ 3 with
        | none => exact h
        | some u => exact State.finishLaunch_launches h done
      · exact h
    · exact h
  · exact withdrawn_launches _ s tag fun l hl tagged =>
      Or.inr ⟨l, List.mem_filter.2 ⟨hl, by simp [named, tagged]⟩, rfl⟩

theorem State.withdrawTag_count (s : State) {tag : Nat} (named : tag ≠ 0) :
    let hit := s.launches.filter fun l => rTag l.record == tag
    (s.withdrawTag tag).1 = BitVec.ofNat 64
      ((hit.map fun l => (l.gangs.filter fun g => g.fate == .waiting).length).sum % 2 ^ 32 +
        (hit.filter Launch.whollyWithdrawn).length * 2 ^ 32) := by
  have same : (fun l : Launch => tag != 0 && rTag l.record == tag) = fun l => rTag l.record == tag := by
    funext l
    simp [named]
  unfold State.withdrawTag
  rw [same]
  rfl

/-! ## Host launch windows (R299, R351) -/

@[simp] theorem State.offer_host (s : State) (r : Rec) (q : Nat) (a : Fin 16) (o : Nat) : (s.offer r q a o).2.host = s.host := by
  unfold State.offer
  dsimp only
  split
  · rfl
  · split
    · rfl
    · split <;> rfl

section
variable {w : Fin 64} {off : Nat} {bytes : List Byte} {dmwr : Bool} {s : State} (fits : off + bytes.length ≤ 256) (some_ : bytes ≠ [])

/-- The host's part with the bytes of a write. -/
def HostLink.written (h : HostLink) (w : Fin 64) (off : Nat) (bytes : List Byte) (dmwr : Bool) : HostLink :=
  { h with windows := wrBytes h.windows (windowAddr w + off) bytes, aborted := if dmwr then false else h.aborted }

include fits some_

theorem exec_hostWindowWrite_owner (own : s.owner.own = 0) : exec (.hostWindowWrite w off bytes dmwr) s =
    .next (if off + bytes.length = 256 then State.commitWindow { s with host := s.host.written w off bytes dmwr } w dmwr
      else { s with host := s.host.written w off bytes dmwr }) :=
  (if_neg (by simpa using ⟨fits, some_⟩)).trans (if_neg (by simp [own]))

theorem exec_hostWindowWrite_refused (foreign : s.owner.own ≠ 0) :
    exec (.hostWindowWrite w off bytes dmwr) s = .next (s.hostRefuse (windowAddr w + off) bytes dmwr) :=
  (if_neg (by simpa using ⟨fits, some_⟩)).trans (if_pos (by simpa using foreign))

end

end Sys2Proof.Machine

namespace Sys2Proof.Proofs
open Sys2Proof Sys2Proof.Machine Sys2Proof.Claims

/-- Settles O41: a launch with the tag is withdrawn, so none of its gangs waits; a window takes the bytes, and its last byte offers
the record; a launch that completes leaves its store. -/
theorem withdrawalAndWindows : Obligations.WithdrawalAndWindows := by
  unfold Obligations.WithdrawalAndWindows
  refine ⟨⟨fun c f s go dest => exec_withdraw go dest, fun tag s own => ?_, fun s tag => ⟨s.withdrawTag_zero, fun named =>
    ⟨s.withdrawTag_count named, s.withdrawTag_noneWaits named⟩⟩⟩, fun w off bytes dmwr s fits some_ =>
      ⟨fun own before => ?_, fun own whole => ?_, fun foreign => ?_⟩, fun s t l n found isOver done => ⟨?_, ?_⟩⟩
  · exact ⟨_, if_neg (by simp [own]), rfl, rfl⟩
  · refine ⟨_, (exec_hostWindowWrite_owner fits some_ own).trans (congrArg _ (if_neg (by omega))), rfl, rfl, rfl, fun a => ?_⟩
    exact (rdByte_wrBytes ..).trans (by rw [windowAddr, Nat.mul_comm])
  · have last := (exec_hostWindowWrite_owner (w := w) (dmwr := dmwr) fits some_ own).trans (congrArg Host.Outcome.next (if_pos whole))
    rw [Nat.mul_comm 256 w.val]
    by_cases mgmt : s.regs.mgmtOnly = true
    · refine ⟨_, s, 3, last.trans (congrArg _ (if_pos mgmt)), fun _ => ⟨rfl, rfl, rfl⟩, fun no => absurd mgmt (by simp [no]),
        vget_set_same .., fun v other => vget_set_ne _ _ other⟩
    · refine ⟨_, _, _, last.trans (congrArg _ (if_neg mgmt)), fun yes => absurd yes mgmt, fun _ => ⟨rfl, rfl, rfl⟩, ?_, fun v other => ?_⟩
      · simp only [State.offer_host]
        exact vget_set_same ..
      · simp only [State.offer_host]
        exact vget_set_ne _ _ other
  · refine ⟨_, exec_hostWindowWrite_refused fits some_ foreign, ?_⟩
    cases dmwr <;> exact ⟨rfl, rfl, rfl, rfl, rfl⟩
  · change execLaunchComplete n s = _
    rw [execLaunchComplete, found]
    exact (if_pos isOver).trans (congrArg (fun x => Host.Outcome.next (x.getD s.settleLaunches)) done)
  · have own : l.id = n := by simpa using List.find?_some found
    obtain ⟨u, -, rfl⟩ := Option.map_eq_some_iff.1 done
    intro x hx
    have kept : x ∈ u.launches.filter fun x => x.id != l.id := by
      split at hx <;> exact hx
    simpa [own] using (List.mem_filter.1 kept).2

end Sys2Proof.Proofs
end

section
/-! SUPPORT. Windows, ports and flits, and the statement about trains and links (R244, R245, R323, R352 to R355). -/

namespace Sys2Proof.Machine

/-! ## The window of a pair (R245) -/

/-- A number that has been marked is dropped when it comes again. -/
theorem Win.take_take {w x : Win} {seq : BitVec 32} (fresh : w.take seq = .apply x) : x.take seq = .drop := by
  unfold Win.take at fresh
  dsimp only at fresh
  split at fresh
  · obtain rfl := Fate245.apply.inj fresh
    simp [Win.take]
  next old =>
    split at fresh
    · exact nomatch fresh
    next near =>
      obtain rfl := Fate245.apply.inj fresh
      unfold Win.take
      dsimp only
      rw [if_neg old]
      generalize (-(seq - w.h).toInt).toNat = i at near
      have low : i < 64 := by
        by_contra far
        exact near (by simp [Nat.le_of_not_lt far])
      have marked : (w.marks ||| BitVec.ofNat 64 (2 ^ i)).getLsbD i = true := by
        rw [BitVec.getLsbD_or, BitVec.getLsbD_ofNat, Nat.testBit_two_pow_self, decide_eq_true low, Bool.and_self, Bool.or_true]
      rw [if_pos (by rw [marked, Bool.or_true])]

/-! ## Ports (R353, R354) -/

@[simp] theorem State.port_setPort_same (s : State) (p : Nat) (x : Port) : (s.setPort p x).port p = x := lookD_put_same ..

theorem State.port_setPort_ne (s : State) {p n : Nat} (x : Port) (h : n ≠ p) : (s.setPort p x).port n = s.port n :=
  lookD_put_ne _ _ _ h

/-- What a port has received, and the number that it expects. -/
def Port.inlet (x : Port) : List Flit × BitVec 12 := (x.received, x.rxseq)

theorem Port.pump_inlet (x : Port) (dev fuel : Nat) : (x.pump dev fuel).inlet = x.inlet := by
  induction fuel generalizing x with
  | zero => rfl
  | succ fuel ih =>
    unfold Port.pump
    split
    · rfl
    · split
      · rfl
      · exact (ih _).trans rfl

theorem State.pumpPort_inlet (s : State) (p : Nat) (ack : Bool) : ((s.pumpPort p ack).port p).inlet = (s.port p).inlet := by
  unfold State.pumpPort
  dsimp only
  rw [State.port_setPort_same]
  split <;> exact Port.pump_inlet ..

theorem Port.acked_inlet (x : Port) (ack : BitVec 12) : (x.acked ack).inlet = x.inlet := by
  unfold Port.acked
  split <;> rfl

theorem Port.credited_inlet (x : Port) (f : Flit) : (x.credited f).inlet = x.inlet := rfl

theorem Port.freeBuffer_inlet (x : Port) (v : Fin 4) (stack : Fin 12) (full : Bool) : (x.freeBuffer v stack full).inlet = x.inlet := by
  unfold Port.freeBuffer
  split <;> rfl

/-! ## Trains (R244, R245, R323) -/

theorem State.sendAck_windows (s : State) (t : Train) : (s.sendAck t).windows = s.windows := by
  unfold State.sendAck
  split <;> rfl

/-- An acknowledgement marks the window of the train's pair. -/
theorem State.ackTrain_windows {s : State} {t : Train} {w : Win}
    (fresh : (lookD s.windows (trainPair t) { h := 0, marks := 0 }).take t.seq = .apply w) :
    (s.ackTrain t).windows = put s.windows (trainPair t) w := by
  unfold State.ackTrain
  rw [fresh]
  dsimp only
  split
  · rfl
  · exact State.sendAck_windows ..

section
variable {t : Train} {s : State} (own : (s.parked.any fun p => trainPair p.train == trainPair t && p.train.seq == t.seq) = false)
  (free : s.trainHeld t = false) (admitted : bitAt s.regs.domctl (t.srcDev / 16) = true)
include own free admitted

theorem exec_trainReceive_dropped (old : (lookD s.windows (trainPair t) { h := 0, marks := 0 }).take t.seq = .drop) :
    exec (.trainReceive t) s = .next (s.ackTrain t) := by
  change execTrainReceive t s = _
  unfold execTrainReceive
  rw [own, free, admitted, old]
  rfl

variable {w : Win} (fresh : (lookD s.windows (trainPair t) { h := 0, marks := 0 }).take t.seq = .apply w)
include fresh

theorem exec_trainReceive_applied (here : ∀ e ∈ t.elems, ∃ pa, s.destOf t e = .at_ pa) :
    exec (.trainReceive t) s = .next ((t.elems.foldl (fun u e => match s.destOf t e with
      | .at_ pa => u.applyElem t e pa
      | _ => u) s).ackTrain t) := by
  have at_ {d : Elem × Dest} (hd : d ∈ t.elems.map fun e => (e, s.destOf t e)) : ∃ pa, d.2 = .at_ pa := by
    obtain ⟨e, he, rfl⟩ := List.mem_map.1 hd
    exact here e he
  change execTrainReceive t s = _
  unfold execTrainReceive
  rw [own, free, admitted, fresh]
  rw [if_neg (by decide)]
  dsimp only
  split
  case h_3 =>
    generalize held : List.filterMap _ _ = waiting
    cases waiting with
    | nil => exact congrArg (fun u : State => Host.Outcome.next (u.ackTrain t)) List.foldl_map
    | cons d ds =>
      obtain ⟨d', hd, is⟩ := List.mem_filterMap.1 (held ▸ List.mem_cons_self .. : d ∈ List.filterMap _ _)
      obtain ⟨pa, dest⟩ := at_ hd
      rw [dest] at is
      exact nomatch is
  all_goals
    next stop =>
      obtain ⟨pa, dest⟩ := at_ (List.mem_of_find?_eq_some stop)
      have stops := List.find?_some stop
      rw [dest] at stops
      exact nomatch stops

theorem exec_trainReceive_fault {e : Elem} {c : Cause} {a : Nat} (head : t.elems.head? = some e) (faults : s.destOf t e = .fault c a) :
    exec (.trainReceive t) s = .next (s.trainFault t e c a) := by
  obtain ⟨es, is⟩ := List.head?_eq_some_iff.1 head
  change execTrainReceive t s = _
  unfold execTrainReceive
  rw [own, free, admitted, fresh, is]
  simp only [List.map_cons, List.find?_cons, faults]
  rfl

end

/-! ## Flits (R352 to R355) -/

section
variable {p : Fin 48} {x : Flit} {s : State} (up : (s.port p).down = false)
include up

theorem exec_flitReceive_discarded (wrong : fCrcOk x = false ∨ (fNull x = false ∧ fSeq x ≠ (s.port p).rxseq)) :
    exec (.flitReceive p x) s = .next s :=
  if_pos (by rcases wrong with bad | ⟨full, seq⟩ <;> simp_all)

variable (good : fCrcOk x = true) (full : fNull x = false) (seq : fSeq x = (s.port p).rxseq)
include good full seq

theorem exec_flitReceive_foreign (foreign : s.admits x = false) : exec (.flitReceive p x) s =
    .next (((s.setPort p (Port.freeBuffer { s.port p with rxseq := (s.port p).rxseq + 1 } (fVc x) (fStack x) false)).pumpPort p
      true).modRegs fun r => { r with porterr := r.porterr + 1 }) := by
  change execFlitReceive p x s = _
  unfold execFlitReceive
  simp [up, good, full, seq, foreign]

theorem exec_flitReceive_received (ours : s.admits x = true) : ∃ y : Port, exec (.flitReceive p x) s = .next ((s.setPort p y).pumpPort p true) ∧
    y.inlet = ((s.port p).received ++ [x], (s.port p).rxseq + 1) := by
  refine ⟨?y, ?_, ?_⟩
  case y =>
    exact { Port.freeBuffer ((Port.acked { s.port p with rxseq := (s.port p).rxseq + 1 } (fAck x)).credited x) (fVc x) (fStack x)
        (s.holdingFull (fStack x)) with
      received := ((Port.acked { s.port p with rxseq := (s.port p).rxseq + 1 } (fAck x)).credited x).received ++ [x] }
  · change execFlitReceive p x s = _
    unfold execFlitReceive
    simp [up, good, full, seq, ours]
  · have freed := Port.freeBuffer_inlet ((Port.acked { s.port p with rxseq := (s.port p).rxseq + 1 } (fAck x)).credited x) (fVc x)
      (fStack x) (s.holdingFull (fStack x))
    have ack := Port.acked_inlet { s.port p with rxseq := (s.port p).rxseq + 1 } (fAck x)
    have number := (congrArg Prod.snd freed).trans ((congrArg Prod.snd (Port.credited_inlet ..)).trans (congrArg Prod.snd ack))
    exact Prod.ext (congrArg (· ++ [x]) (congrArg Prod.fst ack)) number

end

/-! ## PORTCTL (R353, R355) -/

theorem State.retrainPorts_port (ps : List Nat) (s : State) (n : Nat) :
    (ps.foldl (fun s p => s.setPort p (s.port p).retrained) s).port n = if n ∈ ps then (s.port n).retrained else s.port n := by
  induction ps generalizing s with
  | nil => rfl
  | cons p ps ih =>
    rw [List.foldl_cons, ih]
    by_cases own : n = p
    · subst own
      rw [State.port_setPort_same, if_pos (List.mem_cons_self ..)]
      split <;> rfl
    · rw [State.port_setPort_ne _ _ own]
      simp [own]

/-- The ports that a write of PORTCTL names, trained again. -/
def State.retrain (s : State) (v : Word) : State :=
  ((List.range 48).filter fun p => bitAt v p).foldl (fun s p => s.setPort p (s.port p).retrained) s

theorem State.retrain_keeps (s : State) (v : Word) : (s.retrain v).mem = s.mem ∧ (s.retrain v).sent = s.sent :=
  foldl_closed (I := fun t : State => t.mem = s.mem ∧ t.sent = s.sent) (f := fun s p => s.setPort p (s.port p).retrained)
    (fun _ _ h => h) _ ⟨rfl, rfl⟩

theorem State.retrain_port (s : State) (v : Word) {p : Nat} (small : p < 48) :
    (s.retrain v).port p = if v.getLsbD p then (s.port p).retrained else s.port p := by
  refine (State.retrainPorts_port _ s p).trans (if_congr ?_ rfl rfl)
  simp [small, bitAt]

theorem exec_portctl {m : Fin 4} {v : Word} {s : State} (own : s.owner.own = m.val) (none_sent : s.sent = []) :
    exec (.portctl m v) s = .next ((s.retrain v).accept m) := by
  refine congrArg Host.Outcome.next (State.ownerWrite_done own ?_)
  have none_left : (s.retrain v).sent = [] := (s.retrain_keeps v).2.trans none_sent
  change some ((s.retrain v).resendTrains _) = _
  unfold State.resendTrains
  rw [none_left]
  rfl

end Sys2Proof.Machine

namespace Sys2Proof.Proofs
open Sys2Proof Sys2Proof.Machine Sys2Proof.Claims

/-- Settles O49: a number that has been marked is dropped, the flits of an admitted source go in order, and PORTCTL changes the ports that
it names, while no train waits. -/
theorem trainsAndLinks : Obligations.TrainsAndLinks := by
  unfold Obligations.TrainsAndLinks
  refine ⟨fun t s own free admitted => ⟨exec_trainReceive_dropped own free admitted, fun w fresh here => ⟨?_, ?_⟩,
      fun w e c a fresh head faults => exec_trainReceive_fault own free admitted fresh head faults, fun p other plane => ?_⟩,
    fun src dest seq s => ?_, fun p x s up => ⟨fun bad => exec_flitReceive_discarded up (Or.inl bad), fun _ full seq =>
      exec_flitReceive_discarded up (Or.inr ⟨full, seq⟩), fun good full seq foreign => ?_, fun good full seq ours => ?_⟩,
    fun p s => ⟨fun idle => ?_, fun up sent => ⟨fun few => ?_, fun many => ?_⟩⟩, fun m v s own none_sent => ?_⟩
  · exact exec_trainReceive_applied own free admitted fresh here
  · rw [State.ackTrain_windows fresh, lookD_put_same]
    exact Win.take_take fresh
  · unfold State.sendAck
    rw [plane]
  · refine ⟨_, rfl, rfl, fun x => ?_⟩
    change x ∈ s.sent.filter _ ↔ _
    simp only [List.mem_filter, Bool.not_eq_true', Bool.and_eq_false_iff, beq_eq_false_iff_ne]
    tauto
  · refine ⟨_, exec_flitReceive_foreign up good full seq foreign, rfl, ?_⟩
    have inlet := State.pumpPort_inlet (s.setPort p (Port.freeBuffer { s.port p with rxseq := (s.port p).rxseq + 1 } (fVc x)
      (fStack x) false)) p true
    rw [State.port_setPort_same, Port.freeBuffer_inlet] at inlet
    exact ⟨congrArg Prod.snd inlet, congrArg Prod.fst inlet, rfl⟩
  · obtain ⟨y, next, received⟩ := exec_flitReceive_received up good full seq ours
    have inlet := State.pumpPort_inlet (s.setPort p y) p true
    rw [State.port_setPort_same, received] at inlet
    exact ⟨_, next, congrArg Prod.fst inlet, congrArg Prod.snd inlet, rfl, rfl⟩
  · exact if_pos (by rcases idle with down | empty <;> simp_all)
  · exact (if_neg (by simp [up, sent])).trans (if_neg (by rw [resendLimit]; omega))
  · exact (if_neg (by simp [up, sent])).trans (if_pos many)
  · exact ⟨_, exec_portctl own none_sent, (s.retrain_keeps v).1, fun p small => s.retrain_port v small⟩

end Sys2Proof.Proofs
end

section
/-! SUPPORT. A kernel that fails as its STAT word is written, and the statement about `seep` (R280, R282, R367, R385). -/

namespace Sys2Proof.Machine

/-- A unit that has halted. -/
def haltedUnit : SeepUnit := { SeepUnit.start 0 [0] with halted := true }

/-- A kernel all of whose units have halted, with STAT at 0x1000 and no visible arrival. -/
def haltedKernel : Kernel :=
  { id := 1, ctx := 0, lg := none, pd := 0, prog := [], progAt := 0, xbase := 0, rbase := 0, rlines := 1, frames := [], pinned := []
    statAt := [0x2000], stat := 0x1000, vis := 0
    agent := { core := 0, who := .kernel 1, issuer := none, tlb := 0, asid := 0, pbase := 0, psize := 0 }
    ten := .reset, pc := 0, stage := .running, fail := none, units := [haltedUnit] }

/-- The sector of STAT is DIRTY in a stash, and the page table has an uncorrectable error. -/
def statState : State :=
  { State.reset with
    kernels := [haltedKernel], memPoison := [0], xlat := { Xlat.reset with asroot := .replicate 16 1 }
    cores := [(0, { Core.reset with lines := [(0, { va := 0x1000, asid := 0, frame := none, secs := .replicate 4 (.dirty 1) })] })] }

/-- No STAT word waits, though the kernel fails at one. -/
theorem statState_writes : (statState.writeStat haltedKernel).2 = true := by decide +kernel

theorem statState_runs : ((statState.releaseKernel haltedKernel).quarter (quarterOf haltedKernel.agent.core)).stopped = false := by
  decide +kernel

/-- The kernel is still there after its release: its record is to be written (R280). -/
theorem statState_failed : ((kernelsAfter (exec (.seepRelease 1) statState)).any fun k => k.id == 1) = true := by decide +kernel

theorem State.dropKernel_gone (s : State) (id : Nat) : ((s.dropKernel id).kernels.any fun k => k.id == id) = false := by
  simp [State.dropKernel]

end Sys2Proof.Machine

namespace Sys2Proof.Proofs
open Sys2Proof Sys2Proof.Machine Sys2Proof.Claims

/-- Refutes O34: a STAT word whose write-back meets an uncorrectable error fails the kernel without waiting (R367), so a kernel that has
not failed before its release need not be gone after it. -/
theorem not_seepKernelLife : ¬ Obligations.SeepKernelLife := by
  unfold Obligations.SeepKernelLife
  rintro ⟨_, _, _, _, release, _⟩
  have gone := release statState (statState.releaseKernel haltedKernel) haltedKernel rfl rfl (by decide +kernel) rfl statState_writes
    rfl statState_runs rfl
  have failed := statState_failed
  rw [show (1 : Nat) = haltedKernel.id from rfl, gone] at failed
  exact Bool.false_ne_true ((State.dropKernel_gone ..).symm.trans failed)

end Sys2Proof.Proofs
end

section
/-! SUPPORT. Lanes put together, results that fit their lanes, and the operations of a seep unit, with the statement about them (R277
to R279). -/

namespace Sys2Proof.Machine

/-! ## Lanes -/

theorem fromLanes_eq_ofDigits (w : Nat) (ls : List Nat) : fromLanes w ls = Nat.ofDigits (2 ^ w) ls := by
  induction ls using List.reverseRecOn with
  | nil => rfl
  | append_singleton ls x ih =>
    have last : fromLanes w (ls ++ [x]) = fromLanes w ls + x * 2 ^ (w * ls.length) := by
      simp [fromLanes, List.zipIdx_append]
    rw [last, ih, Nat.ofDigits_append, Nat.ofDigits_singleton, Nat.pow_mul, Nat.mul_comm x]

/-- A lane of a register made of lanes. -/
theorem fromLanes_lane {w n i : Nat} {f : Nat → Nat} (fit : ∀ j, f j < 2 ^ w) (wide : w * n = 256) (h : i < n) :
    bitsAt (BitVec.ofNat 256 (fromLanes w ((List.range n).map f))) (w * i) w = f i := by
  have within : w * i + w ≤ 256 := by
    rw [← Nat.mul_succ, ← wide]
    exact Nat.mul_le_mul_left w h
  have digits : ∀ x ∈ (List.range n).map f, x < 2 ^ w := by
    intro x hx
    obtain ⟨j, -, rfl⟩ := List.mem_map.1 hx
    exact fit j
  rw [bitsAt_ofNat _ within, fromLanes_eq_ofDigits, Nat.pow_mul,
    Nat.ofDigits_div_pow_eq_ofDigits_drop _ (Nat.two_pow_pos w) _ digits, Nat.ofDigits_mod_eq_head!]
  have head : ((List.range n).map f).drop i = f i :: ((List.range n).map f).drop (i + 1) := by
    rw [List.drop_eq_getElem_cons (by simpa using h)]
    simp
  rw [head]
  exact Nat.mod_eq_of_lt (fit i)

/-! ## Results that fit (R58, R63) -/

theorem intBits_lt (w : Nat) (x : Int) : intBits w x < 2 ^ w := by
  rw [intBits_eq_toNat_ofInt]
  exact (BitVec.ofInt w x).isLt

theorem fitInt_lt (signed : Bool) (w : Nat) (sat : Bool) (x : Int) : (fitInt signed w sat x).1 < 2 ^ w := by
  unfold fitInt
  split
  · exact intBits_lt ..
  · split <;> exact intBits_lt ..

theorem roundToInt_lt (signed : Bool) (w : Nat) (x : Num) (rm : RMode) (st : BitVec 32) :
    (roundToInt signed w x rm st).bits < 2 ^ w := by
  cases x with
  | nan => exact Nat.two_pow_pos w
  | inf s => exact intBits_lt ..
  | zero s => exact Nat.two_pow_pos w
  | fin neg n d e => exact fitInt_lt ..

/-- A magnitude below the sign bit gives a pattern of the format. -/
theorem Flt.signed_lt (f : Flt) (neg : Bool) {mag : Nat} (h : mag ≤ f.maxBits ∨ f.infBits = some mag) : f.signed neg mag < 2 ^ f.width := by
  have small : mag < 2 ^ (f.width - 1) := by
    rcases h with finite | inf
    · exact Nat.lt_of_le_of_lt finite (by cases f <;> decide)
    · revert inf
      cases f <;> simp [Flt.infBits, Flt.width, Flt.eb, Flt.m] <;> omega
  have twice : 2 ^ (f.width - 1) + 2 ^ (f.width - 1) = 2 ^ f.width := by cases f <;> decide
  unfold Flt.signed
  split <;> omega

theorem Flt.nanBits_lt (f : Flt) : f.nanBits.getD 0 < 2 ^ f.width := by cases f <;> decide

theorem Flt.overflow_lt (f : Flt) (neg : Bool) (rm : RMode) (sat wasInf : Bool) : (f.overflow neg rm sat wasInf).1 < 2 ^ f.width := by
  have most := f.signed_lt neg (Or.inl (Nat.le_refl f.maxBits))
  unfold Flt.overflow
  dsimp only
  split
  · exact most
  · split
    · exact most
    · split
      · exact most
      · split
        next i inf => exact f.signed_lt neg (Or.inr inf)
        next => exact f.nanBits_lt

theorem Flt.round_lt (f : Flt) (x : Num) (rm : RMode) (sat : Bool) (st : BitVec 32) : (f.round x rm sat st).bits < 2 ^ f.width := by
  cases x with
  | nan => cases f <;> cases sat <;> exact of_decide_eq_true rfl
  | inf s => exact f.overflow_lt ..
  | zero s => exact f.signed_lt s (Or.inl (Nat.zero_le _))
  | fin neg n d e =>
    unfold Flt.round
    dsimp only
    generalize roundMultiple neg n d _ rm st = k
    split
    · exact f.overflow_lt neg rm sat false
    next small => exact f.signed_lt neg (Or.inl (Nat.le_of_not_lt small))

theorem NTy.convert_lt (t : NTy) (v : Val) (rm : RMode) (sat : Bool) (st : BitVec 32) : (t.convert v rm sat st).bits < 2 ^ t.width := by
  cases t with
  | flt f => exact f.round_lt ..
  | int s w =>
    cases v with
    | i x => exact fitInt_lt ..
    | f x => exact roundToInt_lt ..

theorem seepWidth (ty : BitVec 4) : (seepTy ty).width * seepLanes ty = 256 := by
  unfold seepLanes
  have cases_ : (seepTy ty).width = 32 ∨ (seepTy ty).width = 16 := by
    unfold seepTy
    split <;> decide
  rcases cases_ with w | w <;> rw [w]

theorem seepRound_lane (ty : BitVec 4) {i : Nat} (f : Nat → Val) (h : i < seepLanes ty) :
    bitsAt (BitVec.ofNat 256 (fromLanes (seepTy ty).width ((List.range (seepLanes ty)).map fun i => seepRound ty (f i))))
      ((seepTy ty).width * i) (seepTy ty).width = seepRound ty (f i) :=
  fromLanes_lane (fun _ => (seepTy ty).convert_lt ..) (seepWidth ty) h

/-! ## Operations of a unit (R277 to R279) -/

/-- The result of an operation of the executing unit that changes nothing but the unit. -/
def unitGoes (s : State) (k : Kernel) (u : SeepUnit) : Out := .next (s.modKernel k.id fun x => x.setUnit u)

section
variable {s : State} {k : Kernel} {u : SeepUnit} (at_ : s.unitAt = some (k, u))
include at_

theorem onUnit_at (f : Kernel → SeepUnit → State × SeepUnit) : onUnit s f = unitGoes (f k u).1 k (f k u).2 := by
  unfold onUnit
  rw [at_]
  rfl

theorem unitOp_at (f : Kernel → SeepUnit → SeepUnit) : unitOp s f = unitGoes s k (f k u).pop := onUnit_at at_ _

theorem exec_fldx_valid {wd wa : Fin 16} {pa : Nat} {w : Walk} {v : State} (region : k.xbase ≠ 0)
    (low : k.xbase.toNat + 32 * bitsAt (u.reg wa) 0 32 < 2 ^ 57)
    (walk : s.tlbWalk (576 + u.id / 32) k.agent.asid (k.xbase.toNat + 32 * bitsAt (u.reg wa) 0 32) = (w, v))
    (present : ∀ log, w ≠ .absent log) (sound : ∀ a, w ≠ .poisoned a)
    (place : w.physical (k.xbase.toNat + 32 * bitsAt (u.reg wa) 0 32) = some pa) :
    exec (.fldx wd wa) s = unitGoes v k (u.setReg wd (rdVal s.mem pa 32) (s.poisoned pa 32 || u.isBad wa)).pop := by
  change execFldx wd wa s = _
  rw [execFldx, onUnit_at at_]
  have inside : ¬(decide (k.xbase = 0) || decide (2 ^ 57 ≤ k.xbase.toNat + 32 * bitsAt (u.reg wa) 0 32)) = true := by
    rw [Bool.or_eq_true, decide_eq_true_eq, decide_eq_true_eq, not_or]
    exact ⟨region, Nat.not_le_of_lt low⟩
  have mem : v.mem = s.mem := by
    have kept := s.tlbWalk_keeps State.mem (fun _ _ => rfl) (576 + u.id / 32) k.agent.asid
      (k.xbase.toNat + 32 * bitsAt (u.reg wa) 0 32)
    rwa [walk] at kept
  have poison : v.memPoison = s.memPoison := by
    have kept := s.tlbWalk_keeps State.memPoison (fun _ _ => rfl) (576 + u.id / 32) k.agent.asid
      (k.xbase.toNat + 32 * bitsAt (u.reg wa) 0 32)
    rwa [walk] at kept
  dsimp only
  rw [if_neg inside, walk, State.poisoned, ← mem, ← poison, ← State.poisoned]
  dsimp only
  split
  next => exact absurd rfl (present _)
  next => exact absurd rfl (sound _)
  next => rw [place]

theorem seepArith_at (a : SeepArith) (f : Val → Val → Val → Val) (third : Bool) : ∃ (v : Nat) (bad : Bool),
    seepArith a f third s = unitGoes s k (u.setReg a.wd v bad).pop ∧ ∀ i, i < seepLanes a.ty →
      bitsAt (BitVec.ofNat 256 v) ((seepTy a.ty).width * i) (seepTy a.ty).width =
        seepRound a.ty (f (laneOf a.ty (u.reg a.wa) i) (laneOf a.ty (u.reg a.wb) i) (laneOf a.ty (u.reg a.wd) i)) :=
  ⟨_, _, unitOp_at at_ _, fun _ h => seepRound_lane a.ty _ h⟩

end

theorem exec_seep_noUnit {s : State} (none_ : s.unit = none) (f : Kernel → SeepUnit → State × SeepUnit) :
    onUnit s f = .fault .noSeepUnit := by
  have free : s.unitAt = none := congrArg (fun x : Option (Nat × Nat) => x.bind _) none_
  unfold onUnit
  rw [free]

/-! ## Writes of columns (R185, R208, R385) -/

theorem State.applyRecord_stall_mem (s : State) (k : Nat) {r : TrapRec} (cls : r.cls = 1) : (s.applyRecord k r).mem = s.mem := by
  unfold State.applyRecord
  rw [if_pos cls]
  rfl

theorem State.putRecord_mem {s t : State} {q : Fin 4} {r : TrapRec} (put : s.putRecord q r = some t) : t.mem = s.mem := by
  unfold State.putRecord at put
  dsimp only at put
  split at put
  · exact nomatch put
  · split at put <;> split at put
    · exact Option.some.inj put ▸ rfl
    · exact Option.some.inj put ▸ State.containedStop_mem ..
    · exact Option.some.inj put ▸ rfl
    · exact nomatch put

theorem State.kernelBad_mem (s : State) (k : Kernel) (word unit mem addr : Nat) : (s.kernelBad k word unit mem addr).mem = s.mem := by
  unfold State.kernelBad
  split
  · rfl
  · exact State.logError_mem ..

/-- A write-back that cannot be made for a seep write changes no memory. -/
theorem State.seepTrap_mem (s : State) (k : Kernel) (u : SeepUnit) (t : Trap) : (s.seepTrap k u t).1.mem = s.mem := by
  unfold State.seepTrap
  split
  · exact s.kernelBad_mem ..
  · split
    · rfl
    · rfl
    · dsimp only
      split
      next put => exact (State.applyRecord_stall_mem _ _ rfl).trans (State.putRecord_mem put)
      next => rfl

section
variable {s : State} {k : Kernel} {va pa : Nat} {b : Backed} (is : s.backInvalidate pa (some (k.agent.asid, va / 128 * 128)) = b)
include is

theorem State.seepWrite_performs (u : SeepUnit) (n v : Nat) (bad : Bool) (no_trap : b.trap = none) (free : b.waits = false) :
    s.seepWrite k u va pa n v bad =
      ((b.state.noteTorn (.kernel k.id) pa (leBytes n v) bad).writeHbm pa (leBytes n v) bad, .performs) := by
  unfold State.seepWrite
  simp only [is, no_trap, free, Bool.false_eq_true, if_false, if_true]

theorem State.seepWrite_waits (u : SeepUnit) (n v : Nat) (bad : Bool) (waits : b.waits = true) :
    ∃ t : State, s.seepWrite k u va pa n v bad = (t, .waits) ∧ t.mem = b.state.mem := by
  unfold State.seepWrite
  simp only [is, waits, if_true]
  refine ⟨_, rfl, ?_⟩
  split
  · exact State.seepTrap_mem ..
  · rfl

end

theorem unitWrites_writeColumn (s : State) (k : Kernel) (line col v : Nat) (bad : Bool) (u done : SeepUnit) :
    Claims.unitWrites s k line col v u done
      (unitGoes (s.writeColumn k line col v bad u done).1 k (s.writeColumn k line col v bad u done).2) := by
  refine ⟨fun no_trap free within => ?_, fun waits => ?_⟩
  · unfold State.writeColumn unitGoes
    rw [State.seepWrite_performs rfl u 32 v bad no_trap free]
    refine ⟨_, rfl, (State.writeHbm_mem_within bad (by rwa [leBytes_length])).trans ?_⟩
    rw [State.noteTorn_mem]
  · obtain ⟨t, held, mem⟩ := State.seepWrite_waits rfl u 32 v bad waits
    unfold State.writeColumn unitGoes
    rw [held]
    exact ⟨t, rfl, mem⟩

theorem unitWrites_onUnit {s : State} {k : Kernel} {u : SeepUnit} (at_ : s.unitAt = some (k, u))
    {f : Kernel → SeepUnit → State × SeepUnit} {line col v : Nat} {done : SeepUnit}
    (writes : Claims.unitWrites s k line col v u done (unitGoes (f k u).1 k (f k u).2)) :
    Claims.unitWrites s k line col v u done (onUnit s f) := by
  rwa [onUnit_at at_]

end Sys2Proof.Machine

namespace Sys2Proof.Proofs
open Sys2Proof Sys2Proof.Machine Sys2Proof.Claims

/-- Settles O35: a unit's operation gives the unit what its lanes make, and a column of the line what the unit writes; lanes fit their
places because every result is rounded into its type. -/
theorem seepUnitResults : Obligations.SeepUnitResults := by
  unfold Obligations.SeepUnitResults
  refine ⟨fun a s k u at_ => ⟨fun e he => ?_, ?_, ?_⟩, fun s k u at_ => ⟨unitOp_at at_ _, onUnit_at at_ _, fun more => ?_, fun last => ?_,
    fun others => ?_, fun wd col => unitOp_at at_ _, fun wd wa pa w v region low walk present sound place => ?_, fun wa col => ?_,
    fun wa bad => ?_, fun wa good zero => ?_, fun wa l good some_ line => ?_, fun wa good some_ line => ?_, fun wa col m => ?_⟩,
    fun s wd wa col m a i none_ hi => ?_⟩
  · simp only [List.mem_cons, List.not_mem_nil, or_false] at he
    rcases he with rfl | rfl | rfl | rfl
    · exact seepArith_at at_ a _ false
    · exact seepArith_at at_ a _ false
    · exact seepArith_at at_ a _ true
    · exact seepArith_at at_ a _ false
  · exact ⟨_, _, unitOp_at at_ _, rfl⟩
  · exact ⟨_, _, unitOp_at at_ _, fun i h => fromLanes_lane (fun _ => Flt.f32.round_lt ..) rfl h⟩
  · exact (onUnit_at at_ _).trans (by rw [if_pos more]; rfl)
  · exact (onUnit_at at_ _).trans (by rw [if_neg (by omega)]; rfl)
  · refine (onUnit_at at_ _).trans ?_
    dsimp only
    rw [others, Bool.or_true, if_pos rfl]
    rfl
  · exact exec_fldx_valid at_ region low walk present sound place
  · exact unitWrites_onUnit at_ (unitWrites_writeColumn ..)
  · exact (onUnit_at at_ _).trans (by rw [if_pos bad]; rfl)
  · exact (onUnit_at at_ _).trans (by rw [if_neg (by simp [good]), if_pos zero]; rfl)
  · refine unitWrites_onUnit at_ ?_
    rw [if_neg (by simp [good]), if_neg some_, line]
    exact unitWrites_writeColumn ..
  · refine (onUnit_at at_ _).trans ?_
    rw [if_neg (by simp [good]), if_neg some_, line]
    rfl
  · exact ⟨_, unitWrites_onUnit at_ (unitWrites_writeColumn ..), fun i h => seepRound_lane (redTy m) _ h⟩
  · simp only [List.mem_cons, List.not_mem_nil, or_false] at hi
    rcases hi with rfl | rfl | rfl | rfl | rfl | rfl | rfl | rfl | rfl | rfl | rfl | rfl | rfl | rfl | rfl <;>
      exact exec_seep_noUnit none_ _

end Sys2Proof.Proofs
end

section
/-! SUPPORT. What the handle forms answer, with the statement about them (R248, R250, R253, R254, R260). -/

namespace Sys2Proof.Machine

/-- What neither the strips nor the thread of a context touch stays as the PC advances. -/
theorem State.ctx_advance_keeps {α : Type} (p : Ctx → α) (strips : ∀ c v, p { c with strips := v } = p c)
    (thread : ∀ c v, p { c with thread := v } = p c) (s : State) : p s.advance.ctx = p s.ctx := by
  unfold State.advance State.setThread
  dsimp only
  split
  · exact State.ctx_modStrip_keeps p strips _ _
  · rw [State.ctx_modCtx]
    exact thread _ _

/-! ## `hld` (R248, R250) -/

section
variable {c : Ctl} {f : FM} {s u : State} (hg : s.guard c = true)
include hg

theorem exec_hld_body (body : s.inBody = true) :
    exec (.hld c f) s = .next (s.takeTrap { cause := .operandClass, val := f.opd.code.setWidth 64 }) := by
  change execHld c f s = _
  rw [execHld, run_true _ hg, outsideBody_body body]
  rfl

variable {bs : List Byte} (out : s.inBody = false) (read : s.scalarRead (s.fmBase f) 64 64 = .ok (bs, u))
include out read

theorem exec_hld_taken (ok : handleOk (BitVec.ofNat 512 (leVal bs)) = true) : exec (.hld c f) s =
    .next (u.modCtx fun x => { x with handles := x.handles.set (hreg f.opd) (BitVec.ofNat 512 (leVal bs)) (hreg f.opd).isLt }).advance := by
  change execHld c f s = _
  rw [execHld, run_true _ hg, outsideBody_ok out]
  simp only [read, act_ok_bind, ok, if_true, settle_ok]

theorem exec_hld_refused (bad : handleOk (BitVec.ofNat 512 (leVal bs)) = false) : exec (.hld c f) s =
    .next (s.takeTrap { cause := .handleType, val := hWord (BitVec.ofNat 512 (leVal bs)) 0 }) := by
  change execHld c f s = _
  rw [execHld, run_true _ hg, outsideBody_ok out]
  simp only [read, act_ok_bind, bad, Bool.false_eq_true, if_false]
  rfl

end

/-- What a context holds once it has taken a descriptor. -/
theorem State.takeHandle_spec (u : State) (n : Fin 8) (h : Handle) :
    let t := (u.modCtx fun x => { x with handles := x.handles.set n h n.isLt }).advance
    t.ctx.handles.get n = h ∧ (∀ m, m ≠ n → t.ctx.handles.get m = u.ctx.handles.get m) ∧ t.mem = u.mem ∧ t.ctx.s = u.ctx.s ∧
      t.thread = u.advance.thread := by
  have handles := State.ctx_advance_keeps Ctx.handles (fun _ _ => rfl) (fun _ _ => rfl)
    (u.modCtx fun x => { x with handles := x.handles.set n h n.isLt })
  have same : (u.modCtx fun x => { x with handles := x.handles.set n h n.isLt }).thread = u.thread :=
    State.thread_modCtx (fun _ => rfl) fun _ => rfl
  rw [State.ctx_modCtx] at handles
  refine ⟨?_, fun m other => ?_, State.advance_mem _, ?_, ?_⟩
  · rw [handles]
    exact vget_set_same ..
  · rw [handles]
    exact vget_set_ne _ _ other
  · rw [State.advance_s, State.ctx_modCtx]
  · rw [State.thread_advance, State.thread_advance, State.pc, State.pc, same]

/-! ## `hst` (R253) -/

/-- The stores of an access that issues one for each number of a list, with the pages that the access pins. -/
def State.storeEach (u : State) (l : Loc) (bytes : Nat → List Byte) (xs : List Nat) (w : State) : Act State :=
  xs.foldlM (fun w j => w.storeLoc w.key (l.shift (8 * j)) (bytes j) u.newAcc (u.pinsOf u.cur.core [l])) w

/-- A store that an access issues to memory. -/
def State.storeAt (u : State) (asid : Fin 16) (va pa : Nat) (bytes : Nat → List Byte) (j : Nat) : Pending :=
  { ctx := u.key, acc := u.newAcc, pages := u.pinsOf u.cur.core [.hbm asid va pa], home := .hbm, addr := pa + 8 * j, bytes := bytes j
    hot := none, nt := false }

theorem State.storeEach_hbm (u : State) (asid : Fin 16) (va pa : Nat) (bytes : Nat → List Byte) (xs : List Nat) (ps : List Pending) :
    u.storeEach (.hbm asid va pa) bytes xs { u with pend := ps } =
      .ok { u with pend := ps ++ xs.map (u.storeAt asid va pa bytes) } := by
  induction xs generalizing ps with
  | nil =>
    rw [List.map_nil, List.append_nil]
    rfl
  | cons j xs ih =>
    refine (ih (ps ++ [u.storeAt asid va pa bytes j])).trans ?_
    rw [List.append_assoc]
    rfl

/-! A store that is pending changes no translation. -/

theorem State.walkFrom_pend (u : State) (ps : List Pending) (va fuel level table : Nat) :
    State.walkFrom { u with pend := ps } va fuel level table = u.walkFrom va fuel level table := by
  induction fuel generalizing level table with
  | zero => rfl
  | succ fuel ih =>
    simp only [State.walkFrom, ih]
    rfl

theorem State.pinOf_pend (u : State) (ps : List Pending) (unit : Nat) (asid : Fin 16) (va : Nat) :
    State.pinOf { u with pend := ps } unit asid va = u.pinOf unit asid va := by
  have walk : State.walk { u with pend := ps } asid va = u.walk asid va := by simp only [State.walk, State.walkFrom_pend]
  simp only [State.pinOf, walk]

theorem State.pinsOf_pend (u : State) (ps : List Pending) (unit : Nat) (asid : Fin 16) (va pa : Nat) :
    State.pinsOf { u with pend := ps } unit [.hbm asid va pa] = u.pinsOf unit [.hbm asid va pa] := by
  simp only [State.pinsOf, List.filterMap_cons, List.filterMap_nil, State.locPage, State.pinOf_pend]

/-- The pages that an access pins are the same at each of its stores. -/
theorem State.storeEach_pins (u : State) (l : Loc) (bytes : Nat → List Byte) (xs : List Nat) :
    xs.foldlM (fun w j => w.storeLoc w.key (l.shift (8 * j)) (bytes j) u.newAcc (w.pinsOf w.cur.core [l])) u =
      u.storeEach l bytes xs u := by
  cases l with
  | stash off => simp only [State.storeEach, State.pinsOf, List.filterMap_cons, List.filterMap_nil, State.locPage]
  | cluster a => simp only [State.storeEach, State.pinsOf, List.filterMap_cons, List.filterMap_nil, State.locPage]
  | hbm asid va pa =>
    refine Eq.trans ?_ (u.storeEach_hbm asid va pa bytes xs u.pend).symm
    suffices h : ∀ ps, xs.foldlM (fun w j => w.storeLoc w.key (Loc.shift (.hbm asid va pa) (8 * j)) (bytes j) u.newAcc
        (w.pinsOf w.cur.core [.hbm asid va pa])) { u with pend := ps } =
        (.ok { u with pend := ps ++ xs.map (u.storeAt asid va pa bytes) } : Act State) from h u.pend
    induction xs with
    | nil =>
      intro ps
      rw [List.map_nil, List.append_nil]
      rfl
    | cons j xs ih =>
      intro ps
      rw [List.foldlM_cons, State.pinsOf_pend]
      refine (ih (ps ++ [u.storeAt asid va pa bytes j])).trans ?_
      rw [List.append_assoc]
      rfl

section
variable {c : Ctl} {f : FM} {s u : State} {l : Loc} (hg : s.guard c = true) (loc : s.scalarLoc (s.fmBase f) 64 64 true = .ok (l, u))
include hg loc

theorem exec_hst {v : State} (stored : u.storeEach l (fun j => leBytes 8 (hWord (u.handle f.opd) j).toNat) (List.range 8) u = .ok v) :
    exec (.hst c f) s = .next v.advance := by
  change execHst c f s = _
  rw [execHst, run_true _ hg]
  simp only [loc, act_ok_bind]
  rw [← State.storeEach_pins] at stored
  exact (congrArg (fun r : Act State => settle (r >>= fun s => .ok s.advance)) stored)

end

/-! ## `hq` (R254, R260) -/

section
variable {c : Ctl} {f : FR} {s : State} (hg : s.guard c = true) (dest : Claims.destOk s f.opd)
include hg dest

theorem exec_hqWord : exec (.hqWord c f) s = .next (s.putS f.opd ((s.handle f.opa).extractLsb' (64 * f.opb.idx) 64)).advance := by
  change execHqWord c f s = _
  rw [execHqWord, run_true _ hg]
  simp only [checkDest_ok dest]
  rfl

theorem exec_hqInv_none (none_ : hPattern (s.handle f.opa) = none) :
    exec (.hqInv c f) s = .next (s.putS f.opd (if hNlev (s.handle f.opa) = 0 then 0 else 1)).advance := by
  change execHqInv c f s = _
  rw [execHqInv, run_true _ hg]
  simp only [checkDest_ok dest, none_]
  by_cases empty : hNlev (s.handle f.opa) = 0
  · rw [if_pos empty, empty]
    rfl
  · rw [if_neg empty, show (hNlev (s.handle f.opa) != 0) = true by simpa using empty]
    rfl

theorem exec_hqInv_pattern {l : Nat} {b : Bool} {u : State} (pattern : hPattern (s.handle f.opa) = some l)
    (inv : invertible (s.handle f.opa) l 0 s = .ok (b, u)) :
    exec (.hqInv c f) s = .next (u.putS f.opd (if b then 1 else 0)).advance := by
  change execHqInv c f s = _
  rw [execHqInv, run_true _ hg]
  simp only [checkDest_ok dest, pattern, inv]
  rfl

end

/-- A level's own answer for its kind. -/
theorem invertible_kinds {h : Handle} {l : Nat} (i0 : Word) (s : State) :
    (hKind h l ∈ [1, 2, 3] → invertible h l i0 s = .ok (true, s)) ∧ (hKind h l = 5 → invertible h l i0 s = .ok (false, s)) ∧
    ∀ ws u, hKind h l = 0 → readWords (hPtr h l) i0 (hNw h l) 0 s = .ok (ws, u) →
      invertible h l i0 s = .ok (ws.any fun w => w / 2 ^ 28 == 0xE, u) := by
  refine ⟨fun kind => ?_, fun kind => ?_, fun ws u kind read => ?_⟩
  · simp only [List.mem_cons, List.not_mem_nil, or_false] at kind
    unfold invertible
    rcases kind with kind | kind | kind <;> (rw [kind]; rfl)
  · unfold invertible
    rw [kind]
    rfl
  · unfold invertible
    rw [kind]
    exact congrArg (fun r : Except Stop (List Nat × State) => r >>= fun x => Except.ok (x.1.any fun w => w / 2 ^ 28 == 0xE, x.2)) read

end Sys2Proof.Machine

namespace Sys2Proof.Proofs
open Sys2Proof Sys2Proof.Machine Sys2Proof.Claims

/-- Settles O36: each form answers by its check, the read or the walk of its handle; the stores of `hst` change only the stores
pending, and with them none of the pages that the access pins. -/
theorem handleForms : Obligations.HandleForms := by
  unfold Obligations.HandleForms
  refine fun c s hg => ⟨fun f body => exec_hld_body hg body, fun f bs u out read => ⟨fun ok => ?_, exec_hld_refused hg out read⟩,
    fun f l u v loc stored => exec_hst hg loc stored, fun f asid va pa u loc => ?_, fun f dest => ⟨exec_hqWord hg dest,
      exec_hqInv_none hg dest, fun l pattern => ⟨fun kind => ?_, fun kind => ?_, fun ws u kind read => ?_, fun b u kind inv => ?_⟩⟩⟩
  · exact ⟨_, exec_hld_taken hg out read ok, u.takeHandle_spec _ _⟩
  · refine ⟨_, (List.range 8).map (u.storeAt asid va pa fun j => leBytes 8 (hWord (u.handle f.opd) j).toNat),
      exec_hst hg loc (u.storeEach_hbm asid va pa _ (List.range 8) u.pend), State.advance_pend _, State.advance_mem _, rfl,
      fun j p at_ => ?_⟩
    rw [List.getElem?_map] at at_
    obtain ⟨k, here, rfl⟩ := Option.map_eq_some_iff.1 at_
    obtain ⟨small, is⟩ := List.getElem?_eq_some_iff.1 here
    rw [List.getElem_range] at is
    subst is
    exact ⟨rfl, rfl, rfl, rfl⟩
  · exact exec_hqInv_pattern (b := true) hg dest pattern ((invertible_kinds 0 s).1 kind)
  · exact exec_hqInv_pattern (b := false) hg dest pattern ((invertible_kinds 0 s).2.1 kind)
  · exact exec_hqInv_pattern hg dest pattern ((invertible_kinds 0 s).2.2 ws u kind read)
  · exact exec_hqInv_pattern hg dest pattern inv

end Sys2Proof.Proofs
end

section
/-! SUPPORT. The sets of the patterns, the operations of a pattern program and lookup, with the statement about them (R251, R256, R258,
R259). -/

namespace Sys2Proof.Machine

/-! ## Sorted sets -/

theorem pairwise_setAdd {l : List Nat} (sorted : l.Pairwise (· < ·)) (k : Nat) : (setAdd l k).Pairwise (· < ·) := by
  induction l with
  | nil => exact List.pairwise_singleton ..
  | cons a t ih =>
    obtain ⟨above, rest⟩ := List.pairwise_cons.1 sorted
    unfold setAdd
    split
    next low =>
      refine List.pairwise_cons.2 ⟨fun b hb => ?_, sorted⟩
      rcases List.mem_cons.1 hb with rfl | hb
      · exact low
      · exact Nat.lt_trans low (above b hb)
    next high =>
      split
      · exact sorted
      next other =>
        refine List.pairwise_cons.2 ⟨fun b hb => ?_, ih rest⟩
        rcases (mem_setAdd ..).1 hb with rfl | hb
        · omega
        · exact above b hb

theorem sortedSet_spec (lim : Nat) (vs : List Int) :
    (sortedSet lim vs).Pairwise (· < ·) ∧ ∀ j : Nat, j ∈ sortedSet lim vs ↔ j < lim ∧ (j : Int) ∈ vs := by
  suffices h : ∀ (vs : List Int) (l : List Nat), l.Pairwise (· < ·) →
      (vs.foldl (fun l (v : Int) => if 0 ≤ v ∧ v < (lim : Int) then setAdd l v.toNat else l) l).Pairwise (· < ·) ∧
      ∀ j : Nat, j ∈ vs.foldl (fun l (v : Int) => if 0 ≤ v ∧ v < (lim : Int) then setAdd l v.toNat else l) l ↔
        j ∈ l ∨ (j < lim ∧ (j : Int) ∈ vs) by
    simpa [sortedSet] using h vs [] List.Pairwise.nil
  intro vs
  induction vs with
  | nil => exact fun l sorted => ⟨sorted, fun j => by simp⟩
  | cons v vs ih =>
    intro l sorted
    rw [List.foldl_cons]
    split
    next within =>
      obtain ⟨pairs, members⟩ := ih _ (pairwise_setAdd sorted v.toNat)
      refine ⟨pairs, fun j => ?_⟩
      rw [members, mem_setAdd, List.mem_cons]
      have same : j = v.toNat ↔ (j < lim ∧ (j : Int) = v) := by omega
      rw [same]
      tauto
    next outside =>
      obtain ⟨pairs, members⟩ := ih l sorted
      refine ⟨pairs, fun j => ?_⟩
      rw [members, List.mem_cons]
      have other : ¬(j < lim ∧ (j : Int) = v) := by omega
      tauto

theorem mem_sortedSet {lim : Nat} {vs : List Int} {j : Nat} : j ∈ sortedSet lim vs ↔ j < lim ∧ (j : Int) ∈ vs :=
  (sortedSet_spec lim vs).2 j

/-- A range that the limit of NPP does not cut. -/
theorem mem_rangeSet {npp lim : Nat} {lo hi : Int} {j : Nat} (whole : (rangeSet npp lim lo hi).length ≤ npp) :
    j ∈ rangeSet npp lim lo hi ↔ j < lim ∧ lo ≤ (j : Int) ∧ (j : Int) < hi := by
  unfold rangeSet at whole ⊢
  simp only [List.length_map, List.length_range] at whole
  simp only [List.mem_map, List.mem_range]
  constructor
  · rintro ⟨i, hi, rfl⟩
    omega
  · rintro ⟨below, least, most⟩
    exact ⟨j - lo.toNat, by omega, by omega⟩

/-! ## Canonical patterns (Table 15-4) -/

section
variable {npp lim x p0 p1 p2 : Nat} {l : List Nat} {j : Nat}

theorem mem_canonSet_band (inverse : Bool) (made : canonSet 1 npp lim inverse x p0 p1 p2 = some l) (whole : l.length ≤ npp) :
    j ∈ l ↔ j < lim ∧ x ≤ j + (if inverse then p1 else p0) ∧ j ≤ x + (if inverse then p0 else p1) := by
  cases inverse <;> (obtain rfl := Option.some.inj made; rw [mem_rangeSet whole]; simp; omega)

theorem mem_canonSet_stride (inverse : Bool) (made : canonSet 2 npp lim inverse x p0 p1 p2 = some l) :
    j ∈ l ↔ j < lim ∧ ∃ k, k < p0 ∧ (if inverse then (x : Int) = j + (BitVec.ofNat 32 p2).toInt + k * p1
      else (j : Int) = x + (BitVec.ofNat 32 p2).toInt + k * p1) := by
  simp only [canonSet] at made
  split at made
  · exact nomatch made
  · obtain rfl := Option.some.inj made
    rw [mem_sortedSet]
    simp only [List.mem_map, List.mem_range]
    refine and_congr_right fun _ => exists_congr fun k => and_congr_right fun _ => ?_
    cases inverse with
    | false => exact eq_comm
    | true =>
      rw [if_pos rfl, if_pos rfl]
      constructor <;> intro h <;> omega

theorem mem_canonSet_block (inverse : Bool) (made : canonSet 3 npp lim inverse x p0 p1 p2 = some l) (whole : l.length ≤ npp) :
    j ∈ l ↔ j < lim ∧ j / (if inverse then p0 else p1) = x / (if inverse then p1 else p0) := by
  simp only [canonSet] at made
  split at made
  · exact nomatch made
  next some_ =>
    obtain rfl := Option.some.inj made
    have pos : 0 < if inverse then p0 else p1 := by
      simp only [Bool.or_eq_true, decide_eq_true_eq, not_or] at some_
      split <;> omega
    rw [mem_rangeSet whole]
    generalize (if inverse = true then p0 else p1) = m at pos
    generalize (if inverse = true then p1 else p0) = n
    refine and_congr_right fun _ => ?_
    rw [Nat.div_eq_iff pos]
    generalize x / n * m = b
    omega

theorem mem_canonSet_hash (made : canonSet 5 npp lim false x p0 p1 p2 = some l) :
    j ∈ l ↔ j < lim ∧ ∃ k, k < p0 ∧
      j = (hMix (BitVec.ofNat 64 (p2 * 2 ^ 32 + p1)) (BitVec.ofNat 64 (x * 2 ^ 32 + k))).toNat % lim := by
  simp only [canonSet] at made
  split at made
  · exact nomatch made
  · obtain rfl := Option.some.inj made
    rw [mem_sortedSet]
    simp only [List.mem_map, List.mem_range]
    refine and_congr_right fun _ => exists_congr fun k => and_congr_right fun _ => ?_
    rw [Nat.cast_inj]
    exact eq_comm

end

/-! ## Reads in turn -/

theorem rd_bind {α β : Type} {m : Rd α} {a : α} {s t : State} (read : m s = .ok (a, t)) (f : α → Rd β) : (m >>= f) s = f a t := by
  change (m s >>= fun x => f x.1 x.2) = _
  rw [read]
  rfl

/-- What a read in turn answers, it answers from what the first read does. -/
theorem rd_bind_ok {α β : Type} {m : Rd α} {f : α → Rd β} {s v : State} {b : β} (read : (m >>= f) s = .ok (b, v)) :
    ∃ a t, m s = .ok (a, t) ∧ f a t = .ok (b, v) := by
  change (m s >>= fun x => f x.1 x.2) = _ at read
  cases made : m s with
  | error e =>
    rw [made] at read
    exact nomatch read
  | ok x =>
    rw [made] at read
    exact ⟨x.1, x.2, rfl, read⟩

/-! ## Kronecker patterns and programs (R256, R258) -/

/-- The coordinates that the sets of two sub-handles give. -/
theorem mem_kron {lim m j : Nat} {sa sb : List Nat} :
    j ∈ sortedSet lim (sa.flatMap fun ja => (sb.filter (· < m)).map fun jb => ((ja * m + jb : Nat) : Int)) ↔
      j < lim ∧ ∃ u ∈ sa, ∃ v ∈ sb, v < m ∧ j = u * m + v := by
  rw [mem_sortedSet]
  refine and_congr_right fun _ => ?_
  simp only [List.mem_flatMap, List.mem_map, List.mem_filter, decide_eq_true_eq]
  constructor
  · rintro ⟨u, hu, v, ⟨hv, low⟩, is⟩
    exact ⟨u, hu, v, hv, low, by omega⟩
  · rintro ⟨u, hu, v, hv, low, is⟩
    exact ⟨u, hu, v, ⟨hv, low⟩, by omega⟩

/-- A run of a level of another kind than 0 keeps a set that is not too long. -/
theorem runPattern_kron {h : Handle} {i0 : Word} {l x : Nat} {inv : Bool} {set : List Nat} {s t : State} (kind : hKind h l = 4)
    (made : kronRun h i0 l inv x s = .ok (set, t)) (fits : set.length ≤ hNpp h l) : runPattern h i0 inv l x s = .ok (set, t) := by
  unfold runPattern
  rw [if_neg (by omega), if_pos kind]
  refine (rd_bind made _).trans ?_
  dsimp only
  rw [if_neg (by omega)]
  rfl

section
variable {h : Handle} {i0 : Word} {l x : Nat} {inv : Bool} {s s1 s2 s3 s4 s5 s6 s7 : State} {pa pb : Word} {rb cb : Nat} {a b : Handle}
  {sa sb : List Nat}

theorem kronRun_ok (ptrs : kronPtrs h i0 l s = .ok ((pa, pb), s1)) (rows : param h l 4 i0 s1 = .ok (rb, s2))
    (cols : param h l 5 i0 s2 = .ok (cb, s3)) (hrb : rb ≠ 0) (hcb : cb ≠ 0)
    (ha : subHandle pa i0 (BitVec.ofNat 64 x) s3 = .ok (a, s4)) (hb : subHandle pb i0 (BitVec.ofNat 64 x) s4 = .ok (b, s5))
    (hsa : (if inv then subParents a i0 (x / cb) s5 else subSet a i0 (x / rb) s5) = .ok (sa, s6))
    (hsb : (if inv then subParents b i0 (x % cb) s6 else subSet b i0 (x % rb) s6) = .ok (sb, s7)) :
    kronRun h i0 l inv x s = .ok (sortedSet (if inv then hProd h l else hDim h l)
      (sa.flatMap fun ja => (sb.filter (· < if inv then rb else cb)).map fun jb =>
        ((ja * (if inv then rb else cb) + jb : Nat) : Int)), s7) := by
  refine (rd_bind ptrs _).trans ((rd_bind rows _).trans ((rd_bind cols _).trans ?_))
  dsimp only
  rw [if_neg (by simp [hrb, hcb])]
  refine (rd_bind ha _).trans ((rd_bind hb _).trans ?_)
  cases inv with
  | false =>
    simp only [Bool.false_eq_true, if_false] at hsa hsb ⊢
    exact (rd_bind hsa _).trans (rd_bind hsb _)
  | true =>
    simp only [if_true] at hsa hsb ⊢
    exact (rd_bind hsa _).trans (rd_bind hsb _)

end

theorem runPattern_program {h : Handle} {i0 : Word} {l x : Nat} {inv : Bool} {s s1 s2 : State} {ws : List Nat} {es : List Int} {last : Nat}
    (kind : hKind h l = 0) (words : readWords (hPtr h l) i0 (hNw h l) 0 s = .ok (ws, s1))
    (ran : let start := if inv then (ws.findIdx fun w => w / 2 ^ 28 == 0xE) + 1 else 0
      runWords h i0 l ws (BitVec.ofNat 64 x) (subElement h i0 l (BitVec.ofNat 64 x)) 65536 start (start - 1)
        (Run.start (BitVec.ofNat 64 x) (BitVec.ofNat 64 (if inv then hProd h l else hDim h l))) s1 = .ok ((es, last), s2))
    (fits : (sortedSet (if inv then hProd h l else hDim h l) es).length ≤ hNpp h l) :
    runPattern h i0 inv l x s = .ok (sortedSet (if inv then hProd h l else hDim h l) es, s2) := by
  unfold runPattern
  rw [if_pos kind]
  refine (rd_bind words _).trans ((rd_bind ran _).trans ?_)
  dsimp only
  rw [if_neg (by omega)]
  rfl

/-! ## Operations of a program (R259, Table 15-5) -/

section
variable {h : Handle} {i0 arg : Word} {l pc last fuel w : Nat} {ws : List Nat} {sub : Bool → Word → Word → Rd Word} {r : Run} {s : State}
  (at_ : ws[pc]? = some w)
include at_

/-- One word of a program. -/
theorem runWords_step : runWords h i0 l ws arg sub (fuel + 1) pc last r =
    match w / 2 ^ 28 with
    | 0x0 => pure (r.out, pc)
    | 0xE => pure (r.out, pc)
    | 0x1 => runWords h i0 l ws arg sub fuel (pc + 1) pc (r.set (w / 2 ^ 25 % 8) ((BitVec.ofNat 19 w).signExtend 64))
    | 0x2 => do
      let v ← param h l (w % 16) i0
      runWords h i0 l ws arg sub fuel (pc + 1) pc (r.set (w / 2 ^ 25 % 8) (w64 v))
    | 0x4 => runWords h i0 l ws arg sub fuel (pc + 1) pc
        (r.set (w / 2 ^ 25 % 8) (r.get (w / 2 ^ 22) + (BitVec.ofNat 19 w).signExtend 64))
    | 0x7 => runWords h i0 l ws arg sub fuel (pc + 1) pc (r.set (w / 2 ^ 25 % 8) (r.get (w / 2 ^ 22) >>> (w % 64)))
    | 0xC =>
      if (r.get (w / 2 ^ 22)).slt (r.get (w / 2 ^ 19)) then
        let t := (pc : Int) + (BitVec.ofNat 19 w).toInt
        if t < 0 || (ws.length : Int) ≤ t then stopRd .patternProgram (w64 pc) arg else runWords h i0 l ws arg sub fuel t.toNat pc r
      else runWords h i0 l ws arg sub fuel (pc + 1) pc r
    | 0xD =>
      if 8192 ≤ r.out.length then stopRd .patternProgram (w64 pc) arg
      else runWords h i0 l ws arg sub fuel (pc + 1) pc { r with out := r.out ++ [(r.get (w / 2 ^ 22)).toInt] }
    | 0xF => do
      let v ← sub (w % 2 == 1) (r.get (w / 2 ^ 22)) (r.get (w / 2 ^ 19))
      runWords h i0 l ws arg sub fuel (pc + 1) pc (r.set (w / 2 ^ 25 % 8) v)
    | op => runWords h i0 l ws arg sub fuel (pc + 1) pc
        (r.set (w / 2 ^ 25 % 8) (patternAlu op (r.get (w / 2 ^ 22)) (r.get (w / 2 ^ 19)))) := by
  conv_lhs => unfold runWords
  rw [at_] <;> rfl

/-- Every operation but those that read, branch or stop (Table 15-5). -/
theorem runWords_alu {op : Nat} (is : w / 2 ^ 28 = op) (alu : op ∈ [0x3, 0x5, 0x6, 0x8, 0x9, 0xA, 0xB]) :
    runWords h i0 l ws arg sub (fuel + 1) pc last r s = runWords h i0 l ws arg sub fuel (pc + 1) pc
      (r.set (w / 2 ^ 25 % 8) (patternAlu op (r.get (w / 2 ^ 22)) (r.get (w / 2 ^ 19)))) s := by
  rw [runWords_step at_, is]
  simp only [List.mem_cons, List.not_mem_nil, or_false] at alu
  rcases alu with rfl | rfl | rfl | rfl | rfl | rfl | rfl <;> rfl

theorem runWords_halt (op : w / 2 ^ 28 = 0x0 ∨ w / 2 ^ 28 = 0xE) :
    runWords h i0 l ws arg sub (fuel + 1) pc last r s = .ok ((r.out, pc), s) := by
  rw [runWords_step at_]
  rcases op with op | op <;> (rw [op]; rfl)

theorem runWords_param {v : Nat} {t : State} (op : w / 2 ^ 28 = 0x2) (read : param h l (w % 16) i0 s = .ok (v, t)) :
    runWords h i0 l ws arg sub (fuel + 1) pc last r s =
      runWords h i0 l ws arg sub fuel (pc + 1) pc (r.set (w / 2 ^ 25 % 8) (BitVec.ofNat 64 v)) t := by
  rw [runWords_step at_, op]
  exact rd_bind read _

theorem runWords_sub {v : Word} {t : State} (op : w / 2 ^ 28 = 0xF)
    (read : sub (w % 2 == 1) (r.get (w / 2 ^ 22)) (r.get (w / 2 ^ 19)) s = .ok (v, t)) :
    runWords h i0 l ws arg sub (fuel + 1) pc last r s =
      runWords h i0 l ws arg sub fuel (pc + 1) pc (r.set (w / 2 ^ 25 % 8) v) t := by
  rw [runWords_step at_, op]
  exact rd_bind read _

theorem runWords_stays (op : w / 2 ^ 28 = 0xC) (stays : (r.get (w / 2 ^ 19)).toInt ≤ (r.get (w / 2 ^ 22)).toInt) :
    runWords h i0 l ws arg sub (fuel + 1) pc last r s = runWords h i0 l ws arg sub fuel (pc + 1) pc r s := by
  have cond : (r.get (w / 2 ^ 22)).slt (r.get (w / 2 ^ 19)) = false := decide_eq_false (Int.not_lt.2 stays)
  rw [runWords_step at_, op]
  exact congrFun (if_neg (by rw [cond]; exact Bool.false_ne_true)) s

theorem runWords_branches (op : w / 2 ^ 28 = 0xC) (goes : (r.get (w / 2 ^ 22)).toInt < (r.get (w / 2 ^ 19)).toInt)
    (least : 0 ≤ (pc : Int) + (BitVec.ofNat 19 w).toInt) (most : (pc : Int) + (BitVec.ofNat 19 w).toInt < ws.length) :
    runWords h i0 l ws arg sub (fuel + 1) pc last r s =
      runWords h i0 l ws arg sub fuel ((pc : Int) + (BitVec.ofNat 19 w).toInt).toNat pc r s := by
  rw [runWords_step at_, op]
  refine congrFun ((if_pos (decide_eq_true goes)).trans (if_neg ?_)) s
  simp only [Bool.or_eq_true, decide_eq_true_eq, not_or]
  exact ⟨Int.not_lt.2 least, Int.not_le.2 most⟩

theorem runWords_emits (op : w / 2 ^ 28 = 0xD) (room : r.out.length < 8192) : runWords h i0 l ws arg sub (fuel + 1) pc last r s =
    runWords h i0 l ws arg sub fuel (pc + 1) pc { r with out := r.out ++ [(r.get (w / 2 ^ 22)).toInt] } s := by
  rw [runWords_step at_, op]
  exact congrFun (if_neg (Nat.not_le_of_lt room)) s

end

theorem patternAlu_min (a b : Word) : patternAlu 0x9 a b = if a.toInt ≤ b.toInt then a else b := by
  change (if b.slt a then b else a) = _
  by_cases le : a.toInt ≤ b.toInt
  · rw [if_pos le, if_neg]
    simpa [BitVec.slt] using le
  · rw [if_neg le, if_pos]
    simpa [BitVec.slt] using le

theorem patternAlu_max (a b : Word) : patternAlu 0xA a b = if b.toInt ≤ a.toInt then a else b := by
  change (if a.slt b then b else a) = _
  by_cases le : b.toInt ≤ a.toInt
  · rw [if_pos le, if_neg]
    simpa [BitVec.slt] using le
  · rw [if_neg le, if_pos]
    simpa [BitVec.slt] using le

theorem subElement_ok {h : Handle} {i0 arg x i : Word} {l lo hi : Nat} {second : Bool} {sh : Handle} {set : List Nat}
    {s s1 s2 s3 s4 : State} (low : param h l (if second then 10 else 8) i0 s = .ok (lo, s1))
    (high : param h l (if second then 11 else 9) i0 s1 = .ok (hi, s2))
    (handle : subHandle (BitVec.ofNat 64 (lo + 2 ^ 32 * hi)) i0 arg s2 = .ok (sh, s3))
    (elements : subSet sh i0 x.toNat s3 = .ok (set, s4)) : subElement h i0 l arg second x i s =
      .ok (if i.toNat < set.length then BitVec.ofNat 64 (set.getD i.toNat 0) else BitVec.allOnes 64, s4) := by
  have high' : param h l ((if second then 10 else 8) + 1) i0 s1 = .ok (hi, s2) := by cases second <;> exact high
  refine (rd_bind low _).trans ((rd_bind high' _).trans ((rd_bind handle _).trans ((rd_bind elements _).trans ?_)))
  refine congrArg (fun v => (Except.ok (v, s4) : Except Stop (Word × State))) ?_
  split
  next inside =>
    rw [List.getElem?_eq_getElem inside, List.getD_eq_getElem?_getD, List.getElem?_eq_getElem inside]
    rfl
  next beyond =>
    rw [List.getElem?_eq_none (Nat.le_of_not_lt beyond)]
    rfl

/-! ## Lookup (R251) -/

theorem coords_length (h : Handle) (n e : Nat) : (coords h n e).length = n := by
  induction n generalizing e with
  | zero => rfl
  | succ n ih => rw [coords, List.length_append, ih, List.length_singleton]

theorem hProd_succ (h : Handle) (n : Nat) : hProd h (n + 1) = hProd h n * hDim h n := by
  rw [hProd, List.range_succ, List.foldl_append]
  rfl

/-- The coordinates of an element give its number again. -/
theorem coords_number (h : Handle) (n : Nat) {e : Nat} (inside : e < hProd h n) :
    (coords h n e).zipIdx.foldl (fun x c => x * hDim h c.2 + c.1) 0 = e := by
  induction n generalizing e with
  | zero => exact (Nat.lt_one_iff.1 inside).symm
  | succ n ih =>
    rw [hProd_succ] at inside
    rw [coords, List.zipIdx_append, List.foldl_append, ih (Nat.div_lt_of_lt_mul (by rwa [Nat.mul_comm])), coords_length]
    simp only [List.zipIdx_cons, List.zipIdx_nil, List.foldl_cons, List.foldl_nil, Nat.zero_add]
    exact Nat.div_add_mod' e (hDim h n)

theorem lookup_from {h : Handle} {i0 : Word} {e n : Nat} (some_ : 1 ≤ n) (levels : hNlev h = n) (inside : e < hProd h n) :
    lookup h i0 e = lookupFrom h i0 (runPattern h i0 false) (coords h n e) 0 0 := by
  subst levels
  exact if_neg (by simp only [Bool.or_eq_true, decide_eq_true_eq, not_or]; omega)

section
variable {h : Handle} {i0 : Word} {run : Nat → Nat → Rd (List Nat)} {l p c : Nat} {cs : List Nat} {s s1 s2 s3 : State}

theorem lookupFrom_found {q : Nat} (found : level h i0 run l p c s = .ok (some q, s1)) :
    lookupFrom h i0 run (c :: cs) l p s = lookupFrom h i0 run cs (l + 1) q s1 := rd_bind found _

theorem lookupFrom_missing (missing : level h i0 run l p c s = .ok (none, s1)) :
    lookupFrom h i0 run (c :: cs) l p s = .ok (none, s1) := rd_bind missing _

theorem level_dense (dense : hFmt h l = 0) : level h i0 run l p c s = .ok (some (p * hDim h l + c), s) := by
  unfold level
  rw [dense]
  rfl

/-- Lookup through dense levels, from level l at position p on. -/
theorem lookupFrom_dense (dense : ∀ k, k < l + cs.length → hFmt h k = 0) : lookupFrom h i0 run cs l p s =
    .ok (some ((cs.zipIdx l).foldl (fun x c => x * hDim h c.2 + c.1) p), s) := by
  induction cs generalizing l p with
  | nil => rfl
  | cons c cs ih =>
    rw [List.length_cons] at dense
    rw [lookupFrom_found (level_dense (dense l (by omega))), ih fun k hk => dense k (by omega), List.zipIdx_cons, List.foldl_cons]

/-- What a search among coordinates finds: the lowest position at which the coordinate stands. -/
theorem findCrd_spec {crd : Word} {n q : Nat} {r : Option Nat} (made : findCrd crd c i0 n q s = .ok (r, s3)) :
    (∀ k, r = some k → q ≤ k ∧ k < q + n ∧ (∃ u, rd (crd + BitVec.ofNat 64 (4 * k)) 4 i0 u = .ok (c, s3)) ∧
      ∀ j, q ≤ j → j < k → ∃ u v x, rd (crd + BitVec.ofNat 64 (4 * j)) 4 i0 u = .ok (x, v) ∧ x ≠ c) ∧
    (r = none → ∀ j, q ≤ j → j < q + n → ∃ u v x, rd (crd + BitVec.ofNat 64 (4 * j)) 4 i0 u = .ok (x, v) ∧ x ≠ c) := by
  induction n generalizing q s with
  | zero =>
    obtain ⟨rfl, rfl⟩ := Prod.mk.inj (Except.ok.inj made)
    exact ⟨fun k hk => (nomatch hk), fun _ j hj hlt => by omega⟩
  | succ n ih =>
    obtain ⟨x, v, read, rest⟩ := rd_bind_ok made
    by_cases same : x = c
    · rw [if_pos same] at rest
      obtain ⟨rfl, rfl⟩ := Prod.mk.inj (Except.ok.inj rest)
      subst same
      refine ⟨fun k hk => ?_, fun hk => nomatch hk⟩
      obtain rfl := Option.some.inj hk
      exact ⟨Nat.le_refl _, by omega, ⟨s, read⟩, fun j hj hlt => by omega⟩
    · rw [if_neg same] at rest
      obtain ⟨found, missing⟩ := ih rest
      have here (j : Nat) (hj : j = q) : ∃ u v x, rd (crd + BitVec.ofNat 64 (4 * j)) 4 i0 u = .ok (x, v) ∧ x ≠ c :=
        hj ▸ ⟨s, v, x, read, same⟩
      refine ⟨fun k hk => ?_, fun hr j hj hlt => ?_⟩
      · obtain ⟨least, most, at_, before⟩ := found k hk
        refine ⟨by omega, by omega, at_, fun j hj hlt => ?_⟩
        by_cases first : j = q
        · exact here j first
        · exact before j (by omega) hlt
      · by_cases first : j = q
        · exact here j first
        · exact missing hr j (by omega) (by omega)

theorem level_compressed {lo hi : Nat} {r : Option Nat} (fmt : hFmt h l = 1)
    (low : rd (hPtr h l + BitVec.ofNat 64 (4 * p)) 4 i0 s = .ok (lo, s1))
    (high : rd (hPtr h l + BitVec.ofNat 64 (4 * p + 4)) 4 i0 s1 = .ok (hi, s2)) (made : level h i0 run l p c s = .ok (r, s3)) :
    findCrd (hPtr h l + BitVec.ofNat 64 (hAux h l)) c i0 (hi - lo) lo s2 = .ok (r, s3) := by
  unfold level at made
  rw [fmt] at made
  exact ((rd_bind low _).trans (rd_bind high _)).symm.trans made

theorem level_singleton {v : Nat} (fmt : hFmt h l = 2) (read : rd (hPtr h l + BitVec.ofNat 64 (4 * p)) 4 i0 s = .ok (v, s1)) :
    level h i0 run l p c s = .ok (if v = c then some p else none, s1) := by
  unfold level
  rw [fmt]
  exact rd_bind read _

section
variable {b m : Nat} (fmt : hFmt h l = 3) (read : rd (hPtr h l + BitVec.ofNat 64 ((p * hDim h l + c) / 8)) 1 i0 s = .ok (b, s1))
include fmt read

theorem level_bitmap_clear (clear : b.testBit ((p * hDim h l + c) % 8) = false) : level h i0 run l p c s = .ok (none, s1) := by
  unfold level
  rw [fmt]
  refine (rd_bind read _).trans ?_
  rw [clear]
  rfl

theorem level_bitmap_set (set : b.testBit ((p * hDim h l + c) % 8) = true)
    (count : countBytes (hPtr h l) i0 ((p * hDim h l + c) / 8) 0 s1 = .ok (m, s2)) :
    level h i0 run l p c s = .ok (some (m + onesOf b ((p * hDim h l + c) % 8)), s2) := by
  unfold level
  rw [fmt]
  refine (rd_bind read _).trans ?_
  rw [set]
  exact rd_bind count _

end

/-- The ones of a run of bitmap bytes are those of the bytes read. -/
theorem countBytes_spec {ptr : Word} {n k m : Nat} (count : countBytes ptr i0 n k s1 = .ok (m, s2)) :
    ∃ vs : List Nat, vs.length = n ∧ m = (vs.map fun v => onesOf v 8).sum ∧
      ∀ j, j < n → ∃ u v, rd (ptr + BitVec.ofNat 64 (k + j)) 1 i0 u = .ok (vs.getD j 0, v) := by
  induction n generalizing k m s1 with
  | zero =>
    obtain ⟨rfl, rfl⟩ := Prod.mk.inj (Except.ok.inj count)
    exact ⟨[], rfl, rfl, fun j hj => by omega⟩
  | succ n ih =>
    obtain ⟨v, t, read, rest⟩ := rd_bind_ok count
    obtain ⟨m', t', others, last⟩ := rd_bind_ok rest
    obtain ⟨rfl, rfl⟩ := Prod.mk.inj (Except.ok.inj last)
    obtain ⟨vs, length, sum, reads⟩ := ih others
    refine ⟨v :: vs, congrArg (· + 1) length, by rw [List.map_cons, List.sum_cons, sum], fun j hj => ?_⟩
    cases j with
    | zero => exact ⟨s1, t, read⟩
    | succ j =>
      obtain ⟨u, w, at_⟩ := reads j (by omega)
      exact ⟨u, w, by rwa [show k + (j + 1) = k + 1 + j by omega]⟩

section
variable {set : List Nat} (fmt : hFmt h l = 4) (ran : run l p s = .ok (set, s1))
include fmt ran

theorem level_pattern : level h i0 run l p c s = .ok ((set.findIdx? (· == c)).map fun k => p * hNpp h l + k, s1) := by
  unfold level
  rw [fmt]
  refine (rd_bind ran _).trans ?_
  cases set.findIdx? (· == c) <;> rfl

end
end

end Sys2Proof.Machine

namespace Sys2Proof.Proofs
open Sys2Proof Sys2Proof.Machine Sys2Proof.Claims

/-- Settles O37: a pattern's set is the sorted list of the values that its rule gives, a program's operations are each one step of its
run, and lookup follows the levels, of which each one finds its coordinate by its own search. -/
theorem patternSets : Obligations.PatternSets := by
  unfold Obligations.PatternSets
  refine ⟨fun npp lim x p0 p1 p2 l j => ⟨mem_canonSet_band false, mem_canonSet_band true, mem_canonSet_stride false,
      mem_canonSet_stride true, mem_canonSet_block false, mem_canonSet_block true, mem_canonSet_hash⟩, ?_, ?_, ?_,
    fun h i0 arg x i l lo hi second sh set s s1 s2 s3 s4 => subElement_ok, fun h i0 e s some_ dense => ⟨fun inside => ?_, fun beyond => ?_⟩,
    fun h i0 e n s some_ levels inside => ⟨congrFun (lookup_from some_ levels inside) s, coords_length .., coords_number h n inside⟩, ?_⟩
  · intro h i0 l x inv s s1 s2 s3 s4 s5 s6 s7 pa pb rb cb a b sa sb kind ptrs rows cols hrb hcb ha hb hsa hsb
    exact ⟨_, (sortedSet_spec _ _).1, fun j => mem_kron, runPattern_kron kind (kronRun_ok ptrs rows cols hrb hcb ha hb hsa hsb)⟩
  · intro h i0 l x inv s s1 s2 ws es last lim start kind words ran
    exact ⟨_, (sortedSet_spec _ _).1, fun j => mem_sortedSet, runPattern_program kind words ran⟩
  · intro h i0 arg l pc last fuel w ws sub r s at_
    refine ⟨runWords_halt at_, fun op => ?_, fun op => runWords_alu at_ op (by decide), fun op => runWords_alu at_ op (by decide),
      fun op => runWords_alu at_ op (by decide), fun v s' op read => runWords_param at_ op read, fun op => ?_, fun op => ?_,
      fun op => runWords_alu at_ op (by decide), fun op => ?_, fun op => ?_, fun op => runWords_alu at_ op (by decide),
      fun v s' op read => runWords_sub at_ op read, fun op stays => runWords_stays at_ op stays,
      fun op goes least most => runWords_branches at_ op goes least most, fun op room => runWords_emits at_ op room⟩
    · rw [runWords_step at_, op] <;> rfl
    · rw [runWords_step at_, op] <;> rfl
    · rw [runWords_step at_, op] <;> rfl
    · rw [runWords_alu at_ op (by decide), patternAlu_min]
    · rw [runWords_alu at_ op (by decide), patternAlu_max]
  · rw [lookup_from some_ rfl inside]
    refine (lookupFrom_dense fun k hk => dense k (by rwa [coords_length, Nat.zero_add] at hk)).trans ?_
    rw [coords_number h _ inside]
  · exact congrFun (if_pos (by simp [beyond])) s
  · intro h i0 run l p c cs s s1 s2 s3
    refine ⟨fun q => lookupFrom_found, lookupFrom_missing, fun lo hi r fmt low high made => ?_, fun v fmt read => level_singleton fmt read,
      fun b m fmt read => ⟨level_bitmap_clear fmt read, fun set count => ⟨level_bitmap_set fmt read set count, ?_⟩⟩,
      fun set fmt ran => ⟨fun k found => ?_, fun missing => ?_⟩⟩
    · obtain ⟨found, missing⟩ := findCrd_spec (level_compressed fmt low high made)
      refine ⟨fun q hq => ?_, fun hr k least most => missing hr k least (by omega)⟩
      obtain ⟨least, most, at_, before⟩ := found q hq
      exact ⟨least, by omega, at_, before⟩
    · simpa using countBytes_spec count
    · rw [level_pattern fmt ran, found]
      rfl
    · rw [level_pattern fmt ran, List.findIdx?_eq_none_iff.2 fun x hx => beq_eq_false_iff_ne.2 fun is : x = c => missing (is ▸ hx)]
      rfl

end Sys2Proof.Proofs
end

section
/-! SUPPORT. What `hmask` and the generator forms answer, with the statement about them (R255, R261 to R263). -/

namespace Sys2Proof.Machine

/-! ## `hmask` (R255) -/

section
variable {c : Ctl} {f : FR} {s u v w : State} (hg : s.guard c = true)
include hg

theorem exec_hmaskLin {ts : List (Nat × Bool)} (start : s.vecStart (.hmaskLin c f) = .ok ()) (levels : hNlev (s.handle f.opa) ≠ 0)
    (checked : precheck (s.handle f.opa) s = .ok ((), u))
    (present : presentLanes (fun i => do
      let r ← lookup (s.handle f.opa) (w64 (s.sidx.toNat + i)) (s.sidx.toNat + i)
      pure r.isSome) (s.active f.msk) u = .ok (ts, v)) :
    exec (.hmaskLin c f) s = .next (v.putTags (mreg f.opd) ts).advance := by
  change execHmaskLin c f s = _
  rw [execHmaskLin, run_true _ hg]
  simp only [start, act_ok_bind, if_neg levels, checked, undo_ok, present, settle_ok]

section
variable (start : s.vecStart (.hmaskTr c f) = .ok ()) (levels : hNlev (s.handle f.opa) = 2)
  (inside : (s.val f.opb).toNat < hDim (s.handle f.opa) 1) (checked : precheck (s.handle f.opa) s = .ok ((), u))
include start levels inside checked

theorem exec_hmaskTr_lookup {ts : List (Nat × Bool)} (plain : hFmt (s.handle f.opa) 1 ≠ 4)
    (present : presentLanes (fun i => do
      let r ← lookup (s.handle f.opa) (w64 (s.sidx.toNat + i))
        ((s.sidx.toNat + i) * hDim (s.handle f.opa) 1 + (s.val f.opb).toNat)
      pure r.isSome) (s.active f.msk) u = .ok (ts, v)) :
    exec (.hmaskTr c f) s = .next (v.putTags (mreg f.opd) ts).advance := by
  change execHmaskTr c f s = _
  rw [execHmaskTr, run_true _ hg]
  simp only [start, act_ok_bind, levels, bne_self_eq_false, Bool.false_eq_true, if_false, if_neg (Nat.not_le_of_lt inside), checked,
    undo_ok, if_neg plain, present, settle_ok]

variable {u' : State} (pattern : hFmt (s.handle f.opa) 1 = 4)
  (level : checkLevel (s.handle f.opa) 1 (s.val f.opb).toNat u = .ok ((), u'))
include pattern level

theorem exec_hmaskTr_inverse {rows : List Nat} (body : s.inBody = true) (inv : invertible (s.handle f.opa) 1 0 u' = .ok (true, v))
    (ran : runPattern (s.handle f.opa) 0 true 1 (s.val f.opb).toNat v = .ok (rows, w)) : exec (.hmaskTr c f) s =
      .next (w.putTags (mreg f.opd) ((s.active f.msk).map fun i => (i, rows.contains (s.sidx.toNat + i)))).advance := by
  change execHmaskTr c f s = _
  rw [execHmaskTr, run_true _ hg]
  simp only [start, act_ok_bind, levels, bne_self_eq_false, Bool.false_eq_true, if_false, if_neg (Nat.not_le_of_lt inside), checked,
    undo_ok, if_pos pattern, level, inv, Bool.not_true, body, ran, settle_ok]

theorem exec_hmaskTr_oneWay (oneWay : invertible (s.handle f.opa) 1 0 u' = .ok (false, v)) : exec (.hmaskTr c f) s =
    .next (s.takeTrap { cause := .noninvertiblePattern, val := BitVec.ofNat 64 (hAux (s.handle f.opa) 1)
                        idx0 := BitVec.ofNat 64 (hreg f.opa).val }) := by
  change execHmaskTr c f s = _
  rw [execHmaskTr, run_true _ hg]
  simp only [start, act_ok_bind, levels, bne_self_eq_false, Bool.false_eq_true, if_false, if_neg (Nat.not_le_of_lt inside), checked,
    undo_ok, if_pos pattern, level, oneWay, Bool.not_false, if_true]
  rfl

end

/-! ## Generators (R261 to R263) -/

/-- The state with a run's list in a generator. -/
def State.listGen (s : State) (n : Fin 4) (set : List Nat) : State :=
  (s.modCtx fun c => c.setGen n { state := .ready, list := set.map w64, cursor := 0 }).advance

omit hg in
theorem State.listGen_spec (s : State) (n : Fin 4) (set : List Nat) :
    ((s.listGen n set).ctx.gens.get n).left = set.map (BitVec.ofNat 64) ∧
    (∀ m, m ≠ n → (s.listGen n set).ctx.gens.get m = s.ctx.gens.get m) ∧ (s.listGen n set).mem = s.mem ∧
    (s.listGen n set).thread = s.advance.thread := by
  have gens := State.ctx_advance_keeps Ctx.gens (fun _ _ => rfl) (fun _ _ => rfl)
    (s.modCtx fun c => c.setGen n { state := .ready, list := set.map w64, cursor := 0 })
  have same : (s.modCtx fun c => c.setGen n { state := .ready, list := set.map w64, cursor := 0 }).thread = s.thread :=
    State.thread_modCtx (fun _ => rfl) fun _ => rfl
  rw [State.ctx_modCtx] at gens
  refine ⟨?_, fun m other => ?_, State.advance_mem _, ?_⟩
  · rw [State.listGen, gens, Ctx.setGen, vget_set_same]
    rfl
  · rw [State.listGen, gens, Ctx.setGen, vget_set_ne _ _ other]
  · rw [State.listGen, State.thread_advance, State.thread_advance, State.pc, State.pc, same]

section
variable {l : Nat} {set : List Nat} (out : s.inBody = false) (pattern : hPattern (s.handle f.opa) = some l)
  (level : checkLevel (s.handle f.opa) l (s.val f.opb).toNat s = .ok ((), u))
include out pattern level

theorem exec_gstart (inside : (s.val f.opb).toNat < hProd (s.handle f.opa) l)
    (ran : runPattern (s.handle f.opa) 0 false l (s.val f.opb).toNat u = .ok (set, v)) :
    exec (.gstart c f) s = .next (v.listGen (greg f.opd) set) := by
  change execGstart c f s = _
  rw [execGstart, run_true _ hg, startGen]
  simp only [out, Bool.false_eq_true, if_false, pattern, if_neg (Nat.not_le_of_lt inside), level, undo_ok, act_ok_bind, Bool.not_true, ran]
  rfl

theorem exec_ginv (inside : (s.val f.opb).toNat < hDim (s.handle f.opa) l)
    (inv : invertible (s.handle f.opa) l 0 u = .ok (true, v))
    (ran : runPattern (s.handle f.opa) 0 true l (s.val f.opb).toNat v = .ok (set, w)) :
    exec (.ginv c f) s = .next (w.listGen (greg f.opd) set) := by
  change execGinv c f s = _
  rw [execGinv, run_true _ hg, startGen]
  simp only [out, Bool.false_eq_true, if_false, if_true, pattern, if_neg (Nat.not_le_of_lt inside), level, undo_ok, act_ok_bind, inv,
    Bool.not_true, ran]
  rfl

end

/-- A generator with some more of its entries taken. -/
def Gen.taken (g : Gen) (n : Nat) : Gen := { g with cursor := g.cursor + n }

omit hg in
theorem Gen.left_taken (g : Gen) (n : Nat) : (g.taken n).left = g.left.drop n := by
  unfold Gen.left Gen.taken
  dsimp only
  split
  · exact List.drop_nil.symm
  · rw [List.drop_drop]

theorem exec_gnextScalar_empty (dest : Claims.destOk s f.opd) (empty : (s.ctx.gens.get (greg f.opa)).left = []) :
    exec (.gnextScalar c f) s = .next (s.putS f.opd (BitVec.allOnes 64)).advance := by
  change execGnextScalar c f s = _
  rw [execGnextScalar, run_true _ hg]
  simp only [checkDest_ok dest, act_ok_bind, empty, settle_ok]

theorem exec_gnextScalar_next (dest : Claims.destOk s f.opd) {x : Word} {rest : List Word}
    (left : (s.ctx.gens.get (greg f.opa)).left = x :: rest) : exec (.gnextScalar c f) s =
      .next ((s.putS f.opd x).modCtx fun k => k.setGen (greg f.opa) ((s.ctx.gens.get (greg f.opa)).taken 1)).advance := by
  change execGnextScalar c f s = _
  rw [execGnextScalar, run_true _ hg]
  simp only [checkDest_ok dest, act_ok_bind, left, settle_ok]
  rfl

theorem exec_gnextVector {d : Fld} (start : s.vecStart (.gnextVector c f) = .ok ())
    (field : s.field f.opd f.ta f.wid.toNat .int = .ok d) (stream : s.checkStream f.opd (.gnextVector c f) = .ok ()) :
    let xs := (s.ctx.gens.get (greg f.opa)).left.take s.slen
    exec (.gnextVector c f) s = .next ((((s.putLanes d ((List.range xs.length).map fun i =>
      (i, (fitTo d.ty f.sat ((xs.getD i 0).toNat) 0).bits))).putTags (mreg f.opb)
        ((List.range s.slen).map fun i => (i, decide (i < xs.length)))).modCtx fun k =>
          k.setGen (greg f.opa) ((s.ctx.gens.get (greg f.opa)).taken xs.length)).sticky .satur
            ((List.range xs.length).any fun i => (fitTo d.ty f.sat ((xs.getD i 0).toNat) 0).satur)).advance := by
  change execGnextVector c f s = _
  rw [execGnextVector, run_true _ hg]
  simp only [start, field, stream, act_ok_bind, settle_ok, List.map_map, List.any_map]
  rfl

end

end Sys2Proof.Machine

namespace Sys2Proof.Proofs
open Sys2Proof Sys2Proof.Machine Sys2Proof.Claims

/-- Settles O38: once its checks pass a form writes what its lookups, its run or its generator give; a generator's list is taken from its
cursor on. -/
theorem presenceAndGenerators : Obligations.PresenceAndGenerators := by
  unfold Obligations.PresenceAndGenerators
  refine fun c f s u v w hg => ⟨fun ts => exec_hmaskLin hg, fun start levels inside checked => ⟨fun ts plain present =>
      exec_hmaskTr_lookup hg start levels inside checked plain present, fun u' rows pattern body level inv ran =>
      exec_hmaskTr_inverse hg start levels inside checked pattern level body inv ran, fun u' pattern level oneWay =>
      exec_hmaskTr_oneWay hg start levels inside checked pattern level oneWay⟩,
    fun l set out pattern inside level ran => ⟨_, exec_gstart hg out pattern level inside ran, v.listGen_spec ..⟩,
    fun l set out pattern inside level inv ran => ⟨_, exec_ginv hg out pattern level inside inv ran, w.listGen_spec ..⟩,
    fun dest => ⟨exec_gnextScalar_empty hg dest, fun x rest left => ⟨_, ?_, exec_gnextScalar_next hg dest left⟩⟩,
    fun d start field stream => ⟨_, ?_, exec_gnextVector hg start field stream⟩⟩
  · rw [Gen.left_taken, left]
    rfl
  · rw [Gen.left_taken, List.length_take, ← List.drop_eq_drop_min]

end Sys2Proof.Proofs
end

section
/-! SUPPORT. Scores, crossings and the forms of the tap unit, with the statement about them (R267 to R272). -/

namespace Sys2Proof.Machine

/-! ## The fold of the scores (R268) -/

/-- One more term of a sum that may have none yet. -/
def addTerm (sum : Option Num) (v : Num) : Option Num :=
  some (match sum with
    | none => v
    | some y => y.add false v)

/-- A score with a sum added and rounded once. -/
def scored (old : BitVec 32) (v : Num) : BitVec 32 :=
  BitVec.ofNat 32 (Flt.f32.round ((Flt.f32.val old.toNat).add false v) .rne false 0).bits

/-- The scores after a sum, when there is one, has been added at a key. -/
def addScore (acc : Table (BitVec 32)) (key : Nat) (part : Option Num) : Table (BitVec 32) :=
  match part with
  | none => acc
  | some v => putOr 0 acc key (scored (lookD acc key 0) v)

theorem lookD_addScore (acc : Table (BitVec 32)) (key k : Nat) (part : Option Num) : lookD (addScore acc key part) k 0 =
    if k = key then (part.map (scored (lookD acc k 0))).getD (lookD acc k 0) else lookD acc k 0 := by
  cases part with
  | none => exact (ite_self _).symm
  | some v =>
    by_cases same : k = key
    · rw [if_pos same, same]
      exact lookD_putOr_same ..
    · rw [if_neg same]
      exact lookD_putOr_ne _ _ _ same

theorem foldl_addTerm_some {α : Type} (term : α → Num) (xs : List α) (y : Num) :
    xs.foldl (fun sum x => addTerm sum (term x)) (some y) = some (xs.foldl (fun y x => y.add false (term x)) y) := by
  induction xs generalizing y with
  | nil => rfl
  | cons x xs ih => exact ih _

/-- The scores of one way: a sum for each slot of a list. -/
theorem lookD_scoreSlots {slots : List Nat} (nodup : slots.Nodup) (part : Nat → Option Num) {k j : Nat} (hk : k < 16) (hj : j < 16)
    (acc : Table (BitVec 32)) (n : Nat) : lookD (slots.foldl (fun acc sl => addScore acc (sl * 16 + k) (part sl)) acc) (n * 16 + j) 0 =
    if j = k ∧ n ∈ slots then ((part n).map (scored (lookD acc (n * 16 + j) 0))).getD (lookD acc (n * 16 + j) 0)
      else lookD acc (n * 16 + j) 0 := by
  induction slots generalizing acc with
  | nil => simp
  | cons sl slots ih =>
    obtain ⟨fresh, rest⟩ := List.nodup_cons.1 nodup
    rw [List.foldl_cons, ih rest, lookD_addScore]
    have key : n * 16 + j = sl * 16 + k ↔ j = k ∧ n = sl := by omega
    by_cases here : j = k ∧ n = sl
    · obtain ⟨rfl, rfl⟩ := here
      simp [fresh]
    · rw [if_neg (fun is => here (key.1 is))]
      refine if_congr (and_congr_right fun way => ?_) rfl rfl
      rw [List.mem_cons, or_iff_right fun is => here ⟨way, is⟩]

/-- The scores after those of the ways of a list, numbered from i on. -/
theorem lookD_scoreWays {slots : List Nat} (nodup : slots.Nodup) (part : Way → Nat → Option Num) (ways : List Way) {i j : Nat}
    (few : i + ways.length ≤ 16) (hj : j < 16) (acc : Table (BitVec 32)) (n : Nat) :
    lookD ((ways.zipIdx i).foldl (fun acc w => slots.foldl (fun acc sl => addScore acc (sl * 16 + w.2) (part w.1 sl)) acc) acc)
      (n * 16 + j) 0 =
    match if i ≤ j then ways[j - i]? else none with
    | some w => if n ∈ slots then ((part w n).map (scored (lookD acc (n * 16 + j) 0))).getD (lookD acc (n * 16 + j) 0)
        else lookD acc (n * 16 + j) 0
    | none => lookD acc (n * 16 + j) 0 := by
  induction ways generalizing i acc with
  | nil => simp
  | cons w ways ih =>
    rw [List.length_cons] at few
    rw [List.zipIdx_cons, List.foldl_cons, ih (by omega), lookD_scoreSlots nodup _ (by omega) hj]
    by_cases first : j = i
    · subst first
      simp
    · simp only [first, false_and, if_false]
      by_cases later : i ≤ j
      · have next : j - i = j - (i + 1) + 1 := by omega
        rw [if_pos later, if_pos (by omega), next, List.getElem?_cons_succ]
      · rw [if_neg later, if_neg (by omega)]

/-! ## `tap` (R267 to R269) -/

/-- The sum that a tap adds to the score of a way at a slot, when an active lane lies there. -/
def State.tapPart (u : State) (d : Fld) (slotOf dimOf : Nat → Nat) (on : List Nat) (w : Way) (sl : Nat) : Option Num :=
  (on.filter fun p => slotOf p == sl).foldl (fun sum p =>
    addTerm sum ((u.weightAt w (dimOf p)).mul (d.num (u.core.row (u.lane p))))) none

/-- Without its repetitions a list names each member once. -/
theorem nodup_eraseDups : ∀ xs : List Nat, xs.eraseDups.Nodup
  | [] => List.nodup_nil
  | x :: xs => by
    rw [List.eraseDups_cons, List.nodup_cons, List.mem_eraseDups]
    exact ⟨by simp, nodup_eraseDups _⟩
  termination_by xs => xs.length
  decreasing_by exact Nat.lt_succ_of_le (List.length_filter_le ..)

/-- The scores and the mask of the slots evaluated after a tap. -/
def State.tapAfter (u : State) (d : Fld) (slotOf dimOf : Nat → Nat) (on : List Nat) : Tap :=
  let slots := (on.map slotOf).eraseDups
  { u.ctx.tap with
    acc := u.ctx.tap.ways.zipIdx.foldl (fun acc w => slots.foldl (fun acc sl =>
      addScore acc (sl * 16 + w.2) (u.tapPart d slotOf dimOf on w.1 sl)) acc) u.ctx.tap.acc
    eval := slots.foldl (fun e sl => e ||| BitVec.ofNat 64 (2 ^ sl)) u.ctx.tap.eval }

/-- The element of a position, its slot and its dimension. -/
def State.tapElem (s : State) (p : Nat) : Nat := (s.sidx + w64 p).toNat
def State.tapSlot (s : State) (f : FX) (p : Nat) : Nat := bitsAt (s.val f.opa) 16 6 + s.tapElem p / bitsAt (s.val f.opa) 0 16
def State.tapDim (s : State) (f : FX) (p : Nat) : Nat := s.tapElem p % bitsAt (s.val f.opa) 0 16

/-- A tap in a body all of whose checks pass, with the steering and the vectors that it reads. -/
structure TapRun (c : Ctl) (f : FX) (s : State) (d : Fld) (steer : List Steer) (s1 s2 u : State) (vs : List (Nat × Num × Num)) : Prop where
  guard : s.guard c = true
  body : s.inBody = true
  start : s.vecStart (.tap c f) = .ok ()
  field : s.field f.opd .fm 0 .any = .ok d
  float : d.ty = .flt .f32 ∨ d.ty = .flt .bf16 ∨ d.ty = .flt .f16
  stream : s.checkStream f.opd (.tap c f) = .ok ()
  dims : bitsAt (s.val f.opa) 0 16 ≠ 0
  zero : (s.val f.opa) >>> 22 = 0
  slots : ∀ p ∈ s.active f.msk, s.tapSlot f p < 64
  same : s.ctx.tap.isOpen = true →
    s.ctx.tap.layer = f.xf.toNat ∧ s.ctx.tap.point = f.sub.toNat ∧ s.ctx.tap.d = bitsAt (s.val f.opa) 0 16
  steered : f.opb = .s 0 ∧ steer = [] ∧ s1 = s ∨ f.opb ≠ .s 0 ∧ s.needGlobal (s.val f.opb) 16 = .ok () ∧
    s.readSteer (s.val f.opb) ((s.active f.msk).map (s.tapSlot f)).eraseDups = .ok (steer, s1)
  read : s1.readVectors steer (s.tapSlot f) (s.tapDim f) (s.active f.msk) = .ok (vs, s2)
  pins : s2.tapPins (tapReads (s.val f.opb) ((s.active f.msk).map (s.tapSlot f)).eraseDups steer (s.tapSlot f) (s.tapDim f)
    (s.active f.msk)) = true
  parity : s2.checkParity d (List.range s2.slen) = .ok ()
  opened : u = if s.ctx.tap.isOpen then s2 else s2.openTap f.xf.toNat f.sub.toNat (bitsAt (s.val f.opa) 0 16)
  sound : u.badWeight u.ctx.tap.ways ((s.active f.msk).map (s.tapDim f)) = none

theorem exec_tap_outside {c : Ctl} {f : FX} {s : State} (hg : s.guard c = true) (out : s.inBody = false) :
    exec (.tap c f) s = .next s.advance := by
  change execTap c f s = _
  rw [execTap, run_true _ hg]
  simp only [out, Bool.not_false, if_true, settle_ok]

theorem exec_tap {c : Ctl} {f : FX} {s : State} {d : Fld} {steer : List Steer} {s1 s2 u : State} {vs : List (Nat × Num × Num)}
    (t : TapRun c f s d steer s1 s2 u vs) : exec (.tap c f) s =
      .next ((u.modCtx fun c => { c with tap := u.tapAfter d (s.tapSlot f) (s.tapDim f) (s.active f.msk) }).putLanes d (vs.map fun y =>
        (y.1, (d.ty.convert (.f ((d.num (u.core.row (u.lane y.1))).add false (y.2.1.mul y.2.2))) .rne false 0).bits))).advance := by
  have float : ¬(d.ty != .flt .f32 && d.ty != .flt .bf16 && d.ty != .flt .f16) = true := by
    rcases t.float with ty | ty | ty <;> simp [ty]
  have dims : ¬(decide (bitsAt (s.val f.opa) 0 16 = 0) || s.val f.opa >>> 22 != 0) = true := by simp [t.dims, t.zero]
  have same : ¬(s.ctx.tap.isOpen && !(s.ctx.tap.layer == f.xf.toNat && s.ctx.tap.point == f.sub.toNat &&
      s.ctx.tap.d == bitsAt (s.val f.opa) 0 16)) = true := by
    intro h
    rw [Bool.and_eq_true] at h
    obtain ⟨layer, point, dim⟩ := t.same h.1
    simp [layer, point, dim] at h
  change execTap c f s = _
  rw [execTap, run_true _ t.guard]
  simp only [t.body, Bool.not_true, Bool.false_eq_true, if_false, t.start, act_ok_bind, t.field, if_neg float, t.stream]
  rw [if_neg dims]
  split
  next p beyond =>
    have far := List.find?_some beyond
    exact absurd (t.slots p (List.mem_of_find?_eq_some beyond)) (Nat.not_lt_of_le (of_decide_eq_true far))
  next =>
    rw [if_neg same]
    have read : s1.readVectors steer (fun p => bitsAt (s.val f.opa) 16 6 + (s.sidx + w64 p).toNat / bitsAt (s.val f.opa) 0 16)
      (fun p => (s.sidx + w64 p).toNat % bitsAt (s.val f.opa) 0 16) (s.active f.msk) = .ok (vs, s2) := t.read
    have pins : s2.tapPins (tapReads (s.val f.opb) ((s.active f.msk).map fun p =>
        bitsAt (s.val f.opa) 16 6 + (s.sidx + w64 p).toNat / bitsAt (s.val f.opa) 0 16).eraseDups steer
      (fun p => bitsAt (s.val f.opa) 16 6 + (s.sidx + w64 p).toNat / bitsAt (s.val f.opa) 0 16)
      (fun p => (s.sidx + w64 p).toNat % bitsAt (s.val f.opa) 0 16) (s.active f.msk)) = true := t.pins
    have sound : u.badWeight u.ctx.tap.ways ((s.active f.msk).map fun p => (s.sidx + w64 p).toNat % bitsAt (s.val f.opa) 0 16) = none :=
      t.sound
    have opened := t.opened
    rcases t.steered with ⟨none_, empty, start⟩ | ⟨some_, global, made⟩
    · subst empty start
      rw [if_pos none_]
      simp only [read, act_ok_bind, pins, Bool.not_true, Bool.false_eq_true, if_false, t.parity, ← opened, sound, undo_ok, settle_ok]
      rfl
    · replace made : s.readSteer (s.val f.opb) ((s.active f.msk).map fun p =>
        bitsAt (s.val f.opa) 16 6 + (s.sidx + w64 p).toNat / bitsAt (s.val f.opa) 0 16).eraseDups = .ok (steer, s1) := made
      rw [if_neg some_]
      simp only [global, made, read, act_ok_bind, pins, Bool.not_true, Bool.false_eq_true, if_false, t.parity, ← opened, sound, undo_ok,
        settle_ok]
      rfl

/-- The bits of a mask after those of a list of numbers have been set. -/
theorem getLsbD_setBits {α : Type} (bit : α → Nat) (xs : List α) (mask : Word) {n : Nat} (small : n < 64) :
    (xs.foldl (fun m x => m ||| BitVec.ofNat 64 (2 ^ bit x)) mask).getLsbD n = (mask.getLsbD n || xs.any fun x => bit x == n) := by
  induction xs generalizing mask with
  | nil => simp
  | cons x xs ih =>
    have one : (BitVec.ofNat 64 (2 ^ bit x)).getLsbD n = (bit x == n) := by
      rw [BitVec.getLsbD_ofNat, decide_eq_true small, Bool.true_and, Nat.testBit_two_pow]
      exact (beq_eq_decide ..).symm
    rw [List.foldl_cons, ih, BitVec.getLsbD_or, one, List.any_cons, Bool.or_assoc]

theorem State.tapAfter_eval (u : State) (d : Fld) (slotOf dimOf : Nat → Nat) (on : List Nat) {n : Nat} (small : n < 64) :
    (u.tapAfter d slotOf dimOf on).eval.getLsbD n = (u.ctx.tap.eval.getLsbD n || (on.map slotOf).contains n) := by
  refine (getLsbD_setBits (fun sl => sl) _ _ small).trans (congrArg _ ?_)
  rw [Bool.eq_iff_iff]
  simp [List.mem_eraseDups]

/-- The score of a way at a slot after a tap. -/
theorem State.tapAfter_acc {u : State} {w : Way} {k : Nat} (way : u.ctx.tap.ways[k]? = some w) (few : u.ctx.tap.ways.length ≤ 16)
    (d : Fld) (slotOf dimOf : Nat → Nat) (on : List Nat) (n : Nat) :
    lookD (u.tapAfter d slotOf dimOf on).acc (n * 16 + k) 0 =
      if n ∈ on.map slotOf then ((u.tapPart d slotOf dimOf on w n).map (scored (lookD u.ctx.tap.acc (n * 16 + k) 0))).getD
        (lookD u.ctx.tap.acc (n * 16 + k) 0) else lookD u.ctx.tap.acc (n * 16 + k) 0 := by
  have small : k < u.ctx.tap.ways.length := (List.getElem?_eq_some_iff.1 way).1
  refine (lookD_scoreWays (i := 0) (nodup_eraseDups _) (u.tapPart d slotOf dimOf on) u.ctx.tap.ways (by omega) (by omega)
    u.ctx.tap.acc n).trans ?_
  rw [if_pos (Nat.zero_le k), Nat.sub_zero, way]
  exact if_congr (by rw [List.mem_eraseDups]) rfl rfl

theorem State.tapPart_cons {u : State} {d : Fld} {slotOf dimOf : Nat → Nat} {on : List Nat} {w : Way} {n p : Nat} {rest : List Nat}
    (lanes : on.filter (fun p => slotOf p == n) = p :: rest) : u.tapPart d slotOf dimOf on w n =
      some (rest.foldl (fun y q => y.add false ((u.weightAt w (dimOf q)).mul (d.num (u.core.row (u.lane q)))))
        ((u.weightAt w (dimOf p)).mul (d.num (u.core.row (u.lane p))))) := by
  rw [State.tapPart, lanes, List.foldl_cons]
  exact foldl_addTerm_some (fun q => (u.weightAt w (dimOf q)).mul (d.num (u.core.row (u.lane q)))) rest _

/-! ## `tapfin` (R270, R271) -/

/-- The slots evaluated, and where a way crosses. -/
def Tap.slots (t : Tap) : List Nat := (List.range 64).filter fun n => t.eval.getLsbD n
def Tap.crossings (t : Tap) : List (Nat × Nat) :=
  t.slots.flatMap fun n => (t.ways.zipIdx.filter fun w => t.crosses n w.2 w.1).map fun w => (n, w.2)
def Tap.crossMask (t : Tap) : Word := t.crossings.foldl (fun m h => m ||| BitVec.ofNat 64 (2 ^ h.1)) 0
def Tap.wayMask (t : Tap) : Word := t.crossings.foldl (fun m h => m ||| BitVec.ofNat 64 (2 ^ h.2)) 0
/-- The slots at which a way crosses. -/
def Tap.crossed (t : Tap) : List Nat := t.slots.filter fun n => t.ways.zipIdx.any fun w => t.crosses n w.2 w.1

theorem Tap.mem_crossings {t : Tap} {n k : Nat} :
    (n, k) ∈ t.crossings ↔ n ∈ t.slots ∧ ∃ w, (w, k) ∈ t.ways.zipIdx ∧ t.crosses n k w = true := by
  simp only [Tap.crossings, List.mem_flatMap, List.mem_map, List.mem_filter, Prod.exists, Prod.mk.injEq]
  constructor
  · rintro ⟨m, hm, w, j, ⟨hw, hc⟩, rfl, rfl⟩
    exact ⟨hm, w, hw, hc⟩
  · rintro ⟨hn, w, hw, hc⟩
    exact ⟨n, hn, w, k, ⟨hw, hc⟩, rfl, rfl⟩

theorem Tap.mem_crossed {t : Tap} {n : Nat} : n ∈ t.crossed ↔ ∃ k, (n, k) ∈ t.crossings := by
  simp only [Tap.crossed, List.mem_filter, List.any_eq_true, Prod.exists, Tap.mem_crossings]
  constructor
  · rintro ⟨hn, w, k, hw, hc⟩
    exact ⟨k, hn, w, hw, hc⟩
  · rintro ⟨k, hn, w, hw, hc⟩
    exact ⟨hn, w, k, hw, hc⟩

theorem Tap.crossMask_bit (t : Tap) {n : Nat} (small : n < 64) : t.crossMask.getLsbD n = t.crossed.contains n := by
  refine (getLsbD_setBits Prod.fst _ _ small).trans ?_
  rw [show (0 : Word).getLsbD _ = false from BitVec.getLsbD_zero, Bool.false_or, Bool.eq_iff_iff, List.contains_iff_mem, Tap.mem_crossed, List.any_eq_true]
  constructor
  · rintro ⟨⟨m, k⟩, hits, is⟩
    exact ⟨k, (beq_iff_eq.1 is : m = n) ▸ hits⟩
  · rintro ⟨k, hits⟩
    exact ⟨(n, k), hits, beq_self_eq_true n⟩

theorem Tap.wayMask_bit (t : Tap) {k : Nat} (small : k < 64) :
    t.wayMask.getLsbD k = t.ways.zipIdx.any fun w => w.2 == k && t.slots.any fun n => t.crosses n w.2 w.1 := by
  refine (getLsbD_setBits Prod.snd _ _ small).trans ?_
  rw [show (0 : Word).getLsbD _ = false from BitVec.getLsbD_zero, Bool.false_or, Bool.eq_iff_iff, List.any_eq_true, List.any_eq_true]
  constructor
  · rintro ⟨⟨n, j⟩, hits, is⟩
    obtain rfl : j = k := beq_iff_eq.1 is
    obtain ⟨hn, w, hw, hc⟩ := Tap.mem_crossings.1 hits
    exact ⟨(w, j), hw, by rw [Bool.and_eq_true, List.any_eq_true]; exact ⟨beq_self_eq_true j, n, hn, hc⟩⟩
  · rintro ⟨⟨w, j⟩, hw, both⟩
    rw [Bool.and_eq_true, List.any_eq_true] at both
    obtain ⟨is, n, hn, hc⟩ := both
    obtain rfl : j = k := beq_iff_eq.1 is
    exact ⟨(n, j), Tap.mem_crossings.2 ⟨hn, w, hw, hc⟩, beq_self_eq_true j⟩

theorem Tap.crossMask_zero {t : Tap} : t.crossMask = 0 ↔ t.crossed = [] := by
  constructor
  · intro zero
    refine List.eq_nil_iff_forall_not_mem.2 fun n hn => ?_
    have small : n < 64 := List.mem_range.1 (List.mem_filter.1 (List.mem_filter.1 hn).1).1
    have set := t.crossMask_bit small
    rw [zero, show (0 : Word).getLsbD n = false from BitVec.getLsbD_zero, List.contains_iff_mem.2 hn] at set
    exact Bool.false_ne_true set
  · intro none_
    have no_hits : t.crossings = [] :=
      List.eq_nil_iff_forall_not_mem.2 fun ⟨n, k⟩ hits => List.not_mem_nil (none_ ▸ Tap.mem_crossed.2 ⟨k, hits⟩)
    rw [Tap.crossMask, no_hits]
    rfl

/-- The state after a tap has been closed. -/
def State.closeTap (s : State) : State := s.modCtx fun k => { k with tap := { s.ctx.tap with isOpen := false, cross := s.ctx.tap.crossMask } }

section
variable {c : Ctl} {f : FR} {s : State} (hg : s.guard c = true)
include hg

section
variable (out : s.inBody = false)
include out

theorem exec_tapfin_closed (closed : s.ctx.tap.isOpen = false) : exec (.tapfin c f) s = .next s.advance := by
  change execTapfin c f s = _
  rw [execTapfin, run_true _ hg]
  simp only [out, Bool.false_eq_true, if_false, closed, Bool.not_false, if_true, settle_ok]

theorem exec_tapfin_open (isOpen : s.ctx.tap.isOpen = true) : exec (.tapfin c f) s =
    if s.ctx.tap.crossMask = 0 then .next s.closeTap.advance
    else .next (s.closeTap.takeTrap
      { cause := .probe, val := s.ctx.tap.crossMask, idx0 := s.ctx.tap.eval, idx1 := s.ctx.tap.wayMask
        idx2 := BitVec.ofNat 64 (s.ctx.tap.layer + 1024 * s.ctx.tap.point), pc := some s.nextPC }) := by
  change execTapfin c f s = _
  rw [execTapfin, run_true _ hg]
  simp only [out, Bool.false_eq_true, if_false, isOpen, Bool.not_true]
  exact apply_ite settle _ _ _

end

/-! ## `tapq` (R272) -/

variable (dest : Claims.destOk s f.opd)
include dest

theorem exec_tapq_score (sub : f.sub = 0) (plain : s.val f.opa &&& ~~~(0xF3F : Word) = 0) : exec (.tapq c f) s =
    .next (s.putS f.opd (if s.ctx.tap.ways.length ≤ bitsAt (s.val f.opa) 8 4 then BitVec.allOnes 64
      else (lookD s.ctx.tap.acc (bitsAt (s.val f.opa) 0 6 * 16 + bitsAt (s.val f.opa) 8 4) 0).setWidth 64)).advance := by
  change execTapq c f s = _
  rw [execTapq, run_true _ hg]
  have clear : ¬(s.val f.opa &&& ~~~(0xF3F : Word) != 0) = true := by rw [plain]; decide
  simp only [checkDest_ok dest, act_ok_bind, sub]
  exact (congrArg settle (if_neg clear)).trans (settle_ok _)

theorem exec_tapq_cross (sub : f.sub = 1) : exec (.tapq c f) s = .next (s.putS f.opd s.ctx.tap.cross).advance := by
  change execTapq c f s = _
  rw [execTapq, run_true _ hg]
  simp only [checkDest_ok dest, act_ok_bind, sub]
  rfl

theorem exec_tapq_eval (sub : f.sub = 2) : exec (.tapq c f) s = .next (s.putS f.opd s.ctx.tap.eval).advance := by
  change execTapq c f s = _
  rw [execTapq, run_true _ hg]
  simp only [checkDest_ok dest, act_ok_bind, sub]
  rfl

theorem exec_tapq_state (sub : f.sub = 3) : exec (.tapq c f) s =
    .next (s.putS f.opd (w64 (s.ctx.tap.ways.length + (if s.ctx.tap.isOpen then 256 else 0) + s.ctx.tap.layer * 2 ^ 16 +
      s.ctx.tap.point * 2 ^ 26 + s.ctx.tap.d * 2 ^ 32))).advance := by
  change execTapq c f s = _
  rw [execTapq, run_true _ hg]
  simp only [checkDest_ok dest, act_ok_bind, sub]
  rfl

theorem exec_tapq_entry (sub : f.sub = 4) : exec (.tapq c f) s =
    .next (s.putS f.opd (((s.ctx.tap.ways[bitsAt (s.val f.opa) 0 4]?).map fun w => w64 w.entry).getD (BitVec.allOnes 64))).advance := by
  change execTapq c f s = _
  rw [execTapq, run_true _ hg]
  simp only [checkDest_ok dest, act_ok_bind, sub]
  cases s.ctx.tap.ways[bitsAt (s.val f.opa) 0 4]? <;> rfl

end

end Sys2Proof.Machine

namespace Sys2Proof.Proofs
open Sys2Proof Sys2Proof.Machine Sys2Proof.Claims

/-- Settles O39: a tap in a body whose checks pass is `exec_tap`, whose scores are those of `State.tapAfter_acc`; a tap
is closed with the crossings of `Tap.crossMask_bit`; a read takes the value of its form. -/
theorem tapResults : Obligations.TapResults := by
  unfold Obligations.TapResults
  refine ⟨fun c f s hg => ⟨exec_tap_outside hg, ?_⟩, fun c f s hg => ⟨fun out => ⟨exec_tapfin_closed hg out, ?_, ?_⟩, fun dest =>
    ⟨exec_tapq_score hg dest, exec_tapq_cross hg dest, exec_tapq_eval hg dest, exec_tapq_state hg dest, exec_tapq_entry hg dest⟩⟩⟩
  · intro d steer s1 s2 u vs body start field float stream dd elem slotOf on dims zero slots same steered read pins parity opened _ sound few x
    let after := u.tapAfter d (s.tapSlot f) (s.tapDim f) on
    have tap : (u.modCtx fun c => { c with tap := after }).ctx.tap = after := by rw [State.ctx_modCtx]
    refine ⟨u.modCtx fun c => { c with tap := after },
      exec_tap ⟨hg, body, start, field, float, stream, dims, zero, slots, same, steered, read, pins, parity, opened, sound⟩,
      rfl, rfl, ?_⟩
    rw [tap]
    refine ⟨rfl, rfl, fun n small => State.tapAfter_eval _ _ _ _ _ small, fun n k w way => ?_⟩
    have score := State.tapAfter_acc way few d (s.tapSlot f) (s.tapDim f) on n
    refine ⟨fun absent => score.trans (if_neg absent), fun p rest lanes => ?_⟩
    have member : n ∈ on.map slotOf := by
      obtain ⟨hp, is⟩ := List.mem_filter.1 (lanes ▸ List.mem_cons_self : p ∈ on.filter fun p => slotOf p == n)
      exact List.mem_map.2 ⟨p, hp, beq_iff_eq.1 is⟩
    rw [State.tapPart_cons (slotOf := s.tapSlot f) lanes] at score
    exact score.trans (if_pos member)
  · intro isOpen none_
    have zero : s.ctx.tap.crossMask = 0 := Tap.crossMask_zero.2 none_
    rw [exec_tapfin_open hg out isOpen, if_pos zero, State.closeTap, zero]
  · intro isOpen some_
    refine ⟨s.ctx.tap.crossMask, s.ctx.tap.wayMask, fun _ => s.ctx.tap.crossMask_bit, fun _ => s.ctx.tap.wayMask_bit, ?_⟩
    rw [exec_tapfin_open hg out isOpen, if_neg fun zero => some_ (Tap.crossMask_zero.1 zero)]
    rfl

end Sys2Proof.Proofs
end

section
/-! SUPPORT. A card whose output lies on another device, and the statement about the issue of cards (R230, R234). -/

namespace Sys2Proof.Machine

/-- A guard that is always true, and a block of eight registers from s32 on. -/
def plainCtl : Ctl := { gn := false, gp := 0, stall := 0, hyield := false, chain := false, lasta := false, lastb := false }
def fillBlock : FE := { opd := .s 0, opa := .s 32, opb := .s 0, nreg := 7, scope := .device, parm := 0 }

/-- A context whose block asks for FILL of one row of 8 bytes on device 0 by REMOTE, with OUT in the stash of another core. -/
def remoteFill : State :=
  ((State.reset.putS (.s 33) 0x9001000000000000).putS (.s 34) 0x100000008).putS (.s 37) 0x400

/-- The footprint on this device is empty, so that its check passes. -/
theorem remoteFill_footprint : cReads .fill (remoteFill.feRegs fillBlock) ++ cWrites .fill (remoteFill.feRegs fillBlock) = [] := by
  decide +kernel

/-- The cards in flight after a step. -/
def cardsAfter : Out → Option (List Card)
  | .next t => some t.cards
  | _ => none

/-- The pointer of OUT is checked on another device too: the instruction traps, and no card joins the queue. -/
theorem remoteFill_traps : cardsAfter (exec (.card plainCtl .fill fillBlock) remoteFill) = some [] := by decide +kernel

end Sys2Proof.Machine

namespace Sys2Proof.Proofs
open Sys2Proof Sys2Proof.Machine Sys2Proof.Claims

/-- Refutes O31: R231 checks the output range of a card with REMOTE too, while the statement asks only for the ranges on this device: FILL
to another device with OUT in a foreign stash traps and issues no card. -/
theorem not_cardIssue : ¬ Obligations.CardIssue := by
  unfold Obligations.CardIssue
  rintro ⟨issue, _⟩
  obtain ⟨t, x, next, joined, _⟩ := issue plainCtl .fill fillBlock remoteFill .device (by decide +kernel) rfl
    (by decide +kernel) (by decide +kernel) (by decide +kernel) (by rw [remoteFill_footprint]; rfl) (by decide +kernel)
    (by decide +kernel) (by decide +kernel)
  have none := remoteFill_traps
  rw [next, show cardsAfter (.next t) = some t.cards from rfl, joined] at none
  exact absurd (Option.some.inj none) (by simp)

end Sys2Proof.Proofs
end

section
/-! SUPPORT. What a stream unit leaves as it reads ahead, and the statement about streams (R207, R239 to R242). -/

namespace Sys2Proof.Machine

/-! ## Reading for a stream -/

/-- A property of states that survives each thing that a stream unit does to read for an agent. -/
structure ReadClosed (a : Agent) (I : State → Prop) : Prop where
  find (s : State) (p : Word) (z : Nat) : I s → I (s.find a p z z false).2
  drain (s : State) (k : Nat) (l : Loc) (z : Nat) : a.issuer = some k → I s → Leaves I I (s.drainLoc k l z)
  home (s : State) (l : Loc) (z : Nat) : I s → Leaves I (fun r => I r.2.2) (s.homeRead a.core l z)
  count (s : State) (hot : Nat) (l : Loc) : I s → I (s.count (some hot) l)
  request (s : State) (asid : Fin 16) (va : Nat) : I s → I (s.postResidency asid va (BitVec.allOnes 32))

theorem MemClosed.count {I : State → Prop} (closed : MemClosed I) {s : State} (h : I s) (hot : Option Nat) (l : Loc) :
    I (s.count hot l) := by
  unfold State.count
  split
  · exact closed.owe h ..
  · exact h

theorem MemClosed.reads {I : State → Prop} (closed : MemClosed I) (a : Agent) : ReadClosed a I where
  find _ _ _ h := closed.find h ..
  drain _ _ _ _ _ h := closed.drainLoc h ..
  home _ _ _ h := closed.homeRead h ..
  count _ _ _ h := closed.count h ..
  request _ _ _ h := closed.postResidency h ..

section
variable {a : Agent} {I : State → Prop} (closed : ReadClosed a I)
include closed

theorem ReadClosed.agentRead {s : State} (h : I s) (p : Word) (z : Nat) (idx : Word) : I (s.agentRead a p z idx).2 := by
  have found := closed.find s p z h
  unfold State.agentRead
  split <;> rename_i eq <;> rw [eq] at found
  case h_4 l t =>
    have drained : Leaves I I (match a.issuer with
        | some k => t.drainLoc k l z
        | none => .ok t) := by
      split
      next k issuer => exact closed.drain t k l z issuer found
      next => exact found
    have read := drained.bind fun u hu => closed.home u l z hu
    dsimp only
    split
    next bs bad u ok =>
      have kept : I u := by
        cases issuer : a.issuer <;> rw [issuer] at ok read <;> exact read.of_ok ok
      split <;> exact kept
    next => exact found
  case h_3 => exact found
  all_goals exact h

/-- The element that has been read is counted where it lies. -/
theorem ReadClosed.counted {s : State} (h : I s) (p : Word) (z hot : Nat) : I (match s.find a p z z false with
    | (.at_ l, _) => s.count (some hot) l
    | _ => s) := by
  split
  · exact closed.count _ _ _ h
  · exact h

theorem ReadClosed.strmRead (t : Stream) (n : Nat) {s : State} (h : I s) (e : Nat) : I (s.strmRead a t n e).2.2 := by
  induction n generalizing s e with
  | zero => exact h
  | succ n ih =>
    have read := closed.agentRead h (t.addr e) t.z (w64 e)
    unfold State.strmRead
    split
    · exact h
    · dsimp only
      split
      next eq =>
        rw [eq] at read
        exact ih (closed.counted read ..) _
      next eq =>
        rw [eq] at read
        exact ih (closed.request _ _ _ read) _
      next eq =>
        rw [eq] at read
        exact read

theorem ReadClosed.blockElems (t : Stream) (b entry n : Nat) {s : State} (h : I s) (i : Nat) : I (s.blockElems a t b entry n i).2 := by
  induction n generalizing s i with
  | zero => exact h
  | succ n ih =>
    have read := closed.agentRead h (t.base + w64 ((entry * 16 * t.row + i) * t.z)) t.z (w64 (b * 16 * t.row + i))
    unfold State.blockElems
    dsimp only
    split
    next u eq =>
      replace read : I u := by rwa [eq] at read
      have next := ih (closed.counted read (t.base + w64 ((entry * 16 * t.row + i) * t.z)) t.z 1) (i + 1)
      split <;> rename_i rest <;> exact (congrArg (fun x => I x.2) rest).mp next
    next eq =>
      rw [eq] at read
      exact read

theorem ReadClosed.readBlock {s : State} (h : I s) (t : Stream) (b : Nat) : I (s.readBlock a t b).2 := by
  have read := closed.agentRead h (t.entryPtr b) 4 (w64 b)
  unfold State.readBlock
  split <;> rename_i eq <;> rw [eq] at read
  · split
    · exact read
    · exact closed.blockElems t _ _ _ read _
  · exact read

theorem ReadClosed.nextBlock {s : State} (h : I s) (t : Stream) (left : List Nat) : I (s.nextBlock a t left).2.2 := by
  unfold State.nextBlock
  split
  · exact h
  · have asked : I ((((left.filter fun b => !t.deferred.contains b).filterMap (s.blockAbsent a t)).foldl
        (fun s p => (Got.absent p.1 p.2).request s) s)) := foldl_closed (fun s p h => closed.request s p.1 p.2 h) _ h
    dsimp only
    split <;> exact asked

theorem ReadClosed.requested {s : State} (h : I s) (g : Got) : I (g.request s) := by
  unfold Got.request
  split
  · exact closed.request _ _ _ h
  · exact h

end

/-- The blocks that a stream has found absent are all that choosing the next one adds to it. -/
theorem State.nextBlock_stream (s : State) (a : Agent) (t : Stream) (left : List Nat) :
    ∃ later, (s.nextBlock a t left).2.1 = { t with deferred := t.deferred ++ later } := by
  unfold State.nextBlock
  split
  · exact ⟨[], by rw [List.append_nil]⟩
  · dsimp only
    split <;> exact ⟨_, rfl⟩

/-! ## What the stream unit keeps -/

/-- The contexts and the rows of every core are those of another state. -/
def State.SameRegs (s t : State) : Prop := t.ctxs = s.ctxs ∧ ∀ n, (t.coreAt n).rows = (s.coreAt n).rows

theorem State.sameRegs_closed (s : State) : MemClosed s.SameRegs :=
  MemClosed.of_part (fun t => (t.ctxs, fun n => (t.coreAt n).rows)) (fun v => v.1 = s.ctxs ∧ ∀ n, v.2 n = (s.coreAt n).rows)
    (fun _ _ _ _ _ _ _ _ _ _ => rfl) (fun _ _ _ _ => rfl)
    (fun t n f core => Prod.ext rfl (funext fun j => by
      by_cases same : j = n
      · subst same
        dsimp only
        rw [State.coreAt_modCoreAt_same, (core (t.coreAt j)).1]
      · exact congrArg Core.rows (State.coreAt_modCoreAt_ne _ _ same)))
    fun _ _ _ => rfl

/-- Memory and the stores pending are those of another state. -/
def State.SameMem (s t : State) : Prop := t.mem = s.mem ∧ t.cls = s.cls ∧ t.pend = s.pend

theorem State.SameMem.of_keeps {s t u : State} (h : s.SameMem t)
    (keeps : ∀ {α : Type} (p : State → α), (∀ (s : State) v, p { s with tlbs := v } = p s) → (∀ (s : State) v, p { s with xlat := v } = p s) →
      (∀ (s : State) v, p { s with cores := v } = p s) → (∀ (s : State) v, p { s with quarters := v } = p s) → p u = p t) : s.SameMem u := by
  obtain ⟨mem, cls, pend⟩ := h
  exact ⟨(keeps State.mem (fun _ _ => rfl) (fun _ _ => rfl) (fun _ _ => rfl) fun _ _ => rfl).trans mem,
    (keeps State.cls (fun _ _ => rfl) (fun _ _ => rfl) (fun _ _ => rfl) fun _ _ => rfl).trans cls,
    (keeps State.pend (fun _ _ => rfl) (fun _ _ => rfl) (fun _ _ => rfl) fun _ _ => rfl).trans pend⟩

/-- A context that has no store pending follows none. -/
theorem followed_none {pend : List Pending} {k : Nat} (none : ∀ p ∈ pend, p.ctx ≠ k) (home : Home) (a n : Nat) :
    followed pend k home a n = [] := by
  have fold : ∀ ps : List Pending, (∀ p ∈ ps, p.ctx ≠ k) → ps.foldr (fun p (acc : List (Nat × Nat) × List Pending) =>
      if p.ctx == k && p.home == home && acc.1.any fun x => overlaps p.addr p.bytes.length x.1 x.2 then
        ((p.addr, p.bytes.length) :: acc.1, p :: acc.2) else acc) ([(a, n)], []) = ([(a, n)], []) := by
    intro ps
    induction ps with
    | nil => exact fun _ => rfl
    | cons p ps ih =>
      intro none
      rw [List.foldr_cons, ih fun q hq => none q (List.mem_cons_of_mem _ hq), beq_false_of_ne (none p List.mem_cons_self)]
      rfl
  exact congrArg Prod.snd (fold pend none)

theorem State.drainOver_none {s : State} {k : Nat} (none : ∀ p ∈ s.pend, p.ctx ≠ k) (home : Home) (a n : Nat) :
    s.drainOver k home a n = .ok s := by
  unfold State.drainOver
  rw [followed_none none]
  simp

theorem State.drainLoc_none {s : State} {k : Nat} (none : ∀ p ∈ s.pend, p.ctx ≠ k) (l : Loc) (n : Nat) : s.drainLoc k l n = .ok s := by
  cases l with
  | hbm _ _ _ => exact State.drainOver_none none ..
  | cluster _ => exact State.drainOver_none none ..
  | stash _ => rfl

/-- What a stream unit reads leaves memory as it is when its context has no store pending. -/
theorem State.sameMem_reads {s : State} {a : Agent} {k : Nat} (issuer : a.issuer = some k) (none : ∀ p ∈ s.pend, p.ctx ≠ k) :
    ReadClosed a s.SameMem where
  find t p z h := h.of_keeps fun q tlbs _ _ _ => t.find_keeps q tlbs a p z z false
  drain t j l z is h := by
    obtain rfl : j = k := Option.some.inj (is.symm.trans issuer)
    have quiet : ∀ p ∈ t.pend, p.ctx ≠ j := h.2.2 ▸ none
    rw [State.drainLoc_none quiet]
    exact h
  home t l z h := by
    unfold State.homeRead
    split
    · split <;> exact h
    · cases ready : t.readyStash a.core _ z false with
      | ok u => exact h.of_keeps fun q _ _ cores quarters => State.readyStash_keeps q cores quarters ready
      | error e =>
        unfold State.readyStash at ready
        split at ready
        · exact nomatch ready
        · obtain rfl := Except.error.inj ready
          exact h
    · exact h
  count t hot l h := h.of_keeps fun q _ xlat _ _ => by
    unfold State.count State.owe
    split
    · split
      · exact xlat _ _
      · rfl
    · rfl
  request t d va h := h.of_keeps fun q _ xlat _ _ => State.postResidency_keeps q xlat ..

/-- The stream unit does nothing, or puts what it has read and found absent into the stream. -/
theorem exec_streamReadAhead (core : Fin 320) (lc : Fin 4) (r : Fin 4) (s : State) :
    exec (.streamReadAhead core lc r) s = .next s ∨ ∃ x more later u, (s.ctxAt (ctxNum core lc)).streams.get r = some x ∧
      exec (.streamReadAhead core lc r) s = .next (u.modCtxAt (ctxNum core lc) fun c =>
        c.setStream r (some { x with ahead := x.ahead ++ more, deferred := x.deferred ++ later })) ∧
      ∀ I : State → Prop, ReadClosed (s.agentOf (ctxNum core lc)) I → (∀ s v, I s → I { s with ticks := v }) → I s → I u := by
  change execStreamReadAhead core lc r s = _ ∨ ∃ x more later u, _ ∧ execStreamReadAhead core lc r s = _ ∧ _
  unfold execStreamReadAhead
  dsimp only
  generalize ctxNum core lc = k
  split
  next => exact .inl rfl
  next x is =>
    split
    · exact .inl rfl
    · split
      · split
        · exact .inl rfl
        · set left := x.left.filter fun b => !(x.ahead.map Prod.fst).contains b
          obtain ⟨later, stream⟩ := s.nextBlock_stream (s.agentOf k) x left
          have chosen (I : State → Prop) (closed : ReadClosed (s.agentOf k) I) (h : I s) := closed.nextBlock h x left
          generalize s.nextBlock (s.agentOf k) x left = next at stream chosen
          obtain ⟨b, y, t⟩ := next
          obtain rfl : y = _ := stream
          dsimp only
          split
          next vs u block =>
            refine .inr ⟨x, [(b, vs)], later, _, is, rfl, fun I closed ticks h => ticks _ _ ?_⟩
            have read := closed.readBlock (chosen I closed h) { x with deferred := x.deferred ++ later } b
            rwa [block] at read
          next g _ _ =>
            exact .inr ⟨x, [], later, _, is, by rw [List.append_nil], fun I closed _ h => closed.requested (chosen I closed h) g⟩
      · generalize min (s.coreAt core).vl _ = n
        generalize x.next + x.ahead.length = e
        split
        · exact .inl rfl
        · exact .inr ⟨x, (s.strmRead (s.agentOf k) x n e).1, [], _, is, by rw [List.append_nil],
            fun I closed _ h => closed.strmRead x n h e⟩

/-! ## The stream forms (R239, R241, R242) -/

section
variable {c : Ctl} {s : State} (hg : s.guard c = true) {r : Fin 4} {z : Nat}
include hg

/-- A `strm` at the start of its walk. -/
def strmStart (s : State) (f : FX) (z : Nat) : Stream :=
  { kv := false, base := s.val f.opa, dims := s.ctx.dimsTo f.opb.idx, z := z
    unit := f.opb.idx == 0 && (s.ctx.dims.get 0).stride == 1, table := 0, len := 0, row := 0, next := 0
    pops := 0, ahead := [], delivered := [], chosen := none, deferred := [] }

theorem exec_strm {f : FX} (reg : s.streamReg f.opd (.strm c f) = .ok (r, z)) :
    exec (.strm c f) s = .next (s.modCtx fun x => x.setStream r (some (strmStart s f z))).advance := by
  change execStrm c f s = _
  rw [execStrm, run_true _ hg]
  simp only [reg, act_ok_bind, settle_ok, strmStart]

/-- A `strmkv` at the start of its walk. -/
def strmkvStart (f : FX) (z a b d : Nat) : Stream :=
  { kv := true, base := w64 d, dims := [], z := z, unit := false, table := w64 a, len := b, row := f.xf.toNat + 1
    next := 0, pops := 0, ahead := [], delivered := [], chosen := none, deferred := [] }

theorem exec_strmkv {f : FX} {a b d : Nat} {v : State} (reg : s.streamReg f.opd (.strmkv c f) = .ok (0, z))
    (fits : 16 * (f.xf.toNat + 1) ≤ s.core.vl) (walk : s.walkRecord (s.val f.opa) = .ok ([a, b, d, 0], v)) (short : b < 2 ^ 32) :
    exec (.strmkv c f) s = .next (v.modCtx fun x => x.setStream 0 (some (strmkvStart f z a b d))).advance := by
  have plain : ¬(decide (2 ^ 32 ≤ b) || false) = true := by simpa using short
  change execStrmkv c f s = _
  rw [execStrmkv, run_true _ hg]
  simp only [reg, act_ok_bind, bne_self_eq_false, Bool.false_eq_true, if_false, if_neg (Nat.not_lt.2 fits), walk, undo_ok]
  rw [if_neg plain, settle_ok]
  rfl

theorem exec_strmxStop {f : FR} (reg : s.streamReg f.opa (.strmxStop c f) = .ok (r, z)) :
    exec (.strmxStop c f) s = .next (s.modCtx fun x => x.setStream r none).advance := by
  change execStrmxStop c f s = _
  rw [execStrmxStop, run_true _ hg]
  simp only [reg, act_ok_bind, settle_ok]

theorem exec_strmxStat {f : FR} (dest : Claims.destOk s f.opd) (reg : s.streamReg f.opa (.strmxStat c f) = .ok (r, z)) :
    exec (.strmxStat c f) s = .next (s.putS f.opd ((s.strip?.map fun x => x.pops.get r).getD 0)).advance := by
  change execStrmxStat c f s = _
  rw [execStrmxStat, run_true _ hg]
  simp only [checkDest_ok dest, reg, act_ok_bind, settle_ok]

end

end Sys2Proof.Machine

namespace Sys2Proof.Proofs
open Sys2Proof Sys2Proof.Machine Sys2Proof.Claims

/-- Settles O33: each form is its own lemma; what the stream unit does in `exec_streamReadAhead` keeps the contexts and rows
(`State.sameRegs_closed`) and, with no store of the context pending, memory (`State.sameMem_reads`). -/
theorem streamResults : Obligations.StreamResults := by
  unfold Obligations.StreamResults
  intro c s r z hg
  refine ⟨fun f reg => ⟨strmStart s f z, exec_strm hg reg, rfl, rfl, rfl, rfl, rfl, rfl, rfl⟩,
    fun f a b d v reg fits walk short => ⟨strmkvStart f z a b d, exec_strmkv hg reg fits walk short, rfl, rfl, rfl, rfl, rfl, rfl, rfl, rfl⟩,
    fun f reg => exec_strmxStop hg reg, fun f dest reg => ⟨fun x strip => ?_, fun strip => ?_⟩, fun core lc => ?_⟩
  · rw [exec_strmxStat hg dest reg, strip]
    rfl
  · rw [exec_strmxStat hg dest reg, strip]
    rfl
  · intro k
    rcases exec_streamReadAhead core lc r s with same | ⟨x, more, later, u, is, next, closed⟩
    · exact ⟨s, (s.ctxAt k).streams, same, fun _ => ⟨rfl, rfl⟩, rfl, fun _ _ => rfl, fun _ => rfl, fun _ _ => rfl, id,
        fun x is => ⟨[], [], by rw [List.append_nil, List.append_nil, is]⟩⟩
    · obtain ⟨ctxs, rows⟩ := closed s.SameRegs (s.sameRegs_closed.reads _) (fun _ _ h => h) ⟨rfl, fun _ => rfl⟩
      have ctx (n : Nat) : u.ctxAt n = s.ctxAt n := congrArg (fun t => lookD t n Ctx.reset) ctxs
      refine ⟨_, (s.ctxAt k).streams.set r (some { x with ahead := x.ahead ++ more, deferred := x.deferred ++ later }) r.isLt, next,
        fun none => ?_, ?_, fun n other => ?_, rows, fun i other => ?_, fun none => ?_, fun y its => ⟨more, later, ?_⟩⟩
      · obtain ⟨mem, cls, _⟩ := closed s.SameMem (State.sameMem_reads rfl none) (fun _ _ h => h) ⟨rfl, rfl, rfl⟩
        exact ⟨mem, cls⟩
      · rw [State.ctxAt_modCtxAt_same, ctx]
        rfl
      · rw [State.ctxAt_modCtxAt_ne _ _ other, ctx]
      · exact vget_set_ne _ _ other
      · exact nomatch none.symm.trans is
      · obtain rfl := Option.some.inj (is.symm.trans its)
        exact vget_set_same ..

end Sys2Proof.Proofs
end

section
/-! SUPPORT. The canonical form of every byte memory, as an invariant: what a next state and an action keep, and the operations of the
state, of traps and of the ends of contexts. -/

namespace Sys2Proof.Machine

/-! ## The invariant -/

/-- Every byte memory of the state is in its canonical form. -/
def MemForm (s : State) : Prop := s.memOk = true

/-- A step that goes on leads to a state in the canonical form. -/
def Keeps (o : Out) : Prop := ∀ t, o = .next t → MemForm t

/-- An action that stops leaves a state in the canonical form; so does one that completes with a state, or with an answer and a
state. -/
def Checks {α : Type} (r : Act α) : Prop := Leaves MemForm (fun _ => True) r
def Steps (r : Act State) : Prop := Leaves MemForm MemForm r
def Gives {α : Type} (r : Act (α × State)) : Prop := Leaves MemForm (fun x => MemForm x.2) r

theorem Keeps.next {s : State} (h : MemForm s) : Keeps (.next s) := fun _ is => Host.Outcome.next.inj is ▸ h

theorem Steps.ok {s : State} (h : MemForm s) : Steps (.ok s) := h

theorem Keeps.ite {c : Prop} [Decidable c] {x y : Out} (hx : Keeps x) (hy : Keeps y) : Keeps (if c then x else y) := by
  split
  · exact hx
  · exact hy

section
variable {α β : Type} {P : β → Prop} {f : α → Act β}

/-- What follows a check. -/
theorem Leaves.check {r : Act α} (h : Checks r) (next : ∀ a, Leaves MemForm P (f a)) : Leaves MemForm P (r >>= f) :=
  h.bind fun a _ => next a

/-- What follows an action that answers a state, or something and a state. -/
theorem Leaves.step {r : Act State} {f : State → Act β} (h : Steps r) (next : ∀ {t}, MemForm t → Leaves MemForm P (f t)) :
    Leaves MemForm P (r >>= f) := h.bind fun _ ht => next ht
theorem Leaves.give {r : Act (α × State)} {f : α × State → Act β} (h : Gives r)
    (next : ∀ a {t}, MemForm t → Leaves MemForm P (f (a, t))) : Leaves MemForm P (r >>= f) := h.bind fun x hx => next x.1 hx

theorem Leaves.ite {I : State → Prop} {c : Prop} [Decidable c] {x y : Act β} (hx : Leaves I P x) (hy : Leaves I P y) :
    Leaves I P (if c then x else y) := by
  split
  · exact hx
  · exact hy

end

/-! ## The parts of the form -/

theorem memForm_iff {s : State} : MemForm s ↔ Memory.wf s.mem = true ∧ Memory.wf s.cls = true ∧ Memory.wf s.host.windows = true ∧
    (∀ c ∈ s.cores, c.2.memOk = true) ∧ ∀ q, ∀ x ∈ (s.quarter q).saves, x.memOk = true := by
  unfold MemForm State.memOk State.quarter
  simp only [Bool.and_eq_true, List.all_eq_true, and_assoc]
  refine and_congr_right fun _ => and_congr_right fun _ => and_congr_right fun _ => and_congr_right fun _ => ?_
  rw [Vector.all_eq_true]
  simp only [List.all_eq_true]
  exact ⟨fun h q => h q.val q.isLt, fun h i hi => h ⟨i, hi⟩⟩

theorem Core.memOk_iff {c : Core} : c.memOk = true ↔ Memory.wf c.stash = true ∧ Memory.wf c.tiles = true := by
  rw [Core.memOk, Bool.and_eq_true]

/-- Part of a memory in its canonical form is in it. -/
theorem wf_filter {m : Memory} (p : Host.Cell → Bool) (h : Memory.wf m = true) : Memory.wf (m.filter p) = true := by
  obtain ⟨order, full⟩ := (wf_iff m).1 h
  refine (wf_iff _).2 ⟨?_, fun x hx => full x (List.mem_filter.1 hx).1⟩
  clear full h
  induction m with
  | nil => rfl
  | cons x m ih =>
    obtain ⟨least, rest⟩ := (rising_cons x m).1 order
    rw [List.filter_cons]
    split
    · exact (rising_cons _ _).2 ⟨fun y hy => least y (List.mem_filter.1 hy).1, ih rest⟩
    · exact ih rest

/-- A property of every entry of a table, and of what an unlisted key reads as, holds of every read. -/
theorem lookD_all {α : Type} {P : α → Prop} {t : Table α} {d : α} (all : ∀ x ∈ t, P x.2) (hd : P d) (k : Nat) : P (lookD t k d) := by
  rw [lookD]
  cases found : look t k with
  | none => exact hd
  | some v => exact all _ (mem_of_look found)

section
variable {s : State}

theorem MemForm.wf_mem (h : MemForm s) : Memory.wf s.mem = true := (memForm_iff.1 h).1
theorem MemForm.coreAt (h : MemForm s) (n : Nat) : (s.coreAt n).memOk = true :=
  lookD_all (P := fun c : Core => c.memOk = true) (memForm_iff.1 h).2.2.2.1 rfl n
theorem MemForm.saves (h : MemForm s) (q : Fin 4) : ∀ x ∈ (s.quarter q).saves, x.memOk = true := (memForm_iff.1 h).2.2.2.2 q

/-- Memory, the cluster-shared space and the launch windows may be written. -/
theorem MemForm.withMem (h : MemForm s) {m : Memory} (hm : Memory.wf m = true) : MemForm { s with mem := m } := by
  obtain ⟨_, rest⟩ := memForm_iff.1 h
  exact memForm_iff.2 ⟨hm, rest⟩
theorem MemForm.withCls (h : MemForm s) {m : Memory} (hm : Memory.wf m = true) : MemForm { s with cls := m } := by
  obtain ⟨mem, _, rest⟩ := memForm_iff.1 h
  exact memForm_iff.2 ⟨mem, hm, rest⟩
theorem MemForm.withHost (h : MemForm s) {x : HostLink} (hx : Memory.wf s.host.windows = true → Memory.wf x.windows = true) :
    MemForm { s with host := x } := by
  obtain ⟨mem, cls, windows, rest⟩ := memForm_iff.1 h
  exact memForm_iff.2 ⟨mem, cls, hx windows, rest⟩

/-- Cores and quarters may be changed, with the memories that they hold in their form. -/
theorem MemForm.withCores (h : MemForm s) {cs : Table Core} (hc : ∀ c ∈ cs, c.2.memOk = true) : MemForm { s with cores := cs } := by
  obtain ⟨mem, cls, windows, _, saves⟩ := memForm_iff.1 h
  exact memForm_iff.2 ⟨mem, cls, windows, hc, saves⟩
theorem MemForm.setCoreAt (h : MemForm s) (n : Nat) {c : Core} (hc : c.memOk = true) : MemForm (s.setCoreAt n c) :=
  h.withCores fun x hx => (mem_put hx).elim (fun is => is ▸ hc) ((memForm_iff.1 h).2.2.2.1 x)
theorem MemForm.modCoreAt (h : MemForm s) (n : Nat) {f : Core → Core} (hf : ∀ c, c.memOk = true → (f c).memOk = true) :
    MemForm (s.modCoreAt n f) := h.setCoreAt n (hf _ (h.coreAt n))
theorem MemForm.modCore (h : MemForm s) {f : Core → Core} (hf : ∀ c, c.memOk = true → (f c).memOk = true) : MemForm (s.modCore f) :=
  h.modCoreAt _ hf
/-- A change of a core outside its memories. -/
theorem MemForm.modRest (h : MemForm s) {f : Core → Core}
    (hf : ∀ c, (f c).stash = c.stash ∧ (f c).tiles = c.tiles := by exact fun _ => ⟨rfl, rfl⟩) : MemForm (s.modCore f) :=
  h.modCore fun c hc => by
    obtain ⟨stash, tiles⟩ := hf c
    rw [Core.memOk, stash, tiles]
    exact hc
theorem MemForm.mapCores (h : MemForm s) {f : Nat × Core → Nat × Core} (hf : ∀ c, c.2.memOk = true → (f c).2.memOk = true) :
    MemForm { s with cores := s.cores.map f } := h.withCores fun x hx => by
  obtain ⟨c, hc, rfl⟩ := List.mem_map.1 hx
  exact hf c ((memForm_iff.1 h).2.2.2.1 c hc)

/-- The records of saved gangs keep their form. -/
def SavesOk (f : Quarter → Quarter) : Prop := ∀ x, (∀ y ∈ x.saves, y.memOk = true) → ∀ y ∈ (f x).saves, y.memOk = true

theorem MemForm.withQuarters (h : MemForm s) {qs : Vector Quarter 4} (hq : ∀ q, ∀ x ∈ (qs.get q).saves, x.memOk = true) :
    MemForm { s with quarters := qs } := by
  obtain ⟨mem, cls, windows, cores, _⟩ := memForm_iff.1 h
  exact memForm_iff.2 ⟨mem, cls, windows, cores, hq⟩
theorem MemForm.modQuarter (h : MemForm s) (q : Fin 4) {f : Quarter → Quarter} (hf : SavesOk f) : MemForm (s.modQuarter q f) :=
  h.withQuarters fun j => by
    by_cases same : j = q
    · subst same
      rw [vget_set_same]
      exact hf _ (h.saves j)
    · rw [vget_set_ne _ _ same]
      exact h.saves j
theorem MemForm.mapQuarters (h : MemForm s) {f : Quarter → Quarter} (hf : SavesOk f) : MemForm { s with quarters := s.quarters.map f } :=
  h.withQuarters fun q => by
    rw [vget_eq, Vector.getElem_map, ← vget_eq]
    exact hf _ (h.saves q)

end

/-- The form survives what the agents of memory do, the end of contexts, and trap records. -/
theorem memForm_closed : RunClosed MemForm where
  mem s m hm h := h.withMem (hm h.wf_mem)
  memPoison _ _ h := h
  cls s m hm h := h.withCls (hm (memForm_iff.1 h).2.1)
  clsPoison _ _ h := h
  pend _ _ h := h
  torn _ _ h := h
  stale _ _ h := h
  ticks _ _ h := h
  tlbs _ _ h := h
  ring _ _ _ h := h
  owed _ _ h := h
  core s n f hf h := h.modCoreAt n fun c hc => by
    obtain ⟨same, stash⟩ := hf c
    obtain ⟨hs, ht⟩ := Core.memOk_iff.1 hc
    rw [same]
    exact Core.memOk_iff.2 ⟨stash hs, ht⟩
  l2 _ q _ h := h.modQuarter q fun _ h => h
  ctxs _ _ h := h
  launches _ _ h := h
  regs _ _ h := h
  kernels _ _ h := h
  hist _ n _ h := h.modCoreAt n fun _ h => h
  stopped _ q h := h.modQuarter q fun _ h => h
  record _ q _ _ h := h.modQuarter q fun _ h => h

/-! ## The operations of the state -/

section
variable {s : State}

/-- A choice between two states. -/
theorem MemForm.ite {c : Prop} [Decidable c] {t : State} (hs : MemForm s) (ht : MemForm t) : MemForm (if c then s else t) := by
  split
  · exact hs
  · exact ht

theorem MemForm.foldl {α : Type} {f : State → α → State} (h : MemForm s) (hf : ∀ {t} a, MemForm t → MemForm (f t a)) (l : List α) :
    MemForm (l.foldl f s) := foldl_closed (fun _ a ht => hf a ht) l h

/-- A fold of a core keeps its memories. -/
theorem memOk_foldl {α : Type} {c : Core} {f : Core → α → Core} (h : c.memOk = true) (hf : ∀ c a, c.memOk = true → (f c a).memOk = true)
    (l : List α) : (l.foldl f c).memOk = true := foldl_closed (I := fun c : Core => c.memOk = true) hf l h

/-- New rows leave the memories of a core. -/
theorem memOk_setRows {α : Type} {c : Core} {lane : α → Nat} {row : Core → α → BitVec 512} {l : List α} (h : c.memOk = true) :
    (l.foldl (fun c x => c.setRow (lane x) (row c x)) c).memOk = true := memOk_foldl h (fun _ _ hc => by exact hc) l

variable (h : MemForm s)
include h

theorem MemForm.modCtx {f : Ctx → Ctx} : MemForm (s.modCtx f) := h
theorem MemForm.modCtxAt {k : Nat} {f : Ctx → Ctx} : MemForm (s.modCtxAt k f) := h
theorem MemForm.modRegs {f : Regs → Regs} : MemForm (s.modRegs f) := h
theorem MemForm.modStrip {f : Strip → Strip} : MemForm (s.modStrip f) := by
  unfold State.modStrip
  split <;> exact h
theorem MemForm.setThread {t : Thread} : MemForm (s.setThread t) := .ite h.modStrip h
theorem MemForm.advance : MemForm s.advance := h.setThread
theorem MemForm.goto {pc : Word} : MemForm (s.goto pc) := h.setThread
theorem MemForm.writeS {n : Fin 64} {v : Word} : MemForm (s.writeS n v) := .ite h (.ite h.modStrip h)
theorem MemForm.writeP {n : Fin 8} {v : Bool} : MemForm (s.writeP n v) := .ite h (.ite h.modStrip h)
theorem MemForm.putS {o : Operand} {v : Word} : MemForm (s.putS o v) := by
  unfold State.putS
  split
  · exact h.writeS
  · exact h
theorem MemForm.putP {o : Operand} {v : Bool} : MemForm (s.putP o v) := by
  unfold State.putP
  split
  · exact h.writeP
  · exact h
theorem MemForm.asIssuer {i : Issuer} {f : State → State} (hf : ∀ {t}, MemForm t → MemForm (f t)) : MemForm (s.asIssuer i f) :=
  hf (t := { s with cur := i }) h
theorem MemForm.sticky {b : Sticky} {on : Bool} : MemForm (s.sticky b on) := .ite h h
theorem MemForm.withRequests {core : Nat} {t : State} : MemForm (s.withRequests core t) := memForm_closed.withRequests h core t

/-! ## Traps and the ends of contexts -/

theorem MemForm.logError {code outcome unit addr : Nat} {base : Bool} : MemForm (s.logError code outcome base unit addr) := h
theorem MemForm.endCtx {k : Nat} : MemForm (s.endCtx k) := memForm_closed.endCtx h k
theorem MemForm.tryEnd {k : Nat} : MemForm (s.tryEnd k) := memForm_closed.tryEnd h k
theorem MemForm.settleGang {l g : Nat} : MemForm (s.settleGang l g) := memForm_closed.settleGang h l g
theorem MemForm.containedStop {q : Fin 4} {cause seq : Nat} : MemForm (s.containedStop q cause seq) := memForm_closed.containedStop h ..
theorem MemForm.putRecord {q : Fin 4} {r : TrapRec} {t : State} (put : s.putRecord q r = some t) : MemForm t :=
  memForm_closed.putRecord h put
theorem MemForm.applyRecord {k : Nat} {r : TrapRec} : MemForm (s.applyRecord k r) := .ite h h.endCtx
theorem MemForm.post {k : Nat} {r : TrapRec} : MemForm (s.post k r) := by
  unfold State.post
  dsimp only
  split
  next written =>
    split at written
    · exact nomatch written
    · exact (h.putRecord written).applyRecord
  next => exact h
theorem MemForm.toHandler {t : Trap} {pc : Word} : MemForm (s.toHandler t pc) := h.modCtx.goto
theorem MemForm.holdTrap {t : Trap} : MemForm (s.holdTrap t) := .ite h.modStrip h
theorem MemForm.takeTrap {t : Trap} : MemForm (s.takeTrap t) := by
  have logged : MemForm (if t.cause = .uncorrected then s.logError t.mem 3 false s.cur.core t.addr else s) := .ite h.logError h
  exact .ite h.holdTrap (.ite logged.post (.ite h.post (.ite h.post (.ite h.toHandler h.post))))

/-- Bytes of unbound lines are part of the stash. -/
theorem MemForm.release {p : Nat → Ctx → Bool} : MemForm (s.release p) := by
  unfold State.release
  refine MemForm.foldl ?_ (fun core ht => ht.modCoreAt core fun c hc => ?_) _
  · exact h
  · obtain ⟨stash, tiles⟩ := Core.memOk_iff.1 hc
    exact Core.memOk_iff.2 ⟨wf_filter _ stash, tiles⟩
theorem MemForm.releaseEnded {launch : Nat} : MemForm (s.releaseEnded launch) := by
  unfold State.releaseEnded
  split
  · exact h
  · exact h.release
theorem MemForm.finishSaved {k : Nat} {t : Tenancy} : MemForm (s.finishSaved k t) := h.mapQuarters fun x hx y hy => by
  obtain ⟨z, hz, rfl⟩ := List.mem_map.1 hy
  split <;> exact hx z hz

omit h

/-- The next state of an action. -/
theorem Steps.settle {r : Act State} (hr : Steps r) : Keeps (settle r) := by
  unfold Steps at hr
  unfold Machine.settle
  split
  · exact .next hr
  · exact .next (MemForm.takeTrap hr)
  · exact .next hr

include h

theorem MemForm.tryIssuer {i : Issuer} {f : State → Act State} (hf : ∀ {t}, MemForm t → Steps (f t)) : MemForm (s.tryIssuer i f) :=
  h.asIssuer fun {t} ht => by
    have hr := hf ht
    unfold Steps at hr
    split <;> rename_i eq <;> rw [eq] at hr
    · exact hr
    · exact MemForm.takeTrap hr
    · exact hr

/-- An instruction under its guard. -/
theorem MemForm.run {c : Ctl} {body : State → Act State} (hb : MemForm s → Steps (body s)) : Keeps (run c s body) :=
  .ite (hb h).settle (.next h.advance)

theorem MemForm.keepWait {t : State} : MemForm (s.keepWait t) := h.withRequests (core := s.cur.core) (t := t)

/-- An action undone leaves the state before it. -/
theorem MemForm.undo {α : Type} {P : α → Prop} {r : Act α} (hr : Leaves MemForm P r) : Leaves MemForm P (undo s r) := by
  match r, hr with
  | .ok a, hr => exact hr
  | .error (.trap _ _), _ => exact h
  | .error (.wait _), _ => exact h.keepWait

/-! ## Checks -/

theorem MemForm.checkDest {d : Operand} : Checks (s.checkDest d) := .ite h trivial
theorem MemForm.outsideBody {d : Operand} : Checks (s.outsideBody d) := .ite h trivial
theorem MemForm.scope {x : Scope} {i : Instr} : Checks (s.scope x i) := by
  unfold State.scope
  split
  · exact trivial
  · exact h
theorem MemForm.place {p : Word} {z al : Nat} {i0 : Word} : Checks (s.place p z al i0) := by
  unfold State.place
  split
  · exact trivial
  · exact h
theorem MemForm.field {o : Operand} {t : Ty} {wid : Nat} {want : Want} : Checks (s.field o t wid want) := by
  have last (f : Fld) : Checks (match want, f.ty with
      | .int, .flt _ => trapField s .operandClass o (vreg o)
      | .flt, .int _ _ => trapField s .operandClass o (vreg o)
      | _, _ => if s.ctx.win.holds f.col f.width then .ok f else trapField s .range o (vreg o)) := by
    split
    · exact h
    · exact h
    · exact .ite trivial h
  unfold State.field
  refine .ite h ?_
  cases t with
  | i => exact last _
  | n => exact last _
  | _ =>
    dsimp only
    split
    · split
      · exact last _
      · exact h
    · exact last _
theorem MemForm.checkOverlap {o : Operand} {d : Fld} {srcs : List Fld} : Checks (s.checkOverlap o d srcs) := .ite trivial h
theorem MemForm.scrubStart : Checks s.scrubStart := by
  unfold State.scrubStart
  split
  · exact h
  · exact trivial
theorem MemForm.vecStart {i : Instr} : Checks (s.vecStart i) := .check h.scrubStart fun _ => .ite h trivial
theorem MemForm.checkStream {o : Operand} {i : Instr} : Checks (s.checkStream o i) := .ite h trivial
theorem MemForm.checkRmSat {i : Instr} {rmUsed satOk sat : Bool} {rm : RMode} : Checks (s.checkRmSat i rmUsed satOk rm sat) := .ite h trivial
theorem MemForm.checkParity {f : Fld} {is : List Nat} : Checks (s.checkParity f is) := by
  unfold State.checkParity
  split
  · exact h
  · exact trivial
theorem MemForm.streamReg {o : Operand} {i : Instr} : Checks (s.streamReg o i) := .ite h (.ite h (.ite trivial h))
theorem MemForm.scaleField {o : Operand} {t : Ty} : Checks (s.scaleField o t) := .check h.field fun _ => .ite trivial h
theorem MemForm.rawField {o : Operand} {w : Nat} : Checks (s.rawField o w) := .check h.field fun _ => .ite trivial h
theorem MemForm.rfe {i : Instr} : Steps (s.rfe i) := by
  refine .ite ?_ h
  dsimp only
  split
  · exact h
  · exact h.modCtx.goto

/-! ## Rows and tags -/

theorem MemForm.setEntry {n : Fin 32} {e : BitVec 32} : MemForm (s.setEntry n e) := h.modCtx.modCore fun _ hc => hc
theorem MemForm.putLanes {f : Fld} {vs : List (Nat × Nat)} : MemForm (s.putLanes f vs) :=
  h.modCore fun _ hc => memOk_setRows hc
theorem MemForm.encodeTags : MemForm s.encodeTags := .ite (h.modCore fun _ hc => hc) h
theorem MemForm.putTags {j : Fin 6} {vs : List (Nat × Bool)} : MemForm (s.putTags j vs) :=
  (h.modCore fun _ hc => memOk_setRows hc).encodeTags
theorem MemForm.mapLanes {m : Fin 6} {d : Fld} {op : Nat → BitVec 512 → BitVec 32 → Rounded} : MemForm (s.mapLanes m d op) :=
  h.putLanes.modCtx.sticky
theorem MemForm.mapTags {m d : Fin 6} {op : Nat → BitVec 512 → Bool} : MemForm (s.mapTags m d op) := h.putTags
theorem MemForm.writePass {f : Fld} {value enable : Nat} {m : Fin 6} : MemForm (s.writePass f value enable m) := h.putLanes
theorem MemForm.packAll {m : Fin 6} {e a sc : Fld} {elem : Flt} {rm : RMode} : MemForm (s.packAll m e a sc elem rm) :=
  h.foldl (fun _ ht => .ite ht ht.putLanes.putLanes.modCtx.sticky) _
theorem MemForm.truncate {e : Nat} : MemForm (s.truncate e) := h.modStrip.modCore fun _ hc => hc

end

end Sys2Proof.Machine
end

section
/-! SUPPORT. The canonical form through accesses, streams and the vector forms. -/

namespace Sys2Proof.Machine

section
variable {α β γ : Type} {P : γ → Prop}

/-- What follows an action that answers two things and a state. -/
theorem Leaves.give2 {r : Act (α × β × State)} {f : α × β × State → Act γ} (h : Leaves MemForm (fun x => MemForm x.2.2) r)
    (next : ∀ a b {t}, MemForm t → Leaves MemForm P (f (a, b, t))) : Leaves MemForm P (r >>= f) :=
  h.bind fun x hx => next x.1 x.2.1 hx

end

section
variable {s : State} (h : MemForm s)
include h

/-! ## Elements of accesses -/

theorem MemForm.find {a : Agent} {p : Word} {z al : Nat} {write : Bool} : MemForm (s.find a p z al write).2 := memForm_closed.find h ..
theorem MemForm.readLoc {k : Nat} {l : Loc} {n : Nat} {nt : Bool} : Leaves MemForm (fun x => MemForm x.2.2) (s.readLoc k l n nt) :=
  memForm_closed.readLoc h ..
theorem MemForm.storeLoc {k : Nat} {l : Loc} {bytes : List Byte} {acc : Nat} {pages : List Pinned} {hot : Option Nat} {nt : Bool} :
    Steps (s.storeLoc k l bytes acc pages hot nt) := memForm_closed.storeLoc h ..
theorem MemForm.homeRead {core : Nat} {l : Loc} {n : Nat} : Leaves MemForm (fun x => MemForm x.2.2) (s.homeRead core l n) :=
  memForm_closed.homeRead h ..
theorem MemForm.homeWrite {core : Nat} {l : Loc} {bytes : List Byte} {bad : Bool} : Steps (s.homeWrite core l bytes bad) :=
  memForm_closed.homeWrite h ..
theorem MemForm.homeAtomic {core : Nat} {l : Loc} {n : Nat} {f : Nat → Option Nat} :
    Leaves MemForm (fun x => MemForm x.2.2) (s.homeAtomic core l n f) := memForm_closed.homeAtomic h ..
theorem MemForm.ctxAtomic {k : Nat} {l : Loc} {n : Nat} {f : Nat → Option Nat} :
    Leaves MemForm (fun x => MemForm x.2.2) (s.ctxAtomic k l n f) := memForm_closed.ctxAtomic h ..
theorem MemForm.drainLoc {k : Nat} {l : Loc} {n : Nat} : Steps (s.drainLoc k l n) := memForm_closed.drainLoc h ..
theorem MemForm.boundary {k : Nat} {sc : Scope} : Steps (s.boundary k sc) := memForm_closed.boundary h ..
theorem MemForm.count {hot : Option Nat} {l : Loc} : MemForm (s.count hot l) := memForm_closed.count h ..
theorem MemForm.postResidency {asid : Fin 16} {va : Nat} {who : BitVec 32} : MemForm (s.postResidency asid va who) :=
  memForm_closed.postResidency h ..
theorem MemForm.waitPage {α : Type} {P : α → Prop} {asid : Fin 16} {va : Nat} {engine : Bool} :
    Leaves MemForm P (s.waitPage asid va engine : Act α) := h.postResidency

theorem MemForm.scalarLoc {p : Word} {z al : Nat} {write : Bool} {i0 : Word} : Gives (s.scalarLoc p z al write i0) := by
  have found := h.find (a := s.agentOf s.key) (p := p) (z := z) (al := al) (write := write)
  unfold State.scalarLoc
  split <;> rename_i eq
  · exact h
  · exact h
  · rw [eq] at found
    exact found.waitPage
  · rw [eq] at found
    exact .ite found found
theorem MemForm.scalarRead {p : Word} {z al : Nat} {i0 : Word} {nt : Bool} : Gives (s.scalarRead p z al i0 nt) :=
  .give h.scalarLoc fun _ _ h1 => .give2 h1.readLoc fun _ _ _ h2 => .ite h h2
theorem MemForm.scalarVal {p : Word} {z : Nat} {i0 : Word} : Gives (s.scalarVal p z i0) := .give h.scalarRead fun _ _ h1 => h1
theorem MemForm.scalarWrite {p : Word} {z v : Nat} {nt : Bool} : Steps (s.scalarWrite p z v nt) := .give h.scalarLoc fun _ _ h1 => h1.storeLoc

theorem MemForm.checkElems {a : Agent} {z : Nat} {write : Bool} {es : List VElem} : MemForm (s.checkElems a z write es).2.2 := by
  induction es generalizing s with
  | nil => exact h
  | cons e es ih =>
    unfold State.checkElems
    split
    · exact ih h
    · exact ih h
    · exact h
    · next p _ =>
      have found := h.find (a := a) (p := p) (z := z) (al := z) (write := write)
      split <;> rename_i eq <;> rw [eq] at found
      · exact found
      · exact found
      · exact ih found
      · exact ih found
theorem MemForm.vecCheck {z : Nat} {write home ff : Bool} {es : List VElem} : Gives (s.vecCheck z write home ff es) := by
  have checked := h.checkElems (a := s.agentOf s.key) (z := z) (write := write) (es := es)
  unfold State.vecCheck
  dsimp only
  split
  · exact .ite checked checked
  · exact .ite (.ite checked checked.truncate) h
theorem MemForm.loadElems {s0 : State} (h0 : MemForm s0) {z : Nat} {nt : Bool} {hot : Option Nat} {es : List (VElem × Ready)} :
    Gives (s.loadElems s0 z nt hot es) := by
  induction es generalizing s with
  | nil => exact h
  | cons e es ih =>
    obtain ⟨e, r⟩ := e
    unfold State.loadElems
    dsimp only
    split
    · exact .give2 h.readLoc fun _ _ _ h1 => .ite h0 (.give (ih h1.count) fun _ _ h2 => h2)
    · exact .give (ih h) fun _ _ h2 => h2
theorem MemForm.storeElems {z : Nat} {hot : Option Nat} {acc : Nat} {pages : List Pinned} {nt : Bool} {data : Nat → Nat}
    {es : List (VElem × Ready)} : Steps (s.storeElems z hot acc pages nt data es) := by
  induction es generalizing s with
  | nil => exact h
  | cons e es ih =>
    obtain ⟨e, r⟩ := e
    unfold State.storeElems
    split
    · exact .step h.storeLoc fun h1 => ih h1
    · exact ih h
theorem MemForm.atomicElems {s0 : State} (h0 : MemForm s0) {z : Nat} {op : Nat → Nat → Nat} {data : Nat → Nat}
    {es : List (VElem × Ready)} : Steps (s.atomicElems s0 z op data es) := by
  induction es generalizing s with
  | nil => exact h
  | cons e es ih =>
    obtain ⟨e, r⟩ := e
    unfold State.atomicElems
    dsimp only
    split
    · exact .give2 h.ctxAtomic fun _ _ _ h1 => .ite h0 (ih h1.count)
    · exact ih h
theorem MemForm.residency {es : List (VElem × Ready)} : MemForm (s.residency es) := by
  refine MemForm.putTags (h.foldl (fun x ht => ?_) es)
  split
  · exact ht.postResidency
  · exact ht

/-! ## Streams -/

omit h in
theorem memForm_reads (a : Agent) : ReadClosed a MemForm := memForm_closed.toMemClosed.reads a

theorem MemForm.ofReadBlock {a : Agent} {t : Stream} {b : Nat} {x : Except Got (List (Option Word))} {u : State}
    (read : s.readBlock a t b = (x, u)) : MemForm u := by
  have kept := (memForm_reads a).readBlock h t b
  rwa [read] at kept
theorem MemForm.popWrite {r : Fin 4} {t : Stream} {vs : List (Option Word)} {st : Word} : MemForm (s.popWrite r t vs st) :=
  h.putLanes.putTags.modCtx.modStrip
theorem MemForm.popStop {α : Type} {P : α → Prop} {g : Got} : Leaves MemForm P (popStop s g : Act α) := by
  unfold Machine.popStop
  split
  · exact h
  · exact h.waitPage
  · exact h
theorem MemForm.popStrm {r : Fin 4} {t : Stream} : Steps (s.popStrm r t) := by
  unfold State.popStrm
  dsimp only
  split
  · exact h.popStop
  · exact ((memForm_reads _).strmRead t _ h _).popWrite
theorem MemForm.popKv {r : Fin 4} {t : Stream} : Steps (s.popKv r t) := by
  unfold State.popKv
  split
  · exact h.popWrite
  · split
    · refine MemForm.popWrite ?_
      exact h
    · have chosen := (memForm_reads (s.agentOf s.key)).nextBlock h t t.left
      dsimp only
      split <;> rename_i eq
      · refine MemForm.popStop ?_
        exact chosen
      · refine MemForm.popWrite ?_
        have kept := chosen.ofReadBlock eq
        exact kept
theorem MemForm.pop {r : Fin 4} : Steps (s.pop r) := by
  unfold State.pop
  split
  · exact h
  · exact .ite h.popKv h.popStrm
theorem MemForm.popAll {ops : List Operand} : Steps (s.popAll ops) := by
  refine .ite h.modStrip (.ite ?_ h)
  have popped : Steps ((streamRegs ops).foldlM State.pop s) := Leaves.foldlM (fun _ _ ht => ht.pop) _ h
  dsimp only
  split
  · exact h.withRequests.modCtx
  · exact h.undo popped
theorem MemForm.walkRecord {p : Word} : Gives (s.walkRecord p) :=
  .give h.scalarVal fun _ _ h => .give h.scalarVal fun _ _ h => .give h.scalarVal fun _ _ h => .give h.scalarVal fun _ _ h => h

theorem MemForm.execStreamReadAhead {core : Fin 320} {lc r : Fin 4} : Keeps (exec (.streamReadAhead core lc r) s) := by
  rcases exec_streamReadAhead core lc r s with same | ⟨x, more, later, u, _, next, closed⟩
  · exact same ▸ .next h
  · have kept : MemForm u := closed MemForm (memForm_reads _) (fun _ _ h => h) h
    exact next ▸ .next kept
theorem MemForm.execStrm {c : Ctl} {f : FX} : Keeps (execStrm c f s) := h.run fun h => .check h.streamReg fun _ => h.modCtx.advance
theorem MemForm.execStrmkv {c : Ctl} {f : FX} : Keeps (execStrmkv c f s) := h.run fun h => .check h.streamReg fun x => by
  refine .ite h (.ite h (.give (h.undo h.walkRecord) fun ws t h => ?_))
  dsimp only
  split
  · exact .ite h h.modCtx.advance
  · exact h
theorem MemForm.execStrmxStop {c : Ctl} {f : FR} : Keeps (execStrmxStop c f s) :=
  h.run fun h => .check h.streamReg fun _ => h.modCtx.advance
theorem MemForm.execStrmxStat {c : Ctl} {f : FR} : Keeps (execStrmxStat c f s) :=
  h.run fun h => .check h.checkDest fun _ => .check h.streamReg fun _ => h.putS.advance

/-! ## Vector integer and floating forms -/

theorem MemForm.lanewise {i : Instr} {o : Operand} {m : Fin 6} {d : Fld} {srcs : List (Operand × Fld)}
    {op : Nat → BitVec 512 → BitVec 32 → Rounded} : Steps (s.lanewise i o m d srcs op) :=
  .check h.checkOverlap fun _ => .check h.checkStream fun _ => .step h.popAll fun h => h.mapLanes.advance
theorem MemForm.tagwise {o : Operand} {m : Fin 6} {srcs : List Operand} {op : Nat → BitVec 512 → Bool} :
    Steps (s.tagwise o m srcs op) := .step h.popAll fun h => h.mapTags.advance
theorem MemForm.int1 {i : Instr} {f : FR} {op : Fld → Fld → BitVec 512 → Int} : Steps (int1 i f op s) :=
  .check h.vecStart fun _ => .check h.field fun _ => .check h.field fun _ => h.lanewise
theorem MemForm.int2 {i : Instr} {f : FR} {op : Fld → Fld → Fld → Nat → BitVec 512 → Int} : Steps (int2 i f op s) :=
  .check h.vecStart fun _ => .check h.field fun _ => .check h.field fun _ => .check h.field fun _ => h.lanewise
theorem MemForm.execVfmap {c : Ctl} {f : FR} : Keeps (execVfmap c f s) := h.run fun h => .check h.outsideBody fun _ =>
  .check h.scrubStart fun _ => .check h.checkStream fun _ => .ite h (.ite h.setEntry.advance h)
theorem MemForm.execVdim {c : Ctl} {f : FR} : Keeps (execVdim c f s) := h.run fun h => .check h.outsideBody fun _ =>
  .check h.scrubStart fun _ => .ite h (.ite h h.modCtx.advance)
theorem MemForm.laneNumber {i : Instr} {f : FR} {v : State → Nat → Int} : Steps (laneNumber i f v s) :=
  .check h.vecStart fun _ => .check h.field fun _ => h.lanewise
theorem MemForm.execVbcast {c : Ctl} {f : FR} : Keeps (execVbcast c f s) := h.run fun h => .check h.vecStart fun _ =>
  .check h.field fun _ => .check h.checkRmSat fun _ => h.lanewise
theorem MemForm.bitwise {i : Instr} {f : FR} {op : Nat → Nat → Nat} : Steps (bitwise i f op s) :=
  .check h.vecStart fun _ => .check h.field fun _ => .check h.field fun _ => .check h.field fun _ => h.lanewise
theorem MemForm.execVnot {c : Ctl} {f : FR} : Keeps (execVnot c f s) := h.run fun h => .check h.vecStart fun _ =>
  .check h.field fun _ => .check h.field fun _ => h.lanewise
theorem MemForm.shiftForm {i : Instr} {f : FR} {op : Fld → BitVec 512 → Nat → Int} : Steps (shiftForm i f op s) :=
  .check h.vecStart fun _ => .check h.field fun _ => .check h.field fun _ => by
    split
    · exact .check h.field fun _ => h.lanewise
    · exact h.lanewise
theorem MemForm.execVcmp {c : Ctl} {f : FR} : Keeps (execVcmp c f s) := h.run fun h => .check h.vecStart fun _ =>
  .check h.field fun _ => by
    split
    · exact .check h.field fun _ => h.tagwise
    · exact h.tagwise
theorem MemForm.execVmov {c : Ctl} {f : FR} : Keeps (execVmov c f s) := h.run fun h => .check h.vecStart fun _ =>
  .check h.field fun _ => .check h.field fun _ => h.lanewise
theorem MemForm.execVcvt {c : Ctl} {f : FR} : Keeps (execVcvt c f s) := h.run fun h => .check h.vecStart fun _ =>
  .check h.field fun _ => .check h.field fun _ => h.lanewise
theorem MemForm.execVbext {c : Ctl} {f : FX} : Keeps (execVbext c f s) := h.run fun h => .check h.vecStart fun _ =>
  .check h.field fun _ => .check h.field fun _ => .ite h h.lanewise
theorem MemForm.flt1 {i : Instr} {f : FR} {op : Num → Num} : Steps (flt1 i f op s) :=
  .check h.vecStart fun _ => .check h.field fun _ => .check h.field fun _ => .check h.checkRmSat fun _ => h.lanewise
theorem MemForm.flt2 {i : Instr} {f : FR} {op : Bool → Num → Num → Num → Num} : Steps (flt2 i f op s) :=
  .check h.vecStart fun _ => .check h.field fun _ => .check h.field fun _ => .check h.field fun _ => .check h.checkRmSat fun _ => h.lanewise
theorem MemForm.execVfcmp {c : Ctl} {f : FR} : Keeps (execVfcmp c f s) := h.run fun h => .check h.vecStart fun _ =>
  .check h.field fun _ => .check h.field fun _ => h.tagwise
theorem MemForm.execVfcvt {c : Ctl} {f : FR} : Keeps (execVfcvt c f s) := h.run fun h => .check h.vecStart fun _ =>
  .check h.field fun _ => .check h.field fun _ => .check h.checkRmSat fun _ => h.lanewise
theorem MemForm.execVfsgn {c : Ctl} {f : FR} : Keeps (execVfsgn c f s) := h.run fun h => .check h.vecStart fun _ =>
  .check h.field fun _ => .check h.field fun _ => .ite h (.ite h.lanewise (.check h.field fun _ => h.lanewise))
theorem MemForm.execVfscl {c : Ctl} {f : FR} : Keeps (execVfscl c f s) := h.run fun h => .check h.vecStart fun _ =>
  .check h.field fun _ => .check h.field fun _ => .check h.scaleField fun _ => .check h.checkRmSat fun _ => h.lanewise
theorem MemForm.execVfnb8 {c : Ctl} {f : FR} : Keeps (execVfnb8 c f s) := h.run fun h => .check h.vecStart fun _ =>
  .ite (.check h.rawField fun _ => .check h.field fun _ => .check h.rawField fun _ => .ite h
      (.check h.checkStream fun _ => .check h.checkStream fun _ => .step h.popAll fun h => h.packAll.advance))
    (.check h.field fun _ => .check h.rawField fun _ => .check h.rawField fun _ => .check h.checkRmSat fun _ => .ite h h.lanewise)

/-! ## Associative forms, reductions and mask logic -/

theorem MemForm.searchForm {i : Instr} {f : FX} {care : State → Nat} : Steps (searchForm i f care s) :=
  .check h.vecStart fun _ => .check h.field fun _ => .ite h (.step h.popAll fun h => h.putTags.advance)
theorem MemForm.execAwr {c : Ctl} {f : FX} : Keeps (execAwr c f s) := h.run fun h => .check h.vecStart fun _ =>
  .check h.field fun _ => .ite h (.check h.checkStream fun _ => h.writePass.advance)
theorem MemForm.execApass {c : Ctl} {f : FX} : Keeps (execApass c f s) := h.run fun h => .check h.vecStart fun _ =>
  .check h.field fun _ => .check h.field fun _ => .check h.checkStream fun _ => .step h.popAll fun h => h.putTags.writePass.advance
theorem MemForm.execAcnt {c : Ctl} {f : FR} : Keeps (execAcnt c f s) :=
  h.run fun h => .check h.checkDest fun _ => .check h.vecStart fun _ => h.putS.advance
theorem MemForm.execAfirst {c : Ctl} {f : FR} : Keeps (execAfirst c f s) :=
  h.run fun h => .check h.checkDest fun _ => .check h.vecStart fun _ => h.putS.advance
theorem MemForm.execAext {c : Ctl} {f : FX} : Keeps (execAext c f s) := h.run fun h => .check h.checkDest fun _ =>
  .check h.vecStart fun _ => .check h.field fun _ => .step h.popAll fun h => h.putS.advance
theorem MemForm.execAtopk {c : Ctl} {f : FX} : Keeps (execAtopk c f s) := h.run fun h => .check h.vecStart fun _ =>
  .check h.field fun _ => .step h.popAll fun h => h.putTags.advance
theorem MemForm.execAhamm {c : Ctl} {f : FR} : Keeps (execAhamm c f s) := h.run fun h => .check h.vecStart fun _ =>
  .check h.field fun _ => .check h.field fun _ => h.lanewise
theorem MemForm.execVhash {c : Ctl} {f : FR} : Keeps (execVhash c f s) := h.run fun h => .check h.vecStart fun _ =>
  .check h.field fun _ => .check h.field fun _ => .ite h (.check h.checkOverlap fun _ => .check h.checkStream fun _ =>
    .step h.popAll fun h => h.putLanes.advance)
theorem MemForm.execAsred {c : Ctl} {f : FR} : Keeps (execAsred c f s) := h.run fun h => .check h.vecStart fun _ =>
  .check h.field fun _ => .check h.field fun _ => .ite h (.check h.checkRmSat fun _ => .check h.checkOverlap fun _ =>
    .check h.checkStream fun _ => .step h.popAll fun h => h.modCtx.sticky.putLanes.putLanes.advance)

end

end Sys2Proof.Machine
end

section
/-! SUPPORT. The canonical form through handles and generators, the scalar forms, matrix forms and accesses of memory. -/

namespace Sys2Proof.Machine

/-! ## Reads through handles (R251 to R260) -/

/-- A read of memory through a handle keeps the form. -/
structure Reads {α : Type} (x : Rd α) : Prop where
  keeps (s : State) : MemForm s → Gives (x s)

section
variable {α β : Type}

theorem Reads.of {x : Rd α} (hx : Reads x) {s : State} (h : MemForm s) : Gives (x s) := hx.keeps s h
theorem Reads.pure (a : α) : Reads (pure a : Rd α) := ⟨fun _ h => h⟩
theorem Reads.stopRd {cause : Cause} {val i0 : Word} : Reads (stopRd cause val i0 : Rd α) := ⟨fun _ h => h⟩
theorem Reads.bind {x : Rd α} {f : α → Rd β} (hx : Reads x) (hf : ∀ a, Reads (f a)) : Reads (x >>= f) :=
  ⟨fun _ h => Leaves.give (hx.of h) fun a _ ht => (hf a).of ht⟩
theorem Reads.ite {c : Prop} [Decidable c] {x y : Rd α} (hx : Reads x) (hy : Reads y) : Reads (if c then x else y) := by
  split
  · exact hx
  · exact hy
theorem Reads.rd {p : Word} {z : Nat} {i0 : Word} : Reads (rd p z i0) := ⟨fun _ h => h.scalarVal⟩

theorem Reads.filterM {f : α → Rd Bool} (hf : ∀ a, Reads (f a)) (l : List α) : Reads (l.filterM f) := by
  have collect : ∀ (l : List α) (acc : List α), Reads (List.filterAuxM f l acc) := by
    intro l
    induction l with
    | nil => exact fun acc => .pure acc
    | cons a l ih => exact fun acc => (hf a).bind fun b => ih _
  exact (collect l []).bind fun r => .pure r.reverse

end

theorem Reads.readWords {p i0 : Word} {n k : Nat} : Reads (readWords p i0 n k) := by
  induction n generalizing k with
  | zero => exact .pure []
  | succ n ih => exact .bind .rd fun _ => .bind ih fun _ => .pure _
theorem Reads.checkProgram {h : Handle} {l : Nat} {i0 : Word} : Reads (checkProgram h l i0) := by
  have go : ∀ n k, Reads (checkProgram.go h l i0 n k) := by
    intro n
    induction n with
    | zero => exact fun _ => .pure ()
    | succ n ih => exact fun k => .bind .rd fun _ => .ite .stopRd (ih _)
  exact .ite .stopRd (go _ _)
theorem Reads.param {h : Handle} {l k : Nat} {i0 : Word} : Reads (param h l k i0) := .rd
theorem Reads.runWords {h : Handle} {i0 : Word} {l : Nat} {ws : List Nat} {arg : Word} {sub : Bool → Word → Word → Rd Word}
    (hsub : ∀ b x i, Reads (sub b x i)) {fuel pc last : Nat} {r : Run} : Reads (runWords h i0 l ws arg sub fuel pc last r) := by
  induction fuel generalizing pc last r with
  | zero => exact .stopRd
  | succ fuel ih =>
    unfold Machine.runWords
    split
    · exact .stopRd
    · dsimp only
      split
      · exact .pure _
      · exact .pure _
      · exact ih
      · exact .bind .param fun _ => ih
      · exact ih
      · exact ih
      · exact .ite (.ite .stopRd ih) ih
      · exact .ite .stopRd ih
      · exact .bind (hsub _ _ _) fun _ => ih
      · exact ih
theorem Reads.canonTry {h : Handle} {i0 : Word} {l x : Nat} {inverse : Bool} : Reads (canonTry h i0 l inverse x) := by
  have last (p0 p1 p2 : Nat) : Reads (match canonSet (hKind h l) (hNpp h l) (if inverse then hProd h l else hDim h l) inverse x p0 p1 p2 with
      | none => Machine.stopRd .patternProgram (hPtr h l) (w64 x)
      | some s => Pure.pure s : Rd (List Nat)) := by
    split
    · exact .stopRd
    · exact .pure _
  exact .bind .param fun _ => .bind .param fun _ => .ite (.bind .param fun _ => last _ _ _) (.bind (.pure 0) fun _ => last _ _ _)
theorem Reads.canonRun {h : Handle} {i0 : Word} {l x : Nat} {inverse : Bool} : Reads (canonRun h i0 l inverse x) :=
  .bind .canonTry fun _ => .ite .stopRd (.pure _)
theorem Reads.findCrd {crd i0 : Word} {c n q : Nat} : Reads (findCrd crd c i0 n q) := by
  induction n generalizing q with
  | zero => exact .pure none
  | succ n ih => exact .bind .rd fun _ => .ite (.pure _) ih
theorem Reads.countBytes {p i0 : Word} {n k : Nat} : Reads (countBytes p i0 n k) := by
  induction n generalizing k with
  | zero => exact .pure 0
  | succ n ih => exact .bind .rd fun _ => .bind ih fun _ => .pure _

section
variable {h : Handle} {i0 : Word} {run : Nat → Nat → Rd (List Nat)} (hrun : ∀ l p, Reads (run l p))
include hrun

theorem Reads.level {l p c : Nat} : Reads (level h i0 run l p c) := by
  unfold Machine.level
  dsimp only
  split
  · exact .pure _
  · exact .bind .rd fun _ => .bind .rd fun _ => .findCrd
  · exact .bind .rd fun _ => .pure _
  · exact .bind .rd fun _ => .ite (.bind .countBytes fun _ => .pure _) (.pure none)
  · refine .bind (hrun _ _) fun s => ?_
    split
    · exact .pure _
    · exact .pure none
theorem Reads.lookupFrom {cs : List Nat} {l p : Nat} : Reads (lookupFrom h i0 run cs l p) := by
  induction cs generalizing l p with
  | nil => exact .pure _
  | cons c cs ih =>
    refine .bind (.level hrun) fun q => ?_
    split
    · exact .pure none
    · exact ih
theorem Reads.lookupWith {e : Nat} : Reads (lookupWith h i0 run e) := .ite (.pure none) (.lookupFrom hrun)

end

theorem Reads.readLong {p i0 : Word} {n k : Nat} : Reads (readLong p i0 n k) := by
  induction n generalizing k with
  | zero => exact .pure 0
  | succ n ih => exact .bind .rd fun _ => .bind ih fun _ => .pure _
theorem Reads.subHandle {p i0 arg : Word} : Reads (subHandle p i0 arg) :=
  .ite .stopRd (.bind .readLong fun _ => .ite (.pure _) .stopRd)
theorem Reads.subSet {h : Handle} {i0 : Word} {i : Nat} : Reads (subSet h i0 i) :=
  .ite (.pure []) (.ite .canonRun (.filterM (fun _ => .bind (.lookupWith fun _ _ => .canonRun) fun _ => .pure _) _))
theorem Reads.subParents {h : Handle} {i0 : Word} {j : Nat} : Reads (subParents h i0 j) :=
  .ite (.pure []) (.ite .canonRun (.filterM (fun _ => .bind (.lookupWith fun _ _ => .canonRun) fun _ => .pure _) _))
theorem Reads.kronPtrs {h : Handle} {i0 : Word} {l : Nat} : Reads (kronPtrs h i0 l) :=
  .bind .param fun _ => .bind .param fun _ => .bind .param fun _ => .bind .param fun _ => .pure _
theorem Reads.kronRun {h : Handle} {i0 : Word} {l x : Nat} {inverse : Bool} : Reads (kronRun h i0 l inverse x) := by
  refine .bind .kronPtrs fun ps => .bind .param fun _ => .bind .param fun _ => .ite .stopRd
    (.bind .subHandle fun _ => .bind .subHandle fun _ => ?_)
  cases inverse
  · exact .bind .subSet fun _ => .bind .subSet fun _ => .pure _
  · exact .bind .subParents fun _ => .bind .subParents fun _ => .pure _
theorem Reads.subElement {h : Handle} {i0 arg x i : Word} {l : Nat} {second : Bool} : Reads (subElement h i0 l arg second x i) :=
  .bind .param fun _ => .bind .param fun _ => .bind .subHandle fun _ => .bind .subSet fun _ => .pure _
theorem Reads.runPattern {h : Handle} {i0 : Word} {inverse : Bool} {l x : Nat} : Reads (runPattern h i0 inverse l x) :=
  .ite (.bind .readWords fun _ => .bind (.runWords fun _ _ _ => .subElement) fun _ => .ite .stopRd (.pure _))
    (.ite (.bind .kronRun fun _ => .ite .stopRd (.pure _)) (.bind .canonRun fun _ => .ite .stopRd (.pure _)))
theorem Reads.lookup {h : Handle} {i0 : Word} {e : Nat} : Reads (lookup h i0 e) := .lookupWith fun _ _ => .runPattern
theorem Reads.precheck {h : Handle} : Reads (precheck h) := by
  unfold Machine.precheck
  split
  · exact .ite .checkProgram (.pure ())
  · exact .pure ()
theorem Reads.rawSub {p i0 : Word} : Reads (rawSub p i0) := ⟨fun _ h => .give h.scalarRead fun _ _ h => h⟩
theorem Reads.invertible {h : Handle} {l : Nat} {i0 : Word} : Reads (invertible h l i0) := by
  unfold Machine.invertible
  split
  · exact .bind .readWords fun _ => .pure _
  · exact .bind .kronPtrs fun _ => .bind .rawSub fun _ => .bind .rawSub fun _ => .pure _
  · exact .pure false
  · exact .pure true
theorem Reads.checkLevel {h : Handle} {l x : Nat} : Reads (checkLevel h l x) := by
  unfold Machine.checkLevel
  split
  · exact .checkProgram
  · exact .bind .kronPtrs fun _ => .bind .param fun _ => .bind .param fun _ => .ite .stopRd
      (.bind .subHandle fun _ => .bind .subHandle fun _ => .pure ())
  · exact .bind .canonTry fun _ => .pure ()
theorem Reads.presentLanes {test : Nat → Rd Bool} (htest : ∀ i, Reads (test i)) {is : List Nat} : Reads (presentLanes test is) := by
  induction is with
  | nil => exact .pure []
  | cons i is ih => exact .bind (htest i) fun _ => .bind ih fun _ => .pure _

section
variable {s : State} (h : MemForm s)
include h

theorem MemForm.handleElems {x : Handle} {base : Word} {z : Nat} {is : List (Nat × Word)} : Gives (handleElems x base z is s) := by
  induction is generalizing s with
  | nil => exact h
  | cons i is ih =>
    obtain ⟨i, e⟩ := i
    have found : Gives (lookup x e e.toNat s) := Reads.lookup.of h
    unfold Gives at found
    unfold Machine.handleElems
    dsimp only
    split <;> rename_i eq
    · rw [eq] at found
      exact found
    · exact h
    · rw [eq] at found
      exact .give (ih found) fun _ _ h => h

/-! ## Loop sums, mask logic and the handle forms -/

omit h in
/-- What follows a check that is made unless a condition holds. -/
theorem Leaves.unless {β : Type} {P : β → Prop} {b : Prop} [Decidable b] {r : Act Unit} {f : Unit → Act β} (hr : Checks r)
    (hf : ∀ u, Leaves MemForm P (f u)) : Leaves MemForm P (if b then Except.ok () >>= f else r >>= f) := .ite (hf ()) (.check hr hf)
theorem MemForm.execAred {c : Ctl} {f : FR} : Keeps (execAred c f s) := h.run fun h => .ite h (.unless h.checkDest fun _ =>
  .check h.vecStart fun _ => .check h.field fun a => by
    dsimp only
    split
    · exact h
    · refine .check h.checkRmSat fun _ => .step h.popAll fun h => .ite (MemForm.advance (.ite h h.putS)) (.ite ?_ ?_)
      · exact h.modCtx.sticky.modCtx.sticky.advance
      · exact h.modCtx.sticky.putS.advance)
theorem MemForm.maskOp {i : Instr} {f : FR} {op : Bool → Bool → Bool} : Steps (maskOp i f op s) := .check h.vecStart fun _ => h.tagwise
theorem MemForm.execHld {c : Ctl} {f : FM} : Keeps (execHld c f s) := h.run fun h => .check h.outsideBody fun _ =>
  .give h.scalarRead fun _ _ h1 => .ite h1.modCtx.advance h
theorem MemForm.execHst {c : Ctl} {f : FM} : Keeps (execHst c f s) := h.run fun h => .give h.scalarLoc fun _ _ h =>
  .step (Leaves.foldlM (fun _ _ ht => ht.storeLoc) _ h) fun h => h.advance
theorem MemForm.execHqWord {c : Ctl} {f : FR} : Keeps (execHqWord c f s) := h.run fun h => .check h.checkDest fun _ => h.putS.advance
theorem MemForm.execHqInv {c : Ctl} {f : FR} : Keeps (execHqInv c f s) := h.run fun h => .check h.checkDest fun _ => by
  refine .give (h.undo ?_) fun _ _ h => h.putS.advance
  split
  · exact Reads.invertible.of h
  · exact h
theorem MemForm.execHmaskLin {c : Ctl} {f : FR} : Keeps (execHmaskLin c f s) := h.run fun h => .check h.vecStart fun _ =>
  .ite h (.give (h.undo (Reads.precheck.of h)) fun _ _ h1 =>
    .give (h.undo ((Reads.presentLanes fun _ => .bind .lookup fun _ => .pure _).of h1)) fun _ _ h => h.putTags.advance)
theorem MemForm.execHmaskTr {c : Ctl} {f : FR} : Keeps (execHmaskTr c f s) := h.run fun h => .check h.vecStart fun _ =>
  .ite h (.ite h (.give (h.undo (Reads.precheck.of h)) fun _ _ h1 => .ite
    (.give (h.undo (Reads.checkLevel.of h1)) fun _ _ h1 => .give (h.undo (Reads.invertible.of h1)) fun _ _ h2 => .ite h (.ite h2.advance
      (.give (h.undo (Reads.runPattern.of h2)) fun _ _ h3 => h3.putTags.advance)))
    (.give (h.undo ((Reads.presentLanes fun _ => .bind .lookup fun _ => .pure _).of h1)) fun _ _ h => h.putTags.advance)))
theorem MemForm.startGen {i : Instr} {f : FR} {inverse : Bool} : Steps (startGen i f inverse s) := by
  refine .ite h ?_
  dsimp only
  split
  · exact h
  · refine .ite h (.give (h.undo (Reads.checkLevel.of h)) fun _ _ h1 => ?_)
    cases inverse
    · exact .give (h.undo h1) fun _ _ h2 => .ite h (.give (h.undo (Reads.runPattern.of h2)) fun _ _ h3 => h3.modCtx.advance)
    · exact .give (h.undo (Reads.invertible.of h1)) fun _ _ h2 => .ite h (.give (h.undo (Reads.runPattern.of h2)) fun _ _ h3 => h3.modCtx.advance)
theorem MemForm.execGnextScalar {c : Ctl} {f : FR} : Keeps (execGnextScalar c f s) := h.run fun h => .check h.checkDest fun _ => by
  dsimp only
  split
  · exact h.putS.advance
  · exact h.putS.modCtx.advance
theorem MemForm.execGnextVector {c : Ctl} {f : FR} : Keeps (execGnextVector c f s) := h.run fun h => .check h.vecStart fun _ =>
  .check h.field fun _ => .check h.checkStream fun _ => h.putLanes.putTags.modCtx.sticky.advance

end

end Sys2Proof.Machine
end

section
/-! SUPPORT. The canonical form through the scalar forms, matrix forms, accesses of memory, atomics and barriers. -/

namespace Sys2Proof.Machine

section
variable {s : State} (h : MemForm s)
include h

/-! ## Scalar forms -/

theorem MemForm.scalarOp {f : FR} {op : Word → Word → Word} : Steps (scalarOp f op s) := .check h.checkDest fun _ => h.putS.advance
theorem MemForm.arithOp {f : FR} {op : Int → Int → Int} : Steps (arithOp f op s) := .check h.checkDest fun _ => h.putS.sticky.advance
theorem MemForm.floatOp {f : FR} {op : State → Num → Num → Num} : Steps (floatOp f op s) :=
  .check h.checkDest fun _ => h.putS.modCtx.sticky.advance
theorem MemForm.predOp {f : FR} {v : State → Bool} : Steps (predOp f v s) := .check h.checkDest fun _ => h.putP.advance
theorem MemForm.execBext {c : Ctl} {f : FX} : Keeps (execBext c f s) := h.run fun h => .check h.checkDest fun _ => h.putS.advance
theorem MemForm.execBins {c : Ctl} {f : FX} : Keeps (execBins c f s) := h.run fun h => .check h.checkDest fun _ => h.putS.advance
theorem MemForm.execLi {c : Ctl} {f : FI} : Keeps (execLi c f s) := h.run fun h => .check h.checkDest fun _ => h.putS.advance
theorem MemForm.execLih {c : Ctl} {f : FI} : Keeps (execLih c f s) := h.run fun h => .check h.checkDest fun _ => h.putS.advance
theorem MemForm.execSfcmp {c : Ctl} {f : FR} : Keeps (execSfcmp c f s) := h.run fun h => .check h.checkDest fun _ => h.putP.advance
theorem MemForm.execSfcvt {c : Ctl} {f : FR} : Keeps (execSfcvt c f s) :=
  h.run fun h => .check h.checkDest fun _ => h.putS.modCtx.sticky.advance
theorem MemForm.execSfmm {c : Ctl} {f : FR} : Keeps (execSfmm c f s) := h.run fun h => .check h.checkDest fun _ => h.putS.advance
theorem MemForm.execSpc {c : Ctl} {f : FR} : Keeps (execSpc c f s) := h.run fun h => .check h.checkDest fun _ => by
  dsimp only
  split
  · exact h.putS.advance
  · exact h
  · exact h
theorem MemForm.execSpmk {c : Ctl} {f : FR} : Keeps (execSpmk c f s) :=
  h.run fun h => .check h.checkDest fun _ => .ite h (.ite h h.putS.advance)

/-! ## Matrix forms -/

omit h in
theorem Core.landRow_memOk {c : Core} (m : MFlight) (hc : c.memOk = true) : (c.landRow m).memOk = true := by
  refine memOk_foldl hc (fun c i hc => ?_) _
  dsimp only
  split <;> exact hc

theorem MemForm.waitBegins : MemForm s.waitBegins := h
theorem MemForm.waitEnds : MemForm s.waitEnds := h
theorem MemForm.setCells {core : Nat} {l : List Nat} {cell : Nat → Nat} {v : Nat → BitVec 32} :
    MemForm (s.modCoreAt core fun k => l.foldl (fun k i => k.setCell (cell i) (v i)) k) := h.modCoreAt _ fun c hc => by
  refine memOk_foldl hc (fun c i hc => ?_) _
  exact hc
theorem MemForm.execRowAccept {core : Fin 320} : Keeps (execRowAccept core s) := by
  unfold Machine.execRowAccept
  refine .ite (.next h) ?_
  split
  · exact .next h
  next r _ =>
    have accepted {c : Core} (hc : c.memOk = true) (k : Nat) (f : Ctx → Ctx) : MemForm ((s.setCoreAt core c).modCtxAt k f) :=
      MemForm.modCtxAt (h.setCoreAt core hc)
    have goesOn {t : State} (ht : MemForm t) : MemForm (t.asIssuer (r.issuer core) fun s => s.advance.waitEnds) :=
      ht.asIssuer fun ht => ht.advance.waitEnds
    dsimp only
    refine .next (.ite ?_ (goesOn ?_)) <;> split
    · refine MemForm.logError (accepted ?_ _ _)
      exact h.coreAt core
    · refine accepted ?_ _ _
      exact h.coreAt core
    · refine MemForm.logError (accepted ?_ _ _)
      exact h.coreAt core
    · refine accepted ?_ _ _
      exact h.coreAt core
theorem MemForm.execRowComplete {core : Fin 320} {k : Nat} : Keeps (execRowComplete core k s) := by
  unfold Machine.execRowComplete
  dsimp only
  split
  · exact .next h
  next m _ =>
    refine .ite (.next h) (.next (MemForm.modCtxAt ?_))
    exact h.setCoreAt core (Core.landRow_memOk m (h.coreAt core))
theorem MemForm.execMsetmvl {c : Ctl} {f : FR} : Keeps (execMsetmvl c f s) := h.run fun h => .ite h h.modCtx.advance
theorem MemForm.accCell {o : Operand} {i : Instr} : Checks (s.accCell o i) := .ite trivial h
theorem MemForm.checkTile {fmt slot : Nat} : Checks (s.checkTile fmt slot) := .ite h trivial
theorem MemForm.issueRows {a : Fld} {fmt cell tok slot : Nat} {present : List Nat} : Steps (s.issueRows a fmt cell tok slot present) := by
  refine .ite h ?_
  dsimp only
  have issued (zero : List Nat) (rows : List MRow) : MemForm (s.modCore fun c =>
      { zero.foldl (fun c i => c.setCell (s.cellKey cell i) 0) c with
        waiting := (zero.foldl (fun c i => c.setCell (s.cellKey cell i) 0) c).waiting ++ rows }) := by
    refine h.modCore fun c hc => ?_
    have zeroed : (zero.foldl (fun c i => c.setCell (s.cellKey cell i) 0) c).memOk = true :=
      memOk_foldl hc (fun c i hc => by exact hc) _
    exact zeroed
  exact Steps.ok (.ite (issued _ _).advance (issued _ _))
theorem MemForm.rowHandle {o : Option Operand} : Checks (s.rowHandle o) := by
  unfold State.rowHandle
  split
  · exact trivial
  · exact .ite h (.give (Reads.precheck.of h) fun _ _ _ => trivial)
theorem MemForm.checkCells {o : Operand} {cell : Nat} {is : List Nat} : Checks (s.checkCells o cell is) := by
  unfold State.checkCells
  split
  · exact h
  · exact trivial
theorem MemForm.rowForm {i : Instr} {f : FX} {slot : Nat} {handle : Option Operand} : Steps (rowForm i f slot handle s) := by
  refine .check h.vecStart fun _ => .check h.accCell fun cell => .ite h (.check h.field fun a => .ite h (.check h.checkTile fun _ =>
    .check (h.undo h.rowHandle) fun _ => .step h.popAll fun h1 => h.undo (.check h1.checkParity fun _ => ?_)))
  dsimp only
  split
  · exact h1.issueRows
  · exact .give ((Reads.filterM (fun _ => .bind .lookup fun _ => .pure _) _).of h1) fun _ _ h => h.issueRows
theorem MemForm.execMsacc {c : Ctl} {f : FR} : Keeps (execMsacc c f s) := h.run fun h => .check h.vecStart fun _ =>
  .check h.accCell fun d => .check h.accCell fun a => .check h.field fun sa => .ite h (.step h.popAll fun h1 => h.undo (.ite h1
    (.check h1.checkCells fun _ => .check h1.checkCells fun _ => .check h1.checkParity fun _ =>
      MemForm.advance (MemForm.modCtx (h1.modCore fun k hk => memOk_foldl hk (fun _ _ hk => by exact hk) _)))))
theorem MemForm.execMext {c : Ctl} {f : FR} : Keeps (execMext c f s) := h.run fun h => .check h.vecStart fun _ =>
  .check h.accCell fun _ => .check h.field fun _ => .check h.checkRmSat fun _ => .check h.checkStream fun _ => .ite h
    (.check h.checkCells fun _ => h.mapLanes.advance)
theorem MemForm.execMclrAcc {c : Ctl} {f : FR} : Keeps (execMclrAcc c f s) := h.run fun h => .check h.vecStart fun _ =>
  .check h.accCell fun _ => .ite h h.setCells.advance
omit h in
theorem Core.clearSlot_memOk {c : Core} (b : Nat) (hc : c.memOk = true) : (c.clearSlot b).memOk = true := by
  obtain ⟨stash, tiles⟩ := Core.memOk_iff.1 hc
  exact Core.memOk_iff.2 ⟨stash, wf_filter _ tiles⟩
theorem MemForm.execMclrB {c : Ctl} {f : FR} : Keeps (execMclrB c f s) :=
  h.run fun h => .ite (h.modCore fun _ hc => Core.clearSlot_memOk _ hc).advance h
theorem MemForm.execMzfScan {c : Ctl} {f : FR} : Keeps (execMzfScan c f s) := h.run fun h => .ite h h.modRest.advance
theorem MemForm.execMzfGet {c : Ctl} {f : FR} : Keeps (execMzfGet c f s) := h.run fun h => .check h.checkDest fun _ => h.putS.advance
theorem MemForm.consume {n : Fin 16} : Checks (s.consume n) := by
  unfold State.consume
  split
  · exact trivial
  · exact h
theorem MemForm.execMwait {c : Ctl} {f : FR} : Keeps (execMwait c f s) := h.run fun h => .ite h (.check h.consume fun _ => h.advance)
theorem MemForm.execMtok {c : Ctl} {f : FR} : Keeps (execMtok c f s) := h.run fun h => .check h.checkDest fun _ =>
  .ite h.putP.advance (.check h.consume fun _ => h.putP.advance)
theorem MemForm.execMdrain {c : Ctl} {f : FR} : Keeps (execMdrain c f s) := h.run fun h => .ite h.advance h

/-! ## Loads and stores -/

theorem MemForm.execLd {c : Ctl} {f : FM} : Keeps (execLd c f s) := h.run fun h => .check h.checkDest fun _ =>
  .give h.scalarRead fun _ _ h => h.putS.advance
theorem MemForm.execSt {c : Ctl} {f : FM} : Keeps (execSt c f s) := h.run fun h => .step h.scalarWrite fun h => h.advance
theorem MemForm.vecData {i : Instr} {f : FM} {atomic : Bool} : Checks (s.vecData i f atomic) :=
  .check h.vecStart fun _ => .check h.field fun _ => .ite trivial h
omit h in
theorem checks_forM {α : Type} {r : α → Act Unit} (hr : ∀ a, Checks (r a)) (l : List α) : Checks (l.forM r) := by
  induction l with
  | nil => exact trivial
  | cons a l ih => exact .check (hr a) fun _ => ih

section
variable {f : FM} {d : Fld} {srcs : List (Operand × Fld)} {hot : Nat} {plan : State → Act (List VElem × State)}
  (hplan : ∀ {t}, MemForm t → Gives (plan t))
include hplan

theorem MemForm.vecLoad {i : Instr} : Steps (s.vecLoad i f d srcs hot plan) :=
  .check h.checkOverlap fun _ => .check h.checkStream fun _ => .step h.popAll fun h1 => h.undo
    (.check (checks_forM (fun _ => h1.checkParity) _) fun _ => .give (hplan h1) fun _ _ h2 => .give h2.vecCheck fun _ _ h3 =>
      .give (h3.loadElems h) fun _ _ h4 => h4.putLanes.residency.advance)
theorem MemForm.vecStore : Steps (s.vecStore f d srcs hot plan) :=
  .step h.popAll fun h1 => h.undo (.check h1.checkParity fun _ => .check (checks_forM (fun _ => h1.checkParity) _) fun _ =>
    .give (hplan h1) fun _ _ h2 => .give h2.vecCheck fun _ _ h3 => .step h3.storeElems fun h4 => h4.residency.advance)

end

theorem MemForm.execVld {c : Ctl} {f : FM} : Keeps (execVld c f s) := h.run fun h => .check h.vecData fun _ => h.vecLoad (by exact fun h => h)
theorem MemForm.execVlds {c : Ctl} {f : FM} : Keeps (execVlds c f s) := h.run fun h => .check h.vecData fun _ => h.vecLoad (by exact fun h => h)
theorem MemForm.execVldx {c : Ctl} {f : FM} : Keeps (execVldx c f s) :=
  h.run fun h => .check h.vecData fun _ => .check h.field fun _ => h.vecLoad (by exact fun h => h)
theorem MemForm.execVldd {c : Ctl} {f : FM} : Keeps (execVldd c f s) := h.run fun h => .check h.vecData fun _ => h.vecLoad (by exact fun h => h)
theorem MemForm.execVst {c : Ctl} {f : FM} : Keeps (execVst c f s) := h.run fun h => .check h.vecData fun _ => h.vecStore (by exact fun h => h)
theorem MemForm.execVsts {c : Ctl} {f : FM} : Keeps (execVsts c f s) := h.run fun h => .check h.vecData fun _ => h.vecStore (by exact fun h => h)
theorem MemForm.execVstx {c : Ctl} {f : FM} : Keeps (execVstx c f s) :=
  h.run fun h => .check h.vecData fun _ => .check h.field fun _ => h.vecStore (by exact fun h => h)
theorem MemForm.execVstd {c : Ctl} {f : FM} : Keeps (execVstd c f s) := h.run fun h => .check h.vecData fun _ => h.vecStore (by exact fun h => h)
theorem MemForm.typedCheck {o : Operand} {w : Nat} : Checks (s.typedCheck o w) :=
  .ite (.give (Reads.precheck.of h) fun _ _ _ => trivial) h
theorem MemForm.execVldh {c : Ctl} {f : FM} : Keeps (execVldh c f s) := h.run fun h => .check h.vecData fun _ =>
  .check (h.undo h.typedCheck) fun _ => h.vecLoad fun h => h.handleElems
theorem MemForm.execVsth {c : Ctl} {f : FM} : Keeps (execVsth c f s) := h.run fun h => .check h.vecData fun _ =>
  .check (h.undo h.typedCheck) fun _ => h.vecStore fun h => h.handleElems

/-! ## Prefetches and operations on lines -/

theorem MemForm.tlbWalk {unit : Nat} {asid : Fin 16} {va : Nat} : MemForm (s.tlbWalk unit asid va).2 := memForm_closed.tlbWalk h ..
theorem MemForm.touchL2 {pa : Nat} : MemForm (s.touchL2 pa) := memForm_closed.touchL2 h pa
theorem MemForm.fillSector {core line : Nat} {j : Fin 4} {t : State} (done : s.fillSector core line j = .done t) : MemForm t := by
  have filled := memForm_closed.fillSector h core line j
  rwa [done] at filled
theorem MemForm.prefetch {l1 nt : Bool} {p : Word} : MemForm (s.prefetch l1 nt p) := by
  unfold State.prefetch
  split
  · next va _ =>
    have walked := h.tlbWalk (unit := s.cur.core) (asid := s.asid) (va := va)
    split
    · next eq =>
      rw [eq] at walked
      exact .ite walked (.ite (memForm_closed.l1Fill walked ..) walked.touchL2)
    · exact h
  · refine .ite h ?_
    split
    · next done => exact h.fillSector done
    · exact h
  · exact h
theorem MemForm.execPrf {c : Ctl} {f : FM} : Keeps (execPrf c f s) := h.run fun h => .check h.scope fun _ =>
  (h.foldl (fun _ ht => ht.prefetch) _).advance
theorem MemForm.ownStash {p : Word} {z : Nat} : Checks (s.ownStash p z) := by
  unfold State.ownStash
  split
  · exact h
  · refine .ite h ?_
    split
    · exact trivial
    · exact h
    · exact h
omit h in
theorem Core.unbind_memOk {c : Core} (line : Nat) (hc : c.memOk = true) : (c.unbind line).memOk = true := by
  obtain ⟨stash, tiles⟩ := Core.memOk_iff.1 hc
  exact Core.memOk_iff.2 ⟨wf_filter _ stash, tiles⟩
theorem MemForm.dropLine {core line : Nat} : Steps (s.dropLine core line) :=
  Leaves.foldlM (fun _ _ ht => memForm_closed.writeBack ht ..) _ h
theorem MemForm.execCmoWb {c : Ctl} {f : FM} : Keeps (execCmoWb c f s) := h.run fun h => .check h.scope fun _ =>
  .check h.ownStash fun off => .ite h (.step (h.undo h.dropLine) fun h => by
    refine Steps.ok ?_
    split
    · exact h.modRest.advance
    · exact h.advance)
theorem MemForm.execCmoBind {c : Ctl} {f : FM} : Keeps (execCmoBind c f s) := h.run fun h => .check h.scope fun _ =>
  .check h.ownStash fun off => .ite h (.ite h (.step (h.undo h.dropLine) fun h => MemForm.advance (h.modCore fun _ hc => by
    split
    · exact Core.unbind_memOk _ hc
    · exact hc)))
theorem MemForm.execCmoInv {c : Ctl} {f : FM} : Keeps (execCmoInv c f s) := h.run fun h => .check h.scope fun _ => .ite h (by
  dsimp only
  split
  · exact h
  · refine .ite h (.give h.scalarLoc fun l t h => ?_)
    cases l with
    | hbm _ _ _ => exact h.modRest.advance
    | _ => exact h.advance)
theorem MemForm.fillRange {p : Word} {bs : List Nat} : Steps (s.fillRange p bs) := by
  induction bs generalizing s with
  | nil => exact h
  | cons b bs ih =>
    unfold State.fillRange
    split
    · next done => exact ih (h.fillSector done)
    · exact ih h.postResidency
    · exact h
    · exact h
    · exact h
theorem MemForm.execStfl {c : Ctl} {f : FM} : Keeps (execStfl c f s) := h.run fun h => .check h.checkDest fun _ =>
  .check h.ownStash fun _ => .ite h (.step h.fillRange fun h => h.putP.advance)

/-! ## Atomics and barriers -/

theorem MemForm.publish {k : Nat} {sc : Scope} : Steps (s.publish k sc) := memForm_closed.publish h ..
theorem MemForm.refresh {k : Nat} {sc : Scope} : Steps (s.refresh k sc) := memForm_closed.refresh h ..
omit h in
/-- What follows a step that is taken only under a condition. -/
theorem Leaves.stepIf {β : Type} {P : β → Prop} {b : Prop} [Decidable b] {t : State} {r : Act State} {f : State → Act β} (ht : MemForm t)
    (hr : Steps r) (hf : ∀ {t}, MemForm t → Leaves MemForm P (f t)) : Leaves MemForm P (if b then r >>= f else Except.ok t >>= f) :=
  .ite (.step hr hf) (hf ht)
theorem MemForm.scalarAmo {p : Word} {z : Nat} {ph : Bool} {sc : Scope} {f : Nat → Option Nat} : Gives (s.scalarAmo p z ph sc f) :=
  h.undo (.give h.scalarLoc fun _ _ h1 => .stepIf h1 h1.publish fun h2 => .give2 h2.ctxAtomic fun _ _ _ h3 => .ite h
    (.stepIf h3 h3.refresh fun h4 => h4))
theorem MemForm.execAmo {c : Ctl} {op : AmoOp} {f : FM} : Keeps (execAmo c op f s) := h.run fun h => .check h.checkDest fun _ =>
  .check h.scope fun _ => .give h.scalarAmo fun _ _ h => h.putS.advance
theorem MemForm.execCas {c : Ctl} {f : FM} : Keeps (execCas c f s) := h.run fun h => .check h.checkDest fun _ =>
  .check h.scope fun _ => .give h.scalarAmo fun _ _ h => h.putS.advance
theorem MemForm.execVamo {c : Ctl} {op : AmoOp} {f : FM} : Keeps (execVamo c op f s) := h.run fun h => .check h.vecData fun _ =>
  .check h.field fun _ => .check h.scope fun _ => .step h.popAll fun h1 => h.undo (.check h1.checkParity fun _ =>
    .check h1.checkParity fun _ => .give h1.vecCheck fun _ _ h2 => .stepIf h2 h2.publish fun h3 => .step (h3.atomicElems h) fun h4 =>
      .stepIf h4 h4.refresh fun h5 => h5.residency.advance)
theorem MemForm.scopeOperand {o : Operand} {i : Instr} : Checks (s.scopeOperand o i) := by
  unfold State.scopeOperand
  split
  · exact h
  · exact h.scope
  · exact h
theorem MemForm.execPhase {c : Ctl} {f : FR} : Keeps (execPhase c f s) := h.run fun h => .check h.scopeOperand fun _ =>
  .step (h.undo h.boundary) fun h => h.advance
theorem MemForm.barLoc {p : Word} : Gives (s.barLoc p) := by
  unfold State.barLoc
  split
  · exact h
  · exact h.scalarLoc
theorem MemForm.barRead {p : Word} : Gives (s.barRead p) :=
  .give h.barLoc fun _ _ h1 => .give2 h1.ctxAtomic fun _ _ _ h2 => .ite h h2
theorem MemForm.noteLoc {w : Writer} {l : Loc} {bytes : List Byte} {bad : Bool} : MemForm (s.noteLoc w l bytes bad) :=
  memForm_closed.noteLoc h ..
theorem MemForm.execBarinit {c : Ctl} {f : FR} : Keeps (execBarinit c f s) := h.run fun h => .ite h (h.undo
  (.give h.barLoc fun _ _ h1 => .step h1.drainLoc fun h2 => .step h2.noteLoc.homeWrite fun h3 => h3.advance))
theorem MemForm.execBararr {c : Ctl} {f : FR} : Keeps (execBararr c f s) := h.run fun h => .check h.checkDest fun _ =>
  .check h.scope fun _ => .ite h (h.undo (.give h.barLoc fun _ _ h1 => .step h1.publish fun h2 =>
    .give2 h2.ctxAtomic fun _ _ _ h3 => .ite h h3.putS.advance))
theorem MemForm.passBarrier {sc : Scope} : Steps (s.passBarrier sc) := .step h.refresh fun h => h.modCore fun _ hc => hc
theorem MemForm.execBarwait {c : Ctl} {f : FR} : Keeps (execBarwait c f s) := h.run fun h => .check h.scope fun _ => h.undo
  (.give h.barRead fun _ _ h1 => .ite h1 (.step h1.passBarrier fun h2 => h2.advance))
theorem MemForm.execBartest {c : Ctl} {f : FR} : Keeps (execBartest c f s) := h.run fun h => .check h.checkDest fun _ =>
  .check h.scope fun _ => h.undo (.give h.barRead fun _ _ h1 => .ite h1.putP.advance (.step h1.passBarrier fun h2 => h2.putP.advance))

/-! ## Events of memory -/

theorem MemForm.execStorePerform {k : Nat} : Keeps (execStorePerform k s) := by
  unfold Machine.execStorePerform
  split
  · exact .next h
  · refine .ite (.next (memForm_closed.performStore ?_ _)) (.next h)
    exact h
theorem MemForm.execStashFill {core : Fin 320} {line : Nat} {sector : Fin 4} : Keeps (execStashFill core line sector s) := by
  unfold Machine.execStashFill
  split
  · next done => exact .next (h.fillSector done)
  · split
    · exact .next h.postResidency
    · exact .next h
  · exact .next h
theorem MemForm.execStashWriteBack {core : Fin 320} {line : Nat} {sector : Fin 4} : Keeps (execStashWriteBack core line sector s) := by
  refine .ite (.next h) ?_
  have written := memForm_closed.writeBack h core line sector false false (some (.stash core))
  split <;> rename_i eq <;> rw [eq] at written
  · exact .next written
  · exact .next written
  · exact .next h
theorem MemForm.backInvalidate {pa : Nat} {name : Option (Fin 16 × Nat)} : MemForm (s.backInvalidate pa name).state :=
  memForm_closed.backInvalidate h ..

end

end Sys2Proof.Machine
end

section
/-! SUPPORT. The canonical form through ports and ownership, cards, trains and gathers, and the control forms. -/

namespace Sys2Proof.Machine

section
variable {s : State} (h : MemForm s)
include h

/-! ## Ownership and ports (R352 to R358) -/

omit h in
/-- A state that an action that may fail answers is in the form. -/
def Offers (o : Option State) : Prop := ∀ t, o = some t → MemForm t
omit h in
theorem Offers.some {t : State} (ht : MemForm t) : Offers (some t) := fun _ is => Option.some.inj is ▸ ht
omit h in
theorem Offers.none : Offers none := fun _ is => nomatch is
omit h in
theorem Offers.ite {c : Prop} [Decidable c] {x y : Option State} (hx : Offers x) (hy : Offers y) : Offers (if c then x else y) := by
  split
  · exact hx
  · exact hy

theorem MemForm.refuse {m : Fin 4} {off status : Nat} {v : Word} : MemForm (s.refuse m off v status) := h
theorem MemForm.anyWrite {m : Fin 4} {off : Nat} {v : Word} {f : State → Option State} (hf : Offers (f s)) :
    MemForm (s.anyWrite m off v f) := by
  unfold State.anyWrite
  split
  · exact h.refuse
  next t written =>
    have kept := hf t written
    exact kept
theorem MemForm.ownerWrite {m : Fin 4} {off : Nat} {v : Word} {f : State → Option State} (hf : Offers (f s)) :
    MemForm (s.ownerWrite m off v f) := .ite (h.anyWrite hf) h.refuse
theorem MemForm.ownCommand {m : Fin 4} {act : Nat} {v : Word} : MemForm (s.ownCommand m act v) := by
  refine h.anyWrite fun t done => ?_
  obtain ⟨o, _, rfl⟩ := Option.map_eq_some_iff.1 done
  exact h
theorem MemForm.execLeaseExpiry {ms : Nat} : Keeps (execLeaseExpiry ms s) := .next (by exact h)
theorem MemForm.execMlogcons {m : Fin 4} {v : Word} : Keeps (execMlogcons m v s) := by
  refine .next (h.anyWrite (.ite (.some ?_) .none))
  exact h

theorem MemForm.setPort {p : Nat} {x : Port} : MemForm (s.setPort p x) := h
theorem MemForm.pumpPort {p : Nat} {ack : Bool} : MemForm (s.pumpPort p ack) := h
theorem MemForm.carry {src dest seq plane : Nat} : MemForm (s.carry src dest seq plane) := h
theorem MemForm.resendTrains {lost : Nat → Bool} : MemForm (s.resendTrains lost) := by
  refine h.foldl (fun x ht => ?_) _
  dsimp only
  split
  · split
    · exact ht
    · exact ht
  · exact ht
theorem MemForm.portDown {p : Nat} : MemForm (s.portDown p) := MemForm.resendTrains h.setPort
theorem MemForm.freeWithheld : MemForm s.freeWithheld := h.foldl (fun _ ht => .ite ht ht.setPort.pumpPort) _
theorem MemForm.execFlitReceive {p : Fin 48} {flit : BitVec 2048} : Keeps (execFlitReceive p flit s) := by
  unfold Machine.execFlitReceive
  exact .ite (.next h) (.ite (.next h) (.next h))
theorem MemForm.execLinkRetryTimeout {p : Fin 48} : Keeps (execLinkRetryTimeout p s) := .ite (.next h) (.ite (.next h.portDown) (.next h))
theorem MemForm.execPortctl {m : Fin 4} {v : Word} : Keeps (execPortctl m v s) :=
  .next (h.ownerWrite (.some (MemForm.resendTrains (h.foldl (fun _ ht => ht.setPort) _))))

/-! ## `scred` (R244) -/

theorem MemForm.send {t : Tenancy} {src dest op zlog : Nat} {asid : Fin 16} {write : Bool} {elems : List Elem} {owner : Sender} :
    Offers (s.send t src dest asid write op zlog elems owner) := by
  unfold State.send
  dsimp only
  split
  · exact .none
  · exact .ite .none (.some (MemForm.carry (by exact h)))
theorem MemForm.readEntries {p : Word} {ahi n k : Nat} : Gives (s.readEntries p ahi n k) := by
  induction n generalizing s k with
  | zero => exact h
  | succ n ih => exact .give h.scalarVal fun _ _ h => .give h.scalarVal fun _ _ h => .give (ih h) fun _ _ h => h
theorem MemForm.checkEntries {zlog : Nat} {es : List (Nat × Nat × Nat)} {val : Option Word} : Checks (s.checkEntries zlog es val) := by
  unfold State.checkEntries
  split
  · exact h
  · exact trivial
theorem MemForm.retrySends : MemForm s.retrySends := h
omit h in
theorem Offers.foldl {α : Type} {f : Option State → α → Option State} (hf : ∀ o a, Offers o → Offers (f o a)) {o : Option State}
    (ho : Offers o) (l : List α) : Offers (l.foldl f o) := foldl_closed hf l ho
theorem MemForm.execScred {c : Ctl} {f : FE} : Keeps (execScred c f s) := h.run fun h => by
  refine .ite (.ite h.retrySends h.modCtx.advance) (.ite h (.give (h.undo h.readEntries) fun es t h1 => .check h.checkEntries fun _ => ?_))
  have sent : Offers ((trainsOf (scredZ ((s.feRegs f).getD 1 0)) es).foldl (fun (r : Option State) t =>
      r.bind fun s' => s'.send s'.ctx.ten s'.cur.core t.1 s'.asid false (scredOp ((s.feRegs f).getD 1 0)) (scredZ ((s.feRegs f).getD 1 0))
        t.2 (.issuer s'.key s.issuerSlot)) (some t)) := by
    refine .foldl (fun o a ho u sent => ?_) (.some h1) _
    obtain ⟨v, from_, sent⟩ := Option.bind_eq_some_iff.1 sent
    exact (ho v from_).send u sent
  dsimp only
  split
  · exact h.keepWait
  next u all =>
    have kept : MemForm u := sent u all
    exact .ite kept.advance kept.modCtx

/-! ## Cards (R229 to R238) -/

theorem MemForm.checkRanges {rs : List Range} : Checks (s.checkRanges rs) :=
  checks_forM (fun r => by
    split
    · exact trivial
    · exact .check h.place fun _ => .check h.place fun _ => trivial) rs
theorem MemForm.checkBarrier {p : Word} : Checks (s.checkBarrier p) := by
  refine .ite trivial ?_
  split
  · exact h
  · exact .check h.place fun _ => trivial
theorem MemForm.freeScores {core id : Nat} {write : Bool} : MemForm (s.freeScores core id write) := h.modCoreAt core fun _ hc => hc
theorem MemForm.execCard {c : Ctl} {k : CardKind} {f : FE} : Keeps (execCard c k f s) := h.run fun h => by
  refine .check h.scope fun sc => .check h.checkBarrier fun _ => .check h.checkBarrier fun _ => ?_
  split
  · exact h
  · refine .check h.checkRanges fun _ => .ite h (.ite h ?_)
    refine MemForm.advance (MemForm.modCtx (MemForm.modRest ?_))
    exact h
theorem MemForm.execCardq {c : Ctl} {f : FR} : Keeps (execCardq c f s) := h.run fun h => .check h.checkDest fun _ => h.putS.advance

end

/-- An engine's action keeps the form. -/
def EngForm {α : Type} (x : Eng α) : Prop := EngLeaves MemForm x

section
variable {α β : Type}

theorem EngForm.pure (a : α) : EngForm (pure a : Eng α) := EngLeaves.pure a
theorem EngForm.snag {x : Snag} : EngForm (snag x : Eng α) := EngLeaves.snag x
theorem EngForm.bind {x : Eng α} {f : α → Eng β} (hx : EngForm x) (hf : ∀ a, EngForm (f a)) : EngForm (x >>= f) := EngLeaves.bind hx hf
theorem EngForm.ite {c : Prop} [Decidable c] {x y : Eng α} (hx : EngForm x) (hy : EngForm y) : EngForm (if c then x else y) := by
  split
  · exact hx
  · exact hy
theorem EngForm.modify {f : State → State} (hf : ∀ {s}, MemForm s → MemForm (f s)) : EngForm (modify f : Eng PUnit) :=
  EngLeaves.modify fun _ h => hf h
theorem EngForm.get : EngForm (get : Eng State) := EngLeaves.get
theorem EngForm.of {x : Eng α} (hx : EngForm x) {s t : State} {a : α} (h : MemForm s) (done : x s = .ok (a, t)) : MemForm t :=
  hx.of_ok s a t h done

end

theorem EngForm.read {a : Agent} {p : Word} {n : Nat} : EngForm (engRead a p n) := memForm_closed.engRead ..
theorem EngForm.write {a : Agent} {p : Word} {d : Data} {pub : Bool} : EngForm (engWrite a p d pub) := memForm_closed.engWrite ..
theorem EngForm.val {a : Agent} {p : Word} {z : Nat} : EngForm (engVal a p z) := memForm_closed.engVal ..
theorem EngForm.loc {a : Agent} {p : Word} {z al : Nat} {write : Bool} : EngForm (engLoc a p z al write) := memForm_closed.engLoc ..
theorem EngForm.apply {a : Agent} {l : Loc} {op zlog v : Nat} {bad : Bool} : EngForm (engApply a l op zlog v bad) := memForm_closed.engApply ..
theorem EngForm.parts {a : Agent} {al : Nat} {xs : List (Word × Nat)} : EngForm (engParts a al xs) := memForm_closed.engParts ..

theorem EngForm.cardElems {c : Card} {p : Word} {z : Nat} : EngForm (cardElems c p z) := by
  refine ⟨fun s a t h done => ?_⟩
  unfold Machine.cardElems at done
  cases place : cardPlace c s p z <;> rw [place] at done <;> cases done
  exact h
/-- What completes after a step that may fail, after what the step gives. -/
theorem bind_ok_inv {ε α β : Type} {r : Except ε α} {f : α → Except ε β} {b : β} (done : (r >>= f) = .ok b) :
    ∃ a, r = .ok a ∧ f a = .ok b := by
  cases r with
  | error _ => exact nomatch done
  | ok a => exact ⟨a, rfl, done⟩
theorem EngForm.cardSend {c : Card} {dev op zlog : Nat} {p : Word} {write : Bool} {d : Data} :
    EngForm (cardSend c dev p write op zlog d) := by
  refine ⟨fun s a t h done => ?_⟩
  unfold Machine.cardSend at done
  dsimp only at done
  obtain ⟨es, _, done⟩ := bind_ok_inv done
  split at done
  next u sent =>
    cases done
    exact h.send _ sent
  next => exact nomatch done
theorem EngForm.cardCombine {c : Card} {p : Word} {op zlog : Nat} {d : Data} : EngForm (cardCombine c p op zlog d) := by
  unfold Machine.cardCombine
  dsimp only
  split
  · exact .pure _
  · exact .bind (memForm_closed.engPinned _ _) fun _ => .bind .apply fun _ => .pure _
theorem EngForm.tokenPtr {c : Card} {t : Nat} : EngForm (tokenPtr c t) := .bind .val fun _ => .ite .snag (.pure _)
theorem EngForm.tileRead {c : Card} : EngForm (tileRead c) := by
  refine .bind .get fun s => .ite (.bind .read fun d => .bind (.modify fun h => h.modCoreAt _ fun k hk => ?_) fun _ => .pure _) .snag
  refine memOk_foldl hk (fun k b hk => ?_) _
  exact hk
theorem EngForm.deltaOf {c : Card} {row : Nat} : EngForm (deltaOf c row) :=
  .ite (.bind .loc fun _ => .bind (memForm_closed.engBytes ..) fun _ => .bind .get fun _ => .pure _) (.pure _)
theorem EngForm.cardDest {c : Card} {p : Word} {n : Nat} : EngForm (cardDest c p n) :=
  .ite (.pure []) (.ite .parts (.ite (.bind .cardElems fun _ => .parts) .parts))
theorem EngForm.cardLoaded {c : Card} {src : Word} {n : Nat} {p : Word} {d : Data} : EngForm (cardLoaded c src n p d) :=
  .bind .cardDest fun _ => .bind .get fun _ => .pure _
theorem EngForm.cardRead {c : Card} : EngForm (cardRead c) := by
  unfold Machine.cardRead
  dsimp only
  split
  · exact .bind .read fun _ => .cardLoaded
  · exact .bind .read fun _ => .cardLoaded
  · exact .cardLoaded
  · exact .bind .tileRead fun _ => .cardLoaded
  · exact .bind .cardElems fun _ => .bind .read fun _ => .cardLoaded
  · exact .bind .read fun _ => .cardLoaded
  · exact .bind .deltaOf fun _ => .bind .cardElems fun _ => .bind .read fun _ => .cardLoaded
  · exact .bind .tokenPtr fun _ => .bind .read fun _ => .cardLoaded
  · exact .bind .val fun _ => .ite (.pure _) (.bind .tokenPtr fun _ => .ite (.pure _) (.bind .tokenPtr fun _ => .bind .read fun _ =>
      .cardLoaded))
/-- The data of a TILE card is written into the tiles byte by byte. -/
theorem Core.tileWrite_memOk {k : Core} (r : CardRegs) (d : Data) (hk : k.memOk = true) : (k.tileWrite r d).memOk = true := by
  obtain ⟨stash, tiles⟩ := Core.memOk_iff.1 hk
  unfold Core.tileWrite
  refine memOk_foldl ?_ (fun k b hk => ?_) _
  · exact Core.memOk_iff.2 ⟨stash, wf_wrBytes _ _ tiles⟩
  · exact hk
theorem EngForm.cardWrite {c : Card} {p : Word} {d : Data} : EngForm (cardWrite c p d) := by
  unfold Machine.cardWrite
  dsimp only
  split
  · exact .bind (.modify fun h => h.modCoreAt _ fun k hk => Core.tileWrite_memOk _ _ hk) fun _ => .pure _
  · exact .cardCombine
  · exact .bind .cardSend fun _ => .pure _
  · exact .bind .cardSend fun _ => .pure _
  · exact .bind (memForm_closed.engWriteParts ..) fun _ => .pure _
theorem EngForm.cardStep {c : Card} : EngForm (cardStep c) := by
  unfold Machine.cardStep
  split
  · exact .cardRead
  · exact .cardWrite

section
variable {s : State} (h : MemForm s)
include h

theorem MemForm.modCard {id : Nat} {f : Card → Card} : MemForm (s.modCard id f) := h
theorem MemForm.endIssuer {ctx : Nat} {ten : Tenancy} : MemForm (s.endIssuer ctx ten) := .ite h.endCtx h.finishSaved
theorem MemForm.freeTile {c : Card} : MemForm (s.freeTile c) := .ite (h.modCoreAt _ fun k hk => by
  refine memOk_foldl hk (fun k b hk => ?_) _
  exact hk) h
theorem MemForm.postCard {c : Card} {r : TrapRec} : MemForm (s.postCard c r) := by
  unfold State.postCard
  split
  · exact h
  next written => exact .ite (h.putRecord written).modCard (h.putRecord written).freeTile.modCard.endIssuer
theorem MemForm.cardSnag {c : Card} {x : Snag} : MemForm (s.cardSnag c x) := by
  unfold State.cardSnag
  split
  · exact h.postResidency.modCard
  · exact h
  · exact h.logError.postCard
  · exact .ite h.postCard h.postCard
theorem MemForm.arrivalSnag {c : Card} {n : Fin 8} {x : Snag} : MemForm (s.arrivalSnag c n x) := by
  refine .ite h.cardSnag (.ite h.modCard.cardSnag ?_)
  split
  · exact h
  · exact h
theorem MemForm.declineCard {c : Card} {r : TrapRec} : MemForm (s.declineCard c r) := .ite h.modCard h.modCard.postCard
theorem MemForm.runCard {c : Card} : MemForm (s.runCard c) := by
  unfold State.runCard
  split
  next done => exact (EngForm.cardStep.of h done).modCard
  next => exact h.cardSnag
theorem MemForm.rowTurn {id : Nat} : MemForm (s.rowTurn id) := by
  unfold State.rowTurn
  split
  · exact .ite h.runCard h
  · exact h
theorem MemForm.execCardDispatch {q : Fin 4} : Keeps (execCardDispatch q s) := by
  refine .ite (.next h) ?_
  split
  · exact .next h.modCard
  · exact .next h
theorem MemForm.engArrive {a : Agent} {p : Word} {n : Nat} {u : Unit} {t : State} (done : engArrive a p n s = .ok (u, t)) : MemForm t :=
  EngForm.of (memForm_closed.engArrive ..) h done
theorem MemForm.execCardReleasedArrival {id : Nat} : Keeps (execCardReleasedArrival id s) := by
  unfold Machine.execCardReleasedArrival
  split
  · exact .next h
  · refine .ite (.next h) ?_
    split
    next done => exact .next (MemForm.freeScores (h.engArrive done).modCard)
    next => exact .next (.ite h.arrivalSnag h)
theorem MemForm.execCardVisibleArrival {id : Nat} : Keeps (execCardVisibleArrival id s) := by
  unfold Machine.execCardVisibleArrival
  split
  · exact .next h
  next c _ =>
    refine .ite (.next h) ?_
    split
    next done =>
      have kept := (h.engArrive done).freeScores (core := c.agent.core) (id := id) (write := true)
      exact .next (by exact kept)
    next => exact .next h.arrivalSnag

/-! ## Trains (R245) -/

theorem MemForm.trainDrop {t : Train} {e : Elem} {pa : Nat} : MemForm (s.trainDrop t e pa) := by
  unfold State.trainDrop
  have dropped : MemForm (match (s.trainAgent t).2 with
      | some (k, core) => (match s.drainOver k .hbm pa (2 ^ t.zlog) with
        | .ok s => s
        | .error _ => s).modCoreAt core fun c => c.dropL1 pa
      | none => s) := by
    split
    next k core _ =>
      have drained := memForm_closed.drainOver h k .hbm pa (2 ^ t.zlog)
      refine MemForm.modCoreAt ?_ core fun _ hc => hc
      split <;> rename_i eq
      · exact drained.of_ok eq
      · exact h
    next => exact h
  exact .ite (memForm_closed.noteTorn dropped ..) dropped
theorem MemForm.applyElem {t : Train} {e : Elem} {pa : Nat} : MemForm (s.applyElem t e pa) :=
  .ite (memForm_closed.writeHbm h.trainDrop ..) (.ite h.trainDrop (memForm_closed.publishBytes (memForm_closed.writeHbm h.trainDrop ..) ..))
theorem MemForm.sendAck {t : Train} : MemForm (s.sendAck t) := by
  unfold State.sendAck
  split
  · exact h
  · exact h.setPort.pumpPort
theorem MemForm.ackTrain {t : Train} : MemForm (s.ackTrain t) := by
  unfold State.ackTrain
  dsimp only
  split
  · exact .ite h (MemForm.sendAck (by exact h))
  · exact .ite h h.sendAck
theorem MemForm.raiseSend {k slot : Nat} {t : Trap} : MemForm (s.raiseSend k slot t) := h.asIssuer fun ht => ht.takeTrap
theorem MemForm.markFaulted {y : Sent} : MemForm (s.markFaulted y) := h
theorem MemForm.trainFault {t : Train} {e : Elem} {c : Cause} {addr : Nat} : MemForm (s.trainFault t e c addr) := by
  unfold State.trainFault
  dsimp only
  split
  · exact .ite h.logError h
  · split
    · have raised {k slot : Nat} {y : Sent} {x : Trap} : MemForm ((s.markFaulted y).raiseSend k slot x) := h.markFaulted.raiseSend
      exact .ite h.ackTrain (.ite h.markFaulted (.ite raised.ackTrain raised))
    · split
      · exact h
      · exact .ite h (.ite h.cardSnag.ackTrain h.cardSnag)
/-- The elements of a train that are found are applied in order. -/
theorem MemForm.applyAll {t : Train} {ds : List (Elem × Dest)} : MemForm (ds.foldl (fun s d => match d.2 with
    | .at_ pa => s.applyElem t d.1 pa
    | _ => s) s) := h.foldl (fun d ht => by
  split
  · exact ht.applyElem
  · exact ht) ds
theorem MemForm.execTrainReceive {t : Train} : Keeps (execTrainReceive t s) := by
  refine .ite (.next h) ?_
  split
  · exact .next h.ackTrain
  · dsimp only
    split
    · exact .next h.trainFault
    · exact .next h.postResidency
    · refine .ite (.next h) (.ite (.next (MemForm.ackTrain h.applyAll)) (.next ?_))
      have applied := h.applyAll (t := t) (ds := t.elems.map fun e => (e, s.destOf t e))
      exact applied
theorem MemForm.unparkTrain {p : Parked} : MemForm (s.unparkTrain p) := by
  refine .ite h ?_
  dsimp only
  generalize p.rest.map (fun e => (e, s.destOf p.train e)) = ds
  have applied : MemForm (ds.foldl (fun s d => match d.2 with
      | .at_ pa => s.applyElem p.train d.1 pa
      | .absent => s.postResidency p.train.asid d.1.va (BitVec.allOnes 32)
      | _ => s) s) := h.foldl (fun d ht => by
    split
    · exact ht.applyElem
    · exact ht.postResidency
    · exact ht) ds
  split
  · exact .ite applied.trainFault (by exact applied.trainFault)
  · exact .ite applied.ackTrain (by exact applied)
theorem MemForm.unpark : MemForm s.unpark :=
  MemForm.freeWithheld (MemForm.foldl (s := { s with parked := [] }) h (fun _ ht => ht.unparkTrain) _)

/-! ## Gathers and bins (R243, R247) -/

theorem MemForm.checkDestWindow {p : Word} : Checks (s.checkDestWindow p) := by
  unfold State.checkDestWindow
  split
  · exact h
  · exact .ite trivial h
theorem MemForm.execGath {c : Ctl} {f : FE} : Keeps (execGath c f s) := h.run fun h => by
  refine .check h.scope fun sc => .check h.checkBarrier fun _ => ?_
  split
  · exact h
  · refine .check h.checkDestWindow fun _ => .check h.checkRanges fun _ => .ite h ?_
    refine MemForm.advance (MemForm.modRest ?_)
    exact h
theorem MemForm.needWindow {p : Word} {ws : List Nat} : Checks (s.needWindow p ws) := by
  unfold State.needWindow
  split
  · exact h
  · exact .ite trivial h
theorem MemForm.binSet {p : Word} {i : Instr} : Gives (s.binSet p i) := by
  unfold State.binSet
  split
  · exact h
  · exact .ite (.give h.scalarRead fun _ _ h1 => .ite h1 h) h
theorem MemForm.engDo {α : Type} {x : Eng α} (hx : EngForm x) : Gives (s.engDo x) := by
  unfold State.engDo
  split
  next done => exact hx.of h done
  next => exact h.waitPage
  next => exact h
  next => exact h
  next => exact h

omit h in
theorem EngForm.binApply {a : Agent} {b : BinSet} {va v : Nat} {bad : Bool} : EngForm (binApply a b va v bad) := .bind .loc fun _ => .apply
omit h in
theorem EngForm.binPlace {a : Agent} {b : BinSet} {va v dst : Nat} : EngForm (binPlace a b va v dst) := by
  unfold Machine.binPlace
  split
  · exact .binApply
  · exact .bind .val fun _ => .ite .binApply (.bind .write fun _ => .write)
omit h in
theorem EngForm.gatherElem {g : Gather} {j : Nat} : EngForm (gatherElem g j) :=
  .bind .val fun _ => .bind .loc fun _ => .bind .read fun _ => .bind .write fun _ => .modify fun h => h.count
omit h in
theorem EngForm.forM {α : Type} {f : α → Eng PUnit} (hf : ∀ a, EngForm (f a)) (l : List α) : EngForm (l.forM f) := EngLeaves.forM hf l
omit h in
theorem EngForm.binReplay {a : Agent} {b : BinSet} {g : Nat} : EngForm (binReplay a b g) :=
  .bind .val fun _ => .ite (.pure ()) (.bind .read fun _ => .bind .write fun _ => .bind
    (.forM (fun _ => .bind .read fun _ => .bind .val fun _ => .ite (.bind .loc fun _ => .apply) .binApply) _) fun _ =>
    .bind .read fun _ => .bind .write fun _ => .write)
omit h in
theorem EngForm.act {g : Gather} : EngForm g.act := by
  unfold Gather.act
  split
  · exact .gatherElem
  · exact .binReplay

theorem MemForm.execBinap {c : Ctl} {f : FE} : Keeps (execBinap c f s) := h.run fun h => h.undo (.give h.binSet fun _ _ h1 =>
  .ite h (.check h.needWindow fun _ => .give h1.scalarVal fun _ _ h2 => .give h2.readEntries fun _ _ h3 => .check h.checkEntries fun _ =>
    .give (h3.engDo (.forM (fun _ => .binPlace) _)) fun _ _ h4 => h4.advance))
theorem MemForm.execBinpl {c : Ctl} {f : FE} : Keeps (execBinpl c f s) := h.run fun h => .ite (.ite h.retrySends h.modCtx.advance)
  (.check h.scope fun _ => .check h.checkBarrier fun _ => h.undo (.give h.binSet fun b t h1 => .ite h (by
    refine MemForm.modCtx ?_
    exact h1)))
theorem MemForm.modGather {id : Nat} {f : Gather → Gather} : MemForm (s.modGather id f) := h
theorem MemForm.postGather {g : Gather} {r : TrapRec} : MemForm (s.postGather g r) := by
  unfold State.postGather
  split
  · exact h
  next written => exact (h.putRecord written).modGather.endIssuer
theorem MemForm.gatherSnag {g : Gather} {x : Snag} : MemForm (s.gatherSnag g x) := by
  unfold State.gatherSnag
  split
  · exact h.postResidency
  · exact h
  · exact .ite h.modGather.raiseSend (.ite h.modGather h.postGather)
  · exact h.logError.postGather
theorem MemForm.gatherRun {g : Gather} : MemForm (s.gatherRun g) := by
  refine .ite h.modGather ?_
  split
  next done => exact (EngForm.act.of h done).modGather
  next => exact h.modGather.gatherSnag
theorem MemForm.endGather {g : Gather} : MemForm (s.endGather g) := by
  unfold State.endGather
  dsimp only
  split
  next done =>
    have kept := ((h.engArrive done).freeScores (core := g.agent.core) (id := g.id) (write := false)).freeScores
      (core := g.agent.core) (id := g.id) (write := true)
    exact kept
  next => exact MemForm.gatherSnag (.ite h.modGather h)
theorem MemForm.gatherTurn {g : Gather} : MemForm (s.gatherTurn g) := by
  refine .ite h ?_
  split
  · exact h.gatherRun
  · split
    · exact h
    · exact h.gatherRun
theorem MemForm.execGatherVisibleArrival {id : Nat} : Keeps (execGatherVisibleArrival id s) := by
  unfold Machine.execGatherVisibleArrival
  split
  · exact .next h
  · exact .next (.ite h.endGather h)

/-! ## Control -/

theorem MemForm.target {t : Word} : Checks (s.target t) := by
  unfold State.target
  split
  · exact h
  · exact trivial
theorem MemForm.execNop {c : Ctl} {f : FR} : Keeps (execNop c f s) := h.run fun h => h.advance
theorem MemForm.execBr {c : Ctl} {f : FB} : Keeps (execBr c f s) := h.run fun h => .check h.target fun _ => h.goto
theorem MemForm.execCall {c : Ctl} {f : FB} : Keeps (execCall c f s) :=
  h.run fun h => .check h.checkDest fun _ => .check h.target fun _ => h.putS.goto
theorem MemForm.execBrr {c : Ctl} {f : FR} : Keeps (execBrr c f s) := h.run fun h => .check h.target fun _ => h.goto
theorem MemForm.execCallr {c : Ctl} {f : FR} : Keeps (execCallr c f s) :=
  h.run fun h => .check h.checkDest fun _ => .check h.target fun _ => h.putS.goto
theorem MemForm.endStrip {broke : Bool} : MemForm (s.endStrip broke) := by
  unfold State.endStrip
  split
  · exact h
  · exact h
theorem MemForm.execVloop {c : Ctl} {f : FB} : Keeps (execVloop c f s) := h.run fun h => .ite h (.check h.target fun _ => .ite h.goto h.modCtx)
theorem MemForm.execVend {c : Ctl} {f : FB} : Keeps (execVend c f s) := h.run fun h => .ite h (.check h.target fun _ => by
  split
  · exact h
  · exact .ite h h.endStrip)
theorem MemForm.execVbreak {c : Ctl} {f : FR} : Keeps (execVbreak c f s) := h.run fun h => .ite h h.endStrip
theorem MemForm.execStripStart {core : Fin 320} {lc : Fin 4} : Keeps (execStripStart core lc s) := by
  unfold Machine.execStripStart
  dsimp only
  split
  · refine .ite (.next (MemForm.modCoreAt ?_ core fun _ hc => hc)) (.next h)
    exact h
  · exact .next h
theorem MemForm.flushStash {core : Nat} {drop : Bool} : Steps (s.flushStash core drop) := memForm_closed.flushStash h ..
theorem MemForm.execExit {c : Ctl} {f : FR} : Keeps (execExit c f s) :=
  h.run fun h => .ite h (.step (h.undo (.step h.publish fun h => h.flushStash)) fun h => h.endCtx)
theorem MemForm.softTrap {cause : Cause} {imm : BitVec 40} : Steps (softTrap cause imm s) := h

end

end Sys2Proof.Machine
end

section
/-! SUPPORT. The canonical form through the control registers, the serving tables, the scheduler and launches. -/

namespace Sys2Proof.Machine

section
variable {s : State} (h : MemForm s)
include h

/-! ## Control registers (R99, R104 to R106) -/

theorem MemForm.afterVector : Checks s.afterVector := .ite trivial h
theorem MemForm.execMfc {c : Ctl} {f : FR} : Keeps (execMfc c f s) :=
  h.run fun h => .check h.afterVector fun _ => .check h.checkDest fun _ => h.putS.advance
theorem MemForm.writeFmap {n : Fin 32} {e : BitVec 32} : Steps (s.writeFmap n e) := .ite h.setEntry h
theorem MemForm.writeCr {n : Nat} {v : Word} : Steps (s.writeCr n v) :=
  .ite h.modCtx (.ite h.modCtx (.ite h (.ite h.modCtx h.writeFmap)))
theorem MemForm.execMtc {c : Ctl} {f : FR} : Keeps (execMtc c f s) :=
  h.run fun h => .check h.afterVector fun _ => .ite (.step h.writeCr fun h => h.advance) h
theorem MemForm.execPany {c : Ctl} {f : FR} : Keeps (execPany c f s) := h.run fun h => .check h.checkDest fun _ => h.putP.advance

/-! ## The tables of hashes and probes (R344 to R348) -/

theorem MemForm.setPentry {n : Nat} {e : PEntry} : MemForm (s.setPentry n e) := h
theorem MemForm.touchEntry {n : Nat} {f : BitVec 32 → PEntry} : MemForm (s.touchEntry n f) := h
theorem MemForm.readHashes {p : Word} {n j : Nat} : Gives (s.readHashes p n j) := by
  induction n generalizing s j with
  | zero => exact h
  | succ n ih => exact .give h.scalarVal fun _ _ h => .give (ih h) fun _ _ h => h
theorem MemForm.pfxLookup {i : Instr} {pin : Bool} {f : FR} : Steps (pfxLookup i pin f s) :=
  .check h.checkDest fun _ => .ite h.putS.advance (.ite h (.give (h.undo h.readHashes) fun _ _ h => by
    dsimp only
    split
    · exact h.putS.advance
    · exact h.touchEntry.putS.advance))
theorem MemForm.pindex {v : Word} : Checks (s.pindex v) := .ite h trivial
theorem MemForm.execPfxlPage {c : Ctl} {f : FR} : Keeps (execPfxlPage c f s) :=
  h.run fun h => .check h.checkDest fun _ => .check h.pindex fun _ => h.putS.advance
theorem MemForm.insertPrefix {hash : Word} {page depth : Nat} : MemForm (s.insertPrefix hash page depth).1 := by
  unfold State.insertPrefix
  split
  · exact h.touchEntry
  · split
    · exact h.touchEntry
    · exact h
theorem MemForm.execPfxiIns {c : Ctl} {f : FR} : Keeps (execPfxiIns c f s) := h.run fun h => .check h.checkDest fun _ =>
  .give (h.undo h.scalarVal) fun _ _ h1 => .give (h.undo h1.scalarVal) fun _ _ h2 => .ite h h2.insertPrefix.putS.advance
theorem MemForm.execPfxiUnpin {c : Ctl} {f : FR} : Keeps (execPfxiUnpin c f s) := h.run fun h => .check h.checkDest fun _ =>
  .check h.pindex fun _ => .ite h.putS.advance (.ite h.putS.advance h.setPentry.putS.advance)
theorem MemForm.execPfxinv {m : Fin 4} {v : Word} : Keeps (execPfxinv m v s) := .next (h.ownerWrite (.some h.setPentry))
theorem MemForm.commitProbe {e : Fin 256} {v : Word} : Offers (s.commitProbe e v) := .ite (.some h) .none
theorem MemForm.execProbeStageWrite {m : Fin 4} {e : Fin 256} {w : Fin 4} {v : Word} : Keeps (execProbeStageWrite m e w v s) :=
  .next (h.ownerWrite (.ite h.commitProbe (.some h)))
theorem MemForm.execProbeCommit {m : Fin 4} {e : Fin 256} {v : Word} : Keeps (execProbeCommit m e v s) := .next (h.ownerWrite h.commitProbe)

/-! ## The scheduler (R291 to R296) -/

theorem MemForm.modLaunch {id : Nat} {f : Launch → Launch} : MemForm (s.modLaunch id f) := h
theorem MemForm.setGang {l g : Nat} {f : Gang → Gang} : MemForm (s.setGang l g f) := h
theorem MemForm.readCounts {l : Launch} : MemForm (s.readCounts l).2 := by
  unfold State.readCounts
  dsimp only
  split
  · exact h
  · exact h.postResidency
  · exact h
theorem MemForm.settleLaunch {id : Nat} : MemForm (s.settleLaunch id) := by
  unfold State.settleLaunch
  split
  · exact h
  next l _ =>
    refine .ite h (.ite h.modLaunch ?_)
    have counted := h.readCounts (l := l)
    split <;> rename_i eq <;> rw [eq] at counted
    · exact counted.modLaunch
    · exact counted
theorem MemForm.releaseOrphans : MemForm s.releaseOrphans := h.release
theorem MemForm.settleLaunches : MemForm s.settleLaunches := h.foldl (fun _ ht => ht.settleLaunch) _
theorem MemForm.schedule : MemForm s.schedule := h.releaseOrphans.foldl (fun _ ht => ht.releaseEnded.settleLaunch) _
theorem MemForm.noteTeam {l : Launch} {num : Nat} {q : Fin 4} : MemForm (s.noteTeam l num q) := .ite h h
theorem MemForm.dropTeams : MemForm s.dropTeams := h

omit h in
/-- A stash that is bound anew is empty. -/
theorem Core.rebind_memOk {c : Core} (sbase : Word) (asid : Fin 16) (hc : c.memOk = true) : (c.rebind sbase asid).memOk = true :=
  Core.memOk_iff.2 ⟨rfl, (Core.memOk_iff.1 hc).2⟩
theorem MemForm.rebindStash {r : Rec} : Steps (s.rebindStash r) :=
  .step h.flushStash fun h => (h.modCore fun _ hc => Core.rebind_memOk _ _ hc).modCtx
theorem MemForm.loadStart {r : Rec} {grp : List Word} : Steps (s.loadStart r grp) := by
  refine .step h.refresh fun h => .give h.scalarRead fun image s1 h1 => ?_
  dsimp only
  refine .ite (.give (r := .ok ([], s1)) h1 fun args s2 h2 => ?_) (.give h1.scalarRead fun args s2 h2 => ?_)
  all_goals
    dsimp only
    split
    · exact h2.modCtx
    · exact h2.modCtx
theorem MemForm.beginCtx : Steps s.beginCtx := by
  unfold State.beginCtx
  split
  · exact h
  · exact .step h.refresh fun h => h.modCtx
  · split
    · exact h.modCtx
    · exact .ite (.ite h h.loadStart) (.step h.rebindStash fun h => h.loadStart)
theorem MemForm.beginAll {ks : List Nat} : MemForm (s.beginAll ks) := h.foldl (fun _ ht => .ite (ht.tryIssuer fun ht => ht.beginCtx) ht) _
theorem MemForm.putStart {l : Launch} {g : Gang} {alone : List Nat} {k rank : Nat} : MemForm (s.putStart l g alone k rank) := by
  refine MemForm.modCoreAt ?_ _ fun _ hc => hc
  exact h
theorem MemForm.startGang {l : Launch} {g : Gang} {cores : List Nat} : MemForm (s.startGang l g cores) := by
  refine MemForm.beginAll (MemForm.noteTeam (MemForm.setGang (MemForm.foldl (MemForm.foldl h (fun c ht => ?_) _) (fun x ht => ?_) _)))
  · exact ht.modCoreAt c fun _ hc => hc
  · exact ht.putStart

omit h in
/-- A restored core has the memories of its record. -/
theorem Core.restoreCore_memOk {c x : Core} (hx : x.memOk = true) : (c.restoreCore x).memOk = true := hx
theorem MemForm.returnWriters {l g : Nat} : MemForm (s.returnWriters l g) := h
theorem MemForm.restoreGang {l : Launch} {g : Gang} : MemForm (s.restoreGang l g) := by
  unfold State.restoreGang
  split
  · exact h
  next q _ =>
    split
    · exact h
    next x found =>
      have kept : x.memOk = true := h.saves q x (List.mem_of_find?_eq_some found)
      refine MemForm.settleGang (MemForm.beginAll (MemForm.setGang (MemForm.modQuarter ?_ q fun y hy z hz =>
        hy z (List.mem_filter.1 hz).1)))
      refine MemForm.foldl (MemForm.foldl (MemForm.foldl ?_ (fun c ht => ?_) _) (fun c ht => ?_) _) (fun c ht => ?_) _
      rotate_left
      · exact ht.modCoreAt c fun _ hc => hc
      · exact ht
      · exact ht.modCoreAt _ fun _ hc => hc
      exact List.foldlRecOn _ _ h.returnWriters fun t ht c hc =>
        ht.modCoreAt _ fun _ _ => Core.restoreCore_memOk (List.all_eq_true.1 kept c hc)
theorem MemForm.bringIn {l : Launch} {g : Gang} {cores : List Nat} : MemForm (s.bringIn l g cores) := .ite h.restoreGang h.startGang
theorem MemForm.execGangStart {launch gang : Nat} {cores : List Nat} : Keeps (execGangStart launch gang cores s) := by
  unfold Machine.execGangStart
  dsimp only
  split
  · exact .next h.schedule
  · split
    · exact .next h.schedule
    · exact .ite (.next h.schedule.bringIn) (.next h.schedule)

/-! ## Launches (R297 to R303) -/

omit h in
/-- A choice between two states that come with something. -/
theorem MemForm.iteFst {α : Type} {c : Prop} [Decidable c] {x y : State × α} (hx : MemForm x.1) (hy : MemForm y.1) :
    MemForm (if c then x else y).1 := by
  split
  · exact hx
  · exact hy
omit h in
theorem MemForm.iteSnd {α : Type} {c : Prop} [Decidable c] {x y : α × State} (hx : MemForm x.2) (hy : MemForm y.2) :
    MemForm (if c then x else y).2 := by
  split
  · exact hx
  · exact hy
theorem MemForm.offer {r : Rec} {q : Nat} {asid : Fin 16} {origin : Nat} : MemForm (s.offer r q asid origin).2 := by
  refine MemForm.iteSnd h (MemForm.iteSnd h ?_)
  have entered : MemForm (if (s.quarter (Fin.ofNat 4 q)).journalSize != 0 then
      (s.writeHbm ((s.quarter (Fin.ofNat 4 q)).journalEntry (s.quarter (Fin.ofNat 4 q)).jprod)
        (journalBytes r (s.quarter (Fin.ofNat 4 q)).jprod origin)).modQuarter (Fin.ofNat 4 q) fun x => { x with jprod := x.jprod + 1 }
      else s) := by
    refine .ite (MemForm.modQuarter ?_ _ fun _ hy => hy) h
    exact memForm_closed.writeHbm h ..
  exact entered
theorem MemForm.msix {v : Nat} : MemForm (s.msix v) := h.withHost fun hx => by
  rw [HostLink.signal]
  split <;> exact hx
theorem MemForm.finishLaunch {l : Launch} {st : Nat} : Offers (s.finishLaunch l st) := fun t done => by
  obtain ⟨u, arrived, rfl⟩ := Option.map_eq_some_iff.1 done
  have kept : MemForm u := memForm_closed.doneArrival (memForm_closed.journalState h l st) arrived
  refine MemForm.dropTeams ?_
  split
  · exact kept.msix
  · exact kept
omit h in
/-- What an action that may fail leaves, or the state where it fails. -/
theorem Offers.getD {o : Option State} {t : State} (ho : Offers o) (ht : MemForm t) : MemForm (o.getD t) := by
  cases o with
  | none => exact ht
  | some u => exact ho u rfl
theorem MemForm.execLaunchComplete {launch : Nat} : Keeps (execLaunchComplete launch s) := by
  unfold Machine.execLaunchComplete
  dsimp only
  split
  · exact .next h.settleLaunches
  · exact .ite (.next (h.settleLaunches.finishLaunch.getD h.settleLaunches)) (.next h.settleLaunches)
theorem MemForm.withdrawTag {tag : Nat} : MemForm (s.withdrawTag tag).2 :=
  MemForm.foldl (MemForm.foldl h (fun _ ht => ht.modLaunch) _) (fun _ ht => by
    split
    · exact .ite (ht.finishLaunch.getD ht) ht
    · exact ht) _
theorem MemForm.execWithdraw {c : Ctl} {f : FE} : Keeps (execWithdraw c f s) :=
  h.run fun h => .check h.checkDest fun _ => h.withdrawTag.putS.advance

omit h in
theorem Leaves.named {α : Type} {P : α → Prop} {p : Word} {r : Act α} (hr : Leaves MemForm P r) : Leaves MemForm P (named p r) := by
  unfold Machine.named
  split
  · exact hr
  · exact hr
omit h in
theorem Leaves.foldlM_of {α β : Type} {P : β → Prop} {f : β → α → Act β} (hf : ∀ b a, P b → Leaves MemForm P (f b a)) {b : β} (hb : P b)
    (l : List α) : Leaves MemForm P (l.foldlM f b) := by
  induction l generalizing b with
  | nil => exact hb
  | cons a l ih => exact (hf b a hb).bind fun c hc => ih hc
theorem MemForm.readRecord {p : Word} : Gives (s.readRecord p) := by
  refine Leaves.foldlM_of (P := fun r : List Byte × State => MemForm r.2) (fun r x (hr : MemForm r.2) => ?_) h _
  exact .give (.named hr.scalarRead) fun _ _ h => h
theorem MemForm.execLaunch {c : Ctl} {f : FE} : Keeps (execLaunch c f s) := h.run fun h => .check h.checkDest fun _ =>
  .check h.scope fun _ => h.undo (.step h.publish fun h1 => .check h1.place fun _ => .give h1.readRecord fun _ _ h2 =>
    MemForm.advance (.ite h2.offer.putS h2.offer.putS.writeP))
theorem MemForm.hostRefuse {off : Nat} {bytes : List Byte} {dmwr : Bool} : MemForm (s.hostRefuse off bytes dmwr) :=
  .ite (h.refuse.withHost fun hx => hx) h.refuse
theorem MemForm.dropTorn {w : Writer} : MemForm (s.dropTorn w) := h
theorem MemForm.commitWindow {w : Fin 64} {dmwr : Bool} : MemForm (s.commitWindow w dmwr) :=
  .ite (h.withHost fun hx => hx) (h.dropTorn.offer.withHost fun hx => hx)
theorem MemForm.execHostWindowWrite {w : Fin 64} {off : Nat} {bytes : List Byte} {dmwr : Bool} :
    Keeps (execHostWindowWrite w off bytes dmwr s) := by
  refine .ite (.next h) (.ite (.next h.hostRefuse) (.next ?_))
  have written : MemForm { s with host := { s.host with windows := wrBytes s.host.windows (windowAddr w + off) bytes
                                                        aborted := if dmwr then false else s.host.aborted } } :=
    h.withHost fun hx => wf_wrBytes _ _ hx
  exact .ite written.commitWindow written
theorem MemForm.execWdraw {tag : Word} : Keeps (execWdraw tag s) :=
  .ite (.next h.hostRefuse) (.next (h.withdrawTag.withHost fun hx => hx))

end

end Sys2Proof.Machine
end

section
/-! SUPPORT. The canonical form through seep kernels, pre-emption and the trap queue. -/

namespace Sys2Proof.Machine

section
variable {s : State} (h : MemForm s)
include h

/-! ## `seep` (R275 to R283) -/

theorem MemForm.checkKernelPointers {r : List Word} : Checks (s.checkKernelPointers r) := by
  refine checks_forM (fun x => .check h.place fun _ => ?_) _
  split
  · exact h
  · exact trivial
theorem MemForm.readSeep {p : Word} {n k : Nat} : Gives (s.readSeep p n k) := by
  induction n generalizing s k with
  | zero => exact h
  | succ n ih => exact .give h.scalarVal fun _ _ h => .ite h (.give (ih h) fun _ _ h => h)
theorem MemForm.pinSectors {va : Nat} {write : Bool} {n : Nat} {acc : List Nat} : Gives (s.pinSectors va write n acc) := by
  induction n generalizing s va acc with
  | zero => exact h
  | succ n ih =>
    have found := memForm_closed.findVirt h s.cur.core s.asid va write
    rw [State.pinSectors]
    split <;> rename_i eq <;> rw [eq] at found
    · exact found
    · exact found
    · exact MemForm.postResidency found
    · exact ih found
theorem MemForm.modKernel {id : Nat} {f : Kernel → Kernel} : MemForm (s.modKernel id f) := h
theorem MemForm.dropKernel {id : Nat} : MemForm (s.dropKernel id) := h
theorem MemForm.startKernel {k : Kernel} : MemForm (s.startKernel k) := h.modKernel.putP.advance.waitEnds
theorem MemForm.seepPin {k : Kernel} : Steps (s.seepPin k) := by
  have pinned : Gives (do
      let (frames, s1) ← s.pinSectors k.rbase true (4 * k.rlines) []
      let (_, s2) ← s1.pinSectors (k.progAt / 128 * 128) false ((k.progAt % 128 + 8 * k.prog.length + 127) / 128) []
      if k.stat = 0 then .ok (frames, s2) else do
        let (_, s3) ← s2.pinSectors k.stat.toNat true 24 []
        let (_, s4) ← s3.pinSectors (k.stat.toNat + 3071) true 1 []
        .ok (frames, s4) : Act (List Nat × State)) :=
    .give h.pinSectors fun _ _ h => .give h.pinSectors fun _ _ h => .ite h (.give h.pinSectors fun _ _ h => .give h.pinSectors fun _ _ h => h)
  unfold State.seepPin
  dsimp only
  split <;> rename_i eq <;> rw [eq] at pinned
  · exact h.dropKernel
  · exact pinned
  · exact pinned
theorem MemForm.atStage {id : Nat} {st : KStage} {f : Kernel → Act State} (hf : ∀ k, Steps (f k)) : Steps (s.atStage id st f) := by
  unfold State.atStage
  split
  · exact h
  · exact .ite (hf _) h
theorem MemForm.drainOver {k : Nat} {home : Home} {a n : Nat} : Steps (s.drainOver k home a n) := memForm_closed.drainOver h ..
theorem MemForm.seepPublish {k : Kernel} : Steps (s.seepPublish k) := Leaves.foldlM (fun _ _ h => MemForm.drainOver h) _ h
theorem MemForm.seepGo {id : Nat} : Steps (s.seepGo id) :=
  .step (h.atStage fun _ => h.seepPin) fun h => .step (h.atStage fun _ => .step h.seepPublish fun h => h.modKernel) fun h =>
    .step (h.atStage fun _ => .ite h.modKernel h) fun h => h.atStage fun _ => .ite h.startKernel h
theorem MemForm.withKernel {k : Kernel} : MemForm (s.withKernel k) := h
theorem MemForm.execSeep {c : Ctl} {f : FE} : Keeps (execSeep c f s) := h.run fun h => by
  refine .ite h (.check h.checkDest fun _ => .check h.scope fun _ => .ite h (.give (h.undo (.give h.readSeep fun _ _ h1 =>
    .check h.checkKernelPointers fun _ => .check h.checkBarrier fun _ => ?_)) fun _ _ h => .ite h.putP.advance h.withKernel.seepGo))
  split
  · exact h
  · exact h1
theorem MemForm.execSeepClaimGrant {id : Nat} : Keeps (execSeepClaimGrant id s) := by
  unfold Machine.execSeepClaimGrant
  split
  · exact .next h
  · exact .next (.ite (h.tryIssuer fun h => h.seepGo) h)

/-! ### The operations of a unit -/

omit h in
theorem MemForm.onUnit {f : Kernel → SeepUnit → State × SeepUnit} (hf : ∀ k u, MemForm (f k u).1) : Keeps (onUnit s f) := by
  unfold Machine.onUnit
  split
  · exact fun _ is => nomatch is
  · exact .next (MemForm.modKernel (hf _ _))
theorem MemForm.unitOp {f : Kernel → SeepUnit → SeepUnit} : Keeps (unitOp s f) := .onUnit fun _ _ => h
theorem MemForm.kernelBad {k : Kernel} {word unit mem addr : Nat} : MemForm (s.kernelBad k word unit mem addr) := .ite h h.modKernel.logError
theorem MemForm.seepTrap {k : Kernel} {u : SeepUnit} {t : Trap} : MemForm (s.seepTrap k u t).1 := by
  refine .iteFst h.kernelBad ?_
  split
  · exact h
  · exact h
  · dsimp only
    split
    next written => exact (h.putRecord written).applyRecord
    next => exact h
theorem MemForm.seepWrite {k : Kernel} {u : SeepUnit} {va pa n v : Nat} {bad : Bool} : MemForm (s.seepWrite k u va pa n v bad).1 := by
  have back := h.backInvalidate (pa := pa) (name := some (k.agent.asid, va / 128 * 128))
  have tried : MemForm (match (s.backInvalidate pa (some (k.agent.asid, va / 128 * 128))).trap with
      | some t => (s.backInvalidate pa (some (k.agent.asid, va / 128 * 128))).state.seepTrap k u t
      | none => ((s.backInvalidate pa (some (k.agent.asid, va / 128 * 128))).state, .performs)).1 := by
    split
    · exact back.seepTrap
    · exact back
  unfold State.seepWrite
  refine .iteFst tried (.iteFst ?_ tried)
  exact memForm_closed.writeHbm (memForm_closed.noteTorn tried ..) ..
theorem MemForm.execSeepLoop : Keeps (execSeepLoop s) := .onUnit fun _ _ => .iteFst h h
theorem MemForm.execFldx {wd wa : Fin 16} : Keeps (execFldx wd wa s) := .onUnit fun k u => by
  refine .iteFst h ?_
  have walked := h.tlbWalk (unit := 576 + u.id / 32) (asid := k.agent.asid) (va := k.xbase.toNat + 32 * bitsAt (u.reg wa) 0 32)
  dsimp only
  split
  · exact walked.postResidency
  · exact walked
  · split
    · exact walked
    · exact walked
theorem MemForm.writeColumn {k : Kernel} {line col v : Nat} {bad : Bool} {u done : SeepUnit} :
    MemForm (s.writeColumn k line col v bad u done).1 := h.seepWrite
theorem MemForm.execSeepSt {wa col : Fin 16} : Keeps (execSeepSt wa col s) := .onUnit fun _ _ => h.writeColumn
theorem MemForm.execStc {wa : Fin 16} : Keeps (execStc wa s) := .onUnit fun k u => by
  refine .iteFst h.logError (.iteFst h ?_)
  split
  · exact h
  · exact h.writeColumn
theorem MemForm.execRed {wa col : Fin 16} {m : Fin 3} : Keeps (execRed wa col m s) := .onUnit fun _ _ => h.writeColumn

/-! ### The end of a kernel -/

theorem MemForm.writeStat {k : Kernel} : MemForm (s.writeStat k).1 := by
  refine .iteFst h ?_
  refine foldl_closed (I := fun r : State × Bool => MemForm r.1) (fun r u hr => ?_) _ h
  split
  · exact MemForm.seepWrite hr
  · exact hr
theorem MemForm.releaseKernel {k : Kernel} : MemForm (s.releaseKernel k) := .ite h.writeStat.modKernel.unpark h.writeStat.modKernel
theorem MemForm.kernelArrives {k : Kernel} : MemForm (s.kernelArrives k) := by
  unfold State.kernelArrives
  dsimp only
  split
  next done => exact .ite (h.engArrive done).dropTorn.modKernel (h.engArrive done).dropTorn.dropKernel
  next => exact h.postResidency
  next => exact h
  next => exact h
  next => exact h
theorem MemForm.kernelFailed {k : Kernel} : MemForm (s.kernelFailed k) := by
  unfold State.kernelFailed
  split
  · exact h
  · split
    · exact h
    next written => exact (h.putRecord written).dropKernel.endIssuer
theorem MemForm.kernelEnds {k : Kernel} : MemForm (s.kernelEnds k) := by
  refine .ite h ?_
  split
  · exact .ite h.releaseKernel h
  · exact h.kernelArrives
  · exact h.kernelFailed
  · exact h
theorem MemForm.execSeepRelease {id : Nat} : Keeps (execSeepRelease id s) := by
  unfold Machine.execSeepRelease
  extract_lets go
  have goes {t : State} (ht : MemForm t) : MemForm (go t) := by
    dsimp only [go]
    split
    · exact ht
    · exact ht.kernelEnds
  split
  · exact .next h.unpark
  · exact .next (goes (goes (goes h)))

/-! ## Pre-emption (R306 to R315) -/

theorem MemForm.startSwap {q : Fin 4} {out inn : Launch × Gang} : MemForm (s.startSwap q out inn) := h.modQuarter q fun _ hy => hy
theorem MemForm.execPreemptDecision {q : Fin 4} {outLaunch outGang inLaunch inGang : Nat} :
    Keeps (execPreemptDecision q outLaunch outGang inLaunch inGang s) := by
  unfold Machine.execPreemptDecision
  dsimp only
  split
  · exact .ite (.next h.schedule.startSwap) (.next h.schedule)
  · exact .next h.schedule
theorem MemForm.execQuantumExpiry {launch gang : Nat} : Keeps (execQuantumExpiry launch gang s) := by
  unfold Machine.execQuantumExpiry
  dsimp only
  split
  · exact .next h.schedule
  · refine .ite (.next h.schedule) ?_
    split
    · exact .next h.schedule.setGang
    · exact .ite (.next h.schedule.setGang.startSwap) (.next h.schedule.setGang)
theorem MemForm.finishSends {k : Nat} : MemForm (s.finishSends k) := by
  refine h.foldl (fun slot ht => ?_) _
  exact (ht.asIssuer fun h => h.advance.waitEnds).modCtxAt
theorem MemForm.swapStep {q : Fin 4} {w : Swap} {step : Nat} : MemForm (s.swapStep q w step) := h.modQuarter q fun _ hy => hy
theorem MemForm.endSwap {q : Fin 4} : MemForm (s.endSwap q) := h.modQuarter q fun _ hy => hy
theorem MemForm.giveUpSwap {q : Fin 4} {l : Launch} {g : Gang} : MemForm (s.giveUpSwap q l g) := h.endSwap.foldl (fun _ ht => ht.modCtxAt) _
theorem MemForm.execStopPointReached {q : Fin 4} : Keeps (execStopPointReached q s) := by
  unfold Machine.execStopPointReached
  split
  · exact .next h
  · refine .ite (.next h) ?_
    split
    · exact .next h.swapStep
    · refine .ite (.next h.swapStep) (.ite (.next h) (.next (MemForm.swapStep (MemForm.unpark ?_))))
      exact MemForm.foldl h (fun _ ht => ht.finishSends) _
theorem MemForm.saveDirty {k : Nat} {t : Trap} : Steps (State.saveDirty k t s) :=
  .ite h (.ite h.logError (.step (memForm_closed.leaveDirty k t h) fun h => h.modCtxAt))
theorem MemForm.publishEnded {k : Nat} : MemForm (s.publishEnded k) := .ite (memForm_closed.publishHistory h ..) h
theorem MemForm.emptyStashes {ks cs : List Nat} : Steps (s.emptyStashes ks cs) :=
by
  refine Leaves.foldlM (fun t c h => ?_) _ h
  exact .step (memForm_closed.flushEnd h _ _ fun _ _ h => MemForm.saveDirty h) fun h => h.publishEnded
omit h in
theorem Steps.of_ok {r : Act State} {t : State} (hr : Steps r) (eq : r = .ok t) : MemForm t := Leaves.of_ok hr eq
omit h in
theorem Steps.of_wait {r : Act State} {t : State} (hr : Steps r) (eq : r = .error (.wait t)) : MemForm t := by
  subst eq
  exact hr
theorem MemForm.drainAll {ks : List Nat} : Offers (s.drainAll ks) := by
  refine .foldl (fun o k ho t drained => ?_) (.some h) _
  obtain ⟨u, from_, drained⟩ := Option.bind_eq_some_iff.1 drained
  split at drained
  next done => exact Option.some.inj drained ▸ (memForm_closed.drainAct (ho u from_) k).of_ok done
  next => exact nomatch drained
theorem MemForm.wakeSaved {q : Fin 4} {launch gang k : Nat} : MemForm (s.wakeSaved q launch gang k) := by
  have woken := h.modQuarter q (f := fun x => { x with saves := x.saves.map fun y =>
      if y.launch = launch ∧ y.gang = gang then
        { y with ctxs := y.ctxs.map fun c => if c.1 = k then (k, { c.2 with wake := true }) else c }
      else y }) fun x hx y hy => by
    obtain ⟨z, hz, rfl⟩ := List.mem_map.1 hy
    split <;> exact hx z hz
  unfold State.wakeSaved
  dsimp only
  split
  · exact woken
  next l _ => exact woken.setGang (l := launch) (g := gang)
theorem MemForm.leaveWriters {l g : Nat} {ks : List Nat} : MemForm (s.leaveWriters l g ks) := h
theorem MemForm.addSave {q : Fin 4} {x : Saved} {n : Nat} (hx : x.memOk = true) :
    MemForm { s.modQuarter q (fun y => { y with saves := y.saves ++ [x] }) with nextId := n } := by
  have added := h.modQuarter q (f := fun y => { y with saves := y.saves ++ [x] }) fun y hy z hz =>
    (List.mem_append.1 hz).elim (hy z) fun new => List.mem_singleton.1 new ▸ hx
  exact added
/-- The record of a gang holds its cores as they stand. -/
theorem MemForm.saveGang {q : Fin 4} {l : Launch} {g : Gang} : MemForm (s.saveGang q l g) := by
  unfold State.saveGang
  refine MemForm.addSave ?_ (List.all_eq_true.2 fun c hc => ?_)
  · refine MemForm.leaveWriters (MemForm.setGang (MemForm.foldl h (fun k ht => ?_) _))
    refine MemForm.modCoreAt ?_ _ fun _ hc => hc
    exact ht
  · obtain ⟨n, _, rfl⟩ := List.mem_map.1 hc
    exact h.coreAt n
theorem MemForm.execSwapSave {q : Fin 4} : Keeps (execSwapSave q s) := by
  unfold Machine.execSwapSave
  split
  · exact .next h
  · refine .ite (.next h) ?_
    split
    · exact .next h.swapStep
    · refine .ite (.next h.swapStep) (.ite (.next h.giveUpSwap) (.ite (.next h) ?_))
      split
      · exact .next h
      next drained =>
        have kept := h.drainAll _ drained
        split <;> rename_i eq
        · exact .next (Steps.of_wait kept.emptyStashes eq)
        · exact .next h
        · exact .next (MemForm.saveGang (Steps.of_ok kept.emptyStashes eq)).swapStep
theorem MemForm.execSwapLoad {q : Fin 4} {cores : List Nat} : Keeps (execSwapLoad q cores s) := by
  unfold Machine.execSwapLoad
  split
  · exact .next h
  · refine .ite (.next h) ?_
    split
    · exact .next h.endSwap
    · exact .ite (.next h.endSwap) (.ite (.next h.endSwap.bringIn) (.next h))

/-! ## The trap queue (R316, R317) -/

theorem MemForm.postSaved {q : Fin 4} {x : Saved} {k : Nat} {t : Tenancy} {r : TrapRec} : MemForm (s.postSaved q x k t r) := by
  unfold State.postSaved
  dsimp only
  split
  · exact h
  next u written =>
    have kept := h.putRecord written
    refine MemForm.wakeSaved (.ite (kept.modQuarter q fun y hy z hz => ?_) kept.finishSaved)
    obtain ⟨v, hv, rfl⟩ := List.mem_map.1 hz
    split <;> exact hy v hv
theorem MemForm.execTrapRecordWrite {q : Fin 4} : Keeps (execTrapRecordWrite q s) := by
  unfold Machine.execTrapRecordWrite
  split
  · exact .next (MemForm.post (.ite h.modCtxAt h))
  · split
    · exact .next h.postSaved
    · split
      · exact .next h.postCard
      · split
        · exact .next h.postGather
        · exact .next h
theorem MemForm.execTqconsWrite {m q : Fin 4} {v : Word} : Keeps (execTqconsWrite m q v s) :=
  .next (h.ownerWrite (.ite .none (.some (h.modQuarter q fun _ hy => hy))))
theorem MemForm.actCtx {q : Fin 4} {k : Nat} {seq : BitVec 32} {replay : Bool} : MemForm (s.actCtx q k seq replay) :=
  .ite (.ite h.modCtxAt h.endCtx) (h.modQuarter q fun x hx y hy => by
    obtain ⟨z, hz, rfl⟩ := List.mem_map.1 hy
    exact hx z hz)
theorem MemForm.actCard {id : Nat} {r : TrapRec} {replay : Bool} : MemForm (s.actCard id r replay) := by
  unfold State.actCard
  split
  · exact h
  · exact .ite h.modCard h.modCard.declineCard
theorem MemForm.tqact {m q : Fin 4} {v : Word} {replay : Bool} : MemForm (s.tqact m q v replay) := by
  refine h.ownerWrite fun t done => ?_
  obtain ⟨r, _, rfl⟩ := Option.map_eq_some_iff.1 done
  dsimp only
  split
  · exact MemForm.actCard (by exact h.modQuarter q fun _ hy => hy)
  · exact MemForm.actCtx (by exact h.modQuarter q fun _ hy => hy)
theorem MemForm.execQuantumWrite {m q : Fin 4} {v : Word} : Keeps (execQuantumWrite m q v s) :=
  .next (h.ownerWrite (.ite .none (.some (h.modQuarter q fun _ hy => hy))))
theorem MemForm.execSavebaseWrite {m q : Fin 4} {v : Word} : Keeps (execSavebaseWrite m q v s) :=
  .next (h.ownerWrite (.ite (.some (h.modQuarter q fun _ hy => hy)) .none))
theorem MemForm.execSavelimWrite {m q : Fin 4} {v : Word} : Keeps (execSavelimWrite m q v s) :=
  .next (h.ownerWrite (.ite (.some (h.modQuarter q fun _ hy => hy)) .none))

end

end Sys2Proof.Machine
end

section
/-! SUPPORT. The canonical form through pages and migration, errors and resets, the registers of the window, and taps. -/

namespace Sys2Proof.Machine

section
variable {s : State} (h : MemForm s)
include h

/-! ## Pages (R331 to R335) -/

theorem MemForm.pagePtr {p : Word} : Checks (s.pagePtr p) := by
  unfold State.pagePtr
  split
  · exact h
  · split
    · exact trivial
    · exact trivial
    · exact h
theorem MemForm.execPgreq {c : Ctl} {f : FM} : Keeps (execPgreq c f s) := h.run fun h => .check h.pagePtr fun va => .ite h (by
  refine MemForm.advance (MemForm.foldl h (fun p ht => ?_) _)
  split
  · exact ht.postResidency
  · exact ht)
theorem MemForm.setPins {pins : List Pin} : MemForm (s.setPins pins) := h
theorem MemForm.checkPages {ps : List Page} : Checks (s.checkPages ps) := by
  refine checks_forM (fun p => ?_) _
  split
  · exact h
  · exact h
  · exact trivial
theorem MemForm.execPgpin {c : Ctl} {f : FM} : Keeps (execPgpin c f s) := h.run fun h => .check h.checkDest fun _ =>
  .check h.pagePtr fun va => .ite h (.check h.checkPages fun _ => by
    split
    · refine MemForm.waitPage (MemForm.foldl h (fun p ht => ?_) _)
      exact .ite ht.postResidency ht
    · refine .ite h ?_
      exact MemForm.ite h.setPins.putP.advance h.putP.advance)
theorem MemForm.execPgunpin {c : Ctl} {f : FM} : Keeps (execPgunpin c f s) := h.run fun h => .check h.pagePtr fun _ =>
  .ite h h.setPins.advance
theorem MemForm.execRpclr {m : Fin 4} {v : Word} : Keeps (execRpclr m v s) := .next (h.ownerWrite (.some h.setPins))
theorem MemForm.writeBack {core line : Nat} {j : Fin 4} {drop force : Bool} {who : Option Writer} :
    Steps (s.writeBack core line j drop force who) := memForm_closed.writeBack h ..
theorem MemForm.writeBackOrLeave {core line : Nat} {j : Fin 4} {who : Option Writer} : Steps (s.writeBackOrLeave core line j who) := by
  unfold State.writeBackOrLeave
  split
  · exact MemForm.ite h.logError h
  · exact h.writeBack
theorem MemForm.dropLines {x : Cover} {leave : Bool} {who : Option Nat} {core : Nat} : Steps (s.dropLines x leave who core) := by
  refine Leaves.foldlM (fun t l ht => ?_) _ h
  have swept : Steps ((List.finRange 4).foldlM (fun s j =>
      if leave then s.writeBackOrLeave core l.1 j (some (match who with
        | some k => .ctx k
        | none => .stash core)) else s.writeBack core l.1 j true false (some (match who with
        | some k => .ctx k
        | none => .stash core))) t) := by
    refine Leaves.foldlM (fun t j ht => ?_) _ ht
    exact .ite (MemForm.writeBackOrLeave ht) (MemForm.writeBack ht)
  exact .step swept fun h => h.modCoreAt core fun _ hc => hc
/-- What is mapped goes; the memories of cores and of save records stay. -/
theorem MemForm.dropMaps {x : Cover} : MemForm (s.dropMaps x) := by
  have mapped := (h.mapQuarters (f := fun q => { q with saves := q.saves.map (s.forgetSaved x) }) fun q hq y hy => by
    obtain ⟨z, hz, rfl⟩ := List.mem_map.1 hy
    refine List.all_eq_true.2 fun c hc => ?_
    obtain ⟨d, hd, rfl⟩ := List.mem_map.1 hc
    exact List.all_eq_true.1 (hq z hz) d hd).mapCores
      (f := fun c => (c.1, { c.2 with l1 := c.2.l1.filter fun e => !s.covers x e.asid e.va })) fun _ hc => hc
  exact mapped
theorem MemForm.invalidate {x : Cover} {leave : Bool} {who : Option Nat} : Steps (s.invalidate x leave who) :=
  .ite h (.step (Leaves.foldlM (fun _ _ h => MemForm.dropLines h) _ h) fun h => h.dropMaps)
theorem MemForm.drainAct {k : Nat} : Steps (s.drainAct k) := memForm_closed.drainAct h k
theorem MemForm.execTlbi {c : Ctl} {f : FR} : Keeps (execTlbi c f s) := h.run fun h => by
  have finish (x : Cover) : Steps (do
      let t ← s.drainAct s.key
      if t.unacked t.key .core then do
        hold s
        let t ← Machine.undo s (t.invalidate x false (some t.key))
        .ok t.advance
      else do
        let t ← Machine.undo s (t.invalidate x false (some t.key))
        .ok t.advance : Act State) :=
    .step h.drainAct fun h1 => .ite h (.step (h.undo h1.invalidate) fun h => h.advance)
  dsimp only
  split
  · exact .check h.pagePtr fun _ => finish _
  · exact .check h.pagePtr fun _ => finish _
  · exact finish _
theorem MemForm.invalidateThen {x : Cover} {f : State → State} (hf : ∀ {t}, MemForm t → MemForm (f t)) : MemForm (s.invalidateThen x f) := by
  unfold State.invalidateThen
  split <;> rename_i eq
  · exact hf (Steps.of_ok h.invalidate eq)
  · have waited := Steps.of_wait h.invalidate eq
    exact waited
  · exact h
theorem MemForm.tlbiaTurn : MemForm s.tlbiaTurn := by
  unfold State.tlbiaTurn
  split
  · exact h
  · exact h.invalidateThen fun ht => by exact ht
theorem MemForm.execTlbia {m : Fin 4} {v : Word} : Keeps (execTlbia m v s) := by
  refine .ite (.next (MemForm.tlbiaTurn ?_)) (.next h.refuse)
  exact h

/-! ## Counters, migration and residency (R325 to R330) -/

theorem MemForm.writeHbm {a : Nat} {bytes : List Byte} {bad : Bool} : MemForm (s.writeHbm a bytes bad) := memForm_closed.writeHbm h ..
theorem MemForm.setHot {entry kind v : Nat} {bad : Bool} : MemForm (s.setHot entry kind v bad) := h.writeHbm
theorem MemForm.hotFrame {p : Word} : Checks (s.hotFrame p) := by
  unfold State.hotFrame
  split
  · exact trivial
  · split
    · exact trivial
    · exact trivial
    · exact h
    · exact trivial
theorem MemForm.execHot {c : Ctl} {f : FR} : Keeps (execHot c f s) := h.run fun h => .check h.checkDest fun _ => by
  refine .check ?_ fun o => ?_
  · exact .ite h.hotFrame trivial
  · split
    · exact h.putS.advance
    · exact .ite h (MemForm.advance (.ite h.putS.setHot h.putS))
theorem MemForm.execHotnessAdd {k : Nat} : Keeps (execHotnessAdd k s) := by
  unfold Machine.execHotnessAdd
  split
  · exact .next h
  next o _ =>
    have added : MemForm (if s.hotBad o.addr o.kind then s else s.setHot o.addr o.kind (s.hotCount o.addr o.kind + o.n)) := .ite h h.setHot
    exact .next (by exact added)
theorem MemForm.execMigvaWrite {m q : Fin 4} {v : Word} : Keeps (execMigvaWrite m q v s) :=
  .next (h.ownerWrite (.ite .none (.some (h.modQuarter q fun _ hy => hy))))
theorem MemForm.writePte {asid : Fin 16} {va : Nat} {f : Word → Word} : MemForm (s.writePte asid va f) := by
  unfold State.writePte
  split
  · exact h.writeHbm
  · exact h
theorem MemForm.execMigrationStart {m q : Fin 4} {v : Word} : Keeps (execMigrationStart m q v s) := by
  refine .next (h.ownerWrite (.ite .none ?_))
  dsimp only
  split
  · exact .some (h.modQuarter q fun _ hy => hy)
  · exact .ite (.some (h.modQuarter q fun _ hy => hy)) (.some (h.writePte.modQuarter q fun _ hy => hy))
theorem MemForm.setMigration {q : Fin 4} {g : Migration} : MemForm (s.setMigration q g) := h.modQuarter q fun _ hy => hy
theorem MemForm.copySector {g : Migration} {j : Nat} : MemForm (s.copySector g j) := by
  have copied := (MemForm.foldl h (f := fun (s : State) o => s.writeHbm (g.new + 128 * j + o) (rdBytes s.mem (g.old + 128 * j + o) 64)
    (s.poisoned (g.old + 128 * j + o) 64)) (fun _ ht => ht.writeHbm) [0, 64]).mapCores (f := fun c => (c.1, c.2.dropL1 (g.old + 128 * j)))
    fun _ hc => hc
  exact copied
theorem MemForm.execMigrationSectorCopy {q : Fin 4} : Keeps (execMigrationSectorCopy q s) := by
  unfold Machine.execMigrationSectorCopy
  split
  · exact .next h
  · exact .ite (.next h) (.ite (.next (h.invalidateThen fun ht => ht.setMigration)) (.ite (.next h) (.next h.copySector.writePte.setMigration)))
theorem MemForm.mergeHot {g : Migration} : MemForm (s.mergeHot g) := .ite (h.foldl (fun _ ht => ht.setHot.setHot) _) h
theorem MemForm.execMigrationFinish {q : Fin 4} : Keeps (execMigrationFinish q s) := by
  unfold Machine.execMigrationFinish
  split
  · exact .next h
  · refine .ite (.next h) (.ite (.next h.writePte.setMigration) (.ite (.next (h.invalidateThen fun ht => ht.setMigration)) (.ite (.next h)
      (.next ?_))))
    exact h.mergeHot.modQuarter q fun _ hy => hy
theorem MemForm.execRqconsWrite {m : Fin 4} {v : Word} : Keeps (execRqconsWrite m v s) := .next (h.ownerWrite (.ite .none (.some h)))
theorem MemForm.execResidencyRewalk {w : Waiter} : Keeps (execResidencyRewalk w s) := by
  unfold Machine.execResidencyRewalk
  split
  · exact .next (MemForm.foldl h (fun _ ht => .ite ht.postResidency ht.modCtxAt) _)
  · split
    · exact .next h
    · split
      · exact .next h
      · exact .ite (.next h.postResidency) (.next h.modCard)

/-! ## Errors and resets (R364 to R372) -/

theorem MemForm.fuseAll : MemForm s.fuseAll := by
  unfold State.fuseAll
  generalize List.range 320 = cores
  refine h.foldl (fun c ht => ?_) _
  exact .ite ht (ht.modCoreAt c fun _ hc => hc)
omit h in
theorem memForm_reset : MemForm State.reset := State.reset_memOk
omit h in
theorem MemForm.execDeviceReset {fitted : Bool} {bdfail : BitVec 12} : Keeps (execDeviceReset fitted bdfail s) :=
  .next (MemForm.fuseAll memForm_reset)
theorem MemForm.logSite {x : ErrSite} {outcome : Nat} : MemForm (s.logSite x outcome) := h.logError
theorem MemForm.corrected {x : ErrSite} : MemForm (s.corrected x) := h.modRegs.logSite
theorem MemForm.struck {x : ErrSite} : MemForm (s.struck x) := by
  cases x with
  | tarnReg core lane lc e => exact h.modCoreAt _ fun _ hc => hc
  | tarnTag core lane => exact h.modCoreAt _ fun _ hc => hc
  | stash core off => exact MemForm.logSite (by exact h.modCoreAt core fun _ hc => hc)
  | cell core lane n => exact MemForm.logSite (by exact h.modCoreAt core fun _ hc => hc)
  | tile core slot off => exact MemForm.logSite (by exact h.modCoreAt core fun _ hc => hc)
  | l1 core asid va => exact h.logSite.modCoreAt core fun _ hc => hc
  | l2 pa => exact MemForm.logSite (memForm_closed.dropL2 h pa)
  | control q => exact h.containedStop.logSite
  | _ => exact h
theorem MemForm.execMemoryError {site : ErrSite} {uncorrectable : Bool} : Keeps (execMemoryError site uncorrectable s) :=
  .next (.ite h.struck h.corrected)
theorem MemForm.execTarnScrub {core : Fin 320} {lane : BitVec 14} : Keeps (execTarnScrub core lane s) := by
  refine .next (MemForm.foldl h (fun lc ht => .ite ht ?_) _)
  dsimp only
  generalize (if (s.coreAt core).tagErr.contains lane.toNat then some (31, 2) else _ : Option (Nat × Nat)) = entry
  split
  · exact ht.modCtxAt
  · exact ht
theorem MemForm.arriveBest {a : Agent} {p : Word} {n : Nat} : MemForm (s.arriveBest a p n) := by
  unfold State.arriveBest
  split
  next done => exact h.engArrive done
  next => exact h
theorem MemForm.publishOf {f : Writer → Bool} : MemForm (s.publishOf f) := h
theorem MemForm.withoutWork {cards : List Card} {gathers : List Gather} {kernels : List Kernel} {sent : List Sent} {pend : List Pending}
    {parked : List Parked} : MemForm { s with cards := cards, gathers := gathers, kernels := kernels, sent := sent, pend := pend
                                              parked := parked } := h
theorem MemForm.dropWork {q : Fin 4} : MemForm (s.dropWork q) := by
  unfold State.dropWork
  refine MemForm.foldl (MemForm.foldl (MemForm.foldl (MemForm.unpark (MemForm.publishOf (MemForm.withoutWork (MemForm.foldl h
    (fun k ht => ?_) _)))) (fun c ht => ?_) _) (fun g ht => ?_) _) (fun k ht => ?_) _
  · split
    next done => exact Steps.of_ok ht.drainAct done
    next => exact ht
  · exact MemForm.arriveBest (.ite ht ht.arriveBest)
  · exact ht.arriveBest
  · exact .ite ht.arriveBest ht
theorem MemForm.publishGone : MemForm s.publishGone := h.publishOf
theorem MemForm.dropLaunches {q : Fin 4} : MemForm (s.dropLaunches q) := by
  unfold State.dropLaunches
  refine MemForm.publishGone (MemForm.mapQuarters (MemForm.foldl ?_ (fun _ ht => ht.finishLaunch.getD ht) _) fun x hx y hy => ?_)
  · exact h
  · exact hx y (List.mem_filter.1 hy).1
omit h in
theorem Core.quarterClear_memOk {c : Core} : c.quarterClear.memOk = true := rfl
theorem MemForm.resetQuarter {q : Fin 4} : MemForm (s.resetQuarter q) := by
  have cleared := (h.dropWork (q := q) |>.dropLaunches (q := q)).mapCores
    (f := fun c => if quarterOf c.1 == q then (c.1, c.2.quarterClear) else c) fun c hc => by
      split
      · exact Core.quarterClear_memOk
      · exact hc
  refine MemForm.modRegs (MemForm.modQuarter ?_ q fun _ _ y hy => absurd hy List.not_mem_nil)
  exact cleared
theorem MemForm.errctl {m : Fin 4} {v : Word} : MemForm (s.errctl m v) := by
  refine h.ownerWrite (.ite .none (.some ?_))
  have reset : MemForm (((List.finRange 4).filter fun q => bitAt v q.val).foldl State.resetQuarter s) := h.foldl (fun _ ht => ht.resetQuarter) _
  exact .ite (reset.foldl (fun _ ht => ht.containedStop) _) reset
theorem MemForm.execJournalConfigWrite {m q : Fin 4} {reg : Fin 3} {v : Word} : Keeps (execJournalConfigWrite m q reg v s) :=
  .next (h.ownerWrite (.ite (.some (h.modQuarter q fun _ hy => hy)) (.ite .none (.ite (.some (h.modQuarter q fun _ hy => hy))
    (.ite (.some (h.modQuarter q fun _ hy => hy)) .none)))))
theorem MemForm.endBound {q : Fin 4} {x : Saved} {core : Nat} : MemForm (s.endBound q x core) := by
  refine MemForm.modLaunch (MemForm.setGang (MemForm.publishGone (MemForm.modQuarter (MemForm.foldl h (fun c ht => ?_) _) q fun y hy z hz => ?_)))
  · exact .ite (ht.modQuarter q fun _ hy => hy) ht
  · exact hy z (List.mem_filter.1 hz).1
theorem MemForm.endAllBound {core : Nat} : MemForm (s.endAllBound core) := h.foldl (fun _ ht => ht.foldl (fun _ ht => ht.endBound) _) _
theorem MemForm.execSpareWrite {m : Fin 4} {core : Fin 320} {v : Word} : Keeps (execSpareWrite m core v s) := by
  have spared := h.modCoreAt core (f := fun c => { c with dis := bitAt v 63, tspare := bitsAt v 0 16 }) fun _ hc => hc
  exact .next (h.ownerWrite (.ite .none (.some (.ite spared.endAllBound spared))))
theorem MemForm.execRowSpareTableWrite {m : Fin 4} {core : Fin 320} {w : Fin 32} {v : Word} :
    Keeps (execRowSpareTableWrite m core w v s) := .next (h.ownerWrite (.ite (.some (h.modCoreAt core fun _ hc => hc)) .none))
theorem MemForm.execThermalBandChange {q : Fin 4} {temp : BitVec 16} : Keeps (execThermalBandChange q temp s) := by
  refine .next (.ite (MemForm.containedStop ?_) ?_)
  · exact h.modQuarter q fun _ hy => hy
  · exact h.modQuarter q fun _ hy => hy

/-! ## The window (R356, R380, R382) -/

theorem MemForm.install {i : BitVec 1536} {a : Nat} : MemForm (s.install i a) := .ite h.modRegs h.modRegs
theorem MemForm.execFwcmd {m : Fin 4} {v : Word} : Keeps (execFwcmd m v s) := .next (h.ownerWrite (.ite .none (.some h.modRegs)))
theorem MemForm.imageDone : MemForm s.imageDone := by
  unfold State.imageDone
  split
  · exact h
  · exact MemForm.modRegs (.ite h.install h)
theorem MemForm.execAttcmd {m : Fin 4} {v : Word} : Keeps (execAttcmd m v s) :=
  .next (h.ownerWrite (.ite .none (.ite (.some h) (.some h.modRegs))))
theorem MemForm.reportDone : MemForm s.reportDone := by
  unfold State.reportDone
  split
  · exact h
  · exact h.writeHbm.writeHbm.writeHbm.modRegs
theorem MemForm.execHostBar4Read {pa n : Nat} : Keeps (execHostBar4Read pa n s) := .next (h.withHost fun hx => hx)
theorem MemForm.execHostBar4Write {pa : Nat} {bytes : List Byte} {dmwr : Bool} : Keeps (execHostBar4Write pa bytes dmwr s) := by
  have written := MemForm.writeHbm (memForm_closed.noteTorn h .host pa bytes false) (a := pa) (bytes := bytes.take (hbmBytes - pa)) (bad := false)
  exact .next (.ite (written.withHost fun hx => hx) written)
omit h in
theorem HostLink.signal_windows (x : HostLink) (v : Nat) : (x.signal v).windows = x.windows := by
  rw [HostLink.signal]
  split <;> rfl
theorem MemForm.execMsixUnmask {vector : BitVec 11} : Keeps (execMsixUnmask vector s) := by
  refine .next (h.withHost fun hx => ?_)
  split
  · rw [HostLink.signal_windows]
    exact hx
  · exact hx
theorem MemForm.bar0Read {pa n : Nat} : MemForm (s.bar0Read pa n) := h.withHost fun hx => hx

end

end Sys2Proof.Machine
end

section
/-! SUPPORT. The canonical form through the writes of the window by offset, and through taps. -/

namespace Sys2Proof.Machine

theorem HostLink.release_windows (x : HostLink) : x.release.windows = x.windows :=
  foldl_closed (I := fun y : HostLink => y.windows = x.windows) (fun y v hy => by
    split
    · exact hy
    · rw [HostLink.signal_windows]
      exact hy) _ rfl

section
variable {s : State} (h : MemForm s)
include h

/-! ## The window by offset (R351, R356) -/

theorem MemForm.msixWrite {off : Nat} {bytes : List Byte} : MemForm (s.msixWrite off bytes) := h.withHost fun hx => by
  rw [HostLink.release_windows]
  exact foldl_closed (I := fun y : HostLink => Memory.wf y.windows = true) (fun y b hy => by
    split
    · exact hy
    · exact hy) _ hx
theorem MemForm.plainWrite {off : Nat} {v : Word} : Offers (plainWrite off v s) :=
  .ite (.some h) (.ite (.some h) (.ite (.some h) (.ite (.some h) (.ite (.ite (.some h) .none) (.ite (.some h) (.ite (.ite (.some h) .none)
    (.ite (.some h) (.ite (.some h) .none))))))))
theorem MemForm.execTqactReplay {m q : Fin 4} {v : Word} : Keeps (execTqactReplay m q v s) := .next h.tqact
theorem MemForm.execTqactTerminate {m q : Fin 4} {v : Word} : Keeps (execTqactTerminate m q v s) := .next h.tqact
theorem MemForm.quarterWrite {m q : Fin 4} {n : Nat} {v : Word} : Keeps (quarterWrite m q n v s) := by
  unfold Machine.quarterWrite
  split
  · exact h.execQuantumWrite
  · exact h.execSavebaseWrite
  · exact h.execSavelimWrite
  · exact h.execTqconsWrite
  · exact .ite h.execTqactTerminate h.execTqactReplay
  · exact h.execMigvaWrite
  · exact h.execMigrationStart
  · exact .next (h.ownerWrite .none)
theorem MemForm.ownWrite {m : Fin 4} {v : Word} : Keeps (ownWrite m v s) := by
  unfold Machine.ownWrite
  split
  · exact .next h.ownCommand
  · exact .next h.ownCommand
  · exact .next h.ownCommand
  · exact .next h.ownCommand
  · exact .next h.ownCommand
  · exact .next h.refuse
theorem MemForm.mgmtWrite {m : Fin 4} {off : Nat} {v : Word} : Keeps (s.mgmtWrite m off v) :=
  .ite h.ownWrite <| .ite h.execMlogcons <| .ite h.execPortctl <| .ite h.execRqconsWrite <| .ite h.execTlbia <| .ite h.execRpclr <|
  .ite h.execPfxinv <| .ite h.quarterWrite <| .ite (.ite h.execProbeCommit h.execProbeStageWrite) <| .ite (.next h.errctl) <|
  .ite h.execJournalConfigWrite <| .ite h.execFwcmd <| .ite h.execAttcmd <| .ite h.execSpareWrite <| .ite h.execRowSpareTableWrite <|
  .next (h.ownerWrite h.plainWrite)
theorem MemForm.answer {m : Fin 4} {dmwr waits : Bool} : MemForm (s.answer m dmwr waits) := .ite (h.withHost fun hx => hx) h
theorem MemForm.execMgmtRegisterWrite {m : Fin 4} {off : Nat} {bytes : List Byte} {dmwr : Bool} :
    Keeps (execMgmtRegisterWrite m off bytes dmwr s) := by
  refine .ite (.next h.refuse.answer) fun t done => ?_
  have kept := h.mgmtWrite (m := m) (off := off) (v := w64 (leVal bytes))
  split at done
  next u written => exact Host.Outcome.next.inj done ▸ (kept u written).answer
  next => exact kept t done
theorem MemForm.masterRead {m : Fin 4} {off : Nat} : MemForm (s.masterRead m off) := h

/-! ## Taps (R266 to R272) -/

theorem MemForm.openTap {layer point d : Nat} : MemForm (s.openTap layer point d) := h.modCtx
theorem MemForm.readSteer {base : Word} {ks : List Nat} : Gives (s.readSteer base ks) := by
  induction ks generalizing s with
  | nil => exact h
  | cons k ks ih => exact .give h.scalarVal fun _ _ h => .give h.scalarVal fun _ _ h => .ite h (.give (ih h) fun _ _ h => h)
theorem MemForm.needGlobal {p : Word} {z : Nat} : Checks (s.needGlobal p z) := .check h.place fun x => by
  split
  · exact trivial
  · exact h
theorem MemForm.readVectors {steer : List Steer} {slotOf dimOf : Nat → Nat} {is : List Nat} : Gives (s.readVectors steer slotOf dimOf is) := by
  induction is generalizing s with
  | nil => exact h
  | cons i is ih =>
    unfold State.readVectors
    split
    · exact .ite (ih h) (.check h.needGlobal fun _ => .give h.scalarVal fun _ _ h => .give (ih h) fun _ _ h => h)
    · exact ih h
theorem MemForm.execTap {c : Ctl} {f : FX} : Keeps (execTap c f s) := h.run fun h => .ite h.advance (.check h.vecStart fun _ =>
  .check h.field fun d => .ite h (.check h.checkStream fun _ => .ite h (by
    split
    · exact h
    · refine .ite h (h.undo ?_)
      extract_lets score
      have scored {x : List Steer × State} (h1 : MemForm x.2) : Steps (score x) := by
        refine .give h1.readVectors fun vs t h2 => .ite h2 (.check h2.checkParity fun _ => ?_)
        have h3 : MemForm (if s.ctx.tap.isOpen then t else t.openTap f.xf.toNat f.sub.toNat (bitsAt (s.val f.opa) 0 16)) := .ite h2 h2.openTap
        extract_lets _ u tap
        split
        · exact h
        · exact MemForm.advance (MemForm.putLanes (MemForm.modCtx h3))
      refine .ite ?_ (.check h.needGlobal fun _ => .give h.readSteer fun x t h1 => scored (x := (x, t)) h1)
      exact scored (x := ([], s)) h)))
theorem MemForm.execTapfin {c : Ctl} {f : FR} : Keeps (execTapfin c f s) :=
  h.run fun h => .ite h (.ite h.advance (.ite h.modCtx.advance h.modCtx))
theorem MemForm.execTapq {c : Ctl} {f : FR} : Keeps (execTapq c f s) := h.run fun h => .check h.checkDest fun _ => by
  dsimp only
  split
  · exact .ite h h.putS.advance
  · exact h.putS.advance
  · exact h.putS.advance
  · exact h.putS.advance
  · exact h.putS.advance

end

end Sys2Proof.Machine
end

section
/-! SUPPORT. The canonical form through every instruction and event. -/

namespace Sys2Proof.Machine

section
variable {s : State} (h : MemForm s)
include h

theorem MemForm.dropSent {dest src : Nat} {seq : BitVec 32} : MemForm (s.dropSent dest src seq) := h

theorem MemForm.exec {i : Instr} : Keeps (exec i s) := by
  cases i with
  | ret _ _ =>
    unfold Machine.exec
    exact h.run fun h => .check h.target fun _ => h.goto
  | yield _ _ =>
    unfold Machine.exec
    exact h.run fun h => h.advance
  | trap _ _ | brk _ _ =>
    unfold Machine.exec
    exact h.run fun h => h.softTrap
  | rfe _ _ =>
    unfold Machine.exec
    exact h.run fun h => h.rfe
  | add _ _ | sub _ _ | mul _ _ =>
    unfold Machine.exec
    exact h.run fun h => h.arithOp
  | mulh _ _ | mulhn _ _ | div _ _ | divn _ _ | rem _ _ | remn _ _ | and _ _ | or _ _ | xor _ _ | andn _ _ | shl _ _ | shr _ _
  | sar _ _ | rot _ _ | min _ _ | max _ _ | minn _ _ | maxn _ _ | clz _ _ | ctz _ _ | popc _ _ | sext _ _ | mov _ _ | sel _ _
  | hmix _ _ | spid _ _ =>
    unfold Machine.exec
    exact h.run fun h => h.scalarOp
  | sfadd _ _ | sfmul _ _ | sffma _ _ =>
    unfold Machine.exec
    exact h.run fun h => h.floatOp
  | cmp _ _ | pand _ _ | por _ _ | pxor _ _ | pnot _ _ | spt _ _ =>
    unfold Machine.exec
    exact h.run fun h => h.predOp
  | vsid _ _ | vidx _ _ =>
    unfold Machine.exec
    exact h.run fun h => h.laneNumber
  | vadd _ _ | vsub _ _ | vmul _ _ | vmulh _ _ | vmac _ _ | vmin _ _ | vmax _ _ | vsel _ _ =>
    unfold Machine.exec
    exact h.run fun h => h.int2
  | vadds _ _ | vsubs _ _ | vneg _ _ | vabs _ _ | vpopc _ _ | vclz _ _ =>
    unfold Machine.exec
    exact h.run fun h => h.int1
  | vand _ _ | vor _ _ | vxor _ _ =>
    unfold Machine.exec
    exact h.run fun h => h.bitwise
  | vshl _ _ | vshr _ _ | vsar _ _ =>
    unfold Machine.exec
    exact h.run fun h => h.shiftForm
  | vfadd _ _ | vfsub _ _ | vfmul _ _ | vffma _ _ | vfmm _ _ =>
    unfold Machine.exec
    exact h.run fun h => h.flt2
  | vfexp2 _ _ | vfrcp _ _ =>
    unfold Machine.exec
    exact h.run fun h => h.flt1
  | asrch _ _ | asrchr _ _ =>
    unfold Machine.exec
    exact h.run fun h => h.searchForm
  | mand _ _ | mor _ _ | mxor _ _ | mnot _ _ =>
    unfold Machine.exec
    exact h.run fun h => h.maskOp
  | mrow _ _ | mrowh _ _ =>
    unfold Machine.exec
    exact h.run fun h => h.rowForm
  | gstart _ _ | ginv _ _ =>
    unfold Machine.exec
    exact h.run fun h => h.startGen
  | pfxlFind _ _ | pfxlPin _ _ =>
    unfold Machine.exec
    exact h.run fun h => h.pfxLookup
  | seepHalt | seepSync =>
    unfold Machine.exec
    exact .onUnit fun _ _ => h
  | fld _ _ | seepAdd _ | seepMul _ | fma _ | deq _ | seepMax _ | rsum _ | idle =>
    unfold Machine.exec
    exact h.unitOp
  | backInvalidate _ =>
    unfold Machine.exec
    exact .next h.backInvalidate
  | trainAck _ _ _ =>
    unfold Machine.exec
    exact .next h.dropSent
  | seepKernelFail _ _ =>
    unfold Machine.exec
    exact .next h.modKernel
  | claim _ _ | renew _ _ | offer _ _ | accept _ _ | release _ _ =>
    unfold Machine.exec
    exact .next h.ownCommand
  | qrst _ _ | dstop _ _ =>
    unfold Machine.exec
    exact .next h.errctl
  | nop c f => exact h.execNop (f := f)
  | br _ _ => exact h.execBr
  | call _ _ => exact h.execCall
  | brr _ _ => exact h.execBrr
  | callr _ _ => exact h.execCallr
  | vloop _ _ => exact h.execVloop
  | vend _ _ => exact h.execVend
  | vbreak _ _ => exact h.execVbreak
  | exit c f => exact h.execExit (f := f)
  | bext _ _ => exact h.execBext
  | bins _ _ => exact h.execBins
  | li _ _ => exact h.execLi
  | lih _ _ => exact h.execLih
  | sfcmp _ _ => exact h.execSfcmp
  | sfcvt _ _ => exact h.execSfcvt
  | sfmm _ _ => exact h.execSfmm
  | pany _ _ => exact h.execPany
  | mfc _ _ => exact h.execMfc
  | mtc _ _ => exact h.execMtc
  | spc _ _ => exact h.execSpc
  | spmk _ _ => exact h.execSpmk
  | vfmap _ _ => exact h.execVfmap
  | vdim _ _ => exact h.execVdim
  | vbcast _ _ => exact h.execVbcast
  | vnot _ _ => exact h.execVnot
  | vcmp _ _ => exact h.execVcmp
  | vmov _ _ => exact h.execVmov
  | vcvt _ _ => exact h.execVcvt
  | vbext _ _ => exact h.execVbext
  | vfcmp _ _ => exact h.execVfcmp
  | vfcvt _ _ => exact h.execVfcvt
  | vfsgn _ _ => exact h.execVfsgn
  | vfscl _ _ => exact h.execVfscl
  | vfnb8 _ _ => exact h.execVfnb8
  | awr _ _ => exact h.execAwr
  | apass _ _ => exact h.execApass
  | acnt _ _ => exact h.execAcnt
  | afirst _ _ => exact h.execAfirst
  | atopk _ _ => exact h.execAtopk
  | aext _ _ => exact h.execAext
  | ahamm _ _ => exact h.execAhamm
  | asred _ _ => exact h.execAsred
  | ared _ _ => exact h.execAred
  | vhash _ _ => exact h.execVhash
  | msetmvl _ _ => exact h.execMsetmvl
  | msacc _ _ => exact h.execMsacc
  | mext _ _ => exact h.execMext
  | mclrAcc _ _ => exact h.execMclrAcc
  | mclrB _ _ => exact h.execMclrB
  | mzfScan _ _ => exact h.execMzfScan
  | mzfGet _ _ => exact h.execMzfGet
  | mwait _ _ => exact h.execMwait
  | mtok _ _ => exact h.execMtok
  | mdrain c f => exact h.execMdrain (f := f)
  | ld _ _ => exact h.execLd
  | st _ _ => exact h.execSt
  | vld _ _ => exact h.execVld
  | vlds _ _ => exact h.execVlds
  | vldx _ _ => exact h.execVldx
  | vldd _ _ => exact h.execVldd
  | vst _ _ => exact h.execVst
  | vsts _ _ => exact h.execVsts
  | vstx _ _ => exact h.execVstx
  | vstd _ _ => exact h.execVstd
  | vldh _ _ => exact h.execVldh
  | vsth _ _ => exact h.execVsth
  | prf _ _ => exact h.execPrf
  | cmoWb _ _ => exact h.execCmoWb
  | cmoBind _ _ => exact h.execCmoBind
  | cmoInv _ _ => exact h.execCmoInv
  | stfl _ _ => exact h.execStfl
  | amo _ _ _ => exact h.execAmo
  | cas _ _ => exact h.execCas
  | vamo _ _ _ => exact h.execVamo
  | scred _ _ => exact h.execScred
  | binap _ _ => exact h.execBinap
  | binpl _ _ => exact h.execBinpl
  | phase _ _ => exact h.execPhase
  | barinit _ _ => exact h.execBarinit
  | bararr _ _ => exact h.execBararr
  | barwait _ _ => exact h.execBarwait
  | bartest _ _ => exact h.execBartest
  | card _ _ _ => exact h.execCard
  | cardq _ _ => exact h.execCardq
  | strm _ _ => exact h.execStrm
  | strmkv _ _ => exact h.execStrmkv
  | strmxStop _ _ => exact h.execStrmxStop
  | strmxStat _ _ => exact h.execStrmxStat
  | seep _ _ => exact h.execSeep
  | gath _ _ => exact h.execGath
  | hld _ _ => exact h.execHld
  | hst _ _ => exact h.execHst
  | hqWord _ _ => exact h.execHqWord
  | hqInv _ _ => exact h.execHqInv
  | hmaskLin _ _ => exact h.execHmaskLin
  | hmaskTr _ _ => exact h.execHmaskTr
  | gnextScalar _ _ => exact h.execGnextScalar
  | gnextVector _ _ => exact h.execGnextVector
  | tap _ _ => exact h.execTap
  | tapfin _ _ => exact h.execTapfin
  | tapq _ _ => exact h.execTapq
  | launch _ _ => exact h.execLaunch
  | withdraw _ _ => exact h.execWithdraw
  | pgreq _ _ => exact h.execPgreq
  | pgpin _ _ => exact h.execPgpin
  | pgunpin _ _ => exact h.execPgunpin
  | tlbi _ _ => exact h.execTlbi
  | hot _ _ => exact h.execHot
  | pfxlPage _ _ => exact h.execPfxlPage
  | pfxiIns _ _ => exact h.execPfxiIns
  | pfxiUnpin _ _ => exact h.execPfxiUnpin
  | seepLoop => exact h.execSeepLoop
  | fldx _ _ => exact h.execFldx
  | seepSt _ _ => exact h.execSeepSt
  | stc _ => exact h.execStc
  | red _ _ _ => exact h.execRed
  | deviceReset _ _ => exact MemForm.execDeviceReset
  | stripStart _ _ => exact h.execStripStart
  | tarnScrub _ _ => exact h.execTarnScrub
  | rowAccept _ => exact h.execRowAccept
  | rowComplete _ _ => exact h.execRowComplete
  | storePerform _ => exact h.execStorePerform
  | stashFill _ _ _ => exact h.execStashFill
  | stashWriteBack _ _ _ => exact h.execStashWriteBack
  | cardDispatch _ => exact h.execCardDispatch
  | cardReleasedArrival _ => exact h.execCardReleasedArrival
  | cardVisibleArrival _ => exact h.execCardVisibleArrival
  | streamReadAhead _ _ _ => exact h.execStreamReadAhead
  | gatherVisibleArrival _ => exact h.execGatherVisibleArrival
  | trainReceive _ => exact h.execTrainReceive
  | seepClaimGrant _ => exact h.execSeepClaimGrant
  | seepRelease _ => exact h.execSeepRelease
  | hostWindowWrite _ _ _ _ => exact h.execHostWindowWrite
  | wdraw _ => exact h.execWdraw
  | gangStart _ _ _ => exact h.execGangStart
  | launchComplete _ => exact h.execLaunchComplete
  | quantumExpiry _ _ => exact h.execQuantumExpiry
  | preemptDecision _ _ _ _ _ => exact h.execPreemptDecision
  | stopPointReached _ => exact h.execStopPointReached
  | swapSave _ => exact h.execSwapSave
  | swapLoad _ _ => exact h.execSwapLoad
  | trapRecordWrite _ => exact h.execTrapRecordWrite
  | migrationSectorCopy _ => exact h.execMigrationSectorCopy
  | migrationFinish _ => exact h.execMigrationFinish
  | residencyRewalk _ => exact h.execResidencyRewalk
  | hotnessAdd _ => exact h.execHotnessAdd
  | tqconsWrite _ _ _ => exact h.execTqconsWrite
  | tqactReplay _ _ _ => exact h.execTqactReplay
  | tqactTerminate _ _ _ => exact h.execTqactTerminate
  | quantumWrite _ _ _ => exact h.execQuantumWrite
  | savebaseWrite _ _ _ => exact h.execSavebaseWrite
  | savelimWrite _ _ _ => exact h.execSavelimWrite
  | migvaWrite _ _ _ => exact h.execMigvaWrite
  | migrationStart _ _ _ => exact h.execMigrationStart
  | rqconsWrite _ _ => exact h.execRqconsWrite
  | tlbia _ _ => exact h.execTlbia
  | rpclr _ _ => exact h.execRpclr
  | pfxinv _ _ => exact h.execPfxinv
  | probeStageWrite _ _ _ _ => exact h.execProbeStageWrite
  | probeCommit _ _ _ => exact h.execProbeCommit
  | flitReceive _ _ => exact h.execFlitReceive
  | linkRetryTimeout _ => exact h.execLinkRetryTimeout
  | portctl _ _ => exact h.execPortctl
  | hostBar4Read _ _ => exact h.execHostBar4Read
  | hostBar4Write _ _ _ => exact h.execHostBar4Write
  | msixUnmask _ => exact h.execMsixUnmask
  | leaseExpiry _ => exact h.execLeaseExpiry
  | mgmtRegisterWrite _ _ _ _ => exact h.execMgmtRegisterWrite
  | mlogcons _ _ => exact h.execMlogcons
  | memoryError _ _ => exact h.execMemoryError
  | thermalBandChange _ _ => exact h.execThermalBandChange
  | fwcmd _ _ => exact h.execFwcmd
  | attcmd _ _ => exact h.execAttcmd
  | spareWrite _ _ _ => exact h.execSpareWrite
  | rowSpareTableWrite _ _ _ _ => exact h.execRowSpareTableWrite
  | journalConfigWrite _ _ _ _ => exact h.execJournalConfigWrite

end

end Sys2Proof.Machine
end

section
/-! SUPPORT. The canonical form through a turn of the machine. -/

namespace Sys2Proof.Machine

section
variable {s : State} (h : MemForm s)
include h

/-! ## Fetch and issue (R26 to R29, R163) -/

theorem MemForm.readPacket {a : Word} : Leaves MemForm (fun x => MemForm x.2.2) (s.readPacket a) := by
  refine .check h.place fun x => ?_
  split
  next va =>
    have found := memForm_closed.findVirt h s.cur.core s.asid va false
    dsimp only
    split <;> rename_i eq <;> rw [eq] at found
    · exact found
    · exact found
    · exact MemForm.waitPage found
    · refine .ite found (.ite found ?_)
      split
      · exact MemForm.touchL2 found
      · exact MemForm.touchL2 found
  next => exact h
theorem MemForm.enterPacket : Gives s.enterPacket := by
  unfold State.enterPacket
  split
  · exact h
  · refine .give2 (h.undo h.readPacket) fun p bad s1 h1 => .ite h ?_
    split
    · exact h1
    · exact .ite h h1.setThread
theorem MemForm.fetch : Gives s.fetch := .give h.enterPacket fun p s1 h1 => .ite h1.goto (by
  dsimp only
  split
  · exact h1
  · exact h1)
omit h in
theorem MemForm.noteWait {t : State} (ht : MemForm t) : MemForm (s.noteWait t) := .ite ht.waitBegins (.ite ht.modCtx ht)
theorem MemForm.runInstr {i : Instr} : Keeps (s.runInstr i) := by
  refine .ite (.next h.waitBegins) fun t done => ?_
  split at done
  next u eq =>
    have kept := MemForm.noteWait (s := s) (h.exec u eq)
    exact Host.Outcome.next.inj done ▸ kept
  next => exact h.exec t done
theorem MemForm.issueNow : Keeps s.issueNow := by
  have fetched := h.fetch
  unfold State.issueNow
  split <;> rename_i eq <;> rw [eq] at fetched
  · exact .next (MemForm.takeTrap fetched)
  · exact .next fetched
  · exact .next fetched
  · exact MemForm.runInstr fetched
theorem MemForm.issueTurn {i : Issuer} : Keeps (s.issueTurn i) := by
  refine .ite (.next h) (.ite (Steps.settle (MemForm.beginCtx ?_)) (MemForm.issueNow ?_))
  · exact h
  · exact h

/-! ## Running ahead, retirement and traps (R163 to R168) -/

theorem MemForm.withRegsOf {t : State} : MemForm (s.withRegsOf t) := by
  unfold State.withRegsOf
  split
  · exact h.modStrip
  · exact h.modCtx
theorem MemForm.aheadNow : Keeps s.aheadNow := by
  have fetched := h.fetch
  unfold State.aheadNow
  split <;> rename_i eq <;> rw [eq] at fetched
  · exact .next fetched
  next i s1 =>
    have h1 : MemForm s1 := fetched
    split
    · exact .next h
    · refine .ite (.ite (.next h) (.ite (.next h.waitBegins) (.next h1.advance.waitEnds.modCtx))) (.ite (.next h) ?_)
      split
      next t done =>
        have ht := h1.exec t done
        refine .ite (.next h) ?_
        split
        · exact .next ht.waitEnds
        · exact .ite (.next h.waitBegins) (.next (ht.waitEnds.modCore fun _ hc => hc))
      next => exact .next h
  · exact .next h
theorem MemForm.aheadTurn {i : Issuer} : Keeps (s.aheadTurn i) := by
  refine .ite (MemForm.aheadNow ?_) (.next h)
  exact h
theorem MemForm.putBack {x : Hist} : MemForm (s.putBack x) := by
  unfold State.putBack
  split
  · exact h.writeS
  · exact h.writeP
  · exact h
theorem MemForm.rollBack {e : Unretired} : MemForm (s.rollBack e) :=
  MemForm.setThread (MemForm.modCtx (MemForm.modRest (h.foldl (fun _ ht => ht.putBack) _)))
theorem MemForm.retireNow {e : Unretired} : Keeps (s.retireNow e) := by
  unfold State.retireNow
  dsimp only
  have h1 := h.rollBack (e := e)
  split
  next t done =>
    have ht := h1.exec t done
    exact .ite (.next ht) (.ite (.next (MemForm.modCtx (MemForm.keepWait (.ite h1 h)))) (.next (ht.withRegsOf.modCtx.modCore fun _ hc => hc)))
  next => exact fun t done => h1.exec t done
theorem MemForm.retireTurn {i : Issuer} : Keeps (s.retireTurn i) := by
  unfold State.retireTurn
  dsimp only
  split
  · refine .ite (MemForm.retireNow ?_) (.next h)
    exact h
  · exact .next h
theorem MemForm.deliverTurn {k : Nat} : MemForm (s.deliverTurn k) := by
  refine .ite h ?_
  split
  · exact h
  · exact h.asIssuer fun ht => MemForm.takeTrap (.ite ht.modStrip ht.modCtx)

/-! ## The other turns -/

theorem MemForm.probeWait {i : Issuer} : MemForm (s.probeWait i) := .ite (.ite h.modCtxAt h.modCtxAt) h
theorem MemForm.probeSaved {q : Fin 4} {x : Saved} {k : Nat} {c : Ctx} {i : Issuer} : MemForm (s.probeSaved q x k c i) := .ite h.wakeSaved h
theorem MemForm.noteWakes : MemForm s.noteWakes := by
  refine .ite h (MemForm.foldl (MemForm.mapQuarters (MemForm.foldl h (fun _ ht => ?_) _) fun _ hx => ?_) (fun q ht => ?_) _)
  · exact ht.probeWait
  · exact hx
  · exact ht.foldl (fun x ht => ht.foldl (fun c ht => ht.foldl (fun n ht => ht.probeSaved) _) _) _
theorem MemForm.unitTurn {id n : Nat} : Keeps (s.unitTurn id n) := by
  unfold State.unitTurn
  split
  · exact .next h
  · split
    · exact .next h
    · refine .ite (.next h) ?_
      dsimp only
      split
      · exact .next h
      · refine MemForm.exec ?_
        exact h
theorem MemForm.eventTurn {e : Instr} : Keeps (s.eventTurn e) := by
  unfold State.eventTurn
  split
  · exact .ite h.exec (.next h)
  · exact .next h
theorem MemForm.elemTurn {id : Nat} : MemForm (s.elemTurn id) := by
  unfold State.elemTurn
  split
  · exact h.gatherTurn
  · exact h
theorem MemForm.runTurn {t : Turn} : Keeps (s.runTurn t) := by
  cases t with
  | issue i => exact h.issueTurn
  | ahead i => exact h.aheadTurn
  | retire i => exact h.retireTurn
  | deliver k => exact .next h.deliverTurn
  | ctxEnd k => exact .next h.tryEnd
  | unit id n => exact h.unitTurn
  | event e => exact h.eventTurn
  | evict core k => exact .next (h.modCoreAt core fun _ hc => hc)
  | evictTlb unit k => exact .next h
  | evictL2 q k => exact .next (h.modQuarter q fun _ hy => hy)
  | row id => exact .next h.rowTurn
  | gather id => exact .next h.elemTurn
  | tlbia => exact .next h.tlbiaTurn
  | imageDone => exact .next h.imageDone
  | reportDone => exact .next h.reportDone
  | mgmtRead m off => exact .next h.masterRead
  | bar0Read off n => exact .next h.bar0Read
  | msixWrite off bytes => exact .next h.msixWrite
theorem MemForm.fullTurn {t : Turn} : Keeps (s.fullTurn t) := by
  intro u done
  unfold State.fullTurn at done
  split at done
  next v eq => exact Host.Outcome.next.inj done ▸ (h.runTurn v eq).noteWakes
  next => exact h.runTurn u done
theorem MemForm.step : Keeps (step s) := by
  unfold Machine.step State.stepTurn
  split
  · refine MemForm.fullTurn ?_
    exact h
  · split
    · exact h.fullTurn
    · exact .next h

end

end Sys2Proof.Machine

namespace Sys2Proof.Proofs
open Sys2Proof Sys2Proof.Machine Sys2Proof.Claims

/-- Settles O59: each operation of the machine writes byte memories through `wrBytes`, takes parts of them, empties them, or gives
back what a save record holds. -/
theorem stepKeepsMemoryForm : Obligations.StepKeepsMemoryForm := by
  unfold Obligations.StepKeepsMemoryForm
  exact fun s t h stepped => MemForm.step h t stepped

end Sys2Proof.Proofs
end
